-- ==== Sys2Proof/Word.lean ====
section
/-! DEFINITION. The word types of the PX-880 and the shape of a sparse map. -/

namespace Sys2Proof

/-- One instruction word, literal word, register or queue entry: 64 bits (R3). -/
abbrev Word := BitVec 64

/-- One byte of memory. -/
abbrev Byte := BitVec 8

/-- A 512-byte vector register image (R161). -/
abbrev Image := BitVec 4096

/-- One bit per element position (R161). -/
abbrev Pred := BitVec 512

/-- Finite data by number: pairs with strictly rising keys, no pair holding the default value. -/
abbrev SMap (α : Type) := List (Nat × α)

end Sys2Proof
end

