-- ==== Sys2Proof/Config.lean ====
section
/-! DEFINITION. What the manual leaves open: constants with no body. Nothing in Lean can compute a value of one of
them, so a statement that holds of the model holds for every value they could have. -/

namespace Sys2Proof.Config

/-- Log entry 2. Which of the allowed writes an unordered read returns (R327, R337): the n-th free draw. -/
opaque pick : Nat → Nat

/-- Log entry 13. Energy in nanojoules that an island drew between two updates (R436): measured, so free. The
arguments are the draw number and the island. -/
opaque energy : Nat → Nat → Nat

/-- Log entry 10. What the temperature sensor behind an SMBus code reads at a cycle (R463): measured, so free. The
arguments are the cycle and the command code. -/
opaque temperature : Nat → Nat → BitVec 16

/-- Log entry 14. Energy in nanojoules that an engine counts for one command (R436). -/
opaque commandEnergy : Nat → Nat

/-- Log entry 15. Syndrome that an error log records for an event (R443); the manual gives no code matrix. -/
opaque syndrome : Nat → BitVec 8

/-- Log entry 16. The Ed25519 signature over an attestation report (R451), by the package's key. -/
opaque signEd25519 : List Byte → List Byte

/-- Log entry 16. The ML-DSA-65 signature over an attestation report (R451). -/
opaque signMlDsa65 : List Byte → List Byte

/-- Log entry 16. SHA3-256 images of the firmware of release line 1 (R451): the Pileus image's bytes. -/
opaque pileusImage : List Byte

/-- Log entry 16. The Overcast image's bytes (R451). -/
opaque overcastImage : List Byte

/-- Log entry 18. Which of the disagreeing entries of a contiguous block a translation uses (R373). -/
opaque contiguousPick : Nat → Nat

/-- Log entry 20. A value that a table or register holds where the manual states no value for the case. -/
opaque freeWord : Nat → Word

end Sys2Proof.Config
end

