-- ==== Sys2Proof/Syntax.lean ====
section
/-! DEFINITION. The instructions, engine commands and events of the opcode table, one constructor for each row. Every
number is the unsigned value of the field of the word (R37); signed readings are taken where the meaning uses it. -/

namespace Sys2Proof

/-- The streams of a core; their path numbers are 0 to 3 (R70). -/
inductive Stream where
  | c | a | v | m
  deriving DecidableEq, Repr

/-- Path number of a stream (R324). -/
def Stream.num : Stream → Nat
  | .c => 0 | .a => 1 | .v => 2 | .m => 3

/-- Iteration kind, field I (R30). -/
inductive Iter where
  | always | first | last | nfirst
  deriving DecidableEq, Repr

/-- The wait byte, the signal byte and the iteration kind of a word (R27). -/
structure Hdr where
  w : Nat
  g : Nat
  it : Iter
  deriving DecidableEq, Repr

/-- Element types (R39). -/
inductive Ty where
  | f64 | f32 | bf16 | f16 | i64 | i32 | i16 | i8
  deriving DecidableEq, Repr

/-- Types of C's floating instructions (R109). -/
inductive FTy where
  | f64 | f32
  deriving DecidableEq, Repr

/-- The floating element types (R39, R186). -/
inductive VFTy where
  | f64 | f32 | bf16 | f16
  deriving DecidableEq, Repr

/-- Rounding field m (R40). -/
inductive Rnd where
  | dyn | rne | rtz | srk
  deriving DecidableEq, Repr

/-- Product formats of M words (R42). -/
inductive MFmt where
  | f64 | f32 | bf16 | f16 | mx8 | mx6 | mx4
  deriving DecidableEq, Repr

/-- Widths of an MXINT block (R186). -/
inductive MxW where
  | mx8 | mx6 | mx4
  deriving DecidableEq, Repr

inductive MulhKind where
  | ss | uu | su
  deriving DecidableEq, Repr

/-- Conditions of CMP (R106). -/
inductive Cond where
  | eq | ne | lt | ge | ltu | geu | le | gt | leu | gtu
  deriving DecidableEq, Repr

/-- Kinds of SEXT (R102). -/
inductive ExtKind where
  | s8 | s16 | s32 | z8 | z16 | z32
  deriving DecidableEq, Repr

/-- Sub-ops of MOVL (R134). -/
inductive LitKind where
  | s32 | z32 | s48 | h48
  deriving DecidableEq, Repr

/-- Conditions of FCMP (R112). -/
inductive FCond where
  | eq | ne | lt | le | gt | ge | un | ord
  deriving DecidableEq, Repr

/-- Types that FCVT names (R113). -/
inductive CvtTy where
  | f64 | f32 | i64 | i32
  deriving DecidableEq, Repr

/-- Conditions of BR (R114). -/
inductive BrCond where
  | z | nz | lt | ge | gt | le | odd | even | al
  deriving DecidableEq, Repr

/-- Sizes and extensions of LD (R118). -/
inductive LdKind where
  | u8 | s8 | u16 | s16 | u32 | s32 | x64 | x128
  deriving DecidableEq, Repr

/-- Sizes of ST (R118). -/
inductive StKind where
  | b8 | b16 | b32 | b64 | b128
  deriving DecidableEq, Repr

/-- Atomicity requests (R118, R192). -/
inductive At where
  | dflt | a8 | a16
  deriving DecidableEq, Repr

/-- Sub-ops of AMO (R230). -/
inductive AmoOp where
  | add | and | or | xor | smin | smax | umin | umax | swap | fadd
  deriving DecidableEq, Repr

/-- Sizes of AMO and of SPAPP. -/
inductive WD where
  | w | d
  deriving DecidableEq, Repr

/-- Sizes of CAS (R231). -/
inductive CasSz where
  | w | d | q
  deriving DecidableEq, Repr

/-- BWAIT has one form in C and A and another in V (R235). -/
inductive BwaitForm where
  | scalar (d a off : Nat)
  | vector (b : Nat)
  deriving DecidableEq, Repr

/-- Scopes of CDIFF (R268). -/
inductive DiffScope where
  | core | clu | coh
  deriving DecidableEq, Repr

/-- Scopes of TLBINV and CLBINV. -/
inductive InvScope where
  | core | pkg
  deriving DecidableEq, Repr

/-- Sub-ops of TLBINV (R378). -/
inductive TlbSub where
  | va | asid | all
  deriving DecidableEq, Repr

/-- Sub-ops of CLBINV (R391). -/
inductive ClbSub where
  | tile | vol | all
  deriving DecidableEq, Repr

/-- Generators (R319). -/
inductive GenSel where
  | c | a | v
  deriving DecidableEq, Repr

/-- Comparison rules of SPCMP (R401). -/
inductive SpRule where
  | exact | ulp | rel
  deriving DecidableEq, Repr

/-- Kinds of draw (R406). -/
inductive DrawKind where
  | tmp | prob | res
  deriving DecidableEq, Repr

/-- Conditions of VCMP (R183). -/
inductive VCond where
  | eq | ne | lt | le | gt | ge | un | ord | ltu | leu | gtu | geu
  deriving DecidableEq, Repr

/-- Operations of VRED and VSCAN (R187). -/
inductive RedOp where
  | add | mul | min | max | and | or | xor
  deriving DecidableEq, Repr

/-- Segments of VRED and VSCAN (R187). -/
inductive Seg where
  | all | dim0
  deriving DecidableEq, Repr

/-- Sub-ops of VTOK (R153). -/
inductive TokSub where
  | elt | any | all | cnt
  deriving DecidableEq, Repr

/-- Sub-ops of VMAPQ (R215). -/
inductive MapqSub where
  | kind | desc | elt
  deriving DecidableEq, Repr

/-- Sources of LSET (R170). -/
inductive LsetSrc where
  | imm | reg | q
  deriving DecidableEq, Repr

/-- Patterns of VSAL (R287). -/
inductive Pat where
  | p2of4 | p1of4 | p2of8
  deriving DecidableEq, Repr

/-- What a host access names besides bytes it covers (R453 to R456): its width in bytes. -/
abbrev Width := Nat

/-- One frame of the fabric, as its 32-byte header and its bytes give it (R458). -/
structure Frame where
  ver : Nat
  op : Nat
  src : Nat
  dst : Nat
  last : Bool
  fmt : Bool
  sy : Bool
  flags : Nat
  seq : Nat
  mid : Nat
  off : Nat
  len : Nat
  ack : Nat
  rsync : Nat
  data : List Byte
  deriving DecidableEq, Repr

/-- Every row of spec/opcode_table.json. Words carry their header first; a literal-taking word carries the literal's
field. Events carry what the agent that makes them supplies. -/
inductive Instr where
  -- 03, 05: NOP, hints, streams, jobs, signals
  | nop (h : Hdr)
  | hint (h : Hdr) (n : Nat)
  | join (h : Hdr)
  | signal (h : Hdr) (n : Nat) (cpl : Bool) (c : Nat)
  | mark (h : Hdr) (j e : Nat)
  | halt (h : Hdr) (a : Nat)
  | jwait (h : Hdr) (d : Nat) (any : Bool) (mask : Nat)
  | trap (h : Hdr) (a code : Nat)
  -- 18, 17, 25: FENCE, STAMP, PPOINT, ERET, CTXSAVE, CTXLOAD; 06: CRD, CWR; 17: HTREE
  | fence (h : Hdr) (mask : Nat)
  | stamp (h : Hdr) (a : Nat) (abs : Bool) (cyc : Nat)
  | ppoint (h : Hdr) (a b : Nat)
  | eret (h : Hdr)
  | ctxsave (h : Hdr) (d a : Nat) (yield : Bool)
  | ctxload (h : Hdr) (d a : Nat)
  | crd (h : Hdr) (d n : Nat)
  | cwr (h : Hdr) (a n : Nat)
  | htreeStart (h : Hdr) (a : Nat)
  | htreeStop (h : Hdr)
  | htreeWait (h : Hdr) (d b : Nat)
  -- 06: integer instructions
  | add (h : Hdr) (d a b : Nat)
  | sub (h : Hdr) (d a b : Nat)
  | mul (h : Hdr) (d a b : Nat)
  | mulh (h : Hdr) (k : MulhKind) (d a b : Nat)
  | div (h : Hdr) (u : Bool) (d a b : Nat)
  | rem (h : Hdr) (u : Bool) (d a b : Nat)
  | and (h : Hdr) (d a b : Nat)
  | or (h : Hdr) (d a b : Nat)
  | xor (h : Hdr) (d a b : Nat)
  | shl (h : Hdr) (d a b : Nat)
  | shr (h : Hdr) (d a b : Nat)
  | sar (h : Hdr) (d a b : Nat)
  | clz (h : Hdr) (d a : Nat)
  | popc (h : Hdr) (d a : Nat)
  | min (h : Hdr) (u : Bool) (d a b : Nat)
  | max (h : Hdr) (u : Bool) (d a b : Nat)
  | cmp (h : Hdr) (k : Cond) (d a b : Nat)
  | sel (h : Hdr) (d c a b : Nat)
  | movi (h : Hdr) (d imm : Nat)
  | sext (h : Hdr) (k : ExtKind) (d a : Nat)
  | movl (h : Hdr) (k : LitKind) (d lit : Nat)
  | addi (h : Hdr) (d a imm : Nat)
  -- 06, 07: floating instructions of C
  | fadd (h : Hdr) (t : FTy) (m : Rnd) (d a b : Nat)
  | fsub (h : Hdr) (t : FTy) (m : Rnd) (d a b : Nat)
  | fmul (h : Hdr) (t : FTy) (m : Rnd) (d a b : Nat)
  | fdiv (h : Hdr) (t : FTy) (m : Rnd) (d a b : Nat)
  | fsqrt (h : Hdr) (t : FTy) (m : Rnd) (d a : Nat)
  | fma (h : Hdr) (t : FTy) (m : Rnd) (d a b c : Nat)
  | fmin (h : Hdr) (t : FTy) (d a b : Nat)
  | fmax (h : Hdr) (t : FTy) (d a b : Nat)
  | fcmp (h : Hdr) (k : FCond) (t : FTy) (d a b : Nat)
  | fcvt (h : Hdr) (s t : CvtTy) (m : Rnd) (d a : Nat)
  | fmai (h : Hdr) (t : FTy) (m : Rnd) (d b imm : Nat)
  | fmal (h : Hdr) (t : FTy) (m : Rnd) (d a b lit : Nat)
  | fmak (h : Hdr) (t : FTy) (m : Rnd) (d a b n : Nat)
  -- 06, 13, 08: control flow
  | br (h : Hdr) (k : BrCond) (c off : Nat)
  | jmp (h : Hdr) (a off : Nat)
  | call (h : Hdr) (c off : Nat)
  | ret (h : Hdr) (a : Nat)
  | uiret (h : Hdr)
  | btok (h : Hdr) (q d l off : Nat)
  -- 06, 12, 07, 08: memory, atomics, barriers, constant bank, queue loads
  | ld (h : Hdr) (k : LdKind) (at_ : At) (d a off : Nat)
  | st (h : Hdr) (k : StKind) (at_ : At) (d a off : Nat)
  | amo (h : Hdr) (op : AmoOp) (sz : WD) (d a b off : Nat)
  | cas (h : Hdr) (sz : CasSz) (d a b off : Nat)
  | barm (h : Hdr) (d a b off : Nat)
  | acq (h : Hdr) (ge : Bool) (d a b off : Nat)
  | rel (h : Hdr) (d a off : Nat)
  | kldLd (h : Hdr) (a n cnt : Nat)
  | kldRd (h : Hdr) (d n : Nat)
  | ldq (h : Hdr) (q d off : Nat)
  | stq (h : Hdr) (d off : Nat)
  | bwait (h : Hdr) (f : BwaitForm)
  -- 08: queues and mailboxes
  | qpush (h : Hdr) (q d : Nat)
  | qpop (h : Hdr) (q d : Nat)
  | qtryPop (h : Hdr) (q d f : Nat)
  | qtryPush (h : Hdr) (q d f : Nat)
  | qlen (h : Hdr) (free : Bool) (q d : Nat)
  | ecut (h : Hdr) (d j e : Nat)
  | mbsend (h : Hdr) (d c : Nat)
  | mbrecv (h : Hdr) (d : Nat)
  -- 14, 16, 17, 21, 22
  | cdiff (h : Hdr) (sc : DiffScope) (d a : Nat)
  | cgo (h : Hdr) (try_ : Bool) (d : Nat)
  | glaunch (h : Hdr) (d a : Nat)
  | bsp (h : Hdr) (lv d : Nat)
  | rseed (h : Hdr) (g : GenSel) (a b : Nat)
  | rjump (h : Hdr) (g : GenSel) (a sh : Nat)
  | rnext (h : Hdr) (d : Nat)
  | tlbinv (h : Hdr) (k : TlbSub) (sc : InvScope) (a b : Nat)
  | clbinv (h : Hdr) (k : ClbSub) (sc : InvScope) (a b : Nat)
  -- 23, 24: Virga, sampler
  | spbegin (h : Hdr) (d a : Nat)
  | spcmp (h : Hdr) (k : SpRule) (ct : Bool) (d a b t nc : Nat)
  | spacc (h : Hdr) (d a b l : Nat)
  | spapp (h : Hdr) (sz : WD) (d a r : Nat)
  | spendG (h : Hdr)
  | spendB (h : Hdr) (a : Nat)
  | spendSrv (h : Hdr)
  | smp (h : Hdr) (k : DrawKind) (d a b slot n : Nat)
  | stopset (h : Hdr) (d a b slot cnt : Nat)
  -- 10: vector arithmetic
  | vadd (h : Hdr) (t : Ty) (p : Nat) (m : Rnd) (d a b : Nat)
  | vsub (h : Hdr) (t : Ty) (p : Nat) (m : Rnd) (d a b : Nat)
  | vmul (h : Hdr) (t : Ty) (p : Nat) (m : Rnd) (d a b : Nat)
  | vfma (h : Hdr) (t : Ty) (p : Nat) (m : Rnd) (d a b : Nat)
  | vdiv (h : Hdr) (t : Ty) (p : Nat) (m : Rnd) (d a b : Nat)
  | vsqrt (h : Hdr) (t : Ty) (p : Nat) (m : Rnd) (d a : Nat)
  | vexp2 (h : Hdr) (t : Ty) (p : Nat) (m : Rnd) (d a : Nat)
  | vlog2 (h : Hdr) (t : Ty) (p : Nat) (m : Rnd) (d a : Nat)
  | vmin (h : Hdr) (t : Ty) (p : Nat) (m : Rnd) (d a b : Nat)
  | vmax (h : Hdr) (t : Ty) (p : Nat) (m : Rnd) (d a b : Nat)
  | vabs (h : Hdr) (t : Ty) (p : Nat) (m : Rnd) (d a : Nat)
  | vneg (h : Hdr) (t : Ty) (p : Nat) (m : Rnd) (d a : Nat)
  | vand (h : Hdr) (t : Ty) (p : Nat) (m : Rnd) (d a b : Nat)
  | vor (h : Hdr) (t : Ty) (p : Nat) (m : Rnd) (d a b : Nat)
  | vxor (h : Hdr) (t : Ty) (p : Nat) (m : Rnd) (d a b : Nat)
  | vshl (h : Hdr) (t : Ty) (p : Nat) (m : Rnd) (d a b : Nat)
  | vshr (h : Hdr) (t : Ty) (p : Nat) (m : Rnd) (d a b : Nat)
  | vsar (h : Hdr) (t : Ty) (p : Nat) (m : Rnd) (d a b : Nat)
  | vaddi (h : Hdr) (d a imm : Nat)
  | vmuli (h : Hdr) (d a imm : Nat)
  | vfmai (h : Hdr) (d a imm : Nat)
  | vfmal (h : Hdr) (t : Ty) (p : Nat) (m : Rnd) (d a b lit : Nat)
  | vcmp (h : Hdr) (k : VCond) (t : Ty) (p pd a b : Nat)
  | vsel (h : Hdr) (t : Ty) (p d a b : Nat)
  | vcvt (h : Hdr) (s : Ty) (j : Nat) (sat : Bool) (t : Ty) (p : Nat) (m : Rnd) (d a : Nat)
  | vqmx (h : Hdr) (w : MxW) (t : VFTy) (p d a slot : Nat)
  | vdqmx (h : Hdr) (w : MxW) (t : VFTy) (p : Nat) (m : Rnd) (d a slot : Nat)
  | vred (h : Hdr) (op : RedOp) (sg : Seg) (t : Ty) (p : Nat) (m : Rnd) (d a : Nat)
  | vscan (h : Hdr) (op : RedOp) (sg : Seg) (t : Ty) (p : Nat) (m : Rnd) (d a : Nat)
  | vperm (h : Hdr) (pm : Bool) (t : Ty) (p d a b : Nat)
  | vcomp (h : Hdr) (t : Ty) (p d a : Nat)
  | vpart (h : Hdr) (four q4 : Bool) (t : Ty) (p d a : Nat)
  -- 09, 10, 22, 11, 17, 08, 15: the other V words
  | plogic (h : Hdr) (fn : Nat) (t : Ty) (p pd pa pb : Nat)
  | pcnt (h : Hdr) (pre : Bool) (t : Ty) (p d pa : Nat)
  | rpt (h : Hdr) (n sd sa sb : Nat)
  | vmov (h : Hdr) (t : Ty) (p d a : Nat)
  | vld (h : Hdr) (at_ : At) (t : Ty) (p : Nat) (m : Rnd) (d vw o : Nat)
  | vst (h : Hdr) (at_ : At) (t : Ty) (p : Nat) (m : Rnd) (d vw o : Nat)
  | vldc (h : Hdr) (p d a vw o0 o1 o2 : Nat)
  | vstc (h : Hdr) (p d a vw o0 o1 o2 : Nat)
  | vmapSet (h : Hdr) (d b : Nat)
  | vmapSlice (h : Hdr) (k d a b : Nat)
  | vmapPerm (h : Hdr) (d a b : Nat)
  | vmapShift (h : Hdr) (k d a b : Nat)
  | vmapq (h : Hdr) (k : MapqSub) (q4 : Bool) (a b : Nat)
  | vrndKey (h : Hdr) (t : Ty) (p d b : Nat)
  | vrndStr (h : Hdr) (t : Ty) (p d : Nat)
  | vtok (h : Hdr) (k : TokSub) (q4 : Bool) (t : Ty) (p a b : Nat)
  | lsetLoop (h : Hdr) (src : LsetSrc) (len val : Nat)
  | lsetView (h : Hdr) (src : LsetSrc) (vw fld val : Nat)
  | vsal (h : Hdr) (pat : Pat) (t : VFTy) (p d a b : Nat)
  -- 15: M words
  | mma (h : Hdr) (tr z : Bool) (f : MFmt) (t vw wb k : Nat)
  | msma (h : Hdr) (tr z : Bool) (f : MFmt) (t vw wb k : Nat)
  | mgrp (h : Hdr) (z : Bool) (f : MFmt) (t vw wb k : Nat)
  | mldw (h : Hdr) (f : MFmt) (t vw wb k : Nat)
  | mzero (h : Hdr) (t : Nat)
  | mdrain (h : Hdr) (tr z ins fl nost : Bool) (t vw : Nat)
  | acopy (h : Hdr) (tr acc : Bool) (ts td : Nat)
  -- engine commands: the engine of the core (or stack) does at most n beats or elements of its head command
  | copyLin (core n : Nat)
  | copyRect (core n : Nat)
  | copyFill (core n : Nat)
  | indexGat (core n : Nat)
  | indexSct (core n : Nat)
  | selPred (stack n : Nat)
  | selTopk (stack n : Nat)
  | selHist (stack n : Nat)
  | selFilt (stack n : Nat)
  | reduceCommand (stack n : Nat)
  | samplerTmp (core : Nat)
  | samplerProb (core : Nat)
  | samplerRes (core : Nat)
  -- events of a core
  | engineReplyPush (core e : Nat)
  | markerRetire (core e : Nat)
  | coupledSignalArrival (core : Nat)
  | mailboxTransfer (core : Nat)
  | ldqDataArrival (core q : Nat)
  | userInterruptEntry (core : Nat)
  | coreStop (core : Nat)
  | preemptHorizon (core : Nat)
  | enusedUpdate (core : Nat)
  | poolInterval
  | quantumBoundary (slot node : Nat)
  | htreeUpdate (core : Nat)
  | coreJobStart (core : Nat)
  | coreJobEnd (core : Nat)
  | dispatchDecision
  | nodeCompletion (slot node : Nat)
  | graphEnd (slot : Nat)
  | virgaIterationDispatch (lead : Nat)
  | virgaRoundCommit (lead : Nat)
  -- fabric
  | fabricPut (slot node : Nat)
  | fabricGet (slot node : Nat)
  | fabricRadd (slot node : Nat)
  | putData (f : Frame)
  | getRequest (f : Frame)
  | getData (f : Frame)
  | raddData (f : Frame)
  | fabricAck (f : Frame)
  | fabricNak (f : Frame)
  | fabricRetransmitTimeout (peer : Nat)
  | fabricFailureTimeout (peer : Nat)
  -- host
  | hostMemoryRead (addr n : Nat)
  | hostMemoryWrite (addr : Nat) (data : List Byte)
  | launchStore (i : Nat) (form8 : Bool) (addr : Word)
  | cbpopStore
  | cbdoneStore (v : Word)
  | hintstClear (mask : Word)
  | herrClear
  -- register writes
  | smpposWrite (core : Nat) (v : Word)
  | smpstWrite (core : Nat) (v : Word)
  | gdataWrite (core : Nat) (v : Word)
  | elogsClear (core : Nat)
  | einjWrite (core : Nat) (v : Word)
  | cretireWrite (sup host : Bool) (k : Nat) (v : Word)
  | regionTableWrite (sec : Bool) (k : Nat) (v : Word)
  | thermWrite (v : Nat)
  | registerWrite (core n : Nat) (v : Word)
  -- package
  | thermalStopBegin
  | thermalStopEnd
  | powerOnReset (pileusOk overcastOk : Bool)
  | attestationRequest (nonce : List Byte)
  | launchDecision (i : Nat)
  | softError (arr : Nat) (core : Nat) (idx : Nat) (bits : List Nat)
  | swiverLinkFailure
  | fabricFrameDropped (f : Frame)
  deriving DecidableEq, Repr

end Sys2Proof
end

