-- ==== Sys2Proof/WellFormed.lean ====
section
/-! DEFINITION. Which words are instructions: the operand checks of decode step 5 (R32), written once. The decoder
refuses a word whose fields fail them, and only then. -/

namespace Sys2Proof

def Ty.isFloat : Ty → Bool
  | .f64 | .f32 | .bf16 | .f16 => true
  | _ => false

/-- Elements per register (R39). -/
def Ty.count : Ty → Nat
  | .f64 | .i64 => 64
  | .f32 | .i32 => 128
  | .bf16 | .f16 | .i16 => 256
  | .i8 => 512

/-- Width of an element in bits. -/
def Ty.width : Ty → Nat
  | .f64 | .i64 => 64
  | .f32 | .i32 => 32
  | .bf16 | .f16 | .i16 => 16
  | .i8 => 8

def FTy.ty : FTy → Ty
  | .f64 => .f64 | .f32 => .f32

def VFTy.ty : VFTy → Ty
  | .f64 => .f64 | .f32 => .f32 | .bf16 => .bf16 | .f16 => .f16

def CvtTy.ty : CvtTy → Ty
  | .f64 => .f64 | .f32 => .f32 | .i64 => .i64 | .i32 => .i32

/-- Bytes of one packed block of 16 elements (R65). -/
def MxW.size : MxW → Nat
  | .mx8 => 18 | .mx6 => 14 | .mx4 => 10

def MFmt.isMx : MFmt → Bool
  | .mx8 | .mx6 | .mx4 => true
  | _ => false

/-- A source operand code of a V3 or VM word (R44). -/
def srcCode (c : Nat) : Bool := c < 650 || c == 655 || (768 ≤ c && c < 1024)

/-- A destination operand code: a register or q2 (R44). -/
def dstCode (c : Nat) : Bool := c < 640 || c == 650

/-- A register code. -/
def regCode (c : Nat) : Bool := c < 640

/-- A parameter code of VMAP, VRND and BWAIT: k0 to k255 or q7. -/
def parCode (c : Nat) : Bool := c == 655 || (768 ≤ c && c < 1024)

/-- The header of a word that is no literal word (R27, R34). -/
def Hdr.wf (h : Hdr) : Bool := h.w < 255 && h.g < 256

/-- A scalar register number. -/
def sreg (r : Nat) : Bool := r < 64

/-- Atomicity that a scalar kind accepts (R118). -/
def At.okScalar (a : At) (eight sixteen : Bool) : Bool :=
  match a with
  | .dflt => true
  | .a8 => eight || sixteen
  | .a16 => sixteen

def LdKind.at (k : LdKind) (a : At) : Bool := a.okScalar (k == .x64) (k == .x128)

def StKind.at (k : StKind) (a : At) : Bool := a.okScalar (k == .b64) (k == .b128)

/-- Conditions of VCMP by the sort of type (R183). -/
def VCond.ok (k : VCond) (t : Ty) : Bool :=
  match k with
  | .un | .ord => t.isFloat
  | .ltu | .leu | .gtu | .geu => !t.isFloat
  | _ => true

def RedOp.ok (op : RedOp) (t : Ty) : Bool :=
  match op with
  | .and | .or | .xor => !t.isFloat
  | _ => true

/-- Part indexes of VCVT (R185). -/
def cvtPartOk (s t : Ty) (j : Nat) : Bool :=
  if s.count = t.count then j == 0
  else if s.count > t.count then j < s.count / t.count
  else j < t.count / s.count

/-- A V3 word with two sources, with one source. -/
def v3ok (t : Bool) (p d a b : Nat) : Bool := t && p < 8 && dstCode d && srcCode a && srcCode b
def v3ok1 (t : Bool) (p d a : Nat) : Bool := t && p < 8 && dstCode d && srcCode a

/-- Header of a word; events and engine commands have none. -/
def Instr.hdr : Instr → Option Hdr
  | .nop h => some h
  | .hint h _ => some h
  | .join h => some h
  | .signal h _ _ _ => some h
  | .mark h _ _ => some h
  | .halt h _ => some h
  | .jwait h _ _ _ => some h
  | .trap h _ _ => some h
  | .fence h _ => some h
  | .stamp h _ _ _ => some h
  | .ppoint h _ _ => some h
  | .eret h => some h
  | .ctxsave h _ _ _ => some h
  | .ctxload h _ _ => some h
  | .crd h _ _ => some h
  | .cwr h _ _ => some h
  | .htreeStart h _ => some h
  | .htreeStop h => some h
  | .htreeWait h _ _ => some h
  | .add h _ _ _ => some h
  | .sub h _ _ _ => some h
  | .mul h _ _ _ => some h
  | .mulh h _ _ _ _ => some h
  | .div h _ _ _ _ => some h
  | .rem h _ _ _ _ => some h
  | .and h _ _ _ => some h
  | .or h _ _ _ => some h
  | .xor h _ _ _ => some h
  | .shl h _ _ _ => some h
  | .shr h _ _ _ => some h
  | .sar h _ _ _ => some h
  | .clz h _ _ => some h
  | .popc h _ _ => some h
  | .min h _ _ _ _ => some h
  | .max h _ _ _ _ => some h
  | .cmp h _ _ _ _ => some h
  | .sel h _ _ _ _ => some h
  | .movi h _ _ => some h
  | .sext h _ _ _ => some h
  | .movl h _ _ _ => some h
  | .addi h _ _ _ => some h
  | .fadd h _ _ _ _ _ => some h
  | .fsub h _ _ _ _ _ => some h
  | .fmul h _ _ _ _ _ => some h
  | .fdiv h _ _ _ _ _ => some h
  | .fsqrt h _ _ _ _ => some h
  | .fma h _ _ _ _ _ _ => some h
  | .fmin h _ _ _ _ => some h
  | .fmax h _ _ _ _ => some h
  | .fcmp h _ _ _ _ _ => some h
  | .fcvt h _ _ _ _ _ => some h
  | .fmai h _ _ _ _ _ => some h
  | .fmal h _ _ _ _ _ _ => some h
  | .fmak h _ _ _ _ _ _ => some h
  | .br h _ _ _ => some h
  | .jmp h _ _ => some h
  | .call h _ _ => some h
  | .ret h _ => some h
  | .uiret h => some h
  | .btok h _ _ _ _ => some h
  | .ld h _ _ _ _ _ => some h
  | .st h _ _ _ _ _ => some h
  | .amo h _ _ _ _ _ _ => some h
  | .cas h _ _ _ _ _ => some h
  | .barm h _ _ _ _ => some h
  | .acq h _ _ _ _ _ => some h
  | .rel h _ _ _ => some h
  | .kldLd h _ _ _ => some h
  | .kldRd h _ _ => some h
  | .ldq h _ _ _ => some h
  | .stq h _ _ => some h
  | .bwait h _ => some h
  | .qpush h _ _ => some h
  | .qpop h _ _ => some h
  | .qtryPop h _ _ _ => some h
  | .qtryPush h _ _ _ => some h
  | .qlen h _ _ _ => some h
  | .ecut h _ _ _ => some h
  | .mbsend h _ _ => some h
  | .mbrecv h _ => some h
  | .cdiff h _ _ _ => some h
  | .cgo h _ _ => some h
  | .glaunch h _ _ => some h
  | .bsp h _ _ => some h
  | .rseed h _ _ _ => some h
  | .rjump h _ _ _ => some h
  | .rnext h _ => some h
  | .tlbinv h _ _ _ _ => some h
  | .clbinv h _ _ _ _ => some h
  | .spbegin h _ _ => some h
  | .spcmp h _ _ _ _ _ _ _ => some h
  | .spacc h _ _ _ _ => some h
  | .spapp h _ _ _ _ => some h
  | .spendG h => some h
  | .spendB h _ => some h
  | .spendSrv h => some h
  | .smp h _ _ _ _ _ _ => some h
  | .stopset h _ _ _ _ _ => some h
  | .vadd h _ _ _ _ _ _ => some h
  | .vsub h _ _ _ _ _ _ => some h
  | .vmul h _ _ _ _ _ _ => some h
  | .vfma h _ _ _ _ _ _ => some h
  | .vdiv h _ _ _ _ _ _ => some h
  | .vsqrt h _ _ _ _ _ => some h
  | .vexp2 h _ _ _ _ _ => some h
  | .vlog2 h _ _ _ _ _ => some h
  | .vmin h _ _ _ _ _ _ => some h
  | .vmax h _ _ _ _ _ _ => some h
  | .vabs h _ _ _ _ _ => some h
  | .vneg h _ _ _ _ _ => some h
  | .vand h _ _ _ _ _ _ => some h
  | .vor h _ _ _ _ _ _ => some h
  | .vxor h _ _ _ _ _ _ => some h
  | .vshl h _ _ _ _ _ _ => some h
  | .vshr h _ _ _ _ _ _ => some h
  | .vsar h _ _ _ _ _ _ => some h
  | .vaddi h _ _ _ => some h
  | .vmuli h _ _ _ => some h
  | .vfmai h _ _ _ => some h
  | .vfmal h _ _ _ _ _ _ _ => some h
  | .vcmp h _ _ _ _ _ _ => some h
  | .vsel h _ _ _ _ _ => some h
  | .vcvt h _ _ _ _ _ _ _ _ => some h
  | .vqmx h _ _ _ _ _ _ => some h
  | .vdqmx h _ _ _ _ _ _ _ => some h
  | .vred h _ _ _ _ _ _ _ => some h
  | .vscan h _ _ _ _ _ _ _ => some h
  | .vperm h _ _ _ _ _ _ => some h
  | .vcomp h _ _ _ _ => some h
  | .vpart h _ _ _ _ _ _ => some h
  | .plogic h _ _ _ _ _ _ => some h
  | .pcnt h _ _ _ _ _ => some h
  | .rpt h _ _ _ _ => some h
  | .vmov h _ _ _ _ => some h
  | .vld h _ _ _ _ _ _ _ => some h
  | .vst h _ _ _ _ _ _ _ => some h
  | .vldc h _ _ _ _ _ _ _ => some h
  | .vstc h _ _ _ _ _ _ _ => some h
  | .vmapSet h _ _ => some h
  | .vmapSlice h _ _ _ _ => some h
  | .vmapPerm h _ _ _ => some h
  | .vmapShift h _ _ _ _ => some h
  | .vmapq h _ _ _ _ => some h
  | .vrndKey h _ _ _ _ => some h
  | .vrndStr h _ _ _ => some h
  | .vtok h _ _ _ _ _ _ => some h
  | .lsetLoop h _ _ _ => some h
  | .lsetView h _ _ _ _ => some h
  | .vsal h _ _ _ _ _ _ => some h
  | .mma h _ _ _ _ _ _ _ => some h
  | .msma h _ _ _ _ _ _ _ => some h
  | .mgrp h _ _ _ _ _ _ => some h
  | .mldw h _ _ _ _ _ => some h
  | .mzero h _ => some h
  | .mdrain h _ _ _ _ _ _ _ => some h
  | .acopy h _ _ _ _ => some h
  | .copyLin _ _ => none
  | .copyRect _ _ => none
  | .copyFill _ _ => none
  | .indexGat _ _ => none
  | .indexSct _ _ => none
  | .selPred _ _ => none
  | .selTopk _ _ => none
  | .selHist _ _ => none
  | .selFilt _ _ => none
  | .reduceCommand _ _ => none
  | .samplerTmp _ => none
  | .samplerProb _ => none
  | .samplerRes _ => none
  | .engineReplyPush _ _ => none
  | .markerRetire _ _ => none
  | .coupledSignalArrival _ => none
  | .mailboxTransfer _ => none
  | .ldqDataArrival _ _ => none
  | .userInterruptEntry _ => none
  | .coreStop _ => none
  | .preemptHorizon _ => none
  | .enusedUpdate _ => none
  | .poolInterval => none
  | .quantumBoundary _ _ => none
  | .htreeUpdate _ => none
  | .coreJobStart _ => none
  | .coreJobEnd _ => none
  | .dispatchDecision => none
  | .nodeCompletion _ _ => none
  | .graphEnd _ => none
  | .virgaIterationDispatch _ => none
  | .virgaRoundCommit _ => none
  | .fabricPut _ _ => none
  | .fabricGet _ _ => none
  | .fabricRadd _ _ => none
  | .putData _ => none
  | .getRequest _ => none
  | .getData _ => none
  | .raddData _ => none
  | .fabricAck _ => none
  | .fabricNak _ => none
  | .fabricRetransmitTimeout _ => none
  | .fabricFailureTimeout _ => none
  | .hostMemoryRead _ _ => none
  | .hostMemoryWrite _ _ => none
  | .launchStore _ _ _ => none
  | .cbpopStore => none
  | .cbdoneStore _ => none
  | .hintstClear _ => none
  | .herrClear => none
  | .smpposWrite _ _ => none
  | .smpstWrite _ _ => none
  | .gdataWrite _ _ => none
  | .elogsClear _ => none
  | .einjWrite _ _ => none
  | .cretireWrite _ _ _ _ => none
  | .regionTableWrite _ _ _ => none
  | .thermWrite _ => none
  | .registerWrite _ _ _ => none
  | .thermalStopBegin => none
  | .thermalStopEnd => none
  | .powerOnReset _ _ => none
  | .attestationRequest _ => none
  | .launchDecision _ => none
  | .softError _ _ _ _ => none
  | .swiverLinkFailure => none
  | .fabricFrameDropped _ => none

/-- The operand checks of step 5 (R32, R41, R42, R44), with each field inside its bits. -/
def Instr.fieldsOk : Instr → Bool
  | .nop _ => true
  | .hint _ n => n < 15
  | .join _ => true
  | .signal _ n _ c => n < 4096 && 0 < c && c < 64
  | .mark _ j e => j < 16 && e < 64
  | .halt _ a => sreg a
  | .jwait _ d _ mask => sreg d && mask < 65536
  | .trap _ a code => sreg a && code < 1048576
  | .fence _ mask => mask < 2048
  | .stamp _ a _ cyc => sreg a && cyc < 65536
  | .ppoint _ a b => sreg a && sreg b
  | .eret _ => true
  | .ctxsave _ d a _ => sreg d && sreg a
  | .ctxload _ d a => sreg d && sreg a
  | .crd _ d n => sreg d && n < 4096
  | .cwr _ a n => sreg a && n < 4096
  | .htreeStart _ a => sreg a
  | .htreeStop _ => true
  | .htreeWait _ d b => sreg d && sreg b
  | .add _ d a b => sreg d && sreg a && sreg b
  | .sub _ d a b => sreg d && sreg a && sreg b
  | .mul _ d a b => sreg d && sreg a && sreg b
  | .mulh _ _ d a b => sreg d && sreg a && sreg b
  | .div _ _ d a b => sreg d && sreg a && sreg b
  | .rem _ _ d a b => sreg d && sreg a && sreg b
  | .and _ d a b => sreg d && sreg a && sreg b
  | .or _ d a b => sreg d && sreg a && sreg b
  | .xor _ d a b => sreg d && sreg a && sreg b
  | .shl _ d a b => sreg d && sreg a && sreg b
  | .shr _ d a b => sreg d && sreg a && sreg b
  | .sar _ d a b => sreg d && sreg a && sreg b
  | .clz _ d a => sreg d && sreg a
  | .popc _ d a => sreg d && sreg a
  | .min _ _ d a b => sreg d && sreg a && sreg b
  | .max _ _ d a b => sreg d && sreg a && sreg b
  | .cmp _ _ d a b => sreg d && sreg a && sreg b
  | .sel _ d c a b => sreg d && sreg c && sreg a && sreg b
  | .movi _ d imm => sreg d && imm < 4294967296
  | .sext _ _ d a => sreg d && sreg a
  | .movl _ k d lit => sreg d && lit < (match k with | .s32 | .z32 => 4294967296 | .s48 | .h48 => 281474976710656)
  | .addi _ d a imm => sreg d && sreg a && imm < 1048576
  | .fadd _ _ _ d a b => sreg d && sreg a && sreg b
  | .fsub _ _ _ d a b => sreg d && sreg a && sreg b
  | .fmul _ _ _ d a b => sreg d && sreg a && sreg b
  | .fdiv _ _ _ d a b => sreg d && sreg a && sreg b
  | .fsqrt _ _ _ d a => sreg d && sreg a
  | .fma _ _ _ d a b c => sreg d && sreg a && sreg b && sreg c
  | .fmin _ _ d a b => sreg d && sreg a && sreg b
  | .fmax _ _ d a b => sreg d && sreg a && sreg b
  | .fcmp _ _ _ d a b => sreg d && sreg a && sreg b
  | .fcvt _ s t _ d a => sreg d && sreg a && (s.ty.isFloat || t.ty.isFloat)
  | .fmai _ _ _ d b imm => sreg d && sreg b && imm < 1048576
  | .fmal _ t _ d a b lit => sreg d && sreg a && sreg b && lit < (match t with | .f32 => 4294967296 | .f64 => 281474976710656)
  | .fmak _ _ _ d a b n => sreg d && sreg a && sreg b && n < 256
  | .br _ _ c off => sreg c && off < 268435456
  | .jmp _ a off => sreg a && off < 1048576
  | .call _ c off => sreg c && off < 268435456
  | .ret _ a => sreg a
  | .uiret _ => true
  | .btok _ q d l off => q < 16 && sreg d && l < 256 && off < 1048576
  | .ld _ k at_ d a off => sreg d && sreg a && off < 16384 && k.at at_ && (!(k == .x128) || d % 2 == 0)
  | .st _ k at_ d a off => sreg d && sreg a && off < 16384 && k.at at_ && (!(k == .b128) || d % 2 == 0)
  | .amo _ _ _ d a b off => sreg d && sreg a && sreg b && off < 16384
  | .cas _ sz d a b off => sreg d && sreg a && sreg b && off < 16384 && (!(sz == .q) || (d % 2 == 0 && b % 2 == 0))
  | .barm _ d a b off => sreg d && sreg a && sreg b && off < 16384
  | .acq _ _ d a b off => sreg d && sreg a && sreg b && off < 16384
  | .rel _ d a off => sreg d && sreg a && off < 16384
  | .kldLd _ a n cnt => sreg a && n < 256 && cnt < 256 && n + cnt < 256
  | .kldRd _ d n => sreg d && n < 256
  | .ldq _ q d off => q < 2 && sreg d && off < 16777216
  | .stq _ d off => sreg d && off < 16777216
  | .bwait _ f => match f with | .scalar d a off => sreg d && sreg a && off < 16384 | .vector b => parCode b
  | .qpush _ q d => q < 16 && sreg d
  | .qpop _ q d => q < 16 && sreg d
  | .qtryPop _ q d f => q < 16 && sreg d && sreg f
  | .qtryPush _ q d f => q < 16 && sreg d && sreg f
  | .qlen _ _ q d => q < 16 && sreg d
  | .ecut _ d j e => sreg d && j < 16 && e < 64
  | .mbsend _ d c => sreg d && c < 64
  | .mbrecv _ d => sreg d
  | .cdiff _ _ d a => sreg d && sreg a
  | .cgo _ _ d => sreg d
  | .glaunch _ d a => sreg d && sreg a
  | .bsp _ lv d => lv < 4 && sreg d
  | .rseed _ _ a b => sreg a && sreg b
  | .rjump _ _ a sh => sreg a && sh < 128
  | .rnext _ d => sreg d
  | .tlbinv _ _ _ a b => sreg a && sreg b
  | .clbinv _ _ _ a b => sreg a && sreg b
  | .spbegin _ d a => sreg d && sreg a
  | .spcmp _ _ _ d a b t nc => sreg d && sreg a && sreg b && sreg t && nc < 16
  | .spacc _ d a b l => sreg d && sreg a && sreg b && l < 32
  | .spapp _ _ d a r => sreg d && sreg a && r < 4
  | .spendG _ => true
  | .spendB _ a => sreg a
  | .spendSrv _ => true
  | .smp _ _ d a b slot n => sreg d && sreg a && sreg b && slot < 64 && n < 128
  | .stopset _ d a b slot cnt => sreg d && sreg a && sreg b && slot < 64 && cnt < 17
  | .vadd _ _ p _ d a b => v3ok true p d a b
  | .vsub _ _ p _ d a b => v3ok true p d a b
  | .vmul _ _ p _ d a b => v3ok true p d a b
  | .vfma _ _ p _ d a b => v3ok (regCode d) p d a b
  | .vdiv _ t p _ d a b => v3ok t.isFloat p d a b
  | .vsqrt _ t p _ d a => v3ok1 t.isFloat p d a
  | .vexp2 _ t p _ d a => v3ok1 t.isFloat p d a
  | .vlog2 _ t p _ d a => v3ok1 t.isFloat p d a
  | .vmin _ _ p _ d a b => v3ok true p d a b
  | .vmax _ _ p _ d a b => v3ok true p d a b
  | .vabs _ _ p _ d a => v3ok1 true p d a
  | .vneg _ _ p _ d a => v3ok1 true p d a
  | .vand _ _ p _ d a b => v3ok true p d a b
  | .vor _ _ p _ d a b => v3ok true p d a b
  | .vxor _ _ p _ d a b => v3ok true p d a b
  | .vshl _ t p _ d a b => v3ok (!t.isFloat) p d a b
  | .vshr _ t p _ d a b => v3ok (!t.isFloat) p d a b
  | .vsar _ t p _ d a b => v3ok (!t.isFloat) p d a b
  | .vaddi _ d a imm => d < 512 && a < 512 && imm < 1048576
  | .vmuli _ d a imm => d < 512 && a < 512 && imm < 1048576
  | .vfmai _ d a imm => d < 512 && a < 512 && imm < 1048576
  | .vfmal _ t p _ d a b lit => v3ok true p d a b && lit < (match t with | .f64 | .i64 => 281474976710656 | _ => 4294967296)
  | .vcmp _ k t p pd a b => k.ok t && p < 8 && pd < 16 && srcCode a && srcCode b
  | .vsel _ _ p d a b => v3ok true p d a b
  | .vcvt _ s j _ t p _ d a => v3ok1 (cvtPartOk s t j && j < 8) p d a
  | .vqmx _ w t p d a slot => v3ok1 (slot < 64 && (slot + t.ty.count / 16) * w.size ≤ 512) p d a
  | .vdqmx _ w t p _ d a slot => v3ok1 (slot < 64 && (slot + t.ty.count / 16) * w.size ≤ 512) p d a
  | .vred _ op _ t p _ d a => v3ok1 (op.ok t) p d a
  | .vscan _ op _ t p _ d a => v3ok1 (op.ok t) p d a
  | .vperm _ _ _ p d a b => v3ok true p d a b
  | .vcomp _ _ p d a => v3ok1 true p d a
  | .vpart _ four _ t p d a => v3ok1 (!(t == .i8) && (!four || !t.isFloat) && d + (if four then 3 else 1) < 640) p d a
  | .plogic _ fn _ p pd pa pb => fn < 16 && p < 8 && pd < 16 && pa < 16 && pb < 16
  | .pcnt _ _ t p d pa => !t.isFloat && p < 8 && dstCode d && pa < 16
  | .rpt _ n sd sa sb => n < 4096 && sd < 32 && sa < 32 && sb < 32
  | .vmov _ _ p d a => v3ok1 true p d a
  | .vld _ _ _ p _ d vw o => p < 8 && dstCode d && vw < 32 && o < 8192
  | .vst _ _ _ p _ d vw o => p < 8 && srcCode d && vw < 32 && o < 8192
  | .vldc _ p d a vw o0 o1 o2 => p < 8 && dstCode d && regCode a && vw < 32 && o0 < 8 && o1 < 8 && o2 < 8
  | .vstc _ p d a vw o0 o1 o2 => p < 8 && srcCode d && regCode a && vw < 32 && o0 < 8 && o1 < 8 && o2 < 8
  | .vmapSet _ d b => regCode d && 768 ≤ b && b < 1015
  | .vmapSlice _ k d a b => k < 4 && regCode d && regCode a && parCode b
  | .vmapPerm _ d a b => regCode d && regCode a && parCode b
  | .vmapShift _ k d a b => k < 4 && regCode d && regCode a && parCode b
  | .vmapq _ k _ a b => regCode a && b < (match k with | .elt => 512 | _ => 1)
  | .vrndKey _ _ p d b => p < 8 && dstCode d && parCode b
  | .vrndStr _ _ p d => p < 8 && dstCode d
  | .vtok _ k _ t p a b => p < 8 && srcCode a && b < (match k with | .elt => t.count | _ => 1)
  | .lsetLoop _ _ len val => len < 8192 && val < 1048576
  | .lsetView _ _ vw fld val => vw < 32 && fld < 22 && val < 1048576
  | .vsal _ _ _ p d a b => v3ok (regCode d) p d a b
  | .mma _ tr _ f t vw wb k => !(tr && f.isMx) && t < 16 && vw < 32 && wb < 32768 && k < 256
  | .msma _ tr _ f t vw wb k => !(tr && f.isMx) && t < 16 && vw < 32 && wb < 32768 && k < 256
  | .mgrp _ _ _ t vw wb k => t < 16 && vw < 32 && wb < 32768 && k < 256
  | .mldw _ _ t vw wb k => t < 16 && vw < 32 && wb < 32768 && k < 256
  | .mzero _ t => t < 16
  | .mdrain _ _ _ _ _ _ t vw => t < 16 && vw < 32
  | .acopy _ _ _ ts td => ts < 16 && td < 16
  | .copyLin _ _ => false
  | .copyRect _ _ => false
  | .copyFill _ _ => false
  | .indexGat _ _ => false
  | .indexSct _ _ => false
  | .selPred _ _ => false
  | .selTopk _ _ => false
  | .selHist _ _ => false
  | .selFilt _ _ => false
  | .reduceCommand _ _ => false
  | .samplerTmp _ => false
  | .samplerProb _ => false
  | .samplerRes _ => false
  | .engineReplyPush _ _ => false
  | .markerRetire _ _ => false
  | .coupledSignalArrival _ => false
  | .mailboxTransfer _ => false
  | .ldqDataArrival _ _ => false
  | .userInterruptEntry _ => false
  | .coreStop _ => false
  | .preemptHorizon _ => false
  | .enusedUpdate _ => false
  | .poolInterval => false
  | .quantumBoundary _ _ => false
  | .htreeUpdate _ => false
  | .coreJobStart _ => false
  | .coreJobEnd _ => false
  | .dispatchDecision => false
  | .nodeCompletion _ _ => false
  | .graphEnd _ => false
  | .virgaIterationDispatch _ => false
  | .virgaRoundCommit _ => false
  | .fabricPut _ _ => false
  | .fabricGet _ _ => false
  | .fabricRadd _ _ => false
  | .putData _ => false
  | .getRequest _ => false
  | .getData _ => false
  | .raddData _ => false
  | .fabricAck _ => false
  | .fabricNak _ => false
  | .fabricRetransmitTimeout _ => false
  | .fabricFailureTimeout _ => false
  | .hostMemoryRead _ _ => false
  | .hostMemoryWrite _ _ => false
  | .launchStore _ _ _ => false
  | .cbpopStore => false
  | .cbdoneStore _ => false
  | .hintstClear _ => false
  | .herrClear => false
  | .smpposWrite _ _ => false
  | .smpstWrite _ _ => false
  | .gdataWrite _ _ => false
  | .elogsClear _ => false
  | .einjWrite _ _ => false
  | .cretireWrite _ _ _ _ => false
  | .regionTableWrite _ _ _ => false
  | .thermWrite _ => false
  | .registerWrite _ _ _ => false
  | .thermalStopBegin => false
  | .thermalStopEnd => false
  | .powerOnReset _ _ => false
  | .attestationRequest _ => false
  | .launchDecision _ => false
  | .softError _ _ _ _ => false
  | .swiverLinkFailure => false
  | .fabricFrameDropped _ => false

/-- A well-formed instruction word: a header that is no literal word's, and fields that the instruction accepts. -/
def Instr.wf (i : Instr) : Bool :=
  match i.hdr with
  | some h => h.wf && i.fieldsOk
  | none => false

/-- The streams whose words may carry the instruction (R47). -/
def Instr.streams : Instr → List Stream
  | .nop _ => [.c, .a, .v, .m]
  | .hint _ _ => [.c, .a, .v, .m]
  | .join _ => [.c, .a, .v, .m]
  | .signal _ _ _ _ => [.c, .a, .v, .m]
  | .mark _ _ _ => [.c]
  | .halt _ _ => [.c]
  | .jwait _ _ _ _ => [.c, .a]
  | .trap _ _ _ => [.c, .a]
  | .fence _ _ => [.c, .a, .v, .m]
  | .stamp _ _ _ _ => [.c, .a]
  | .ppoint _ _ _ => [.c]
  | .eret _ => [.c]
  | .ctxsave _ _ _ _ => [.c]
  | .ctxload _ _ _ => [.c]
  | .crd _ _ _ => [.c]
  | .cwr _ _ _ => [.c]
  | .htreeStart _ _ => [.c]
  | .htreeStop _ => [.c]
  | .htreeWait _ _ _ => [.c]
  | .add _ _ _ _ => [.c, .a]
  | .sub _ _ _ _ => [.c, .a]
  | .mul _ _ _ _ => [.c, .a]
  | .mulh _ _ _ _ _ => [.c, .a]
  | .div _ _ _ _ _ => [.c, .a]
  | .rem _ _ _ _ _ => [.c, .a]
  | .and _ _ _ _ => [.c, .a]
  | .or _ _ _ _ => [.c, .a]
  | .xor _ _ _ _ => [.c, .a]
  | .shl _ _ _ _ => [.c, .a]
  | .shr _ _ _ _ => [.c, .a]
  | .sar _ _ _ _ => [.c, .a]
  | .clz _ _ _ => [.c, .a]
  | .popc _ _ _ => [.c, .a]
  | .min _ _ _ _ _ => [.c, .a]
  | .max _ _ _ _ _ => [.c, .a]
  | .cmp _ _ _ _ _ => [.c, .a]
  | .sel _ _ _ _ _ => [.c, .a]
  | .movi _ _ _ => [.c, .a]
  | .sext _ _ _ _ => [.c, .a]
  | .movl _ _ _ _ => [.c, .a]
  | .addi _ _ _ _ => [.c, .a]
  | .fadd _ _ _ _ _ _ => [.c]
  | .fsub _ _ _ _ _ _ => [.c]
  | .fmul _ _ _ _ _ _ => [.c]
  | .fdiv _ _ _ _ _ _ => [.c]
  | .fsqrt _ _ _ _ _ => [.c]
  | .fma _ _ _ _ _ _ _ => [.c]
  | .fmin _ _ _ _ _ => [.c]
  | .fmax _ _ _ _ _ => [.c]
  | .fcmp _ _ _ _ _ _ => [.c]
  | .fcvt _ _ _ _ _ _ => [.c]
  | .fmai _ _ _ _ _ _ => [.c]
  | .fmal _ _ _ _ _ _ _ => [.c]
  | .fmak _ _ _ _ _ _ _ => [.c]
  | .br _ _ _ _ => [.c, .a]
  | .jmp _ _ _ => [.c, .a]
  | .call _ _ _ => [.c]
  | .ret _ _ => [.c]
  | .uiret _ => [.c]
  | .btok _ _ _ _ _ => [.c, .a]
  | .ld _ _ _ _ _ _ => [.c, .a]
  | .st _ _ _ _ _ _ => [.c, .a]
  | .amo _ _ _ _ _ _ _ => [.c, .a]
  | .cas _ _ _ _ _ _ => [.c, .a]
  | .barm _ _ _ _ _ => [.c, .a]
  | .acq _ _ _ _ _ _ => [.c]
  | .rel _ _ _ _ => [.c]
  | .kldLd _ _ _ _ => [.c]
  | .kldRd _ _ _ => [.c]
  | .ldq _ _ _ _ => [.a]
  | .stq _ _ _ => [.a]
  | .bwait _ (.scalar _ _ _) => [.c, .a]
  | .bwait _ (.vector _) => [.v]
  | .qpush _ _ _ => [.c, .a]
  | .qpop _ _ _ => [.c, .a]
  | .qtryPop _ _ _ _ => [.c, .a]
  | .qtryPush _ _ _ _ => [.c, .a]
  | .qlen _ _ _ _ => [.c, .a]
  | .ecut _ _ _ _ => [.c]
  | .mbsend _ _ _ => [.c]
  | .mbrecv _ _ => [.c]
  | .cdiff _ _ _ _ => [.c]
  | .cgo _ _ _ => [.c]
  | .glaunch _ _ _ => [.c]
  | .bsp _ _ _ => [.c]
  | .rseed _ _ _ _ => [.c]
  | .rjump _ _ _ _ => [.c]
  | .rnext _ _ => [.c]
  | .tlbinv _ _ _ _ _ => [.c]
  | .clbinv _ _ _ _ _ => [.c]
  | .spbegin _ _ _ => [.c]
  | .spcmp _ _ _ _ _ _ _ _ => [.c]
  | .spacc _ _ _ _ _ => [.c]
  | .spapp _ _ _ _ _ => [.c]
  | .spendG _ => [.c]
  | .spendB _ _ => [.c]
  | .spendSrv _ => [.c]
  | .smp _ _ _ _ _ _ _ => [.c]
  | .stopset _ _ _ _ _ _ => [.c]
  | .vadd _ _ _ _ _ _ _ => [.v]
  | .vsub _ _ _ _ _ _ _ => [.v]
  | .vmul _ _ _ _ _ _ _ => [.v]
  | .vfma _ _ _ _ _ _ _ => [.v]
  | .vdiv _ _ _ _ _ _ _ => [.v]
  | .vsqrt _ _ _ _ _ _ => [.v]
  | .vexp2 _ _ _ _ _ _ => [.v]
  | .vlog2 _ _ _ _ _ _ => [.v]
  | .vmin _ _ _ _ _ _ _ => [.v]
  | .vmax _ _ _ _ _ _ _ => [.v]
  | .vabs _ _ _ _ _ _ => [.v]
  | .vneg _ _ _ _ _ _ => [.v]
  | .vand _ _ _ _ _ _ _ => [.v]
  | .vor _ _ _ _ _ _ _ => [.v]
  | .vxor _ _ _ _ _ _ _ => [.v]
  | .vshl _ _ _ _ _ _ _ => [.v]
  | .vshr _ _ _ _ _ _ _ => [.v]
  | .vsar _ _ _ _ _ _ _ => [.v]
  | .vaddi _ _ _ _ => [.v]
  | .vmuli _ _ _ _ => [.v]
  | .vfmai _ _ _ _ => [.v]
  | .vfmal _ _ _ _ _ _ _ _ => [.v]
  | .vcmp _ _ _ _ _ _ _ => [.v]
  | .vsel _ _ _ _ _ _ => [.v]
  | .vcvt _ _ _ _ _ _ _ _ _ => [.v]
  | .vqmx _ _ _ _ _ _ _ => [.v]
  | .vdqmx _ _ _ _ _ _ _ _ => [.v]
  | .vred _ _ _ _ _ _ _ _ => [.v]
  | .vscan _ _ _ _ _ _ _ _ => [.v]
  | .vperm _ _ _ _ _ _ _ => [.v]
  | .vcomp _ _ _ _ _ => [.v]
  | .vpart _ _ _ _ _ _ _ => [.v]
  | .plogic _ _ _ _ _ _ _ => [.v]
  | .pcnt _ _ _ _ _ _ => [.v]
  | .rpt _ _ _ _ _ => [.v]
  | .vmov _ _ _ _ _ => [.v]
  | .vld _ _ _ _ _ _ _ _ => [.v]
  | .vst _ _ _ _ _ _ _ _ => [.v]
  | .vldc _ _ _ _ _ _ _ _ => [.v]
  | .vstc _ _ _ _ _ _ _ _ => [.v]
  | .vmapSet _ _ _ => [.v]
  | .vmapSlice _ _ _ _ _ => [.v]
  | .vmapPerm _ _ _ _ => [.v]
  | .vmapShift _ _ _ _ _ => [.v]
  | .vmapq _ _ _ _ _ => [.v]
  | .vrndKey _ _ _ _ _ => [.v]
  | .vrndStr _ _ _ _ => [.v]
  | .vtok _ _ _ _ _ _ _ => [.v]
  | .lsetLoop _ _ _ _ => [.v, .a]
  | .lsetView _ _ _ _ _ => [.v, .a]
  | .vsal _ _ _ _ _ _ _ => [.v]
  | .mma _ _ _ _ _ _ _ _ => [.m]
  | .msma _ _ _ _ _ _ _ _ => [.m]
  | .mgrp _ _ _ _ _ _ _ => [.m]
  | .mldw _ _ _ _ _ _ => [.m]
  | .mzero _ _ => [.m]
  | .mdrain _ _ _ _ _ _ _ _ => [.m]
  | .acopy _ _ _ _ _ => [.m]
  | .copyLin _ _ => []
  | .copyRect _ _ => []
  | .copyFill _ _ => []
  | .indexGat _ _ => []
  | .indexSct _ _ => []
  | .selPred _ _ => []
  | .selTopk _ _ => []
  | .selHist _ _ => []
  | .selFilt _ _ => []
  | .reduceCommand _ _ => []
  | .samplerTmp _ => []
  | .samplerProb _ => []
  | .samplerRes _ => []
  | .engineReplyPush _ _ => []
  | .markerRetire _ _ => []
  | .coupledSignalArrival _ => []
  | .mailboxTransfer _ => []
  | .ldqDataArrival _ _ => []
  | .userInterruptEntry _ => []
  | .coreStop _ => []
  | .preemptHorizon _ => []
  | .enusedUpdate _ => []
  | .poolInterval => []
  | .quantumBoundary _ _ => []
  | .htreeUpdate _ => []
  | .coreJobStart _ => []
  | .coreJobEnd _ => []
  | .dispatchDecision => []
  | .nodeCompletion _ _ => []
  | .graphEnd _ => []
  | .virgaIterationDispatch _ => []
  | .virgaRoundCommit _ => []
  | .fabricPut _ _ => []
  | .fabricGet _ _ => []
  | .fabricRadd _ _ => []
  | .putData _ => []
  | .getRequest _ => []
  | .getData _ => []
  | .raddData _ => []
  | .fabricAck _ => []
  | .fabricNak _ => []
  | .fabricRetransmitTimeout _ => []
  | .fabricFailureTimeout _ => []
  | .hostMemoryRead _ _ => []
  | .hostMemoryWrite _ _ => []
  | .launchStore _ _ _ => []
  | .cbpopStore => []
  | .cbdoneStore _ => []
  | .hintstClear _ => []
  | .herrClear => []
  | .smpposWrite _ _ => []
  | .smpstWrite _ _ => []
  | .gdataWrite _ _ => []
  | .elogsClear _ => []
  | .einjWrite _ _ => []
  | .cretireWrite _ _ _ _ => []
  | .regionTableWrite _ _ _ => []
  | .thermWrite _ => []
  | .registerWrite _ _ _ => []
  | .thermalStopBegin => []
  | .thermalStopEnd => []
  | .powerOnReset _ _ => []
  | .attestationRequest _ => []
  | .launchDecision _ => []
  | .softError _ _ _ _ => []
  | .swiverLinkFailure => []
  | .fabricFrameDropped _ => []

/-- What the stream adds to the checks: it accepts the opcode (R47), and a FENCE names the stream's own path (R330). -/
def Instr.acceptedBy (i : Instr) (st : Stream) : Bool :=
  i.streams.contains st &&
    match i with
    | .fence _ mask => mask / 2 ^ st.num % 2 == 1
    | _ => true

/-- The literal kind an instruction takes (R34, R134, R136, R182). -/
def Instr.litKind : Instr → Option Nat
  | .movl _ k _ _ => some (match k with | .s32 | .z32 => 0 | .s48 | .h48 => 1)
  | .fmal _ t _ _ _ _ _ => some (match t with | .f32 => 0 | .f64 => 1)
  | .vfmal _ t _ _ _ _ _ _ => some (match t with | .f64 | .i64 => 1 | _ => 0)
  | _ => none

/-- The instruction with its literal. -/
def Instr.withLit (i : Instr) (l : Nat) : Instr :=
  match i with
  | .movl h k d _ => .movl h k d l
  | .fmal h t m d a b _ => .fmal h t m d a b l
  | .vfmal h t p m d a b _ => .vfmal h t p m d a b l
  | i => i

def Instr.lit : Instr → Nat
  | .movl _ _ _ l => l
  | .fmal _ _ _ _ _ _ l => l
  | .vfmal _ _ _ _ _ _ _ l => l
  | _ => 0

/-- How many words the instruction takes. -/
def Instr.words (i : Instr) : Nat := if i.litKind.isSome then 2 else 1

end Sys2Proof
end

