-- ==== Sys2Proof/Decode.lean ====
section
/-! DEFINITION. The decoder (R27 to R36, R47, R48 and the layout of each instruction's rule) and, after it, an encoder
written from the same layouts. A word is read as a number; bit 0 is its least significant bit. -/

namespace Sys2Proof

/-- Bits [lo+w-1:lo] of a number. -/
def fld (n lo w : Nat) : Nat := n / 2 ^ lo % 2 ^ w

def bitAt (n k : Nat) : Bool := fld n k 1 == 1

/-! Codes of the small fields. Where a code has no meaning the instruction does not accept it. -/

def Ty.ofCode : Nat → Ty
  | 0 => .f64 | 1 => .f32 | 2 => .bf16 | 3 => .f16 | 4 => .i64 | 5 => .i32 | 6 => .i16 | _ => .i8

def Ty.code : Ty → Nat
  | .f64 => 0 | .f32 => 1 | .bf16 => 2 | .f16 => 3 | .i64 => 4 | .i32 => 5 | .i16 => 6 | .i8 => 7

def Rnd.ofCode : Nat → Rnd
  | 0 => .dyn | 1 => .rne | 2 => .rtz | _ => .srk

def Rnd.code : Rnd → Nat
  | .dyn => 0 | .rne => 1 | .rtz => 2 | .srk => 3

def Iter.ofCode : Nat → Iter
  | 0 => .always | 1 => .first | 2 => .last | _ => .nfirst

def Iter.code : Iter → Nat
  | .always => 0 | .first => 1 | .last => 2 | .nfirst => 3

def FTy.code : FTy → Nat
  | .f64 => 0 | .f32 => 1

def FTy.ofCode : Nat → Option FTy
  | 0 => some .f64 | 1 => some .f32 | _ => none

def VFTy.code : VFTy → Nat
  | .f64 => 0 | .f32 => 1 | .bf16 => 2 | .f16 => 3

def VFTy.ofCode : Nat → Option VFTy
  | 0 => some .f64 | 1 => some .f32 | 2 => some .bf16 | 3 => some .f16 | _ => none

def MFmt.code : MFmt → Nat
  | .f64 => 0 | .f32 => 1 | .bf16 => 2 | .f16 => 3 | .mx8 => 4 | .mx6 => 5 | .mx4 => 6

def MFmt.ofCode : Nat → Option MFmt
  | 0 => some .f64 | 1 => some .f32 | 2 => some .bf16 | 3 => some .f16 | 4 => some .mx8 | 5 => some .mx6 | 6 => some .mx4 | _ => none

def MxW.code : MxW → Nat
  | .mx8 => 0 | .mx6 => 1 | .mx4 => 2

def MxW.ofCode : Nat → Option MxW
  | 0 => some .mx8 | 1 => some .mx6 | 2 => some .mx4 | _ => none

def MulhKind.code : MulhKind → Nat
  | .ss => 0 | .uu => 1 | .su => 2

def MulhKind.ofCode : Nat → Option MulhKind
  | 0 => some .ss | 1 => some .uu | 2 => some .su | _ => none

def Cond.code : Cond → Nat
  | .eq => 0 | .ne => 1 | .lt => 2 | .ge => 3 | .ltu => 4 | .geu => 5 | .le => 6 | .gt => 7 | .leu => 8 | .gtu => 9

def Cond.ofCode : Nat → Option Cond
  | 0 => some .eq | 1 => some .ne | 2 => some .lt | 3 => some .ge | 4 => some .ltu | 5 => some .geu | 6 => some .le | 7 => some .gt | 8 => some .leu | 9 => some .gtu | _ => none

def ExtKind.code : ExtKind → Nat
  | .s8 => 0 | .s16 => 1 | .s32 => 2 | .z8 => 4 | .z16 => 5 | .z32 => 6

def ExtKind.ofCode : Nat → Option ExtKind
  | 0 => some .s8 | 1 => some .s16 | 2 => some .s32 | 4 => some .z8 | 5 => some .z16 | 6 => some .z32 | _ => none

def LitKind.code : LitKind → Nat
  | .s32 => 0 | .z32 => 1 | .s48 => 2 | .h48 => 3

def LitKind.ofCode : Nat → Option LitKind
  | 0 => some .s32 | 1 => some .z32 | 2 => some .s48 | 3 => some .h48 | _ => none

def FCond.code : FCond → Nat
  | .eq => 0 | .ne => 1 | .lt => 2 | .le => 3 | .gt => 4 | .ge => 5 | .un => 6 | .ord => 7

def FCond.ofCode : Nat → Option FCond
  | 0 => some .eq | 1 => some .ne | 2 => some .lt | 3 => some .le | 4 => some .gt | 5 => some .ge | 6 => some .un | 7 => some .ord | _ => none

def CvtTy.code : CvtTy → Nat
  | .f64 => 0 | .f32 => 1 | .i64 => 4 | .i32 => 5

def CvtTy.ofCode : Nat → Option CvtTy
  | 0 => some .f64 | 1 => some .f32 | 4 => some .i64 | 5 => some .i32 | _ => none

def BrCond.code : BrCond → Nat
  | .z => 0 | .nz => 1 | .lt => 2 | .ge => 3 | .gt => 4 | .le => 5 | .odd => 6 | .even => 7 | .al => 15

def BrCond.ofCode : Nat → Option BrCond
  | 0 => some .z | 1 => some .nz | 2 => some .lt | 3 => some .ge | 4 => some .gt | 5 => some .le | 6 => some .odd | 7 => some .even | 15 => some .al | _ => none

def LdKind.code : LdKind → Nat
  | .u8 => 0 | .s8 => 1 | .u16 => 2 | .s16 => 3 | .u32 => 4 | .s32 => 5 | .x64 => 6 | .x128 => 7

def LdKind.ofCode : Nat → Option LdKind
  | 0 => some .u8 | 1 => some .s8 | 2 => some .u16 | 3 => some .s16 | 4 => some .u32 | 5 => some .s32 | 6 => some .x64 | 7 => some .x128 | _ => none

def StKind.code : StKind → Nat
  | .b8 => 0 | .b16 => 2 | .b32 => 4 | .b64 => 6 | .b128 => 7

def StKind.ofCode : Nat → Option StKind
  | 0 => some .b8 | 2 => some .b16 | 4 => some .b32 | 6 => some .b64 | 7 => some .b128 | _ => none

def At.code : At → Nat
  | .dflt => 0 | .a8 => 1 | .a16 => 2

def At.ofCode : Nat → Option At
  | 0 => some .dflt | 1 => some .a8 | 2 => some .a16 | _ => none

def AmoOp.code : AmoOp → Nat
  | .add => 0 | .and => 1 | .or => 2 | .xor => 3 | .smin => 4 | .smax => 5 | .umin => 6 | .umax => 7 | .swap => 8 | .fadd => 9

def AmoOp.ofCode : Nat → Option AmoOp
  | 0 => some .add | 1 => some .and | 2 => some .or | 3 => some .xor | 4 => some .smin | 5 => some .smax | 6 => some .umin | 7 => some .umax | 8 => some .swap | 9 => some .fadd | _ => none

def WD.code : WD → Nat
  | .w => 0 | .d => 1

def WD.ofCode : Nat → Option WD
  | 0 => some .w | 1 => some .d | _ => none

def CasSz.code : CasSz → Nat
  | .w => 0 | .d => 1 | .q => 2

def CasSz.ofCode : Nat → Option CasSz
  | 0 => some .w | 1 => some .d | 2 => some .q | _ => none

def DiffScope.code : DiffScope → Nat
  | .core => 0 | .clu => 1 | .coh => 2

def DiffScope.ofCode : Nat → Option DiffScope
  | 0 => some .core | 1 => some .clu | 2 => some .coh | _ => none

def InvScope.code : InvScope → Nat
  | .core => 0 | .pkg => 1

def InvScope.ofCode : Nat → Option InvScope
  | 0 => some .core | 1 => some .pkg | _ => none

def TlbSub.code : TlbSub → Nat
  | .va => 0 | .asid => 1 | .all => 2

def TlbSub.ofCode : Nat → Option TlbSub
  | 0 => some .va | 1 => some .asid | 2 => some .all | _ => none

def ClbSub.code : ClbSub → Nat
  | .tile => 0 | .vol => 1 | .all => 2

def ClbSub.ofCode : Nat → Option ClbSub
  | 0 => some .tile | 1 => some .vol | 2 => some .all | _ => none

def GenSel.code : GenSel → Nat
  | .c => 0 | .a => 1 | .v => 2

def GenSel.ofCode : Nat → Option GenSel
  | 0 => some .c | 1 => some .a | 2 => some .v | _ => none

def SpRule.code : SpRule → Nat
  | .exact => 0 | .ulp => 1 | .rel => 2

def SpRule.ofCode : Nat → Option SpRule
  | 0 => some .exact | 1 => some .ulp | 2 => some .rel | _ => none

def DrawKind.code : DrawKind → Nat
  | .tmp => 0 | .prob => 1 | .res => 2

def DrawKind.ofCode : Nat → Option DrawKind
  | 0 => some .tmp | 1 => some .prob | 2 => some .res | _ => none

def VCond.code : VCond → Nat
  | .eq => 0 | .ne => 1 | .lt => 2 | .le => 3 | .gt => 4 | .ge => 5 | .un => 6 | .ord => 7 | .ltu => 8 | .leu => 9 | .gtu => 10 | .geu => 11

def VCond.ofCode : Nat → Option VCond
  | 0 => some .eq | 1 => some .ne | 2 => some .lt | 3 => some .le | 4 => some .gt | 5 => some .ge | 6 => some .un | 7 => some .ord | 8 => some .ltu | 9 => some .leu | 10 => some .gtu | 11 => some .geu | _ => none

def RedOp.code : RedOp → Nat
  | .add => 0 | .mul => 1 | .min => 2 | .max => 3 | .and => 4 | .or => 5 | .xor => 6

def RedOp.ofCode : Nat → Option RedOp
  | 0 => some .add | 1 => some .mul | 2 => some .min | 3 => some .max | 4 => some .and | 5 => some .or | 6 => some .xor | _ => none

def MapqSub.code : MapqSub → Nat
  | .kind => 0 | .desc => 1 | .elt => 2

def MapqSub.ofCode : Nat → Option MapqSub
  | 0 => some .kind | 1 => some .desc | 2 => some .elt | _ => none

def LsetSrc.code : LsetSrc → Nat
  | .imm => 0 | .reg => 1 | .q => 2

def LsetSrc.ofCode : Nat → Option LsetSrc
  | 0 => some .imm | 1 => some .reg | 2 => some .q | _ => none

def Pat.code : Pat → Nat
  | .p2of4 => 0 | .p1of4 => 1 | .p2of8 => 2

def Pat.ofCode : Nat → Option Pat
  | 0 => some .p2of4 | 1 => some .p1of4 | 2 => some .p2of8 | _ => none

def Seg.code : Seg → Nat
  | .all => 0 | .dim0 => 1

def Seg.ofCode : Nat → Seg
  | 0 => .all | _ => .dim0

def TokSub.code : TokSub → Nat
  | .elt => 0 | .any => 1 | .all => 2 | .cnt => 3

def TokSub.ofCode : Nat → TokSub
  | 0 => .elt | 1 => .any | 2 => .all | _ => .cnt

/-! Fields of the formats (R36). -/

def vT (f : Nat) : Ty := Ty.ofCode (fld f 5 3)
def vP (f : Nat) : Nat := fld f 2 3

/-- The token queue of VTOK and VMAPQ: q3 or q4 (R153, R215). -/
def tokQueue (f : Nat) : Option Bool :=
  if fld f 34 4 = 3 then some false else if fld f 34 4 = 4 then some true else none

/-- Field pm of VPERM (R189). -/
def plainOrPm : Nat → Option Bool
  | 0 => some false | 1 => some true | _ => none

/-! Operand fields to instructions, by opcode: steps 2 and part of 5 of R32. A literal is filled in afterwards. -/

def decSystem (h : Hdr) (f : Nat) : Nat → Option Instr
  | 0x00 => some (.nop h)
  | 0x01 => some (.join h)
  | 0x02 => some (.mark h (fld f 16 4) (fld f 0 6))
  | 0x03 => some (.jwait h (fld f 32 6) (bitAt f 16) (fld f 0 16))
  | 0x04 => some (.signal h (fld f 8 12) (bitAt f 6) (fld f 0 6))
  | 0x05 => some (.halt h (fld f 26 6))
  | 0x06 => some (.trap h (fld f 26 6) (fld f 0 20))
  | 0x07 => some (.fence h (fld f 0 11))
  | 0x08 => some (.stamp h (fld f 26 6) (bitAt f 16) (fld f 0 16))
  | 0x09 => some (.ppoint h (fld f 26 6) (fld f 20 6))
  | 0x0A => some (.eret h)
  | 0x0B => some (.crd h (fld f 32 6) (fld f 0 12))
  | 0x0C => some (.cwr h (fld f 26 6) (fld f 0 12))
  | 0x0D => some (.ctxsave h (fld f 32 6) (fld f 26 6) (bitAt f 0))
  | 0x0E => some (.ctxload h (fld f 32 6) (fld f 26 6))
  | 0x0F => match fld f 0 2 with
      | 0 => some (.htreeStart h (fld f 26 6))
      | 1 => some (.htreeStop h)
      | 2 => some (.htreeWait h (fld f 32 6) (fld f 20 6))
      | _ => none
  | _ => none

def decInt (h : Hdr) (f : Nat) : Nat → Option Instr
  | 0x10 => some (.add h (fld f 32 6) (fld f 26 6) (fld f 20 6))
  | 0x11 => some (.sub h (fld f 32 6) (fld f 26 6) (fld f 20 6))
  | 0x12 => some (.mul h (fld f 32 6) (fld f 26 6) (fld f 20 6))
  | 0x13 => do let k ← MulhKind.ofCode (fld f 0 2); return .mulh h k (fld f 32 6) (fld f 26 6) (fld f 20 6)
  | 0x14 => some (.div h (bitAt f 0) (fld f 32 6) (fld f 26 6) (fld f 20 6))
  | 0x15 => some (.rem h (bitAt f 0) (fld f 32 6) (fld f 26 6) (fld f 20 6))
  | 0x16 => some (.and h (fld f 32 6) (fld f 26 6) (fld f 20 6))
  | 0x17 => some (.or h (fld f 32 6) (fld f 26 6) (fld f 20 6))
  | 0x18 => some (.xor h (fld f 32 6) (fld f 26 6) (fld f 20 6))
  | 0x19 => some (.shl h (fld f 32 6) (fld f 26 6) (fld f 20 6))
  | 0x1A => some (.shr h (fld f 32 6) (fld f 26 6) (fld f 20 6))
  | 0x1B => some (.sar h (fld f 32 6) (fld f 26 6) (fld f 20 6))
  | 0x1C => some (.clz h (fld f 32 6) (fld f 26 6))
  | 0x1D => some (.popc h (fld f 32 6) (fld f 26 6))
  | 0x1E => some (.min h (bitAt f 0) (fld f 32 6) (fld f 26 6) (fld f 20 6))
  | 0x1F => some (.max h (bitAt f 0) (fld f 32 6) (fld f 26 6) (fld f 20 6))
  | 0x20 => do let k ← Cond.ofCode (fld f 0 4); return .cmp h k (fld f 32 6) (fld f 26 6) (fld f 20 6)
  | 0x21 => some (.sel h (fld f 32 6) (fld f 0 6) (fld f 26 6) (fld f 20 6))
  | 0x22 => some (.movi h (fld f 32 6) (fld f 0 32))
  | 0x23 => do let k ← LitKind.ofCode (fld f 0 2); return .movl h k (fld f 32 6) 0
  | 0x24 => some (.addi h (fld f 32 6) (fld f 26 6) (fld f 0 20))
  | 0x25 => do let k ← ExtKind.ofCode (fld f 0 3); return .sext h k (fld f 32 6) (fld f 26 6)
  | _ => none

def decFloat (h : Hdr) (f : Nat) : Nat → Option Instr
  | 0x28 => do let t ← FTy.ofCode (fld f 3 3); return .fadd h t (Rnd.ofCode (fld f 0 2)) (fld f 32 6) (fld f 26 6) (fld f 20 6)
  | 0x29 => do let t ← FTy.ofCode (fld f 3 3); return .fsub h t (Rnd.ofCode (fld f 0 2)) (fld f 32 6) (fld f 26 6) (fld f 20 6)
  | 0x2A => do let t ← FTy.ofCode (fld f 3 3); return .fmul h t (Rnd.ofCode (fld f 0 2)) (fld f 32 6) (fld f 26 6) (fld f 20 6)
  | 0x2B => do let t ← FTy.ofCode (fld f 3 3); return .fdiv h t (Rnd.ofCode (fld f 0 2)) (fld f 32 6) (fld f 26 6) (fld f 20 6)
  | 0x2C => do let t ← FTy.ofCode (fld f 3 3); return .fsqrt h t (Rnd.ofCode (fld f 0 2)) (fld f 32 6) (fld f 26 6)
  | 0x2D => do let t ← FTy.ofCode (fld f 3 3); return .fma h t (Rnd.ofCode (fld f 0 2)) (fld f 32 6) (fld f 26 6) (fld f 20 6) (fld f 6 6)
  | 0x2E => do let t ← FTy.ofCode (fld f 29 3); return .fmai h t (Rnd.ofCode (fld f 26 2)) (fld f 32 6) (fld f 20 6) (fld f 0 20)
  | 0x2F => do let t ← FTy.ofCode (fld f 3 3); return .fmal h t (Rnd.ofCode (fld f 0 2)) (fld f 32 6) (fld f 26 6) (fld f 20 6) 0
  | 0x30 => do let t ← FTy.ofCode (fld f 3 3); return .fmak h t (Rnd.ofCode (fld f 0 2)) (fld f 32 6) (fld f 26 6) (fld f 20 6) (fld f 12 8)
  | 0x31 => do let t ← FTy.ofCode (fld f 3 3); return .fmin h t (fld f 32 6) (fld f 26 6) (fld f 20 6)
  | 0x32 => do let t ← FTy.ofCode (fld f 3 3); return .fmax h t (fld f 32 6) (fld f 26 6) (fld f 20 6)
  | 0x33 => do let k ← FCond.ofCode (fld f 16 4); let t ← FTy.ofCode (fld f 3 3); return .fcmp h k t (fld f 32 6) (fld f 26 6) (fld f 20 6)
  | 0x34 => do let s ← CvtTy.ofCode (fld f 3 3); let t ← CvtTy.ofCode (fld f 16 4); return .fcvt h s t (Rnd.ofCode (fld f 0 2)) (fld f 32 6) (fld f 26 6)
  | _ => none

def decControl (h : Hdr) (f : Nat) : Nat → Option Instr
  | 0x38 => do let k ← BrCond.ofCode (fld f 28 4); return .br h k (fld f 32 6) (fld f 0 28)
  | 0x39 => some (.jmp h (fld f 26 6) (fld f 0 20))
  | 0x3A => some (.call h (fld f 32 6) (fld f 0 28))
  | 0x3B => some (.ret h (fld f 26 6))
  | 0x3C => some (.uiret h)
  | 0x3D => some (.btok h (fld f 34 4) (fld f 28 6) (fld f 20 8) (fld f 0 20))
  | _ => none

def decMem (st : Stream) (h : Hdr) (f : Nat) : Nat → Option Instr
  | 0x40 => do let k ← LdKind.ofCode (fld f 17 3); let a_t ← At.ofCode (fld f 15 2); return .ld h k a_t (fld f 32 6) (fld f 26 6) (fld f 0 14)
  | 0x41 => do let k ← StKind.ofCode (fld f 17 3); let a_t ← At.ofCode (fld f 15 2); return .st h k a_t (fld f 32 6) (fld f 26 6) (fld f 0 14)
  | 0x42 => do let o ← AmoOp.ofCode (fld f 16 4); let z ← WD.ofCode (fld f 14 2); return .amo h o z (fld f 32 6) (fld f 26 6) (fld f 20 6) (fld f 0 14)
  | 0x43 => do let z ← CasSz.ofCode (fld f 14 2); return .cas h z (fld f 32 6) (fld f 26 6) (fld f 20 6) (fld f 0 14)
  | 0x44 => some (.acq h (bitAt f 16) (fld f 32 6) (fld f 26 6) (fld f 20 6) (fld f 0 14))
  | 0x45 => some (.rel h (fld f 32 6) (fld f 26 6) (fld f 0 14))
  | 0x46 => match fld f 0 1 with
      | 0 => some (.kldLd h (fld f 26 6) (fld f 12 8) (fld f 4 8))
      | 1 => some (.kldRd h (fld f 32 6) (fld f 12 8))
      | _ => none
  | 0x47 => some (.ldq h (fld f 34 4) (fld f 28 6) (fld f 0 24))
  | 0x48 => match fld f 34 4 with
      | 2 => some (.stq h (fld f 28 6) (fld f 0 24))
      | _ => none
  | 0x49 => if st = .v then some (.bwait h (.vector (fld f 8 10))) else some (.bwait h (.scalar (fld f 32 6) (fld f 26 6) (fld f 0 14)))
  | 0x4A => some (.barm h (fld f 32 6) (fld f 26 6) (fld f 20 6) (fld f 0 14))
  | _ => none

def decQueue (h : Hdr) (f : Nat) : Nat → Option Instr
  | 0x50 => some (.qpush h (fld f 34 4) (fld f 28 6))
  | 0x51 => some (.qpop h (fld f 34 4) (fld f 28 6))
  | 0x52 => match fld f 6 1 with
      | 0 => some (.qtryPop h (fld f 34 4) (fld f 28 6) (fld f 0 6))
      | 1 => some (.qtryPush h (fld f 34 4) (fld f 28 6) (fld f 0 6))
      | _ => none
  | 0x53 => some (.qlen h (bitAt f 0) (fld f 34 4) (fld f 28 6))
  | 0x54 => some (.ecut h (fld f 32 6) (fld f 16 4) (fld f 0 6))
  | 0x55 => some (.mbsend h (fld f 28 6) (fld f 0 6))
  | 0x56 => some (.mbrecv h (fld f 28 6))
  | _ => none

def decSched (h : Hdr) (f : Nat) : Nat → Option Instr
  | 0x58 => do let sc ← DiffScope.ofCode (fld f 18 2); return .cdiff h sc (fld f 32 6) (fld f 26 6)
  | 0x59 => some (.cgo h (bitAt f 0) (fld f 32 6))
  | 0x5A => some (.glaunch h (fld f 32 6) (fld f 26 6))
  | 0x5B => some (.bsp h (fld f 0 2) (fld f 32 6))
  | 0x5C => do let g ← GenSel.ofCode (fld f 0 2); return .rseed h g (fld f 26 6) (fld f 20 6)
  | 0x5D => do let g ← GenSel.ofCode (fld f 8 2); return .rjump h g (fld f 26 6) (fld f 0 7)
  | 0x5E => some (.rnext h (fld f 32 6))
  | 0x5F => do let k ← TlbSub.ofCode (fld f 0 2); let sc ← InvScope.ofCode (fld f 2 2); return .tlbinv h k sc (fld f 26 6) (fld f 20 6)
  | 0x60 => do let k ← ClbSub.ofCode (fld f 0 2); let sc ← InvScope.ofCode (fld f 2 2); return .clbinv h k sc (fld f 26 6) (fld f 20 6)
  | 0x64 => some (.spbegin h (fld f 32 6) (fld f 26 6))
  | 0x65 => do let k ← SpRule.ofCode (fld f 5 2); return .spcmp h k (bitAt f 7) (fld f 32 6) (fld f 26 6) (fld f 20 6) (fld f 14 6) (fld f 0 4)
  | 0x66 => some (.spacc h (fld f 32 6) (fld f 26 6) (fld f 20 6) (fld f 0 5))
  | 0x67 => do let z ← WD.ofCode (fld f 2 1); return .spapp h z (fld f 32 6) (fld f 26 6) (fld f 0 2)
  | 0x68 => match fld f 0 2 with
      | 0 => some (.spendG h)
      | 1 => some (.spendB h (fld f 26 6))
      | 2 => some (.spendSrv h)
      | _ => none
  | 0x69 => do let k ← DrawKind.ofCode (fld f 5 2); return .smp h k (fld f 32 6) (fld f 26 6) (fld f 20 6) (fld f 14 6) (fld f 7 7)
  | 0x6A => some (.stopset h (fld f 32 6) (fld f 26 6) (fld f 20 6) (fld f 14 6) (fld f 8 5))
  | _ => none

def decVec (h : Hdr) (f : Nat) : Nat → Option Instr
  | 0x80 => some (.vadd h (Ty.ofCode (fld f 5 3)) (fld f 2 3) (Rnd.ofCode (fld f 0 2)) (fld f 28 10) (fld f 18 10) (fld f 8 10))
  | 0x81 => some (.vsub h (Ty.ofCode (fld f 5 3)) (fld f 2 3) (Rnd.ofCode (fld f 0 2)) (fld f 28 10) (fld f 18 10) (fld f 8 10))
  | 0x82 => some (.vmul h (Ty.ofCode (fld f 5 3)) (fld f 2 3) (Rnd.ofCode (fld f 0 2)) (fld f 28 10) (fld f 18 10) (fld f 8 10))
  | 0x83 => some (.vfma h (Ty.ofCode (fld f 5 3)) (fld f 2 3) (Rnd.ofCode (fld f 0 2)) (fld f 28 10) (fld f 18 10) (fld f 8 10))
  | 0x84 => some (.vdiv h (Ty.ofCode (fld f 5 3)) (fld f 2 3) (Rnd.ofCode (fld f 0 2)) (fld f 28 10) (fld f 18 10) (fld f 8 10))
  | 0x85 => some (.vsqrt h (Ty.ofCode (fld f 5 3)) (fld f 2 3) (Rnd.ofCode (fld f 0 2)) (fld f 28 10) (fld f 18 10))
  | 0x86 => some (.vexp2 h (Ty.ofCode (fld f 5 3)) (fld f 2 3) (Rnd.ofCode (fld f 0 2)) (fld f 28 10) (fld f 18 10))
  | 0x87 => some (.vlog2 h (Ty.ofCode (fld f 5 3)) (fld f 2 3) (Rnd.ofCode (fld f 0 2)) (fld f 28 10) (fld f 18 10))
  | 0x88 => some (.vmin h (Ty.ofCode (fld f 5 3)) (fld f 2 3) (Rnd.ofCode (fld f 0 2)) (fld f 28 10) (fld f 18 10) (fld f 8 10))
  | 0x89 => some (.vmax h (Ty.ofCode (fld f 5 3)) (fld f 2 3) (Rnd.ofCode (fld f 0 2)) (fld f 28 10) (fld f 18 10) (fld f 8 10))
  | 0x8A => some (.vabs h (Ty.ofCode (fld f 5 3)) (fld f 2 3) (Rnd.ofCode (fld f 0 2)) (fld f 28 10) (fld f 18 10))
  | 0x8B => some (.vneg h (Ty.ofCode (fld f 5 3)) (fld f 2 3) (Rnd.ofCode (fld f 0 2)) (fld f 28 10) (fld f 18 10))
  | 0x8C => some (.vand h (Ty.ofCode (fld f 5 3)) (fld f 2 3) (Rnd.ofCode (fld f 0 2)) (fld f 28 10) (fld f 18 10) (fld f 8 10))
  | 0x8D => some (.vor h (Ty.ofCode (fld f 5 3)) (fld f 2 3) (Rnd.ofCode (fld f 0 2)) (fld f 28 10) (fld f 18 10) (fld f 8 10))
  | 0x8E => some (.vxor h (Ty.ofCode (fld f 5 3)) (fld f 2 3) (Rnd.ofCode (fld f 0 2)) (fld f 28 10) (fld f 18 10) (fld f 8 10))
  | 0x8F => some (.vshl h (Ty.ofCode (fld f 5 3)) (fld f 2 3) (Rnd.ofCode (fld f 0 2)) (fld f 28 10) (fld f 18 10) (fld f 8 10))
  | 0x90 => some (.vshr h (Ty.ofCode (fld f 5 3)) (fld f 2 3) (Rnd.ofCode (fld f 0 2)) (fld f 28 10) (fld f 18 10) (fld f 8 10))
  | 0x91 => some (.vsar h (Ty.ofCode (fld f 5 3)) (fld f 2 3) (Rnd.ofCode (fld f 0 2)) (fld f 28 10) (fld f 18 10) (fld f 8 10))
  | 0x92 => some (.vaddi h (fld f 29 9) (fld f 20 9) (fld f 0 20))
  | 0x93 => some (.vmuli h (fld f 29 9) (fld f 20 9) (fld f 0 20))
  | 0x94 => some (.vfmai h (fld f 29 9) (fld f 20 9) (fld f 0 20))
  | 0x95 => some (.vfmal h (Ty.ofCode (fld f 5 3)) (fld f 2 3) (Rnd.ofCode (fld f 0 2)) (fld f 28 10) (fld f 18 10) (fld f 8 10) 0)
  | 0x96 => do let k ← VCond.ofCode (fld f 34 4); return .vcmp h k (Ty.ofCode (fld f 5 3)) (fld f 2 3) (fld f 28 4) (fld f 18 10) (fld f 8 10)
  | 0x97 => some (.vsel h (Ty.ofCode (fld f 5 3)) (fld f 2 3) (fld f 28 10) (fld f 18 10) (fld f 8 10))
  | 0x98 => some (.vcvt h (Ty.ofCode (fld f 8 3)) (fld f 11 3) (bitAt f 14) (Ty.ofCode (fld f 5 3)) (fld f 2 3) (Rnd.ofCode (fld f 0 2)) (fld f 28 10) (fld f 18 10))
  | 0x99 => do let w ← MxW.ofCode (fld f 8 2); let t ← VFTy.ofCode (fld f 5 3); return .vqmx h w t (fld f 2 3) (fld f 28 10) (fld f 18 10) (fld f 12 6)
  | 0x9A => do let w ← MxW.ofCode (fld f 8 2); let t ← VFTy.ofCode (fld f 5 3); return .vdqmx h w t (fld f 2 3) (Rnd.ofCode (fld f 0 2)) (fld f 28 10) (fld f 18 10) (fld f 12 6)
  | 0x9B => do let o ← RedOp.ofCode (fld f 8 3); return .vred h o (Seg.ofCode (fld f 13 1)) (Ty.ofCode (fld f 5 3)) (fld f 2 3) (Rnd.ofCode (fld f 0 2)) (fld f 28 10) (fld f 18 10)
  | 0x9C => do let o ← RedOp.ofCode (fld f 8 3); return .vscan h o (Seg.ofCode (fld f 13 1)) (Ty.ofCode (fld f 5 3)) (fld f 2 3) (Rnd.ofCode (fld f 0 2)) (fld f 28 10) (fld f 18 10)
  | 0x9D => do let pm ← plainOrPm (fld f 0 2); return .vperm h pm (Ty.ofCode (fld f 5 3)) (fld f 2 3) (fld f 28 10) (fld f 18 10) (fld f 8 10)
  | 0x9E => some (.vcomp h (Ty.ofCode (fld f 5 3)) (fld f 2 3) (fld f 28 10) (fld f 18 10))
  | 0x9F => some (.vpart h (bitAt f 9) (bitAt f 8) (Ty.ofCode (fld f 5 3)) (fld f 2 3) (fld f 28 10) (fld f 18 10))
  | _ => none

def decVecMem (h : Hdr) (f : Nat) : Nat → Option Instr
  | 0xA0 => some (.plogic h (fld f 16 4) (Ty.ofCode (fld f 5 3)) (fld f 2 3) (fld f 28 4) (fld f 24 4) (fld f 20 4))
  | 0xA1 => some (.pcnt h (bitAt f 8) (Ty.ofCode (fld f 5 3)) (fld f 2 3) (fld f 28 10) (fld f 18 4))
  | 0xA2 => do let a_t ← At.ofCode (fld f 21 2); return .vld h a_t (Ty.ofCode (fld f 5 3)) (fld f 2 3) (Rnd.ofCode (fld f 0 2)) (fld f 28 10) (fld f 23 5) (fld f 8 13)
  | 0xA3 => do let a_t ← At.ofCode (fld f 21 2); return .vst h a_t (Ty.ofCode (fld f 5 3)) (fld f 2 3) (Rnd.ofCode (fld f 0 2)) (fld f 28 10) (fld f 23 5) (fld f 8 13)
  | 0xA4 => some (.vldc h (fld f 1 3) (fld f 28 10) (fld f 18 10) (fld f 13 5) (fld f 4 3) (fld f 7 3) (fld f 10 3))
  | 0xA5 => some (.vstc h (fld f 1 3) (fld f 28 10) (fld f 18 10) (fld f 13 5) (fld f 4 3) (fld f 7 3) (fld f 10 3))
  | 0xA6 => match fld f 5 3 with
      | 0 => some (.vmapSet h (fld f 28 10) (fld f 8 10))
      | 1 => some (.vmapSlice h (fld f 3 2) (fld f 28 10) (fld f 18 10) (fld f 8 10))
      | 2 => some (.vmapPerm h (fld f 28 10) (fld f 18 10) (fld f 8 10))
      | 3 => some (.vmapShift h (fld f 3 2) (fld f 28 10) (fld f 18 10) (fld f 8 10))
      | _ => none
  | 0xA7 => do let q4 ← tokQueue f; let k ← MapqSub.ofCode (fld f 32 2); return .vmapq h k q4 (fld f 18 10) (if k = .elt then fld f 8 10 else 0)
  | 0xA8 => match fld f 27 1 with
      | 0 => some (.vrndKey h (Ty.ofCode (fld f 5 3)) (fld f 2 3) (fld f 28 10) (fld f 8 10))
      | 1 => some (.vrndStr h (Ty.ofCode (fld f 5 3)) (fld f 2 3) (fld f 28 10))
      | _ => none
  | 0xA9 => some (.rpt h (fld f 26 12) (fld f 21 5) (fld f 16 5) (fld f 11 5))
  | 0xAA => do let q4 ← tokQueue f; let k := TokSub.ofCode (fld f 32 2); return .vtok h k q4 (vT f) (vP f) (fld f 18 10) (if k = .elt then fld f 8 10 else 0)
  | 0xAB => match fld f 35 1 with
      | 0 => do let src ← LsetSrc.ofCode (fld f 36 2); return .lsetLoop h src (fld f 20 13) (fld f 0 20)
      | 1 => do let src ← LsetSrc.ofCode (fld f 36 2); return .lsetView h src (fld f 28 5) (fld f 20 8) (fld f 0 20)
      | _ => none
  | 0xAC => do let pat ← Pat.ofCode (fld f 0 2); let t ← VFTy.ofCode (fld f 5 3); return .vsal h pat t (fld f 2 3) (fld f 28 10) (fld f 18 10) (fld f 8 10)
  | 0xAD => some (.vmov h (Ty.ofCode (fld f 5 3)) (fld f 2 3) (fld f 28 10) (fld f 18 10))
  | _ => none

def decMat (h : Hdr) (f : Nat) : Nat → Option Instr
  | 0xC0 => do let fm ← MFmt.ofCode (fld f 2 4); return .mma h (bitAt f 1) (bitAt f 0) fm (fld f 34 4) (fld f 29 5) (fld f 14 15) (fld f 6 8)
  | 0xC1 => do let fm ← MFmt.ofCode (fld f 2 4); return .msma h (bitAt f 1) (bitAt f 0) fm (fld f 34 4) (fld f 29 5) (fld f 14 15) (fld f 6 8)
  | 0xC2 => do let fm ← MFmt.ofCode (fld f 2 4); return .mgrp h (bitAt f 0) fm (fld f 34 4) (fld f 29 5) (fld f 14 15) (fld f 6 8)
  | 0xC3 => do let fm ← MFmt.ofCode (fld f 2 4); return .mldw h fm (fld f 34 4) (fld f 29 5) (fld f 14 15) (fld f 6 8)
  | 0xC4 => some (.mzero h (fld f 34 4))
  | 0xC5 => some (.mdrain h (bitAt f 1) (bitAt f 0) (bitAt f 6) (bitAt f 7) (bitAt f 8) (fld f 34 4) (fld f 29 5))
  | 0xC6 => some (.acopy h (bitAt f 1) (bitAt f 0) (fld f 34 4) (fld f 14 4))
  | _ => none

/-- The instruction of an opcode and an operand field, before the checks of step 5. -/
def decFields (st : Stream) (h : Hdr) (op f : Nat) : Option Instr :=
  if op < 0x10 then decSystem h f op
  else if op < 0x28 then decInt h f op
  else if op < 0x38 then decFloat h f op
  else if op < 0x40 then decControl h f op
  else if op < 0x50 then decMem st h f op
  else if op < 0x58 then decQueue h f op
  else if op < 0x80 then decSched h f op
  else if op < 0xA0 then decVec h f op
  else if op < 0xC0 then decVecMem h f op
  else if op < 0xD0 then decMat h f op
  else if 0xF0 ≤ op ∧ op < 0xFF then some (.hint h (op - 0xF0))
  else none

/-- Why a word is no instruction (R32): steps 1; 2, 3 and 5; 7. -/
inductive DecodeErr where
  | litx
  | illop
  | litm
  deriving DecidableEq, Repr

def hdrOf (w : Nat) : Hdr := ⟨fld w 56 8, fld w 48 8, Iter.ofCode (fld w 46 2)⟩

/-- Opcode field of a word. -/
def opOf (w : Nat) : Nat := fld w 38 8

/-- Steps 1, 2, 3 and 5 of R32: the instruction of a word, its literal still 0. -/
def decodeFirst (st : Stream) (w : Nat) : Except DecodeErr Instr :=
  if fld w 56 8 = 255 then .error .litx
  else match decFields st (hdrOf w) (opOf w) (fld w 0 38) with
    | some i => if i.acceptedBy st && i.wf then .ok i else .error .illop
    | none => .error .illop

/-- Step 7 of R32: the literal word that follows (R34). -/
def takeLit (i : Instr) (next : Nat) : Except DecodeErr Instr :=
  match i.litKind with
  | none => .ok i
  | some k =>
    if fld next 48 16 = 0xFF00 + k then .ok (i.withLit (fld next 0 (if k = 0 then 32 else 48)))
    else .error .litm

/-- The decoder over a word and the word that follows it. -/
def decode (st : Stream) (w next : Nat) : Except DecodeErr Instr :=
  match decodeFirst st w with
  | .ok i => takeLit i next
  | .error e => .error e

/-- Eight bytes, the least significant first (R3, R16), as a word. -/
def wordOfBytes : List Byte → Nat
  | [] => 0
  | b :: bs => b.toNat + 256 * wordOfBytes bs

/-- The instruction at the head of a list of bytes and the bytes after it. -/
def decodeBytes (st : Stream) (bs : List Byte) : Except DecodeErr (Instr × List Byte) :=
  match decode st (wordOfBytes (bs.take 8)) (wordOfBytes ((bs.drop 8).take 8)) with
  | .ok i => .ok (i, bs.drop (8 * i.words))
  | .error e => .error e

/-- The bytes of a word, as the hardware stores them. -/
def bytesOfWord : Nat → Nat → List Byte
  | 0, _ => []
  | n + 1, w => BitVec.ofNat 8 w :: bytesOfWord n (w / 256)

/-- Privileged opcodes (R49): ERET, CTXSAVE, CTXLOAD, TLBINV. -/
def privOp (op : Nat) : Bool := op == 0x0A || op == 0x0D || op == 0x0E || op == 0x5F

/-- The first stream, in the order C, A, V, M, that decodes the two words. -/
def firstStream (w next : Nat) : Option (Stream × Instr) :=
  [Stream.c, Stream.a, Stream.v, Stream.m].findSome? fun st =>
    match decode st w next with
    | .ok i => some (st, i)
    | .error _ => none

/-- The instruction the decoder reads from an instruction whose bits are w: the words laid out as the hardware stores
them, and decoded for the first stream that accepts them. -/
def decodeTableWord (nbits w : Nat) : Option Instr :=
  let bs := bytesOfWord 16 (w % 2 ^ nbits)
  match firstStream (wordOfBytes (bs.take 8)) (wordOfBytes (bs.drop 8)) with
  | some (_, i) => some i
  | none => none

/-! The encoder. -/

/-- Fields put at their lowest bits. -/
def place : List (Nat × Nat) → Nat
  | [] => 0
  | (v, lo) :: l => v * 2 ^ lo + place l

/-- Opcode and fields of an instruction, each with its lowest bit; the fields are those of the layouts above. -/
def Instr.opF : Instr → Nat × List (Nat × Nat)
  | .nop _ => (0x00, [])
  | .hint _ n => (0xF0 + n, [])
  | .join _ => (0x01, [])
  | .signal _ n k c => (0x04, [(n, 8), (k.toNat, 6), (c, 0)])
  | .mark _ j e => (0x02, [(j, 16), (e, 0)])
  | .halt _ a => (0x05, [(a, 26)])
  | .jwait _ d y mask => (0x03, [(d, 32), (y.toNat, 16), (mask, 0)])
  | .trap _ a code => (0x06, [(a, 26), (code, 0)])
  | .fence _ mask => (0x07, [(mask, 0)])
  | .stamp _ a ab cyc => (0x08, [(a, 26), (ab.toNat, 16), (cyc, 0)])
  | .ppoint _ a b => (0x09, [(a, 26), (b, 20)])
  | .eret _ => (0x0A, [])
  | .ctxsave _ d a y => (0x0D, [(d, 32), (a, 26), (y.toNat, 0)])
  | .ctxload _ d a => (0x0E, [(d, 32), (a, 26)])
  | .crd _ d n => (0x0B, [(d, 32), (n, 0)])
  | .cwr _ a n => (0x0C, [(a, 26), (n, 0)])
  | .htreeStart _ a => (0x0F, [(a, 26)])
  | .htreeStop _ => (0x0F, [(1, 0)])
  | .htreeWait _ d b => (0x0F, [(d, 32), (b, 20), (2, 0)])
  | .add _ d a b => (0x10, [(d, 32), (a, 26), (b, 20)])
  | .sub _ d a b => (0x11, [(d, 32), (a, 26), (b, 20)])
  | .mul _ d a b => (0x12, [(d, 32), (a, 26), (b, 20)])
  | .mulh _ k d a b => (0x13, [(d, 32), (a, 26), (b, 20), (k.code, 0)])
  | .div _ u d a b => (0x14, [(d, 32), (a, 26), (b, 20), (u.toNat, 0)])
  | .rem _ u d a b => (0x15, [(d, 32), (a, 26), (b, 20), (u.toNat, 0)])
  | .and _ d a b => (0x16, [(d, 32), (a, 26), (b, 20)])
  | .or _ d a b => (0x17, [(d, 32), (a, 26), (b, 20)])
  | .xor _ d a b => (0x18, [(d, 32), (a, 26), (b, 20)])
  | .shl _ d a b => (0x19, [(d, 32), (a, 26), (b, 20)])
  | .shr _ d a b => (0x1A, [(d, 32), (a, 26), (b, 20)])
  | .sar _ d a b => (0x1B, [(d, 32), (a, 26), (b, 20)])
  | .clz _ d a => (0x1C, [(d, 32), (a, 26)])
  | .popc _ d a => (0x1D, [(d, 32), (a, 26)])
  | .min _ u d a b => (0x1E, [(d, 32), (a, 26), (b, 20), (u.toNat, 0)])
  | .max _ u d a b => (0x1F, [(d, 32), (a, 26), (b, 20), (u.toNat, 0)])
  | .cmp _ k d a b => (0x20, [(d, 32), (a, 26), (b, 20), (k.code, 0)])
  | .sel _ d c a b => (0x21, [(d, 32), (a, 26), (b, 20), (c, 0)])
  | .movi _ d imm => (0x22, [(d, 32), (imm, 0)])
  | .sext _ k d a => (0x25, [(d, 32), (a, 26), (k.code, 0)])
  | .movl _ k d _ => (0x23, [(d, 32), (k.code, 0)])
  | .addi _ d a imm => (0x24, [(d, 32), (a, 26), (imm, 0)])
  | .fadd _ t m d a b => (0x28, [(d, 32), (a, 26), (b, 20), (t.code, 3), (m.code, 0)])
  | .fsub _ t m d a b => (0x29, [(d, 32), (a, 26), (b, 20), (t.code, 3), (m.code, 0)])
  | .fmul _ t m d a b => (0x2A, [(d, 32), (a, 26), (b, 20), (t.code, 3), (m.code, 0)])
  | .fdiv _ t m d a b => (0x2B, [(d, 32), (a, 26), (b, 20), (t.code, 3), (m.code, 0)])
  | .fsqrt _ t m d a => (0x2C, [(d, 32), (a, 26), (t.code, 3), (m.code, 0)])
  | .fma _ t m d a b c => (0x2D, [(d, 32), (a, 26), (b, 20), (c, 6), (t.code, 3), (m.code, 0)])
  | .fmin _ t d a b => (0x31, [(d, 32), (a, 26), (b, 20), (t.code, 3)])
  | .fmax _ t d a b => (0x32, [(d, 32), (a, 26), (b, 20), (t.code, 3)])
  | .fcmp _ k t d a b => (0x33, [(d, 32), (a, 26), (b, 20), (k.code, 16), (t.code, 3)])
  | .fcvt _ s t m d a => (0x34, [(d, 32), (a, 26), (t.code, 16), (s.code, 3), (m.code, 0)])
  | .fmai _ t m d b imm => (0x2E, [(d, 32), (t.code, 29), (m.code, 26), (b, 20), (imm, 0)])
  | .fmal _ t m d a b _ => (0x2F, [(d, 32), (a, 26), (b, 20), (t.code, 3), (m.code, 0)])
  | .fmak _ t m d a b n => (0x30, [(d, 32), (a, 26), (b, 20), (n, 12), (t.code, 3), (m.code, 0)])
  | .br _ k c off => (0x38, [(c, 32), (k.code, 28), (off, 0)])
  | .jmp _ a off => (0x39, [(a, 26), (off, 0)])
  | .call _ c off => (0x3A, [(c, 32), (off, 0)])
  | .ret _ a => (0x3B, [(a, 26)])
  | .uiret _ => (0x3C, [])
  | .btok _ q d l off => (0x3D, [(q, 34), (d, 28), (l, 20), (off, 0)])
  | .ld _ k a_t d a off => (0x40, [(d, 32), (a, 26), (k.code, 17), (a_t.code, 15), (off, 0)])
  | .st _ k a_t d a off => (0x41, [(d, 32), (a, 26), (k.code, 17), (a_t.code, 15), (off, 0)])
  | .amo _ o z d a b off => (0x42, [(d, 32), (a, 26), (b, 20), (o.code, 16), (z.code, 14), (off, 0)])
  | .cas _ z d a b off => (0x43, [(d, 32), (a, 26), (b, 20), (z.code, 14), (off, 0)])
  | .barm _ d a b off => (0x4A, [(d, 32), (a, 26), (b, 20), (off, 0)])
  | .acq _ ge d a b off => (0x44, [(d, 32), (a, 26), (b, 20), (ge.toNat, 16), (off, 0)])
  | .rel _ d a off => (0x45, [(d, 32), (a, 26), (off, 0)])
  | .kldLd _ a n cnt => (0x46, [(a, 26), (n, 12), (cnt, 4)])
  | .kldRd _ d n => (0x46, [(d, 32), (n, 12), (1, 0)])
  | .ldq _ q d off => (0x47, [(q, 34), (d, 28), (off, 0)])
  | .stq _ d off => (0x48, [(2, 34), (d, 28), (off, 0)])
  | .bwait _ (.scalar d a off) => (0x49, [(d, 32), (a, 26), (off, 0)])
  | .bwait _ (.vector b) => (0x49, [(b, 8)])
  | .qpush _ q d => (0x50, [(q, 34), (d, 28)])
  | .qpop _ q d => (0x51, [(q, 34), (d, 28)])
  | .qtryPop _ q d f => (0x52, [(q, 34), (d, 28), (f, 0)])
  | .qtryPush _ q d f => (0x52, [(q, 34), (d, 28), (1, 6), (f, 0)])
  | .qlen _ fr q d => (0x53, [(q, 34), (d, 28), (fr.toNat, 0)])
  | .ecut _ d j e => (0x54, [(d, 32), (j, 16), (e, 0)])
  | .mbsend _ d c => (0x55, [(d, 28), (c, 0)])
  | .mbrecv _ d => (0x56, [(d, 28)])
  | .cdiff _ sc d a => (0x58, [(d, 32), (a, 26), (sc.code, 18)])
  | .cgo _ try_ d => (0x59, [(d, 32), (try_.toNat, 0)])
  | .glaunch _ d a => (0x5A, [(d, 32), (a, 26)])
  | .bsp _ lv d => (0x5B, [(d, 32), (lv, 0)])
  | .rseed _ g a b => (0x5C, [(a, 26), (b, 20), (g.code, 0)])
  | .rjump _ g a sh => (0x5D, [(a, 26), (g.code, 8), (sh, 0)])
  | .rnext _ d => (0x5E, [(d, 32)])
  | .tlbinv _ k sc a b => (0x5F, [(a, 26), (b, 20), (sc.code, 2), (k.code, 0)])
  | .clbinv _ k sc a b => (0x60, [(a, 26), (b, 20), (sc.code, 2), (k.code, 0)])
  | .spbegin _ d a => (0x64, [(d, 32), (a, 26)])
  | .spcmp _ k ct d a b t nc => (0x65, [(d, 32), (a, 26), (b, 20), (t, 14), (ct.toNat, 7), (k.code, 5), (nc, 0)])
  | .spacc _ d a b l => (0x66, [(d, 32), (a, 26), (b, 20), (l, 0)])
  | .spapp _ z d a r => (0x67, [(d, 32), (a, 26), (z.code, 2), (r, 0)])
  | .spendG _ => (0x68, [])
  | .spendB _ a => (0x68, [(a, 26), (1, 0)])
  | .spendSrv _ => (0x68, [(2, 0)])
  | .smp _ k d a b slot n => (0x69, [(d, 32), (a, 26), (b, 20), (slot, 14), (n, 7), (k.code, 5)])
  | .stopset _ d a b slot cnt => (0x6A, [(d, 32), (a, 26), (b, 20), (slot, 14), (cnt, 8)])
  | .vadd _ t p m d a b => (0x80, [(d, 28), (a, 18), (b, 8), (t.code, 5), (p, 2), (m.code, 0)])
  | .vsub _ t p m d a b => (0x81, [(d, 28), (a, 18), (b, 8), (t.code, 5), (p, 2), (m.code, 0)])
  | .vmul _ t p m d a b => (0x82, [(d, 28), (a, 18), (b, 8), (t.code, 5), (p, 2), (m.code, 0)])
  | .vfma _ t p m d a b => (0x83, [(d, 28), (a, 18), (b, 8), (t.code, 5), (p, 2), (m.code, 0)])
  | .vdiv _ t p m d a b => (0x84, [(d, 28), (a, 18), (b, 8), (t.code, 5), (p, 2), (m.code, 0)])
  | .vsqrt _ t p m d a => (0x85, [(d, 28), (a, 18), (t.code, 5), (p, 2), (m.code, 0)])
  | .vexp2 _ t p m d a => (0x86, [(d, 28), (a, 18), (t.code, 5), (p, 2), (m.code, 0)])
  | .vlog2 _ t p m d a => (0x87, [(d, 28), (a, 18), (t.code, 5), (p, 2), (m.code, 0)])
  | .vmin _ t p m d a b => (0x88, [(d, 28), (a, 18), (b, 8), (t.code, 5), (p, 2), (m.code, 0)])
  | .vmax _ t p m d a b => (0x89, [(d, 28), (a, 18), (b, 8), (t.code, 5), (p, 2), (m.code, 0)])
  | .vabs _ t p m d a => (0x8A, [(d, 28), (a, 18), (t.code, 5), (p, 2), (m.code, 0)])
  | .vneg _ t p m d a => (0x8B, [(d, 28), (a, 18), (t.code, 5), (p, 2), (m.code, 0)])
  | .vand _ t p m d a b => (0x8C, [(d, 28), (a, 18), (b, 8), (t.code, 5), (p, 2), (m.code, 0)])
  | .vor _ t p m d a b => (0x8D, [(d, 28), (a, 18), (b, 8), (t.code, 5), (p, 2), (m.code, 0)])
  | .vxor _ t p m d a b => (0x8E, [(d, 28), (a, 18), (b, 8), (t.code, 5), (p, 2), (m.code, 0)])
  | .vshl _ t p m d a b => (0x8F, [(d, 28), (a, 18), (b, 8), (t.code, 5), (p, 2), (m.code, 0)])
  | .vshr _ t p m d a b => (0x90, [(d, 28), (a, 18), (b, 8), (t.code, 5), (p, 2), (m.code, 0)])
  | .vsar _ t p m d a b => (0x91, [(d, 28), (a, 18), (b, 8), (t.code, 5), (p, 2), (m.code, 0)])
  | .vaddi _ d a imm => (0x92, [(d, 29), (a, 20), (imm, 0)])
  | .vmuli _ d a imm => (0x93, [(d, 29), (a, 20), (imm, 0)])
  | .vfmai _ d a imm => (0x94, [(d, 29), (a, 20), (imm, 0)])
  | .vfmal _ t p m d a b _ => (0x95, [(d, 28), (a, 18), (b, 8), (t.code, 5), (p, 2), (m.code, 0)])
  | .vcmp _ k t p pd a b => (0x96, [(k.code, 34), (pd, 28), (a, 18), (b, 8), (t.code, 5), (p, 2)])
  | .vsel _ t p d a b => (0x97, [(d, 28), (a, 18), (b, 8), (t.code, 5), (p, 2)])
  | .vcvt _ s j sat t p m d a => (0x98, [(d, 28), (a, 18), (sat.toNat, 14), (j, 11), (s.code, 8), (t.code, 5), (p, 2), (m.code, 0)])
  | .vqmx _ w t p d a slot => (0x99, [(d, 28), (a, 18), (slot, 12), (w.code, 8), (t.code, 5), (p, 2)])
  | .vdqmx _ w t p m d a slot => (0x9A, [(d, 28), (a, 18), (slot, 12), (w.code, 8), (t.code, 5), (p, 2), (m.code, 0)])
  | .vred _ o sg t p m d a => (0x9B, [(d, 28), (a, 18), (sg.code, 13), (o.code, 8), (t.code, 5), (p, 2), (m.code, 0)])
  | .vscan _ o sg t p m d a => (0x9C, [(d, 28), (a, 18), (sg.code, 13), (o.code, 8), (t.code, 5), (p, 2), (m.code, 0)])
  | .vperm _ pm t p d a b => (0x9D, [(d, 28), (a, 18), (b, 8), (t.code, 5), (p, 2), (pm.toNat, 0)])
  | .vcomp _ t p d a => (0x9E, [(d, 28), (a, 18), (t.code, 5), (p, 2)])
  | .vpart _ four q4 t p d a => (0x9F, [(d, 28), (a, 18), (four.toNat, 9), (q4.toNat, 8), (t.code, 5), (p, 2)])
  | .plogic _ fn t p pd pa pb => (0xA0, [(pd, 28), (pa, 24), (pb, 20), (fn, 16), (t.code, 5), (p, 2)])
  | .pcnt _ pre t p d pa => (0xA1, [(d, 28), (pa, 18), (pre.toNat, 8), (t.code, 5), (p, 2)])
  | .rpt _ n sd sa sb => (0xA9, [(n, 26), (sd, 21), (sa, 16), (sb, 11)])
  | .vmov _ t p d a => (0xAD, [(d, 28), (a, 18), (t.code, 5), (p, 2)])
  | .vld _ a_t t p m d vw o => (0xA2, [(d, 28), (vw, 23), (a_t.code, 21), (o, 8), (t.code, 5), (p, 2), (m.code, 0)])
  | .vst _ a_t t p m d vw o => (0xA3, [(d, 28), (vw, 23), (a_t.code, 21), (o, 8), (t.code, 5), (p, 2), (m.code, 0)])
  | .vldc _ p d a vw o0 o1 o2 => (0xA4, [(d, 28), (a, 18), (vw, 13), (o2, 10), (o1, 7), (o0, 4), (p, 1)])
  | .vstc _ p d a vw o0 o1 o2 => (0xA5, [(d, 28), (a, 18), (vw, 13), (o2, 10), (o1, 7), (o0, 4), (p, 1)])
  | .vmapSet _ d b => (0xA6, [(d, 28), (b, 8)])
  | .vmapSlice _ k d a b => (0xA6, [(d, 28), (a, 18), (b, 8), (1, 5), (k, 3)])
  | .vmapPerm _ d a b => (0xA6, [(d, 28), (a, 18), (b, 8), (2, 5)])
  | .vmapShift _ k d a b => (0xA6, [(d, 28), (a, 18), (b, 8), (3, 5), (k, 3)])
  | .vmapq _ k q4 a b => (0xA7, [(3 + q4.toNat, 34), (k.code, 32), (a, 18), (b, 8)])
  | .vrndKey _ t p d b => (0xA8, [(d, 28), (b, 8), (t.code, 5), (p, 2)])
  | .vrndStr _ t p d => (0xA8, [(d, 28), (1, 27), (t.code, 5), (p, 2)])
  | .vtok _ k q4 t p a b => (0xAA, [(3 + q4.toNat, 34), (k.code, 32), (a, 18), (b, 8), (t.code, 5), (p, 2)])
  | .lsetLoop _ src len val => (0xAB, [(src.code, 36), (len, 20), (val, 0)])
  | .lsetView _ src vw fl val => (0xAB, [(src.code, 36), (1, 35), (vw, 28), (fl, 20), (val, 0)])
  | .vsal _ pat t p d a b => (0xAC, [(d, 28), (a, 18), (b, 8), (t.code, 5), (p, 2), (pat.code, 0)])
  | .mma _ tr z fm t vw wb k => (0xC0, [(t, 34), (vw, 29), (wb, 14), (k, 6), (fm.code, 2), (tr.toNat, 1), (z.toNat, 0)])
  | .msma _ tr z fm t vw wb k => (0xC1, [(t, 34), (vw, 29), (wb, 14), (k, 6), (fm.code, 2), (tr.toNat, 1), (z.toNat, 0)])
  | .mgrp _ z fm t vw wb k => (0xC2, [(t, 34), (vw, 29), (wb, 14), (k, 6), (fm.code, 2), (z.toNat, 0)])
  | .mldw _ fm t vw wb k => (0xC3, [(t, 34), (vw, 29), (wb, 14), (k, 6), (fm.code, 2)])
  | .mzero _ t => (0xC4, [(t, 34)])
  | .mdrain _ tr z ins fl nost t vw => (0xC5, [(t, 34), (vw, 29), (nost.toNat, 8), (fl.toNat, 7), (ins.toNat, 6), (tr.toNat, 1), (z.toNat, 0)])
  | .acopy _ tr acc t td => (0xC6, [(t, 34), (td, 14), (tr.toNat, 1), (acc.toNat, 0)])
  | .copyLin _ _ => (0, [])
  | .copyRect _ _ => (0, [])
  | .copyFill _ _ => (0, [])
  | .indexGat _ _ => (0, [])
  | .indexSct _ _ => (0, [])
  | .selPred _ _ => (0, [])
  | .selTopk _ _ => (0, [])
  | .selHist _ _ => (0, [])
  | .selFilt _ _ => (0, [])
  | .reduceCommand _ _ => (0, [])
  | .samplerTmp _ => (0, [])
  | .samplerProb _ => (0, [])
  | .samplerRes _ => (0, [])
  | .engineReplyPush _ _ => (0, [])
  | .markerRetire _ _ => (0, [])
  | .coupledSignalArrival _ => (0, [])
  | .mailboxTransfer _ => (0, [])
  | .ldqDataArrival _ _ => (0, [])
  | .userInterruptEntry _ => (0, [])
  | .coreStop _ => (0, [])
  | .preemptHorizon _ => (0, [])
  | .enusedUpdate _ => (0, [])
  | .poolInterval => (0, [])
  | .quantumBoundary _ _ => (0, [])
  | .htreeUpdate _ => (0, [])
  | .coreJobStart _ => (0, [])
  | .coreJobEnd _ => (0, [])
  | .dispatchDecision => (0, [])
  | .nodeCompletion _ _ => (0, [])
  | .graphEnd _ => (0, [])
  | .virgaIterationDispatch _ => (0, [])
  | .virgaRoundCommit _ => (0, [])
  | .fabricPut _ _ => (0, [])
  | .fabricGet _ _ => (0, [])
  | .fabricRadd _ _ => (0, [])
  | .putData _ => (0, [])
  | .getRequest _ => (0, [])
  | .getData _ => (0, [])
  | .raddData _ => (0, [])
  | .fabricAck _ => (0, [])
  | .fabricNak _ => (0, [])
  | .fabricRetransmitTimeout _ => (0, [])
  | .fabricFailureTimeout _ => (0, [])
  | .hostMemoryRead _ _ => (0, [])
  | .hostMemoryWrite _ _ => (0, [])
  | .launchStore _ _ _ => (0, [])
  | .cbpopStore => (0, [])
  | .cbdoneStore _ => (0, [])
  | .hintstClear _ => (0, [])
  | .herrClear => (0, [])
  | .smpposWrite _ _ => (0, [])
  | .smpstWrite _ _ => (0, [])
  | .gdataWrite _ _ => (0, [])
  | .elogsClear _ => (0, [])
  | .einjWrite _ _ => (0, [])
  | .cretireWrite _ _ _ _ => (0, [])
  | .regionTableWrite _ _ _ => (0, [])
  | .thermWrite _ => (0, [])
  | .registerWrite _ _ _ => (0, [])
  | .thermalStopBegin => (0, [])
  | .thermalStopEnd => (0, [])
  | .powerOnReset _ _ => (0, [])
  | .attestationRequest _ => (0, [])
  | .launchDecision _ => (0, [])
  | .softError _ _ _ _ => (0, [])
  | .swiverLinkFailure => (0, [])
  | .fabricFrameDropped _ => (0, [])

/-- The words of an instruction: the word, and the literal word after it where the instruction takes one. -/
def encode (i : Instr) : List Nat :=
  match i.hdr with
  | none => []
  | some h =>
    let w := h.w * 2 ^ 56 + h.g * 2 ^ 48 + h.it.code * 2 ^ 46 + i.opF.1 * 2 ^ 38 + place i.opF.2
    match i.litKind with
    | none => [w]
    | some k => [w, (0xFF00 + k) * 2 ^ 48 + i.lit]

/-- The bytes of an instruction as the hardware stores them. -/
def encodeBytes (i : Instr) : List Byte := (encode i).flatMap (bytesOfWord 8)

end Sys2Proof
end

