-- ==== Sys2Proof/Machine/Map.lean ====
section
/-! DEFINITION. Sparse maps: strictly rising keys, no pair holding the default. And order knowledge (R325). -/

namespace Sys2Proof

/-- An element put ahead of the first of a list that it comes before. -/
def insertBy {α : Type} (le : α → α → Bool) (a : α) : List α → List α
  | [] => [a]
  | b :: l => if le a b then a :: b :: l else b :: insertBy le a l

/-- A list in order; elements of one rank keep their order. -/
def sortBy {α : Type} (le : α → α → Bool) : List α → List α
  | [] => []
  | a :: l => insertBy le a (sortBy le l)

/-- The value at a key. -/
def SMap.get {α : Type} (d : α) : SMap α → Nat → α
  | [], _ => d
  | (k', v) :: m, k => if k = k' then v else SMap.get d m k

/-- The map with the key holding nothing. -/
def SMap.del {α : Type} : SMap α → Nat → SMap α
  | [], _ => []
  | (k', v) :: m, k => if k = k' then m else (k', v) :: SMap.del m k

/-- The map with the key holding a value that is not the default. -/
def SMap.ins {α : Type} : SMap α → Nat → α → SMap α
  | [], k, v => [(k, v)]
  | (k', v') :: m, k, v =>
    if k < k' then (k, v) :: (k', v') :: m
    else if k = k' then (k, v) :: m
    else (k', v') :: SMap.ins m k v

/-- The map with the key holding a value. -/
def SMap.set {α : Type} [DecidableEq α] (d : α) (m : SMap α) (k : Nat) (v : α) : SMap α :=
  if v = d then SMap.del m k else SMap.ins m k v

/-- Keys strictly rising, from a lower bound on. -/
def SMap.rising {α : Type} : Nat → SMap α → Bool
  | _, [] => true
  | lo, (k, _) :: m => decide (lo ≤ k) && SMap.rising (k + 1) m

/-- The canonical form. -/
def SMap.wf {α : Type} [DecidableEq α] (d : α) (m : SMap α) : Bool :=
  SMap.rising 0 m && m.all fun p => p.2 ≠ d

/-- Set keys from n up to the values of a list. -/
def SMap.setRange {α : Type} [DecidableEq α] (d : α) (m : SMap α) : Nat → List α → SMap α
  | _, [] => m
  | n, v :: vs => SMap.setRange d (SMap.set d m n v) (n + 1) vs

/-- The values at n keys from k up. -/
def SMap.range {α : Type} (d : α) (m : SMap α) (k : Nat) : Nat → List α
  | 0 => []
  | n + 1 => SMap.get d m k :: SMap.range d m (k + 1) n

namespace Machine

/-- Set the keys of a list, in order. -/
def setAll {α : Type} [DecidableEq α] (d : α) (m : SMap α) : List (Nat × α) → SMap α
  | [] => m
  | (k, v) :: l => setAll d (SMap.set d m k v) l

/-- What two agents know together. -/
def joinClk (a b : List (Nat × Nat)) : List (Nat × Nat) :=
  b.foldl (fun acc p => if SMap.get 0 acc p.1 < p.2 then SMap.set 0 acc p.1 p.2 else acc) a

/-- Whether event n of an agent is known. -/
def knows (c : List (Nat × Nat)) (agent n : Nat) : Bool := n ≤ SMap.get 0 c agent

end Machine

end Sys2Proof
end

