-- ==== Sys2Proof/Machine/Flags.lean ====
section
/-! DEFINITION. The seven sticky flags (R61) and how a flag register takes them. -/

namespace Sys2Proof.Machine

/-- A set of flags, in the layout of FPFLAGS, VFLAGS and MFLAGS (R61). -/
abbrev Flags := BitVec 7

def fInvalid : Flags := 0x01
def fDivZero : Flags := 0x02
def fOverflow : Flags := 0x04
def fUnderflow : Flags := 0x08
def fInexact : Flags := 0x10
def fSat : Flags := 0x20
def fMapLost : Flags := 0x40

/-- The flag when the condition holds. -/
def flagIf (c : Bool) (f : Flags) : Flags := if c then f else 0

/-- A sticky register after flags are raised (R61): the bits stay until a CWR clears them. -/
def raise (reg : Word) (f : Flags) : Word := reg ||| f.setWidth 64

end Sys2Proof.Machine
end

