-- ==== Sys2Proof/Machine/Num.lean ====
section
/-! DEFINITION. Number formats, rounding, exact sums, conversions and MXINT blocks (R52 to R69). Patterns are natural
numbers; every function is structural, so that the kernel evaluates it. -/

namespace Sys2Proof.Machine

/-- A floating format: exponent and fraction bits (R52). -/
structure FFmt where
  eb : Nat
  fb : Nat
  deriving DecidableEq, Repr

def FFmt.bias (f : FFmt) : Nat := 2 ^ (f.eb - 1) - 1
def FFmt.bits (f : FFmt) : Nat := f.eb + f.fb + 1
/-- Exponent of the last fraction bit of a subnormal. -/
def FFmt.qmin (f : FFmt) : Int := 1 - (f.bias : Int) - f.fb
def FFmt.infPat (f : FFmt) (neg : Bool) : Nat := neg.toNat * 2 ^ (f.eb + f.fb) + (2 ^ f.eb - 1) * 2 ^ f.fb
/-- The canonical quiet NaN (R52, R54). -/
def FFmt.nanPat (f : FFmt) : Nat := f.infPat false + 2 ^ (f.fb - 1)
def FFmt.zeroPat (f : FFmt) (neg : Bool) : Nat := neg.toNat * 2 ^ (f.eb + f.fb)
def FFmt.maxPat (f : FFmt) (neg : Bool) : Nat := f.infPat neg - 1

def fmt64 : FFmt := ⟨11, 52⟩
def fmt32 : FFmt := ⟨8, 23⟩
def fmt16 : FFmt := ⟨5, 10⟩
def fmtB16 : FFmt := ⟨8, 7⟩

/-- Format of a floating type; integer types have none and read as f64 here, where no caller asks. -/
def ffmt : Ty → FFmt
  | .f32 => fmt32 | .f16 => fmt16 | .bf16 => fmtB16 | _ => fmt64

/-- A value: a NaN (signalling or not), an infinity, or the finite (-1)^neg * mant * 2^exp, above which `sticky` says
that something smaller than one unit of the last place of mant was cut off. -/
inductive Val where
  | nan (sig : Bool)
  | inf (neg : Bool)
  | fin (neg : Bool) (mant : Nat) (exp : Int) (sticky : Bool)
  deriving DecidableEq, Repr

/-- The value of a pattern (R52). -/
def FFmt.unpack (f : FFmt) (p : Nat) : Val :=
  let neg := p / 2 ^ (f.eb + f.fb) % 2 == 1
  let e := p / 2 ^ f.fb % 2 ^ f.eb
  let m := p % 2 ^ f.fb
  if e = 2 ^ f.eb - 1 then
    if m = 0 then .inf neg else .nan (m < 2 ^ (f.fb - 1))
  else if e = 0 then .fin neg m f.qmin false
  else .fin neg (m + 2 ^ f.fb) (f.qmin + (e - 1 : Int)) false

def Val.isNan : Val → Bool
  | .nan _ => true
  | _ => false

def Val.isSig : Val → Bool
  | .nan s => s
  | _ => false

def Val.isInf : Val → Bool
  | .inf _ => true
  | _ => false

def Val.isZero : Val → Bool
  | .fin _ 0 _ false => true
  | _ => false

def Val.neg : Val → Bool
  | .nan _ => false
  | .inf n => n
  | .fin n _ _ _ => n

def Val.negate : Val → Val
  | .nan s => .nan s
  | .inf n => .inf !n
  | .fin n m e s => .fin (!n) m e s

def Val.abs : Val → Val
  | .nan s => .nan s
  | .inf _ => .inf false
  | .fin _ m e s => .fin false m e s

def valOfInt (i : Int) : Val := .fin (i < 0) i.natAbs 0 false

/-- Rounding modes after `dyn` is resolved (R40, R57); the stochastic ones carry their 32 bits (R58, R59). -/
inductive RMode where
  | rne | rtz | down | up | away
  | stoch (b : Nat)
  deriving DecidableEq, Repr

/-- Whether the magnitude n + r (0 ≤ r < 1) is rounded to n + 1. r = rem / 2^sh, with sticky beneath it. -/
def roundsUp (mode : RMode) (neg : Bool) (n rem sh : Nat) (sticky : Bool) : Bool :=
  let inexact := rem != 0 || sticky
  match mode with
  | .rtz => false
  | .down => neg && inexact
  | .up => !neg && inexact
  | .rne => 2 * rem > 2 ^ sh || (2 * rem == 2 ^ sh && sh != 0 && (sticky || n % 2 == 1))
  | .away => 2 * rem ≥ 2 ^ sh && sh != 0
  | .stoch b => inexact && rem * 2 ^ 32 / 2 ^ sh + b ≥ 2 ^ 32

/-- |x| as a multiple of 2^q, rounded; and whether the result differs from x. Where a value is cut off (sticky),
exp is far below q, so that its last place never reaches the bits that decide. -/
def roundAt (mode : RMode) (neg : Bool) (mant : Nat) (exp : Int) (sticky : Bool) (q : Int) : Nat × Bool :=
  if exp ≥ q then (mant * 2 ^ (exp - q).toNat + (if roundsUp mode neg (mant * 2 ^ (exp - q).toNat) 0 1 sticky then 1 else 0), sticky)
  else
    let sh := (q - exp).toNat
    let n := mant / 2 ^ sh
    let rem := mant % 2 ^ sh
    (n + (if roundsUp mode neg n rem sh sticky then 1 else 0), rem != 0 || sticky)

/-- The pattern n * 2^q of a format, q at least qmin; n below 2^(fb+1), or equal to it. -/
def FFmt.pack (f : FFmt) (neg : Bool) (n : Nat) (q : Int) : Nat :=
  f.zeroPat neg + (q - f.qmin).toNat * 2 ^ f.fb + n

/-- Round a finite value (R57, R58, R62). -/
def roundFin (f : FFmt) (mode : RMode) (neg : Bool) (mant : Nat) (exp : Int) (sticky : Bool) : Nat × Flags :=
  if mant = 0 then (f.zeroPat neg, 0) else
  let top : Int := exp + (Nat.log2 mant : Int)
  let qfree : Int := top - f.fb
  let q : Int := if qfree < f.qmin then f.qmin else qfree
  let (n, inexact) := roundAt mode neg mant exp sticky q
  let ovf := q + (Nat.log2 n : Int) > (f.bias : Int) && n != 0
  if ovf then
    let toInf := match mode with
      | .rtz => false
      | .down => neg
      | .up => !neg
      | _ => true
    (if toInf then f.infPat neg else f.maxPat neg, fOverflow ||| fInexact)
  else
    let (nf, _) := roundAt mode neg mant exp sticky qfree
    let tiny := qfree + (Nat.log2 nf : Int) < 1 - (f.bias : Int)
    (f.pack neg n q, flagIf inexact fInexact ||| flagIf (inexact && tiny) fUnderflow)

/-- Round(x, fmt, mode) (R25, R54, R57). The flags of a signalling operand are raised where it is an operand. -/
def roundTo (f : FFmt) (mode : RMode) : Val → Nat × Flags
  | .nan _ => (f.nanPat, 0)
  | .inf n => (f.infPat n, 0)
  | .fin n m e s => roundFin f mode n m e s

/-- Whether the number is rounded to an integer n, with n as a multiple of 1 (R64). -/
def roundInt (mode : RMode) (neg : Bool) (mant : Nat) (exp : Int) (sticky : Bool) : Int × Bool :=
  let (n, inexact) := roundAt mode neg mant exp sticky 0
  (if neg then -(n : Int) else n, inexact)

/-- Sat (R25). -/
def sat (x lo hi : Int) : Int × Flags :=
  if x < lo then (lo, fSat) else if x > hi then (hi, fSat) else (x, 0)

def intMin (w : Nat) : Int := -(2 ^ (w - 1) : Nat)
def intMax (w : Nat) : Int := (2 ^ (w - 1) : Nat) - 1

/-- A pattern of width w read as two's complement. -/
def sval (w p : Nat) : Int := if p % 2 ^ w < 2 ^ (w - 1) then (p % 2 ^ w : Nat) else (p % 2 ^ w : Nat) - (2 ^ w : Nat)

/-- An integer as a pattern of width w (R56: wraps). -/
def wrap (w : Nat) (i : Int) : Nat := (i % (2 ^ w : Nat)).toNat

/-! Exact arithmetic. -/

/-- A signed mantissa. -/
def signed (neg : Bool) (m : Nat) : Int := if neg then -(m : Int) else m

/-- The smallest exponent of the finite terms that are not zero. -/
def minExp : List Val → Option Int
  | [] => none
  | .fin _ (_ + 1) e _ :: l => match minExp l with
    | none => some e
    | some e' => some (if e < e' then e else e')
  | _ :: l => minExp l

/-- Sum of the finite terms as a multiple of 2^q. -/
def sumAt (q : Int) : List Val → Int
  | [] => 0
  | .fin n m e _ :: l => (if m = 0 then 0 else signed n (m * 2 ^ (e - q).toNat)) + sumAt q l
  | _ :: l => sumAt q l

/-- The exact sum of terms and the flags of its special cases (R57, R62, R68); zeroNeg: an exact zero from terms that
are not all zeros of one sign is -0 (toward -∞). -/
def sumVals (zeroNeg : Bool) (l : List Val) : Val × Flags :=
  let pinf := l.any fun v => v.isInf && !v.neg
  let ninf := l.any fun v => v.isInf && v.neg
  if pinf && ninf then (.nan false, fInvalid)
  else if l.any Val.isNan then (.nan false, 0)
  else
    if pinf then (.inf false, 0)
    else if ninf then (.inf true, 0)
    else match minExp l with
      | none => (.fin (if l.all Val.neg then true else if l.any Val.neg then zeroNeg else false) 0 0 false, 0)
      | some q =>
        let s := sumAt q l
        if s = 0 then (.fin zeroNeg 0 0 false, 0) else (.fin (s < 0) s.natAbs q false, 0)

/-- An exact product; 0 × ∞ is NaN with Invalid (R62). -/
def mulVals (x y : Val) : Val × Flags :=
  match x, y with
  | .nan _, _ => (.nan false, 0)
  | _, .nan _ => (.nan false, 0)
  | .inf n, .inf m => (.inf (n != m), 0)
  | .inf n, .fin m 0 _ _ => let _ := (n, m); (.nan false, fInvalid)
  | .fin m 0 _ _, .inf n => let _ := (n, m); (.nan false, fInvalid)
  | .inf n, .fin m _ _ _ => (.inf (n != m), 0)
  | .fin n _ _ _, .inf m => (.inf (n != m), 0)
  | .fin n a e _, .fin m b f _ => (.fin (n != m) (a * b) (e + f) false, 0)

/-- Quotient with more bits than any rounding looks at, and sticky beneath them. -/
def divVals (x y : Val) : Val × Flags :=
  match x, y with
  | .nan _, _ => (.nan false, 0)
  | _, .nan _ => (.nan false, 0)
  | .inf _, .inf _ => (.nan false, fInvalid)
  | .inf n, .fin m _ _ _ => (.inf (n != m), 0)
  | .fin n _ _ _, .inf m => (.fin (n != m) 0 0 false, 0)
  | .fin n a e _, .fin m b f _ =>
    if b = 0 then
      if a = 0 then (.nan false, fInvalid) else (.inf (n != m), fDivZero)
    else if a = 0 then (.fin (n != m) 0 0 false, 0)
    else
      let k := 160 + Nat.log2 b
      (.fin (n != m) (a * 2 ^ k / b) (e - f - k) (a * 2 ^ k % b != 0), 0)

/-- Integer square root, by bits from 2^k down. -/
def isqrtFrom (n : Nat) : Nat → Nat → Nat
  | 0, r => r
  | k + 1, r => if (r + 2 ^ k) * (r + 2 ^ k) ≤ n then isqrtFrom n k (r + 2 ^ k) else isqrtFrom n k r

def isqrt (n : Nat) : Nat := isqrtFrom n (Nat.log2 n / 2 + 1) 0

/-- Square root (R62, R180): of -0 it is -0, of a value below it NaN with Invalid. -/
def sqrtVal : Val → Val × Flags
  | .nan _ => (.nan false, 0)
  | .inf n => if n then (.nan false, fInvalid) else (.inf false, 0)
  | .fin n m e _ =>
    if m = 0 then (.fin n 0 0 false, 0)
    else if n then (.nan false, fInvalid)
    else
      let odd := (e % 2).toNat
      let r := m * 2 ^ (odd + 400)
      (.fin false (isqrt r) ((e - odd) / 2 - 200) (isqrt r * isqrt r != r), 0)

/-! 2^x and log2 x (R55): bounds in fixed point, cut at 340 fraction bits. But at the exact cases the values are
irrational, so the cut is never exact, and some precision puts both bounds on one side of every boundary. -/

/-- Fraction bits that are kept. -/
def fxKept : Nat := 340

/-- The cut of a value between bounds that are computed with b fraction bits, b doubled until both cut alike. -/
def cutFx (bounds : Nat → Nat × Nat) : Nat → Nat → Nat
  | 0, b => (bounds b).1 / 2 ^ (b - fxKept)
  | n + 1, b =>
    let p := bounds b
    let lo := p.1 / 2 ^ (b - fxKept)
    if lo = p.2 / 2 ^ (b - fxKept) then lo else cutFx bounds n (2 * b)

/-- Σ 1 / (k 2^k): ln 2 with b fraction bits, from below; each term is short by less than 1. -/
def ln2Sum (b : Nat) : Nat → Nat
  | 0 => 0
  | k + 1 => 2 ^ b / ((k + 1) * 2 ^ (k + 1)) + ln2Sum b k

/-- exp y by its series, from below. -/
def expSum (b y : Nat) : Nat → Nat → Nat → Nat → Nat
  | 0, _, _, acc => acc
  | fuel + 1, k, term, acc =>
    let t := term * y / 2 ^ b / k
    expSum b y fuel (k + 1) t (acc + t)

/-- atanh z = Σ z^(2k+1) / (2k+1), from below. -/
def atanhSum (b z2 : Nat) : Nat → Nat → Nat → Nat → Nat
  | 0, _, _, acc => acc
  | fuel + 1, k, p, acc => atanhSum b z2 fuel (k + 2) (p * z2 / 2 ^ b) (acc + p / k)

/-- Bounds of 2^(f / 2^sh) for a fraction below 1: ln 2 is short by less than b + 1, and each of at most b / 3 terms by
less than 2. -/
def exp2Bounds (f sh b : Nat) : Nat × Nat :=
  let v := expSum b (f * ln2Sum b b / 2 ^ sh) (b / 3) 1 (2 ^ b) (2 ^ b)
  (v, v + 8 * b)

/-- Bounds of log2 (m / 2^t) = 2 atanh ((m - 2^t) / (m + 2^t)) / ln 2 for m between 2^t and 2^(t+1): each sum is short by
less than 2 b. -/
def log2Bounds (m t b : Nat) : Nat × Nat :=
  let z := (m - 2 ^ t) * 2 ^ b / (m + 2 ^ t)
  let a := atanhSum b (z * z / 2 ^ b) (b / 3 + 10) 1 z 0
  let l := ln2Sum b b
  (2 * a * 2 ^ b / (l + 2 * b), 2 * (a + 2 * b) * 2 ^ b / l + 1)

/-- 2^x (R55, R62, R180). -/
def exp2Val : Val → Val × Flags
  | .nan _ => (.nan false, 0)
  | .inf n => if n then (.fin false 0 0 false, 0) else (.inf false, 0)
  | .fin n m e _ =>
    if m = 0 then (.fin false 1 0 false, 0)
    else if e + (Nat.log2 m : Int) > 13 then
      -- beyond every format's range: the rounding of R57 decides between the bounds
      if n then (.fin false 1 (-16384) true, 0) else (.fin false 1 16384 true, 0)
    else if e + (Nat.log2 m : Int) < -330 then
      if n then (.fin false (2 ^ 330 - 1) (-330) true, 0) else (.fin false (2 ^ 330) (-330) true, 0)
    else
      -- x = i + f / 2^sh
      let sh := (if e < 0 then (-e).toNat else 0)
      let s := signed n (m * 2 ^ (if e < 0 then 0 else e.toNat))
      let i := s / (2 ^ sh : Nat)
      let f := (s % (2 ^ sh : Nat)).toNat
      if f = 0 then (.fin false 1 i false, 0)
      else
        (.fin false (cutFx (exp2Bounds f sh) 8 400) (i - fxKept) true, 0)

/-- log2 x (R55, R62, R180). -/
def log2Val : Val → Val × Flags
  | .nan _ => (.nan false, 0)
  | .inf n => if n then (.nan false, fInvalid) else (.inf false, 0)
  | .fin n m e _ =>
    if m = 0 then (.inf true, fDivZero)
    else if n then (.nan false, fInvalid)
    else
      let t := Nat.log2 m
      let k : Int := e + t
      if m = 2 ^ t then (valOfInt k, 0)
      else
        let s : Int := k * (2 ^ fxKept : Nat) + cutFx (log2Bounds m t) 8 400
        if k < 0 then (.fin true (-s - 1).toNat (-(fxKept : Int)) true, 0)
        else (.fin false s.toNat (-(fxKept : Int)) true, 0)

/-! Comparison (R112): of values that are not NaN. -/

/-- x < y, x = y of two finite or infinite values; -0 equals +0. -/
def ltVals (x y : Val) : Bool :=
  match x, y with
  | .inf n, .inf m => n && !m
  | .inf n, _ => n
  | _, .inf m => !m
  | x, y =>
    match minExp [x, y] with
    | none => false
    | some q => sumAt q [x] < sumAt q [y]

def eqVals (x y : Val) : Bool := !x.isNan && !y.isNan && !ltVals x y && !ltVals y x

/-- Flags of signalling operands (R62). -/
def sigFlags (l : List Val) : Flags := flagIf (l.any Val.isSig) fInvalid

/-- A floating comparison and its flags (R112). -/
def fcompare (k : FCond) (x y : Val) : Bool × Flags :=
  let un := x.isNan || y.isNan
  let r := match k with
    | .eq => !un && eqVals x y
    | .ne => un || !eqVals x y
    | .lt => !un && ltVals x y
    | .le => !un && !ltVals y x
    | .gt => !un && ltVals y x
    | .ge => !un && !ltVals x y
    | .un => un
    | .ord => !un
  (r, sigFlags [x, y])

/-- The lesser or greater pattern, -0 below +0, a NaN operand giving the canonical NaN (R111). -/
def fminmax (f : FFmt) (isMax : Bool) (p q : Nat) : Nat × Flags :=
  let x := f.unpack p
  let y := f.unpack q
  if x.isNan || y.isNan then (f.nanPat, sigFlags [x, y])
  else
    let less := ltVals x y || (eqVals x y && x.neg && !y.neg)
    (if less == isMax then q else p, 0)

/-! Arithmetic members (R110, R180): operands as patterns of one format, the addend as a value. -/

/-- Whether an exact zero sum takes the negative sign (R57). -/
def RMode.zeroNeg : RMode → Bool
  | .down => true
  | _ => false

def addVals (mode : RMode) (x y : Val) : Val × Flags := sumVals mode.zeroNeg [x, y]

/-- Round a result and join the flags. -/
def finish (f : FFmt) (mode : RMode) (ops : List Val) (r : Val × Flags) : Nat × Flags :=
  let (p, fl) := roundTo f mode r.1
  (p, fl ||| r.2 ||| sigFlags ops)

def fAdd (f : FFmt) (mode : RMode) (x y : Val) : Nat × Flags := finish f mode [x, y] (addVals mode x y)
def fSub (f : FFmt) (mode : RMode) (x y : Val) : Nat × Flags := finish f mode [x, y] (addVals mode x y.negate)
def fMul (f : FFmt) (mode : RMode) (x y : Val) : Nat × Flags := finish f mode [x, y] (mulVals x y)
def fDiv (f : FFmt) (mode : RMode) (x y : Val) : Nat × Flags := finish f mode [x, y] (divVals x y)
def fSqrt (f : FFmt) (mode : RMode) (x : Val) : Nat × Flags := finish f mode [x] (sqrtVal x)
def fExp2 (f : FFmt) (mode : RMode) (x : Val) : Nat × Flags := finish f mode [x] (exp2Val x)
def fLog2 (f : FFmt) (mode : RMode) (x : Val) : Nat × Flags := finish f mode [x] (log2Val x)

/-- X * Y + Z with one rounding; 0 × ∞ is Invalid whatever Z holds (R110, R136). -/
def fFma (f : FFmt) (mode : RMode) (x y z : Val) : Nat × Flags :=
  let (p, pf) := mulVals x y
  let (s, sf) := sumVals mode.zeroNeg [p, z]
  finish f mode [x, y, z] (s, pf ||| sf)

/-! Conversions (R64). -/

/-- The value of a pattern of an element type. -/
def tyVal (t : Ty) (p : Nat) : Val := if t.isFloat then (ffmt t).unpack p else valOfInt (sval t.width p)

/-- Floating value to integer (R64). -/
def floatToInt (t : Ty) (mode : RMode) : Val → Nat × Flags
  | .nan _ => (0, fInvalid)
  | .inf n => (wrap t.width (if n then intMin t.width else intMax t.width), fSat)
  | .fin n m e s =>
    let (r, inexact) := roundInt mode n m e s
    let (v, sf) := sat r (intMin t.width) (intMax t.width)
    (wrap t.width v, sf ||| flagIf inexact fInexact)

/-- Convert a pattern of type s to type t (R64, R113, R185); saturate: integer to narrower integer clamps. -/
def convert (s t : Ty) (mode : RMode) (saturate : Bool) (p : Nat) : Nat × Flags :=
  match s.isFloat, t.isFloat with
  | true, true => let x := (ffmt s).unpack p; finish (ffmt t) mode [x] (x, 0)
  | true, false => floatToInt t mode ((ffmt s).unpack p)
  | false, true => roundTo (ffmt t) mode (valOfInt (sval s.width p))
  | false, false =>
    if saturate && t.width < s.width then
      let (v, fl) := sat (sval s.width p) (intMin t.width) (intMax t.width)
      (wrap t.width v, fl)
    else (wrap t.width (sval s.width p), 0)

/-- A conversion whose result is rounded (R59, R64): one to a wider floating type is exact, and m is ignored (R41). -/
def convRounds (s t : Ty) : Bool :=
  s != t && if s.isFloat && t.isFloat then decide (t.width ≤ s.width) else s.isFloat || t.isFloat

/-! MXINT blocks (R65, R66). A block is a number: its bytes little-endian. -/

def mxBits : MxW → Nat
  | .mx8 => 8 | .mx6 => 6 | .mx4 => 4

/-- Element i of a block as a value (R65); none in a NaN block. -/
def mxElem (w : MxW) (block i : Nat) : Option Val :=
  let b := mxBits w
  let e := block % 256
  if e = 255 then none
  else
    let σ := block / 2 ^ (8 + 2 * (i / 4)) % 4
    let q := sval b (block / 2 ^ (16 + i * b))
    some (.fin (q < 0) q.natAbs ((e : Int) - 127 - σ - (b - 2 : Nat)) false)

/-- Element i of a block in a floating format (R65). -/
def mxDecode (w : MxW) (f : FFmt) (mode : RMode) (block i : Nat) : Nat × Flags :=
  match mxElem w block i with
  | none => (f.nanPat, 0)
  | some (.fin _ 0 _ _) => (f.zeroPat false, 0)
  | some v => roundTo f mode v

/-- Decoding the element rounds (R65): in bf16 and f16 it is a Round, in f32 of -2^128 alone, in f64 of none. -/
def mxRounds (w : MxW) (t : Ty) (block i : Nat) : Bool :=
  match t with
  | .f64 => false
  | .f32 => match mxElem w block i with
    | some (.fin true m e _) => decide (0 ≤ e && m * 2 ^ e.toNat = 2 ^ 128)
    | _ => false
  | _ => true

/-- RNE(|x| / 2^q) of a finite value. -/
def mxQuot (v : Val) (q : Int) : Nat × Bool :=
  match v with
  | .fin _ m e s => roundAt .rne false m e s q
  | _ => (0, false)

/-- Whether every finite member fits Qmax at the exponent 2^q; an infinity fits nowhere. -/
def mxFits (qmax : Nat) (q : Int) (l : List Val) : Bool :=
  l.all fun v => !v.isInf && (mxQuot v q).1 ≤ qmax

/-- The smallest E of 0 to 254 at which all fit, or 254 (R66 step 3). -/
def mxFindE (qmax b : Nat) (l : List Val) : Nat → Nat → Nat
  | 0, e => e
  | fuel + 1, e => if mxFits qmax ((e : Int) - 127 - (b - 2 : Nat)) l then e else mxFindE qmax b l fuel (e + 1)

/-- The largest sub-shift of 3 down to 0 at which a quad fits, or 0 (R66 step 4). -/
def mxSigma (qmax b e : Nat) (l : List Val) : Nat :=
  let ok := fun (s : Nat) => mxFits qmax ((e : Int) - 127 - s - (b - 2 : Nat)) l
  if ok 3 then 3 else if ok 2 then 2 else if ok 1 then 1 else 0

/-- Sixteen values quantized into a block (R66). -/
def mxQuantize (w : MxW) (xs : List Val) : Nat × Flags :=
  let b := mxBits w
  let qmax := 2 ^ (b - 1) - 1
  if xs.any Val.isNan then (255, sigFlags xs)
  else
    let e := mxFindE qmax b xs 254 0
    let σ := fun j => mxSigma qmax b e (xs.drop (4 * j) |>.take 4)
    let codes := (List.range 16).map fun i =>
      let v := xs.getD i (.fin false 0 0 false)
      let q : Int := (e : Int) - 127 - σ (i / 4) - (b - 2 : Nat)
      if v.isInf then (wrap b (if v.neg then -(qmax : Int) else qmax), fOverflow ||| fSat ||| fInexact)
      else
        let (n, inexact) := mxQuot v q
        let (c, sf) := sat (signed v.neg n) (-(qmax : Int)) qmax
        (wrap b c, sf ||| flagIf (inexact || sf != 0) fInexact)
    let bits := codes.foldr (fun c acc => acc * 2 ^ b + c.1) 0
    let fl := codes.foldl (fun acc c => acc ||| c.2) 0
    let sig := σ 0 + 4 * σ 1 + 16 * σ 2 + 64 * σ 3
    (e + 256 * sig + 65536 * bits, fl)

/-! Exact group sums of the matrix engine (R68, R69). -/

/-- One group: the accumulator and the performed products, summed exactly, one RNE rounding. A zero product has the sign of
IEEE arithmetic, for MX elements too (log entry 103). -/
def groupSum (f : FFmt) (acc : Nat) (prods : List (Val × Val)) : Nat × Flags :=
  if prods.isEmpty then (acc, 0)
  else
    let a := f.unpack acc
    let ps := prods.map fun p => (mulVals p.1 p.2, sigFlags [p.1, p.2])
    let fl := ps.foldl (fun x p => x ||| p.1.2 ||| p.2) (sigFlags [a])
    let (s, sf) := sumVals false (a :: ps.map fun p => p.1.1)
    let (r, rf) := roundTo f .rne s
    (r, fl ||| sf ||| rf)

end Sys2Proof.Machine
end

