-- ==== Sys2Proof/Machine/State.lean ====
section
/-! DEFINITION. The state of a PX-880 package as plain data, and the state after reset. Sparse maps (SMap) list only the
entries that differ from their default; every entry's default is named beside the field. -/

namespace Sys2Proof.Machine

/-! Order (R325 to R337). -/

/-- What an agent knows: for each agent, the number of the last event of it that is ordered before the holder. -/
abbrev Clk := List (Nat × Nat)

/-- One write to one byte in that byte's order (R326). -/
structure WEnt where
  /-- Number of the write; all bytes of one unit (R328) carry the same number. -/
  seq : Nat
  val : Byte
  agent : Nat
  path : Nat
  /-- Core of the writer; 512 and above for agents outside the cores. -/
  core : Nat
  /-- Paths for which the write is performed, bit n for path n. -/
  perf : Nat
  /-- Agents that have read this write or a later one (R326, last sentence). -/
  seen : List Nat
  /-- Physical address of the sync object the byte is bound to, for a bound write (R332). -/
  obj : Option Nat
  /-- Releases that published the write: object and release number (R334). -/
  pub : List (Nat × Nat)
  /-- Number of the store whose unit it is: the units of one store share it (R127). -/
  grp : Nat
  /-- What a completion flag's store hands to whoever reads it (R348). -/
  tok : Clk
  /-- Written by a bank ALU: no write goes under it that its operation did not find there (R229, R329). -/
  atom : Bool
  deriving DecidableEq, Repr

/-- The writes to one byte that some path may still not see, newest first, over the value every path sees, with what a
completion flag's store left there hands on (R348). -/
structure Hist where
  base : Byte
  wr : List WEnt
  tok : Clk
  deriving DecidableEq, Repr

/-- Older values of a register that other streams read without order (R60, R99, R133, R166, R225): the agent and
number of the write and the value it replaced, newest first. -/
abbrev RegHist := List (Nat × Nat × Nat)

/-! Streams. -/

/-- The streams' own sequencing state. -/
structure Level where
  count : Nat
  idx : Nat
  body : Word
  len : Nat
  deriving DecidableEq, Repr

/-- One entry of a queue: its image (64 bits in a 64-bit queue), whether its bytes have arrived (R146), what its push
is ordered after (R142), and the signal that its LDQ raises at the arrival (R74) or the counter that its MBSEND names
(R148). -/
structure QEnt where
  img : Image
  ready : Bool
  clk : Clk
  g : Nat
  deriving DecidableEq, Repr

structure StreamSt where
  pc : Word
  started : Bool
  joined : Bool
  /-- Code window: base and size in bytes (R123); none for C. -/
  winBase : Nat
  winSize : Nat
  /-- The word at the PC has passed its wait and blocks in its execution (R75). -/
  issued : Bool
  /-- The count that the blocked word consumed, to be returned at a stop: counter and token (R33). -/
  taken : Option (Nat × Clk)
  /-- Queue entries that the blocked word has popped: queue number and entry (R46). -/
  popped : List (Nat × QEnt)
  /-- The stream's last attempt at its word found it blocked (R379). -/
  blocked : Bool
  /-- Target of STAMP for the next word: frame and cycle (R317). -/
  stamp : Option (Nat × Nat)
  /-- Sequencer, innermost loop first (R167); A and V. -/
  seqr : List Level
  /-- RPT in progress at this PC, its own wait taken: repetitions done, and the count of its word (R171). -/
  rpt : Option (Nat × Nat)
  /-- A BWAIT of V that has popped q7: the address it waits on (R235). On C: its TLBINV waits for boundaries (R380). -/
  bwaitAt : Option Word
  /-- What the stream's commands see by its fences (R330): engine path, mask of the paths whose writes it sees, and
  the knowledge of the fence. -/
  vis : List (Nat × Nat × Clk)
  /-- The counter at which the stream waits for its word's count, 0 for none (R77). -/
  waitOn : Nat
  /-- Fetch buffer: up to 16 words, by address and value, and how many more fetches it serves (R127). -/
  fetched : List (Nat × Nat)
  fetchLeft : Nat
  /-- The words of the stream's last fetch, by address: a word that has issued stays what it was (R127). -/
  code : List (Nat × Nat)
  /-- Number of the last event before the word's issue: it reads the registers of other streams as they stood then (R133,
  R166, R177, R225). -/
  issuedAt : Nat
  deriving DecidableEq, Repr

/-- A generator (R313). -/
structure Gen where
  x : BitVec 128
  c : BitVec 128
  x0 : BitVec 128
  deriving DecidableEq, Repr

/-! Coordinate maps (R198 to R205). -/

/-- An affine map (R199): vectors of four by index dimension; m holds M[d][k] at 4d + k. -/
structure AffMap where
  rank : Nat
  skew : Int
  ext : List Nat
  org : List Int
  m : List Int
  lam : List Int
  lb : Int
  deriving DecidableEq, Repr

inductive VMap where
  | affine (a : AffMap)
  | explicit (slot : Nat) (parent : AffMap)
  | opaque (n : Nat)
  deriving DecidableEq, Repr

/-- A map slot: parent indices (16 bits a position) and void bits (R204). -/
structure MapSlot where
  idx : BitVec 8192
  void : BitVec 512
  deriving DecidableEq, Repr

/-! Engines. -/

/-- Rendezvous register (R79). -/
structure Rdv where
  fired : Bool
  pend : Nat
  gen : Nat
  clk : Clk
  /-- Engines that the latest MARK named (R149). -/
  set_ : Nat
  deriving DecidableEq, Repr

/-- What an entry of an engine's queue is. -/
inductive CmdKind where
  /-- A command placed by GO (R240). -/
  | go
  /-- A marker of Jn with its generation (R79). -/
  | marker (j gen : Nat)
  /-- A draw of SMP (R409): kind of draw, d, slot and n - 1. -/
  | draw (k : DrawKind)
  /-- A STOPSET (R411). -/
  | stopset
  /-- A held reply, to be pushed when its queue has space (R422). -/
  | reply (e : QEnt)
  deriving DecidableEq, Repr

/-- A command or marker in an engine's queue. -/
structure Cmd where
  kind : CmdKind
  w0 : Word
  w1 : Word
  w2 : Word
  w3 : Word
  /-- Address tag (R240). -/
  tag : Word
  /-- Engine 0 to 4, and 5 for a marker of the matrix engine. -/
  eng : Nat
  /-- Issuing stream, 0 C or 1 A. -/
  st : Nat
  core : Nat
  /-- The command's agent number in the order relation. -/
  id : Nat
  /-- Physical barrier address and the phase kept with the command (R228). -/
  bar : Option (Nat × Nat)
  /-- A barrier that could not be resolved at a re-placement: code, why-field of XFSTAT and address (R422). -/
  barFault : Option (Nat × Nat × Word)
  /-- What the GO was ordered after, and what the fences of its stream made visible to the engine's path. -/
  clk : Clk
  vis : List (Nat × Clk)
  /-- Placed again from a held record (R422). -/
  again : Bool
  /-- Of a sampler command: the generator and SRTAG.rtag as they stood at GO (R412). -/
  key : Option (Gen × Nat)
  deriving DecidableEq, Repr

/-- A started command with its progress. -/
structure Run where
  cmd : Cmd
  /-- Beats or elements done. -/
  pos : Nat
  /-- Bytes landed and counted at the barrier (R228). -/
  landed : Nat
  /-- Engine results in progress: counts, selected entries. -/
  acc : List Nat
  flags : BitVec 7
  /-- The last beat has landed and the reply waits for space (R144). -/
  reply : Option QEnt
  deriving DecidableEq, Repr

/-- A held record (R422): kind 0 cancelled, 1 reply, 2 marker. -/
structure Held where
  kind : Nat
  cmd : Cmd
  status : Word
  deriving DecidableEq, Repr

/-- Replay state of C or A (R420): the checkpoint and the list. -/
structure Replay where
  /-- Checkpoint: S registers, staging words and address. -/
  regs : SMap Word
  staging : SMap Word
  addr : Word
  /-- One skip bit for each entry, oldest first, with the command's number. -/
  list : List (Bool × Nat)
  /-- In replay: the index of the next list entry. -/
  at_ : Option Nat
  deriving DecidableEq, Repr

/-- One entry of a TLB (R374). -/
structure TlbEnt where
  va : Nat
  size : Nat
  pa : Nat
  asid : Nat
  g : Bool
  r : Bool
  w : Bool
  x : Bool
  u : Bool
  d : Bool
  ns : Bool
  deriving DecidableEq, Repr

/-- One entry of a coordinate look-aside buffer (R388): descriptor and tile to the block's address, and its bytes. -/
structure ClbEnt where
  desc : Nat
  tile : Nat
  asid : Nat
  addr : Nat
  size : Nat
  /-- Physical pieces, address and size, that V's stores through the entry have gone to (R391). -/
  frames : List (Nat × Nat)
  deriving DecidableEq, Repr

/-- A removal of TLB entries that waits for the cohort's boundary (R380): the core whose TLBINV makes it, its sub-form
(0 va, 1 asid, 2 all) and operands. -/
structure TlbDue where
  by_ : Nat
  sub : Nat
  va : Nat
  asid : Nat
  deriving DecidableEq, Repr

/-- Sampler slot (R404). -/
structure Slot where
  pos : Nat
  last : Nat
  st : Nat
  ids : List Nat
  deriving DecidableEq, Repr

/-- Registers of the HTREE unit (R318). -/
structure HTree where
  region : Nat
  pages : Nat
  interval : Nat
  area : Nat
  epoch : Nat
  /-- Frame number of the snapshot whose update is not written yet, and its bytes as page hashes. -/
  pending : Option (Nat × List (List Byte))
  /-- Physical address of each page of the region, then of the area (R318). -/
  xlat : List Nat
  stopping : Bool
  deriving DecidableEq, Repr

/-- A buffered store of frame mode (R310): writer index, physical address, byte. -/
structure BufSt where
  writer : Nat
  pa : Nat
  val : Byte
  deriving DecidableEq, Repr

/-- An AMO or CAS held in a bank ALU (R232): the core and stream whose word it is, and the addresses it has checked. -/
structure HeldAtomic where
  core : Nat
  st : Stream
  instr : Instr
  va : Nat
  pa : Nat
  deriving DecidableEq, Repr

/-- An allocation that a VSTC has requested in frame mode (R389). -/
structure HeldAlloc where
  stream : Nat
  desc : Nat
  entryVa : Nat
  entry : Nat
  deriving DecidableEq, Repr

/-- One append of a speculative iteration (R402). -/
structure SpApp where
  region : Nat
  size : Nat
  data : Word
  deriving DecidableEq, Repr

/-- The speculative state of a core (R393 to R400). -/
structure Spec where
  /-- 0 none, 1 lead between runs, 2 member waiting in spend.srv, 3 running an iteration, 4 running the guess, 5 SPBEGIN has
  issued and waits for the window's cores (R393). -/
  role : Nat
  lead : Nat
  /-- Position of this core's iteration in the window. -/
  pos : Nat
  /-- The iteration has requested a stop; has ended; has ended by a fault. -/
  stop : Bool
  ended : Bool
  bad : Bool
  /-- The lead's loop: address and words of the control block, iterations committed, guesses made and iterations handed
  out in this round. -/
  cbVa : Nat
  cb : List Nat
  done : Nat
  guessed : Nat
  handed : Nat
  /-- The true carry words of the round. -/
  carry : List Nat
  /-- Buffered bytes of the iteration, oldest first, by physical address; and its appends. -/
  buf : List (Nat × Byte)
  app : List SpApp
  /-- Number of the last command at the dispatch: those of the iteration come after it. -/
  cmdLow : Nat
  /-- Generators and flags of C, A, V and of C, V, M at the dispatch. -/
  gens : List Gen
  flags : List Word
  /-- The SPBEGIN or spend.srv word: its address, its G, its destination, and the count it consumed. -/
  pc : Word
  g : Nat
  d : Nat
  tok : Option (Nat × Clk)
  deriving DecidableEq, Repr

/-! Errors (R441 to R445). -/

/-- An error log (R443). -/
structure ELog where
  kind : Nat
  addr : Nat
  count : Nat
  syn : BitVec 8
  ctx : Nat
  frame : Nat
  deriving DecidableEq, Repr

/-- An MDRAIN that waits for the next frame with part of its stores made (R310): the pieces left, by virtual and physical
address, and the flags and heaps that it leaves. -/
structure DrainSt where
  rest : List (Nat × Nat × List Byte)
  flags : BitVec 7
  heap : SMap (List (Nat × Nat))
  deriving DecidableEq, Repr

/-- What a core does (R417, R424). -/
inductive CoreSt where
  | idle
  /-- Placed by the dispatcher, its job not yet started (R71, R298). -/
  | placed
  | running
  /-- In the halted-fault state (R424). -/
  | dead
  /-- Stopped by HALT, its started commands running on (R87). -/
  | halting
  deriving DecidableEq, Repr

/-- A fault that a word or command raises: code, address, status, rq with path and tag for a command. -/
structure FaultInfo where
  code : Nat
  addr : Word
  stat : Word
  path : Nat
  stream : Nat
  tag : Word
  /-- XFSTAT to record, for a translation fault (R369). -/
  xf : Option Word
  /-- The failing command, which is held (R432). -/
  cmd : Option Cmd
  /-- The storage word whose error the stop logs (R443). -/
  ecc : Option Nat
  deriving DecidableEq, Repr

/-- A stop that waits: for V to block (R379), for a quantum boundary (R311), or for M's retirement point (R425). -/
structure PendingStop where
  fault : Option FaultInfo
  kind : Nat
  th : Bool
  /-- Cycles left of the 2^16 of R379; none where the stop waits for something else. -/
  left : Option Nat
  /-- A HALT with this code waits for the boundary (R87, R417). -/
  halt : Option Nat
  deriving DecidableEq, Repr

/-- A core. -/
structure Core where
  st : CoreSt
  /-- C's current mode: supervisor (R71, R424). -/
  sup : Bool
  /-- The mode the job started in, in which A, V, M and commands access memory (R71). -/
  jobSup : Bool
  /-- World of the core's job: secure (R448). -/
  sec : Bool
  /-- Graph slot and node of the job; and the serial number of the graph whose bytes the core's banks hold (R220). -/
  slot : Nat
  node : Nat
  owner : Nat
  sC : StreamSt
  sA : StreamSt
  sV : StreamSt
  sM : StreamSt
  /-- S registers of C and A (R90), default 0. -/
  regC : SMap Word
  regA : SMap Word
  /-- Shadow bank of S56 to S63 (R253) and trap bank of S48 to S63 (R424), default 0. -/
  shadow : SMap Word
  trapBank : SMap Word
  /-- Counters c1 to c63 (R70), default 0, and the tokens of their counts, oldest first. -/
  cnt : SMap Nat
  cntClk : SMap (List (Nat × Clk))
  /-- Rendezvous registers (R79), default fired. -/
  rdv : SMap Rdv
  /-- Queues q0 to q15, head first, default empty (R140). -/
  q : SMap (List QEnt)
  /-- Command queues of engines 0 to 4 and the matrix engine's markers at 5, head first, default empty. -/
  eq : SMap (List Cmd)
  /-- Started commands of engines 0, 1 and 4, and of the core at engines 2 and 3, default none. -/
  run : SMap (Option Run)
  /-- Staging words: 4 * port + k for C, 32 + 4 * port + k for A (R239), default 0. -/
  staging : SMap Word
  /-- Control registers held as they stand, by their numbers (R96), default 0; COHORT.size is 1 at reset (R98). -/
  cr : SMap Word
  /-- Interrupting tag of each engine (R252), default 0. -/
  uiTag : SMap Word
  genC : Gen
  genA : Gen
  genV : Gen
  /-- Words of C fetched in this job: virtual address and word (R93). -/
  icache : List (Nat × Nat)
  /-- Constant bank (R131), default 0. -/
  k : SMap Word
  /-- V registers (R157), predicates P1 to P15, views as 128-byte images; default 0. -/
  v : SMap Image
  p : SMap Pred
  vw : SMap (BitVec 1024)
  /-- Maps of V registers, default the map of R202; and slots in use (R204). -/
  vmap : SMap VMap
  slots : SMap MapSlot
  /-- Active and shadow planes: field id to value (R259), default 0. -/
  plane : SMap (BitVec 48)
  shadowPlane : SMap (BitVec 48)
  /-- Running nest: indices of the six levels and the body word to issue (R263, R467); and the sequential PC of M while
  the trap record names a body word in its place (R265). -/
  nest : Option (List Nat × Nat)
  nestPc : Option Word
  /-- Weight buffer by 64-byte unit, cells by 128 * row + column, heaps as (value, coordinate) lists (R256, R285). -/
  wbuf : SMap (BitVec 512)
  cell : SMap Word
  heap : SMap (List (Nat × Nat))
  drain : Option DrainSt
  /-- Bank formats BFMT0 to BFMT15 (R222), default 0. -/
  bfmt : SMap Word
  /-- Sampler slots (R404), default free. -/
  smp : SMap Slot
  replayC : Option Replay
  replayA : Option Replay
  held : List Held
  /-- Barriers of the not-started commands that the stop discarded: virtual and physical address (R428). -/
  barNames : List (Nat × Nat)
  /-- The failing command of a fault, for rq (R432). -/
  failing : Option Cmd
  pend : Option PendingStop
  /-- Cycles left of a pre-emption request's horizon; none with no request (R425). -/
  horizon : Option Nat
  /-- Cause of the stop whose handler runs (R424). -/
  lastCause : Nat
  /-- Energy in nanojoules that ENUSED does not count yet (R436). -/
  enRem : Nat
  /-- BSP: phase counts of levels 0 to 3 (default 0) and arrivals (R303). -/
  phase : SMap Nat
  arrived : SMap Bool
  /-- Clocks published at BSP arrivals by level, default none. -/
  bspClk : SMap Clk
  htree : Option HTree
  /-- TLBs: 0 to 3 the streams', 4 copy, 5 index, 8 sampler, most recently used first (R367). -/
  tlb : SMap (List TlbEnt)
  tlbDue : List TlbDue
  clb : List ClbEnt
  /-- Acquires by object, newest first: the event's number and the release number read (R334, R335), default none. -/
  acq : SMap (List (Nat × Nat))
  /-- The newest acquire that an agent has read at, by object and agent: it reads at no older one again (R326). -/
  acqFloor : SMap Nat
  spec : Spec
  /-- Error logs 0 to 19 of the core (R443), default 0. -/
  elog : SMap ELog
  /-- Injection armed by EINJ (R445). -/
  einj : Word
  /-- Clock step of the core's islands (R440). -/
  step : Nat
  /-- Registers' older values seen by streams without order, by register key. -/
  rhist : SMap RegHist
  /-- Raises on the way to the coupled core: counter, count, stream of the raising word, and token (R76). -/
  flight : List (Nat × Nat × Nat × Clk)
  /-- The save area's node resumes here: entry at TVEC + 0x80 (R424). -/
  resume : Bool
  /-- Nests that CGO has started in this job (R80). -/
  nestNo : Nat
  /-- What the retired commands of each engine, and at 5 the nests that have ended, hand to a marker behind them (R80,
  R325), default none. -/
  doneClk : SMap Clk
  /-- The pre-emption request arrived in the handler: its horizon counts from ERET (R423). -/
  horizonHeld : Bool
  /-- Part of a cycle of the islands' clock that has passed, in seventeenths (R3, R440). -/
  cycRem : Nat
  /-- What the interrupt of each engine hands to C (R325), default none. -/
  uiClk : SMap Clk
  /-- Frames of the entries that C's TLBINV or CLBINV has removed, whose buffered stores it waits for: core, physical
  address and size (R378, R391). -/
  invWait : List (Nat × Nat × Nat)
  /-- M's JOIN has taken its wait and waits for C and for nests, which start meanwhile (R263): the count it consumed. -/
  joinWait : Option (Option (Nat × Clk))
  /-- C has retired a JOIN in the handler that runs: it fetches nothing further (R82). -/
  handlerJoined : Bool
  /-- Bytes of the save area that CTXADDR named at job start (R415). -/
  areaSize : Nat
  deriving DecidableEq, Repr

/-! The package. -/

inductive NodeSt where
  | waiting | ready | running | complete | halted | faulted | abandoned | preempted
  deriving DecidableEq, Repr

/-- A node of a live graph (R291, R292), as read at launch. -/
structure Node where
  kind : Nat
  cls : Nat
  fm : Bool
  du : Bool
  cpl : Bool
  f : Nat
  csize : Nat
  est : Nat
  npred : Nat
  deadline : Nat
  depth : Nat
  energy : Nat
  span : Nat
  horizon : Nat
  image : Word
  succ : List Nat
  sync : Word
  ops : List Word
  /-- Job image words 0 to 15 (R292), or the parameter block of an engine node. -/
  job : List Word
  st : NodeSt
  /-- Time in cycles at which it became ready, and at which it was dispatched. -/
  readyAt : Nat
  startAt : Nat
  late : Bool
  therm : Bool
  fault : Nat
  code : Nat
  flags : BitVec 7
  /-- Cores by cohort index; an index whose job has ended is listed in ended. -/
  cores : List Nat
  ended : List Nat
  /-- Indices that have yielded, with the save area (address and bytes) and the energy that each used (R301, R439). -/
  yielded : List (Nat × (Word × Nat) × Nat)
  /-- Budget deducted at admission, none before it (R439); and the energy that its ended core jobs used. -/
  charged : Option Nat
  used : Nat
  /-- The commands of an engine node: those not started are still in the engine's requester queue. -/
  cmds : List Cmd
  deriving DecidableEq, Repr

/-- A live graph (R290). -/
structure Graph where
  /-- The graph's serial number, from 1. -/
  serial : Nat
  nodes : List Node
  statusVa : Word
  doneVa : Word
  /-- Physical address of the done object. -/
  donePa : Nat
  sv : Bool
  sec : Bool
  hirq : Bool
  /-- The launcher's privilege and world, in which the dispatcher acts for the graph (R294). -/
  lsup : Bool
  lsec : Bool
  xroot : Word
  /-- Core whose scratchpad low addresses name; none for a host launch (R294). -/
  ownCore : Option Nat
  launchAt : Nat
  failed : Bool
  fnode : Nat
  /-- A status word or release was passed over (R297). -/
  report : Bool
  deriving DecidableEq, Repr

/-- A selection or reduction engine: the command in progress with its requester (512 the dispatcher), and the
round-robin pointer (R346). -/
structure NearEng where
  busy : Option (Nat × Run)
  ptr : Nat
  tlb : List TlbEnt
  /-- The graph slot and node the busy command serves, for requester 512. -/
  node : Option (Nat × Nat)
  deriving DecidableEq, Repr

/-- A message of a peer that is being received: its id, the object its frames have named, and whether a landing of it
has failed (R458, R460). -/
structure Msg where
  mid : Nat
  rsync : Nat
  bad : Bool
  deriving DecidableEq, Repr

/-- A get of a peer that is being answered (R459): the request's id, the next address, the offset and the bytes left, the
object to release, and the number of the last frame once it is sent. -/
structure Answer where
  mid : Nat
  addr : Nat
  off : Nat
  left : Nat
  rsync : Nat
  last : Option Nat
  deriving DecidableEq, Repr

/-- Fabric sequence space towards a peer (R459). -/
structure Peer where
  sendSeq : Nat
  unacked : List Frame
  expect : Nat
  msgs : List Msg
  answers : List Answer
  /-- The last message id given to the peer. -/
  mid : Nat
  /-- Cycles since the last resend and since the last progress, while frames stand unacknowledged. -/
  quiet : Nat
  stalled : Nat
  /-- Of the frames accepted last, oldest first: number, radd flags, and whether the landing failed (R458). -/
  landed : List (Nat × Nat × Bool)
  deriving DecidableEq, Repr

/-- The fabric node in progress (R460). -/
structure FabNode where
  slot : Nat
  node : Nat
  op : Nat
  fmt : Nat
  peer : Nat
  len : Nat
  laddr : Nat
  raddr : Nat
  rsync : Nat
  mid : Nat
  /-- Bytes in sent frames, and the number of the message's last frame once it is sent. -/
  sent : Nat
  last : Option Nat
  /-- A frame of a get reported a failure at the peer. -/
  bad : Bool
  /-- Cycles since the message last made progress (R459). -/
  quiet : Nat
  deriving DecidableEq, Repr

/-- Who moves: a stream of a core, an event, the passage of cycles, or a TLB ahead of use. -/
inductive Turn where
  | stream (core : Nat) (st : Stream)
  | event (i : Instr)
  | tick (n : Nat)
  /-- A TLB of a core walks for a page ahead of its use (R376): core, TLB, kind of access, address. -/
  | prefetch (core tlb kind va : Nat)
  deriving DecidableEq, Repr

/-- A launch register (R453). -/
structure Launch where
  busy : Bool
  addr : Word
  result : Word
  root : Word
  deriving DecidableEq, Repr

structure State where
  /-- Cores 0 to 511, default `Core.reset`. -/
  cores : SMap Core
  /-- Bytes at physical addresses, addresses strictly rising, no byte equal to 0 listed (log entry 1). -/
  mem : List Host.Cell
  /-- Bytes whose latest write some path may not see yet (R326). -/
  hist : SMap Hist
  /-- Knowledge of each agent, default none (R325). -/
  clk : SMap Clk
  /-- Number of the last write or event. -/
  seq : Nat
  /-- Last number given to a command. -/
  cmdId : Nat
  /-- The model's own counter of free draws (log entry 2). -/
  draws : Nat
  /-- Number of releases of each sync object and the order they carry (R334). -/
  rel : SMap Nat
  relClk : SMap Clk
  /-- Arrivals counted at each barrier and the order they carry (R325). -/
  barClk : SMap Clk
  /-- Storage words (by physical address of the word) with flipped bits, and uncorrectable units (R441, R442). -/
  flips : SMap (List Nat)
  poison : SMap Bool
  /-- Who executes a word (log entry 3). -/
  curCore : Nat
  curStream : Stream
  agenda : List Turn
  rr : Nat
  /-- Cycles of the dispatcher's clock since reset (R296). -/
  now : Nat
  /-- Graph slots 0 to 63 (R289), and the serial number of the last graph launched. -/
  graphs : SMap Graph
  serial : Nat
  /-- The OPER node for which victims are pre-empted: it is placed ahead of every other (R301). -/
  urgent : Option (Nat × Nat)
  /-- What Overcast has given: free save areas by address and bytes (R415), the trap vector of jobs (R416) and the root
  for fabric access (R460). -/
  savePool : List (Word × Nat)
  tvec : Word
  fabRoot : Word
  sel : SMap NearEng
  red : SMap NearEng
  launch : SMap Launch
  hintst : Word
  herr : Word
  callbacks : List (Nat × Nat × Word)
  /-- What has left for the host: interrupt vectors, and the data of its reads. -/
  msi : List Nat
  hostReads : List (List Byte)
  linkUp : Bool
  /-- Island counters and the energy blocks of the four classes (R436, R438, R440). -/
  islands : SMap Nat
  grant : SMap Nat
  ceil : SMap Nat
  pool : SMap Nat
  clkStep : SMap Nat
  /-- Cycles since the last pool interval (R439). -/
  poolAge : Nat
  /-- Sum of the energy counters at the last pool interval, modulo 2^64: what PWR counts from (R463). -/
  energyMark : Nat
  cretire : BitVec 512
  /-- Region table: 64 entries of two words (R448), default 0. -/
  regions : SMap Word
  /-- Error logs of the twelve memory controllers (R443). -/
  elog : SMap ELog
  pkgId : Nat
  peers : SMap Peer
  fabNode : Option FabNode
  fabTlb : List TlbEnt
  frames : List Frame
  /-- SMBus values by command code: PWR and THERM (R463); BOOT; and whether a thermal stop is active. -/
  smbus : SMap Nat
  boot : Nat
  thermStop : Bool
  /-- Frame mode: stores not committed (R310), atomics and allocations held (R232, R389). -/
  bufs : List BufSt
  heldAtomics : List HeldAtomic
  heldAllocs : List HeldAlloc
  /-- Reports sent (R451). -/
  reports : List (List Byte)
  deriving DecidableEq, Repr

/-- The model has no fault of its own: every fault the manual names is taken by the core (R417 to R424). -/
inductive Fault where
  /-- Raised by nobody. Safe. -/
  | none
  deriving DecidableEq, Repr

/-- Why an instruction has no meaning in the model. -/
inductive Refusal where
  /-- Raised by exec's arm of an instruction whose meaning is not written. Safe. -/
  | notModelled (mnemonic : String)
  deriving DecidableEq, Repr

abbrev Res := Host.Outcome State Fault Refusal

/-! Reset. -/

def StreamSt.reset : StreamSt := ⟨0, false, false, 0, 0, false, none, [], false, none, [], none, none, [], 0, [], 0, [], 0⟩

def Gen.reset : Gen := ⟨0, 1, 0⟩

def Spec.reset : Spec :=
  ⟨0, 0, 0, false, false, false, 0, [], 0, 0, 0, [], [], [], 0, [], [], 0, 0, 0, none⟩

/-- The default map (R202). -/
def AffMap.dflt : AffMap :=
  ⟨1, 0, [512, 1, 1, 1], [0, 0, 0, 0], [1, 0, 0, 0, 0, 1, 0, 0, 0, 0, 1, 0, 0, 0, 0, 1], [1, 0, 0, 0], 0⟩

def Rdv.reset : Rdv := ⟨true, 0, 0, [], 0⟩

def Core.reset : Core :=
  { st := .idle, sup := false, jobSup := false, sec := false, slot := 0, node := 0, owner := 0,
    sC := .reset, sA := .reset, sV := .reset, sM := .reset, regC := [], regA := [], shadow := [], trapBank := [],
    cnt := [], cntClk := [], rdv := [], q := [], eq := [], run := [], staging := [], cr := [(0x21, 0x10000)], uiTag := [],
    genC := .reset, genA := .reset, genV := .reset, icache := [], k := [], v := [], p := [], vw := [], vmap := [],
    slots := [], plane := [], shadowPlane := [], nest := none, nestPc := none, wbuf := [], cell := [], heap := [], drain := none,
    bfmt := [], smp := [], replayC := none, replayA := none, held := [], barNames := [],
    failing := none, pend := none, horizon := none, lastCause := 0, enRem := 0, phase := [], arrived := [],
    bspClk := [], htree := none, tlb := [], tlbDue := [], clb := [], acq := [], acqFloor := [], spec := .reset, elog := [], einj := 0,
    step := 0, rhist := [], flight := [], resume := false, nestNo := 0, doneClk := [], horizonHeld := false,
    cycRem := 0, uiClk := [], invWait := [], joinWait := none, handlerJoined := false, areaSize := 0 }

/-- The package right after power-on reset. -/
def State.reset : State :=
  { cores := [], mem := [], hist := [], clk := [], seq := 0, cmdId := 0, draws := 0, rel := [], relClk := [],
    barClk := [], flips := [], poison := [], curCore := 0, curStream := .c, agenda := [], rr := 0, now := 0,
    graphs := [], serial := 0, urgent := none, savePool := [], tvec := 0, fabRoot := 0, sel := [], red := [], launch := [], hintst := 0, herr := 0, callbacks := [],
    msi := [], hostReads := [], linkUp := true, islands := [], grant := [], ceil := [], pool := [], clkStep := [],
    poolAge := 0, energyMark := 0, cretire := 0, regions := [], elog := [], pkgId := 0, peers := [], fabNode := none, fabTlb := [],
    frames := [], smbus := [], boot := 0, thermStop := false, bufs := [], heldAtomics := [],
    heldAllocs := [], reports := [] }

end Sys2Proof.Machine
end

