-- ==== Sys2Proof/Machine/Base.lean ====
section
/-! DEFINITION. Operations over the state: how a word ends, cores and streams, scalar registers, order knowledge,
registers read without order, counters, queues, generators, flags and errors of the storage arrays. -/

namespace Sys2Proof.Machine

/-- How an operation ends other than by going on. -/
inductive Stop where
  /-- The word waits; nothing is written (R75). -/
  | block
  /-- The word waits; what it has done so far is in the state. -/
  | hold (s : State)
  /-- A fault; nothing is written (R26). -/
  | fault (f : FaultInfo)
  /-- A fault after effects that stand. -/
  | faultKeep (f : FaultInfo) (s : State)
  /-- The word has ended without retiring, in this state (HALT, PPOINT, CTXSAVE `yield`). -/
  | ended (s : State)
  deriving Repr

/-- An operation: it answers a value and a state, or a stop. A stop drops the state it had reached (R26). -/
abbrev Op (α : Type) := StateT State (Except Stop) α

/-! Cores and streams. -/

def State.core (s : State) (k : Nat) : Core := SMap.get Core.reset s.cores k

def State.setCore (s : State) (k : Nat) (c : Core) : State := { s with cores := SMap.set Core.reset s.cores k c }

def Core.stream (c : Core) : Stream → StreamSt
  | .c => c.sC | .a => c.sA | .v => c.sV | .m => c.sM

def Core.setStream (c : Core) (st : Stream) (x : StreamSt) : Core :=
  match st with
  | .c => { c with sC := x } | .a => { c with sA := x } | .v => { c with sV := x } | .m => { c with sM := x }

/-- The core that executes. -/
def here : Op Core := do let s ← get; return s.core s.curCore

def putHere (c : Core) : Op Unit := modify fun s => s.setCore s.curCore c

def modHere (f : Core → Core) : Op Unit := modify fun s => s.setCore s.curCore (f (s.core s.curCore))

def modCore (k : Nat) (f : Core → Core) : Op Unit := modify fun s => s.setCore k (f (s.core k))

def coreId : Op Nat := do let s ← get; return s.curCore

def streamOf : Op Stream := do let s ← get; return s.curStream

def thisStream : Op StreamSt := do let s ← get; return (s.core s.curCore).stream s.curStream

def modStream (f : StreamSt → StreamSt) : Op Unit :=
  modify fun s => s.setCore s.curCore ((s.core s.curCore).setStream s.curStream (f ((s.core s.curCore).stream s.curStream)))

/-- The word waits. -/
def block {α : Type} : Op α := throw .block

/-- The word waits, and what it did stands. -/
def hold {α : Type} : Op α := do let s ← get; throw (.hold s)

def guardBlock (c : Bool) : Op Unit := if c then pure () else block

/-! Faults (the codes are those of the fault table). -/

def fcILLOP : Nat := 0x01
def fcPRIV : Nat := 0x02
def fcLITX : Nat := 0x03
def fcLITM : Nat := 0x04
def fcALIGN : Nat := 0x05
def fcXLATE : Nat := 0x06
def fcPROT : Nat := 0x07
def fcBOUNDS : Nat := 0x08
def fcREGALLOT : Nat := 0x09
def fcMAPMIS : Nat := 0x0A
def fcMAPLOST : Nat := 0x0B
def fcQSTATE : Nat := 0x0C
def fcCFGSUM : Nat := 0x0D
def fcGRPBOUND : Nat := 0x0E
def fcAMOSPACE : Nat := 0x0F
def fcVOLALLOC : Nat := 0x10
def fcVOLDESC : Nat := 0x11
def fcSPECVIOL : Nat := 0x12
def fcSPECBUF : Nat := 0x13
def fcSTAMPOV : Nat := 0x14
def fcDOMINC : Nat := 0x15
def fcENERGY : Nat := 0x16
def fcECCU : Nat := 0x17
def fcCTXGEOM : Nat := 0x18
def fcSAMPLE : Nat := 0x19
def fcDIVZERO : Nat := 0x1A
def fcSIGOV : Nat := 0x1B
def fcTRAP : Nat := 0x1C
def fcDBLFAULT : Nat := 0x1D
def fcENGCMD : Nat := 0x1E
def fcHOSTERR : Nat := 0x1F

/-- A fault of a stream's word: its path is the stream's (R324, and the example after R123). -/
def FaultInfo.ofStream (st : Stream) (code : Nat) (addr stat : Word) : FaultInfo :=
  ⟨code, addr, stat, st.num, st.num, 0, none, none, none⟩

/-- Fault(NAME) of the executing stream (R25). -/
def fault {α : Type} (code : Nat) : Op α := do
  let st ← streamOf
  throw (.fault (.ofStream st code 0 0))

def faultAt {α : Type} (code : Nat) (addr stat : Word) : Op α := do
  let st ← streamOf
  throw (.fault (.ofStream st code addr stat))

def guardFault (c : Bool) (code : Nat) : Op Unit := if c then pure () else fault code

/-- The same with a faulting address. -/
def guardAddr (c : Bool) (code addr : Nat) : Op Unit := if c then pure () else faultAt code (BitVec.ofNat 64 addr) 0

/-! Free draws (log entry 2). -/

/-- A free number below n. -/
def draw (n : Nat) : Op Nat := do
  let s ← get
  set { s with draws := s.draws + 1 }
  return Config.pick s.draws % n

/-! Scalar registers (R90, R91). -/

/-- Register r of C or of A as the register file holds it; S0 reads zero. -/
def Core.sreg (c : Core) (st : Stream) (r : Nat) : Word :=
  if r = 0 then 0
  else match st with
    | .a => SMap.get 0 c.regA r
    | _ => SMap.get 0 c.regC r

/-- A write to S0 is discarded. -/
def Core.setSreg (c : Core) (st : Stream) (r : Nat) (v : Word) : Core :=
  if r = 0 then c
  else match st with
    | .a => { c with regA := SMap.set 0 c.regA r v }
    | _ => { c with regC := SMap.set 0 c.regC r v }

def rdS (r : Nat) : Op Word := do
  let s ← get
  return (s.core s.curCore).sreg s.curStream r

def wrS (r : Nat) (v : Word) : Op Unit := do
  let s ← get
  modHere fun c => c.setSreg s.curStream r v

/-- The register pair r, r + 1, low half first (R118, R231). -/
def rdPair (r : Nat) : Op (Word × Word) := do
  let lo ← rdS r
  let hi ← rdS (r + 1)
  return (lo, hi)

def wrPair (r : Nat) (lo hi : Word) : Op Unit := do
  wrS r lo
  wrS (r + 1) hi

/-! Order knowledge (R325). -/

def agentOf (core : Nat) (st : Stream) : Nat := core * 4 + st.num

def hostAgent : Nat := 2048
def dispAgent : Nat := 2049
def fabAgent : Nat := 2050
/-- Agents of commands are numbered from here. -/
def cmdAgent (id : Nat) : Nat := 4096 + id

def thisAgent : Op Nat := do let s ← get; return agentOf s.curCore s.curStream

/-- What an event of the agent hands on: all it knows and all it has done. -/
def State.token (s : State) (agent : Nat) : Clk := joinClk (SMap.get [] s.clk agent) [(agent, s.seq)]

def tokenHere : Op Clk := do let s ← get; return s.token (agentOf s.curCore s.curStream)

/-- The agent learns what a token carries. -/
def State.learn (s : State) (agent : Nat) (c : Clk) : State :=
  { s with clk := SMap.set [] s.clk agent (joinClk (SMap.get [] s.clk agent) c) }

def learnHere (c : Clk) : Op Unit := do let a ← thisAgent; modify fun s => s.learn a c

/-- The number of a new event. -/
def nextSeq : Op Nat := do
  modify fun s => { s with seq := s.seq + 1 }
  let s ← get
  return s.seq

/-! Registers that other streams read without order (R60, R99, R133, R166, R225, R316). -/

def keyK (n : Nat) : Nat := 0x1000 + n
def keyView (vw fl : Nat) : Nat := 0x2000 + 32 * vw + fl
def keyBfmt (b : Nat) : Nat := 0x3000 + b
def keyGen (g : Nat) : Nat := 0x4000 + g

/-- Note that a register of the executing core is about to change from its old value. -/
def noteOld (key old new : Nat) : Op Unit :=
  if old = new then pure ()
  else do
    let a ← thisAgent
    let n ← nextSeq
    modHere fun c => { c with rhist := SMap.set [] c.rhist key ((a, n, old) :: SMap.get [] c.rhist key) }

/-- The values that a reader may see: the current one, and each older one until the replacing write is known. -/
def seenValues (clk : Clk) (agent : Nat) (cur : Nat) : RegHist → List Nat
  | [] => [cur]
  | (a, n, old) :: l => if a = agent || knows clk a n then [cur] else cur :: seenValues clk agent old l

/-- A register's value and history as they stood at event n. -/
def asOf (n cur : Nat) : RegHist → Nat × RegHist
  | [] => (cur, [])
  | (a, m, old) :: l => if n < m then asOf n old l else (cur, (a, m, old) :: l)

/-- One of the values that a reader may see, by a free draw where there are several. -/
def pickSeen (clk : Clk) (agent cur : Nat) (h : RegHist) : Op Nat := do
  let l := seenValues clk agent cur h
  if l.length ≤ 1 then return l.headD cur
  else
    let i ← draw l.length
    return l.getD i cur

/-- A register of core k as agent a may see it. -/
def rdWeakAs (k a key cur : Nat) : Op Nat := do
  let s ← get
  match SMap.get [] (s.core k).rhist key with
  | [] => return cur
  | h => pickSeen (SMap.get [] s.clk a) a cur h

/-- A register of the executing core as a stream may see it: a word that has issued and waits reads it as of its issue. -/
def rdWeak (key cur : Nat) : Op Nat := do
  let s ← get
  let c := s.core s.curCore
  let x := c.stream s.curStream
  let a := agentOf s.curCore s.curStream
  match SMap.get [] c.rhist key with
  | [] => return cur
  | h =>
    let (cur, h) := if x.issued && s.curStream ≠ .c then asOf x.issuedAt cur h else (cur, h)
    pickSeen (SMap.get [] s.clk a) a cur h

/-! Control registers as they stand (R95); CRD and CWR are in Control.lean. -/

def crFPMODE : Nat := 0x000
def crFPFLAGS : Nat := 0x001
def crVFLAGS : Nat := 0x002
def crMFLAGS : Nat := 0x003
def crVMODE : Nat := 0x004
def crTVEC : Nat := 0x010
def crTREC0 : Nat := 0x011
def crTREC1 : Nat := 0x012
def crTREC2 : Nat := 0x013
def crTREC3 : Nat := 0x014
def crUIVEC : Nat := 0x015
def crUIPC : Nat := 0x016
def crUIMASK : Nat := 0x017
def crUISTAT : Nat := 0x018
def crTPCC : Nat := 0x019
def crCTXADDR : Nat := 0x01D
def crTLIVE0 : Nat := 0x01E
def crTLIVE1 : Nat := 0x01F
def crCORE : Nat := 0x020
def crCOHORT : Nat := 0x021
def crDMEM : Nat := 0x022
def crENBUDGET : Nat := 0x030
def crENUSED : Nat := 0x031
def crREGBIND : Nat := 0x040
def crVALLOT : Nat := 0x050
def crBANKALLOT : Nat := 0x051
def crFRAMECFG : Nat := 0x060
def crFRAMECNT : Nat := 0x061
def crSRTAG : Nat := 0x062
def crGSEL : Nat := 0x063
def crGDATA : Nat := 0x064
def crSMPSEL : Nat := 0x078
def crSMPPOS : Nat := 0x079
def crSMPST : Nat := 0x07A
def crXROOT : Nat := 0x080
def crXFSTAT : Nat := 0x081
def crELSEL : Nat := 0x090
def crEINJ : Nat := 0x098

def Core.creg (c : Core) (n : Nat) : Word := SMap.get 0 c.cr n

def Core.setCreg (c : Core) (n : Nat) (v : Word) : Core := { c with cr := SMap.set 0 c.cr n v }

/-- Bits [lo+w-1:lo] of a word. -/
def wfld (x : Word) (lo w : Nat) : Nat := fld x.toNat lo w

/-- A word with bits [lo+w-1:lo] replaced. -/
def setFld (x : Word) (lo w v : Nat) : Word :=
  BitVec.ofNat 64 (x.toNat - wfld x lo w * 2 ^ lo + v % 2 ^ w * 2 ^ lo)

/-- A number's low w bits read as signed. -/
def sx (w n : Nat) : Int := sval w n

/-- x + sext of a w-bit field, mod 2^64. -/
def addOff (x : Word) (w off : Nat) : Word := x + BitVec.ofInt 64 (sx w off)

/-- TREC0.act (R416). -/
def Core.act (c : Core) : Bool := (c.creg crTREC0).getLsbD 29

/-- FRAMECFG.fm: the core runs in frame mode (R307). -/
def Core.frame (c : Core) : Bool := (c.creg crFRAMECFG).getLsbD 0

/-- Frame mode governs the core's effects: its handler runs at a boundary, with the cohort stopped (R311). -/
def Core.framed (c : Core) : Bool := c.frame && !c.act

/-- COHORT.cv and cpl: the coupled core (R98). -/
def Core.coupled (c : Core) : Option Nat :=
  if (c.creg crCOHORT).getLsbD 41 then some (wfld (c.creg crCOHORT) 32 9) else none

/-- DMEM.lv2 of the job (R302). -/
def Core.lv2 (c : Core) : Nat := wfld (c.creg crDMEM) 32 18

/-- The effective rounding mode number of FPMODE or BFMT, 7 behaving as 0 (R40). -/
def rndCode (n : Nat) : Nat := if n = 7 then 0 else n

/-- FPMODE.rnd as the executing stream sees it (R60). -/
def rdFpmode : Op Nat := do
  let c ← here
  let v ← rdWeak crFPMODE (c.creg crFPMODE).toNat
  return rndCode (v % 8)

/-- Flags go to the executing stream's register (R61); A has none. -/
def raiseFlags (f : Flags) : Op Unit := do
  let st ← streamOf
  if f = 0 then pure ()
  else match st with
    | .c => modHere fun c => c.setCreg crFPFLAGS (raise (c.creg crFPFLAGS) f)
    | .v => modHere fun c => c.setCreg crVFLAGS (raise (c.creg crVFLAGS) f)
    | .m => modHere fun c => c.setCreg crMFLAGS (raise (c.creg crMFLAGS) f)
    | .a => pure ()

/-! Generators (R313). -/

def genA : Nat := 0x9C3F27A15E6DB40B61C8F2D93A750E4D

def genStep (x c : Nat) : Nat := (genA * x + c) % 2 ^ 128

def genOut (x : Nat) : Nat :=
  let h := x / 2 ^ 64
  let l := x % 2 ^ 64
  let v := (h ^^^ (l / 2 ^ 23) ^^^ (l * 2 ^ 11)) % 2 ^ 64
  let r := h / 2 ^ 58
  (v / 2 ^ r + v * 2 ^ (64 - r)) % 2 ^ 64

/-- A^n and 1 + A + … + A^(n-1), by the bits of n: the closed form of Jump (R25). -/
def jumpCoef (n : Nat) : Nat → Nat × Nat
  | 0 => (1, 0)
  | fuel + 1 =>
    if n = 0 then (1, 0)
    else
      let (a, s) := jumpCoef (n / 2) fuel
      let a2 := a * a % 2 ^ 128
      let s2 := (s + a * s) % 2 ^ 128
      if n % 2 = 0 then (a2, s2) else (a2 * genA % 2 ^ 128, (s2 + a2) % 2 ^ 128)

def genJump (x c n : Nat) : Nat :=
  let (a, s) := jumpCoef (n % 2 ^ 128) 128
  (a * x + c * s) % 2 ^ 128

/-- Keyed(lin, tag) (R25, R313). -/
def keyed (g : Gen) (lin : Int) (tag : Nat) : Nat :=
  genOut (genJump g.x0.toNat g.c.toNat ((wrap 128 (lin * 2 ^ 20)) ||| tag))

def Core.gen (c : Core) : Stream → Gen
  | .a => c.genA | .v => c.genV | _ => c.genC

def Core.setGen (c : Core) (st : Stream) (g : Gen) : Core :=
  match st with
  | .a => { c with genA := g } | .v => { c with genV := g } | _ => { c with genC := g }

def Gen.nat (g : Gen) : Nat := g.x.toNat + 2 ^ 128 * g.c.toNat + 2 ^ 256 * g.x0.toNat

def Gen.ofNat (n : Nat) : Gen :=
  ⟨BitVec.ofNat 128 n, BitVec.ofNat 128 (n / 2 ^ 128), BitVec.ofNat 128 (n / 2 ^ 256)⟩

/-- The states of the executing stream's generator that it may see, newest first (R316). -/
def genSeen : Op (List Nat) := do
  let s ← get
  let c := s.core s.curCore
  let st := s.curStream
  let a := agentOf s.curCore st
  return seenValues (SMap.get [] s.clk a) a (c.gen st).nat (SMap.get [] c.rhist (keyGen st.num))

/-- Which of them a word uses, whole and for all that it takes from the generator (R316). -/
def genChoice : Op Nat := do
  let l ← genSeen
  if l.length ≤ 1 then return 0 else draw l.length

/-- The generator's state of a choice. -/
def genAt (i : Nat) : Op Gen := do
  if i = 0 then
    let c ← here
    let st ← streamOf
    return c.gen st
  else
    let l ← genSeen
    return Gen.ofNat (l.getD i 0)

/-- A generator one step on. -/
def Gen.stepped (g : Gen) : Gen := { g with x := BitVec.ofNat 128 (genStep g.x.toNat g.c.toNat) }

/-- Its next n outputs, and the generator after them (R319). -/
def Gen.outputs (g : Gen) : Nat → List Nat × Gen
  | 0 => ([], g)
  | n + 1 =>
    let (l, g') := Gen.outputs g.stepped n
    (genOut g.stepped.x.toNat :: l, g')

/-- The next n outputs of the executing stream's generator under a choice (R59, R319). Where it has seen an older state,
that state is stepped: C's write stands (R316). -/
def genTake (i n : Nat) : Op (List Nat) := do
  let g ← genAt i
  let st ← streamOf
  let (l, g) := g.outputs n
  if n = 0 then return l
  else if i = 0 then
    modHere fun c => c.setGen st g
    return l
  else
    let step := fun (h : RegHist) => h.modify (i - 1) fun p => (p.1, p.2.1, g.nat)
    modHere fun c => { c with rhist := SMap.set [] c.rhist (keyGen st.num) (step (SMap.get [] c.rhist (keyGen st.num))) }
    return l

/-- One output of the executing stream's generator. -/
def genNext : Op Nat := do
  let i ← genChoice
  let l ← genTake i 1
  return l.headD 0

/-! Counters (R70, R77). -/

def Core.count (c : Core) (n : Nat) : Nat := SMap.get 0 c.cnt n

/-- Add counts that carry a token. -/
def Core.addCount (c : Core) (n k : Nat) (tok : Clk) : Core :=
  if k = 0 then c
  else { c with cnt := SMap.set 0 c.cnt n (c.count n + k),
                cntClk := SMap.set [] c.cntClk n (SMap.get [] c.cntClk n ++ [(k, tok)]) }

/-- The token of the oldest count, and the tokens after it is taken. -/
def takeTok : List (Nat × Clk) → Clk × List (Nat × Clk)
  | [] => ([], [])
  | (k, t) :: l => if k ≤ 1 then (t, l) else (t, (k - 1, t) :: l)

def Core.takeCount (c : Core) (n : Nat) : Core × Clk :=
  let (t, l) := takeTok (SMap.get [] c.cntClk n)
  ({ c with cnt := SMap.set 0 c.cnt n (c.count n - 1), cntClk := SMap.set [] c.cntClk n l }, t)

/-- A count given back (R33); a counter that raises have filled meanwhile keeps its 65,535 (log entry 91). -/
def Core.returnCount (c : Core) (n : Nat) (t : Clk) : Core :=
  if 65535 ≤ c.count n then c
  else { c with cnt := SMap.set 0 c.cnt n (c.count n + 1),
                cntClk := SMap.set [] c.cntClk n ((1, t) :: SMap.get [] c.cntClk n) }

/-! Queues (R140 to R146). -/

def qDepth (q : Nat) : Nat := if q < 3 then 8 else if q = 11 || q = 13 || q = 14 then 8 else 16

/-- 512-byte queues. -/
def qWide (q : Nat) : Bool := q < 3

def Core.queue (c : Core) (q : Nat) : List QEnt := SMap.get [] c.q q

def Core.setQueue (c : Core) (q : Nat) (l : List QEnt) : Core := { c with q := SMap.set [] c.q q l }

def Core.qHasSpace (c : Core) (q : Nat) : Bool := (c.queue q).length < qDepth q

/-- A queue holds an entry whose bytes have arrived. An entry that LDQ has reserved does not satisfy a non-empty wait
before that: the model's choice, log entry 92. -/
def Core.qReady (c : Core) (q : Nat) : Bool :=
  match c.queue q with
  | e :: _ => e.ready
  | [] => false

/-- Push an entry; the writing side waits for space (R141). -/
def qPush (q : Nat) (img : Image) : Op Unit := do
  let c ← here
  guardBlock (c.qHasSpace q)
  let t ← tokenHere
  modHere fun c => c.setQueue q (c.queue q ++ [⟨img, true, t, 0⟩])

/-- Pop the head entry, or wait (R141); the reader learns what its push was ordered after (R142). -/
def qPop (q : Nat) : Op Image := do
  let c ← here
  match c.queue q with
  | e :: l =>
    if e.ready then
      putHere (c.setQueue q l)
      learnHere e.clk
      return e.img
    else block
  | [] => block

/-- The stream learns what the pushes of the entries that its word has popped are ordered after (R142). -/
def State.learnPopped (s : State) (k : Nat) (st : Stream) : State :=
  ((s.core k).stream st).popped.foldl (fun s p => s.learn (agentOf k st) p.2.clk) s

def learnPopped : Op Unit := do
  let s ← get
  set (s.learnPopped s.curCore s.curStream)

/-- Pop for a word of V or A that may wait afterwards: the entry is kept with the word (R46), and a second pop of the
same word reads the same entry. The word is ordered after the push from its stores and pushes on, not before: it may
read the registers that other streams write as they were at its issue (R133, R166). -/
def qPopOnce (q : Nat) : Op Image := do
  let s ← thisStream
  match s.popped.find? fun p => p.1 == q with
  | some p => return p.2.img
  | none =>
    let c ← here
    match c.queue q with
    | e :: l =>
      if e.ready then
        putHere (c.setQueue q l)
        modStream fun s => { s with popped := s.popped ++ [(q, e)] }
        return e.img
      else hold
    | [] => hold

/-- Push for a word that has popped entries: while it waits, its pops stand. -/
def qPushHold (q : Nat) (imgs : List Image) : Op Unit := do
  let c ← here
  if (c.queue q).length + imgs.length ≤ qDepth q then
    learnPopped
    let t ← tokenHere
    modHere fun c => c.setQueue q (c.queue q ++ imgs.map fun i => ⟨i, true, t, 0⟩)
  else hold

def img64 (w : Word) : Image := w.setWidth 4096
def lo64 (i : Image) : Word := i.setWidth 64

/-! Storage arrays (R441 to R445). A storage word's key: scratchpad words by pa / 8, DRAM lines and the words of a
core's other arrays in ranges of their own. -/

def keyScratch (pa : Nat) : Nat := pa / 8
def keyDram (pa : Nat) : Nat := 2 ^ 60 + pa / 64
/-- Array 16 vector file, 17 accumulators, 18 weight buffer, 19 constant bank; idx in words. -/
def keyArray (core arr idx : Nat) : Nat := 2 ^ 61 + core * 2 ^ 26 + arr * 2 ^ 20 + idx

/-- An error log takes an event (R443, R444). -/
def ELog.event (l : ELog) (unc : Bool) (addr : Nat) (syn : BitVec 8) (ctx frame : Nat) : ELog :=
  let n := min 65535 (l.count + 1)
  if l.kind = 2 && !unc then { l with count := n } else ⟨if unc then 2 else 1, addr, n, syn, ctx, frame⟩

def ELog.zero : ELog := ⟨0, 0, 0, 0, 0, 0⟩

/-- Log number of a physical DRAM address: near DRAM of stack s at 2s and 2s + 1, LPDDR at 8 + s (R443); which of two
controllers or which LPDDR stack holds a line is the model's reading, log entry 21. -/
def ctrlOf (pa : Nat) : Nat :=
  if pa < 0x020000000000 then 2 * ((pa - 0x010000000000) / 0x001000000000) + pa / 64 % 2
  else 8 + pa / 64 % 4

/-- The device sends the interrupt message of a vector (R455); HINTST holds 64 bits, so vectors past 63 have no pending
bit there. -/
def State.interrupt (s : State) (v : Nat) : State :=
  { s with msi := s.msi ++ [v], hintst := if v < 64 then s.hintst ||| BitVec.ofNat 64 (2 ^ v) else s.hintst }

/-- Offset of a DRAM address in its array: in the stack's near DRAM, or in the LPDDR (log entry 21). -/
def dramOffset (pa : Nat) : Nat :=
  if pa < 0x020000000000 then (pa - 0x010000000000) % 0x001000000000 else pa - 0x020000000000

/-- Log an event at a storage key; an uncorrectable one sends vector 65 (R455). The job that runs at the event is that of
the core whose array it is, and for DRAM that of the core `who` that accesses it (R443). -/
def State.logErr (s : State) (key : Nat) (unc : Bool) (who : Option Nat := none) : State :=
  let syn := Config.syndrome s.draws
  let s := { s with draws := s.draws + 1 }
  let s := if unc then s.interrupt 65 else s
  let frameOf := fun (c : Core) => if c.frame then wfld (c.creg crFRAMECNT) 16 48 else 0
  let atCore := fun (s : State) (k arr addr : Nat) =>
    let c := s.core k
    let fr := frameOf c
    s.setCore k { c with elog := SMap.set .zero c.elog arr ((SMap.get .zero c.elog arr).event unc addr syn c.lv2 fr) }
  if key ≥ 2 ^ 61 then
    let r := key - 2 ^ 61
    atCore s (r / 2 ^ 26) (r / 2 ^ 20 % 64) (8 * (r % 2 ^ 20))
  else if key ≥ 2 ^ 60 then
    let pa := (key - 2 ^ 60) * 64
    let m := ctrlOf pa
    let (ctx, fr) := match who with | some k => ((s.core k).lv2, frameOf (s.core k)) | none => (0, 0)
    { s with elog := SMap.set .zero s.elog m ((SMap.get .zero s.elog m).event unc (dramOffset pa) syn ctx fr) }
  else
    let pa := key * 8
    let k := pa / 0x400000
    let o := pa % 0x400000
    atCore s k (o / 0x40000) (o % 0x40000)

/-- A read of a storage word (R441, R442): one flipped bit (in DRAM, one symbol) is corrected and written back, more
make the word poisoned. Answers whether the data can be used. -/
def State.eccRead (s : State) (key : Nat) (who : Option Nat := none) : State × Bool :=
  if SMap.get false s.poison key then (s, false)
  else match SMap.get [] s.flips key with
    | [] => (s, true)
    | b :: bs =>
      let sym := if 2 ^ 60 ≤ key && key < 2 ^ 61 then 8 else 1
      let s := { s with flips := SMap.set [] s.flips key [] }
      if bs.all fun x => x / sym == b / sym then (s.logErr key false who, true)
      else
        let s := s.logErr key true who
        ({ s with poison := SMap.set false s.poison key true }, false)

/-- Read storage words; the first that cannot be used, if any. -/
def eccReadAll (s : State) (keys : List Nat) (who : Option Nat := none) : State × Option Nat :=
  match keys with
  | [] => (s, none)
  | k :: ks =>
    let (s', ok) := s.eccRead k who
    if ok then eccReadAll s' ks who else (s, some k)

/-- A consumer without a core job meets a fault: the word in error is logged and poisoned all the same (R442, R443). -/
def State.noteEcc (s : State) (f : FaultInfo) (who : Option Nat := none) : State :=
  match f.ecc with
  | some key => (s.eccRead key who).1
  | none => s

/-- How an operation of such a consumer stopped. -/
def State.noteStop (s : State) (e : Stop) (who : Option Nat := none) : State :=
  match e with
  | .fault f => s.noteEcc f who
  | _ => s

/-- A write of a whole storage word clears flips and poison (R442), and stores the flips that EINJ has armed (R445). -/
def State.eccWrite (s : State) (key : Nat) : State :=
  let s := { s with flips := SMap.set [] s.flips key [], poison := SMap.set false s.poison key false }
  -- an armed injection of the core that owns the array
  let inj := fun (s : State) (k arr idx : Nat) =>
    let c := s.core k
    if c.einj.getLsbD 63 && wfld c.einj 0 8 == arr && wfld c.einj 32 23 == idx then
      let p := wfld c.einj 55 7
      let bits := if p ≥ 72 then [] else if c.einj.getLsbD 62 then [p, (p + 1) % 72] else [p]
      let s := s.setCore k { c with einj := setFld c.einj 63 1 0 }
      { s with flips := SMap.set [] s.flips key bits }
    else s
  if key ≥ 2 ^ 61 then
    let r := key - 2 ^ 61
    inj s (r / 2 ^ 26) (r / 2 ^ 20 % 64) (r % 2 ^ 20)
  else if key ≥ 2 ^ 60 then s
  else
    let pa := key * 8
    inj s (pa / 0x400000) (pa % 0x400000 / 0x40000) (pa % 0x40000 / 8)

/-- Whether no storage error stands and no injection is armed anywhere near: the common case. -/
def State.eccQuiet (s : State) : Bool := s.flips.isEmpty && s.poison.isEmpty

/-- A word reads entries of its core's arrays (R442): ECCU where one cannot be corrected. -/
def arrayRead (arr idx n : Nat) : Op Unit := do
  let s ← get
  if s.eccQuiet then pure ()
  else
    match eccReadAll s ((List.range n).map fun i => keyArray s.curCore arr (idx + i)) with
    | (s', none) => set s'
    | (_, some k) => throw (.fault { FaultInfo.ofStream s.curStream fcECCU 0 0 with ecc := some k })

/-- A word writes whole entries of its core's arrays. -/
def arrayWrite (arr idx n : Nat) : Op Unit := do
  let s ← get
  if s.eccQuiet && !(s.core s.curCore).einj.getLsbD 63 then pure ()
  else set ((List.range n).foldl (fun s i => s.eccWrite (keyArray s.curCore arr (idx + i))) s)

end Sys2Proof.Machine
end

