-- ==== Sys2Proof/Machine/Ctl.lean ====
section
/-! DEFINITION. Physical tiers (R323) and the package control space: pool registers (R438), CLK (R440), the region
table (R448), CRETIRE (R446), the memory controllers' error logs (R443) and the energy counters (R436). -/

namespace Sys2Proof.Machine

/-- The tiers of R323. -/
inductive Tier where
  | scratch | dram | lpddr | ctl | host
  deriving DecidableEq, Repr

/-- The tier of a physical address; none where R323 names none. -/
def tierOf (pa : Nat) : Option Tier :=
  if pa < 0x80000000 then some .scratch
  else if pa < 0x010000000000 then none
  else if pa < 0x014000000000 then
    if (pa - 0x010000000000) % 0x001000000000 < 0xC00000000 then some .dram else none
  else if pa < 0x020000000000 then none
  else if pa < 0x030000000000 then some .lpddr
  else if pa < 0x040000000000 then none
  else if pa < 0x050000000000 then some .ctl
  else if pa < 0x8000000000000 then none
  else if pa < 0x10000000000000 then some .host
  else none

/-- Physical address of a byte of a core's scratchpad. -/
def scratchPa (core off : Nat) : Nat := core * 0x400000 + off

def ctlPools : Nat := 0x040000001000
def ctlRegions : Nat := 0x040000002000
def ctlCretire : Nat := 0x040000003000
def ctlLogs : Nat := 0x040000004000
def ctlIslands : Nat := 0x040000010000

/-- Number of bits set in an n-bit number. -/
def popCount (x : Nat) : Nat → Nat
  | 0 => 0
  | n + 1 => x % 2 + popCount (x / 2) n

/-- ELOGS of an error log (R443). -/
def ELog.status (l : ELog) : Nat := l.kind * 2 ^ 62 + l.count * 2 ^ 32 + l.syn.toNat

/-- The 8-byte register at an aligned address of the control space; unassigned addresses read 0. -/
def State.ctlRead (s : State) (pa : Nat) : Nat :=
  if ctlPools ≤ pa && pa < ctlPools + 0x80 then
    let c := (pa - ctlPools) / 0x20
    match (pa - ctlPools) % 0x20 / 8 with
    | 0 => SMap.get 0 s.grant c
    | 1 => SMap.get 0 s.ceil c
    | 2 => SMap.get 0 s.pool c
    | _ => SMap.get 0 s.clkStep c
  else if ctlRegions ≤ pa && pa < ctlRegions + 0x400 then
    (SMap.get 0 s.regions ((pa - ctlRegions) / 8)).toNat
  else if ctlCretire ≤ pa && pa < ctlCretire + 64 then
    fld s.cretire.toNat (8 * (pa - ctlCretire)) 64
  else if ctlLogs ≤ pa && pa < ctlLogs + 0x300 then
    let l := SMap.get ELog.zero s.elog ((pa - ctlLogs) / 0x40)
    match (pa - ctlLogs) % 0x40 / 8 with
    | 0 => l.addr | 1 => l.status | 2 => l.ctx | 3 => l.frame | _ => 0
  else if ctlIslands ≤ pa && pa < ctlIslands + 8 * 1028 then
    SMap.get 0 s.islands ((pa - ctlIslands) / 8)
  else 0

/-- Whether an accessor may write the register (R446, R448): the region table needs the secure world, and CRETIRE a
supervisor that is not the host path. -/
def ctlWritable (sup sec host : Bool) (pa : Nat) : Bool :=
  if ctlRegions ≤ pa && pa < ctlRegions + 0x400 then sec
  else if ctlCretire ≤ pa && pa < ctlCretire + 64 then sup && !host
  else true

/-- A whole-register write; fields that are read-only keep their values. -/
def State.ctlWrite (s : State) (pa v : Nat) : State :=
  if ctlPools ≤ pa && pa < ctlPools + 0x80 then
    let c := (pa - ctlPools) / 0x20
    match (pa - ctlPools) % 0x20 / 8 with
    | 0 => { s with grant := SMap.set 0 s.grant c (v % 2 ^ 64) }
    | 1 => { s with ceil := SMap.set 0 s.ceil c (v % 2 ^ 64) }
    | 2 => s
    | _ => { s with clkStep := SMap.set 0 s.clkStep c (v % 8) }
  else if ctlRegions ≤ pa && pa < ctlRegions + 0x400 then
    let r := (pa - ctlRegions) / 8
    let keep : Nat := if r % 2 = 0 then 0xC00FFFFFFFFFF000 else 0x000FFFFFFFFFF000
    { s with regions := SMap.set 0 s.regions r (BitVec.ofNat 64 (v &&& keep)) }
  else if ctlCretire ≤ pa && pa < ctlCretire + 64 then
    { s with cretire := s.cretire ||| BitVec.ofNat 512 ((v % 2 ^ 64) * 2 ^ (8 * (pa - ctlCretire))) }
  else if ctlLogs ≤ pa && pa < ctlLogs + 0x300 then
    if (pa - ctlLogs) % 0x40 / 8 = 1 && fld v 62 2 = 0 then
      { s with elog := SMap.set ELog.zero s.elog ((pa - ctlLogs) / 0x40) ELog.zero }
    else s
  else s

/-- Byte of a control-space register. -/
def State.ctlByte (s : State) (pa : Nat) : Byte :=
  BitVec.ofNat 8 (s.ctlRead (pa / 8 * 8) / 2 ^ (8 * (pa % 8)))

/-- The bytes of a write that fall into the 8-byte register at an aligned address, over what it reads as; CRETIRE is
set-only, so there a byte that is not written sets nothing. -/
def ctlMerge (s : State) (reg : Nat) (bytes : List (Nat × Byte)) : Nat :=
  let base := fun i => if ctlCretire ≤ reg && reg < ctlCretire + 64 then 0 else (s.ctlByte (reg + i)).toNat
  (List.range 8).foldr (fun i acc =>
    (match bytes.find? fun p => p.1 == reg + i with | some p => p.2.toNat | none => base i) + 256 * acc) 0

/-- Write bytes of the control space, one register after the other. -/
def State.ctlWriteBytes (s : State) (bytes : List (Nat × Byte)) : State :=
  let regs := (bytes.map fun p => p.1 / 8 * 8).eraseDups
  regs.foldl (fun s r => s.ctlWrite r (ctlMerge s r bytes)) s

/-! Worlds (R448, R449). -/

/-- Whether the region that covers a physical address is non-secure: the valid entry of lowest number decides. -/
def regionNs (t : SMap Word) (pa : Nat) : Nat → Nat → Bool
  | 0, _ => false
  | fuel + 1, r =>
    let w0 := SMap.get 0 t (2 * r)
    let w1 := SMap.get 0 t (2 * r + 1)
    let f := pa / 4096
    if w0.getLsbD 63 && wfld w0 12 40 ≤ f && f ≤ wfld w1 12 40 then w0.getLsbD 62
    else regionNs t pa fuel (r + 1)

def State.nonSecure (s : State) (pa : Nat) : Bool := regionNs s.regions pa 64 0

/-- A failed host access (R453, R456): the first since the last clear is recorded, and vector 66 sent. -/
def State.hostError (s : State) (kind : Nat) (poi : Bool) (addr : Nat) : State :=
  let s := if wfld s.herr 62 2 = 0 then
      { s with herr := BitVec.ofNat 64 (kind * 2 ^ 62 + (if poi then 2 ^ 61 else 0) + addr % 2 ^ 52) }
    else s
  s.interrupt 66

end Sys2Proof.Machine
end

