-- ==== Sys2Proof/Machine/Order.lean ====
section
/-! DEFINITION. Bytes of memory, the order of the writes to them and what a read may return (R326 to R338). -/

namespace Sys2Proof.Machine

/-- Which TLB an access uses (R367). -/
inductive TlbRef where
  | core (k n : Nat)
  | sel (s : Nat)
  | red (s : Nat)
  | fab
  | none
  deriving DecidableEq, Repr

/-- Who accesses memory, and how (R324). -/
structure Acc where
  path : Nat
  agent : Nat
  /-- The core whose window, bindings and own writes the access has. -/
  own : Option Nat
  /-- BANKALLOT restricts the access (R219). -/
  allot : Bool
  tlb : TlbRef
  sup : Bool
  sec : Bool
  root : Word
  /-- What fences have made visible to a command (R330): masks of paths, each with a fence's knowledge. -/
  vis : List (Nat × Clk)
  /-- Writer index in frame mode (R310). -/
  writer : Option Nat
  /-- Walks read tables in near DRAM only (R380). -/
  fm : Bool := false
  st : Nat
  tag : Word
  cmd : Option Cmd
  /-- Control registers of its core that it sees as they were (R99), by number. -/
  regs : List (Nat × Nat) := []
  /-- Number shared by the units of one store, 0 where each unit has its own. -/
  grp : Nat := 0
  /-- What the store hands to whoever reads it (R348). -/
  tok : Clk := []
  /-- A bank ALU writes (R229). -/
  atom : Bool := false
  deriving DecidableEq, Repr

/-- Mask of all eleven paths. -/
def allPaths : Nat := 0x7FF

/-! Bytes. -/

def State.memByte (s : State) (pa : Nat) : Byte := SMap.get 0 s.mem pa

/-- The canonical form of memory: addresses strictly rising, no listed byte equal to what an unlisted one reads as. -/
def Memory.wf (m : List Host.Cell) : Bool := SMap.wf (0 : Byte) m

/-- Write a byte. -/
def State.setByte (s : State) (pa : Nat) (b : Byte) : State := { s with mem := SMap.set 0 s.mem pa b }

/-- The latest bytes of memory, whatever path has seen them. -/
def State.peek (s : State) (pa : Nat) : Nat → List Byte
  | 0 => []
  | n + 1 => s.memByte pa :: s.peek (pa + 1) n

/-- Bytes as a number, low byte first. -/
def leNat : List Byte → Nat
  | [] => 0
  | b :: l => b.toNat + 256 * leNat l

/-- The n low bytes of a number. -/
def leBytes : Nat → Nat → List Byte
  | 0, _ => []
  | n + 1, v => BitVec.ofNat 8 v :: leBytes n (v / 256)

/-- A write performed for every path at once: it becomes the byte's base. -/
def State.poke (s : State) (pa : Nat) : List Byte → State
  | [] => s
  | b :: l =>
    let s := s.setByte pa b
    { s with hist := s.hist.filter fun p => p.1 ≠ pa }.poke (pa + 1) l

/-! Order of the writes to a byte. -/

/-- What is known of a byte's writes. -/
def State.byteHist (s : State) (pa : Nat) : Hist :=
  match s.hist.find? fun p => p.1 == pa with
  | some p => p.2
  | none => ⟨s.memByte pa, [], []⟩

/-- Drop what no path can read any more: all writes older than one that every path sees. -/
def Hist.norm (h : Hist) : Hist :=
  let young := h.wr.takeWhile fun e => !(e.perf == allPaths && e.obj.isNone)
  match h.wr.find? fun e => e.perf == allPaths && e.obj.isNone with
  | some e => ⟨e.val, young, e.tok⟩
  | none => h

def Hist.none : Hist := ⟨0, [], []⟩

/-- Nothing of the byte is open: every path reads its base, and the read orders nothing. -/
def Hist.closed (h : Hist) : Bool := h.wr.isEmpty && h.tok.isEmpty

/-- A byte's writes, none where nothing is open. -/
def State.setHist (s : State) (pa : Nat) (h : Hist) : State :=
  let h := h.norm
  { s with hist := SMap.set Hist.none s.hist pa (if h.closed then Hist.none else h) }

/-- Change every open write. -/
def State.mapWrites (s : State) (f : WEnt → WEnt) : State :=
  { s with hist := s.hist.filterMap fun p =>
      let h := Hist.norm { p.2 with wr := p.2.wr.map f }
      if h.closed then Option.none else some (p.1, h) }

/-- Every earlier write of an agent is performed for the paths of a mask (R330, R325). -/
def State.performOwn (s : State) (agent mask : Nat) : State :=
  s.mapWrites fun e => if e.agent = agent then { e with perf := e.perf ||| mask } else e

/-- Every write by a path of the mask that is known is performed for the paths of `bits` (R330). -/
def State.performKnown (s : State) (clk : Clk) (mask bits : Nat) : State :=
  s.mapWrites fun e =>
    if mask.testBit e.path && knows clk e.agent e.seq then { e with perf := e.perf ||| bits } else e

/-! Bound regions (R332 to R336). -/

/-- The object that a virtual address is bound to for a core, as the object's virtual address: the operand of lowest
index, else the REGBIND of lowest number. -/
def bindingVa (c : Core) (n : Option Node) (va : Nat) : Option Nat :=
  match n with
  | Option.none => Option.none
  | some n =>
    if n.sync = 0 then Option.none
    else
      let op := fun q =>
        let w := n.ops.getD q 0
        let lg := wfld w 0 6
        let base := wfld w 12 45 * 4096
        if wfld w 62 2 ≠ 0 && base ≤ va && va < base + 2 ^ lg then some (n.sync.toNat + 16 * q) else Option.none
      let rb := fun i =>
        let w := c.creg (crREGBIND + i)
        let lg := wfld w 58 6
        let base := wfld w 13 45 * 4096 / 2 ^ lg * 2 ^ lg
        if 12 ≤ lg && lg ≤ 56 && base ≤ va && va < base + 2 ^ lg then some (n.sync.toNat + 16 * wfld w 0 12)
        else Option.none
      match (List.range 8).findSome? op with
      | some o => some o
      | Option.none => (List.range 16).findSome? rb

/-- The node of a graph. -/
def State.nodeOf (s : State) (slot node : Nat) : Option Node :=
  match s.graphs.find? fun p => p.1 == slot with
  | some p => p.2.nodes[node]?
  | Option.none => Option.none

/-- A translation by the tables as they stand, with no effect: the physical address, where there is one. It names
objects; it is no access. -/
def State.peekWalk (s : State) (va t : Nat) : Nat → Option Nat
  | 0 => Option.none
  | l + 1 =>
    let e := leNat (s.peek (t + 8 * fld va (12 + 9 * l) 9) 8)
    if e % 2 = 0 then Option.none
    else if l = 0 || e.testBit 1 then
      if l ≥ 3 then Option.none
      else
        let sz := 2 ^ (12 + 9 * l) * (if e.testBit 11 then 16 else 1)
        some (fld e 12 40 * 4096 / sz * sz + va % sz)
    else s.peekWalk va (fld e 12 40 * 4096) l

def State.peekXlate (s : State) (own : Option Nat) (root : Word) (va : Nat) : Option Nat :=
  if va < 0x400000 then own.map fun k => scratchPa k va
  else if va ≥ 2 ^ 57 || va < 0x410000 then Option.none
  else s.peekWalk va (wfld root 12 40 * 4096) 5

/-- The core as the access sees its control registers (R99). -/
def Acc.sees (a : Acc) (c : Core) : Core := a.regs.foldl (fun c p => c.setCreg p.1 (BitVec.ofNat 64 p.2)) c

/-- The virtual address lies in the address space of the core's graph (R332): the own window does in any, another
address under the graph's own root. -/
def State.graphSpace (s : State) (a : Acc) (c : Core) (va : Nat) : Bool :=
  va < 0x400000 ||
  match s.graphs.find? fun p => p.1 == c.slot with
  | some p => wfld p.2.xroot 0 52 == wfld a.root 0 52
  | Option.none => false

/-- The number of an object that the tables hold no translation of: past all physical addresses. -/
def objectAlias (root : Word) (va : Nat) : Nat := 2 ^ 52 + (root.toNat * 2 ^ 64 + va)

/-- The object at a virtual address: its physical address, where there is one; a binding takes no translation (R332). -/
def State.objectAt (s : State) (own : Option Nat) (root : Word) (va : Nat) : Nat :=
  (s.peekXlate own root va).getD (objectAlias root va)

/-- The object, by State.objectAt, that an access to va is bound to (R332). -/
def State.boundTo (s : State) (a : Acc) (va : Nat) : Option Nat :=
  match a.own with
  | Option.none => Option.none
  | some k =>
    let c := s.core k
    match bindingVa (a.sees c) (s.nodeOf c.slot c.node) va with
    | Option.none => Option.none
    | some o => if s.graphSpace a c va then some (s.objectAt a.own a.root o) else Option.none

/-- Key of Core.acqFloor. -/
def floorKey (agent obj : Nat) : Nat := agent * 2 ^ 130 + obj

/-- The release number that the access reads at (R334, R335): the newest acquire of its core, or, for an accessor that
is not ordered after it, any since the newest that it knows or has read at. -/
def acqLevel (a : Acc) (k obj : Nat) : Op Nat := do
  let s ← get
  let c := s.core k
  let l := SMap.get [] c.acq obj
  let cAgent := agentOf k .c
  if a.agent = cAgent then return (l.headD (0, 0)).2
  else
    let low := SMap.get 0 c.acqFloor (floorKey a.agent obj)
    let open_ := l.takeWhile fun p => !(knows (SMap.get [] s.clk a.agent) cAgent p.1 || p.1 ≤ low)
    let rest := (l.drop open_.length).headD (0, 0)
    match open_ with
    | [] => return rest.2
    | _ =>
      let i ← draw (open_.length + 1)
      let p := (open_ ++ [rest]).getD i rest
      modCore k fun c => { c with acqFloor := SMap.set 0 c.acqFloor (floorKey a.agent obj) (max low p.1) }
      return p.2

/-! What a read returns (R327, R328, R334). -/

/-- One write as a read of one byte may take it: number, value, and whether the read must not return an older one. -/
structure Cand where
  seq : Nat
  val : Byte
  must : Bool
  deriving DecidableEq, Repr

/-- A read by the access may not return a write older than this one (R326, R327). -/
def Acc.bars (a : Acc) (e : WEnt) : Bool :=
  e.agent == a.agent || e.perf.testBit a.path || e.seen.contains a.agent
    || a.vis.any fun p => p.1.testBit e.path && knows p.2 e.agent e.seq

/-- The writes of a byte that the access may return, newest first. -/
def candidates (a : Acc) (bound : Option (Nat × Nat)) (h : Hist) : List Cand :=
  h.wr.filterMap fun e =>
    let must := a.bars e
    let same := match a.own with | some k => e.core == k | Option.none => false
    match bound with
    | Option.none => some ⟨e.seq, e.val, must⟩
    | some (o, lvl) =>
      if same || e.obj.isNone || e.seen.contains a.agent then some ⟨e.seq, e.val, must⟩
      else if e.pub.any fun p => p.1 == o && p.2 ≤ lvl then some ⟨e.seq, e.val, true⟩
      else Option.none

/-- Whether the write of number n must be seen, given those newer than it that must. -/
def mustSee (rows : List (List Cand)) (forced : List Nat) (n : Nat) : Bool :=
  rows.any fun r =>
    r.any (fun c => c.seq == n) &&
    (r.takeWhile (fun c => c.seq != n) ++ (r.find? fun c => c.seq == n).toList).any fun c =>
      c.must || forced.contains c.seq

/-- Whether every older write of the bytes that write n covers is seen. -/
def olderSeen (rows : List (List Cand)) (seen : List Nat) (n : Nat) : Bool :=
  rows.all fun r =>
    !(r.any fun c => c.seq == n) ||
    ((r.dropWhile fun c => c.seq != n).drop 1).all fun c => seen.contains c.seq

/-- Of the numbers left, one that no row puts after another that is left. -/
def topmost (rows : List (List Cand)) (left : List Nat) : Option Nat :=
  left.find? fun n => rows.all fun r =>
    !(r.any fun c => c.seq == n) || (r.takeWhile fun c => c.seq != n).all fun c => !left.contains c.seq

/-- The numbers of rows, none before one that stands above it in a row. -/
def downFrom (rows : List (List Cand)) : Nat → List Nat → List Nat
  | 0, left => left
  | f + 1, left =>
    match topmost rows left with
    | some n => n :: downFrom rows f (left.erase n)
    | Option.none => left

/-- The numbers in a list of rows, newest first. -/
def seqsDown (rows : List (List Cand)) : List Nat :=
  let l := sortBy (fun x y => decide (y ≤ x)) ((rows.flatMap fun r => r.map Cand.seq).eraseDups)
  downFrom rows l.length l

/-- The writes that the read of one unit sees: all it must, and of the others a free choice in which a write is seen
whole (R328). -/
def chooseSeen (rows : List (List Cand)) : Op (List Nat) := do
  let down := seqsDown rows
  let forced := down.foldl (fun f n => if mustSee rows f n then n :: f else f) []
  down.reverse.foldlM (fun seen n => do
    if forced.contains n then return n :: seen
    else if olderSeen rows seen n then
      let d ← draw 2
      return if d = 0 then n :: seen else seen
    else return seen) []

/-- Note that the agent has read the write (R326). -/
def State.markSeen (s : State) (agent pa n : Nat) : State :=
  match s.hist.find? fun p => p.1 == pa with
  | Option.none => s
  | some p =>
    s.setHist pa { p.2 with wr := p.2.wr.map fun e =>
      if e.seq = n && e.agent ≠ agent && !e.seen.contains agent then { e with seen := agent :: e.seen } else e }

/-- The bytes of a unit, and which write each came from. -/
def pickBytes (base : List Byte) (rows : List (List Cand)) (seen : List Nat) : List (Byte × Option Nat) :=
  (base.zip rows).map fun (b, r) =>
    match r.find? fun c => seen.contains c.seq with
    | some c => (c.val, some c.seq)
    | Option.none => (b, Option.none)

/-- The core runs a speculative iteration: from its dispatch until its `spend.b` retires (R398), or until the round ends
where a fault has ended it (R400). -/
def Core.inIter (c : Core) : Bool := c.spec.role == 3 && (!c.spec.ended || c.spec.bad)

/-- The access belongs to a running speculative iteration of its core (R398, R399); what the dispatcher does for a graph that
the core launched does not (R294, R297). -/
def State.inIter (s : State) (a : Acc) : Bool :=
  match a.own with
  | some k => a.path < 6 && a.agent ≠ dispAgent && (s.core k).inIter
  | Option.none => false

/-- Bytes of an iteration's buffer over others (R398). -/
def overBuf (buf : List (Nat × Byte)) (pa : Nat) (bytes : List Byte) : List Byte :=
  (bytes.zip (List.range bytes.length)).map fun (b, i) =>
    match buf.reverse.find? fun p => p.1 == pa + i with
    | some p => p.2
    | Option.none => b

/-- Slots of 64 bytes that an iteration's buffer takes (R393). -/
def bufSlots (buf : List (Nat × Byte)) : Nat := ((buf.map fun p => p.1 / 64).eraseDups).length

/-- What the write that a read has taken hands on (R348). -/
def pickTok (h : Hist) : Option Nat → Clk
  | some n => ((h.wr.find? fun e => e.seq == n).map WEnt.tok).getD []
  | Option.none => h.tok

/-- A read that returns a completion flag's store is ordered after it (R348). -/
def flagLink (a : Acc) (toks : List Clk) : Op Unit :=
  if toks.all List.isEmpty then pure () else modify fun s => toks.foldl (fun s t => s.learn a.agent t) s

/-- Bytes with those over them that a writer has buffered in frame mode (R310). -/
def State.overFrame (s : State) (w pa : Nat) (bytes : List Byte) : List Byte :=
  if s.bufs.isEmpty then bytes
  else (bytes.zip (List.range bytes.length)).map fun (b, i) =>
    match s.bufs.reverse.find? fun e => e.writer == w && e.pa == pa + i with
    | some e => e.val
    | Option.none => b

/-- Read one unit from memory. In frame mode a read takes memory as committed and its own writer's buffered stores (R310). -/
def readMem (a : Acc) (obj : Option Nat) (pa len : Nat) : Op (List Byte) := do
  let s ← get
  let now := s.peek pa len
  match a.writer, obj with
  | some w, Option.none => return s.overFrame w pa now
  | _, _ =>
    let hs := (List.range len).map fun i => s.byteHist (pa + i)
    if hs.all fun h => h.wr.isEmpty then
      flagLink a (hs.map Hist.tok)
      return now
    else
      let bound ← match obj, a.own with
        | some o, some k => do let l ← acqLevel a k o; pure (some (o, l))
        | _, _ => pure Option.none
      let rows := hs.map (candidates a bound)
      let seen ← chooseSeen rows
      let out := pickBytes (hs.map Hist.base) rows seen
      modify fun s => (out.zip (List.range len)).foldl (fun s (p, i) =>
        match p.2 with | some n => s.markSeen a.agent (pa + i) n | Option.none => s) s
      flagLink a ((hs.zip out).map fun p => pickTok p.1 p.2.2)
      return out.map Prod.fst

/-- Read one unit; an iteration sees its own buffer (R398). -/
def readUnit (a : Acc) (obj : Option Nat) (pa len : Nat) : Op (List Byte) := do
  let b ← readMem a obj pa len
  let s ← get
  if s.inIter a then
    match a.own with
    | some k => return overBuf (s.core k).spec.buf pa b
    | Option.none => return b
  else return b

/-- An 8-byte instruction word as a fetch may take it (R126, R127): of each store to it, all or nothing. `bars` are the
stores that it must take; what a stream has buffered in frame mode its fetches take as its reads do (R310). -/
def readCode (a : Acc) (bars : WEnt → Bool) (pa : Nat) : Op (List Byte) := do
  let s ← get
  let hs := (List.range 8).map fun i => s.byteHist (pa + i)
  let mem ← if hs.all fun h => h.wr.isEmpty then pure (s.peek pa 8)
    else do
      let rows := hs.map fun h => h.wr.map fun e => Cand.mk e.grp e.val (bars e)
      let seen ← chooseSeen rows
      pure ((pickBytes (hs.map Hist.base) rows seen).map Prod.fst)
  let s ← get
  let mem := match a.writer with | some w => s.overFrame w pa mem | Option.none => mem
  match s.inIter a, a.own with
  | true, some k => return overBuf (s.core k).spec.buf pa mem
  | _, _ => return mem

/-- The entry that a write of the access makes in a byte's order. -/
def Acc.entry (a : Acc) (obj : Option Nat) (n : Nat) (b : Byte) : WEnt :=
  ⟨n, b, a.agent, a.path, a.own.getD 512, 2 ^ a.path, [], obj, [], if a.grp = 0 then n else a.grp, a.tok, a.atom⟩

/-- One write of a unit, as the next event, under the writes whose numbers are listed. -/
def State.placeUnit (s : State) (a : Acc) (obj : Option Nat) (pa : Nat) (bytes : List Byte) (over_ : List Nat) : State :=
  let n := s.seq + 1
  (bytes.zip (List.range bytes.length)).foldl (fun s (b, i) =>
    let h := s.byteHist (pa + i)
    let up := h.wr.takeWhile fun e => over_.contains e.seq
    let s := if up.isEmpty then s.setByte (pa + i) b else s
    s.setHist (pa + i) { h with wr := up ++ a.entry obj n b :: h.wr.drop up.length }) { s with seq := n }

/-- One write of a unit, as the next event and the newest write of its bytes. -/
def State.putUnit (s : State) (a : Acc) (obj : Option Nat) (pa : Nat) (bytes : List Byte) : State :=
  s.placeUnit a obj pa bytes []

/-- The writes to the bytes at pa that race with one by the agent, newest first, as far as nothing ordered before it
stands among them, and no write of a bank ALU, under which nothing goes (R229, R337). -/
def State.rivals (s : State) (agent pa len : Nat) : List Nat :=
  let ws := (List.range len).map fun i => (s.byteHist (pa + i)).wr
  let free := fun n => ws.all fun l => l.all fun e =>
    e.seq ≠ n || (e.agent ≠ agent && !e.atom && !knows (SMap.get [] s.clk agent) e.agent e.seq)
  (seqsDown (ws.map fun l => l.map fun e => Cand.mk e.seq e.val false)).takeWhile free

/-- Write one unit: one write in the order of each of its bytes, performed for the writer's own path (R74). In a
speculative iteration it goes to the iteration's buffer, in frame mode to the writer's. -/
def writeUnit (a : Acc) (obj : Option Nat) (pa : Nat) (bytes : List Byte) : Op Unit := do
  let s ← get
  let at_ := (bytes.zip (List.range bytes.length)).map fun (b, i) => (pa + i, b)
  match s.inIter a, a.own with
  | true, some k =>
    let buf := (s.core k).spec.buf ++ at_
    if bufSlots buf > 3584 then
      throw (.fault ⟨fcSPECBUF, BitVec.ofNat 64 pa, BitVec.ofNat 64 3584, a.path, a.st, a.tag, Option.none, a.cmd, Option.none⟩)
    else modCore k fun c => { c with spec := { c.spec with buf } }
  | _, _ =>
    match a.writer, obj with
    | some w, Option.none => set { s with bufs := s.bufs ++ at_.map fun (p : Nat × Byte) => BufSt.mk w p.1 p.2 }
    | _, _ => set (s.putUnit a obj pa bytes)

/-- A plain store of one unit: where it is not buffered it takes any place among the writes that race with it (R337). -/
def storeUnit (a : Acc) (obj : Option Nat) (pa : Nat) (bytes : List Byte) : Op Unit := do
  let s ← get
  if (a.writer.isSome && obj.isNone) || s.inIter a then writeUnit a obj pa bytes
  else
    match s.rivals a.agent pa bytes.length with
    | [] => writeUnit a obj pa bytes
    | l =>
      let i ← draw (l.length + 1)
      modify fun s => s.placeUnit a obj pa bytes (l.take i)

/-- The units of an access to len bytes at pa (R328): one unit of a given size, or each aligned 4-byte unit that is
covered wholly and single bytes. -/
def unitsOf (pa : Nat) : Nat → List (Nat × Nat)
  | 0 => []
  | 1 => [(pa, 1)]
  | 2 => [(pa, 1), (pa + 1, 1)]
  | 3 => [(pa, 1), (pa + 1, 1), (pa + 2, 1)]
  | n + 4 => if pa % 4 = 0 then (pa, 4) :: unitsOf (pa + 4) n else (pa, 1) :: unitsOf (pa + 1) (n + 3)

def units (one : Bool) (pa len : Nat) : List (Nat × Nat) := if one then [(pa, len)] else unitsOf pa len

end Sys2Proof.Machine
end

