-- ==== Sys2Proof/Machine/Memory.lean ====
section
/-! DEFINITION. Translation (R322, R367 to R380), world and bank checks (R219, R449), and reads and writes of memory
through the tiers. -/

namespace Sys2Proof.Machine

/-- Kinds of access, numbered as XFSTAT.kind (R369). -/
inductive Kind where
  | read | write | rmw | fetch | dirty
  deriving DecidableEq, Repr

def Kind.num : Kind → Nat
  | .read => 0 | .write => 1 | .rmw => 2 | .fetch => 3 | .dirty => 4

/-- The access writes its page (R375). -/
def Kind.writes : Kind → Bool
  | .write | .rmw | .dirty => true
  | _ => false

/-- XFSTAT (R369). -/
def xfstat (lvl kind why : Nat) : Word := BitVec.ofNat 64 (lvl * 2 ^ 13 + kind * 2 ^ 10 + why)

/-- A fault of an access. -/
def Acc.info (a : Acc) (code va : Nat) (xf : Option Word) : FaultInfo :=
  ⟨code, BitVec.ofNat 64 va, 0, a.path, a.st, a.tag, xf, a.cmd, none⟩

def accFault {α : Type} (a : Acc) (code va : Nat) : Op α := throw (.fault (a.info code va none))

/-- XFSTAT.kind of a fault in reading a table (R369). -/
def tableKind : Nat := 5

def xlFault {α : Type} (a : Acc) (code va lvl kind why : Nat) : Op α :=
  throw (.fault (a.info code va (some (xfstat lvl kind why))))

/-! TLBs (R367, R374). -/

def State.tlbGet (s : State) : TlbRef → List TlbEnt
  | .core k n => SMap.get [] (s.core k).tlb n
  | .sel x => (SMap.get ⟨none, 0, [], none⟩ s.sel x).tlb
  | .red x => (SMap.get ⟨none, 0, [], none⟩ s.red x).tlb
  | .fab => s.fabTlb
  | .none => []

def NearEng.reset : NearEng := ⟨none, 0, [], none⟩

def State.tlbSet (s : State) (r : TlbRef) (l : List TlbEnt) : State :=
  match r with
  | .core k n => let c := s.core k; s.setCore k { c with tlb := SMap.set [] c.tlb n l }
  | .sel x => { s with sel := SMap.set .reset s.sel x { SMap.get .reset s.sel x with tlb := l } }
  | .red x => { s with red := SMap.set .reset s.red x { SMap.get .reset s.red x with tlb := l } }
  | .fab => { s with fabTlb := l }
  | .none => s

/-- Entries a TLB holds: C's two levels of 64 and 1,024 together, 32 elsewhere (R367). -/
def tlbSize : TlbRef → Nat
  | .core _ 0 => 1088
  | .none => 0
  | _ => 32

/-- The level of the leaf that filled an entry, by its size (R370). -/
def TlbEnt.level (e : TlbEnt) : Nat := if e.size < 2 ^ 21 then 0 else if e.size < 2 ^ 30 then 1 else 2

def TlbEnt.covers (e : TlbEnt) (asid va : Nat) : Bool :=
  e.va ≤ va && va < e.va + e.size && (e.g || e.asid == asid)

/-- Add an entry as the most recently used; an entry for the same page and address space is replaced. -/
def tlbFill (n : Nat) (l : List TlbEnt) (e : TlbEnt) : List TlbEnt :=
  (e :: l.filter fun x => !(x.va == e.va && x.size == e.size && x.g == e.g && x.asid == e.asid)).take n

/-! Checks (R372, R449). -/

/-- The first check of R372 that a leaf fails: fault code and why. -/
def leafCheck (s : State) (a : Acc) (kind : Kind) (e : TlbEnt) (pa : Nat) : Option (Nat × Nat) :=
  let need := match kind with
    | .read => e.r | .write => e.w | .rmw => e.r && e.w | .fetch => e.x | .dirty => e.w
  if !need then some (fcPROT, 3)
  else if !a.sup && !e.u then some (fcPROT, 4)
  else if !a.sec && !(e.ns && s.nonSecure pa) then some (fcPROT, 5)
  else match tierOf pa with
    | none => some (fcPROT, 6)
    | some .ctl => if a.sup then none else some (fcPROT, 4)
    | _ => none

/-- Bank 15 while a Virga loop runs: only the carry blocks, and in a guess run the guesses (R393). -/
def specBank (sp : Spec) (off : Nat) : Bool :=
  sp.role = 0 || off < 0x3C0000 || off < 0x3C0100 || (sp.role = 4 && off < 0x3C1000)

/-- The bank that holds a physical address must be granted, where it is one of the access's own core (R219), and no access
by a program reaches bank 15 of a core in a Virga loop but as R393 says. -/
def bankOk (s : State) (a : Acc) (pa : Nat) : Bool :=
  match a.own, tierOf pa with
  | some k, some .scratch =>
    let j := pa / 0x400000
    let off := pa % 0x400000
    (!(a.allot && j == k) || ((a.sees (s.core k)).creg crBANKALLOT).getLsbD (off / 0x40000))
      && (a.agent == dispAgent || specBank (s.core j).spec off)
  | _, _ => true

/-! Storage words under an access (R442). -/

/-- Keys of the storage words that hold bytes of [pa, pa + len), and whether the access covers each whole. -/
def storageKeys (pa len : Nat) : List (Nat × Bool) :=
  if len = 0 then []
  else match tierOf pa with
    | some .scratch =>
      (List.range ((pa + len - 1) / 8 - pa / 8 + 1)).map fun i =>
        let w := pa / 8 + i
        (keyScratch (8 * w), pa ≤ 8 * w && 8 * w + 8 ≤ pa + len)
    | some .dram | some .lpddr =>
      (List.range ((pa + len - 1) / 64 - pa / 64 + 1)).map fun i =>
        let w := pa / 64 + i
        (keyDram (64 * w), pa ≤ 64 * w && 64 * w + 64 ≤ pa + len)
    | _ => []

def eccFault {α : Type} (a : Acc) (va key : Nat) : Op α :=
  throw (.fault { a.info fcECCU va none with ecc := some key })

/-- The physical address of a storage word of memory. -/
def keyPa (key : Nat) : Nat := if key < 2 ^ 60 then key * 8 else (key - 2 ^ 60) * 64

/-- Whether an injection is armed in the core that owns a scratchpad address. -/
def State.armed (s : State) (pa : Nat) : Bool := (s.core (pa / 0x400000)).einj.getLsbD 63

/-- No storage error stands, and no injection is armed where the bytes at pa lie: the common case. -/
def State.eccIdle (s : State) (pa : Nat) : Bool := s.eccQuiet && !(tierOf pa == some .scratch && s.armed pa)

/-- A read of the storage words of a range by anyone: the first that cannot be used, if any. -/
def State.eccScan (s : State) (pa len : Nat) (who : Option Nat) : State × Option Nat :=
  if s.eccQuiet then (s, none) else eccReadAll s ((storageKeys pa len).map Prod.fst) who

/-- The storage words of a range that a write of the range covers in part are read first (R442). -/
def State.eccPart (s : State) (pa len : Nat) (who : Option Nat) : State × Option Nat :=
  if s.eccQuiet then (s, none) else eccReadAll s (((storageKeys pa len).filter fun k => !k.2).map Prod.fst) who

/-- A write of a range: words covered in part are read first, and nothing is changed where one cannot be used; words
covered whole are cleared; an armed injection stores its flips (R442, R445). -/
def State.eccStore (s : State) (pa len : Nat) (who : Option Nat) : State × Option Nat :=
  if s.eccIdle pa then (s, none)
  else match s.eccPart pa len who with
    | (s', none) => ((storageKeys pa len).foldl (fun s k => s.eccWrite k.1) s', none)
    | (s', some k) => (s', some k)

/-- Bytes of a storage word, or of a register of the control space. -/
def wordBytes (pa : Nat) : Nat :=
  match tierOf pa with
  | some .dram | some .lpddr => 64
  | _ => 8

/-- Of bytes by address, those that go on from address pa in its word of w bytes, at rising addresses. -/
def wordRun (w pa : Nat) : List (Nat × Byte) → List (Nat × Byte)
  | [] => []
  | e :: l => if e.1 = pa + 1 && e.1 / w = pa / w then e :: wordRun w e.1 l else []

/-- Bytes written for every path at once by an agent that has no word to fault (R442): whether they could be. -/
def State.pokeSafe (s : State) (pa : Nat) (bytes : List Byte) (who : Option Nat := none) : State × Bool :=
  match s.eccStore pa bytes.length who with
  | (s', none) => (s'.poke pa bytes, true)
  | (_, some k) => ((s.eccRead k who).1, false)

/-- Read the storage words of a range: ECCU where one cannot be corrected. -/
def eccCheckRead (a : Acc) (va pa len : Nat) : Op Unit := do
  let s ← get
  match s.eccScan pa len a.own with
  | (s', none) => set s'
  | (_, some k) => eccFault a (va + (keyPa k - pa)) k

/-- Write the storage words of a range. -/
def eccCheckWrite (a : Acc) (va pa len : Nat) : Op Unit := do
  let s ← get
  match s.eccStore pa len a.own with
  | (s', none) => set s'
  | (_, some k) => eccFault a (va + (keyPa k - pa)) k

/-- A write that is buffered leaves the storage as it is until it is made: only the words that it covers in part are
read (R397, R310). -/
def eccCheckPart (a : Acc) (va pa len : Nat) : Op Unit := do
  let s ← get
  match s.eccPart pa len a.own with
  | (s', none) => set s'
  | (_, some k) => eccFault a (va + (keyPa k - pa)) k

/-! The walk (R372 to R375). -/

/-- Poisoned table data is ECCU at the access (R372), a fault that translation raises in a table read (R369); its why is
not stated, and is free (log entry 20). -/
def tableEcc (a : Acc) (va lvl pa : Nat) : Op Unit := do
  let s ← get
  match s.eccScan pa 8 a.own with
  | (s', none) => set s'
  | (_, some k) =>
      let xf := xfstat lvl tableKind ((Config.freeWord s.draws).toNat % 16)
      throw (.fault { a.info fcECCU va (some xf) with ecc := some k })

/-- The 8 bytes of a table entry: what the walking path may read, or the latest value when the walk starts again. -/
def entryAt (a : Acc) (fresh : Bool) (pa : Nat) : Op Nat := do
  if fresh then
    let s ← get
    return leNat (s.peek pa 8)
  else
    let b ← readUnit { a with writer := none } none pa 8
    return leNat b

/-- The page-table entry at pa, of a walk at level lvl. -/
def readEntry (a : Acc) (va lvl : Nat) (fresh : Bool) (pa : Nat) : Op Nat := do
  match tierOf pa with
  | some .scratch => if a.fm then xlFault a fcXLATE va lvl tableKind 7 else pure ()
  | some .dram => pure ()
  | some .lpddr => if a.fm then xlFault a fcXLATE va lvl tableKind 7 else pure ()
  | _ => xlFault a fcXLATE va lvl tableKind 7
  tableEcc a va lvl pa
  entryAt a fresh pa

/-- Walk down to the leaf: its level, the entry's physical address and the entry. -/
def walkDown (a : Acc) (va : Nat) (kind : Kind) (fresh : Bool) (t : Nat) : Nat → Op (Nat × Nat × Nat)
  | 0 => xlFault a fcXLATE va 0 kind.num 1
  | l + 1 => do
    let pa := t + 8 * fld va (12 + 9 * l) 9
    let e ← readEntry a va l fresh pa
    if e % 2 = 0 then xlFault a fcXLATE va l kind.num 1
    else if l = 0 || e.testBit 1 then
      if l ≥ 3 then xlFault a fcXLATE va l kind.num 2
      else return (l, pa, e)
    else walkDown a va kind fresh (fld e 12 40 * 4096) l

/-- The TLB entry that a leaf fills. -/
def leafEnt (asid va l e : Nat) : TlbEnt :=
  let sz := 2 ^ (12 + 9 * l) * (if e.testBit 11 then 16 else 1)
  ⟨va / sz * sz, sz, fld e 12 40 * 4096 / sz * sz, asid, e.testBit 10, e.testBit 4, e.testBit 5, e.testBit 6,
    e.testBit 7, e.testBit 9, e.testBit 58⟩

/-- Of a contiguous block, the entry that the walk fills from (R373): its own where the valid entries agree, else any
of them with cont = 1 (log entry 18). -/
def contiguousEntry (a : Acc) (l : Nat) (fresh : Bool) (pa e : Nat) : Op (Nat × Nat) := do
  if !e.testBit 11 then return (pa, e)
  else
    let first := pa / 128 * 128
    let es ← (List.range 16).filterMapM fun i => do
      let p := first + 8 * i
      let s ← get
      match s.eccScan p 8 a.own with
      | (s', none) => do
        set s'
        let x ← entryAt a fresh p
        return some (p, x)
      -- one that cannot be read takes no part
      | (_, some k) => do
        set (s.eccRead k a.own).1
        return none
    -- a and d apart, entries that agree map the block alike
    let alike := fun x : Nat => x ||| 0x300
    let ok := es.filter fun p => p.2 % 2 = 1 && (l = 0 || p.2.testBit 1) && p.2.testBit 11
    if ok.all fun p => alike p.2 == alike e then return (pa, e)
    else
      let s ← get
      set { s with draws := s.draws + 1 }
      return ok.getD (Config.contiguousPick s.draws % ok.length) (pa, e)

/-- One walk: its leaf is checked, marked accessed, and dirty for a write that is made, and fills the TLB. None where the
entry has changed under it and the walk starts again. A prefetch never marks dirty (R376). -/
def walkOnce (a : Acc) (va : Nat) (kind : Kind) (fresh ahead : Bool) : Op (Option Nat) := do
  let (l, pa0, e0) ← walkDown a va kind fresh (wfld a.root 12 40 * 4096) 5
  let (pe, e) ← contiguousEntry a l fresh pa0 e0
  let dirty := kind.writes && !ahead
  let s ← get
  let asid := wfld a.root 0 12
  let ent := leafEnt asid va l e
  let pa := ent.pa + va % ent.size
  match leafCheck s a kind ent pa with
  | some (code, why) => xlFault a code va l kind.num why
  | none =>
    let e' := e ||| 0x100 ||| (if dirty then 0x200 else 0)
    if e' ≠ e && leNat (s.peek pe 8) ≠ e then return none
    else
      if e' ≠ e then modify fun s => (s.pokeSafe pe (leBytes 8 e') a.own).1 else pure ()
      let ent := { ent with d := ent.d || dirty }
      modify fun s => s.tlbSet a.tlb (tlbFill (tlbSize a.tlb) (s.tlbGet a.tlb) ent)
      return some pa

/-- A walk for a page ahead of its use (R376); one that fails ends silently. -/
def State.walkAhead (s : State) (a : Acc) (kind : Kind) (va : Nat) : State :=
  if va < 0x410000 || 2 ^ 57 ≤ va || (s.tlbGet a.tlb).any (·.covers (wfld a.root 0 12) va) then s
  else match (walkOnce a va kind false true).run s with
    | .ok (_, s') => s'
    | .error _ => s

/-- The physical address that an access to va reaches, whatever the link to the host does (R322, R372 to R375). -/
def reach (a : Acc) (kind : Kind) (va : Nat) : Op Nat := do
  let s ← get
  if va ≥ 2 ^ 57 then xlFault a fcXLATE va 7 kind.num 0
  else if va < 0x400000 then
    match a.own with
    | some k =>
      let pa := scratchPa k va
      if bankOk s a pa then return pa else accFault a fcPROT va
    | none => accFault a fcPROT va
  else if va < 0x410000 then accFault a fcPROT va
  else
    let asid := wfld a.root 0 12
    let l := s.tlbGet a.tlb
    let hit := match l.find? fun e => e.covers asid va with
      | some e => if kind.writes && !e.d then none else some e
      | none => none
    let pa ← match hit with
      | some e => do
        let pa := e.pa + va % e.size
        match leafCheck s a kind e pa with
        | some (code, why) => xlFault a code va e.level kind.num why
        | none =>
          set (s.tlbSet a.tlb (e :: l.filter fun x => x != e))
          pure pa
      | none => do
        match ← walkOnce a va kind false false with
        | some pa => pure pa
        | none => do
          match ← walkOnce a va kind true false with
          | some pa => pure pa
          | none => xlFault a fcXLATE va 0 kind.num 1
    let s ← get
    if !bankOk s a pa then accFault a fcPROT va else return pa

/-- An access to host memory: none in a Virga iteration (R399), and HOSTERR where the link cannot complete it (R456). -/
def hostGuard (a : Acc) (va pa : Nat) : Op Unit := do
  let s ← get
  if tierOf pa == some .host && s.inIter a then accFault a fcSPECVIOL va
  else if tierOf pa == some .host && !s.linkUp then accFault a fcHOSTERR va
  else pure ()

/-- The physical address that an access to va reaches. -/
def translate (a : Acc) (kind : Kind) (va : Nat) : Op Nat := do
  let pa ← reach a kind va
  hostGuard a va pa
  return pa

/-! Accesses. -/

/-- A piece of an access within one page. -/
structure Chunk where
  va : Nat
  pa : Nat
  len : Nat
  deriving DecidableEq, Repr

/-- Cut [va, va + len) at page boundaries; virtual addresses wrap at 2^64. -/
def pieces (va : Nat) : Nat → Nat → List (Nat × Nat)
  | 0, _ => []
  | _, 0 => []
  | fuel + 1, len =>
    let n := min len (4096 - va % 4096)
    (va, n) :: pieces ((va + n) % 2 ^ 64) fuel (len - n)

/-- Translate every page of an access before any of it is performed. -/
def chunks (a : Acc) (kind : Kind) (va len : Nat) : Op (List Chunk) :=
  (pieces va (len / 4096 + 2) len).mapM fun p => do
    let pa ← translate a kind p.1
    return ⟨p.1, pa, p.2⟩

def readChunk (a : Acc) (one : Bool) (c : Chunk) : Op (List Byte) := do
  let s ← get
  if tierOf c.pa == some .ctl then
    let over_ := fun (i : Nat) => match a.writer with
      | some w => (s.bufs.reverse.find? fun (e : BufSt) => e.writer == w && e.pa == c.pa + i).map BufSt.val
      | none => none
    let l := (List.range c.len).map fun i => (over_ i).getD (s.ctlByte (c.pa + i))
    match s.inIter a, a.own with
    | true, some k => return overBuf (s.core k).spec.buf c.pa l
    | _, _ => return l
  else
    eccCheckRead a c.va c.pa c.len
    let obj := s.boundTo a c.va
    let l ← (units one c.pa c.len).mapM fun u => readUnit a obj u.1 u.2
    return l.flatten

/-- Read len bytes at a virtual address; `one` makes them one unit. -/
def readBytes (a : Acc) (one : Bool) (va len : Nat) : Op (List Byte) := do
  let cs ← chunks a .read va len
  let l ← cs.mapM (readChunk a one)
  return l.flatten

/-- Read a little-endian number. -/
def readNat (a : Acc) (one : Bool) (va len : Nat) : Op Nat := do
  let b ← readBytes a one va len
  return leNat b

/-- In frame mode a writer buffers at most 64 KiB in one frame (R310). -/
def State.hasRoom (s : State) (a : Acc) (len : Nat) : Bool :=
  match a.writer with
  | none => true
  | some w => s.bufs.countP (fun e => e.writer == w) + len ≤ 65536

/-- A store that would pass the limit waits. -/
def bufferRoom (a : Acc) (len : Nat) : Op Unit := do
  let s ← get
  if s.hasRoom a len then pure () else hold

/-- A store goes to a buffer: an iteration's, or in frame mode its writer's (R310, R398). -/
def State.isBuffered (s : State) (a : Acc) (obj : Option Nat) : Bool := (a.writer.isSome && obj.isNone) || s.inIter a

/-- Write the bytes of a piece. -/
def writeChunk (a : Acc) (one : Bool) (c : Chunk) (bytes : List Byte) : Op Unit := do
  let s ← get
  if tierOf c.pa == some .ctl then
    if ctlWritable a.sup a.sec (a.path == 10) c.pa then
      if a.writer.isSome || s.inIter a then writeUnit a none c.pa bytes
      else modify fun s => s.ctlWriteBytes ((List.range c.len).map (c.pa + ·) |>.zip bytes)
    else accFault a fcPROT c.va
  else
    let obj := s.boundTo a c.va
    if s.isBuffered a obj then eccCheckPart a c.va c.pa c.len else eccCheckWrite a c.va c.pa c.len
    (units one c.pa c.len).forM fun u => storeUnit a obj u.1 ((bytes.drop (u.1 - c.pa)).take u.2)

/-- Write pieces in order, as parts of one store. -/
def writePieces (a : Acc) (one : Bool) : List Chunk → List Byte → Op Unit
  | [], _ => pure ()
  | c :: cs, bytes => do
    writeChunk a one c (bytes.take c.len)
    writePieces a one cs (bytes.drop c.len)

/-- Write the pieces of one store. -/
def writeChunks (a : Acc) (one : Bool) (cs : List Chunk) (bytes : List Byte) : Op Unit := do
  let s ← get
  writePieces { a with grp := s.seq + 1 } one cs bytes

/-- Bytes of pieces that a writer buffers in frame mode: those not bound to an object (R310). -/
def State.toBuffer (s : State) (a : Acc) (cs : List Chunk) : Nat :=
  (cs.map fun c => if (s.boundTo a c.va).isSome then 0 else c.len).sum

/-- Write bytes at a virtual address. -/
def writeBytes (a : Acc) (one : Bool) (va : Nat) (bytes : List Byte) : Op Unit := do
  let cs ← chunks a .write va bytes.length
  let s ← get
  bufferRoom a (s.toBuffer a cs)
  writeChunks a one cs bytes

/-! Bank-ALU operations (R229): they act on the latest bytes of a scratchpad, whatever path has seen them. -/

/-- The object of a bank-ALU operation: aligned, writable and readable, in a scratchpad. -/
def bankTarget (a : Acc) (kind : Kind) (va size : Nat) : Op Nat := do
  if va % size ≠ 0 then accFault a fcALIGN va
  else
    let pa ← reach a kind va
    if tierOf pa == some .scratch then return pa else accFault a fcAMOSPACE va

/-- Read the latest bytes of a scratchpad object, with what the access's own writer has buffered over them (R310); the
agent has then seen the writes it read. -/
def bankRead (a : Acc) (va pa len : Nat) : Op (List Byte) := do
  eccCheckRead a va pa len
  let s ← get
  modify fun s => (List.range len).foldl (fun s i =>
    match (s.byteHist (pa + i)).wr with
    | e :: _ => s.markSeen a.agent (pa + i) e.seq
    | [] => s) s
  flagLink a ((List.range len).map fun i =>
    let h := s.byteHist (pa + i)
    match h.wr with | e :: _ => e.tok | [] => h.tok)
  let b := match a.writer with | some w => s.overFrame w pa (s.peek pa len) | none => s.peek pa len
  match s.inIter a, a.own with
  | true, some k => return overBuf (s.core k).spec.buf pa b
  | _, _ => return b

/-- Write a scratchpad object as one unit. What the access's own writer has buffered there comes before it (R229), and is
part of what it writes. -/
def bankWrite (a : Acc) (va pa : Nat) (bytes : List Byte) : Op Unit := do
  let s ← get
  if s.inIter a then eccCheckPart a va pa bytes.length else eccCheckWrite a va pa bytes.length
  let s ← get
  let obj := s.boundTo a va
  match a.writer with
  | some w => set { s with bufs := s.bufs.filter fun e => !(e.writer == w && pa ≤ e.pa && e.pa < pa + bytes.length) }
  | none => pure ()
  writeUnit { a with writer := none, atom := true } obj pa bytes

/-! Accessors. -/

/-- How a stream of a core accesses memory: C in its own mode, the others in the job's (R71). -/
def Core.acc (c : Core) (k : Nat) (st : Stream) : Acc :=
  { path := st.num, agent := agentOf k st, own := some k, allot := true, tlb := .core k st.num,
    sup := if st = .c then c.sup else c.jobSup, sec := c.sec, root := c.creg crXROOT, vis := [],
    writer := if c.framed then some (agentOf k st) else none, fm := c.frame, st := st.num, tag := 0, cmd := none }

/-- Registers of a core that its accesses read without order (R99): XROOT, BANKALLOT and the bindings. -/
def weakAccRegs : List Nat := crXROOT :: crBANKALLOT :: (List.range 16).map (crREGBIND + ·)

/-- No write of these registers is open: every agent sees them as they stand. -/
def Core.accSettled (c : Core) : Bool := weakAccRegs.all fun n => (SMap.get [] c.rhist n).isEmpty

/-- An access of core k with the registers as its agent may see them (R99, R333, R368). -/
def Acc.weak (a : Acc) (k : Nat) : Op Acc := do
  let s ← get
  let c := s.core k
  if c.accSettled then return a
  else
    let regs ← weakAccRegs.mapM fun n => do
      let v ← rdWeakAs k a.agent n (c.creg n).toNat
      return (n, v)
    let a := { a with regs := regs.filter fun p => p.2 ≠ (c.creg p.1).toNat }
    return { a with root := (a.sees c).creg crXROOT }

/-- The accessor of the executing word. -/
def accHere : Op Acc := do
  let s ← get
  ((s.core s.curCore).acc s.curCore s.curStream).weak s.curCore

/-- Path of an engine (R324): the epilogue's 3 aside, engine e is path e + 4. -/
def enginePath (e : Nat) : Nat := e + 4

/-- How a command of a core's engine accesses memory. -/
def Core.accCmd (c : Core) (cmd : Cmd) : Acc :=
  { path := enginePath cmd.eng, agent := cmdAgent cmd.id, own := some cmd.core, allot := cmd.eng ≠ 2 && cmd.eng ≠ 3,
    tlb := .core cmd.core (4 + cmd.eng), sup := c.jobSup, sec := c.sec, root := c.creg crXROOT,
    vis := cmd.vis, writer := if c.framed then some (2048 + cmd.core * 8 + cmd.eng) else none, fm := c.frame, st := cmd.st,
    tag := cmd.tag, cmd := some cmd }

end Sys2Proof.Machine
end

