-- ==== Sys2Proof/Machine/Index.lean ====
section
/-! DEFINITION. Byte-counting barriers (R227, R228), and the elements of index commands (R247, R248, R250), which a stop
finishes. -/

namespace Sys2Proof.Machine

/-! Barriers (R227, R228). -/

def barExpected (b : List Byte) : Nat := leNat (b.take 6)
def barPhase (b : List Byte) : Nat := leNat ((b.drop 6).take 2)
def barArrived (b : List Byte) : Nat := leNat ((b.drop 8).take 6)

def barBytes (expected phase arrived : Nat) : List Byte :=
  leBytes 6 expected ++ leBytes 2 phase ++ leBytes 6 arrived ++ leBytes 2 0

/-- Change the arrived count of the barrier at pa, if its phase is the one kept; where its words cannot be used it stays
(R442). -/
def State.barrierAdd (s : State) (a : Acc) (pa phase : Nat) (f : Nat → Nat) : State :=
  match s.eccScan pa 16 a.own with
  | (_, some key) => (s.eccRead key a.own).1
  | (s, none) =>
    let b := s.peek pa 16
    if barPhase b ≠ phase then s
    else (s.eccStore (pa + 8) 6 a.own).1.putUnit { a with writer := none } none (pa + 8) (leBytes 6 (f (barArrived b)))

/-- A beat has landed (R228): its bytes arrive at the barrier kept with the command; in an iteration of a Virga loop the
arrival takes a buffer slot (R399). -/
def arrive (a : Acc) (bar : Option (Nat × Nat)) (n : Nat) : Op Unit := do
  match bar with
  | none => pure ()
  | some (pa, phase) =>
    eccCheckRead a pa pa 16
    let s ← get
    let b := match s.inIter a, a.own with
      | true, some k => overBuf (s.core k).spec.buf pa (s.peek pa 16)
      | _, _ => s.peek pa 16
    if barPhase b = phase then
      if s.inIter a then pure () else eccCheckWrite a pa (pa + 8) 6
      writeUnit { a with writer := none } none (pa + 8) (leBytes 6 (min (2 ^ 48 - 1) (barArrived b + n)))
      modify fun s => { s with barClk := SMap.set [] s.barClk pa (joinClk (SMap.get [] s.barClk pa) (s.token a.agent)) }
    else pure ()

/-- The arrivals that a cancelled or failing command has counted are withdrawn (R422). -/
def State.withdraw (s : State) (a : Acc) (bar : Option (Nat × Nat)) (n : Nat) : State :=
  match bar with
  | none => s
  | some (pa, phase) => s.barrierAdd a pa phase fun x => x - n

/-- A fault of an operation carries the status word (R250), where the operation has given it none of its own. -/
def withStat {α : Type} (st : Word) (op : Op α) : Op α := fun s =>
  match op.run s with
  | .error (.fault f) => .error (.fault { f with stat := if f.stat = 0 then st else f.stat })
  | r => r

/-- The fault that a re-placement has kept with its command (R422). -/
def Cmd.kept (m : Cmd) (a : Acc) : Option FaultInfo :=
  m.barFault.map fun p => { a.info p.1 p.2.2.toNat (if p.2.1 = 0 then none else some (BitVec.ofNat 64 p.2.1)) with
    cmd := some m }

/-! Index commands (R247, R248). -/

def Cmd.idxOp (m : Cmd) : Nat := wfld m.w0 62 2
def Cmd.depth (m : Cmd) : Nat := wfld m.w0 60 2
def Cmd.esz (m : Cmd) : Nat := 2 ^ wfld m.w0 56 4
def Cmd.idxN (m : Cmd) : Nat := wfld m.w0 0 32
def Cmd.side (m : Cmd) : Nat := wfld m.w3 0 22
def Cmd.pol (m : Cmd) : Nat := wfld m.w3 58 2

/-- The status word of an index command (R250). -/
def indexStat (m : Cmd) (lvl i : Nat) : Word :=
  BitVec.ofNat 64 (m.idxOp * 2 ^ 62 + lvl * 2 ^ 60 + i % 2 ^ 32)

/-- Base and bound of each level, from the chain block. -/
def readChain (a : Acc) (m : Cmd) : Op (List Nat) := do
  let b ← readBytes a false m.w1.toNat 48
  return (List.range 6).map fun i => leNat ((b.drop (8 * i)).take 8)

/-- Follow the levels from index x: the last index, whether a bound failed, and whether it was clamped. -/
def indexLevels (a : Acc) (m : Cmd) (chain : List Nat) (i : Nat) : Nat → Nat → Nat → Bool → Op (Nat × Bool × Bool)
  | 0, _, x, clamped => return (x, clamped, clamped)
  | fuel + 1, l, x, clamped => do
    let base := chain.getD (2 * (l - 1)) 0
    let bound := chain.getD (2 * (l - 1) + 1) 0
    if x ≥ bound && m.pol = 0 then withStat (indexStat m l i) (accFault a fcBOUNDS 0)
    else if x ≥ bound && (m.pol = 1 || bound = 0) then return (x, true, false)
    else
      let cl := x ≥ bound
      let x := if cl then bound - 1 else x
      if l < m.depth then
        let y ← withStat (indexStat m l i) (readNat a false ((base + 4 * x) % 2 ^ 64) 4)
        indexLevels a m chain i fuel (l + 1) y (clamped || cl)
      else return (x, clamped || cl, clamped || cl)

/-- An element in progress: its index at the last level, whether a bound failed and whether it was clamped, and the bytes
of it that have landed. -/
structure IdxElem where
  y : Nat
  bad : Bool
  clamped : Bool
  off : Nat
  deriving DecidableEq, Repr

def IdxElem.toList (e : IdxElem) : List Nat := [e.y, e.bad.toNat, e.clamped.toNat, e.off]

/-- A started command's oob count, its element in progress (off 0: none), and its chain block. -/
def idxState (acc : List Nat) : Nat × IdxElem × List Nat :=
  match acc with
  | oob :: y :: b :: c :: off :: chain => (oob, ⟨y, b == 1, c == 1, off⟩, chain)
  | _ => (0, ⟨0, false, false, 0⟩, [])

/-- One beat of an element (R242): at most 256 bytes of its destination; an element that is skipped still counts. -/
def idxMove (a : Acc) (m : Cmd) (i : Nat) (x : IdxElem) (chain : List Nat) : Op Nat := do
  let e := (chain.getD (2 * (m.depth - 1)) 0 + m.esz * x.y) % 2 ^ 64
  let sd := m.side + m.esz * i
  let gat := m.idxOp = 0
  let lost := x.bad && !x.clamped
  let dst := ((if gat then sd else e) + x.off) % 2 ^ 64
  let src := ((if gat then e else sd) + x.off) % 2 ^ 64
  let n := min (m.esz - x.off) (256 - dst % 256)
  if lost && !gat then pure ()
  else
    let b ← if lost then pure (List.replicate n 0) else readBytes a false src n
    writeBytes a false dst b
  arrive a m.bar n
  return n

/-- The element that a started command works on: the one in progress, or its next, with its index looked up. -/
def idxElem (a : Acc) (m : Cmd) (i : Nat) (x : IdxElem) (chain : List Nat) : Op IdxElem := do
  if x.off ≠ 0 then return x
  else
    let z ← withStat (indexStat m 0 i) (readNat a false ((m.w2.toNat + 4 * i) % 2 ^ 64) 4)
    let (y, bad, clamped) ← indexLevels a m chain i 3 1 z false
    return ⟨y, bad, clamped, 0⟩

/-- One beat of an index command; none when all elements are done. -/
def indexStep (a : Acc) (r : Run) : Op (Option Run) := do
  let m := r.cmd
  let acc ← match r.acc with
    | [] => do
      match m.kept a with
      | some f => withStat (indexStat m 0 0) (throw (.fault f))
      | none => pure ()
      let ch ← withStat (indexStat m 0 0) (readChain a m)
      pure (0 :: (IdxElem.mk 0 false false 0).toList ++ ch)
    | l => pure l
  let (oob, x, chain) := idxState acc
  if r.pos ≥ m.idxN then return none
  else
    let x ← idxElem a m r.pos x chain
    let n ← withStat (indexStat m m.depth r.pos) (idxMove a m r.pos x chain)
    let whole := x.off + n = m.esz
    let oob := if whole && x.bad then oob + 1 else oob
    let x := { x with off := if whole then 0 else x.off + n }
    return some { r with pos := if whole then r.pos + 1 else r.pos, landed := r.landed + n,
                         acc := oob :: x.toList ++ chain }

/-- An element in progress is finished, for a stop finds a started command at an element boundary (R250). A beat that
fails ends it where it stands. -/
def finishElem (a : Acc) : Nat → State → Run → State × Run
  | 0, s, r => (s, r)
  | n + 1, s, r =>
    if (idxState r.acc).2.1.off = 0 then (s, r)
    else match (indexStep a r).run s with
      | .ok (some r', s') => finishElem a n s' r'
      | _ => (s, r)

end Sys2Proof.Machine
end

