-- ==== Sys2Proof/Machine/Ops.lean ====
section
/-! DEFINITION. Operations that every word and event shares: how a word issues, waits, is skipped and retires (R28 to
R33, R74 to R77, R125, R167, R168), the replay hold (R419 to R421), taking a stop (R417 to R424) and returning from
one (R432), and barriers and signals. -/

namespace Sys2Proof.Machine

/-! Operand codes of a V word. -/

/-- The operand codes in the d, a and b fields of a V word, none for a field that holds no code (R44, R159). -/
def vecOf : Instr → Option Nat × Option Nat × Option Nat
  | .vadd _ _ _ _ d a b => (some d, some a, some b)
  | .vsub _ _ _ _ d a b => (some d, some a, some b)
  | .vmul _ _ _ _ d a b => (some d, some a, some b)
  | .vfma _ _ _ _ d a b => (some d, some a, some b)
  | .vdiv _ _ _ _ d a b => (some d, some a, some b)
  | .vsqrt _ _ _ _ d a => (some d, some a, none)
  | .vexp2 _ _ _ _ d a => (some d, some a, none)
  | .vlog2 _ _ _ _ d a => (some d, some a, none)
  | .vmin _ _ _ _ d a b => (some d, some a, some b)
  | .vmax _ _ _ _ d a b => (some d, some a, some b)
  | .vabs _ _ _ _ d a => (some d, some a, none)
  | .vneg _ _ _ _ d a => (some d, some a, none)
  | .vand _ _ _ _ d a b => (some d, some a, some b)
  | .vor _ _ _ _ d a b => (some d, some a, some b)
  | .vxor _ _ _ _ d a b => (some d, some a, some b)
  | .vshl _ _ _ _ d a b => (some d, some a, some b)
  | .vshr _ _ _ _ d a b => (some d, some a, some b)
  | .vsar _ _ _ _ d a b => (some d, some a, some b)
  | .vaddi _ d a _ => (some d, some a, none)
  | .vmuli _ d a _ => (some d, some a, none)
  | .vfmai _ d a _ => (some d, some a, none)
  | .vfmal _ _ _ _ d a b _ => (some d, some a, some b)
  | .vcmp _ _ _ _ _ a b => (none, some a, some b)
  | .vsel _ _ _ d a b => (some d, some a, some b)
  | .vcvt _ _ _ _ _ _ _ d a => (some d, some a, none)
  | .vqmx _ _ _ _ d a _ => (some d, some a, none)
  | .vdqmx _ _ _ _ _ d a _ => (some d, some a, none)
  | .vred _ _ _ _ _ _ d a => (some d, some a, none)
  | .vscan _ _ _ _ _ _ d a => (some d, some a, none)
  | .vperm _ _ _ _ d a b => (some d, some a, some b)
  | .vcomp _ _ _ d a => (some d, some a, none)
  | .vpart _ _ _ _ _ d a => (some d, some a, none)
  | .pcnt _ _ _ _ d _ => (some d, none, none)
  | .vmov _ _ _ d a => (some d, some a, none)
  | .vld _ _ _ _ _ d _ _ => (some d, none, none)
  | .vst _ _ _ _ _ d _ _ => (some d, none, none)
  | .vldc _ _ d a _ _ _ _ => (some d, some a, none)
  | .vstc _ _ d a _ _ _ _ => (some d, some a, none)
  | .vmapSet _ d _ => (some d, none, none)
  | .vmapSlice _ _ d a _ => (some d, some a, none)
  | .vmapPerm _ d a _ => (some d, some a, none)
  | .vmapShift _ _ d a _ => (some d, some a, none)
  | .vmapq _ _ _ a _ => (none, some a, none)
  | .vrndKey _ _ _ d _ => (some d, none, none)
  | .vrndStr _ _ _ d => (some d, none, none)
  | .vtok _ _ _ _ _ a _ => (none, some a, none)
  | .vsal _ _ _ _ d a b => (some d, some a, some b)
  | _ => (none, none, none)

/-- A V word with its d, a and b operand codes changed (R171). -/
def mapVec (fd fa fb : Nat → Nat) : Instr → Instr
  | .vadd h t p m d a b => .vadd h t p m (fd d) (fa a) (fb b)
  | .vsub h t p m d a b => .vsub h t p m (fd d) (fa a) (fb b)
  | .vmul h t p m d a b => .vmul h t p m (fd d) (fa a) (fb b)
  | .vfma h t p m d a b => .vfma h t p m (fd d) (fa a) (fb b)
  | .vdiv h t p m d a b => .vdiv h t p m (fd d) (fa a) (fb b)
  | .vsqrt h t p m d a => .vsqrt h t p m (fd d) (fa a)
  | .vexp2 h t p m d a => .vexp2 h t p m (fd d) (fa a)
  | .vlog2 h t p m d a => .vlog2 h t p m (fd d) (fa a)
  | .vmin h t p m d a b => .vmin h t p m (fd d) (fa a) (fb b)
  | .vmax h t p m d a b => .vmax h t p m (fd d) (fa a) (fb b)
  | .vabs h t p m d a => .vabs h t p m (fd d) (fa a)
  | .vneg h t p m d a => .vneg h t p m (fd d) (fa a)
  | .vand h t p m d a b => .vand h t p m (fd d) (fa a) (fb b)
  | .vor h t p m d a b => .vor h t p m (fd d) (fa a) (fb b)
  | .vxor h t p m d a b => .vxor h t p m (fd d) (fa a) (fb b)
  | .vshl h t p m d a b => .vshl h t p m (fd d) (fa a) (fb b)
  | .vshr h t p m d a b => .vshr h t p m (fd d) (fa a) (fb b)
  | .vsar h t p m d a b => .vsar h t p m (fd d) (fa a) (fb b)
  | .vaddi h d a imm => .vaddi h (fd d) (fa a) imm
  | .vmuli h d a imm => .vmuli h (fd d) (fa a) imm
  | .vfmai h d a imm => .vfmai h (fd d) (fa a) imm
  | .vfmal h t p m d a b lit => .vfmal h t p m (fd d) (fa a) (fb b) lit
  | .vcmp h k t p pd a b => .vcmp h k t p pd (fa a) (fb b)
  | .vsel h t p d a b => .vsel h t p (fd d) (fa a) (fb b)
  | .vcvt h s j sat t p m d a => .vcvt h s j sat t p m (fd d) (fa a)
  | .vqmx h w t p d a slot => .vqmx h w t p (fd d) (fa a) slot
  | .vdqmx h w t p m d a slot => .vdqmx h w t p m (fd d) (fa a) slot
  | .vred h op sg t p m d a => .vred h op sg t p m (fd d) (fa a)
  | .vscan h op sg t p m d a => .vscan h op sg t p m (fd d) (fa a)
  | .vperm h pm t p d a b => .vperm h pm t p (fd d) (fa a) (fb b)
  | .vcomp h t p d a => .vcomp h t p (fd d) (fa a)
  | .vpart h four q4 t p d a => .vpart h four q4 t p (fd d) (fa a)
  | .pcnt h pre t p d pa => .pcnt h pre t p (fd d) pa
  | .vmov h t p d a => .vmov h t p (fd d) (fa a)
  | .vld h at_ t p m d vw o => .vld h at_ t p m (fd d) vw o
  | .vst h at_ t p m d vw o => .vst h at_ t p m (fd d) vw o
  | .vldc h p d a vw o0 o1 o2 => .vldc h p (fd d) (fa a) vw o0 o1 o2
  | .vstc h p d a vw o0 o1 o2 => .vstc h p (fd d) (fa a) vw o0 o1 o2
  | .vmapSet h d b => .vmapSet h (fd d) b
  | .vmapSlice h k d a b => .vmapSlice h k (fd d) (fa a) b
  | .vmapPerm h d a b => .vmapPerm h (fd d) (fa a) b
  | .vmapShift h k d a b => .vmapShift h k (fd d) (fa a) b
  | .vmapq h k q4 a b => .vmapq h k q4 (fa a) b
  | .vrndKey h t p d b => .vrndKey h t p (fd d) b
  | .vrndStr h t p d => .vrndStr h t p (fd d)
  | .vtok h k q4 t p a b => .vtok h k q4 t p (fa a) b
  | .vsal h pat t p d a b => .vsal h pat t p (fd d) (fa a) (fb b)
  | i => i
/-- The register codes of a V word, 0 to 639 (R159). -/
def vregs (i : Instr) : List Nat :=
  let (d, a, b) := vecOf i
  -- VPART writes a list register for each outcome (R191)
  let lists := match i with
    | .vpart _ four _ _ _ d _ => (List.range (if four then 3 else 1)).map (d + 1 + ·)
    | _ => []
  (d.toList ++ a.toList ++ b.toList ++ lists).filter fun c => decide (c < 640)

/-! Addresses in code (R123 to R127). -/

/-- Distance in bytes from one code address to another: round the window for A, V and M. -/
def StreamSt.dist (x : StreamSt) (a b : Word) : Nat :=
  if x.winSize = 0 then (b - a).toNat
  else ((b.toNat : Int) - a.toNat).emod x.winSize |>.toNat

/-- The address n bytes (signed) from a code address, round the window for A, V and M (R125). -/
def StreamSt.plus (x : StreamSt) (pc : Word) (n : Int) : Word :=
  if x.winSize = 0 then pc + BitVec.ofInt 64 n
  else BitVec.ofNat 64 (x.winBase + (((pc.toNat : Int) - x.winBase + n).emod x.winSize).toNat)

/-! Sequencers (R30, R167, R168). -/

/-- A loop's body holds the word at pc. -/
def Level.holds (x : StreamSt) (l : Level) (pc : Word) : Bool := x.dist l.body pc < 8 * l.len

/-- I calls for the word to be skipped, in iteration idx of count (R30). -/
def skips (it : Iter) (idx count : Nat) : Bool :=
  match it with
  | .always => false
  | .first => idx ≠ 0
  | .last => idx + 1 ≠ count
  | .nfirst => idx = 0

/-- The innermost running level of M's nest: index and count; a nest with no running level counts as one iteration. -/
def Core.nestInner (c : Core) : Nat × Nat :=
  match c.nest with
  | some (idx, _) =>
    match (List.range 6).reverse.find? fun l => decide (SMap.get 0 c.plane (0x10 + 8 * l) ≠ 0) with
    | some l => (idx.getD l 0, (SMap.get 0 c.plane (0x10 + 8 * l)).toNat)
    | none => (0, 1)
  | none => (0, 1)

/-- The word at the stream's PC is skipped (R30); C ignores I. -/
def Core.skipped (c : Core) (st : Stream) (h : Hdr) : Bool :=
  let x := c.stream st
  match st with
  | .c => false
  | .m => let (i, n) := c.nestInner; skips h.it i n
  | _ =>
    match x.seqr.find? fun l => l.holds x x.pc with
    | some l => skips h.it l.idx l.count
    | none => skips h.it 0 1

/-- A pass of the innermost loop ends (R167): its next pass starts or the loop closes, and the end is checked again for
the enclosing loop. -/
def passEnd (x : StreamSt) : Nat → List Level → Word → StreamSt
  | 0, ls, pc => { x with seqr := ls, pc }
  | _, [], pc => { x with seqr := [], pc }
  | fuel + 1, l :: ls, pc =>
    if x.dist l.body pc = 8 * l.len then
      if l.idx + 1 < l.count then { x with seqr := { l with idx := l.idx + 1 } :: ls, pc := l.body }
      else passEnd x fuel ls pc
    else { x with seqr := l :: ls, pc }

/-- Pass over n words from the PC. A body whose last word is among them ends its pass there. -/
def StreamSt.advance (x : StreamSt) (n : Nat) : StreamSt :=
  match x.seqr with
  | [] => { x with pc := x.plus x.pc (8 * n) }
  | l :: _ =>
    let off := x.dist l.body x.pc
    if off < 8 * l.len && 8 * l.len ≤ off + 8 * n then passEnd x 7 x.seqr (x.plus l.body (8 * l.len))
    else { x with pc := x.plus x.pc (8 * n) }

/-- A taken transfer (R168): loops whose bodies do not hold the target end. -/
def leaveLoops (x : StreamSt) (pc : Word) : List Level → List Level
  | [] => []
  | l :: ls => if l.holds x pc then l :: ls else leaveLoops x pc ls

def StreamSt.transfer (x : StreamSt) (pc : Word) : StreamSt := { x with seqr := leaveLoops x pc x.seqr, pc }

/-! Checks before issue (R32, R95, R159). -/

/-- Fields of control registers that only a supervisor writes (R416, R436, R158, R218): a CWR of one in user mode is
PRIV. -/
def supWrite (n : Nat) : Bool :=
  n == crTVEC || n == crTREC0 || n == crTREC1 || n == crTREC2 || n == crTREC3 || (0x19 ≤ n && n ≤ 0x1F)
    || n == crENBUDGET || n == crVALLOT || n == crBANKALLOT

/-- The word is privileged (R49, R95). -/
def isPrivileged : Instr → Bool
  | .eret _ | .ctxsave .. | .ctxload .. | .tlbinv .. => true
  | .crd _ _ n => 0x80 ≤ n && n ≤ 0xFF
  | .cwr _ _ n => (0x80 ≤ n && n ≤ 0xFF) || supWrite n
  | _ => false

/-- G names the coupled core (R29), or SIGNAL does (R84). -/
def needsCoupled (i : Instr) (h : Hdr) : Bool :=
  (0x41 ≤ h.g && h.g ≤ 0x7F) || (match i with | .signal _ _ cpl _ => cpl | _ => false)

/-- Steps 3 to 6 of R32. -/
def preCheck (i : Instr) (h : Hdr) : Op Unit := do
  let st ← streamOf
  let c ← here
  if !i.streams.contains st then fault fcILLOP
  else if isPrivileged i && !c.sup then fault fcPRIV
  else if !(i.acceptedBy st && i.wf) then fault fcILLOP
  else
    if st = .v && !c.sV.issued then do
      let m ← rdWeak crVALLOT (c.creg crVALLOT).toNat
      guardFault ((vregs i).all fun r => m.testBit (r / 64)) fcREGALLOT
    else pure ()
    guardFault (!(needsCoupled i h && c.coupled.isNone)) fcQSTATE

/-! What holds a core back. -/

/-- M stands at a retirement point of its nest, where a pre-emption stops it (R264, R265), or has no nest: an iteration is
to start, not the first, and either every marked level is at its start or the outermost marked level repeats its last
iteration. Where no level is marked the model stops M between two iterations only (log entry 26). -/
def Core.atRetirement (c : Core) : Bool :=
  match c.nest with
  | none => true
  | some (idx, w) =>
    let count := fun l => (SMap.get 0 c.plane (0x10 + 8 * l)).toNat
    let marked := (List.range 6).filter fun l => count l ≠ 0 && decide (SMap.get 0 c.plane (0x15 + 8 * l) = 1)
    w == 0 && idx.any (· ≠ 0) &&
      (marked.all (fun l => idx.getD l 0 == 0) ||
        match marked with
        | [] => true
        | o :: inner => idx.getD o 0 + 1 == count o && inner.any fun l => idx.getD l 0 ≠ 0)

/-- Another core of a frame-mode cohort is in its handler, or has been saved: the cohort is stopped as one, and resumes from
one count (R311). -/
def State.cohortHeld (s : State) (k : Nat) : Bool :=
  let c := s.core k
  c.frame && !c.act &&
  match s.nodeOf c.slot c.node with
  | some n => !n.yielded.isEmpty || n.cores.any fun j => j ≠ k && (s.core j).act
  | none => false

/-- The stream may issue its next word. -/
def State.mayIssue (s : State) (k : Nat) (st : Stream) : Bool :=
  let c := s.core k
  let x := c.stream st
  -- the handler runs on C, whether or not C was started or has joined (R424)
  c.st == .running && (if c.act then st = .c && !c.handlerJoined else x.started && !x.joined) && !s.cohortHeld k
    && (st ≠ .c || c.spec.role == 0 || c.spec.role == 4 || c.spec.role == 5 || (c.spec.role == 3 && !c.spec.ended))
    -- an iteration that a fault has ended leaves its other streams where they are (R400)
    && (st = .c || !c.spec.bad)
    && (match c.pend with
        | some p => match p.fault with
          -- the end of the energy budget holds no stream back before the boundary (R437)
          | some f => f.cmd.isSome || f.stream ≠ st.num || f.code == fcENERGY
          -- a PPOINT or a HALT that waits for the boundary keeps C at it, and M waits for it at a retirement point; in free
          -- mode a PPOINT leaves M alone to go on to its retirement point (R418), and past the horizon all do (R425)
          | none =>
            if c.frame then !(st = .c && (p.halt.isSome || p.kind == 1)) && !(st = .m && p.kind ≠ 0 && c.nest.isSome && c.atRetirement)
            else p.kind ≠ 1 || st = .m
        | none => true)

/-! Waits (R28, R75). -/

/-- A stream that comes before this one at counter w waits there and may go on: it is served first (R77). -/
def State.outranked (s : State) (w : Nat) : Bool :=
  ([Stream.c, .a, .v, .m].takeWhile (· ≠ s.curStream)).any fun t =>
    ((s.core s.curCore).stream t).waitOn == w && s.mayIssue s.curCore t

/-- The wait of W is satisfied, or the word waits. -/
def takeWait (w : Nat) : Op Unit := do
  let c ← here
  if 0x01 ≤ w && w ≤ 0x3F then
    let s ← get
    if c.count w = 0 || s.outranked w then do
      modStream fun x => { x with waitOn := w }
      hold
    else
      let (c', t) := c.takeCount w
      putHere c'
      learnHere t
      modStream fun x => { x with taken := some (w, t), waitOn := 0 }
  else if 0x40 ≤ w && w ≤ 0x4F then
    let r := SMap.get Rdv.reset c.rdv (w - 0x40)
    if r.fired then learnHere r.clk else block
  else if 0x50 ≤ w && w ≤ 0x5F then guardBlock (c.qReady (w - 0x50))
  else if 0x60 ≤ w && w ≤ 0x6F then guardBlock (c.qHasSpace (w - 0x60))
  else pure ()

/-! Replay (R419 to R421). -/

/-- Reserved or zero W, and reserved or zero G. -/
def hdrQuiet (h : Hdr) : Bool :=
  (h.w = 0 || (0x70 ≤ h.w && h.w ≤ 0xFE)) && (h.g = 0 || h.g = 0x40 || 0x80 ≤ h.g)

/-- The address of a word [s_a + off] with a signed w-bit offset. -/
def Core.addr (c : Core) (st : Stream) (a w off : Nat) : Nat := (addOff (c.sreg st a) w off).toNat

/-- The address lies in the command ports (R238). -/
def isPort (va : Nat) : Bool := 0x400000 ≤ va && va < 0x400140

/-- The word is a store to a GO register. -/
def isGo (i : Instr) (c : Core) (st : Stream) : Bool :=
  match i with
  | .st _ _ _ _ a off => let va := c.addr st a 14 off; isPort va && va % 64 / 8 == 4
  | _ => false

/-- A word whose command or marker the replay list records (R420). -/
def isListed (i : Instr) (c : Core) (st : Stream) : Bool :=
  match i with
  | .mark .. | .smp .. | .stopset .. => true
  | _ => isGo i c st

/-- Replay-safe words (R419). -/
def replaySafe (i : Instr) (h : Hdr) (c : Core) (st : Stream) : Bool :=
  hdrQuiet h &&
  match i with
  | .nop _ | .hint .. | .add .. | .sub .. | .mul .. | .mulh .. | .div .. | .rem .. | .and .. | .or .. | .xor .. | .shl ..
  | .shr .. | .sar .. | .clz .. | .popc .. | .min .. | .max .. | .cmp .. | .sel .. | .movi .. | .sext .. | .movl ..
  | .addi .. | .fadd .. | .fsub .. | .fmul .. | .fdiv .. | .fsqrt .. | .fma .. | .fmai .. | .fmal .. | .fmak ..
  | .fmin .. | .fmax .. | .fcmp .. | .fcvt .. | .br .. | .jmp .. | .call .. | .ret .. | .ppoint .. | .mark .. => true
  | .st _ _ _ _ a off => isPort (c.addr st a 14 off)
  | _ => false

/-- A command queue, head first: engines 0 to 4, and 5 for the matrix engine's markers. -/
def Core.equeue (c : Core) (e : Nat) : List Cmd := SMap.get [] c.eq e

def Core.setEqueue (c : Core) (e : Nat) (l : List Cmd) : Core := { c with eq := SMap.set [] c.eq e l }

def Core.runOf (c : Core) (e : Nat) : Option Run := SMap.get none c.run e

def Core.setRun (c : Core) (e : Nat) (r : Option Run) : Core := { c with run := SMap.set none c.run e r }

/-- An entry of queue e is a command or marker of the stream that has not started. A handler does not wait for a marker
behind the nest that its own stop holds (log entry 28). -/
def Core.waitsFor (c : Core) (st : Stream) (e : Nat) (m : Cmd) : Bool :=
  m.st == st.num && !(e == 5 && c.act && c.nest.isSome)

/-- The stream has a command or marker that has not started. -/
def Core.notStarted (c : Core) (st : Stream) : Bool :=
  (List.range 6).any fun e => (c.equeue e).any (c.waitsFor st e)

/-- The stream's replay state. A handler of C keeps it for the program and records nothing of its own: its words that are
not replay-safe wait until its commands have started (log entry 31). -/
def Core.replay (c : Core) : Stream → Option Replay
  | .a => c.replayA | .c => if c.act then none else c.replayC | _ => none

def Core.setReplay (c : Core) (st : Stream) (r : Option Replay) : Core :=
  match st with
  | .a => { c with replayA := r } | .c => { c with replayC := r } | _ => c

/-- The hold of R420, before the word's own wait. -/
def replayHold (i : Instr) (h : Hdr) : Op Unit := do
  let st ← streamOf
  let c ← here
  if (c.stream st).issued then pure ()
  else match c.replay st with
  | none =>
    match i with
    | .ecut .. => pure ()
    | _ => guardBlock (!(c.notStarted st && !replaySafe i h c st))
  | some r =>
    if r.at_.isSome then pure ()
    else if replaySafe i h c st then
      if isListed i c st && r.list.length ≥ 64 then
        if c.notStarted st then block else putHere (c.setReplay st none)
      else pure ()
    else match i with
      -- ECUT waits only for what it would not discard (R420)
      | .ecut .. => pure ()
      | _ => if c.notStarted st then block else putHere (c.setReplay st none)

/-- In replay, the next listed word has started before: it takes no effect (R421). -/
def Core.replaySkip (c : Core) (st : Stream) : Bool :=
  match c.replay st with
  | some r => match r.at_ with
    | some n => (r.list.getD n (false, 0)).1
    | none => false
  | none => false

/-- Pass one entry of the list in replay. -/
def Replay.pass (r : Replay) : Replay :=
  match r.at_ with
  | some n => { r with at_ := if n + 1 < r.list.length then some (n + 1) else none }
  | none => r

/-- The checkpoint and the list are cleared once every command and marker of the list has started (R420). -/
def Replay.live (r : Replay) : Option Replay := if r.at_.isNone && r.list.all Prod.fst then none else some r

def setNth {α : Type} (l : List α) (n : Nat) (x : α) : List α := l.set n x

def Core.stagingOf (c : Core) (st : Stream) : SMap Word :=
  let lo := if st = .a then 32 else 0
  c.staging.filter fun p => lo ≤ p.1 && p.1 < lo + 20

/-- A listed word of this stream retires with a command or marker of number id (R420). `before` is the core before the
word, with nothing of it placed. -/
def Core.note (c before : Core) (st : Stream) (id : Nat) : Core :=
  if st = .c && c.act then c
  else match c.replay st with
  | some r =>
    match r.at_ with
    | some n => c.setReplay st (some ({ r with list := setNth r.list n (false, id) }.pass))
    | none =>
      if before.notStarted st then c.setReplay st (some { r with list := r.list ++ [(false, id)] })
      else fresh c
  | none => fresh c
where
  fresh (c : Core) : Core :=
    let regs := match st with | .a => before.regA | _ => before.regC
    c.setReplay st (some ⟨regs, before.stagingOf st, (before.stream st).pc, [(false, id)], none⟩)

/-- The skip bit of a command is set (R420). -/
def Core.markStarted (c : Core) (id : Nat) : Core :=
  let f := fun (r : Option Replay) => r.bind fun r =>
    Replay.live { r with list := r.list.map fun p => if p.2 = id then (true, id) else p }
  { c with replayC := f c.replayC, replayA := f c.replayA }

/-! Waiting stops. -/

/-- A waiting stop is due: a deferred fault of A when V has joined, or 2^16 cycles have passed (R379; State.vBlocks takes it
where V blocks); in free mode a pre-emption when M has reached its retirement point (R418). -/
def State.stopDue (s : State) (k : Nat) : Bool :=
  let c := s.core k
  match c.pend with
  | none => false
  | some p =>
    c.st == .running &&
    match p.left with
    | some n => n = 0 || c.sV.joined || !c.sV.started
    | none => !c.frame && p.fault.isNone && p.kind ≠ 0 && c.atRetirement

/-! Taking a stop. -/

/-- A word that is given up returns the count and the entries it had taken (R33, R418). -/
def Core.unissue (c : Core) (st : Stream) : Core :=
  let x := c.stream st
  let c := match x.taken with | some (n, t) => c.returnCount n t | none => c
  let c := if st = .m then
      { (match c.joinWait with | some (some (n, t)) => c.returnCount n t | _ => c) with joinWait := none, drain := none }
    else c
  let c := x.popped.foldr (fun p c => c.setQueue p.1 (p.2 :: c.queue p.1)) c
  let c := if st = .c then { c with invWait := [] } else c
  c.setStream st { x with issued := false, taken := none, popped := [], blocked := false, bwaitAt := none, waitOn := 0, code := [] }

/-- Swap C's registers lo to 63 with a bank. -/
def Core.swapBank (c : Core) (lo : Nat) (bank : SMap Word) : SMap Word × SMap Word :=
  (c.regC.filter (fun p => decide (p.1 < lo)) ++ bank, c.regC.filter fun p => decide (lo ≤ p.1))

def Core.swapTrap (c : Core) : Core := let (r, b) := c.swapBank 48 c.trapBank; { c with regC := r, trapBank := b, handlerJoined := false }

def Core.swapShadow (c : Core) : Core := let (r, b) := c.swapBank 56 c.shadow; { c with regC := r, shadow := b }

/-! Cancelling (R418, R422). -/

/-- The status word of a started command (R250, R351, R365); a started reduction holds its block, word 0 first. -/
def statusWord (r : Run) : Word :=
  match r.cmd.eng with
  | 0 => BitVec.ofNat 64 (wfld r.cmd.w0 61 3 * 2 ^ 61 + r.landed % 2 ^ 48)
  | 1 => BitVec.ofNat 64 (wfld r.cmd.w0 62 2 * 2 ^ 62 + r.pos % 2 ^ 32)
  | 2 => BitVec.ofNat 64 (wfld r.cmd.w0 59 5 * 2 ^ 59 + r.pos % 2 ^ 32)
  | 3 => BitVec.ofNat 64 (fld (r.acc.headD 0) 58 6 * 2 ^ 58 + r.pos % 2 ^ 32)
  | _ => 0

/-- A started command of the core becomes a held record. -/
def State.cancel (s : State) (k : Nat) (r : Run) : State :=
  let c := s.core k
  match r.reply with
  | some e =>
    let rec_ : Held := ⟨1, { r.cmd with kind := .reply e }, statusWord r⟩
    -- the flags of the completed command stand, for a held record keeps none
    let c := c.setCreg crFPFLAGS (raise (c.creg crFPFLAGS) r.flags)
    s.setCore k { c with held := c.held ++ [rec_] }
  | none =>
    let s := s.withdraw (c.accCmd r.cmd) r.cmd.bar r.landed
    let c := s.core k
    s.setCore k { c with held := c.held ++ [⟨0, r.cmd, statusWord r⟩] }

/-- The near engine's command in progress, when it is the core's. -/
def NearEng.runOf (n : NearEng) (k : Nat) : Option Run :=
  match n.busy with
  | some (q, r) => if q = k then some r else none
  | none => none

/-- Every started command of the core is quiesced and cancelled; a draw runs to completion, so one that stands has its
reply held or has failed, which makes it a held record where it is not the recorded fault's (R423). -/
def State.cancelAll (s : State) (k : Nat) (keep : Option Nat) : State :=
  let s := [0, 1, 2, 3].foldl (fun s e =>
    match (s.core k).runOf e with
    | none => s
    | some r =>
      let (s, r) := if e = 1 && keep != some r.cmd.id then finishElem { (s.core k).accCmd r.cmd with writer := none } 4 s r else (s, r)
      let s := s.setCore k ((s.core k).setRun e none)
      if keep == some r.cmd.id then s else s.cancel k r) s
  let s := match (s.core k).runOf 4 with
    | some r =>
      let s := s.setCore k ((s.core k).setRun 4 none)
      if keep == some r.cmd.id then s else s.cancel k r
    | none => s
  let near := fun (s : State) (get : State → SMap NearEng) (put : State → SMap NearEng → State) =>
    (List.range 4).foldl (fun s x =>
      let n := SMap.get NearEng.reset (get s) x
      match n.runOf k with
      | none => s
      | some r =>
        let s := put s (SMap.set NearEng.reset (get s) x { n with busy := none })
        if keep == some r.cmd.id then s else s.cancel k r) s
  let s := near s State.sel fun s m => { s with sel := m }
  near s State.red fun s m => { s with red := m }

/-- The virtual address of the barrier that a command names (R243, R247, R356). -/
def Cmd.barVa (m : Cmd) : Option Nat :=
  match m.eng with
  | 0 => if m.w3.getLsbD 0 then some (wfld m.w3 4 53 * 16) else none
  | 1 => if m.w3.getLsbD 60 then some (wfld m.w3 40 18 * 16) else none
  | 2 => if m.w2.getLsbD 62 then some (wfld m.w2 40 18 * 16) else none
  | _ => none

/-- Its virtual and physical address, where it has one. -/
def Cmd.barName (m : Cmd) : Option (Nat × Nat) :=
  match m.kind, m.barVa, m.bar with
  | .go, some va, some (pa, _) => some (va, pa)
  | _, _, _ => none

/-- Not-started commands and markers are discarded (R418); a command placed again from a held record is held again. -/
def Core.discard (c : Core) : Core :=
  (List.range 6).foldl (fun c e =>
    let back := ((c.equeue e).filter Cmd.again).map fun m =>
      Held.mk (match m.kind with | .reply _ => 1 | .marker .. => 2 | _ => 0) m 0
    { c.setEqueue e [] with held := c.held ++ back,
                            barNames := c.barNames ++ (c.equeue e).filterMap Cmd.barName }) { c with barNames := [] }

/-- The stream goes back to its checkpoint (R421). -/
def Core.rewind (c : Core) (st : Stream) : Core :=
  match c.replay st with
  | none => c
  | some r =>
    let lo := if st = .a then 32 else 0
    let stg := (c.staging.filter fun p => !(lo ≤ p.1 && p.1 < lo + 20)).filter (fun p => decide (p.1 < lo))
      ++ r.staging ++ c.staging.filter fun p => decide (lo + 20 ≤ p.1)
    let c := match st with | .a => { c with regA := r.regs } | _ => { c with regC := r.regs }
    let c := { c with staging := stg }.setStream st { c.stream st with pc := r.addr }
    c.setReplay st (some { r with at_ := some 0 })

/-- A rejected iteration leaves the generators and the flags of its core as it found them (R397). -/
def Core.specReject (c : Core) : Core :=
  if c.spec.role = 3 then
    let g := c.spec.gens
    let c := match g with
      | [a, b, d] => { c with genC := { c.genC with x := a.x }, genA := { c.genA with x := b.x },
                              genV := { c.genV with x := d.x } }
      | _ => c
    match c.spec.flags with
    | [f0, f1, f2] => ((c.setCreg crFPFLAGS f0).setCreg crVFLAGS f1).setCreg crMFLAGS f2
    | _ => c
  else c

/-- The commands of a discarded iteration go with it, and no replay leads back to one of them. -/
def Core.specDrop (c : Core) : Core :=
  if c.spec.role = 3 then
    let old := fun (m : Cmd) => decide (m.id ≤ c.spec.cmdLow)
    let c := [0, 1].foldl (fun (c : Core) e =>
      (c.setEqueue e ((c.equeue e).filter old)).setRun e ((c.runOf e).filter fun r => old r.cmd)) c
    let f := fun (r : Option Replay) => r.bind fun r =>
      Replay.live { r with list := r.list.map fun p => if c.spec.cmdLow < p.2 then (true, p.2) else p }
    { c with replayC := f c.replayC, replayA := f c.replayA }
  else if c.spec.role = 4 then { c with replayC := none }
  else c

/-- The round in progress is discarded at a stop of one of its cores (R400). -/
def State.specDiscard (s : State) (k : Nat) : State :=
  let sp := (s.core k).spec
  if sp.role = 0 then s
  else
    { s with cores := s.cores.map fun p =>
        let c := p.2
        if c.spec.role ≠ 0 && c.spec.lead = sp.lead then
          let c := c.specReject.specDrop
          let c := c.unissue .c
          let c := match c.spec.tok with | some (n, t) => c.returnCount n t | none => c
          (p.1, { c with sC := { c.sC with pc := c.spec.pc }, spec := .reset })
        else p }

/-- Which of two faults of one stop is recorded: the one of the lowest path (R423). -/
def FaultInfo.rank (f : FaultInfo) : Nat := f.path

def lowest (a b : Option FaultInfo) : Option FaultInfo :=
  match a, b with
  | some x, some y => if y.rank < x.rank then some y else some x
  | some x, none => some x
  | none, y => y

/-- A PC as a TPC register holds it: its bits 2 to 0 are reserved (R416). -/
def wordPc (pc : Word) : Word := pc &&& ~~~7

/-- TREC0 at a stop (R416): the request bit pr is kept. -/
def trec0 (c : Core) (f : Option FaultInfo) (kind : Nat) (th pr : Bool) : Word :=
  let b := fun (x : Bool) (n : Nat) => if x then 2 ^ n else 0
  let (cause, path, str, rq) := match f with
    | some f => (f.code, f.path, f.stream, f.cmd.isSome)
    | none => (0, 15, 0, false)
  BitVec.ofNat 64 (b th 30 + b true 29 + b rq 18 + b pr 17 + b ((c.creg crUISTAT).getLsbD 63) 16 + b c.sup 15
    + str * 2 ^ 13 + path * 2 ^ 9 + kind * 2 ^ 7 + cause)

/-- The address of the nest's body word w (R263). -/
def Core.nestAddr (c : Core) (w : Nat) : Word :=
  c.sM.plus (BitVec.ofNat 64 c.sM.winBase) (8 * ((SMap.get 0 c.plane 1).toNat + w))

/-- What the coupled core is for signals and mail of core k: it runs another job or none; its job has not started; it takes
them. What reaches it in the first case is lost, in the second it waits, but for signals that land at a stop: the
model's choice, log entry 94. -/
inductive Mate where
  | gone
  | early (j : Nat)
  | there (j : Nat)
  deriving DecidableEq, Repr

def State.mate (s : State) (k : Nat) : Mate :=
  let c := s.core k
  match c.coupled with
  | none => .gone
  | some j =>
    let d := s.core j
    if d.st == .idle || d.slot ≠ c.slot || d.node ≠ c.node then .gone
    else if d.st == .placed then .early j
    else .there j

/-- One raise lands at core j: a counter that would pass 65,535 keeps its value, and the raising word takes SIGOV (R77). -/
def State.landRaise (s : State) (j n count : Nat) (tok : Clk) : State × Bool :=
  let d := s.core j
  if d.count n + count ≤ 65535 then (s.setCore j (d.addCount n count tok), false) else (s, true)

/-- SIGOV of a stream's word (R77). -/
def sigov (st : Nat) : FaultInfo := ⟨fcSIGOV, 0, 0, st, st, 0, none, none, none⟩

/-- Signals that the core has raised for its coupled core land (R418, R76), in the counters that its job starts with where
that has not started, with a SIGOV that this makes. -/
def State.landFlight (s : State) (k : Nat) : State × Option FaultInfo :=
  let land := fun (j : Nat) =>
    (s.core k).flight.foldl (fun (a : State × Option FaultInfo) (p : Nat × Nat × Nat × Clk) =>
      let (s, ov) := a.1.landRaise j p.1 p.2.1 p.2.2.2
      (s, if ov then lowest a.2 (some (sigov p.2.2.1)) else a.2)) (s.setCore k { s.core k with flight := [] }, none)
  match s.mate k with
  | .gone => (s.setCore k { s.core k with flight := [] }, none)
  | .early j => land j
  | .there j => land j

/-- The bytes of reserved LDQ entries arrive before a stop completes (R426), with the signals of their LDQs. -/
def State.landLdq (s : State) (k : Nat) : State × Option FaultInfo :=
  [0, 1].foldl (fun (a : State × Option FaultInfo) q =>
    let due := ((a.1.core k).queue q).filter fun e => !e.ready
    let c := (a.1.core k).setQueue q (((a.1.core k).queue q).map fun e => { e with ready := true })
    due.foldl (fun (a : State × Option FaultInfo) e =>
      let c := a.1.core k
      if 0x01 ≤ e.g && e.g ≤ 0x3F then
        let (s, ov) := a.1.landRaise k e.g 1 e.clk
        (s, if ov then lowest a.2 (some (sigov 1)) else a.2)
      else if 0x41 ≤ e.g && e.g ≤ 0x7F then
        (a.1.setCore k { c with flight := c.flight ++ [(e.g - 0x40, 1, 1, e.clk)] }, a.2)
      else a) (a.1.setCore k c, a.2)) (s, none)

/-- The streams cease to issue (R418 step 1), and what is under way lands (R426, step 4): a SIGOV that it makes. -/
def State.standDown (s : State) (k : Nat) : State × Option FaultInfo :=
  let s := s.specDiscard k
  let c := s.core k
  let c := (((c.unissue .c).unissue .a).unissue .v).unissue .m
  let c := { c with sC := { c.sC with stamp := none }, sA := { c.sA with stamp := none } }
  let (s, f) := (s.setCore k c).landLdq k
  let (s, g) := s.landFlight k
  (s, lowest f g)

/-- Commands and rewinding of a stop (R418 steps 2 and 3). -/
def State.quiesce (s : State) (k : Nat) (keep : Option Nat) (cancel : Bool) : State :=
  let s := if cancel then s.cancelAll k keep else s
  let c := (s.core k).discard
  s.setCore k ((c.rewind .c).rewind .a)

/-- The stop of a core (R418, R424): the record is written and C enters the handler. -/
def State.coreStop (s : State) (k : Nat) (f : Option FaultInfo) (kind : Nat) (th : Bool) : State :=
  let (s, landed) := s.standDown k
  let c0 := s.core k
  let f := lowest (lowest f (c0.pend.bind PendingStop.fault)) landed
  let kind := if f.isSome then 0 else kind
  let th := th && f.isNone
  -- the failing command: its arrivals are withdrawn, and it is kept for rq (R422, R432)
  let failing := f.bind FaultInfo.cmd
  let s := match failing with
    | some m =>
      let r := match c0.runOf m.eng with
        | some r => some r
        | none => ((List.range 4).findSome? fun x => (SMap.get NearEng.reset s.sel x).runOf k).orElse fun _ =>
            (List.range 4).findSome? fun x => (SMap.get NearEng.reset s.red x).runOf k
      match r with
      | some r => if r.cmd.id = m.id then s.withdraw (c0.accCmd m) m.bar r.landed else s
      | none => s
    | none => s
  let s := s.quiesce k (failing.map Cmd.id) true
  let c := s.core k
  let mFault := match f with | some f => f.cmd.isNone && f.stream == 3 && c.nest.isSome | none => false
  let tpcm := match c.nest with | some (_, w) => if mFault then c.nestAddr w else c.sM.pc | none => c.sM.pc
  let pr := c.horizon.isSome && kind = 0
  let c := { c with
    cr := setAll 0 c.cr [(crTREC0, trec0 c f kind th pr),
      (crTREC1, (f.map FaultInfo.addr).getD 0), (crTREC2, (f.map FaultInfo.stat).getD 0),
      (crTREC3, (f.map FaultInfo.tag).getD 0),
      (crTPCC, wordPc c.sC.pc), (crTPCC + 1, wordPc c.sA.pc), (crTPCC + 2, wordPc c.sV.pc), (crTPCC + 3, wordPc tpcm),
      (crXFSTAT, (f.bind FaultInfo.xf).getD (c.creg crXFSTAT))],
    failing := failing, pend := none, nestPc := if mFault then some c.sM.pc else none,
    horizon := if kind = 0 then c.horizon else none, lastCause := (f.map FaultInfo.code).getD 0 }
  let c := c.swapTrap
  let tvec := c.creg crTVEC
  let c := { c with sup := true, sC := { c.sC with pc := tvec + (if kind = 0 then 0 else 0x40) } }
  s.setCore k c

/-- A double fault (R424); a translation fault writes XFSTAT too (R369, R418). -/
def State.doubleFault (s : State) (k : Nat) (f : FaultInfo) : State :=
  let c := s.core k
  let t := c.creg crTREC0
  let t := setFld (setFld (setFld t 0 5 fcDBLFAULT) 19 5 c.lastCause) 24 5 f.code
  let c := (c.setCreg crTREC0 t).setCreg crTREC1 f.addr
  s.setCore k { c.setCreg crXFSTAT (f.xf.getD (c.creg crXFSTAT)) with st := .dead }

/-- A fault of the core is taken (R417): in frame mode at the next boundary, for a translation fault of A's accesses
when V blocks (R379), in a Virga iteration past the first not at all (R400), else at once; of a core that halts too (log
entry 111). -/
def State.takeFault (s : State) (k : Nat) (f : FaultInfo) (defer : Bool) : State :=
  let s := s.noteEcc f (some k)
  let c := s.core k
  let c := if f.cmd.isNone then
      c.unissue (match f.stream with | 0 => .c | 1 => .a | 2 => .v | _ => .m)
    else c
  let s := s.setCore k c
  if c.spec.role = 3 && c.spec.pos ≠ 0 && !c.spec.ended then
    s.setCore k { c with spec := { c.spec with ended := true, bad := true } }
  else if c.act then s.doubleFault k f
  else if c.frame then
    -- the round of an iteration that faults is not committed at the boundary (R400)
    let sp := if c.spec.role = 3 && !c.spec.ended then { c.spec with bad := true } else c.spec
    s.setCore k { c with pend := some ⟨lowest (some f) (c.pend.bind PendingStop.fault), 0, false, none, none⟩, spec := sp }
  else if defer && c.pend.isNone then s.setCore k { c with pend := some ⟨some f, 0, false, some 65536, none⟩ }
  else s.coreStop k (some f) 0 false

/-- A stop that has waited is taken. -/
def State.takePending (s : State) (k : Nat) : State :=
  match (s.core k).pend with
  | some p => s.coreStop k p.fault p.kind p.th
  | none => s

/-! User-level interrupts (R252, R253). -/

/-- The lowest engine with a pending, enabled interrupt. -/
def Core.uiEngine (c : Core) : Option Nat :=
  (List.range 5).find? fun e => (c.creg crUISTAT).getLsbD (58 + e) && (c.creg crUIMASK).getLsbD e

/-- Words of C that an interrupt takes back while they block after their issue (R253, R270). -/
def uiYields : Instr → Bool
  | .qpop .. | .qpush .. | .mbsend .. | .mbrecv .. | .jwait .. | .bwait .. | .acq .. => true
  | .cgo _ try_ _ => !try_
  | _ => false

/-- C takes a user-level interrupt before it issues its next word. -/
def State.uiReady (s : State) (k : Nat) : Bool :=
  let c := s.core k
  s.mayIssue k .c && !c.act && !(c.creg crUISTAT).getLsbD 63 && c.uiEngine.isSome && !c.notStarted .c
    && (c.spec.role == 0 || c.spec.role == 3 || c.spec.role == 4)
    && (match c.replayC with | some r => r.at_.isNone | none => true)

/-- C stands between two words: none has passed its wait, or it is held for its stamp, before its issue (R253, R317). One that
blocks after its issue gives way in its own turn, if it is one of those that do. -/
def Core.betweenWords (c : Core) : Bool := !c.sC.issued || c.sC.stamp.isSome

/-- C is in user mode in user-level interrupt context (R49), also in a supervisor's job; UIRET gives it the job's mode back
(log entry 93). It is ordered after the completions that made the interrupt (R325). -/
def State.uiEntry (s : State) (k : Nat) : State :=
  let c := ((s.core k).unissue .c).setReplay .c none
  match c.uiEngine with
  | none => s
  | some e =>
    let s := s.learn (agentOf k .c) (SMap.get [] c.uiClk e)
    let c := { c with sup := false, uiClk := SMap.set [] c.uiClk e [] }
    let t := wfld (SMap.get 0 c.uiTag e) 3 54
    let u := setFld (setFld (setFld (c.creg crUISTAT) (58 + e) 1 0) 55 3 e) 0 54 t
    let c := (c.setCreg crUISTAT (setFld u 63 1 1)).setCreg crUIPC c.sC.pc
    let c := c.swapShadow
    s.setCore k { c with sC := { c.sC with pc := c.creg crUIVEC } }

/-! Issue and retirement. -/

/-- Where a stream goes after a word. -/
inductive After where
  /-- To the word after it. -/
  | fall
  /-- To a target (R114 to R117, R152, R168). -/
  | jump (pc : Word)
  /-- To a place that its own sequencer set (R167). -/
  | seq (pc : Word)
  /-- It fetches nothing further (R82). -/
  | join
  deriving DecidableEq, Repr

/-- What a word's retirement does besides its effects: where the stream goes, and counts that SIGNAL adds. -/
structure Fin where
  go : After
  /-- The count is for the coupled core; counter; count. -/
  add : List (Bool × Nat × Nat)
  deriving DecidableEq, Repr

def fall : Fin := ⟨.fall, []⟩

/-- How a word passes its decode and wait. -/
inductive Front where
  | run
  | skip
  /-- It retires with no effect: an RPT of no repetitions, or a word passed in replay. -/
  | idle
  deriving DecidableEq, Repr

/-- FRAMECNT as a pair. -/
def Core.frameNow (c : Core) : Nat × Nat := (wfld (c.creg crFRAMECNT) 16 48, wfld (c.creg crFRAMECNT) 0 16)

/-- C's word is stamped for this cycle, which is A's too, and issues in it: where both place commands in one queue C's comes
first (R145). -/
def Core.stampFirst (c : Core) : Bool :=
  c.sC.issued && c.sC.stamp == some c.frameNow

/-- The word's stamp (R317): it holds until its cycle, and is STAMPOV after it. -/
def stampHold : Op Unit := do
  let x ← thisStream
  let c ← here
  match x.stamp with
  | none => pure ()
  | some (fr, cy) =>
    let (f, y) := c.frameNow
    if fr < f || (fr = f && cy < y) then fault fcSTAMPOV
    else if fr = f && cy = y then do
      let st ← streamOf
      let s ← get
      if st = .a && c.stampFirst && s.mayIssue s.curCore .c then hold else modStream fun x => { x with stamp := none }
    else hold

/-- The stream's word is executed for the first time: no repetition of an RPT has run (R171). -/
def StreamSt.firstPass (x : StreamSt) (st : Stream) : Bool :=
  match x.rpt with | some (n, _) => n = 0 && st = .v | none => true

/-- The word is the target of an RPT of no repetitions. -/
def StreamSt.rptNone (x : StreamSt) (st : Stream) : Bool :=
  match x.rpt with | some (_, 0) => st = .v | _ => false

/-- The word issues: what it reads of the registers of other streams is fixed from here on. -/
def issueHere : Op Unit := do
  let s ← get
  modStream fun x => { x with issued := true, issuedAt := s.seq, blocked := false }

/-- The wait of W, once for a word and its repetitions. -/
def waitOnce (x : StreamSt) (st : Stream) (w : Nat) : Op Unit :=
  if x.issued then pure ()
  else if !x.firstPass st then issueHere
  else do
    takeWait w
    issueHere

/-- The stamp of C and A. -/
def stampStep (st : Stream) : Op Unit := if st = .c || st = .a then stampHold else pure ()

/-- Decode steps 3 to 9 and the wait of a word. -/
def front (i : Instr) (h : Hdr) : Op Front := do
  preCheck i h
  let st ← streamOf
  let c ← here
  let x := c.stream st
  -- the target of an RPT is skipped or not with the first repetition (R171)
  if x.firstPass st && c.skipped st h then return .skip
  else if isListed i c st && c.replaySkip st then return .idle
  else
    replayHold i h
    waitOnce x st h.w
    stampStep st
    return if x.rptNone st then .idle else .run

/-- Words that an instruction takes in the stream: two with a literal. -/
def spanOf (i : Instr) : Nat := if i.litKind.isSome then 2 else 1

/-- The next issue of M's nest (R263): the next body word, or the next iteration, innermost level fastest. -/
def nestNext (cnt : List Nat) : List Nat → Option (List Nat)
  | [] => none
  | i :: is =>
    match cnt with
    | [] => none
    | n :: ns =>
      match nestNext ns is with
      | some js => some (i :: js)
      | none => if n ≠ 0 && i + 1 < n then some ((i + 1) :: is.map fun _ => 0) else none

def Core.nestCounts (c : Core) : List Nat := (List.range 6).map fun l => (SMap.get 0 c.plane (0x10 + 8 * l)).toNat

def Core.nestStep (c : Core) : Core :=
  match c.nest with
  | none => c
  | some (idx, w) =>
    if w + 1 < (SMap.get 0 c.plane 2).toNat then { c with nest := some (idx, w + 1) }
    else { c with nest := (nestNext c.nestCounts idx).map fun j => (j, 0) }

/-- A nest of the core ends, and M's knowledge with it goes to the markers behind it (R80). -/
def State.nestEnded (s : State) (k : Nat) : State :=
  let c := s.core k
  let tok := s.token (agentOf k .m)
  s.setCore k { c with
    doneClk := SMap.set [] c.doneClk 5 (joinClk (SMap.get [] c.doneClk 5) tok),
    eq := SMap.set [] c.eq 5 ((c.equeue 5).map fun m =>
      if c.nestNo ≤ m.w0.toNat then { m with clk := joinClk m.clk tok } else m) }

/-- The core after a word of a stream; a nest that ends with it hands on what it knows. -/
def State.putAfter (s : State) (k : Nat) (c : Core) : State :=
  let ended := (s.core k).nest.isSome && c.nest.isNone
  let s := s.setCore k c
  if ended then s.nestEnded k else s

/-- The stream leaves a word of span n. -/
def Core.leave (c : Core) (st : Stream) (n : Nat) (go : After) : Core :=
  let words := (c.stream st).code
  let x := c.stream st
  let x := { x with issued := false, taken := none, popped := [], blocked := false, bwaitAt := none, waitOn := 0, code := [] }
  let c := c.setStream st x
  let c := if st = .c then { c with invWait := [] } else if st = .m then { c with drain := none } else c
  match go with
  | .join => if c.act then { c with handlerJoined := true } else c.setStream st { x with joined := true, pc := x.plus x.pc 8 }
  | .jump pc => c.setStream st (x.transfer pc)
  | .seq pc => c.setStream st (passEnd x 7 x.seqr pc)
  | .fall =>
    if st = .m && c.nest.isSome then c.nestStep
    else match st, x.rpt with
      | .v, some (r, total) =>
        if r + 1 < total then c.setStream st { x with rpt := some (r + 1, total), code := words }
        else c.setStream st ({ x with rpt := none }.advance (n + 1))
      | _, _ => c.setStream st (x.advance n)

/-- The last repetition of an RPT's target, or a word that no RPT repeats: its G is raised here (R171). -/
def StreamSt.lastRep (x : StreamSt) : Bool :=
  match x.rpt with
  | some (r, total) => !(r + 1 < total)
  | none => true

/-- Counts raised at retirement: of G (R29) and of SIGNAL (R84). -/
def raises (h : Hdr) (f : Fin) (g : Bool) : List (Bool × Nat × Nat) :=
  (if g && 0x01 ≤ h.g && h.g ≤ 0x3F then [(false, h.g, 1)] else [])
    ++ (if g && 0x41 ≤ h.g && h.g ≤ 0x7F then [(true, h.g - 0x40, 1)] else []) ++ f.add

/-- The counts of a list for one counter of the own core. -/
def localSum (l : List (Bool × Nat × Nat)) (n : Nat) : Nat :=
  l.foldl (fun t p => if !p.1 && p.2.1 = n then t + p.2.2 else t) 0

/-- Apply raises (R77): a counter whose total would pass 65,535 keeps its value, and the word takes SIGOV. -/
def State.applyRaises (s : State) (k st : Nat) (l : List (Bool × Nat × Nat)) (tok : Clk) : State × Bool :=
  let ns := (l.filterMap fun p => if p.1 then none else some p.2.1).eraseDups
  let (s, ov) := ns.foldl (fun (a : State × Bool) n =>
    let c := a.1.core k
    if c.count n + localSum l n ≤ 65535 then (a.1.setCore k (c.addCount n (localSum l n) tok), a.2) else (a.1, true)) (s, false)
  let c := s.core k
  (s.setCore k { c with flight := c.flight ++ (l.filterMap fun p => if p.1 && p.2.2 ≠ 0 then some (p.2.1, p.2.2, st, tok) else none) }, ov)

/-- Retirement of the executing word. -/
def State.retire (s : State) (i : Instr) (h : Hdr) (f : Fin) : State :=
  let k := s.curCore
  let st := s.curStream
  -- LDQ retires when its bytes arrive (R74)
  let g := match i with
    | .rpt .. => true
    | .ldq .. => false
    | _ => !(st = .v) || (s.core k).sV.lastRep
  let s := s.learnPopped k st
  let tok := s.token (agentOf k st)
  let (s, ov) := s.applyRaises k st.num (raises h f g) tok
  let s := { s with seq := s.seq + 1 }
  let s := s.putAfter k ((s.core k).leave st (spanOf i) f.go)
  if ov then s.takeFault k (.ofStream st fcSIGOV 0 0) false else s

/-- The stores that a fetch of the stream from its window must take (R127): its fences name those. -/
def windowBars (x : StreamSt) (st : Stream) (e : WEnt) : Bool :=
  x.vis.any fun p => p.1 == st.num && p.2.1.testBit e.path && knows p.2.2 e.agent e.seq

/-- The word behind the executing one in its stream's window, as a fetch may take it (R127). -/
def nextWord : Op Nat := do
  let s ← get
  let k ← coreId
  let a ← accHere
  let x ← thisStream
  let b ← readCode a (windowBars x s.curStream) (scratchPa k (x.plus x.pc 8).toNat)
  return leNat b

/-- Words that a skipped RPT passes over: a target that takes a literal goes with it. -/
def rptSpan : Op Nat := do
  let w ← nextWord
  return if opOf w = 0x95 && fld w 56 8 ≠ 0xFF then 3 else 2

/-- A skipped word (R31); a skipped RPT passes its target too, and a skipped LSET its whole body (R167). Where they reach
over the end of the running loop's body the pass ends there; of an RPT in the body's last word this is the model's choice,
log entry 99. -/
def State.skip (s : State) (i : Instr) : State :=
  let k := s.curCore
  let st := s.curStream
  let c := (s.core k).setStream st { (s.core k).stream st with code := [] }
  let x := c.stream st
  match i with
  | .lsetLoop _ _ len _ => s.setCore k (c.setStream st (x.advance (len + 1)))
  | .rpt .. =>
    let (n, s) := match rptSpan.run s with | .ok p => p | .error _ => (2, s)
    s.setCore k ((s.core k).setStream st (x.advance n))
  | _ =>
    match st, x.rpt with
    | .v, some _ => s.setCore k (c.setStream st ({ x with rpt := none }.advance (1 + spanOf i)))
    | _, _ => if st = .m && c.nest.isSome then s.putAfter k c.nestStep else s.setCore k (c.setStream st (x.advance (spanOf i)))

/-- V blocks: a fault of A that waits for that is taken, once the entries that A has reserved have filled (R379). -/
def State.vBlocks (s : State) : State :=
  let c := s.core s.curCore
  let filled := [0, 1].all fun q => (c.queue q).all QEnt.ready
  let waits := match c.pend with | some p => p.left.isSome | none => false
  if s.curStream = .v && waits && filled then s.takePending s.curCore else s

/-- The stream is blocked at its word. -/
def State.setBlocked (s : State) : State :=
  let c := s.core s.curCore
  let x := c.stream s.curStream
  s.setCore s.curCore (c.setStream s.curStream { x with blocked := true })

/-- Accesses of A whose translation faults wait for V (R379). -/
def deferrable (i : Instr) (st : Stream) (f : FaultInfo) : Bool :=
  st = .a && (f.code == fcXLATE || f.code == fcPROT) &&
  match i with
  | .ld .. | .st .. | .ldq .. | .stq .. | .amo .. | .cas .. => true
  | _ => false

/-- How an operation of a word that did not retire leaves the state. -/
def State.settle (s : State) (i : Instr) : Stop → State
  | .block => s.setBlocked.vBlocks
  | .hold s' => s'.setBlocked.vBlocks
  | .fault f => s.takeFault s.curCore f (deferrable i s.curStream f)
  | .faultKeep f s' => s'.takeFault s.curCore f (deferrable i s.curStream f)
  | .ended s' => s'

/-- A word passed in replay: it moves the list on and takes no effect (R421). -/
def State.replayPass (s : State) (i : Instr) : State :=
  let k := s.curCore
  let st := s.curStream
  let c := s.core k
  let c := match c.replay st with | some r => c.setReplay st r.pass.live | none => c
  s.setCore k (c.leave st (spanOf i) .fall)

/-- One execution of a word by the executing stream. -/
def State.word (s : State) (i : Instr) (h : Hdr) (body : Op Fin) : State :=
  let k := s.curCore
  let st := s.curStream
  if s.stopDue k then s.takePending k
  else if !s.mayIssue k st then s
  else if st = .c && s.uiReady k && ((s.core k).betweenWords || uiYields i) then s.uiEntry k
  else match (front i h).run s with
    | .error e => s.settle i e
    | .ok (.skip, _) => s.skip i
    | .ok (.idle, s') =>
      if st = .v then s'.retire i h fall else s'.replayPass i
    | .ok (.run, s') =>
      match body.run s' with
      | .ok (f, t) => t.retire i h f
      | .error e => s'.settle i e

/-- A word's execution as a step. -/
def runWord (i : Instr) (h : Hdr) (body : Op Fin) (s : State) : Res := .next (s.word i h body)

/-- A word that only has effects. -/
def runOp (i : Instr) (h : Hdr) (body : Op Unit) (s : State) : Res :=
  runWord i h (do body; return fall) s

/-! Checks of words. -/

/-- Words that a speculative iteration may not execute (R399). One that issued before the dispatch and waits is none of its
words. -/
def noSpec : Op Unit := do
  let c ← here
  let x ← thisStream
  if c.inIter && !x.blocked then fault fcSPECVIOL else pure ()

/-- Every earlier store of the stream is performed for the paths of a mask (R330, R378). -/
def drainOwn (mask : Nat) : Op Unit := do
  let a ← thisAgent
  modify fun s => s.performOwn a mask

end Sys2Proof.Machine
end

