-- ==== Sys2Proof/Machine/Jobs.lean ====
section
/-! DEFINITION. Graphs, nodes and the jobs of cores as words and events change them: HALT (R87), yielding (R433), the
end of a job (R83), and releases by the dispatcher. -/

namespace Sys2Proof.Machine

def State.modGraph (s : State) (slot : Nat) (f : Graph → Graph) : State :=
  { s with graphs := s.graphs.map fun p => if p.1 = slot then (p.1, f p.2) else p }

def State.modNode (s : State) (slot node : Nat) (f : Node → Node) : State :=
  s.modGraph slot fun g => { g with nodes := g.nodes.modify node f }

def State.graph (s : State) (slot : Nat) : Option Graph :=
  match s.graphs.find? fun p => p.1 == slot with
  | some p => some p.2
  | none => none

/-- The cores of the cohort of core k whose jobs have not ended. -/
def State.cohort (s : State) (k : Nat) : List Nat :=
  let c := s.core k
  match s.nodeOf c.slot c.node with
  | some n => n.cores.filter fun j =>
      let d := s.core j
      d.slot == c.slot && d.node == c.node && d.st != .idle
  | none => [k]

/-- HALT (R87): every core of the cohort stops, started commands run on, and the node is halted with the code. A raise
that lands then and would pass its counter's end is lost: the job is over (log entry 37). -/
def State.haltCohort (s : State) (k code : Nat) : State :=
  let c := s.core k
  let s := (s.cohort k).foldl (fun s j =>
    let s := (s.standDown j).1.quiesce j none false
    s.setCore j { s.core j with st := .halting, pend := none, horizon := none }) s
  s.modNode c.slot c.node fun n => if n.st = .running then { n with st := .halted, code := code } else n

/-! Removals of TLB entries (R378, R380). -/

/-- The entry is removed: by address, by address space, or always. -/
def invMatches (k : TlbSub) (va asid : Nat) (e : TlbEnt) : Bool :=
  match k with
  | .va => decide (va < 2 ^ 57) && e.covers asid va
  | .asid => !e.g && e.asid == asid
  | .all => true

def subNum : TlbSub → Nat
  | .va => 0 | .asid => 1 | .all => 2

def subOf (n : Nat) : TlbSub := if n = 0 then .va else if n = 1 then .asid else .all

/-- Writes that went through removed entries are performed for every path: those of the unit into the entries' frames. -/
def State.performFrames (s : State) (unit : WEnt → Bool) (gone : List TlbEnt) : State :=
  if gone.isEmpty then s
  else
    let one := fun (p : Nat × Hist) =>
      if gone.any (fun e => decide (e.pa ≤ p.1) && decide (p.1 < e.pa + e.size)) then
        let h := Hist.norm { p.2 with wr := p.2.wr.map fun e => if unit e then { e with perf := allPaths } else e }
        if h.closed then none else some (p.1, h)
      else some p
    { s with hist := s.hist.filterMap one }

/-- Remove the matching entries of one TLB. -/
def State.tlbRemove (s : State) (r : TlbRef) (unit : WEnt → Bool) (m : TlbEnt → Bool) : State :=
  let l := s.tlbGet r
  (s.performFrames unit (l.filter m)).tlbSet r (l.filter fun e => !m e)

/-- Remove the matching entries of every TLB of a core. -/
def State.tlbRemoveCore (s : State) (k : Nat) (m : TlbEnt → Bool) : State :=
  [0, 1, 2, 3, 4, 5, 8].foldl (fun s n => s.tlbRemove (.core k n) (fun e => e.core == k && e.path == n) m) s

/-- Remove the matching entries of the TLBs outside the cores. -/
def State.tlbRemoveNear (s : State) (m : TlbEnt → Bool) : State :=
  let s := (List.range 4).foldl (fun s x =>
    (s.tlbRemove (.sel x) (fun e => e.path == 6) m).tlbRemove (.red x) (fun e => e.path == 7) m) s
  s.tlbRemove .fab (fun e => e.path == 9) m

/-- The removals that a boundary applies at a core (R380). -/
def State.tlbApplyDue (s : State) (k : Nat) : State :=
  let due := (s.core k).tlbDue
  let s := due.foldl (fun s r => s.tlbRemoveCore k (invMatches (subOf r.sub) r.va r.asid)) s
  s.setCore k { s.core k with tlbDue := [] }

/-! The end of a job. -/

/-- What a core keeps when its job ends: its scratchpad, weight buffer and accumulators (R220, R257), its TLBs and
look-aside buffers, its logs, and the registers that a job start sets again. -/
def Core.endJob (c : Core) : Core :=
  { Core.reset with
    slot := c.slot, node := c.node, owner := c.owner, tlb := c.tlb, clb := c.clb, elog := c.elog, einj := c.einj,
    wbuf := c.wbuf, cell := c.cell, step := c.step,
    cr := (if c.creg crELSEL = 0 then Core.reset.cr else setAll 0 Core.reset.cr [(crELSEL, c.creg crELSEL)]) }

/-- The job of a core is gone: a removal that waited for its boundary is made first (R378). -/
def State.dropJob (s : State) (k : Nat) : State :=
  let s := s.tlbApplyDue k
  s.setCore k (s.core k).endJob

/-- The live masks of a stop at the horizon (R425). -/
def Core.liveAll (c : Core) : Core :=
  let tiles := ((List.range 64).map fun t => if (c.creg crBANKALLOT).getLsbD (t / 4) then 2 ^ t else 0).sum
  let l1 := wfld (c.creg crVALLOT) 0 10 + 0xFFFF * 2 ^ 10 + 0xFFFF * 2 ^ 26
  (c.setCreg crTLIVE0 (BitVec.ofNat 64 tiles)).setCreg crTLIVE1 (BitVec.ofNat 64 l1)

/-- A core of a frame-mode cohort that stands while another yields stops where it stands, so that all are saved at one count
(R311); one that waits at its PPOINT keeps the live masks that this has written. -/
def State.stopStanding (s : State) (k : Nat) : State :=
  let c := s.core k
  if c.st ≠ .running || c.act then s
  else if c.pend.any fun p => p.kind = 1 then s.coreStop k none 1 s.thermStop
  else (s.setCore k c.liveAll).coreStop k none 2 s.thermStop

/-- A yielded core's job ends as pre-empted (R433); the dispatcher takes the node back when all have yielded. In frame mode
the cohort goes with it. -/
def State.yieldCore (s : State) (k : Nat) : State :=
  let c := s.core k
  let s := if c.frame then ((s.cohort k).filter (· ≠ k)).foldl State.stopStanding s else s
  let idx := wfld (c.creg crCOHORT) 0 10
  let s := s.modNode c.slot c.node fun n =>
    { n with yielded := n.yielded ++ [(idx, (c.creg crCTXADDR, c.areaSize), (c.creg crENUSED).toNat)],
             therm := n.therm || (c.creg crTREC0).getLsbD 30 }
  s.dropJob k

/-- A core that has yielded stays with its node until the whole cohort is saved (R289). -/
def State.yieldHeld (s : State) (k : Nat) : Bool :=
  let c := s.core k
  match s.nodeOf c.slot c.node with
  | some n => c.st == .idle && (n.st == .running || n.st == .halted) && n.yielded.any fun p => n.cores.getD p.1 512 == k
  | none => false

/-- The core's command in progress at a near engine. -/
def State.nearRun (s : State) (k e : Nat) : Option Run :=
  let m := if e = 2 then s.sel else s.red
  if e = 2 || e = 3 then (List.range 4).findSome? fun x => (SMap.get NearEng.reset m x).runOf k else none

/-- The started command of engine e that serves the core. -/
def State.started (s : State) (k e : Nat) : Option Run :=
  match (s.core k).runOf e with
  | some r => some r
  | none => s.nearRun k e

/-- Entries held in a command queue: a started command keeps its entry until it retires (R139). -/
def State.cmdFill (s : State) (k e : Nat) : Nat := ((s.core k).equeue e).length + (s.started k e).toList.length

/-- The mask of reply queues that A reads (R144, R292). -/
def State.replyMask (s : State) (k : Nat) : Nat :=
  match s.nodeOf (s.core k).slot (s.core k).node with
  | some n => wfld (n.job.getD 11 0) 0 5
  | none => 0

end Sys2Proof.Machine
end

