-- ==== Sys2Proof/Machine/Regs.lean ====
section
/-! DEFINITION. Control registers as CRD reads and CWR writes them (R95 to R101): the value of each number and its
writable fields. -/

namespace Sys2Proof.Machine

/-- Writable bits of the registers that are held as they stand. -/
def cregMask (n : Nat) : Nat :=
  if n = crFPMODE then 7
  else if n = crFPFLAGS || n = crVFLAGS || n = crMFLAGS then 0x7F
  else if n = crVMODE then 0xF
  else if n = crTVEC then 2 ^ 64 - 128
  else if n = crTREC0 then 0x1FFDFF9F
  else if n = crTREC1 || n = crTREC2 || n = crTREC3 then 2 ^ 64 - 1
  else if n = crUIVEC || n = crUIPC then 2 ^ 64 - 8
  else if n = crUIMASK then 0x1F
  else if n = crUISTAT then 0x1F * 2 ^ 58
  else if crTPCC ≤ n && n ≤ crTPCC + 3 then 2 ^ 64 - 8
  else if n = crCTXADDR then 2 ^ 64 - 64
  else if n = crTLIVE0 then 2 ^ 64 - 1
  else if n = crTLIVE1 then 2 ^ 42 - 1
  else if n = crENBUDGET then 2 ^ 64 - 1
  else if crREGBIND ≤ n && n ≤ crREGBIND + 15 then 2 ^ 64 - 1 - 2 ^ 12
  else if n = crVALLOT then 0x3FF
  else if n = crBANKALLOT then 0xFFFF
  else if n = crSRTAG then 0xFFFFF * 2 ^ 32 + 0xFFFFF
  else if n = crGSEL then 0x37
  else if n = crSMPSEL then 0x3F
  else if n = crXROOT then 2 ^ 52 - 1
  else if n = crELSEL then 0xFF
  else 0

/-- GSEL.strm (R315). -/
def Core.gselStream (c : Core) : Stream :=
  match wfld (c.creg crGSEL) 4 2 with
  | 1 => .a | 2 => .v | _ => .c

/-- The six words of a generator (R315). -/
def Gen.word (g : Gen) : Nat → Nat
  | 0 => fld g.x.toNat 0 64
  | 1 => fld g.x.toNat 64 64
  | 2 => fld g.c.toNat 0 64
  | 3 => fld g.c.toNat 64 64
  | 4 => fld g.x0.toNat 0 64
  | 5 => fld g.x0.toNat 64 64
  | _ => 0

/-- A 128-bit number with its low or high half replaced. -/
def setHalf (x : BitVec 128) (hi : Bool) (v : Nat) : BitVec 128 :=
  if hi then BitVec.ofNat 128 (x.toNat % 2 ^ 64 + v % 2 ^ 64 * 2 ^ 64)
  else BitVec.ofNat 128 (x.toNat / 2 ^ 64 * 2 ^ 64 + v % 2 ^ 64)

def Gen.setWord (g : Gen) (n v : Nat) : Gen :=
  match n with
  | 0 => { g with x := setHalf g.x false v }
  | 1 => { g with x := setHalf g.x true v }
  | 2 => { g with c := setHalf g.c false v ||| 1 }
  | 3 => { g with c := setHalf g.c true v }
  | 4 => { g with x0 := setHalf g.x0 false v }
  | 5 => { g with x0 := setHalf g.x0 true v }
  | _ => g

def Slot.reset : Slot := ⟨0, 0, 0, []⟩

def Core.slotShown (c : Core) : Nat := wfld (c.creg crSMPSEL) 0 6

/-- The error log that ELSEL shows; none for an array that does not exist. -/
def Core.logShown (c : Core) : Option ELog :=
  let a := wfld (c.creg crELSEL) 0 8
  if a < 20 then some (SMap.get .zero c.elog a) else none

/-- The value of control register n of core k (R100). VFLAGS and MFLAGS include every flag raised so far, which R61 leaves
open for those that no order puts before the CRD: the model's choice, log entry 95. -/
def Core.crdVal (c : Core) (k n : Nat) : Word :=
  if n = crCORE then BitVec.ofNat 64 k
  else if n = crDMEM then setFld (c.creg crDMEM) 0 9 k
  else if n = crTREC0 then setFld (c.creg crTREC0) 17 1 (if c.horizon.isSome then 1 else wfld (c.creg crTREC0) 17 1)
  else if n = crGDATA then BitVec.ofNat 64 ((c.gen c.gselStream).word (wfld (c.creg crGSEL) 0 3))
  else if n = crSMPPOS then
    let x := SMap.get Slot.reset c.smp c.slotShown
    BitVec.ofNat 64 (x.last * 2 ^ 32 + x.pos)
  else if n = crSMPST then BitVec.ofNat 64 (SMap.get Slot.reset c.smp c.slotShown).st
  else if n = 0x091 then BitVec.ofNat 64 ((c.logShown.map ELog.addr).getD 0)
  else if n = 0x092 then BitVec.ofNat 64 ((c.logShown.map ELog.status).getD 0)
  else if n = 0x093 then BitVec.ofNat 64 ((c.logShown.map ELog.ctx).getD 0)
  else if n = 0x094 then BitVec.ofNat 64 ((c.logShown.map ELog.frame).getD 0)
  else if n = crEINJ then c.einj
  else c.creg n

/-- A register with its writable fields replaced (R101). -/
def maskWrite (old : Word) (mask : Nat) (v : Word) : Word :=
  (old &&& ~~~(BitVec.ofNat 64 mask)) ||| (v &&& BitVec.ofNat 64 mask)

/-- Registers that V, A or an engine reads without order (R99). -/
def isWeakReg (n : Nat) : Bool :=
  n == crFPMODE || n == crVMODE || n == crSRTAG || n == crVALLOT || weakAccRegs.contains n

/-- The sampler has a command of the core that has not retired. -/
def Core.smpBusy (c : Core) : Bool :=
  (c.runOf 4).isSome || (c.equeue 4).any fun m => match m.kind with | .marker .. => false | _ => true

/-- CWR of register n of the executing core (R99, R101, R315, R405, R443, R445). -/
def cwr (n : Nat) (v : Word) : Op Unit := do
  let c ← here
  if n = crGDATA then
    let st := c.gselStream
    let g := c.gen st
    let g' := g.setWord (wfld (c.creg crGSEL) 0 3) v.toNat
    noteOld (keyGen st.num) g.nat g'.nat
    modHere fun c => c.setGen st g'
  else if n = crSMPPOS || n = crSMPST then
    guardBlock (!c.smpBusy)
    let x := SMap.get Slot.reset c.smp c.slotShown
    let x := if n = crSMPPOS then { x with pos := v.toNat % 2 ^ 32 } else { x with st := v.toNat % 4 }
    putHere { c with smp := SMap.set .reset c.smp c.slotShown x }
  else if n = 0x092 then
    let a := wfld (c.creg crELSEL) 0 8
    if wfld v 62 2 = 0 && a < 20 then putHere { c with elog := SMap.set .zero c.elog a .zero } else pure ()
  else if n = crEINJ then
    putHere { c with einj := maskWrite c.einj (0xFFFFFFFF * 2 ^ 32 + 0xFF) v }
  else
    let old := c.creg n
    let new := maskWrite old (cregMask n) v
    if isWeakReg n then noteOld n old.toNat new.toNat else pure ()
    modHere fun c => c.setCreg n new

end Sys2Proof.Machine
end

