-- ==== Sys2Proof/Machine/Control.lean ====
section
/-! DEFINITION. Words of chapters 05 and 06 that steer streams: NOP and hints, JOIN, SIGNAL, MARK, HALT, JWAIT, TRAP
(R82 to R88), FENCE (R330), STAMP (R317), PPOINT and ERET (R431, R432), CRD and CWR (R100, R101), BR, JMP, CALL and RET
(R114 to R116) and UIRET (R254). -/

namespace Sys2Proof.Machine

def execNop (h : Hdr) (s : State) : Res := runOp (.nop h) h (pure ()) s

/-- A hint takes its wait, raises its signal and does nothing else (R48). -/
def execHint (h : Hdr) (n : Nat) (s : State) : Res := runOp (.hint h n) h (pure ()) s

/-! JOIN (R82, R265). -/

/-- Every earlier access of the stream has retired: of A, its reserved queue entries have their bytes. -/
def Core.accessesDone (c : Core) (st : Stream) : Bool :=
  match st with
  | .a => (List.range 2).all fun q => (c.queue q).all QEnt.ready
  | _ => true

/-- A stream's sticky flags (R61); A has none. -/
def Core.flagsOf (c : Core) : Stream → Flags
  | .c => (c.creg crFPFLAGS).setWidth 7
  | .v => (c.creg crVFLAGS).setWidth 7
  | .m => (c.creg crMFLAGS).setWidth 7
  | .a => 0

/-- M's JOIN waits, no word in flight (R263). -/
def State.parkJoin (s : State) : State :=
  let c := s.core s.curCore
  let c := { c with joinWait := some c.sM.taken }
  s.setCore s.curCore { c with sM := { c.sM with issued := false, taken := none, blocked := true } }

/-- M's JOIN goes on with the wait that it has taken. -/
def State.unparkJoin (s : State) : State :=
  let c := s.core s.curCore
  match c.joinWait with
  | some t =>
    if s.curStream = .m && c.nest.isNone && s.mayIssue s.curCore .m && !s.stopDue s.curCore then
      s.setCore s.curCore { c with joinWait := none, sM := { c.sM with issued := true, taken := t } }
    else s
  | none => s

def joinOp : Op Fin := do
  noSpec
  let st ← streamOf
  let c ← here
  guardBlock (c.accessesDone st)
  if st = .m && !(c.sC.joined && c.nest.isNone) then do
    let s ← get
    throw (.ended s.parkJoin)
  else do
    -- the stream's flags go to the job's (R63)
    modify fun s => s.modNode c.slot c.node fun n => { n with flags := n.flags ||| c.flagsOf st }
    return ⟨.join, []⟩

def execJoin (h : Hdr) (s : State) : Res := runWord (.join h) h joinOp s.unparkJoin

/-- SIGNAL (R84): the count is added at retirement. -/
def execSignal (h : Hdr) (n : Nat) (cpl : Bool) (c : Nat) (s : State) : Res :=
  runWord (.signal h n cpl c) h (pure ⟨.fall, if n = 0 then [] else [(cpl, c, n)]⟩) s

/-! MARK (R79, R85). -/

/-- Entries of a command queue (R139). -/
def cmdDepth : Nat := 16

def newCmdId : Op Nat := do
  modify fun s => { s with cmdId := s.cmdId + 1 }
  let s ← get
  return s.cmdId

/-- A marker of Jn (R79), with the number of the last nest before it, which one of the matrix engine waits for (R80). -/
def markerCmd (j gen e k id nest : Nat) (tag : Word) (clk : Clk) : Cmd :=
  ⟨.marker j gen, BitVec.ofNat 64 nest, 0, 0, 0, tag, e, 0, k, id, none, none, clk, [], false, none⟩

/-- Place markers at the tails of the named engines' queues, behind all that the engines have done. The matrix engine's of
a handler is held at a stop, for M goes on only after the handler. -/
def Core.placeMarkers (c : Core) (j gen e k id : Nat) (tag : Word) (clk : Clk) : Core :=
  (List.range 6).foldl (fun c n =>
    if e.testBit n then
      let m := markerCmd j gen n k id (if n = 5 then c.nestNo else 0) tag (joinClk clk (SMap.get [] c.doneClk n))
      c.setEqueue n (c.equeue n ++ [if n = 5 && c.act then { m with again := true } else m])
    else c) c

/-- Arm Jn: a new generation, and fired at once when no engine is named. -/
def Core.armRdv (c : Core) (j e : Nat) (tok : Clk) : Core :=
  let r := SMap.get Rdv.reset c.rdv j
  { c with rdv := SMap.set .reset c.rdv j ⟨e = 0, e, (r.gen + 1) % 256, if e = 0 then tok else [], e⟩ }

def markOp (j e : Nat) : Op Unit := do
  let c ← here
  let k ← coreId
  let st ← streamOf
  let s ← get
  guardBlock ((List.range 5).all fun n => !e.testBit n || s.cmdFill k n < cmdDepth)
  let id ← newCmdId
  let tok ← tokenHere
  let c1 := c.armRdv j e tok
  let gen := (SMap.get Rdv.reset c1.rdv j).gen
  let c2 := c1.placeMarkers j gen e k id c.sC.pc tok
  putHere (c2.note c st id)

def execMark (h : Hdr) (j e : Nat) (s : State) : Res := runOp (.mark h j e) h (markOp j e) s

/-! HALT (R87): it raises no signal and does not retire. -/

def haltOp (a : Nat) : Op Fin := do
  noSpec
  let x ← rdS a
  let c ← here
  let s ← get
  let code := x.toNat % 2 ^ 32
  if c.framed then
    let p := c.pend.getD ⟨none, 0, false, none, none⟩
    throw (.ended (s.setCore s.curCore { c with pend := some { p with halt := some code } }))
  else throw (.ended (s.haltCohort s.curCore code))

def execHalt (h : Hdr) (a : Nat) (s : State) : Res := runWord (.halt h a) h (haltOp a) s

/-- JWAIT (R86). -/
def jwaitOp (d : Nat) (any : Bool) (mask : Nat) : Op Unit := do
  let c ← here
  let regs := (List.range 16).filter fun n => mask.testBit n
  let fired := regs.filter fun n => (SMap.get Rdv.reset c.rdv n).fired
  guardBlock (regs.isEmpty || (if any then !fired.isEmpty else fired.length == regs.length))
  fired.forM fun n => learnHere (SMap.get Rdv.reset c.rdv n).clk
  wrS d (BitVec.ofNat 64 (fired.foldl (fun x n => x + 2 ^ n) 0))

def execJwait (h : Hdr) (d : Nat) (any : Bool) (mask : Nat) (s : State) : Res :=
  runOp (.jwait h d any mask) h (jwaitOp d any mask) s

/-- TRAP (R88): the address field holds S[a], the status field the code. -/
def execTrap (h : Hdr) (a code : Nat) (s : State) : Res :=
  runOp (.trap h a code) h (do
    let x ← rdS a
    faultAt fcTRAP x (BitVec.ofNat 64 code)) s

/-! FENCE (R330). -/

/-- Later commands of the stream at an engine path see the writes by a mask of paths that are known (R330). -/
def addVis (vis : List (Nat × Nat × Clk)) (p mask : Nat) (clk : Clk) : List (Nat × Nat × Clk) :=
  let same := fun (v : Nat × Nat × Clk) => v.1 == p && v.2.1 == mask
  let old := (vis.find? same).elim [] fun v => v.2.2
  vis.filter (fun v => !same v) ++ [(p, mask, joinClk old clk)]

/-- What the commands of an engine path see by the stream's fences: masks with what each fence knew. -/
def StreamSt.visOf (x : StreamSt) (p : Nat) : List (Nat × Clk) :=
  (x.vis.filter fun v => v.1 == p).map Prod.snd

/-- What the executing stream knows of the events of paths of a mask. -/
def fenceOp (mask : Nat) : Op Unit := do
  let c ← here
  let a ← thisAgent
  let st ← streamOf
  -- in frame mode visibility is that of R310 alone
  if c.framed then pure ()
  else
    drainOwn mask
    let s ← get
    let clk := SMap.get [] s.clk a
    set (s.performKnown clk mask (2 ^ st.num))
    -- its later commands at the engines named, and its later fetches (R127)
    let paths := (List.range 9).filter fun p => (4 ≤ p || p = st.num) && mask.testBit p
    modStream fun x => { x with vis := paths.foldl (fun v p => addVis v p mask clk) x.vis }

def execFence (h : Hdr) (mask : Nat) (s : State) : Res := runOp (.fence h mask) h (fenceOp mask) s

/-- STAMP (R317). -/
def stampOp (a : Nat) (abs : Bool) (cyc : Nat) : Op Unit := do
  let c ← here
  let x ← rdS a
  if !c.frame then pure ()
  else
    guardFault (cyc < 2 ^ wfld (c.creg crFRAMECFG) 16 5) fcILLOP
    let fr := if abs then x.toNat % 2 ^ 48 else (c.frameNow).1
    modStream fun x => { x with stamp := some (fr, cyc) }

def execStamp (h : Hdr) (a : Nat) (abs : Bool) (cyc : Nat) (s : State) : Res :=
  runOp (.stamp h a abs cyc) h (stampOp a abs cyc) s

/-! PPOINT (R425, R431). -/

def ppointOp (a b : Nat) : Op Unit := do
  let x ← rdS a
  let y ← rdS b
  let c ← here
  if c.horizon.isNone || c.act then pure ()
  else
    modHere fun c => c.setCreg crTLIVE0 x
    modHere fun c => c.setCreg crTLIVE1 (y &&& BitVec.ofNat 64 (2 ^ 42 - 1))
    let s ← get
    if c.frame then
      let c := s.core s.curCore
      let p := c.pend.getD ⟨none, 0, false, none, none⟩
      throw (.ended (s.setCore s.curCore { c with pend := some { p with kind := 1, th := s.thermStop } }))
    else if (s.core s.curCore).atRetirement then throw (.ended (s.coreStop s.curCore none 1 s.thermStop))
    else
      -- M goes on to its retirement point first (R418)
      let c := s.core s.curCore
      throw (.ended (s.setCore s.curCore { c with pend := some { c.pend.getD ⟨none, 0, false, none, none⟩ with
        kind := 1, th := s.thermStop } }))

def execPpoint (h : Hdr) (a b : Nat) (s : State) : Res := runOp (.ppoint h a b) h (ppointOp a b) s

/-! ERET (R422, R432). -/

/-- The barrier of a command as it is now: resolved and its phase read through the bank ALU (R228). -/
def barrierNow (a : Acc) (va : Nat) : Op (Nat × Nat) := do
  let pa ← bankTarget a .rmw va 16
  let b ← bankRead a va pa 16
  return (pa, barPhase b)

/-- A held command is placed with its barrier read again; what fails is kept for its start (R422). -/
def Cmd.rebind (m : Cmd) (s : State) (k : Nat) : Cmd × State :=
  match m.kind, m.barVa with
  | .go, some va =>
    match (barrierNow { (s.core k).accCmd m with writer := none } va).run s with
    | .ok (b, s') => ({ m with bar := some b, barFault := none, again := true, core := k }, s')
    | .error (.fault f) =>
      ({ m with bar := none, barFault := some (f.code, (f.xf.getD 0).toNat, f.addr), again := true, core := k }, s)
    | .error _ => ({ m with bar := none, again := true, core := k }, s)
  | _, _ => ({ m with again := true, core := k }, s)

/-- Place commands again, in their order, at the heads of their queues. -/
def State.replace (s : State) (k : Nat) (ms : List Cmd) : State :=
  let (placed, s) := ms.foldl (fun (p : List Cmd × State) m =>
    let (m', s') := m.rebind p.2 k
    (p.1 ++ [m'], s')) ([], s)
  s.setCore k ((List.range 6).foldl (fun c e => c.setEqueue e (placed.filter (fun m => m.eng == e) ++ c.equeue e)) (s.core k))

/-- M's resumption (R265, R432). A nest whose faulting body word the trap record names goes on at the body word that TPCM
names, past its iteration where TPCM is the address behind the body, and at its own word where TPCM is no address of the
body, which then becomes the sequential PC (log entry 26). -/
def Core.resumeM (c : Core) (tpcm : Word) : Core :=
  match c.nestPc, c.nest with
  | some pc, some (idx, _) =>
    let blen := (SMap.get 0 c.plane 2).toNat
    match (List.range (blen + 1)).find? fun w => c.nestAddr w == wordPc tpcm with
    | some w =>
      let c := { c with nestPc := none, sM := { c.sM with pc := pc } }
      if w < blen then { c with nest := some (idx, w) }
      else { c with nest := some (idx, blen - 1) }.nestStep
    | none => { c with nestPc := none, sM := { c.sM with pc := tpcm } }
  | _, _ => { c with nestPc := none, sM := { c.sM with pc := tpcm } }

/-- Leaving the handler: mode, banks and PCs of the trap record, and the commands that are placed again (R432). -/
def State.leaveHandler (s : State) (k : Nat) : State :=
  let c := s.core k
  let t := c.creg crTREC0
  let again := if t.getLsbD 18 then c.failing.toList else []
  let s := s.setCore k { c with failing := none, held := [] }
  let s := s.replace k (again ++ c.held.map Held.cmd)
  let c := (s.core k).swapTrap
  let u := setFld (c.creg crUISTAT) 63 1 (wfld t 16 1)
  let t' := setFld (setFld (setFld t 29 1 0) 7 2 0) 17 1 0
  let c := (c.setCreg crTREC0 t').setCreg crUISTAT u
  let pcV := c.creg (crTPCC + 2)
  s.putAfter k ({ c with
    sup := t.getLsbD 15, resume := false, horizonHeld := false,
    sA := { c.sA with pc := c.creg (crTPCC + 1) },
    sV := { c.sV with pc := pcV, rpt := if pcV = c.sV.pc then c.sV.rpt else none } }.resumeM (c.creg (crTPCC + 3)))

def eretOp : Op Fin := do
  let c ← here
  guardFault c.act fcILLOP
  drainOwn allPaths
  let pc := c.creg crTPCC
  modify fun s => s.leaveHandler s.curCore
  return ⟨.jump pc, []⟩

def execEret (h : Hdr) (s : State) : Res := runWord (.eret h) h eretOp s

/-! CRD and CWR. -/

/-- CRD (R100): the value as it stands at issue. -/
def execCrd (h : Hdr) (d n : Nat) (s : State) : Res :=
  runOp (.crd h d n) h (do
    let c ← here
    let k ← coreId
    wrS d (c.crdVal k n)) s

/-- CWR (R101). -/
def execCwr (h : Hdr) (a n : Nat) (s : State) : Res :=
  runOp (.cwr h a n) h (do
    let x ← rdS a
    cwr n x) s

/-! Control flow. -/

/-- The condition of BR (R114). -/
def brTaken (k : BrCond) (x : Word) : Bool :=
  match k with
  | .z => x == 0
  | .nz => x != 0
  | .lt => decide (x.toInt < 0)
  | .ge => decide (0 ≤ x.toInt)
  | .gt => decide (0 < x.toInt)
  | .le => decide (x.toInt ≤ 0)
  | .odd => x.getLsbD 0
  | .even => !x.getLsbD 0
  | .al => true

/-- A target off words from the executing word, round the window in A (R117). -/
def relTarget (w off : Nat) : Op Word := do
  let x ← thisStream
  return x.plus x.pc (8 * sx w off)

def execBr (h : Hdr) (k : BrCond) (c off : Nat) (s : State) : Res :=
  runWord (.br h k c off) h (do
    let x ← rdS c
    let t ← relTarget 28 off
    return if brTaken k x then ⟨.jump t, []⟩ else fall) s

/-- The next PC is S[a] + 8 * x (R115). -/
def jumpTo (a off : Nat) : Op Fin := do
  let x ← rdS a
  guardAddr (x.toNat % 8 = 0) fcALIGN x.toNat
  let st ← thisStream
  return ⟨.jump (st.plus x (8 * sx 20 off)), []⟩

def execJmp (h : Hdr) (a off : Nat) (s : State) : Res := runWord (.jmp h a off) h (jumpTo a off) s

/-- CALL (R116). -/
def execCall (h : Hdr) (c off : Nat) (s : State) : Res :=
  runWord (.call h c off) h (do
    let x ← thisStream
    let t ← relTarget 28 off
    wrS c (x.pc + 8)
    return ⟨.jump t, []⟩) s

/-- RET acts as JMP with x = 0 (R116). -/
def execRet (h : Hdr) (a : Nat) (s : State) : Res := runWord (.ret h a) h (jumpTo a 0) s

/-- UIRET (R254). -/
def uiretOp : Op Fin := do
  let c ← here
  guardFault ((c.creg crUISTAT).getLsbD 63) fcILLOP
  -- C has the job's mode again (log entry 93)
  modHere fun c => { (c.setCreg crUISTAT (setFld (c.creg crUISTAT) 63 1 0)).swapShadow with
    sup := if c.act then c.sup else c.jobSup }
  return ⟨.jump (c.creg crUIPC), []⟩

def execUiret (h : Hdr) (s : State) : Res := runWord (.uiret h) h uiretOp s

end Sys2Proof.Machine
end

