-- ==== Sys2Proof/Machine/Float.lean ====
section
/-! DEFINITION. Floating words of C (R109 to R113) and the fused multiply-adds with a constant (R136). -/

namespace Sys2Proof.Machine

/-- A rounding-mode number of FPMODE or BFMT (R40, R57) with the 32 bits of a stochastic mode. -/
def modeOfCode (code b : Nat) : RMode :=
  match code with
  | 1 => .rtz | 2 => .down | 3 => .up | 4 => .away | 5 => .stoch b | 6 => .stoch b | _ => .rne

def crsrtag (c : Core) : Nat := wfld (c.creg crSRTAG) 0 20

/-- The rounding of one result of C (R40, R59, R110): lin is 0; the stream mode draws once for the result. -/
def cMode (m : Rnd) : Op RMode := do
  let code ← match m with
    | .dyn => rdFpmode
    | .rne => pure 0
    | .rtz => pure 1
    | .srk => pure 5
  let c ← here
  if code = 5 then return .stoch (keyed c.genC 0 (crsrtag c) % 2 ^ 32)
  else if code = 6 then do
    let o ← genNext
    return .stoch (o % 2 ^ 32)
  else return modeOfCode code 0

def ftFmt : FTy → FFmt
  | .f64 => fmt64 | .f32 => fmt32

/-- An operand in type t (R91). -/
def rdF (t : FTy) (r : Nat) : Op Val := do
  let x ← rdS r
  return (ftFmt t).unpack (x.toNat % 2 ^ (ftFmt t).bits)

/-- A result and its flags (R91, R110). -/
def wrF (d : Nat) (r : Nat × Flags) : Op Unit := do
  wrS d (BitVec.ofNat 64 r.1)
  raiseFlags r.2

/-- S[d] := f(mode, X, Y). -/
def fpu2 (f : FFmt → RMode → Val → Val → Nat × Flags) (t : FTy) (m : Rnd) (d a b : Nat) : Op Unit := do
  let x ← rdF t a
  let y ← rdF t b
  let mode ← cMode m
  wrF d (f (ftFmt t) mode x y)

/-- S[d] := Round(X * Y + Z). -/
def fpuFma (t : FTy) (m : Rnd) (d : Nat) (x y z : Val) : Op Unit := do
  let mode ← cMode m
  wrF d (fFma (ftFmt t) mode x y z)

def fpuMinMax (isMax : Bool) (t : FTy) (d a b : Nat) : Op Unit := do
  let x ← rdS a
  let y ← rdS b
  wrF d (fminmax (ftFmt t) isMax (x.toNat % 2 ^ (ftFmt t).bits) (y.toNat % 2 ^ (ftFmt t).bits))

def cvTy : CvtTy → Ty
  | .f64 => .f64 | .f32 => .f32 | .i64 => .i64 | .i32 => .i32

/-- FCVT (R64, R113): an integer result is written sign-extended (R91). -/
def fpuCvt (sTy tTy : CvtTy) (m : Rnd) (d a : Nat) : Op Unit := do
  let x ← rdS a
  let p := x.toNat % 2 ^ (cvTy sTy).width
  let r ← if !convRounds (cvTy sTy) (cvTy tTy) then
      -- no rounding, so no draw
      pure (convert (cvTy sTy) (cvTy tTy) .rne false p)
    else do
      let mode ← cMode m
      pure (convert (cvTy sTy) (cvTy tTy) mode false p)
  wrS d (if (cvTy tTy).isFloat then BitVec.ofNat 64 r.1 else BitVec.ofInt 64 (sval (cvTy tTy).width r.1))
  raiseFlags r.2

/-- A truncated float of a 20-bit immediate (R128). -/
def imm20 (t : FTy) (imm : Nat) : Val :=
  match t with
  | .f64 => fmt64.unpack (imm % 2 ^ 20 * 2 ^ 44)
  | .f32 => fmt32.unpack (imm % 2 ^ 20 * 2 ^ 12)

/-- Entry n of the constant bank as the executing stream may see it (R133). -/
def rdK (n : Nat) : Op Nat := do
  arrayRead 19 n 1
  let c ← here
  rdWeak (keyK n) (SMap.get 0 c.k n).toNat

/-! Meanings. -/

def execFadd (h : Hdr) (t : FTy) (m : Rnd) (d a b : Nat) (s : State) : Res :=
  runOp (.fadd h t m d a b) h (fpu2 fAdd t m d a b) s
def execFsub (h : Hdr) (t : FTy) (m : Rnd) (d a b : Nat) (s : State) : Res :=
  runOp (.fsub h t m d a b) h (fpu2 fSub t m d a b) s
def execFmul (h : Hdr) (t : FTy) (m : Rnd) (d a b : Nat) (s : State) : Res :=
  runOp (.fmul h t m d a b) h (fpu2 fMul t m d a b) s
def execFdiv (h : Hdr) (t : FTy) (m : Rnd) (d a b : Nat) (s : State) : Res :=
  runOp (.fdiv h t m d a b) h (fpu2 fDiv t m d a b) s

def execFsqrt (h : Hdr) (t : FTy) (m : Rnd) (d a : Nat) (s : State) : Res :=
  runOp (.fsqrt h t m d a) h (do
    let x ← rdF t a
    let mode ← cMode m
    wrF d (fSqrt (ftFmt t) mode x)) s

def execFma (h : Hdr) (t : FTy) (m : Rnd) (d a b c : Nat) (s : State) : Res :=
  runOp (.fma h t m d a b c) h (do
    let x ← rdF t a
    let y ← rdF t b
    let z ← rdF t c
    fpuFma t m d x y z) s

def execFmin (h : Hdr) (t : FTy) (d a b : Nat) (s : State) : Res :=
  runOp (.fmin h t d a b) h (fpuMinMax false t d a b) s
def execFmax (h : Hdr) (t : FTy) (d a b : Nat) (s : State) : Res :=
  runOp (.fmax h t d a b) h (fpuMinMax true t d a b) s

def execFcmp (h : Hdr) (k : FCond) (t : FTy) (d a b : Nat) (s : State) : Res :=
  runOp (.fcmp h k t d a b) h (do
    let x ← rdF t a
    let y ← rdF t b
    let r := fcompare k x y
    wrF d (r.1.toNat, r.2)) s

def execFcvt (h : Hdr) (sTy tTy : CvtTy) (m : Rnd) (d a : Nat) (s : State) : Res :=
  runOp (.fcvt h sTy tTy m d a) h (fpuCvt sTy tTy m d a) s

/-- FMAI: S[d] is the multiplicand (R136). -/
def execFmai (h : Hdr) (t : FTy) (m : Rnd) (d b imm : Nat) (s : State) : Res :=
  runOp (.fmai h t m d b imm) h (do
    let x ← rdF t d
    let y ← rdF t b
    fpuFma t m d x y (imm20 t imm)) s

def execFmal (h : Hdr) (t : FTy) (m : Rnd) (d a b lit : Nat) (s : State) : Res :=
  runOp (.fmal h t m d a b lit) h (do
    let x ← rdF t a
    let y ← rdF t b
    let z := match t with
      | .f64 => fmt64.unpack (lit % 2 ^ 48 * 2 ^ 16)
      | .f32 => fmt32.unpack (lit % 2 ^ 32)
    fpuFma t m d x y z) s

def execFmak (h : Hdr) (t : FTy) (m : Rnd) (d a b n : Nat) (s : State) : Res :=
  runOp (.fmak h t m d a b n) h (do
    let x ← rdF t a
    let y ← rdF t b
    let k ← rdK n
    fpuFma t m d x y ((ftFmt t).unpack (k % 2 ^ (ftFmt t).bits))) s

end Sys2Proof.Machine
end

