-- ==== Sys2Proof/Machine/MemOps.lean ====
section
/-! DEFINITION. Loads and stores outside the command ports (R118 to R121), the constant bank (R137), and the bank-ALU
words AMO, CAS, ACQ, REL, BARM and BWAIT (R229 to R235, R333 to R336). -/

namespace Sys2Proof.Machine

/-! LD and ST (R118, R119, R121). -/

/-- Bytes of an access. -/
def ldLen : LdKind → Nat
  | .u8 | .s8 => 1 | .u16 | .s16 => 2 | .u32 | .s32 => 4 | .x64 => 8 | .x128 => 16

def stLen : StKind → Nat
  | .b8 => 1 | .b16 => 2 | .b32 => 4 | .b64 => 8 | .b128 => 16

/-- Size of the atomic unit that an access asks for; 0 for the default units (R328). -/
def atUnit : At → Nat
  | .dflt => 0 | .a8 => 8 | .a16 => 16

/-- The value of a narrow load (R119). -/
def ldExtend (k : LdKind) (n : Nat) : Word :=
  match k with
  | .s8 => BitVec.ofInt 64 (sx 8 n)
  | .s16 => BitVec.ofInt 64 (sx 16 n)
  | .s32 => BitVec.ofInt 64 (sx 32 n)
  | _ => BitVec.ofNat 64 n

/-- The access touches the local MMIO window. -/
def touchesWindow (va len : Nat) : Bool := va < 0x410000 && 0x400000 < va + len

/-- Index of a staging word (R239). -/
def stagingKey (st : Stream) (port k : Nat) : Nat := (if st = .a then 32 else 0) + 4 * port + k

/-- Where an offset in the MMIO window lies. -/
inductive Mmio where
  | staging (port k : Nat)
  | go (port : Nat)
  | bfmt (b : Nat)
  | none
  deriving DecidableEq, Repr

def mmioAt (va : Nat) : Mmio :=
  let o := va - 0x400000
  if o < 0x140 then
    match o % 64 / 8 with
    | 0 => .staging (o / 64) 0 | 1 => .staging (o / 64) 1 | 2 => .staging (o / 64) 2 | 3 => .staging (o / 64) 3
    | 4 => .go (o / 64)
    | _ => .none
  else if 0x1000 ≤ o && o < 0x1080 then .bfmt ((o - 0x1000) / 8)
  else .none

/-- A load of a register of the window (R222, R238). -/
def mmioRead (va : Nat) : Op Word := do
  let c ← here
  let k ← coreId
  let st ← streamOf
  match mmioAt va with
  | .staging p n => return SMap.get 0 c.staging (stagingKey st p n)
  | .go e => do
    let s ← get
    return BitVec.ofNat 64 (s.cmdFill k e)
  | .bfmt b => return SMap.get 0 c.bfmt b
  | .none => return 0

/-- A store to a register of the window other than GO. -/
def mmioWrite (va : Nat) (v : Word) : Op Unit := do
  let c ← here
  let st ← streamOf
  match mmioAt va with
  | .staging p n => putHere { c with staging := SMap.set 0 c.staging (stagingKey st p n) v }
  | .bfmt b =>
    let new := v &&& 0x7F
    noteOld (keyBfmt b) (SMap.get 0 c.bfmt b).toNat new.toNat
    modHere fun c => { c with bfmt := SMap.set 0 c.bfmt b new }
  | _ => pure ()

/-- Read memory in the units asked for: one piece for each atomic unit. -/
def readUnits (a : Acc) (unit va len : Nat) : Op Nat := do
  if unit = 0 then readNat a false va len
  else if unit < len then do
    let lo ← readNat a true va unit
    let hi ← readNat a true ((va + unit) % 2 ^ 64) (len - unit)
    return lo + hi * 2 ^ (8 * unit)
  else readNat a true va len

def writeUnits (a : Acc) (unit va : Nat) (bytes : List Byte) : Op Unit := do
  if unit = 0 then writeBytes a false va bytes
  else if unit < bytes.length then do
    let lo ← chunks a .write va unit
    let hi ← chunks a .write ((va + unit) % 2 ^ 64) (bytes.length - unit)
    let s ← get
    -- no unit is written before both can be (R26)
    bufferRoom a (s.toBuffer a (lo ++ hi))
    writeChunks a true lo (bytes.take unit)
    writeChunks a true hi (bytes.drop unit)
  else writeBytes a true va bytes

/-- LD: the address, the checks, the bytes, and the destination. -/
def ldOp (k : LdKind) (at_ : At) (d a off : Nat) : Op Unit := do
  let x ← rdS a
  let va := (addOff x 14 off).toNat
  guardAddr (atUnit at_ = 0 || va % atUnit at_ = 0) fcALIGN va
  if touchesWindow va (ldLen k) then
    guardAddr (k == .x64 && va % 8 == 0) fcALIGN va
    let v ← mmioRead va
    wrS d v
  else
    let acc ← accHere
    let n ← readUnits acc (atUnit at_) va (ldLen k)
    match k with
    | .x128 => wrPair d (BitVec.ofNat 64 n) (BitVec.ofNat 64 (n / 2 ^ 64))
    | _ => wrS d (ldExtend k n)

def execLd (h : Hdr) (k : LdKind) (at_ : At) (d a off : Nat) (s : State) : Res :=
  runOp (.ld h k at_ d a off) h (ldOp k at_ d a off) s

/-- The bytes that ST writes (R119). -/
def stBytes (k : StKind) (d : Nat) : Op (List Byte) := do
  match k with
  | .b128 => do
    let (lo, hi) ← rdPair d
    return leBytes 8 lo.toNat ++ leBytes 8 hi.toNat
  | _ => do
    let v ← rdS d
    return leBytes (stLen k) v.toNat

/-- ST to memory. -/
def stMem (k : StKind) (at_ : At) (d va : Nat) : Op Unit := do
  let b ← stBytes k d
  let acc ← accHere
  writeUnits acc (atUnit at_) va b

/-! KLD (R137). -/

/-- Write entry n of the constant bank. -/
def wrK (n : Nat) (v : Word) : Op Unit := do
  let c ← here
  noteOld (keyK n) (SMap.get 0 c.k n).toNat v.toNat
  arrayWrite 19 n 1
  modHere fun c => { c with k := SMap.set 0 c.k n v }

def wrKs (n : Nat) : List Nat → Op Unit
  | [] => pure ()
  | v :: vs => do
    wrK n (BitVec.ofNat 64 v)
    wrKs (n + 1) vs

/-- The words at an address, each in one unit or in those of LD (R328). -/
def readWordsIn (a : Acc) (one : Bool) (va : Nat) : Nat → Op (List Nat)
  | 0 => pure []
  | n + 1 => do
    let x ← readNat a one va 8
    let xs ← readWordsIn a one ((va + 8) % 2 ^ 64) n
    return x :: xs

def readWords (a : Acc) (va n : Nat) : Op (List Nat) := readWordsIn a false va n

def execKldLd (h : Hdr) (a n cnt : Nat) (s : State) : Res :=
  runOp (.kldLd h a n cnt) h (do
    let x ← rdS a
    guardAddr (x.toNat % 8 = 0) fcALIGN x.toNat
    let acc ← accHere
    let ws ← readWordsIn acc true x.toNat (cnt + 1)
    wrKs n ws) s

def execKldRd (h : Hdr) (d n : Nat) (s : State) : Res :=
  runOp (.kldRd h d n) h (do
    let v ← rdK n
    wrS d (BitVec.ofNat 64 v)) s

/-! AMO and CAS (R229 to R232). -/

def wdLen : WD → Nat
  | .w => 4 | .d => 8

def casLen : CasSz → Nat
  | .w => 4 | .d => 8 | .q => 16

/-- The new value and the flags of an AMO on w bits (R230). -/
def amoVal (op : AmoOp) (w m y : Nat) : Nat × Flags :=
  match op with
  | .add => ((m + y) % 2 ^ w, 0)
  | .and => (m &&& y, 0)
  | .or => (m ||| y, 0)
  | .xor => (m ^^^ y, 0)
  | .smin => (if sval w y < sval w m then y else m, 0)
  | .smax => (if sval w m < sval w y then y else m, 0)
  | .umin => (if y < m then y else m, 0)
  | .umax => (if m < y then y else m, 0)
  | .swap => (y, 0)
  | .fadd =>
    let f := if w = 32 then fmt32 else fmt64
    fAdd f .rne (f.unpack m) (f.unpack y)

/-- The address of a bank-ALU word, checked (R229). -/
def bankAddr (a off size : Nat) : Op (Acc × Nat × Nat) := do
  let x ← rdS a
  let va := (addOff x 14 off).toNat
  let acc ← accHere
  let pa ← bankTarget acc .rmw va size
  return (acc, va, pa)

/-- AMO at the bank: memory, S[d] and the flags. -/
def amoApply (op : AmoOp) (sz : WD) (d b va pa : Nat) : Op Unit := do
  let acc ← accHere
  let y ← rdS b
  let w := 8 * wdLen sz
  let old ← bankRead acc va pa (wdLen sz)
  let (v, fl) := amoVal op w (leNat old) (y.toNat % 2 ^ w)
  bankWrite acc va pa (leBytes (wdLen sz) v)
  wrS d (BitVec.ofNat 64 (leNat old))
  raiseFlags fl

/-- CAS at the bank. -/
def casApply (sz : CasSz) (d b va pa : Nat) : Op Unit := do
  let acc ← accHere
  let (e0, e1) ← rdPair d
  let (n0, n1) ← rdPair b
  let (e, n) := match sz with
    | .q => (e0.toNat + 2 ^ 64 * e1.toNat, n0.toNat + 2 ^ 64 * n1.toNat)
    | _ => (e0.toNat % 2 ^ (8 * casLen sz), n0.toNat % 2 ^ (8 * casLen sz))
  let old ← bankRead acc va pa (casLen sz)
  let m := leNat old
  if m = e then bankWrite acc va pa (leBytes (casLen sz) n) else pure ()
  match sz with
  | .q => wrPair d (BitVec.ofNat 64 m) (BitVec.ofNat 64 (m / 2 ^ 64))
  | _ => wrS d (BitVec.ofNat 64 m)

/-- In free mode an atomic applies when it reaches the bank; in frame mode it is held to the boundary, and its stream
waits (R232). -/
def atomicOp (i : Instr) (a off size : Nat) (apply : Nat → Nat → Op Unit) : Op Unit := do
  let c ← here
  let k ← coreId
  let st ← streamOf
  let s ← get
  -- one that is held was issued before an iteration that has begun since (R399)
  if s.heldAtomics.any fun x => x.core == k && x.st == st then block
  else if c.framed then
      noSpec
      let (_, va, pa) ← bankAddr a off size
      modify fun s => { s with heldAtomics := s.heldAtomics ++ [⟨k, st, i, va, pa⟩] }
      hold
  else
    noSpec
    let (_, va, pa) ← bankAddr a off size
    apply va pa

def execAmo (h : Hdr) (op : AmoOp) (sz : WD) (d a b off : Nat) (s : State) : Res :=
  runOp (.amo h op sz d a b off) h (atomicOp (.amo h op sz d a b off) a off (wdLen sz) (amoApply op sz d b)) s

def execCas (h : Hdr) (sz : CasSz) (d a b off : Nat) (s : State) : Res :=
  runOp (.cas h sz d a b off) h (atomicOp (.cas h sz d a b off) a off (casLen sz) (casApply sz d b)) s

/-! BARM and BWAIT (R234, R235). -/

def barmOp (d a b off : Nat) : Op Unit := do
  noSpec
  let (acc, va, pa) ← bankAddr a off 16
  let y ← rdS b
  let old ← bankRead acc va pa 16
  let phase := (barPhase old + 1) % 65536
  bankWrite acc va pa (barBytes (y.toNat % 2 ^ 48) phase 0)
  modify fun s => { s with barClk := SMap.set [] s.barClk pa [] }
  wrS d (BitVec.ofNat 64 phase)

def execBarm (h : Hdr) (d a b off : Nat) (s : State) : Res :=
  runOp (.barm h d a b off) h (barmOp d a b off) s

/-- One test of BWAIT at an address: the arrived count where it passes; the waiter learns what the arrivals carry. -/
def bwaitTest (va : Nat) : Op Nat := do
  let acc ← accHere
  let pa ← bankTarget acc .rmw va 16
  let b ← bankRead acc va pa 16
  if barExpected b ≤ barArrived b then
    let s ← get
    learnHere (SMap.get [] s.barClk pa)
    return barArrived b
  else hold

/-- The address of a BWAIT of V: an entry of the constant bank, or one popped from q7, once (R46). -/
def bwaitVecAddr (b : Nat) : Op Nat := do
  let x ← thisStream
  match x.bwaitAt with
  | some va => return va.toNat
  | none =>
    if b = 655 then do
      let e ← qPop 7
      modStream fun x => { x with bwaitAt := some (lo64 e) }
      return (lo64 e).toNat
    else rdK (b - 768)

def bwaitOp (f : BwaitForm) : Op Unit := do
  match f with
  | .scalar d a off => do
    let x ← rdS a
    let n ← bwaitTest (addOff x 14 off).toNat
    wrS d (BitVec.ofNat 64 n)
  | .vector b => do
    let va ← bwaitVecAddr b
    let _ ← bwaitTest va
    pure ()

def execBwait (h : Hdr) (f : BwaitForm) (s : State) : Res := runOp (.bwait h f) h (bwaitOp f) s

/-! ACQ and REL (R233 to R236, R334, R335). -/

/-- The acquire: the core's level of the object, and what its releases carry. -/
def acquire (pa : Nat) : Op Unit := do
  let n ← nextSeq
  let s ← get
  modHere fun c => { c with acq := SMap.set [] c.acq pa ((n, SMap.get 0 s.rel pa) :: SMap.get [] c.acq pa) }
  learnHere (SMap.get [] s.relClk pa)

def acqOp (ge : Bool) (d a b off : Nat) : Op Unit := do
  noSpec
  let (acc, va, pa) ← bankAddr a off 16
  let y ← rdS b
  let o ← bankRead acc va pa 16
  let v := leNat (o.take 8)
  guardBlock (!ge || y.toNat ≤ v)
  acquire pa
  wrS d (BitVec.ofNat 64 v)

def execAcq (h : Hdr) (ge : Bool) (d a b off : Nat) (s : State) : Res :=
  runOp (.acq h ge d a b off) h (acqOp ge d a b off) s

/-- Release number n of the object publishes the core's earlier bound writes, and what the core has acquired. `alias_` is
the object's number while no translation of it stood (State.objectAt). -/
def State.publish (s : State) (k : Nat) (clk : Clk) (agent pa alias_ n : Nat) : State :=
  let acq := (s.core k).acq
  s.mapWrites fun e =>
    let own := e.core == k && (e.obj == some pa || e.obj == some alias_) && (e.agent == agent || knows clk e.agent e.seq)
    let got := e.pub.any fun p => p.2 ≤ ((SMap.get [] acq p.1).headD (0, 0)).2
    if own || got then { e with pub := e.pub ++ [(pa, n)] } else e

/-- The bytes of a sync object after a release (R226). -/
def syncBytes (version core stream : Nat) : List Byte :=
  leBytes 8 version ++ leBytes 2 core ++ leBytes 1 stream ++ leBytes 5 0

/-- A release of the object at pa by an agent of the core: its number counts up and carries the order (R325, R335). -/
def State.release (s : State) (k agent pa : Nat) (alias_ : Nat := pa) : State :=
  let n := SMap.get 0 s.rel pa + 1
  let s := s.publish k (SMap.get [] s.clk agent) agent pa alias_ n
  { s with rel := SMap.set 0 s.rel pa n,
           relClk := SMap.set [] s.relClk pa (joinClk (SMap.get [] s.relClk pa) (s.token agent)) }

def relOp (d a off : Nat) : Op Unit := do
  noSpec
  let (acc, va, pa) ← bankAddr a off 16
  let k ← coreId
  let ag ← thisAgent
  let o ← bankRead acc va pa 16
  let v := (leNat (o.take 8) + 1) % 2 ^ 64
  bankWrite acc va pa (syncBytes v k 0)
  modify fun s => s.release k ag pa (objectAlias acc.root va)
  wrS d (BitVec.ofNat 64 v)

def execRel (h : Hdr) (d a off : Nat) (s : State) : Res := runOp (.rel h d a off) h (relOp d a off) s

end Sys2Proof.Machine
end

