-- ==== Sys2Proof/Machine/Engine.lean ====
section
/-! DEFINITION. What the engines share (R141, R144, R241, R242, R250): how a command starts, moves in beats, faults,
completes, replies and retires. -/

namespace Sys2Proof.Machine

/-- Bank format and rounding code of a physical byte, as the accessor may see it (R223, R225); raw outside scratchpad. -/
def bankFmt (a : Acc) (pa : Nat) : Op (Nat × Nat) := do
  match tierOf pa with
  | some .scratch => do
    let s ← get
    let k := pa / 0x400000
    let b := pa % 0x400000 / 0x40000
    let cur := (SMap.get 0 (s.core k).bfmt b).toNat
    let v ← if k = s.curCore && a.agent = agentOf k s.curStream then rdWeak (keyBfmt b) cur
      else rdWeakAs k a.agent (keyBfmt b) cur
    return (if v % 16 < 12 then v % 16 else 0, rndCode (v / 16 % 8))
  | _ => return (0, 0)

/-- Element type of a bank format 1 to 8, and MX width of 9 to 11 (R43). -/
def fmtTy (code : Nat) : Ty := Ty.ofCode (code - 1)
def fmtMx (code : Nat) : MxW := if code = 9 then .mx8 else if code = 10 then .mx6 else .mx4
/-- Bytes of an MX block (R65). -/
def mxBytes (w : MxW) : Nat := 2 + 2 * mxBits w

/-- The rounding of an engine's conversion (R224): the generator and SRTAG of the issuing stream. -/
def engineMode (k st : Nat) (agent code : Nat) (lin : Int) : Op RMode := do
  if code < 5 then return modeOfCode code 0
  else
    let s ← get
    let c := s.core k
    let g := c.gen (if st = 1 then .a else .c)
    let gn ← rdWeakAs k agent (keyGen st) g.nat
    let tag ← rdWeakAs k agent crSRTAG (c.creg crSRTAG).toNat
    return .stoch (keyed (Gen.ofNat gn) lin (tag % 2 ^ 20) % 2 ^ 32)

/-- The parts of [va, va + len) in aligned 256-byte blocks (R242): offset and length. -/
def beatParts (va : Nat) : Nat → Nat → Nat → List (Nat × Nat)
  | 0, _, _ => []
  | _, _, 0 => []
  | fuel + 1, off, len =>
    let n := min len (256 - (va + off) % 256)
    (off, n) :: beatParts va fuel (off + n) (len - n)

/-! Reply, interrupt, retirement (R241). -/

/-- The command asks for a completion interrupt. -/
def Cmd.irq (m : Cmd) : Bool :=
  match m.eng with
  | 0 => m.w3.getLsbD 59
  | 1 => m.w3.getLsbD 62
  | 2 => m.w2.getLsbD 63
  | 3 => m.w1.getLsbD 5
  | _ => m.w3.getLsbD 63

/-- Bits [18:3] of the address tag. -/
def Cmd.replyTag (m : Cmd) : Nat := wfld m.tag 3 16

/-- The completion interrupt of an engine (R253), which hands on what the completion does (R325). -/
def Core.raiseUi (c : Core) (e : Nat) (tag : Word) (tok : Clk) : Core :=
  { c.setCreg crUISTAT (setFld (c.creg crUISTAT) (58 + e) 1 1) with
    uiTag := SMap.set 0 c.uiTag e tag, uiClk := SMap.set [] c.uiClk e (joinClk (SMap.get [] c.uiClk e) tok) }

/-- Energy of a command is added when it retires (R436). -/
def State.chargeCmd (s : State) (k : Nat) : State :=
  let c := s.core k
  let n := c.enRem + Config.commandEnergy s.draws
  let c := { c.setCreg crENUSED (c.creg crENUSED + BitVec.ofNat 64 (n / 1000)) with enRem := n % 1000 }
  { s.setCore k c with draws := s.draws + 1 }

/-- The command retires: its flags, its interrupt, and what markers behind it are ordered after (R80, R325). -/
def State.retireCmd (s : State) (k e : Nat) (r : Run) : State :=
  let tok := s.token (cmdAgent r.cmd.id)
  let c := (s.core k).setRun e none
  let c := c.setCreg crFPFLAGS (raise (c.creg crFPFLAGS) r.flags)
  let c := if r.cmd.irq then c.raiseUi e r.cmd.tag tok else c
  let c := c.setEqueue e ((c.equeue e).map fun m =>
    match m.kind with | .marker .. => { m with clk := joinClk m.clk tok } | _ => m)
  let c := { c with doneClk := SMap.set [] c.doneClk e (joinClk (SMap.get [] c.doneClk e) tok) }
  let s := (s.setCore k c).chargeCmd k
  { s with clk := SMap.set [] s.clk (cmdAgent r.cmd.id) [] }

/-- The last beat has landed: the reply is pushed, or held while its queue is full (R144). -/
def State.completeCmd (s : State) (k e : Nat) (r : Run) (reply : Option Word) : State :=
  match reply with
  | none => s.retireCmd k e r
  | some v =>
    let ent : QEnt := ⟨img64 v, true, s.token (cmdAgent r.cmd.id), 0⟩
    let c := s.core k
    if c.qHasSpace (8 + e) then (s.setCore k (c.setQueue (8 + e) (c.queue (8 + e) ++ [ent]))).retireCmd k e r
    else s.setCore k (c.setRun e (some { r with reply := some ent }))

/-! Starting and stepping. -/

/-- The core's engines move: it runs, or HALT lets its started commands run on; a fault of the engine that waits for a
boundary holds it. -/
def State.engineOn (s : State) (k e : Nat) : Bool :=
  let c := s.core k
  (c.st == .running || c.st == .halting) && !s.cohortHeld k && !(c.spec.role == 3 && c.spec.bad) &&
  match c.pend with
  | some p => match p.fault.bind FaultInfo.cmd with | some m => m.eng ≠ e | none => true
  | none => true

/-- A new run of a command. -/
def Run.ofCmd (m : Cmd) : Run := ⟨m, 0, 0, [], 0, none⟩

/-- A command at the head of a queue that is not a marker or a held reply. -/
def headCmd (l : List Cmd) : Option Cmd :=
  match l with
  | m :: _ => match m.kind with | .marker .. => none | .reply _ => none | _ => some m
  | [] => none

/-- The head command of engine e leaves its queue and starts (R145); its entry in the replay list is marked. -/
def State.startCmd (s : State) (k e : Nat) (m : Cmd) : State :=
  let c := s.core k
  let c := c.setEqueue e (c.equeue e).tail
  s.setCore k ((c.setRun e (some (.ofCmd m))).markStarted m.id)

/-- Beats of a started command: `beat` answers the run after one more beat, or that none is left. -/
def beats (beat : Run → Op (Option Run)) (fault : State → Run → FaultInfo → State) (put : State → Run → State)
    (done : State → Run → State) : Nat → State → Run → State
  | 0, s, r => put s r
  | n + 1, s, r =>
    match (beat r).run s with
    | .ok (some r', s') => beats beat fault put done n s' r'
    | .ok (none, s') => done s' r
    | .error (.fault f) => fault (put s r) r f
    | .error (.faultKeep f s') => fault (put s' r) r f
    | .error (.hold s') => put s' r
    | .error _ => put s r

/-- A fault of a command of the core (R250): the command is kept for rq. -/
def engineFault (k : Nat) (s : State) (r : Run) (f : FaultInfo) : State :=
  s.takeFault k { f with cmd := some r.cmd, path := enginePath r.cmd.eng, stream := r.cmd.st, tag := r.cmd.tag } false

end Sys2Proof.Machine
end

