-- ==== Sys2Proof/Machine/Copy.lean ====
section
/-! DEFINITION. The copy engine (R243 to R246) and the index engine (R247 to R249). -/

namespace Sys2Proof.Machine

/-! Copy commands. -/

def Cmd.copyKind (m : Cmd) : Nat := wfld m.w0 61 3

def Cmd.rows (m : Cmd) : Nat := if m.copyKind = 1 then wfld m.w0 48 13 + 1 else 1

/-- Source bytes of a row, or destination bytes of a fill. -/
def Cmd.rowLen (m : Cmd) : Nat := if m.copyKind = 1 then wfld m.w0 0 14 + 1 else wfld m.w0 0 32

/-- Start of row r in the source and in the destination (R244). -/
def Cmd.srcRow (m : Cmd) (r : Nat) : Nat :=
  if m.copyKind = 1 then (m.w1 + BitVec.ofInt 64 (64 * sx 17 (wfld m.w0 31 17) * r)).toNat else m.w1.toNat

def Cmd.dstRow (m : Cmd) (r : Nat) : Nat :=
  if m.copyKind = 1 then (m.w2 + BitVec.ofInt 64 (64 * sx 17 (wfld m.w0 14 17) * r)).toNat else m.w2.toNat

/-- Unit sizes of a pairing of formats, for a row of len bytes (R245); none is ENGCMD. -/
def unitSizes (fs fd len : Nat) : Option (Nat × Nat) :=
  let w := fun f => (fmtTy f).width / 8
  let p : Option (Nat × Nat) :=
    if fs = fd || fs = 0 || fd = 0 then some (1, 1)
    else if fs ≤ 8 && fd ≤ 8 then some (w fs, w fd)
    else if 9 ≤ fs && fd ≤ 4 then some (mxBytes (fmtMx fs), 16 * w fd)
    else if 9 ≤ fd && fs ≤ 4 then some (16 * w fs, mxBytes (fmtMx fd))
    else none
  match p with
  | some (us, ud) => if len % us = 0 then some (us, ud) else none
  | none => none

/-- How the bytes of a command move: unit sizes, formats and rounding code. -/
structure CopyPlan where
  us : Nat
  ud : Nat
  fs : Nat
  fd : Nat
  rnd : Nat
  deriving DecidableEq, Repr

def CopyPlan.raw : CopyPlan := ⟨1, 1, 0, 0, 0⟩

/-- The command converts, in principle. -/
def Cmd.converts (m : Cmd) : Bool := m.w3.getLsbD 57 && m.copyKind ≠ 2 && m.rowLen ≠ 0

/-- The plan of a command with the bank formats as they stand (R245); none is ENGCMD. -/
def copyPlan (a : Acc) (m : Cmd) : Op (Option CopyPlan) := do
  if !m.converts then return some .raw
  else
    let s ← get
    let at_ := fun (va : Nat) => match s.peekXlate a.own a.root va with
      | some pa => bankFmt a pa
      | none => pure (0, 0)
    let (fs, _) ← at_ m.w1.toNat
    let (fd, rnd) ← at_ m.w2.toNat
    match unitSizes fs fd m.rowLen with
    | some (1, 1) => return some (if fs = fd || fs = 0 || fd = 0 then .raw else ⟨1, 1, fs, fd, rnd⟩)
    | some (us, ud) => return some ⟨us, ud, fs, fd, rnd⟩
    | none => return none

/-- Destination bytes of a row. -/
def CopyPlan.rowBytes (p : CopyPlan) (m : Cmd) : Nat := m.rowLen / p.us * p.ud

/-- Chunks of n bytes of a list. -/
def chunksOf {α : Type} (n : Nat) : Nat → List α → List (List α)
  | 0, _ => []
  | k + 1, l => l.take n :: chunksOf n k (l.drop n)

/-- Elements as floating values. -/
def tyVals (t : Ty) (n : Nat) (l : List Byte) : List Val :=
  (chunksOf (t.width / 8) n l).map fun e => tyVal t (leNat e)

/-- Convert one unit; idx is the index of its first element in the command's destination. -/
def convUnit (k st agent : Nat) (p : CopyPlan) (idx : Nat) (src : List Byte) : Op (List Byte × Flags) := do
  if p.fs = 0 || p.fd = 0 then return (src, 0)
  else if p.fd ≥ 9 then
    let (b, fl) := mxQuantize (fmtMx p.fd) (tyVals (fmtTy p.fs) 16 src)
    return (leBytes (mxBytes (fmtMx p.fd)) b, fl)
  else if p.fs ≥ 9 then
    let t := fmtTy p.fd
    let es ← (List.range 16).mapM fun i => do
      let mode ← engineMode k st agent p.rnd (idx + i : Nat)
      return mxDecode (fmtMx p.fs) (ffmt t) mode (leNat src) i
    return (es.flatMap fun e => leBytes (t.width / 8) e.1, es.foldl (fun f e => f ||| e.2) 0)
  else
    let t := fmtTy p.fd
    let mode ← engineMode k st agent p.rnd idx
    let (v, fl) := convert (fmtTy p.fs) t mode false (leNat src)
    return (leBytes (t.width / 8) v, fl)

/-- Elements in a destination unit. -/
def CopyPlan.elems (p : CopyPlan) : Nat := if p.fs ≥ 9 then 16 else 1

/-- The plan that a started command keeps. -/
def CopyPlan.toList (p : CopyPlan) : List Nat := [p.us, p.ud, p.fs, p.fd, p.rnd]

def CopyPlan.ofList : List Nat → CopyPlan
  | [us, ud, fs, fd, rnd] => ⟨us, ud, fs, fd, rnd⟩
  | _ => .raw

/-- Bytes [off, off + n) of a row of the destination. -/
def copyBytes (a : Acc) (m : Cmd) (p : CopyPlan) (row off n : Nat) : Op (List Byte × Flags) := do
  if m.copyKind = 2 then
    return ((List.range n).map fun i => BitVec.ofNat 8 (wfld m.w1 (8 * ((off + i) % 8)) 8), 0)
  else
    let u0 := off / p.ud
    let nu := (off + n - 1) / p.ud - u0 + 1
    let va := (m.srcRow row + u0 * p.us) % 2 ^ 64
    let src ← readBytes a false va (nu * p.us)
    if p.fs = 0 then return (src, 0)
    else
      let outs ← (List.range nu).mapM fun i =>
        convUnit m.core m.st a.agent p ((row * (p.rowBytes m / p.ud) + u0 + i) * p.elems)
          ((src.drop (i * p.us)).take p.us)
      return (((outs.flatMap Prod.fst).drop (off - u0 * p.ud)).take n, outs.foldl (fun f o => f ||| o.2) 0)

/-- The status word of a copy (R250). -/
def copyStat (m : Cmd) (landed : Nat) : Word := BitVec.ofNat 64 (m.copyKind * 2 ^ 61 + landed % 2 ^ 48)

/-- One beat of a copy (R242); none when all has landed. -/
def copyBeat (k : Nat) (r : Run) : Op (Option Run) := withStat (copyStat r.cmd r.landed) do
  let s ← get
  let m := r.cmd
  let a ← ((s.core k).accCmd m).weak k
  let (r, p) ← match r.acc with
    | [] => do
      match m.kept a with
      | some f => throw (.fault f)
      | none => pure ()
      match ← copyPlan a m with
      | some p => pure ({ r with acc := p.toList }, p)
      | none => accFault a fcENGCMD 0
    | l => pure (r, CopyPlan.ofList l)
  let rb := p.rowBytes m
  if rb = 0 || r.landed ≥ m.rows * rb then return none
  else
    let row := r.landed / rb
    let off := r.landed % rb
    let dst := (m.dstRow row + off) % 2 ^ 64
    let n := min (rb - off) (256 - dst % 256)
    let (bytes, fl) ← copyBytes a m p row off n
    writeBytes a false dst bytes
    arrive a m.bar n
    return some { r with pos := r.pos + 1, landed := r.landed + n, flags := r.flags ||| fl }

/-- The copy completes (R241, R246). -/
def copyDone (k : Nat) (s : State) (r : Run) : State :=
  let reply := if r.cmd.w3.getLsbD 60 then some (BitVec.ofNat 64 (r.landed % 2 ^ 48 * 2 ^ 16 + r.cmd.replyTag)) else none
  s.completeCmd k 0 r reply

/-- The engine's command in progress, or the head of its queue, started; of the kind that the event names. -/
def State.engineRun (s : State) (k e : Nat) (kind : Cmd → Bool) : Option (State × Run) :=
  if !s.engineOn k e then none
  else
    let c := s.core k
    match c.runOf e with
    | some r => if r.reply.isNone && kind r.cmd then some (s, r) else none
    | none =>
      match headCmd (c.equeue e) with
      | some m => if c.st == .running && kind m then some (s.startCmd k e m, .ofCmd m) else none
      | none => none

def putRun (k e : Nat) (s : State) (r : Run) : State := s.setCore k ((s.core k).setRun e (some r))

/-- At most n beats of the copy engine's head command, of one kind. -/
def copyEvent (kind k n : Nat) (s : State) : State :=
  match s.engineRun k 0 fun m => m.copyKind == kind with
  | none => s
  | some (s, r) => beats (copyBeat k) (engineFault k) (putRun k 0) (copyDone k) n s r

def execCopyLin (core n : Nat) (s : State) : Res := .next (copyEvent 0 core n s)
def execCopyRect (core n : Nat) (s : State) : Res := .next (copyEvent 1 core n s)
def execCopyFill (core n : Nat) (s : State) : Res := .next (copyEvent 2 core n s)

/-! Index commands. -/

/-- The index command completes (R249). -/
def indexDone (k : Nat) (s : State) (r : Run) : State :=
  s.completeCmd k 1 r (some (BitVec.ofNat 64 (r.pos % 2 ^ 32 * 2 ^ 32 + r.acc.headD 0 % 2 ^ 32)))

def indexBeat (k : Nat) (r : Run) : Op (Option Run) := do
  let s ← get
  let a ← ((s.core k).accCmd r.cmd).weak k
  indexStep a r

def indexEvent (op k n : Nat) (s : State) : State :=
  match s.engineRun k 1 fun m => m.idxOp == op with
  | none => s
  | some (s, r) => beats (indexBeat k) (engineFault k) (putRun k 1) (indexDone k) n s r

def execIndexGat (core n : Nat) (s : State) : Res := .next (indexEvent 0 core n s)
def execIndexSct (core n : Nat) (s : State) : Res := .next (indexEvent 1 core n s)

end Sys2Proof.Machine
end

