-- ==== Sys2Proof/Machine/Go.lean ====
section
/-! DEFINITION. Issuing a command: a store to a GO register (R238 to R240, R251) with the checks of each engine's layout
(R243, R247, R342, R358, R412), and ST (R118), which may be one. -/

namespace Sys2Proof.Machine

/-! Keys of the selection engine (R355). -/

/-- The key of a w-bit pattern; none for a NaN. -/
def selKey (t : Ty) (p : Nat) : Option Nat :=
  let w := t.width
  let p := p % 2 ^ w
  if t.isFloat then
    let f := ffmt t
    if (f.unpack p).isNan then none
    else if p % 2 ^ (w - 1) = 0 then some (2 ^ (w - 1))
    else if p < 2 ^ (w - 1) then some (p + 2 ^ (w - 1))
    else some (2 ^ w - 1 - p)
  else some ((p + 2 ^ (w - 1)) % 2 ^ w)

def Cmd.selMode (m : Cmd) : Nat := wfld m.w0 62 2
def Cmd.selTy (m : Cmd) : Ty := Ty.ofCode (wfld m.w0 59 3)
def Cmd.selCond (m : Cmd) : Nat := wfld m.w0 56 3
def Cmd.selDig (m : Cmd) : Nat := wfld m.w0 52 4
def Cmd.selCap (m : Cmd) : Nat := wfld m.w0 32 16
def Cmd.selN (m : Cmd) : Nat := wfld m.w0 0 32

/-- Record size (R357). -/
def Cmd.rsz (m : Cmd) : Nat := if m.selTy.width ≤ 32 then 8 else 16

/-- Declared size D (R357). -/
def Cmd.selSize (m : Cmd) : Nat :=
  match m.selMode with
  | 1 => m.selCap * m.rsz
  | 2 => 64
  | _ => (if m.selCap = 0 then m.selN else m.selCap) * m.rsz

/-- The checks on mode, condition, k, digit and operand (R358), and on the alignment of the destination. -/
def Cmd.selOk (m : Cmd) (dst : Nat) : Bool :=
  let w := m.selTy.width
  let mode := m.selMode
  !((mode = 0 || mode = 3) && 6 ≤ m.selCond) && !(mode = 1 && 2 ≤ m.selCond)
    && !(mode = 1 && !(1 ≤ m.selCap && m.selCap ≤ 1024))
    && !((mode = 2 || mode = 3) && w / 4 ≤ m.selDig)
    && !(mode = 0 && (selKey m.selTy m.w3.toNat).isNone)
    && dst % (if mode = 2 then 64 else m.rsz) == 0

/-- The word checks of step 2 of R240, for each engine. -/
def Cmd.wordsOk (m : Cmd) : Bool :=
  match m.eng with
  | 0 => m.copyKind < 3
  | 1 => m.idxOp < 2 && m.depth ≠ 0 && wfld m.w0 56 4 < 10 && m.w1.toNat % 16 == 0 && m.w2.toNat % 4 == 0
      && m.pol < 3 && m.side + m.idxN * m.esz ≤ 0x400000
  | 2 => m.selOk (wfld m.w2 0 22) && wfld m.w2 0 22 + m.selSize ≤ 0x400000
  | 3 => m.w0.toNat % 64 == 0
  | _ => wfld m.w0 62 2 < 3 && m.w1.toNat % 8 == 0 && (wfld m.w0 62 2 ≠ 2 || m.w2.toNat % 4 == 0)

/-- Declared buffer of a command with dty (R251), as ranges of virtual addresses; the chain of a scatter is read here. -/
def declared (a : Acc) (m : Cmd) : Op (List (Nat × Nat)) := do
  match m.eng with
  | 0 =>
    if !m.w3.getLsbD 58 then return []
    else
      let p ← copyPlan a m
      let rb := (p.getD .raw).rowBytes m
      return (List.range m.rows).map fun r => (m.dstRow r, rb)
  | 1 =>
    if !m.w3.getLsbD 61 then return []
    else if m.idxOp = 0 then return [(m.side, m.idxN * m.esz)]
    else
      let ch ← readChain a m
      return [(ch.getD (2 * (m.depth - 1)) 0, ch.getD (2 * (m.depth - 1) + 1) 0 * m.esz)]
  | _ => return []

/-- Translate every page of the ranges for writing, which marks them accessed and dirty (R240 step 5, R251). -/
def markDirty (a : Acc) (l : List (Nat × Nat)) : Op Unit :=
  l.forM fun r => do
    let _ ← chunks a .dirty r.1 r.2
    pure ()

/-- A range of virtual addresses lies in the core's own scratchpad. -/
def State.inOwn (s : State) (a : Acc) (k va len : Nat) : Bool :=
  (pieces va (len / 4096 + 2) len).all fun p =>
    match s.peekXlate a.own a.root p.1 with
    | some pa => scratchPa k 0 ≤ pa && pa < scratchPa (k + 1) 0
    | none => false

/-- In a speculative iteration a copy or index command writes and counts in the own scratchpad only (R399). -/
def specGo (a : Acc) (m : Cmd) : Op Unit := do
  let s ← get
  if !(s.core m.core).inIter then pure ()
  else
    let dst ← match m.eng with
      | 0 => do
        let p ← copyPlan a m
        pure ((List.range m.rows).map fun r => (m.dstRow r, (p.getD .raw).rowBytes m))
      | 1 =>
        if m.idxOp = 0 then pure []
        else do
          let ch ← readChain a m
          pure [(ch.getD (2 * (m.depth - 1)) 0, ch.getD (2 * (m.depth - 1) + 1) 0 * m.esz)]
      | _ => fault fcSPECVIOL
    let bar := match m.barVa with | some va => [(va, 16)] | none => []
    guardFault ((dst ++ bar).all fun r => s.inOwn a m.core r.1 r.2) fcSPECVIOL

/-- The command of a GO: the staging words as they stand (R239, R240 step 1). -/
def Core.goCmd (c : Core) (k : Nat) (st : Stream) (e id : Nat) (clk : Clk) : Cmd :=
  let w := fun n => SMap.get 0 c.staging (stagingKey st e n)
  ⟨.go, w 0, w 1, w 2, w 3, (c.stream st).pc, e, st.num, k, id, none, none, clk,
    (c.stream st).visOf (enginePath e), false,
    if e = 4 then some (c.gen st, wfld (c.creg crSRTAG) 32 20) else none⟩

/-- How the storing stream reaches memory for the engine's checks at GO: its own path, through the engine's TLB. -/
def goAcc (c : Core) (k : Nat) (st : Stream) (m : Cmd) : Acc :=
  { c.acc k st with tlb := .core k (4 + m.eng), sup := c.jobSup, writer := none, allot := m.eng ≠ 2 && m.eng ≠ 3 }

/-- GO of engine e (R240). -/
def goOp (e : Nat) : Op Unit := do
  let before ← here
  let k ← coreId
  let st ← streamOf
  let id ← newCmdId
  let tok ← tokenHere
  let m := before.goCmd k st e id tok
  guardFault m.wordsOk fcENGCMD
  let a ← (goAcc before k st m).weak k
  specGo a m
  let s ← get
  guardBlock (s.cmdFill k e < cmdDepth)
  let bar ← match m.barVa with
    | some va => do
      let b ← barrierNow a va
      pure (some b)
    | none => pure none
  let l ← declared a m
  markDirty a l
  -- earlier stores of the stream are performed for the engine's path (R325)
  drainOwn (2 ^ enginePath e)
  let m := { m with bar := bar }
  modify fun s => s.learn (cmdAgent id) tok
  modHere fun c => (c.setEqueue e (c.equeue e ++ [m])).note before st id

/-! ST (R118, R119, R121). -/

/-- ST: to memory, or to a register of the local window. -/
def stOp (k : StKind) (at_ : At) (d a off : Nat) : Op Unit := do
  let x ← rdS a
  let va := (addOff x 14 off).toNat
  guardAddr (atUnit at_ = 0 || va % atUnit at_ = 0) fcALIGN va
  if touchesWindow va (stLen k) then
    guardAddr (k == .b64 && va % 8 == 0) fcALIGN va
    match mmioAt va with
    | .go e => goOp e
    | _ => do
      let v ← rdS d
      mmioWrite va v
  else stMem k at_ d va

def execSt (h : Hdr) (k : StKind) (at_ : At) (d a off : Nat) (s : State) : Res :=
  runOp (.st h k at_ d a off) h (stOp k at_ d a off) s

end Sys2Proof.Machine
end

