-- ==== Sys2Proof/Machine/Maps.lean ====
section
/-! DEFINITION. Coordinate maps (R198 to R213): what a map says of a position, descriptors, map slots, and the maps that
instructions form. -/

namespace Sys2Proof.Machine

/-- What a map says of a position (R198): no element stands there; an element whose place is lost (an opaque map); or
its four coordinates and its linear index. -/
inductive Spot where
  | void
  | lost
  | at_ (c : List Int) (lin : Int)
  deriving DecidableEq, Repr

def Spot.isVoid : Spot → Bool
  | .void => true
  | _ => false

/-! Affine maps (R199). -/

/-- Extent k; beyond the rank it counts as 1. -/
def AffMap.extent (a : AffMap) (k : Nat) : Nat := if k < a.rank then a.ext.getD k 1 else 1

/-- Extents of dimensions 0 to k - 1 together. -/
def AffMap.extents (a : AffMap) (k : Nat) : Nat := (List.range k).foldl (fun x j => x * a.extent j) 1

/-- X: positions of the map. -/
def AffMap.total (a : AffMap) : Nat := a.extents a.rank

def AffMap.entry (a : AffMap) (d k : Nat) : Int := a.m.getD (4 * d + k) 0

/-- i_k of parent index L. -/
def AffMap.index (a : AffMap) (L k : Nat) : Nat := if k < a.rank then L / a.extents k % a.extent k else 0

/-- Signed 32-bit and 64-bit wrap. -/
def wrapS (w : Nat) (i : Int) : Int := sval w (wrap w i)

/-- Σ_k f k, over the four index dimensions. -/
def sum4 (f : Nat → Int) : Int := f 0 + f 1 + f 2 + f 3

/-- Coordinates and lin at parent index L. -/
def AffMap.spotAt (a : AffMap) (L : Nat) : Spot :=
  let i := fun k => (a.index L k : Int)
  .at_ ((List.range 4).map fun d => wrapS 32 (a.org.getD d 0 + sum4 fun k => a.entry d k * i k))
    (wrapS 64 (a.lb + sum4 fun k => a.lam.getD k 0 * i k))

/-- The parent index of element e; none where it is void. -/
def AffMap.parentIdx (a : AffMap) (e : Nat) : Option Nat :=
  let L : Int := (e : Int) + a.skew
  if L < 0 || L ≥ a.total then none else some L.toNat

/-- The map with index dimensions relabelled: column j of M becomes column f j (R214 `perm`, R282). -/
def AffMap.columns (a : AffMap) (f : Nat → Nat) : AffMap :=
  { a with m := (List.range 16).map fun n => a.entry (n / 4) (f (n % 4)) }

/-! Descriptors (R203). -/

def AffMap.toWords (a : AffMap) : List Nat :=
  let i32 := fun (l : List Int) n => wrap 32 (l.getD n 0)
  let e32 := fun n => a.ext.getD n 1 % 2 ^ 32
  let m8 := fun n => wrap 8 (a.m.getD n 0)
  [a.rank % 256 + wrap 32 a.skew * 2 ^ 32, e32 0 + e32 1 * 2 ^ 32, e32 2 + e32 3 * 2 ^ 32,
   i32 a.org 0 + i32 a.org 1 * 2 ^ 32, i32 a.org 2 + i32 a.org 3 * 2 ^ 32,
   (List.range 8).foldr (fun n x => m8 n + 256 * x) 0, (List.range 8).foldr (fun n x => m8 (8 + n) + 256 * x) 0,
   i32 a.lam 0 + i32 a.lam 1 * 2 ^ 32, i32 a.lam 2 + i32 a.lam 3 * 2 ^ 32, wrap 64 a.lb]

def AffMap.ofWords (w : List Nat) : AffMap :=
  let f := fun n lo wd => fld (w.getD n 0) lo wd
  let p32 := fun n => [f n 0 32, f n 32 32]
  let s32 := fun n => (p32 n).map fun x => sval 32 x
  { rank := f 0 0 8, skew := sval 32 (f 0 32 32), ext := p32 1 ++ p32 2, org := s32 3 ++ s32 4,
    m := (List.range 16).map fun n => sval 8 (f (5 + n / 8) (8 * (n % 8)) 8), lam := s32 7 ++ s32 8,
    lb := sval 64 (f 9 0 64) }

/-! Slots (R200, R204). -/

def MapSlot.zero : MapSlot := ⟨0, 0⟩

def MapSlot.u (x : MapSlot) (e : Nat) : Nat := fld x.idx.toNat (16 * e) 16

def MapSlot.isVoid (x : MapSlot) (e : Nat) : Bool := x.void.getLsbD e

/-- A slot from the parent index of each position 0 to 511. -/
def MapSlot.ofList (l : List (Option Nat)) : MapSlot :=
  ⟨BitVec.ofNat 8192 (l.foldr (fun o x => (o.getD 0) % 65536 + 65536 * x) 0),
   BitVec.ofNat 512 (l.foldr (fun o x => (if o.isNone then 1 else 0) + 2 * x) 0)⟩

/-! Maps. -/

def VMap.dflt : VMap := .affine .dflt

/-- The parent index of element e (R205); none where it is void or the map is opaque. -/
def VMap.parentIdx (slots : SMap MapSlot) (m : VMap) (e : Nat) : Option Nat :=
  match m with
  | .affine a => a.parentIdx e
  | .explicit n _ => let x := SMap.get .zero slots n; if x.isVoid e then none else some (x.u e)
  | .opaque _ => none

/-- The parent of what is formed from the map (R205). -/
def VMap.parent : VMap → Option AffMap
  | .affine a => some a
  | .explicit _ a => some a
  | .opaque _ => none

def VMap.spot (slots : SMap MapSlot) (m : VMap) (e : Nat) : Spot :=
  match m with
  | .opaque n => if e < n then .lost else .void
  | m =>
    match m.parentIdx slots e, m.parent with
    | some L, some a => a.spotAt L
    | _, _ => .void

def VMap.isVoid (slots : SMap MapSlot) (m : VMap) (e : Nat) : Bool :=
  match m with
  | .opaque n => n ≤ e
  | m => (m.parentIdx slots e).isNone

/-- The map of register r (R198). -/
def Core.mapOf (c : Core) (r : Nat) : VMap := SMap.get .dflt c.vmap r

/-- Whether a register's map refers to the slot. -/
def slotUsed (maps : SMap VMap) (n : Nat) : Bool :=
  maps.any fun p => match p.2 with | .explicit k _ => k == n | _ => false

/-- Register r takes a map; slots that no map refers to are free (R204). -/
def Core.setMap (c : Core) (r : Nat) (m : VMap) : Core :=
  let maps := SMap.set .dflt c.vmap r m
  { c with vmap := maps, slots := c.slots.filter fun p => slotUsed maps p.1 }

/-- The lowest-numbered free slot. -/
def Core.freeSlot (c : Core) : Option Nat := (List.range 32).find? fun n => !slotUsed c.vmap n

/-- Form the map of register d from a parent and the parent index of each position: explicit, or opaque with count n
(R205). -/
def Core.formMap (c : Core) (d : Nat) (parent : Option AffMap) (idx : List (Option Nat)) (n : Nat) : Core :=
  let c := c.setMap d .dflt
  match parent, c.freeSlot with
  | some a, some k =>
    if a.total ≤ 65536 then
      { c with vmap := SMap.set .dflt c.vmap d (.explicit k a), slots := SMap.set .zero c.slots k (.ofList idx) }
    else c.setMap d (.opaque n)
  | _, _ => c.setMap d (.opaque n)

/-- The reference map of class E: the first register source's, else the destination's own (R206); a destination that is
no register has the default map. -/
def Core.refMap (c : Core) (regs : List Nat) (d : Nat) : VMap :=
  match regs with
  | r :: _ => c.mapOf r
  | [] => if d < 640 then c.mapOf d else .dflt

/-- Two maps agree for n positions (R209). -/
def agree (slots : SMap MapSlot) (n : Nat) (x y : VMap) : Bool :=
  (match x, y with | .opaque _, _ => false | _, .opaque _ => false | _, _ => true) &&
  (List.range n).all fun e => x.spot slots e == y.spot slots e

/-- The register codes among operands. -/
def regsOf (l : List Nat) : List Nat := l.filter fun c => decide (c < 640)

/-- The register sources all agree. -/
def Core.agreeAll (c : Core) (n : Nat) (regs : List Nat) : Bool :=
  match regs with
  | r :: rest => rest.all fun q => agree c.slots n (c.mapOf r) (c.mapOf q)
  | [] => true

/-! Maps of classes R and C (R208, R212). -/

/-- VRED `all`; E1 to E3 are 1 (log entry 103). -/
def redAllMap (m : VMap) : VMap :=
  match m.parent with
  | some a => .affine { a with rank := 1, skew := 0, ext := [1, 1, 1, 1] }
  | none => .opaque 1

/-- `dim0` is possible: affine, with the skew a multiple of E0, of 0 only 0. -/
def dim0Ok (m : VMap) : Bool :=
  match m with
  | .affine a => a.skew % (a.extent 0 : Int) == 0
  | _ => false

/-- VRED `dim0`; the skew is 0 where E0 is (log entry 103). -/
def redDimMap (m : VMap) : VMap :=
  match m with
  | .affine a => .affine {
      rank := max (a.rank - 1) 1, skew := if a.extent 0 = 0 then 0 else a.skew / (a.extent 0 : Int),
      ext := [a.extent 1, a.extent 2, a.extent 3, 1], org := a.org,
      m := (List.range 16).map fun n => if n % 4 = 3 then 0 else a.entry (n / 4) (n % 4 + 1),
      lam := (List.range 4).map fun k => if k = 3 then 0 else a.lam.getD (k + 1) 0, lb := a.lb }
  | m => m

/-- How elements of a conversion correspond (R185): the source element of destination position e. -/
def cvtSrc (ns nd j e : Nat) : Option Nat :=
  if ns ≥ nd then some (j * nd + e)
  else if j * ns ≤ e && e < j * ns + ns then some (e - j * ns) else none

/-- The map that register d takes by VCVT from a register (R212); its skew and count are not cut (log entry 103). -/
def Core.cvtMap (c : Core) (d : Nat) (m : VMap) (ns nd j : Nat) : Core :=
  if ns = nd && j = 0 then c.setMap d m
  else match m with
  | .affine a =>
    c.setMap d (.affine { a with skew := if ns ≥ nd then a.skew + (j * nd : Nat) else a.skew - (j * ns : Nat) })
  | .explicit _ a =>
    c.formMap d (some a) ((List.range 512).map fun e =>
      if nd ≤ e then none else (cvtSrc ns nd j e).bind fun i => m.parentIdx c.slots i) nd
  | .opaque n => c.setMap d (.opaque (if ns ≥ nd then min (n - j * nd) nd else j * ns + n))

end Sys2Proof.Machine
end

