-- ==== Sys2Proof/Machine/Operands.lean ====
section
/-! DEFINITION. Operands of V words (R44 to R46, R161 to R163, R176): sources, the active elements, rounding of elements
and destinations. -/

namespace Sys2Proof.Machine

/-! Elements of a register image (R161). -/

/-- Element e of an image, in a type of w bits. -/
def elemOf (w : Nat) (img : Nat) (e : Nat) : Nat := fld img (w * e) w

/-- An image from its elements. -/
def imageOf (w : Nat) (l : List Nat) : Image := BitVec.ofNat 4096 (l.foldr (fun x acc => x % 2 ^ w + 2 ^ w * acc) 0)

/-- Predicate n as a number; P0 is all ones (R163). -/
def Core.pred (c : Core) (n : Nat) : Nat := if n = 0 then 2 ^ 512 - 1 else (SMap.get 0 c.p n).toNat

/-- A write to P0 is discarded. -/
def Core.setPred (c : Core) (n v : Nat) : Core :=
  if n = 0 then c else { c with p := SMap.set 0 c.p n (BitVec.ofNat 512 v) }

/-! Sources. -/

/-- A source as read: an image of a register or a queue, a broadcast pattern, or an implicit operand. -/
inductive Src where
  | img (n : Nat)
  | bcast (v : Nat)
  | coord (d : Nat)
  | lane
  | lin
  | rnd
  | zero
  deriving DecidableEq, Repr

/-- Read register r as an image. -/
def rdV (r : Nat) : Op Nat := do
  arrayRead 16 (64 * r) 64
  let c ← here
  return (SMap.get 0 c.v r).toNat

/-- Read the source that a code names (R44). -/
def readSrc (code : Nat) : Op Src := do
  if code < 640 then
    let n ← rdV code
    return .img n
  else if code < 644 then return .coord (code - 640)
  else if code = 644 then return .lane
  else if code = 645 then return .lin
  else if code = 646 then return .rnd
  else if code = 647 then return .zero
  else if code = 648 || code = 649 then
    let i ← qPopOnce (code - 648)
    return .img i.toNat
  else if code = 655 then
    let i ← qPopOnce 7
    return .bcast (lo64 i).toNat
  else
    let v ← rdK (code - 768)
    return .bcast v

/-! What an instruction works with. -/

/-- The reference map, the mask and what keyed bits need, as they stand at issue. -/
structure VCtx where
  map : VMap
  slots : SMap MapSlot
  mask : Nat
  gen : Gen
  /-- Which of its generator's states the word uses (R316). -/
  choice : Nat
  srtag : Nat
  rtag : Nat
  chk : Bool
  deriving DecidableEq, Repr

/-- VMODE as V sees it (R177). -/
def rdVmode : Op Nat := do
  let c ← here
  rdWeak crVMODE (c.creg crVMODE).toNat

/-- The context of a word that has read VMODE as vm. -/
def vctxIn (vm : Nat) (m : VMap) (p : Nat) : Op VCtx := do
  let c ← here
  let i ← genChoice
  let g ← genAt i
  let tag ← rdWeak crSRTAG (c.creg crSRTAG).toNat
  return ⟨m, c.slots, c.pred p, g, i, fld tag 0 20, fld tag 32 20, vm % 2 == 1⟩

def vctx (m : VMap) (p : Nat) : Op VCtx := do
  let vm ← rdVmode
  vctxIn vm m p

def VCtx.spot (x : VCtx) (e : Nat) : Spot := x.map.spot x.slots e

def VCtx.isVoid (x : VCtx) (e : Nat) : Bool := x.map.isVoid x.slots e

/-- Active(e, p) (R25). -/
def VCtx.active (x : VCtx) (e : Nat) : Bool := x.mask.testBit e && !x.isVoid e

/-- Coord (R25): an opaque map gives 0x8000_0000 and MAPLOST. -/
def VCtx.coord (x : VCtx) (e d : Nat) : Int × Flags :=
  match x.spot e with
  | .at_ c _ => (c.getD d 0, 0)
  | .lost => (-(2 ^ 31), fMapLost)
  | .void => (0, 0)

def VCtx.lin (x : VCtx) (e : Nat) : Int × Flags :=
  match x.spot e with
  | .at_ _ l => (l, 0)
  | .lost => (-(2 ^ 31), fMapLost)
  | .void => (0, 0)

/-- A signed integer taken in type t (R45). -/
def intIn (t : Ty) (i : Int) : Nat × Flags :=
  if t.isFloat then roundTo (ffmt t) .rne (valOfInt i) else (wrap t.width i, 0)

/-- Element e of a source in type t (R45). -/
def srcElem (x : VCtx) (t : Ty) (s : Src) (e : Nat) : Nat × Flags :=
  match s with
  | .img n => (elemOf t.width n e, 0)
  | .bcast v => (v % 2 ^ t.width, 0)
  | .zero => (0, 0)
  | .lane => intIn t e
  | .coord d => let (i, f) := x.coord e d; let (v, g) := intIn t i; (v, f ||| g)
  | .lin => let (i, f) := x.lin e; let (v, g) := intIn t i; (v, f ||| g)
  | .rnd => let (i, f) := x.lin e; (keyed x.gen i x.rtag % 2 ^ t.width, f)

/-! Rounding of elements (R59, R176). -/

/-- The rounding code of a field m, resolved at issue. -/
def vMode (m : Rnd) : Op Nat := do
  match m with
  | .dyn => rdFpmode
  | .rne => return 0
  | .rtz => return 1
  | .srk => return 5

/-- The mode of the element with linear index lin. -/
def keyedMode (x : VCtx) (code : Nat) (e : Nat) : RMode × Flags :=
  if code = 5 then
    let (l, f) := x.lin e
    (.stoch (keyed x.gen l x.srtag % 2 ^ 32), f)
  else (modeOfCode code 0, 0)

/-- One result's rounding: its element for keyed bits, its rounding code, and whether it rounds. -/
structure RndAt where
  e : Nat
  code : Nat
  rounds : Bool
  deriving DecidableEq, Repr

/-- The mode of each result, with the outputs that those of the stream mode take in their order. -/
def modesWith (x : VCtx) : List Nat → List RndAt → List (RMode × Flags)
  | _, [] => []
  | outs, r :: l =>
    if !r.rounds then (.rne, 0) :: modesWith x outs l
    else if r.code = 6 then (.stoch (outs.headD 0 % 2 ^ 32), 0) :: modesWith x outs.tail l
    else keyedMode x r.code r.e :: modesWith x outs l

/-- The modes of a word's results; its draws are of one state of the generator (R316). -/
def modesFor (x : VCtx) (l : List RndAt) : Op (List (RMode × Flags)) := do
  let outs ← genTake x.choice (l.countP fun r => r.rounds && r.code == 6)
  return modesWith x outs l

/-- The mode of each of n results, drawn in ascending element for the active ones in stream mode. -/
def elemModes (x : VCtx) (code n : Nat) (rounded : Bool) (active : Nat → Bool) : Op (List (RMode × Flags)) :=
  modesFor x ((List.range n).map fun e => ⟨e, code, rounded && active e⟩)

/-! Destinations (R162, R176). -/

/-- A word that pushes waits for space before it computes; its pops stand. -/
def needSpace (q n : Nat) : Op Unit := do
  let c ← here
  if (c.queue q).length + n ≤ qDepth q then pure () else hold

/-- A destination q2 has space. -/
def needDest (d : Nat) : Op Unit := if d = 650 then needSpace 2 1 else pure ()

/-- Register d takes an image. -/
def wrV (d : Nat) (img : Image) : Op Unit := do
  arrayWrite 16 (64 * d) 64
  modHere fun c => { c with v := SMap.set 0 c.v d img }

/-- What becomes of a destination element: a result; its old bytes; zero bytes. -/
inductive Out where
  | val (v : Nat)
  | keep
  | zero
  deriving DecidableEq, Repr

/-- Write elements of w bits to a register, or push them into q2, where what takes no result is zero. -/
def writeOut (w d : Nat) (outs : List Out) : Op Unit := do
  if d = 650 then
    qPushHold 2 [imageOf w (outs.map fun o => match o with | .val v => v | _ => 0)]
  else
    let old ← if outs.any (fun o => o == .keep) then rdV d else pure 0
    wrV d (imageOf w ((outs.zip (List.range outs.length)).map fun p =>
      match p.1 with | .val v => v | .keep => elemOf w old p.2 | .zero => 0))

/-- R162 under the map that the destination takes: results where active, old bytes where masked, zero where void. -/
def outsOf (x : VCtx) (rs : List (Nat × Flags)) : List Out :=
  (rs.zip (List.range rs.length)).map fun (r, e) =>
    if x.active e then .val r.1 else if x.isVoid e then .zero else .keep

/-- Flags of the active results. -/
def flagsOf (act : Nat → Bool) (rs : List (Nat × Flags)) : Flags :=
  (rs.zip (List.range rs.length)).foldl (fun f p => if act p.2 then f ||| p.1.2 else f) 0

/-- The flags go to VFLAGS; a lost coordinate is the fault MAPLOST when MAPCHK is set (R201, R210). -/
def vFlags (x : VCtx) (f : Flags) : Op Unit :=
  if x.chk && f &&& fMapLost ≠ 0 then fault fcMAPLOST else raiseFlags f

/-- Register sources that do not agree are MAPMIS when MAPCHK is set (R210). -/
def checkAgree (x : VCtx) (n : Nat) (regs : List Nat) : Op Unit := do
  let c ← here
  guardFault (!x.chk || c.agreeAll n regs) fcMAPMIS

/-- A register destination takes a map. -/
def setMapOf (d : Nat) (m : VMap) : Op Unit :=
  if d < 640 then modHere fun c => c.setMap d m else pure ()

/-! Views (R164, R165). -/

/-- Offset and width of a field in bits, by field id (R164). -/
def viewField (f : Nat) : Nat × Nat :=
  if f = 0 then (0, 64)
  else if f < 4 then (64 + 8 * (f - 1), 8)
  else if f < 8 then (128 + 32 * (f - 4), 32)
  else if f < 12 then (256 + 64 * (f - 8), 64)
  else if f < 16 then (512 + 32 * (f - 12), 32)
  else (640 + 64 * (f - 16), 64)

/-- A field of a view as it stands. -/
def Core.viewFld (c : Core) (vw f : Nat) : Nat :=
  let (lo, w) := viewField f
  fld (SMap.get 0 c.vw vw).toNat lo w

/-- A field of a view as the executing stream sees it (R166). -/
def rdViewFld (vw f : Nat) : Op Nat := do
  let c ← here
  rdWeak (keyView vw f) (c.viewFld vw f)

def Core.setViewFld (c : Core) (vw f v : Nat) : Core :=
  let (lo, w) := viewField f
  let x := (SMap.get 0 c.vw vw).toNat
  { c with vw := SMap.set 0 c.vw vw (BitVec.ofNat 1024 (x - fld x lo w * 2 ^ lo + v % 2 ^ w * 2 ^ lo)) }

/-- A view as one word reads it. -/
structure ViewVal where
  base : Nat
  fmt : Nat
  rank : Nat
  perm : Nat
  ext : List Nat
  str : List Int
  org : List Int
  deriving DecidableEq, Repr

/-- Read a view; its base without what loops add. -/
def rdView (vw : Nat) : Op ViewVal := do
  let base ← rdViewFld vw 0
  let fmt ← rdViewFld vw 1
  let rank ← rdViewFld vw 2
  let perm ← rdViewFld vw 3
  let ext ← (List.range 4).mapM fun i => rdViewFld vw (4 + i)
  let str ← (List.range 4).mapM fun i => rdViewFld vw (8 + i)
  let org ← (List.range 4).mapM fun i => rdViewFld vw (12 + i)
  return ⟨base, fmt, rank, perm, ext, str.map fun x => sval 64 x, org.map fun x => sval 32 x⟩

/-- A view of a V word: the effective base adds the strides of the running levels (R165); level 0 is the outermost. -/
def rdViewV (vw : Nat) : Op ViewVal := do
  let v ← rdView vw
  let c ← here
  let ls := c.sV.seqr.reverse
  let adds ← (List.range ls.length).mapM fun l => do
    let s ← rdViewFld vw (16 + l)
    return s * (ls.map Level.idx).getD l 0
  return { v with base := (v.base + adds.foldl (fun x y => x + y) 0) % 2 ^ 64 }

end Sys2Proof.Machine
end

