-- ==== Sys2Proof/Machine/Vector.lean ====
section
/-! DEFINITION. Vector instructions (R176 to R191), with VMOV, PLOGIC and PCNT (R172 to R174), VRND (R320) and VTOK
(R153). -/

namespace Sys2Proof.Machine

/-! Class E (R206). -/

/-- How a result comes from its operands: the mode, the a and b elements, and the old element of the destination. -/
abbrev ElemFn := RMode → Nat → Nat → Nat → Nat × Flags

/-- The results of all n positions, with the flags of the operands and of the keyed rounding. -/
def elemResults (x : VCtx) (t : Ty) (f : ElemFn) (sa sb sd : Src) (modes : List (RMode × Flags)) : List (Nat × Flags) :=
  (modes.zip (List.range modes.length)).map fun (m, e) =>
    if x.active e then
      let (va, fa) := srcElem x t sa e
      let (vb, fb) := srcElem x t sb e
      let (vd, _) := srcElem x t sd e
      let (r, fl) := f m.1 va vb vd
      (r, fl ||| fa ||| fb ||| m.2)
    else (0, 0)

/-- A class E word: sources a, b (647, zero, where the word has none) and the destination as addend, under mask p; it has
read VMODE as vm. -/
def classEIn (vm : Nat) (t : Ty) (p : Nat) (code : Nat) (rounded : Bool) (d a b : Nat) (addend : Bool) (f : ElemFn) :
    Op Unit := do
  let sa ← readSrc a
  let sb ← readSrc b
  let sd ← if addend then readSrc d else pure Src.zero
  needDest d
  let c ← here
  let regs := regsOf ([a, b] ++ if addend then [d] else [])
  let m := c.refMap regs d
  let x ← vctxIn vm m p
  checkAgree x t.count regs
  let modes ← elemModes x code t.count rounded x.active
  let rs := elemResults x t f sa sb sd modes
  vFlags x (flagsOf x.active rs)
  writeOut t.width d (outsOf x rs)
  setMapOf d m

def classE (t : Ty) (p : Nat) (code : Nat) (rounded : Bool) (d a b : Nat) (addend : Bool) (f : ElemFn) : Op Unit := do
  let vm ← rdVmode
  classEIn vm t p code rounded d a b addend f

/-- An arithmetic word of R179, with its rounding field. -/
def vArith (t : Ty) (p : Nat) (m : Rnd) (rounded : Bool) (d a b : Nat) (addend : Bool) (f : ElemFn) : Op Unit := do
  let code ← vMode m
  classE t p code (rounded && t.isFloat) d a b addend f

/-- A binary operation, floating or on patterns. -/
def vBin (t : Ty) (ff : FFmt → RMode → Val → Val → Nat × Flags) (fi : Nat → Nat → Nat) : ElemFn := fun mode x y _ =>
  if t.isFloat then ff (ffmt t) mode ((ffmt t).unpack x) ((ffmt t).unpack y)
  else (fi x y % 2 ^ t.width, 0)

def vUn (t : Ty) (ff : FFmt → RMode → Val → Nat × Flags) : ElemFn := fun mode x _ _ =>
  ff (ffmt t) mode ((ffmt t).unpack x)

/-- x * y + the destination's element. -/
def vFmaFn (t : Ty) : ElemFn := fun mode x y z =>
  if t.isFloat then
    let f := ffmt t
    fFma f mode (f.unpack x) (f.unpack y) (f.unpack z)
  else ((x * y + z) % 2 ^ t.width, 0)

/-- VMIN and VMAX (R180). -/
def vMinMax (isMax : Bool) (t : Ty) (x y : Nat) : Nat × Flags :=
  if t.isFloat then fminmax (ffmt t) isMax x y
  else (if decide (sval t.width x < sval t.width y) == isMax then y else x, 0)

/-- VABS and VNEG (R180). -/
def vSign (neg : Bool) (t : Ty) (x : Nat) : Nat × Flags :=
  if t.isFloat then
    let f := ffmt t
    let v := f.unpack x
    if v.isNan then (f.nanPat, sigFlags [v])
    else
      let s := 2 ^ (t.width - 1)
      (if neg then (if x < s then x + s else x - s) else x % s, 0)
  else
    let i := sval t.width x
    (wrap t.width (if neg then -i else (i.natAbs : Int)), 0)

/-- Shifts (R180). -/
def vShl (w x y : Nat) : Nat := if y < w then x * 2 ^ y % 2 ^ w else 0
def vShr (w x y : Nat) : Nat := if y < w then x / 2 ^ y else 0
def vSar (w x y : Nat) : Nat := wrap w (sval w x / (2 ^ (min y (w - 1)) : Nat))

def execVadd (h : Hdr) (t : Ty) (p : Nat) (m : Rnd) (d a b : Nat) (s : State) : Res :=
  runOp (.vadd h t p m d a b) h (vArith t p m true d a b false (vBin t fAdd fun x y => x + y)) s
def execVsub (h : Hdr) (t : Ty) (p : Nat) (m : Rnd) (d a b : Nat) (s : State) : Res :=
  runOp (.vsub h t p m d a b) h (vArith t p m true d a b false (vBin t fSub fun x y => x + 2 ^ t.width - y)) s
def execVmul (h : Hdr) (t : Ty) (p : Nat) (m : Rnd) (d a b : Nat) (s : State) : Res :=
  runOp (.vmul h t p m d a b) h (vArith t p m true d a b false (vBin t fMul fun x y => x * y)) s
def execVfma (h : Hdr) (t : Ty) (p : Nat) (m : Rnd) (d a b : Nat) (s : State) : Res :=
  runOp (.vfma h t p m d a b) h (vArith t p m true d a b true (vFmaFn t)) s
def execVdiv (h : Hdr) (t : Ty) (p : Nat) (m : Rnd) (d a b : Nat) (s : State) : Res :=
  runOp (.vdiv h t p m d a b) h (vArith t p m true d a b false (vBin t fDiv fun x _ => x)) s
def execVsqrt (h : Hdr) (t : Ty) (p : Nat) (m : Rnd) (d a : Nat) (s : State) : Res :=
  runOp (.vsqrt h t p m d a) h (vArith t p m true d a 647 false (vUn t fSqrt)) s
def execVexp2 (h : Hdr) (t : Ty) (p : Nat) (m : Rnd) (d a : Nat) (s : State) : Res :=
  runOp (.vexp2 h t p m d a) h (vArith t p m true d a 647 false (vUn t fExp2)) s
def execVlog2 (h : Hdr) (t : Ty) (p : Nat) (m : Rnd) (d a : Nat) (s : State) : Res :=
  runOp (.vlog2 h t p m d a) h (vArith t p m true d a 647 false (vUn t fLog2)) s
def execVmin (h : Hdr) (t : Ty) (p : Nat) (m : Rnd) (d a b : Nat) (s : State) : Res :=
  runOp (.vmin h t p m d a b) h (classE t p 0 false d a b false fun _ x y _ => vMinMax false t x y) s
def execVmax (h : Hdr) (t : Ty) (p : Nat) (m : Rnd) (d a b : Nat) (s : State) : Res :=
  runOp (.vmax h t p m d a b) h (classE t p 0 false d a b false fun _ x y _ => vMinMax true t x y) s
def execVabs (h : Hdr) (t : Ty) (p : Nat) (m : Rnd) (d a : Nat) (s : State) : Res :=
  runOp (.vabs h t p m d a) h (classE t p 0 false d a 647 false fun _ x _ _ => vSign false t x) s
def execVneg (h : Hdr) (t : Ty) (p : Nat) (m : Rnd) (d a : Nat) (s : State) : Res :=
  runOp (.vneg h t p m d a) h (classE t p 0 false d a 647 false fun _ x _ _ => vSign true t x) s
def execVand (h : Hdr) (t : Ty) (p : Nat) (m : Rnd) (d a b : Nat) (s : State) : Res :=
  runOp (.vand h t p m d a b) h (classE t p 0 false d a b false fun _ x y _ => (x &&& y, 0)) s
def execVor (h : Hdr) (t : Ty) (p : Nat) (m : Rnd) (d a b : Nat) (s : State) : Res :=
  runOp (.vor h t p m d a b) h (classE t p 0 false d a b false fun _ x y _ => (x ||| y, 0)) s
def execVxor (h : Hdr) (t : Ty) (p : Nat) (m : Rnd) (d a b : Nat) (s : State) : Res :=
  runOp (.vxor h t p m d a b) h (classE t p 0 false d a b false fun _ x y _ => (x ^^^ y, 0)) s
def execVshl (h : Hdr) (t : Ty) (p : Nat) (m : Rnd) (d a b : Nat) (s : State) : Res :=
  runOp (.vshl h t p m d a b) h (classE t p 0 false d a b false fun _ x y _ => (vShl t.width x y, 0)) s
def execVshr (h : Hdr) (t : Ty) (p : Nat) (m : Rnd) (d a b : Nat) (s : State) : Res :=
  runOp (.vshr h t p m d a b) h (classE t p 0 false d a b false fun _ x y _ => (vShr t.width x y, 0)) s
def execVsar (h : Hdr) (t : Ty) (p : Nat) (m : Rnd) (d a b : Nat) (s : State) : Res :=
  runOp (.vsar h t p m d a b) h (classE t p 0 false d a b false fun _ x y _ => (vSar t.width x y, 0)) s

/-! Immediate and literal forms (R181, R182). -/

/-- VMODE.itype. -/
def itypeOf (vm : Nat) : Ty := Ty.ofCode (fld vm 1 3)

/-- The immediate as a value (R128): the f32 pattern serves f32, bf16 and f16. -/
def immVal (t : Ty) (imm : Nat) : Val := if t = .f64 then imm20 .f64 imm else imm20 .f32 imm

/-- A V2I word: every element that is not void, FPMODE.rnd; ff takes the immediate as a value, fi as an integer. It reads
VMODE once (R177). -/
def vImm (d a imm : Nat) (addend : Bool) (ff : FFmt → RMode → Val → Val → Val → Nat × Flags)
    (fi : Nat → Nat → Nat → Nat) : Op Unit := do
  let vm ← rdVmode
  let t := itypeOf vm
  let code ← rdFpmode
  classEIn vm t 0 code t.isFloat d a 647 addend fun mode x _ z =>
    if t.isFloat then ff (ffmt t) mode ((ffmt t).unpack x) (immVal t imm) ((ffmt t).unpack z)
    else (fi x (wrap t.width (sx 20 imm)) z % 2 ^ t.width, 0)

def execVaddi (h : Hdr) (d a imm : Nat) (s : State) : Res :=
  runOp (.vaddi h d a imm) h (vImm d a imm false (fun f m x i _ => fAdd f m x i) fun x i _ => x + i) s
def execVmuli (h : Hdr) (d a imm : Nat) (s : State) : Res :=
  runOp (.vmuli h d a imm) h (vImm d a imm false (fun f m x i _ => fMul f m x i) fun x i _ => x * i) s
/-- VFMAI: the destination's element is the multiplicand. -/
def execVfmai (h : Hdr) (d a imm : Nat) (s : State) : Res :=
  runOp (.vfmai h d a imm) h (vImm d a imm true (fun f m x i z => fFma f m z x i) fun x i z => z * x + i) s

/-- The literal as a value and as an integer (R182). -/
def vlitVal (t : Ty) (lit : Nat) : Val :=
  if t = .f64 then fmt64.unpack (lit % 2 ^ 48 * 2 ^ 16) else fmt32.unpack (lit % 2 ^ 32)

def litInt (t : Ty) (lit : Nat) : Int := if t = .i64 then sx 48 lit else sx 32 lit

def execVfmal (h : Hdr) (t : Ty) (p : Nat) (m : Rnd) (d a b lit : Nat) (s : State) : Res :=
  runOp (.vfmal h t p m d a b lit) h (vArith t p m true d a b false fun mode x y _ =>
    if t.isFloat then
      let f := ffmt t
      fFma f mode (f.unpack x) (f.unpack y) (vlitVal t lit)
    else (wrap t.width ((x * y : Nat) + litInt t lit), 0)) s

/-! Comparison, selection, VMOV (R172, R183, R184). -/

/-- The floating condition of a VCMP. -/
def vFCond : VCond → FCond
  | .ne => .ne | .lt => .lt | .le => .le | .gt => .gt | .ge => .ge | .un => .un | .ord => .ord | _ => .eq

/-- Whether the condition holds for patterns of type t, and its flags. -/
def vcompare (k : VCond) (t : Ty) (x y : Nat) : Bool × Flags :=
  if t.isFloat then fcompare (vFCond k) ((ffmt t).unpack x) ((ffmt t).unpack y)
  else
    let i := sval t.width x
    let j := sval t.width y
    (match k with
      | .eq => x == y | .ne => x != y | .lt => decide (i < j) | .le => decide (i ≤ j) | .gt => decide (j < i)
      | .ge => decide (j ≤ i) | .ltu => decide (x < y) | .leu => decide (x ≤ y) | .gtu => decide (y < x)
      | .geu => decide (y ≤ x) | _ => false, 0)

/-- Bits of a predicate at the positions of a list replaced, others kept. -/
def predBits (old n : Nat) (bit : Nat → Option Bool) : Nat :=
  (List.range n).foldl (fun v e => match bit e with
    | some true => v ||| 2 ^ e
    | some false => if v.testBit e then v - 2 ^ e else v
    | none => v) old

def vcmpOp (k : VCond) (t : Ty) (p pd a b : Nat) : Op Unit := do
  let sa ← readSrc a
  let sb ← readSrc b
  let c ← here
  let regs := regsOf [a, b]
  let x ← vctx (c.refMap regs 650) p
  checkAgree x t.count regs
  let rs := (List.range t.count).map fun e =>
    let (va, fa) := srcElem x t sa e
    let (vb, fb) := srcElem x t sb e
    let (r, f) := vcompare k t va vb
    (r.toNat, fa ||| fb ||| f)
  vFlags x (flagsOf x.active rs)
  let old := c.pred pd
  modHere fun c => c.setPred pd (predBits old t.count fun e =>
    if x.isVoid e then some false else if x.active e then some ((rs.getD e (0, 0)).1 == 1) else none)

def execVcmp (h : Hdr) (k : VCond) (t : Ty) (p pd a b : Nat) (s : State) : Res :=
  runOp (.vcmp h k t p pd a b) h (vcmpOp k t p pd a b) s

/-- VSEL: p selects, and masks nothing (R184). -/
def vselOp (t : Ty) (p d a b : Nat) : Op Unit := do
  let sa ← readSrc a
  let sb ← readSrc b
  needDest d
  let c ← here
  let regs := regsOf [a, b]
  let m := c.refMap regs d
  let x ← vctx m 0
  checkAgree x t.count regs
  let q := c.pred p
  let rs := (List.range t.count).map fun e => srcElem x t (if q.testBit e then sa else sb) e
  vFlags x (flagsOf x.active rs)
  writeOut t.width d (outsOf x rs)
  setMapOf d m

def execVsel (h : Hdr) (t : Ty) (p d a b : Nat) (s : State) : Res :=
  runOp (.vsel h t p d a b) h (vselOp t p d a b) s

def execVmov (h : Hdr) (t : Ty) (p d a : Nat) (s : State) : Res :=
  runOp (.vmov h t p d a) h (classE t p 0 false d a 647 false fun _ x _ _ => (x, 0)) s

/-! PLOGIC, PCNT (R173, R174). -/

def plogicOp (fn : Nat) (t : Ty) (p pd pa pb : Nat) : Op Unit := do
  let c ← here
  let (m, a, b) := (c.pred p, c.pred pa, c.pred pb)
  putHere (c.setPred pd (predBits (c.pred pd) t.count fun e =>
    if m.testBit e then some (fn.testBit (2 * (a.testBit e).toNat + (b.testBit e).toNat)) else none))

def execPlogic (h : Hdr) (fn : Nat) (t : Ty) (p pd pa pb : Nat) (s : State) : Res :=
  runOp (.plogic h fn t p pd pa pb) h (plogicOp fn t p pd pa pb) s

def pcntOp (pre : Bool) (t : Ty) (p d pa : Nat) : Op Unit := do
  needDest d
  let c ← here
  let m := c.refMap [] d
  let x ← vctx m p
  let set_ := (List.range t.count).filter fun e => (c.pred pa).testBit e && x.active e
  let rs : List (Nat × Flags) := (List.range t.count).map fun e =>
    ((if pre then set_.countP fun q => decide (q < e) else set_.length) % 2 ^ t.width, 0)
  writeOut t.width d (outsOf x rs)
  setMapOf d m

def execPcnt (h : Hdr) (pre : Bool) (t : Ty) (p d pa : Nat) (s : State) : Res :=
  runOp (.pcnt h pre t p d pa) h (pcntOp pre t p d pa) s

/-! Conversion (R185, R212, R466). -/

/-- The map that the destination takes, as its new core. -/
def Core.convMap (c : Core) (a d ns nd j : Nat) : Core :=
  if d < 640 && a < 640 then c.cvtMap d (c.mapOf a) ns nd j else c

/-- Outs of a conversion: positions outside the part keep their bytes, whatever map the result takes (log entry 103); inside,
results where active, zero where the source element is void, old bytes where masked. -/
def cvtOuts (ns nd j : Nat) (void active : Nat → Bool) (rs : List (Nat × Flags)) : List Out :=
  (rs.zip (List.range rs.length)).map fun (r, e) =>
    match cvtSrc ns nd j e with
    | none => .keep
    | some _ => if active e then .val r.1 else if void e then .zero else .keep

/-- VCVT. An implicit source that is judged under the destination's own map is taken at its source index, void there 0,
and keyed rounding at the destination's: the model's choice, log entry 97. -/
def vcvtOp (sTy : Ty) (j : Nat) (sat : Bool) (t : Ty) (p : Nat) (m : Rnd) (d a : Nat) : Op Unit := do
  let sa ← readSrc a
  needDest d
  let code ← vMode m
  let c ← here
  let (ns, nd) := (sTy.count, t.count)
  let own := decide (640 ≤ a)
  let x ← vctx (if own then c.refMap [] d else c.mapOf a) p
  -- a position is judged by its source element, or under the destination's own map
  let void := fun e => if own then x.isVoid e else match cvtSrc ns nd j e with | some i => x.isVoid i | none => false
  let active := fun e => (cvtSrc ns nd j e).isSome && x.mask.testBit e && !void e
  let modes ← modesFor x ((List.range nd).map fun e =>
    ⟨if own then e else (cvtSrc ns nd j e).getD 0, code, convRounds sTy t && active e⟩)
  let rs := (modes.zip (List.range nd)).map fun (md, e) =>
    if active e then
      let (v, f) := srcElem x sTy sa ((cvtSrc ns nd j e).getD 0)
      let (r, g) := convert sTy t md.1 sat v
      (r, f ||| g ||| md.2)
    else (0, 0)
  vFlags x (flagsOf active rs)
  writeOut t.width d (cvtOuts ns nd j void active rs)
  modHere fun c => c.convMap a d ns nd j

def execVcvt (h : Hdr) (sTy : Ty) (j : Nat) (sat : Bool) (t : Ty) (p : Nat) (m : Rnd) (d a : Nat) (s : State) : Res :=
  runOp (.vcvt h sTy j sat t p m d a) h (vcvtOp sTy j sat t p m d a) s

/-! MX packing (R186). -/

/-- Bytes of a block, as bits. -/
def mxBlockBits (w : MxW) : Nat := 8 * w.size

def vqmxOp (w : MxW) (t : VFTy) (p d a slot : Nat) : Op Unit := do
  let t := t.ty
  let sa ← readSrc a
  needDest d
  let c ← here
  let x ← vctx (if a < 640 then c.mapOf a else .dflt) p
  let nb := t.count / 16
  let es := (List.range t.count).map fun e =>
    if x.active e then let (v, f) := srcElem x t sa e; (tyVal t v, f) else (Val.fin false 0 0 false, 0)
  let blocks := (List.range nb).map fun i => mxQuantize w ((es.drop (16 * i)).take 16 |>.map Prod.fst)
  vFlags x (es.foldl (fun f e => f ||| e.2) (blocks.foldl (fun f b => f ||| b.2) 0))
  let bits := mxBlockBits w
  let lo := bits * slot
  let packed := blocks.foldr (fun b acc => b.1 + 2 ^ bits * acc) 0
  if d = 650 then qPushHold 2 [BitVec.ofNat 4096 (packed * 2 ^ lo)]
  else
    let old ← rdV d
    wrV d (BitVec.ofNat 4096 (old - fld old lo (bits * nb) * 2 ^ lo + packed * 2 ^ lo))

def execVqmx (h : Hdr) (w : MxW) (t : VFTy) (p d a slot : Nat) (s : State) : Res :=
  runOp (.vqmx h w t p d a slot) h (vqmxOp w t p d a slot) s

/-- The register image of a source: of one that is no image, the image that VMOV would write, with the flags that its
active elements raise. -/
def srcImage (x : VCtx) (t : Ty) (s : Src) : Nat × Flags :=
  match s with
  | .img n => (n, 0)
  | s =>
    let es := (List.range t.count).map (srcElem x t s)
    ((imageOf t.width (es.map Prod.fst)).toNat, flagsOf x.active es)

def vdqmxOp (w : MxW) (t : VFTy) (p : Nat) (m : Rnd) (d a slot : Nat) : Op Unit := do
  let t := t.ty
  let sa ← readSrc a
  needDest d
  let code ← vMode m
  let c ← here
  let map := if a < 640 then c.mapOf a else c.refMap [] d
  let x ← vctx map p
  let (img, f0) := srcImage x t sa
  let bits := mxBlockBits w
  let block := fun e => fld img (bits * (slot + e / 16)) bits
  let modes ← modesFor x ((List.range t.count).map fun e => ⟨e, code, x.active e && mxRounds w t (block e) (e % 16)⟩)
  let rs := (modes.zip (List.range t.count)).map fun (md, e) =>
    let (v, f) := mxDecode w (ffmt t) md.1 (block e) (e % 16)
    (v, f ||| md.2)
  vFlags x (f0 ||| flagsOf x.active rs)
  writeOut t.width d (outsOf x rs)
  setMapOf d map

def execVdqmx (h : Hdr) (w : MxW) (t : VFTy) (p : Nat) (m : Rnd) (d a slot : Nat) (s : State) : Res :=
  runOp (.vdqmx h w t p m d a slot) h (vdqmxOp w t p m d a slot) s

/-! Reductions and scans (R67, R187, R188). -/

/-- A present node: its value and the lowest present element beneath it. -/
abbrev TNode := Option (Nat × Nat)

/-- Whether a combination rounds. -/
def redRounds (op : RedOp) (t : Ty) : Bool := t.isFloat && (match op with | .add | .mul => true | _ => false)

/-- A combination of two values (R187). -/
def redFn (op : RedOp) (t : Ty) (mode : RMode) (x y : Nat) : Nat × Flags :=
  match op with
  | .add => vBin t fAdd (fun x y => x + y) mode x y 0
  | .mul => vBin t fMul (fun x y => x * y) mode x y 0
  | .min => vMinMax false t x y
  | .max => vMinMax true t x y
  | .and => (x &&& y, 0)
  | .or => (x ||| y, 0)
  | .xor => (x ^^^ y, 0)

/-- How nodes combine: the context, the rounding code, the operation and the type. -/
structure Tree where
  x : VCtx
  code : Nat
  op : RedOp
  t : Ty
  deriving DecidableEq, Repr

/-- Combine two nodes: one rounded combination, or the one that is present (R67); the keyed lin is that of the lowest
present element (R59). -/
def Tree.comb (r : Tree) (a b : TNode) : Op (TNode × Flags) := do
  match a, b with
  | some (u, i), some (v, _) =>
    let (mode, f0) ← if redRounds r.op r.t then
        if r.code = 6 then do
          let o ← genTake r.x.choice 1
          pure (RMode.stoch (o.headD 0 % 2 ^ 32), (0 : Flags))
        else pure (keyedMode r.x r.code i)
      else pure (.rne, 0)
    let (v, f) := redFn r.op r.t mode u v
    return (some (v, i), f ||| f0)
  | some n, none => return (some n, 0)
  | none, n => return (n, 0)

/-- One level up. -/
def Tree.level (r : Tree) : List TNode → Op (List TNode × Flags)
  | a :: b :: l => do
    let (n, f) ← r.comb a b
    let (ns, g) ← r.level l
    return (n :: ns, f ||| g)
  | [a] => return ([a], 0)
  | [] => return ([], 0)

/-- All levels from the leaves up; 2^fuel leaves at most. -/
def Tree.levels (r : Tree) : Nat → List TNode → Op (List (List TNode) × Flags)
  | 0, l => return ([l], 0)
  | fuel + 1, l => do
    if l.length ≤ 1 then return ([l], 0)
    else
      let (up, f) ← r.level l
      let (ls, g) ← r.levels fuel up
      return (l :: ls, f ||| g)

/-- The prefix over positions 0 to e: the maximal aligned blocks from the left (R67). -/
def Tree.prefix_ (r : Tree) (ls : List (List TNode)) (n : Nat) : Nat → Nat → TNode → Op (TNode × Flags)
  | 0, _, acc => return (acc, 0)
  | l + 1, off, acc => do
    -- n = e + 1 positions; the block of level l is taken when bit l of n is set
    if n.testBit l then
      let (acc, f) ← r.comb acc ((ls.getD l []).getD (off / 2 ^ l) none)
      let (out, g) ← r.prefix_ ls n l (off + 2 ^ l) acc
      return (out, f ||| g)
    else r.prefix_ ls n l off acc

/-- The value of an absent root (R188). -/
def redIdentity (op : RedOp) (t : Ty) : Nat :=
  if t.isFloat then
    let f := ffmt t
    match op with
    | .mul => f.bias * 2 ^ f.fb
    | .min => f.infPat false
    | .max => f.infPat true
    | _ => 0
  else
    match op with
    | .mul => 1
    | .min => 2 ^ (t.width - 1) - 1
    | .max => 2 ^ (t.width - 1)
    | .and => 2 ^ t.width - 1
    | _ => 0

/-- The segments: start and length (R188). -/
def redSegs (x : VCtx) (sg : Seg) (n : Nat) : List (Nat × Nat) :=
  match sg, x.map with
  | .dim0, .affine a =>
    let e0 := min (a.extent 0) n
    if e0 = 0 then []
    else
      let first := ((List.range n).find? fun e => x.isVoid e).getD n
      (List.range ((n + e0 - 1) / e0)).filterMap fun s => if s * e0 < first then some (s * e0, e0) else none
  | .dim0, _ => []
  | .all, _ => [(0, n)]

/-- The least power of two at or above n. -/
def pow2Up (n : Nat) : Nat := if n ≤ 1 then 1 else 2 ^ (Nat.log2 (n - 1) + 1)

/-- The leaves of a segment. -/
def redLeaves (x : VCtx) (vals : List Nat) (n lo len : Nat) : List TNode :=
  (List.range (pow2Up len)).map fun i =>
    if i < len && lo + i < n && x.active (lo + i) then some (vals.getD (lo + i) 0, lo + i) else none

/-- What VRED and VSCAN share: the reference map, its check, the values and the tree of each segment. The flags of
every node of a tree join (log entry 103). -/
def redTrees (op : RedOp) (sg : Seg) (t : Ty) (p : Nat) (m : Rnd) (d a : Nat) :
    Op (Tree × List (Nat × Nat × List (List TNode)) × Flags) := do
  let sa ← readSrc a
  needDest d
  let code ← vMode m
  let c ← here
  let map := if a < 640 then c.mapOf a else .dflt
  guardFault (sg == .all || dim0Ok map) fcMAPMIS
  let x ← vctx map p
  let es := (List.range t.count).map fun e => if x.active e then srcElem x t sa e else (0, 0)
  let r : Tree := ⟨x, code, op, t⟩
  let segs ← (redSegs x sg t.count).mapM fun (sgm : Nat × Nat) => do
    let (ls, f) ← r.levels 10 (redLeaves x (es.map Prod.fst) t.count sgm.1 sgm.2)
    return ((sgm.1, sgm.2, ls), f)
  return (r, segs.map Prod.fst, segs.foldl (fun f s => f ||| s.2) (flagsOf x.active es))

def vredOp (op : RedOp) (sg : Seg) (t : Ty) (p : Nat) (m : Rnd) (d a : Nat) : Op Unit := do
  let (r, segs, fl) ← redTrees op sg t p m d a
  vFlags r.x fl
  let roots := segs.map fun s => match (s.2.2.getLastD []).headD none with
    | some (v, _) => v
    | none => redIdentity op t
  writeOut t.width d ((List.range t.count).map fun e => match roots[e]? with | some v => .val v | none => .zero)
  setMapOf d (match sg with | .all => redAllMap r.x.map | .dim0 => redDimMap r.x.map)

def execVred (h : Hdr) (op : RedOp) (sg : Seg) (t : Ty) (p : Nat) (m : Rnd) (d a : Nat) (s : State) : Res :=
  runOp (.vred h op sg t p m d a) h (vredOp op sg t p m d a) s

/-- VSCAN. An active element that lies in no segment of `dim0` takes 0: the model's choice, log entry 98. -/
def vscanOp (op : RedOp) (sg : Seg) (t : Ty) (p : Nat) (m : Rnd) (d a : Nat) : Op Unit := do
  let (r, segs, fl) ← redTrees op sg t p m d a
  let rs ← (List.range t.count).mapM fun e => do
    if r.x.active e then
      match segs.find? fun s => s.1 ≤ e && e < s.1 + s.2.1 with
      | some (lo, _, ls) =>
        let (n, f) ← r.prefix_ ls (e - lo + 1) 10 0 none
        return ((n.map Prod.fst).getD 0, f)
      | none => return (0, 0)
    else return (0, 0)
  vFlags r.x (fl ||| flagsOf r.x.active rs)
  writeOut t.width d (outsOf r.x rs)
  setMapOf d r.x.map

def execVscan (h : Hdr) (op : RedOp) (sg : Seg) (t : Ty) (p : Nat) (m : Rnd) (d a : Nat) (s : State) : Res :=
  runOp (.vscan h op sg t p m d a) h (vscanOp op sg t p m d a) s

/-! Permute, compact, partition (R189 to R191, R205, R211). -/

/-- The integer type of a type's width. -/
def intOf : Ty → Ty
  | .f64 | .i64 => .i64 | .f32 | .i32 => .i32 | .bf16 | .f16 | .i16 => .i16 | .i8 => .i8

/-- Register d takes an explicit map in which position i has as parent element `src i` of a map. -/
def formFrom (d : Nat) (m : VMap) (n opq : Nat) (src : Nat → Option Nat) : Op Unit :=
  if d < 640 then
    modHere fun c => c.formMap d m.parent
      ((List.range 512).map fun i => if i < n then (src i).bind (m.parentIdx c.slots) else none) opq
  else pure ()

/-- VPERM. An implicit a is not void at any index (log entry 103). -/
def vpermOp (pm : Bool) (t : Ty) (p d a b : Nat) : Op Unit := do
  let sa ← readSrc a
  let sb ← readSrc b
  needDest d
  let c ← here
  let n := t.count
  let x ← vctx (if b < 640 then c.mapOf b else c.refMap [] d) p
  let amap := if a < 640 then c.mapOf a else .dflt
  let js := (List.range n).map fun e => if x.active e then srcElem x (intOf t) sb e else (0, 0)
  let aVoid := fun j => decide (a < 640) && amap.isVoid c.slots j
  -- the element of a that position e takes
  let src := fun e =>
    let j := (js.getD e (0, 0)).1
    if x.active e && j < n && !aVoid j then some j else none
  let rs := (List.range n).map fun e => match src e with | some j => srcElem x t sa j | none => (0, 0)
  vFlags x (flagsOf x.active js ||| flagsOf x.active rs)
  writeOut t.width d ((List.range n).map fun e =>
    match src e with
    | some _ => .val (rs.getD e (0, 0)).1
    | none => if pm || x.active e then .zero else .keep)
  if pm then formFrom d amap n 512 src else setMapOf d (.opaque 512)

def execVperm (h : Hdr) (pm : Bool) (t : Ty) (p d a b : Nat) (s : State) : Res :=
  runOp (.vperm h pm t p d a b) h (vpermOp pm t p d a b) s

def vcompOp (t : Ty) (p d a : Nat) : Op Unit := do
  let sa ← readSrc a
  needDest d
  let c ← here
  let x ← vctx (if a < 640 then c.mapOf a else .dflt) p
  let l := (List.range t.count).filter x.active
  let rs := l.map (srcElem x t sa)
  vFlags x (rs.foldl (fun f r => f ||| r.2) 0)
  writeOut t.width d ((List.range t.count).map fun i => match rs[i]? with | some r => .val r.1 | none => .zero)
  formFrom d x.map t.count l.length fun i => l[i]?

def execVcomp (h : Hdr) (t : Ty) (p d a : Nat) (s : State) : Res :=
  runOp (.vcomp h t p d a) h (vcompOp t p d a) s

/-- A value counts as nonzero (R153). -/
def nonZero (t : Ty) (v : Nat) : Bool := if t.isFloat then v % 2 ^ (t.width - 1) ≠ 0 else v % 2 ^ t.width ≠ 0

/-- Write the list registers in ascending k. -/
def writeLists (m : VMap) (slots : SMap MapSlot) (d : Nat) : List (List Nat) → Op Unit
  | [] => pure ()
  | l :: ls => do
    writeOut 16 d ((List.range 256).map fun i => match l[i]? with | some e => .val e | none => .zero)
    modHere fun c => c.formMap d m.parent ((List.range 512).map fun i => (l[i]?).bind (m.parentIdx slots)) l.length
    writeLists m slots (d + 1) ls

def vpartOp (four q4 : Bool) (t : Ty) (p d a : Nat) : Op Unit := do
  let sa ← readSrc a
  let q := if q4 then 4 else 3
  needSpace q 1
  let c ← here
  let x ← vctx (if a < 640 then c.mapOf a else .dflt) p
  let es := (List.range t.count).map fun e => if x.active e then srcElem x t sa e else (0, 0)
  vFlags x (flagsOf x.active es)
  let outcome := fun e =>
    let v := (es.getD e (0, 0)).1
    if four then v % 4 else (nonZero t v).toNat
  let lists := (List.range (if four then 4 else 2)).map fun k =>
    (List.range t.count).filter fun e => x.active e && outcome e == k
  writeLists x.map c.slots d lists
  let n := fun k => (lists.getD k []).length
  let mask := (List.range 4).foldl (fun y k => y + if n k > 0 then 2 ^ k else 0) 0
  qPushHold q [img64 (BitVec.ofNat 64 (n 3 * 2 ^ 52 + n 2 * 2 ^ 40 + n 1 * 2 ^ 28 + n 0 * 2 ^ 16 + mask))]

def execVpart (h : Hdr) (four q4 : Bool) (t : Ty) (p d a : Nat) (s : State) : Res :=
  runOp (.vpart h four q4 t p d a) h (vpartOp four q4 t p d a) s

/-! VTOK (R153). -/

/-- The token of a VTOK. -/
def vtokToken (k : TokSub) (t : Ty) (x : VCtx) (vals : List Nat) (b : Nat) : Word :=
  let act := (List.range t.count).countP x.active
  let n := (List.range t.count).countP fun e => x.active e && nonZero t (vals.getD e 0)
  match k with
  | .elt =>
    if x.isVoid b then 0
    else if t.isFloat then BitVec.ofNat 64 (vals.getD b 0) else BitVec.ofInt 64 (sval t.width (vals.getD b 0))
  | .any => BitVec.ofNat 64 (n * 65536 + if n > 0 then 1 else 0)
  | .all => BitVec.ofNat 64 (n * 65536 + if n = act then 1 else 0)
  | .cnt => BitVec.ofNat 64 (n * 65536 + min n 0xFFFF)

def vtokOp (k : TokSub) (q4 : Bool) (t : Ty) (p a b : Nat) : Op Unit := do
  let sa ← readSrc a
  let q := if q4 then 4 else 3
  needSpace q 1
  let c ← here
  -- `elt` ignores p
  let x ← vctx (c.refMap (regsOf [a]) 650) (match k with | .elt => 0 | _ => p)
  let vals := (List.range t.count).map fun e => if x.active e then srcElem x t sa e else (0, 0)
  let fl := match k with
    | .elt => if x.isVoid b then 0 else (vals.getD b (0, 0)).2
    | _ => flagsOf x.active vals
  -- VTOK raises no flag, but a lost coordinate under MAPCHK stops it
  guardFault (!(x.chk && fl &&& fMapLost ≠ 0)) fcMAPLOST
  qPushHold q [img64 (vtokToken k t x (vals.map Prod.fst) b)]

def execVtok (h : Hdr) (k : TokSub) (q4 : Bool) (t : Ty) (p a b : Nat) (s : State) : Res :=
  runOp (.vtok h k q4 t p a b) h (vtokOp k q4 t p a b) s

/-! VRND (R320). -/

/-- Write random bits under class E with no register source. -/
def vrndWrite (t : Ty) (d : Nat) (x : VCtx) (rs : List (Nat × Flags)) : Op Unit := do
  vFlags x (flagsOf x.active rs)
  writeOut t.width d (outsOf x rs)
  setMapOf d x.map

def execVrndKey (h : Hdr) (t : Ty) (p d b : Nat) (s : State) : Res :=
  runOp (.vrndKey h t p d b) h (do
    let sb ← readSrc b
    needDest d
    let c ← here
    let x ← vctx (c.refMap [] d) p
    let tag := match sb with | .bcast v => v % 2 ^ 20 | _ => 0
    vrndWrite t d x ((List.range t.count).map fun e =>
      let (l, f) := x.lin e
      (keyed x.gen l tag % 2 ^ t.width, f))) s

def execVrndStr (h : Hdr) (t : Ty) (p d : Nat) (s : State) : Res :=
  runOp (.vrndStr h t p d) h (do
    needDest d
    let c ← here
    let x ← vctx (c.refMap [] d) p
    let es := (List.range t.count).filter x.active
    let outs ← genTake x.choice es.length
    vrndWrite t d x ((List.range t.count).map fun e =>
      if x.active e then (outs.getD (es.idxOf e) 0 % 2 ^ t.width, 0) else (0, 0))) s

end Sys2Proof.Machine
end

