-- ==== Sys2Proof/Machine/VMem.lean ====
section
/-! DEFINITION. V's memory words: VLD and VST through views (R192 to R196), VLDC and VSTC into sparse volumes (R384 to
R390). -/

namespace Sys2Proof.Machine

/-! Elements in memory (R193 to R195). -/

/-- Elements of a view. -/
def ViewVal.total (v : ViewVal) : Nat := (v.ext.take v.rank).foldl (fun x y => x * y) 1

/-- The byte offset of position L, dimension 0 fastest. -/
def viewOff : List Nat → List Int → Nat → Int
  | e :: es, s :: ss, L => (L % e : Nat) * s + viewOff es ss (L / e)
  | _, _, _ => 0

/-- The address of element e at offset o; none where it is void. -/
def ViewVal.addr (v : ViewVal) (o : Int) (e : Nat) : Option Nat :=
  let L : Int := o + e
  if L < 0 || L ≥ v.total then none
  else some ((v.base + wrap 64 (viewOff (v.ext.take v.rank) v.str L.toNat)) % 2 ^ 64)

/-- One element's access: position, address, memory format and its rounding code. -/
structure Elt where
  e : Nat
  va : Nat
  fmt : Nat
  rnd : Nat
  deriving DecidableEq, Repr

/-- Memory width in bytes of a format for type t (R194). -/
def memWidth (t : Ty) (fmt : Nat) : Nat := if fmt = 0 then t.width / 8 else (fmtTy fmt).width / 8

/-- What a view's own format settles before any element: an MX format, and an atomicity request on a width other than 8,
are ILLOP (R194, R195). -/
def checkView (at_ : At) (t : Ty) (v : ViewVal) : Op Unit := do
  guardFault (v.fmt < 9 || 12 ≤ v.fmt) fcILLOP
  guardFault (at_ == .dflt || 12 ≤ v.fmt || memWidth t v.fmt == 8) fcILLOP

/-- The formats of banks that a word has read, by bank: it reads each once (R225). -/
abbrev Fmts := List (Nat × Nat × Nat)

/-- The format of the bank at an address, as this word reads it. -/
def bankFmtOnce (a : Acc) (seen : Fmts) (pa : Nat) : Op ((Nat × Nat) × Fmts) := do
  match seen.find? fun p => p.1 == pa / 0x40000 with
  | some p => return (p.2, seen)
  | none => do
    let f ← bankFmt a pa
    return (f, (pa / 0x40000, f) :: seen)

/-- The format of the element at an address (R194); an MX format of its bank is ILLOP. `dflt` is the rounding of what does not come
from a bank's register; `bank` says that a bank's register supplies its own. -/
def eltOf (a : Acc) (kind : Kind) (v : ViewVal) (dflt : Nat) (bank : Bool) (seen : Fmts) (e va : Nat) : Op (Elt × Fmts) := do
  if v.fmt < 12 then return (⟨e, va, v.fmt, dflt⟩, seen)
  else
    let pa ← translate a kind va
    let ((f, r), seen) ← bankFmtOnce a seen pa
    guardFault (f < 9) fcILLOP
    return (⟨e, va, f, if bank && tierOf pa == some .scratch then r else dflt⟩, seen)

/-- The elements of a word, given with their addresses. -/
def eltsOf (a : Acc) (kind : Kind) (v : ViewVal) (dflt : Nat) (bank : Bool) : Fmts → List (Nat × Nat) → Op (List Elt)
  | _, [] => return []
  | seen, (e, va) :: l => do
    let (x, seen) ← eltOf a kind v dflt bank seen e va
    let xs ← eltsOf a kind v dflt bank seen l
    return x :: xs

/-- The checks of an atomicity request (R195). -/
def checkAtomic (at_ : At) (a : Acc) (t : Ty) (v : ViewVal) (els : List Elt) : Op Unit := do
  let width8 := els.all fun x => memWidth t x.fmt == 8
  match at_ with
  | .dflt => pure ()
  | .a8 =>
    guardFault width8 fcILLOP
    els.forM fun x => if x.va % 8 = 0 then pure () else accFault a fcALIGN x.va
  | .a16 =>
    guardFault width8 fcILLOP
    els.forM fun x =>
      let mate := if x.e % 2 = 0 then x.e + 1 else x.e - 1
      if !(els.any fun y => y.e == mate) then accFault a fcALIGN x.va
      else if x.e % 2 = 0 && !(v.str.getD 0 0 == 8 && x.va % 16 == 0) then accFault a fcALIGN x.va
      else pure ()

/-- Accesses of a word in ascending element: address, bytes, and whether it is one unit; of a 16-byte pair one, of a pair
that is not adjacent two (log entry 103). -/
def accesses (at_ : At) (t : Ty) : List Elt → List (Nat × Nat × Bool)
  | [] => []
  | [x] => [(x.va, memWidth t x.fmt, at_ != .dflt)]
  | x :: y :: l =>
    if at_ == .a16 && x.e % 2 = 0 && y.e == x.e + 1 && y.va == x.va + 8 then (x.va, 16, true) :: accesses at_ t l
    else (x.va, memWidth t x.fmt, at_ != .dflt) :: accesses at_ t (y :: l)

def Elt.bits (x : Elt) (t : Ty) : Bool := x.fmt = 0 || fmtTy x.fmt == t

/-- The type in memory of an element: raw bytes are of the type itself. -/
def Elt.ty (x : Elt) (t : Ty) : Ty := if x.fmt = 0 then t else fmtTy x.fmt

/-- The modes of a word's elements, between memory format and type (R194). -/
def eltModes (x : VCtx) (t : Ty) (store : Bool) (els : List Elt) : Op (List (RMode × Flags)) :=
  modesFor x (els.map fun y => ⟨y.e, y.rnd, !y.bits t && if store then convRounds t (y.ty t) else convRounds (y.ty t) t⟩)

/-- The conversion between memory format and type; as bits for raw bytes and for the type itself (R194). -/
def eltConvert (src dst : Ty) (bits : Bool) (md : RMode × Flags) (v : Nat) : Nat × Flags :=
  if bits then (v, 0)
  else
    let (r, g) := convert src dst md.1 false v
    (r, md.2 ||| g)

/-! The map of a load (R207). -/

/-- The memory width that divides the strides: that of a byte at the view's effective base. Of a bank with an MX format
the manual states none (log entry 20). -/
def loadWidth (a : Acc) (t : Ty) (v : ViewVal) : Op (Nat × Fmts) := do
  if v.fmt < 9 then return (memWidth t v.fmt, [])
  else
    let s ← get
    match s.peekXlate a.own a.root v.base with
    | none => return (t.width / 8, [])
    | some pa =>
      let ((f, _), seen) ← bankFmtOnce a [] pa
      if f < 9 then return (memWidth t f, seen)
      else
        let s ← get
        set { s with draws := s.draws + 1 }
        return ((Config.freeWord s.draws).toNat % 16 + 1, seen)

/-- The affine map of a view at an offset; a stride past 32 bits wraps (log entry 103). -/
def ViewVal.map (v : ViewVal) (o : Int) (w : Nat) : AffMap :=
  let perm := fun k => fld v.perm (2 * k) 2
  let lam := fun k => wrapS 32 (v.str.getD k 0 / (w : Int))
  { rank := v.rank, skew := o, ext := v.ext, org := v.org,
    m := (List.range 16).map fun n => if n % 4 < v.rank && perm (n % 4) == n / 4 then 1 else 0,
    lam := (List.range 4).map lam,
    lb := wrapS 64 ((List.range v.rank).foldl (fun x k => x + lam k * v.org.getD (perm k) 0) 0) }

/-! VLD and VST. -/

/-- The view of a word; a rank outside 1 to 4 is ILLOP (R193). -/
def rdViewRank (vw : Nat) : Op ViewVal := do
  let v ← rdViewV vw
  guardFault (1 ≤ v.rank && v.rank ≤ 4) fcILLOP
  return v

def vldOp (at_ : At) (t : Ty) (p : Nat) (m : Rnd) (d vw o : Nat) : Op Unit := do
  needDest d
  let a ← accHere
  let v ← rdViewRank vw
  checkView at_ t v
  let code ← vMode m
  let (w, seen) ← loadWidth a t v
  let map := VMap.affine (v.map (sx 13 o) w)
  let x ← vctx map p
  let els ← eltsOf a .read v code false seen (((List.range t.count).filter x.active).map fun e =>
    (e, (v.addr (sx 13 o) e).getD 0))
  checkAtomic at_ a t v els
  let bytes ← (accesses at_ t els).mapM fun q => readBytes a q.2.2 q.1 q.2.1
  let data := bytes.flatten
  -- the bytes of the elements stand one after the other
  let starts := els.foldl (fun (acc : List Nat × Nat) y => (acc.1 ++ [acc.2], acc.2 + memWidth t y.fmt)) ([], 0)
  let modes ← eltModes x t false els
  let vals := ((els.zip starts.1).zip modes).map fun ((y, off), md) =>
    (y.e, eltConvert (y.ty t) t (y.bits t) md (leNat ((data.drop off).take (memWidth t y.fmt))))
  vFlags x (vals.foldl (fun f q => f ||| q.2.2) 0)
  let byE := fun e => vals.find? fun q => q.1 == e
  writeOut t.width d ((List.range t.count).map fun e =>
    match byE e with
    | some (_, r, _) => .val r
    | none => if x.isVoid e then .zero else .keep)
  setMapOf d map

def execVld (h : Hdr) (at_ : At) (t : Ty) (p : Nat) (m : Rnd) (d vw o : Nat) (s : State) : Res :=
  runOp (.vld h at_ t p m d vw o) h (vldOp at_ t p m d vw o) s

/-- Translate every access for writing before any byte is stored (R196). -/
def storeChunks (a : Acc) (l : List (Nat × Nat × Bool)) : Op (List (List Chunk × Bool)) :=
  l.mapM fun q => do
    let cs ← chunks a .write q.1 q.2.1
    return (cs, q.2.2)

/-- Store the bytes of each access, in order. -/
def storeAll (a : Acc) : List (List Chunk × Bool) → List Byte → Op Unit
  | [], _ => pure ()
  | (cs, one) :: l, bytes => do
    let n := cs.foldl (fun x c => x + c.len) 0
    writeChunks a one cs (bytes.take n)
    storeAll a l (bytes.drop n)

def vstOp (at_ : At) (t : Ty) (p : Nat) (m : Rnd) (d vw o : Nat) : Op Unit := do
  let src ← readSrc d
  let a ← accHere
  let v ← rdViewRank vw
  checkView at_ t v
  let code ← vMode m
  let c ← here
  let (map, seen) ← if d < 640 then pure (c.mapOf d, []) else do
    let (w, seen) ← loadWidth a t v
    pure (VMap.affine (v.map (sx 13 o) w), seen)
  let x ← vctx map p
  let live := (List.range t.count).filter fun e => x.active e && (v.addr (sx 13 o) e).isSome
  let els ← eltsOf a .write v code (m == .dyn) seen (live.map fun e => (e, (v.addr (sx 13 o) e).getD 0))
  checkAtomic at_ a t v els
  let cs ← storeChunks a (accesses at_ t els)
  let s ← get
  bufferRoom a (s.toBuffer a (cs.flatMap Prod.fst))
  -- the VST waits no more
  let modes ← eltModes x t true els
  let vals := (els.zip modes).map fun (y, md) =>
    let (raw, f) := srcElem x t src y.e
    let (r, g) := eltConvert t (y.ty t) (y.bits t) md raw
    (leBytes (memWidth t y.fmt) r, f ||| g)
  vFlags x (vals.foldl (fun f q => f ||| q.2) 0)
  learnPopped
  storeAll a cs (vals.flatMap Prod.fst)

def execVst (h : Hdr) (at_ : At) (t : Ty) (p : Nat) (m : Rnd) (d vw o : Nat) (s : State) : Res :=
  runOp (.vst h at_ t p m d vw o) h (vstOp at_ t p m d vw o) s

/-! Sparse volumes: the descriptor (R384). -/

structure Vol where
  desc : Nat
  rank : Nat
  fmt : Nat
  shape : Nat
  depth : Nat
  bg : Nat
  ext : List Nat
  org : List Int
  root : Nat
  pool : Nat
  deriving DecidableEq, Repr

/-- The tile's extents (R387). -/
def Vol.sh (v : Vol) : List Nat :=
  match v.shape with
  | 0 => [8, 8, 8, 1] | 1 => [32, 16, 1, 1] | _ => [4, 4, 4, 8]

def Vol.ty (v : Vol) : Ty := fmtTy v.fmt

/-- Bytes of a tile, and of a block. -/
def Vol.tileBytes (v : Vol) : Nat := 512 * (v.ty.width / 8)

/-- Tiles along dimension d. -/
def Vol.nt (v : Vol) (d : Nat) : Nat :=
  if d < v.rank then (v.ext.getD d 0 + v.sh.getD d 1 - 1) / v.sh.getD d 1 else 1

def Vol.ok (v : Vol) : Bool :=
  2 ≤ v.rank && v.rank ≤ 4 && 1 ≤ v.fmt && v.fmt ≤ 8 && v.shape < 3 && 1 ≤ v.depth && v.depth ≤ 5
    && v.rank == (match v.shape with | 0 => 3 | 1 => 2 | _ => 4)
    && v.nt 0 * v.nt 1 * v.nt 2 * v.nt 3 ≤ 64 ^ v.depth
    && v.root % 512 == 0 && v.root ≠ 0

/-- Read and check the descriptor; `store` adds the checks of VSTC. -/
def readVol (a : Acc) (va : Nat) (store : Bool) : Op Vol := do
  let b ← readBytes a false va 64
  let n := fun off len => leNat ((b.drop off).take len)
  let v : Vol := ⟨va, n 0 1, n 1 1, n 2 1, n 3 1, n 8 8, (List.range 4).map fun i => n (16 + 4 * i) 4,
    (List.range 4).map fun i => sval 32 (n (32 + 4 * i) 4), n 48 8, n 56 8⟩
  guardFault v.ok fcVOLDESC
  if store then
    guardFault (v.pool % 16 = 0) fcVOLDESC
    let s ← get
    guardFault ((s.peekXlate a.own a.root v.pool).any fun pa => tierOf pa == some .scratch) fcVOLDESC
  else pure ()
  return v

/-- Tile number and place within it of an element at volume coordinates u; none outside (R387). -/
def Vol.locate (v : Vol) (u : List Int) : Option (Nat × Nat) :=
  let inside := (List.range v.rank).all fun d => 0 ≤ u.getD d 0 && u.getD d 0 < (v.ext.getD d 0 : Int)
  if !inside then none
  else
    let un := fun d => if d < v.rank then (u.getD d 0).toNat else 0
    let tc := fun d => un d / v.sh.getD d 1
    let w := fun d => un d % v.sh.getD d 1
    let mix := fun (x : Nat → Nat) (n : Nat → Nat) => x 0 + n 0 * (x 1 + n 1 * (x 2 + n 2 * x 3))
    some (mix tc v.nt, mix w fun d => v.sh.getD d 1)

/-! The look-aside buffer (R388). -/

def Core.clbFind (c : Core) (desc tl : Nat) : Option Nat :=
  (c.clb.find? fun e => e.desc == desc && e.tile == tl).map ClbEnt.addr

/-- An entry becomes the most recently used of 64. -/
def Core.clbUse (c : Core) (v : Vol) (tl addr : Nat) : Core :=
  let mine := fun (e : ClbEnt) => e.desc == v.desc && e.tile == tl
  let frames := ((c.clb.find? mine).map ClbEnt.frames).getD []
  { c with clb := (⟨v.desc, tl, wfld (c.creg crXROOT) 0 12, addr, v.tileBytes, frames⟩
      :: c.clb.filter fun e => !mine e).take 64 }

/-- Stores through the entry of a tile go to these physical pieces (R391). -/
def Core.clbNote (c : Core) (desc tl : Nat) (l : List (Nat × Nat)) : Core :=
  { c with clb := c.clb.map fun e =>
      if e.desc == desc && e.tile == tl then { e with frames := (e.frames ++ l).eraseDups } else e }

/-- The part of a tile that lies in the page of a piece, as physical address and size. -/
def tilePart (v : Vol) (tile : Nat) (c : Chunk) : Nat × Nat :=
  let page := c.va / 4096 * 4096
  let lo := max tile page
  (c.pa - (c.va - lo), min (tile + v.tileBytes) (page + 4096) - lo)

/-! The walk (R385, R387). -/

/-- A node or tile of which a page lies in a host aperture is VOLDESC. -/
def volPlace (a : Acc) (va len : Nat) : Op Unit := do
  let s ← get
  guardFault ((pieces va 3 len).all fun p =>
    !((s.peekXlate a.own a.root p.1).any fun pa => tierOf pa == some .host)) fcVOLDESC

def entAddr (e : Nat) : Nat := fld e 9 48 * 512

/-- Virtual address of the entry at level j (1 the top) of tile TL in a node. -/
def entVa (v : Vol) (node tl j : Nat) : Nat := node + 8 * (tl / 64 ^ (v.depth - j) % 64)

/-- Follow the tree for reading: the tile's address, or none where an entry reads 00 or 10. -/
def volWalk (a : Acc) (v : Vol) (tl : Nat) : Nat → Nat → Op (Option Nat)
  | 0, node => do
    volPlace a node v.tileBytes
    return some node
  | n + 1, node => do
    volPlace a node 512
    let e ← readNat a true (entVa v node tl (v.depth - n)) 8
    match e % 4 with
    | 1 => volWalk a v tl n (entAddr e)
    | 3 => fault fcVOLDESC
    | _ => return none

/-- The tile of an element for VLDC; a complete walk fills the look-aside buffer. -/
def tileOf (a : Acc) (v : Vol) (tl : Nat) : Op (Option Nat) := do
  let c ← here
  match c.clbFind v.desc tl with
  | some t => do
    volPlace a t v.tileBytes
    putHere (c.clbUse v tl t)
    return some t
  | none => do
    let r ← volWalk a v tl v.depth v.root
    match r with
    | some t => modHere fun c => c.clbUse v tl t
    | none => pure ()
    return r

/-- Volume coordinates of element e (R387), with the flags of the coordinates. -/
def volCoord (x : VCtx) (vw : ViewVal) (v : Vol) (o : List Int) (e : Nat) : List Int × Flags :=
  ((List.range 4).map fun d => (x.coord e d).1 + vw.org.getD d 0 + o.getD d 0 - v.org.getD d 0, (x.coord e 0).2)

/-- Signed offsets of the word. -/
def volOffs (o0 o1 o2 : Nat) : List Int := [sx 3 o0, sx 3 o1, sx 3 o2, 0]

/-- VLDC. Values move as bits, as R390 says of the two instructions, whatever R223 lists (log entry 96). -/
def vldcOp (p d areg vw o0 o1 o2 : Nat) : Op Unit := do
  needDest d
  let a ← accHere
  let view ← rdViewV vw
  let v ← readVol a view.base false
  let c ← here
  let t := v.ty
  let x ← vctx (c.mapOf areg) p
  let els := (List.range t.count).filter x.active
  let locs := els.map fun e => (e, volCoord x view v (volOffs o0 o1 o2) e)
  vFlags x (locs.foldl (fun f q => f ||| q.2.2) 0)
  let vals ← locs.mapM fun q => do
    let bg := v.bg % 2 ^ t.width
    match v.locate q.2.1 with
    | none => return (q.1, bg)
    | some (tl, within) =>
      match ← tileOf a v tl with
      | none => return (q.1, bg)
      | some tile =>
        let n ← readNat a false ((tile + within * (t.width / 8)) % 2 ^ 64) (t.width / 8)
        return (q.1, n)
  writeOut t.width d ((List.range t.count).map fun e =>
    match vals.find? fun q => q.1 == e with
    | some (_, r) => .val r
    | none => if x.isVoid e then .zero else .keep)
  setMapOf d x.map

def execVldc (h : Hdr) (p d a vw o0 o1 o2 : Nat) (s : State) : Res :=
  runOp (.vldc h p d a vw o0 o1 o2) h (vldcOp p d a vw o0 o1 o2) s

/-! Allocation (R389). -/

/-- A fault of the operation leaves the state as it stood before it, not as it stood before the word. -/
def keepOnFault {α : Type} (op : Op α) : Op α := fun s =>
  match op.run s with
  | .error (.fault f) => .error (.faultKeep f s)
  | r => r

/-- Fill a block with bytes that every path sees. -/
def fillBlock (a : Acc) (va : Nat) (bytes : List Byte) : Op Unit := do
  volPlace a va bytes.length
  let cs ← chunks a .write va bytes.length
  let _ ← cs.foldlM (fun (rest : List Byte) c => do
    eccCheckWrite a c.va c.pa c.len
    modify fun s => s.poke c.pa (rest.take c.len)
    return rest.drop c.len) bytes
  pure ()

/-- Pop a block from the pool (R386); none when it is empty. -/
def popPool (a : Acc) (v : Vol) : Op (Option Nat) := do
  let pa ← bankTarget a .rmw v.pool 16
  let h ← bankRead a v.pool pa 16
  let n := leNat (h.take 4)
  if n = 0 then return none
  else
    bankWrite a v.pool pa (leBytes 4 (n - 1))
    let b ← readNat a true ((leNat (h.drop 8) + 8 * (n - 1)) % 2 ^ 64) 8
    return some b

/-- The value of an entry at its bank or controller, whatever path has seen of it; an iteration sees its own buffer
over it. The page need not be writable to look. -/
def entryLatest (a : Acc) (ent : Nat) : Op Nat := do
  let pa ← translate a .read ent
  eccCheckRead a ent pa 8
  let s ← get
  match s.inIter a, a.own with
  | true, some k => return leNat (overBuf (s.core k).spec.buf pa (s.peek pa 8))
  | _, _ => return leNat (s.peek pa 8)

/-- The latest value of an entry is replaced, as one unit (R389). -/
def entryPut (a : Acc) (ent x : Nat) : Op Unit := do
  let pa ← translate a .rmw ent
  eccCheckWrite a ent pa 8
  let s ← get
  writeUnit { a with writer := none } (s.boundTo a ent) pa (leBytes 8 x)

/-- Allocate at an entry whose latest value is x, 00: it is locked, and takes the block that the pool gives, or is 00 again
with VOLALLOC where the pool is empty. Answers its new value. `tile` says that the block is a tile; e and TL name the
element for VOLALLOC. -/
def allocate (a : Acc) (v : Vol) (ent x : Nat) (tile : Bool) (e tl : Nat) : Op Nat := do
  entryPut a ent (x + 2)
  match ← popPool a v with
  | none => do
    entryPut a ent x
    let s ← get
    throw (.faultKeep (.ofStream s.curStream fcVOLALLOC (BitVec.ofNat 64 v.desc)
      (BitVec.ofNat 64 (e * 2 ^ 55 + tl % 2 ^ 32))) s)
  | some b =>
    let w := v.ty.width / 8
    fillBlock a (b / 512 * 512 % 2 ^ 57) (if tile then (List.replicate 512 (leBytes w (v.bg % 2 ^ v.ty.width))).flatten
      else List.replicate 512 0)
    let new := fld b 9 48 * 512 + 1
    entryPut a ent new
    return new

/-- An entry that reads 00 or 10: the winner allocates, in frame mode at the next boundary; a loser waits while it is
locked and acts on what it reads. Its value once it is not 00 or 10, and whether this allocated it. -/
def resolveEntry (a : Acc) (v : Vol) (ent : Nat) (tile : Bool) (e tl : Nat) : Op (Nat × Bool) := do
  let c ← here
  let k ← coreId
  let x ← entryLatest a ent
  let s ← get
  let ag := agentOf k .v
  if x % 4 = 2 then hold
  else if x % 4 ≠ 0 then return (x, false)
  -- what was requested before the dispatch is no allocation of the iteration (R399)
  else if c.inIter && !(s.heldAllocs.any fun h => h.stream == ag) then fault fcSPECVIOL
  else if c.frame then
    if !(s.heldAllocs.any fun h => h.stream == ag) then
      set { s with heldAllocs := s.heldAllocs ++ [HeldAlloc.mk ag v.desc ent ((if tile then 2 ^ 50 else 0) + e * 2 ^ 40 + tl)] }
    else pure ()
    hold
  else do
    let y ← allocate a v ent x tile e tl
    return (y, true)

/-- Walk for a store, allocating; whether every entry read 01, and the tile. What the walk has allocated stands where it
faults later (R390). -/
def volStoreWalk (a : Acc) (v : Vol) (e tl : Nat) : Nat → Nat → Bool → Op (Nat × Bool)
  | 0, node, all => do
    volPlace a node v.tileBytes
    return (node, all)
  | n + 1, node, all => do
    volPlace a node 512
    let ent := entVa v node tl (v.depth - n)
    let x ← readNat a true ent 8
    match x % 4 with
    | 1 => volStoreWalk a v e tl n (entAddr x) all
    | 3 => fault fcVOLDESC
    | _ => do
      let (y, made) ← resolveEntry a v ent (n = 0) e tl
      if y % 4 = 3 then fault fcVOLDESC
      else if made then keepOnFault (volStoreWalk a v e tl n (entAddr y) false)
      else volStoreWalk a v e tl n (entAddr y) false

/-- The tile of an element for VSTC. -/
def tileForStore (a : Acc) (v : Vol) (e tl : Nat) : Op Nat := do
  let c ← here
  match c.clbFind v.desc tl with
  | some t => do
    volPlace a t v.tileBytes
    putHere (c.clbUse v tl t)
    return t
  | none => do
    let (t, all) ← volStoreWalk a v e tl v.depth v.root true
    if all then modHere fun c => c.clbUse v tl t else pure ()
    return t

/-- VSTC. Values move as bits, as R390 says (log entry 96). -/
def vstcOp (p d areg vw o0 o1 o2 : Nat) : Op Unit := do
  let a ← accHere
  let view ← rdViewV vw
  let v ← readVol a view.base true
  let c ← here
  let t := v.ty
  let x ← vctx (c.mapOf areg) p
  checkAgree x t.count (regsOf [areg, d])
  let els := (List.range t.count).filter x.active
  let locs := els.map fun e => (e, volCoord x view v (volOffs o0 o1 o2) e)
  let fl := locs.foldl (fun f q => f ||| q.2.2) 0
  guardFault (!(x.chk && fl &&& fMapLost ≠ 0)) fcMAPLOST
  guardFault (locs.all fun q => (v.locate q.2.1).isSome) fcBOUNDS
  let addrs ← locs.mapM fun q => do
    let (tl, within) := (v.locate q.2.1).getD (0, 0)
    let tile ← keepOnFault (tileForStore a v q.1 tl)
    return (q.1, (tl, tile), (tile + within * (t.width / 8)) % 2 ^ 64)
  -- allocations made before a fault stand
  keepOnFault do
    let src ← readSrc d
    let vals := addrs.map fun q => (q.2.2, srcElem x t src q.1)
    let lost := vals.foldl (fun f q => f ||| q.2.2) fl &&& fMapLost
    let cs ← storeChunks a (vals.map fun q => (q.1, t.width / 8, false))
    let s ← get
    bufferRoom a (s.toBuffer a (cs.flatMap Prod.fst))
    vFlags x lost
    learnPopped
    storeAll a cs (vals.flatMap fun q => leBytes (t.width / 8) q.2.1)
    modHere fun c => (addrs.zip cs).foldl (fun c q => c.clbNote v.desc q.1.2.1.1 (q.2.1.map (tilePart v q.1.2.1.2))) c

def execVstc (h : Hdr) (p d a vw o0 o1 o2 : Nat) (s : State) : Res :=
  runOp (.vstc h p d a vw o0 o1 o2) h (vstcOp p d a vw o0 o1 o2) s

end Sys2Proof.Machine
end

