-- ==== Sys2Proof/Machine/Matrix.lean ====
section
/-! DEFINITION. The words of M (R272 to R286) with the tile registers, the weight buffer, the accumulator cells and the
epilogue unit (R256 to R264, R283), and VSAL (R287). -/

namespace Sys2Proof.Machine

/-! The plane (R259, R260). -/

/-- A field of the active plane. -/
def Core.pf (c : Core) (id : Nat) : Nat := (SMap.get 0 c.plane id).toNat

def levelField (l f : Nat) : Nat := 0x10 + 8 * l + f

def tileField (n k : Nat) : Nat := 0x100 + 0x20 * n + k

/-- Σ over the levels of the running nest of index times a signed stride (R263). -/
def Core.nestSum (c : Core) (f w : Nat) : Int :=
  match c.nest with
  | some (idx, _) => (List.range 6).foldl (fun x l => x + (idx.getD l 0 : Nat) * sval w (c.pf (levelField l f))) 0
  | none => 0

/-- A tile with its effective region and map. -/
structure Tile where
  row0 : Nat
  col0 : Nat
  rows : Nat
  cols : Nat
  /-- f32 accumulators. -/
  f32 : Bool
  map : AffMap
  deriving DecidableEq, Repr

/-- A map moved by Δr rows and Δc columns (R263). -/
def AffMap.moved (a : AffMap) (dr dc : Int) : AffMap :=
  { a with org := (List.range 4).map fun d => a.org.getD d 0 + a.entry d 0 * dr + a.entry d 1 * dc,
           lb := a.lb + a.lam.getD 0 0 * dr + a.lam.getD 1 0 * dc }

def Tile.fmt (t : Tile) : FFmt := if t.f32 then fmt32 else fmt64

/-- The natural map of a region (R260). -/
def naturalMap (row0 col0 : Int) (rows cols : Nat) : AffMap :=
  ⟨2, 0, [rows, cols, 1, 1], [row0, col0, 0, 0], AffMap.dflt.m, [(cols : Int), 1, 0, 0], 0⟩

/-- The map that fields 5 to 23 of tile register n hold; none for the natural map. -/
def Core.tileMap (c : Core) (n : Nat) : Option AffMap :=
  let f := fun k => c.pf (tileField n k)
  if f 5 = 0 then none
  else some {
    rank := f 5, skew := sval 32 (f 6), ext := (List.range 4).map fun k => f (7 + k),
    org := (List.range 4).map fun k => sval 32 (f (11 + k)),
    m := (List.range 16).map fun i => sval 8 (fld (f (15 + i / 4)) (8 * (i % 4)) 8),
    lam := (List.range 4).map fun k => sval 32 (f (19 + k)), lb := sval 48 (f 23) }

/-- Tile register n as a word uses it; a region outside the store is BOUNDS (R260). -/
def tile (n : Nat) : Op Tile := do
  let c ← here
  let f := fun k => c.pf (tileField n k)
  let dr := c.nestSum 3 16
  let dc := c.nestSum 4 16
  let r0 : Int := f 0 + dr
  let c0 : Int := f 1 + dc
  let rows := f 2 + 1
  let cols := f 3 + 1
  guardFault (0 ≤ r0 && 0 ≤ c0 && r0 + rows ≤ 256 && c0 + cols ≤ 128) fcBOUNDS
  let map := match c.tileMap n with
    | some m => m.moved dr dc
    | none => naturalMap r0 c0 rows cols
  return ⟨r0.toNat, c0.toNat, rows, cols, f 4 == 1, map⟩

/-- Coordinate d of the element at row offset i and column offset j (R260). -/
def Tile.coord (t : Tile) (i j d : Nat) : Int :=
  wrapS 32 (t.map.org.getD d 0 + t.map.entry d 0 * i + t.map.entry d 1 * j)

/-- A map transposed: index dimensions 0 and 1 exchanged (R213, R282). -/
def AffMap.transposed (a : AffMap) : AffMap :=
  let sw := fun k => if k = 0 then 1 else if k = 1 then 0 else k
  { a.columns sw with ext := (List.range 4).map fun k => a.ext.getD (sw k) 1,
                      lam := (List.range 4).map fun k => a.lam.getD (sw k) 0 }

/-! Cells (R258). -/

def cellKey (r c : Nat) : Nat := 128 * r + c

/-- Read a cell of a tile as a pattern of its accumulator format. -/
def rdCell (t : Tile) (i j : Nat) : Op Nat := do
  let k := cellKey (t.row0 + i) (t.col0 + j)
  arrayRead 17 k 1
  let c ← here
  return (SMap.get 0 c.cell k).toNat % 2 ^ t.fmt.bits

/-- Write a cell; bits [63:32] of an f32 accumulator become zero. -/
def wrCell (t : Tile) (i j v : Nat) : Op Unit := do
  let k := cellKey (t.row0 + i) (t.col0 + j)
  arrayWrite 17 k 1
  modHere fun c => { c with cell := SMap.set 0 c.cell k (BitVec.ofNat 64 (v % 2 ^ t.fmt.bits)) }

/-- Row and column offsets of a region in loop order. -/
def pairs (rows cols : Nat) : List (Nat × Nat) :=
  (List.range rows).flatMap fun i => (List.range cols).map fun j => (i, j)

/-! Formats (R68, R274). -/

/-- Group size. -/
def groupSize : MFmt → Nat
  | .f64 | .f32 => 1
  | .bf16 | .f16 => 16
  | _ => 64

/-- The number of f under R42. -/
def mfmtCode : MFmt → Nat
  | .f64 => 0 | .f32 => 1 | .bf16 => 2 | .f16 => 3 | .mx8 => 4 | .mx6 => 5 | .mx4 => 6

/-- Its bank code (R43, R273). -/
def mfmtBank (f : MFmt) : Nat := if mfmtCode f < 4 then mfmtCode f + 1 else mfmtCode f + 5

def mfmtMx : MFmt → MxW
  | .mx6 => .mx6 | .mx4 => .mx4 | _ => .mx8

def mfmtTy : MFmt → Ty
  | .f32 => .f32 | .bf16 => .bf16 | .f16 => .f16 | _ => .f64

/-- The accumulator format agrees with f. -/
def accOk (f : MFmt) (t : Tile) : Bool :=
  match f with
  | .f64 => !t.f32
  | .f32 => true
  | _ => t.f32

/-- A value of a NaN MX block counts as a NaN. -/
def mxVal (w : MxW) (block i : Nat) : Val := (mxElem w block i).getD (.nan false)

/-- Weight-buffer format of the plane: element format and compression. -/
def Core.wbFmt (c : Core) : Nat × Nat := (c.pf 3 / 8, c.pf 3 % 8)

/-- n, m and log2 m of a compression (R279). -/
def sparsity (comp : Nat) : Nat × Nat × Nat :=
  match comp with
  | 1 => (2, 4, 2) | 2 => (1, 4, 2) | 3 => (2, 8, 3) | _ => (1, 1, 0)

/-- Bytes of n values of f. -/
def valueBytes (f : MFmt) (n : Nat) : Nat := if f.isMx then n / 16 * (mfmtMx f).size else n * (mfmtTy f).width / 8

/-- Values kept of K, value bytes and all bytes of a column image (R279). -/
def colBytes (f : MFmt) (comp K : Nat) : Nat × Nat × Nat :=
  let (n, m, lg) := sparsity comp
  let kept := K * n / m
  let vb := valueBytes f kept
  (kept, vb, vb + if comp = 0 then 0 else (K * n * lg + 8 * m - 1) / (8 * m))

/-- 64-byte units of a column. -/
def colUnits (f : MFmt) (comp K : Nat) : Nat := ((colBytes f comp K).2.2 + 63) / 64

/-- Value v of a column image, as a number of bytes. -/
def imageVal (f : MFmt) (img v : Nat) : Val :=
  if f.isMx then
    let b := 8 * (mfmtMx f).size
    mxVal (mfmtMx f) (fld img (b * (v / 16)) b) (v % 16)
  else
    let w := (mfmtTy f).width
    tyVal (mfmtTy f) (fld img (w * v) w)

/-- The position in its group of kept value v. -/
def imageIdx (f : MFmt) (comp K img v : Nat) : Nat :=
  let (_, _, lg) := sparsity comp
  fld img (8 * (colBytes f comp K).2.1 + lg * v) lg

/-- The kept values of group g, by number: the n of a whole group, or those that are left of a K that m does not divide
(log entry 100). -/
def groupVals (comp K g : Nat) : List Nat :=
  let (n, m, _) := sparsity comp
  (List.range n).filterMap fun v => if n * g + v < K * n / m then some (n * g + v) else none

/-- The value at position k of a column; none where the compression drops it. -/
def imageAt (f : MFmt) (comp K img k : Nat) : Option Val :=
  if comp = 0 then some (imageVal f img k)
  else
    let (_, m, _) := sparsity comp
    ((groupVals comp K (k / m)).find? fun v => imageIdx f comp K img v == k % m).map (imageVal f img)

/-- The indices of each group ascend strictly (R280). -/
def imageOk (f : MFmt) (comp K img : Nat) : Bool :=
  let (_, m, _) := sparsity comp
  comp = 0 || (List.range ((K + m - 1) / m)).all fun g =>
    let l := groupVals comp K g
    (l.zip (l.drop 1)).all fun p => imageIdx f comp K img p.1 < imageIdx f comp K img p.2

/-! The weight buffer (R256, R279). -/

/-- cu units from u as a number. -/
def rdUnits (u cu : Nat) : Op Nat := do
  arrayRead 18 (8 * u) (8 * cu)
  let c ← here
  return (List.range cu).foldr (fun i x => (SMap.get 0 c.wbuf (u + i)).toNat + 2 ^ 512 * x) 0

def wrUnits (u cu img : Nat) : Op Unit := do
  arrayWrite 18 (8 * u) (8 * cu)
  let l : List (BitVec 512) := (List.range cu).map fun i => BitVec.ofNat 512 (fld img (512 * i) 512)
  modHere fun c => { c with wbuf := SMap.setRange 0 c.wbuf u l }

/-- The effective weight-buffer offset; a field or an effective offset outside the buffer is BOUNDS (R37, R263). -/
def wbEff (wb : Nat) : Op Nat := do
  let c ← here
  let w : Int := wb + c.nestSum 2 16
  guardFault (wb ≤ 16383 && 0 ≤ w && w ≤ 16383) fcBOUNDS
  return w.toNat

/-- A block of len units from an offset; one that runs past the buffer is BOUNDS (R263). -/
def wbBlock (u len : Nat) : Op Nat := do
  guardFault (u ≤ 16383 && u + len ≤ 16384) fcBOUNDS
  return u

/-! A (R273). -/

/-- The view of an M word with the nest's byte strides (R165, R263). -/
def rdViewM (vw : Nat) : Op ViewVal := do
  let v ← rdView vw
  let c ← here
  return { v with base := (v.base + wrap 64 (c.nestSum 1 48)) % 2 ^ 64 }

/-- base + i * s + j * t, mod 2^64. -/
def strideAt (base : Nat) (i : Nat) (s : Int) (j : Nat) (t : Int) : Nat :=
  (base + wrap 64 ((i : Int) * s + (j : Int) * t)) % 2 ^ 64

/-- Every byte lies in the own scratchpad window, in a granted bank; else PROT. -/
def ownWindow (a : Acc) (va len : Nat) : Op Unit := do
  if 0x400000 < va + len then accFault a fcPROT va
  else
    let _ ← chunks a .read va len
    pure ()

/-- Read one element or block of A: its place, its format, its bytes. -/
def rdA (a : Acc) (v : ViewVal) (f : MFmt) (va len : Nat) : Op Nat := do
  ownWindow a va len
  let code ← if v.fmt < 12 then pure v.fmt else do
    let pa ← translate a .read va
    let (b, _) ← bankFmt a pa
    pure b
  guardFault (code = 0 || code = mfmtBank f) fcILLOP
  readNat a false va len

/-- Checks of the A view of a word for `rows` rows and K products. -/
def checkA (v : ViewVal) (tr : Bool) (K rows : Nat) : Op Unit := do
  guardFault (v.rank = 2) fcILLOP
  let (e0, e1) := (v.ext.getD 0 0, v.ext.getD 1 0)
  guardFault (if tr then rows ≤ e0 && K ≤ e1 else K ≤ e0 && rows ≤ e1) fcBOUNDS

/-- Row i of A: K values. -/
def rowA (a : Acc) (v : ViewVal) (f : MFmt) (tr : Bool) (K i : Nat) : Op (List Val) := do
  let (s0, s1) := (v.str.getD 0 0, v.str.getD 1 0)
  if f.isMx then
    let w := mfmtMx f
    let bs ← (List.range (K / 16)).mapM fun b => rdA a v f (strideAt v.base i s1 b w.size) w.size
    return bs.flatMap fun b => (List.range 16).map (mxVal w b)
  else
    let t := mfmtTy f
    (List.range K).mapM fun k => do
      let va := if tr then strideAt v.base i s0 k s1 else strideAt v.base k s0 i s1
      let p ← rdA a v f va (t.width / 8)
      return tyVal t p

/-! Products (R68, R277). -/

/-- The products of one group that are performed. -/
def groupProds (row : List Val) (col : Nat → Option Val) (k0 n : Nat) : List (Val × Val) :=
  (List.range n).filterMap fun i => (col (k0 + i)).map fun b => (row.getD (k0 + i) (.fin false 0 0 false), b)

/-- A cell's new value over kk groups. -/
def cellSum (f : FFmt) (g : Nat) (row : List Val) (col : Nat → Option Val) : Nat → Nat → Nat → Nat × Flags
  | 0, _, acc => (acc, 0)
  | n + 1, k0, acc =>
    let (x, fl) := groupSum f acc (groupProds row col k0 g)
    let (y, fl') := cellSum f g row col n (k0 + g) x
    (y, fl ||| fl')

/-- Rows r0 to r0 + rows - 1 of a tile accumulate over A rows of the same numbers and the block at u. What is to be
written: row, column, value; and the flags. -/
def productRows (t : Tile) (a : Acc) (v : ViewVal) (f : MFmt) (tr z : Bool) (comp kk u r0 rows : Nat) :
    Op (List (Nat × Nat × Nat) × Flags) := do
  let g := groupSize f
  let K := kk * g
  let cu := colUnits f comp K
  let ra ← (List.range rows).mapM fun i => rowA a v f tr K (r0 + i)
  let imgs ← (List.range t.cols).mapM fun j => rdUnits (u + j * cu) cu
  let out ← (pairs rows t.cols).mapM fun (p : Nat × Nat) => do
    let acc ← if z then pure 0 else rdCell t (r0 + p.1) p.2
    let (x, fl) := cellSum t.fmt g (ra.getD p.1 []) (imageAt f comp K (imgs.getD p.2 0)) kk 0 acc
    return ((r0 + p.1, p.2, x), fl)
  return (out.map Prod.fst, out.foldl (fun x p => x ||| p.2) 0)

/-- Write cells, and raise the flags. -/
def writeCells (t : Tile) (l : List (Nat × Nat × Nat)) (fl : Flags) : Op Unit := do
  l.forM fun p => wrCell t p.1 p.2.1 p.2.2
  raiseFlags fl

def kSteps (k : Nat) : Nat := if k = 0 then 256 else k

/-- MMA and MSMA. -/
def productOp (sparse tr z : Bool) (f : MFmt) (tn vw wb k : Nat) : Op Unit := do
  let t ← tile tn
  let c ← here
  let (ef, comp) := c.wbFmt
  guardFault (accOk f t && ef == mfmtCode f && comp < 4 && (sparse == (comp != 0))) fcILLOP
  let kk := kSteps k
  let K := kk * groupSize f
  let u ← wbEff wb
  let u ← wbBlock u (t.cols * colUnits f comp K)
  let v ← rdViewM vw
  checkA v tr K t.rows
  let a ← accHere
  let (l, fl) ← productRows t a v f tr z comp kk u 0 t.rows
  writeCells t l fl

def execMma (h : Hdr) (tr z : Bool) (f : MFmt) (t vw wb k : Nat) (s : State) : Res :=
  runOp (.mma h tr z f t vw wb k) h (productOp false tr z f t vw wb k) s
def execMsma (h : Hdr) (tr z : Bool) (f : MFmt) (t vw wb k : Nat) (s : State) : Res :=
  runOp (.msma h tr z f t vw wb k) h (productOp true tr z f t vw wb k) s

/-- The groups of a table: rows and block offset (R278). -/
def readGroups (a : Acc) (tb : Nat) : Op (List (Nat × Nat)) := do
  guardAddr (tb % 8 = 0) fcALIGN tb
  ownWindow a tb 8
  let w ← readNat a true tb 8
  let n := w % 128
  guardFault (n ≤ 64) fcENGCMD
  (List.range n).mapM fun q => do
    ownWindow a (tb + 8 * (q + 1)) 8
    let e ← readNat a true (tb + 8 * (q + 1)) 8
    return (fld e 0 16, fld e 16 15)

/-- Each group in turn, from tile row r. -/
def groupRows (t : Tile) (a : Acc) (v : ViewVal) (f : MFmt) (z : Bool) (comp kk : Nat) :
    List (Nat × Nat) → Nat → Op (List (Nat × Nat × Nat) × Flags)
  | [], _ => return ([], 0)
  | (0, _) :: l, r => groupRows t a v f z comp kk l r
  | (n + 1, u) :: l, r => do
    let (x, fl) ← productRows t a v f false z comp kk u r (n + 1)
    let (y, fl') ← groupRows t a v f z comp kk l (r + n + 1)
    return (x ++ y, fl ||| fl')

def mgrpOp (z : Bool) (f : MFmt) (tn vw wb k : Nat) : Op Unit := do
  let t ← tile tn
  let c ← here
  let (ef, comp) := c.wbFmt
  guardFault (accOk f t && ef == mfmtCode f && comp < 4) fcILLOP
  let kk := kSteps k
  let K := kk * groupSize f
  let u0 ← wbEff wb
  let v ← rdViewM vw
  let tv ← rdViewM ((vw + 1) % 32)
  let a ← accHere
  let gs ← readGroups a tv.base
  let sum := gs.foldl (fun x g => x + g.1) 0
  guardFault (sum ≤ t.rows && sum ≤ v.ext.getD 1 0) fcGRPBOUND
  let blocks ← gs.mapM fun g => do
    if g.1 = 0 then return (0, 0)
    else
      guardFault (v.rank = 2) fcILLOP
      guardFault (K ≤ v.ext.getD 0 0) fcBOUNDS
      let u ← wbBlock (u0 + g.2) (t.cols * colUnits f comp K)
      return (g.1, u)
  let (l, fl) ← groupRows t a v f z comp kk blocks 0
  writeCells t l fl

def execMgrp (h : Hdr) (z : Bool) (f : MFmt) (t vw wb k : Nat) (s : State) : Res :=
  runOp (.mgrp h z f t vw wb k) h (mgrpOp z f t vw wb k) s

/-! MLDW (R280). -/

def mldwOp (f : MFmt) (tn vw wb k : Nat) : Op Unit := do
  let t ← tile tn
  let c ← here
  let (ef, comp) := c.wbFmt
  guardFault (ef == mfmtCode f && comp < 4) fcILLOP
  let K := kSteps k * groupSize f
  let n := (colBytes f comp K).2.2
  let cu := colUnits f comp K
  let u ← wbEff wb
  let v ← rdViewM vw
  let a ← accHere
  let imgs ← (List.range t.cols).mapM fun j => readNat a false (strideAt v.base j (v.str.getD 1 0) 0 0) n
  let u ← wbBlock u (t.cols * cu)
  guardFault (imgs.all (imageOk f comp K)) fcENGCMD
  ((List.range t.cols).zip imgs).forM fun p => wrUnits (u + p.1 * cu) cu p.2

def execMldw (h : Hdr) (f : MFmt) (t vw wb k : Nat) (s : State) : Res :=
  runOp (.mldw h f t vw wb k) h (mldwOp f t vw wb k) s

/-! MZERO and ACOPY (R281, R282). -/

def mzeroOp (tn : Nat) : Op Unit := do
  let t ← tile tn
  (pairs t.rows t.cols).forM fun p => wrCell t p.1 p.2 0

def execMzero (h : Hdr) (t : Nat) (s : State) : Res := runOp (.mzero h t) h (mzeroOp t) s

/-- Fields 5 to 23 of tile n take a map. -/
def Core.setTileMap (c : Core) (n : Nat) (a : AffMap) : Core :=
  let b := fun (w : Nat) (i : Int) => BitVec.ofNat 48 (wrap w i)
  let vals : List (BitVec 48) :=
    [BitVec.ofNat 48 a.rank, b 32 a.skew] ++ (List.range 4).map (fun k => BitVec.ofNat 48 (a.ext.getD k 1 % 2 ^ 32))
    ++ (List.range 4).map (fun k => b 32 (a.org.getD k 0))
    ++ (List.range 4).map (fun d => BitVec.ofNat 48
        ((List.range 4).foldr (fun k x => wrap 8 (a.entry d k) + 256 * x) 0))
    ++ (List.range 4).map (fun k => b 32 (a.lam.getD k 0)) ++ [b 48 a.lb]
  { c with plane := SMap.setRange 0 c.plane (tileField n 5) vals }

def acopyOp (tr acc : Bool) (ts td : Nat) : Op Unit := do
  let x ← tile ts
  let y ← tile td
  guardFault (if tr then y.rows = x.cols && y.cols = x.rows else y.rows = x.rows && y.cols = x.cols) fcBOUNDS
  let out ← (pairs x.rows x.cols).mapM fun (p : Nat × Nat) => do
    let (i, j) := if tr then (p.2, p.1) else p
    let v ← rdCell x p.1 p.2
    let v := x.fmt.unpack v
    let r ← if acc then do
        let d ← rdCell y i j
        pure (fAdd y.fmt .rne (y.fmt.unpack d) v)
      else pure (finish y.fmt .rne [v] (v, 0))
    return ((i, j, r.1), r.2)
  writeCells y (out.map Prod.fst) (out.foldl (fun f q => f ||| q.2) 0)
  let m := if tr then x.map.transposed else x.map
  let c ← here
  putHere (c.setTileMap td (m.moved (-(c.nestSum 3 16)) (-(c.nestSum 4 16))))

def execAcopy (h : Hdr) (tr acc : Bool) (ts td : Nat) (s : State) : Res :=
  runOp (.acopy h tr acc ts td) h (acopyOp tr acc ts td) s

/-! The epilogue (R283 to R286). -/

def fEctl : Nat := 0x400
def fEscale : Nat := 0x401
def fEbias : Nat := 0x402
def fTkk : Nat := 0x403
def fTkaddr : Nat := 0x404
def fTkcd : Nat := 0x405
def fMapaddr : Nat := 0x406

/-- The scaled and biased value of a cell (R284), exact, with the flags of its special values. -/
def epilogueVal (c : Core) (a : Acc) (t : Tile) (i j cellBits : Nat) : Op (Val × Flags) := do
  let x := t.fmt.unpack cellBits
  let (x, f) := if (c.pf fEctl).testBit 0 then
      let s := fmt32.unpack (c.pf fEscale)
      let (y, g) := mulVals x s
      (y, g ||| sigFlags [x, s])
    else (x, 0)
  if (c.pf fEctl).testBit 1 then
    let va := (c.pf fEbias + wrap 64 (4 * t.coord i j 1)) % 2 ^ 64
    let b ← readNat a false va 4
    let y := fmt32.unpack b
    let (z, g) := sumVals false [x, y]
    return (z, f ||| g ||| sigFlags [x, y])
  else return (x, f)

/-- Whether one pair stands before another (R285): the greater value, then the lower coordinate. -/
def heapBefore (p q : Nat × Nat) : Bool :=
  let x := fmt32.unpack p.1
  let y := fmt32.unpack q.1
  ltVals y x || (!ltVals x y && decide (sval 32 p.2 < sval 32 q.2))

/-- A pair is offered to a heap of at most k. -/
def heapOffer (k : Nat) (l : List (Nat × Nat)) (p : Nat × Nat) : List (Nat × Nat) :=
  if (fmt32.unpack p.1).isNan then l.take k
  else ((l.takeWhile fun q => !heapBefore p q) ++ p :: l.dropWhile fun q => !heapBefore p q).take k

/-- Heaps cut to a lowered size (R285). -/
def Core.trimHeaps (c : Core) : Core :=
  let k := c.pf fTkk
  { c with heap := (c.heap.map fun p => (p.1, p.2.take k)).filter fun p => !p.2.isEmpty }

/-- What MDRAIN stores: address and bytes, one after the other, and the flags. -/
abbrev Drain := List (Nat × List Byte) × Flags

/-- The memory format at an address of the destination view. -/
def drainFmt (a : Acc) (v : ViewVal) (va : Nat) : Op Nat := do
  if v.fmt < 12 then return v.fmt
  else
    let pa ← translate a .write va
    let (b, _) ← bankFmt a pa
    return b

/-- Out(x) of one element in a format 0 to 8. -/
def drainElem (t : Tile) (mode : RMode) (fmt cellBits : Nat) (x : Val) : List Byte × Flags :=
  if fmt = 0 then (leBytes (t.fmt.bits / 8) cellBits, 0)
  else
    let ty := fmtTy fmt
    let (r, f) := if ty.isFloat then finish (ffmt ty) mode [x] (x, 0) else floatToInt ty mode x
    (leBytes (ty.width / 8) r, f ||| if ty.isFloat then 0 else sigFlags [x])

/-- The stores of a drain (R284). vals are the exact values, cells their bits, in loop order. -/
def drainStores (a : Acc) (t : Tile) (v : ViewVal) (tr : Bool) (mode : RMode) (vals : List Val) (cells : List Nat) :
    Op Drain := do
  let (s0, s1) := (v.str.getD 0 0, v.str.getD 1 0)
  let f0 ← drainFmt a v v.base
  if 9 ≤ f0 then
    guardFault (t.cols % 16 = 0 && !tr) fcILLOP
    let w := fmtMx f0
    let l := (List.range t.rows).flatMap fun i => (List.range (t.cols / 16)).map fun b =>
      let (blk, f) := mxQuantize w ((vals.drop (i * t.cols + 16 * b)).take 16)
      ((strideAt v.base i s1 b w.size, leBytes w.size blk), f)
    return (l.map Prod.fst, l.foldl (fun x p => x ||| p.2) 0)
  else
    let l ← ((pairs t.rows t.cols).zip (vals.zip cells)).mapM fun (q : (Nat × Nat) × (Val × Nat)) => do
      let (i, j) := q.1
      let va := if tr then strideAt v.base i s0 j s1 else strideAt v.base j s0 i s1
      let f ← drainFmt a v va
      guardFault (f < 9) fcILLOP
      let (b, fl) := drainElem t mode f q.2.2 q.2.1
      return ((va, b), fl)
    return (l.map Prod.fst, l.foldl (fun x p => x ||| p.2) 0)

/-- The words of a flushed heap (R286). -/
def heapWords (k : Nat) (l : List (Nat × Nat)) : List Nat :=
  (List.range k).map fun i => match l[i]? with
    | some (v, co) => v + co * 2 ^ 32
    | none => 0x80000000FF800000

/-- What can fault in the store of a piece, before any piece is stored (R275, R288). -/
def drainCheck (a : Acc) (p : Nat × Nat × List Byte) : Op Unit := do
  if tierOf p.2.1 == some .ctl then
    if ctlWritable a.sup a.sec (a.path == 10) p.2.1 then pure () else accFault a fcPROT p.1
  else eccCheckPart a p.1 p.2.1 p.2.2.length

/-- A piece is stored. One that is buffered has been checked, and its commit meets what has befallen its words since (log
entry 105). -/
def drainPut (a : Acc) (c : Chunk) (bytes : List Byte) : Op Unit := do
  let s ← get
  let obj := s.boundTo a c.va
  if s.isBuffered a obj && tierOf c.pa != some .ctl then
    (units false c.pa c.len).forM fun u => storeUnit a obj u.1 ((bytes.drop (u.1 - c.pa)).take u.2)
  else writeChunk a false c bytes

/-- Pieces that a writer has room for in this frame are stored, in order; those that are left (R310). -/
def drainPieces (a : Acc) : List (Nat × Nat × List Byte) → Op (List (Nat × Nat × List Byte))
  | [] => pure []
  | p :: l => do
    let c : Chunk := ⟨p.1, p.2.1, p.2.2.length⟩
    let s ← get
    if s.hasRoom a (s.toBuffer a [c]) then do
      drainPut a c p.2.2
      drainPieces a l
    else return p :: l

/-- What MDRAIN leaves once its stores are made: cleared cells, flags, heaps, and the entry of a flush (R284, R286). -/
def drainDone (z fl : Bool) (t : Tile) (d : DrainSt) : Op Unit := do
  let c ← here
  let k := c.pf fTkk
  if z then (pairs t.rows t.cols).forM fun p => wrCell t p.1 p.2 0 else pure ()
  raiseFlags d.flags
  let live := ((List.range 16).map fun h => ((SMap.get [] d.heap h).take k).length).filter fun n => n ≠ 0
  modHere fun c => { c with heap := if fl then [] else d.heap }
  if fl then
    qPushHold 15 [img64 (BitVec.ofNat 64 (2 ^ 60 + live.length * 2 ^ 40 + k * 2 ^ 32 + live.sum))]
  else pure ()

/-- MDRAIN's stores, in frame mode over as many frames as its writer needs for them. -/
def drainGo (z fl : Bool) (t : Tile) (a : Acc) (d : DrainSt) : Op Unit := do
  let rest ← drainPieces a d.rest
  if rest.isEmpty then drainDone z fl t d
  else
    modHere fun c => { c with drain := some { d with rest := rest } }
    hold

/-- MDRAIN up to its first write: every check and every read (R275), and what is to be stored. -/
def drainStart (tr ins fl nost : Bool) (t : Tile) (a : Acc) (vw : Nat) : Op DrainSt := do
  let c ← here
  let k := c.pf fTkk
  guardFault (!(ins || fl) || k ≤ 64) fcILLOP
  let v ← if nost then pure (ViewVal.mk 0 0 2 0 [] [] []) else do
    let v ← rdViewM vw
    guardFault (v.rank = 2) fcILLOP
    let (e0, e1) := (v.ext.getD 0 0, v.ext.getD 1 0)
    guardFault (if tr then t.rows ≤ e0 && t.cols ≤ e1 else t.cols ≤ e0 && t.rows ≤ e1) fcBOUNDS
    pure v
  -- the candidate area and the map's address
  let tk := c.pf fTkaddr
  if fl then
    guardAddr (tk % 8 = 0) fcALIGN tk
    if k = 0 then pure () else ownWindow a tk (128 * k)
    needSpace 15 1
  else pure ()
  let ma := c.pf fMapaddr
  guardAddr (ma % 8 = 0) fcALIGN ma
  let cells ← (pairs t.rows t.cols).mapM fun (p : Nat × Nat) => rdCell t p.1 p.2
  let vals ← ((pairs t.rows t.cols).zip cells).mapM fun (q : (Nat × Nat) × Nat) => epilogueVal c a t q.1.1 q.1.2 q.2
  let mode := if (c.pf fEctl).testBit 2 then RMode.rtz else RMode.rne
  let f1 := vals.foldl (fun x p => x ||| p.2) 0
  -- offers: rounded whatever the heaps keep of them
  let offers := if ins then
      ((pairs t.rows t.cols).zip vals).map fun q =>
        let (r, f) := finish fmt32 .rne [q.2.1] (q.2.1, 0)
        ((t.row0 + q.1.1) % 16, (r, wrap 32 (t.coord q.1.1 q.1.2 (c.pf fTkcd))), f)
    else []
  let heap := if k = 0 then c.heap
    else offers.foldl (fun m o => SMap.set [] m o.1 (heapOffer k (SMap.get [] m o.1) o.2.1)) c.heap
  let f2 := offers.foldl (fun x o => x ||| o.2.2) 0
  -- stores
  let (st, f3) ← if nost then pure (([], 0) : Drain) else drainStores a t v tr mode (vals.map Prod.fst) cells
  let cand := if fl then (List.range 16).flatMap fun h => heapWords k ((SMap.get [] heap h).take k) else []
  let desc := if ma = 0 then [] else (if tr then t.map.transposed else t.map).toWords
  let all := st ++ (if cand.isEmpty then [] else [(tk, cand.flatMap (leBytes 8))])
    ++ (if ma = 0 then [] else [(ma, desc.flatMap (leBytes 8))])
  let rest ← all.mapM fun (p : Nat × List Byte) => do
    let cs ← chunks a .write p.1 p.2.length
    return (cs.foldl (fun (acc : List (Nat × Nat × List Byte) × List Byte) x =>
      (acc.1 ++ [(x.va, x.pa, acc.2.take x.len)], acc.2.drop x.len)) ([], p.2)).1
  rest.flatten.forM (drainCheck a)
  return ⟨rest.flatten, f1 ||| f2 ||| f3, heap⟩

def mdrainOp (tr z ins fl nost : Bool) (tn vw : Nat) : Op Unit := do
  let t ← tile tn
  let a ← accHere
  let c ← here
  match c.drain with
  | some d => drainGo z fl t a d
  | none => do
    let d ← drainStart tr ins fl nost t a vw
    drainGo z fl t a d

def execMdrain (h : Hdr) (tr z ins fl nost : Bool) (t vw : Nat) (s : State) : Res :=
  runOp (.mdrain h tr z ins fl nost t vw) h (mdrainOp tr z ins fl nost t vw) s

/-! VSAL (R287). -/

/-- Whether element x outranks y: position, void, saliency. A NaN ranks above void and below numbers; of equals the
lower index. -/
def salRank (v : Bool) (s : Val) : Nat := if v then 0 else if s.isNan then 1 else 2

def salBefore (x y : Nat × Bool × Val) : Bool :=
  let (i, vx, sx_) := x
  let (j, vy, sy) := y
  let rx := salRank vx sx_
  let ry := salRank vy sy
  if rx ≠ ry then ry < rx
  else if rx = 2 && ltVals sy sx_ then true
  else if rx = 2 && ltVals sx_ sy then false
  else i < j

def patComp : Pat → Nat
  | .p2of4 => 1 | .p1of4 => 2 | .p2of8 => 3

/-- The column image of kept elements, in ascending position, with its metadata (R279). -/
def salImage (t : Ty) (comp : Nat) (kept : List Nat) (vals : Nat → Nat) : Nat :=
  let (_, m, lg) := sparsity comp
  let w := t.width
  let values := kept.foldr (fun e x => vals e + 2 ^ w * x) 0
  let meta_ := kept.foldr (fun e x => e % m + 2 ^ lg * x) 0
  values + meta_ * 2 ^ (w * kept.length)

def vsalOp (pat : Pat) (t : VFTy) (p d a b : Nat) : Op Unit := do
  let t := t.ty
  let sa ← readSrc a
  let sb ← readSrc b
  let c ← here
  let regs := regsOf [a, b]
  let x ← vctx (c.refMap regs d) 0
  checkAgree x t.count regs
  let f := ffmt t
  let es := (List.range t.count).map fun e =>
    if x.isVoid e then ((0, Val.fin false 0 0 false), (0 : Flags))
    else
      let (u, f0) := srcElem x t sa e
      let (g, f1) := srcElem x t sb e
      let (pv, f2) := mulVals (f.unpack u) (f.unpack g)
      let (r, f3) := roundTo fmt32 .rne pv.abs
      ((u, fmt32.unpack r), f0 ||| f1 ||| f2 ||| f3 ||| sigFlags [f.unpack u, f.unpack g])
  vFlags x (es.foldl (fun y e => y ||| e.2) 0)
  let comp := patComp pat
  let (n, m, _) := sparsity comp
  let ent := fun e => (e, x.isVoid e, ((es.getD e ((0, Val.nan false), 0)).1.2))
  let kept := (List.range (t.count / m)).flatMap fun g =>
    let grp := (List.range m).map fun i => ent (m * g + i)
    (grp.filter fun q => (grp.countP fun r => salBefore r q) < n).map fun q => q.1
  modHere fun c => c.setPred p (predBits (c.pred p) t.count fun e => some (kept.contains e))
  wrV d (BitVec.ofNat 4096 (salImage t comp kept fun e => (es.getD e ((0, Val.nan false), 0)).1.1))
  setMapOf d .dflt

def execVsal (h : Hdr) (pat : Pat) (t : VFTy) (p d a b : Nat) (s : State) : Res :=
  runOp (.vsal h pat t p d a b) h (vsalOp pat t p d a b) s

end Sys2Proof.Machine
end

