-- ==== Sys2Proof/Machine/Plane.lean ====
section
/-! DEFINITION. The configuration plane's instructions: difference packets with CDIFF (R262, R267 to R269), and CGO with
its checks (R264, R270, R276). -/

namespace Sys2Proof.Machine

/-! Field ids (R259, R260, R283). -/

/-- Every assigned field id with its width, ascending. -/
def planeFields : List (Nat × Nat) :=
  [(1, 20), (2, 7), (3, 7)]
    ++ (List.range 6).flatMap (fun l => [(0, 32), (1, 48), (2, 16), (3, 16), (4, 16), (5, 1)].map fun p => (levelField l p.1, p.2))
    ++ (List.range 16).flatMap (fun n =>
      ([8, 7, 8, 7, 1, 3, 32] ++ List.replicate 16 32 ++ [48]).zipIdx.map fun (p : Nat × Nat) => (tileField n p.2, p.1))
    ++ [(fEctl, 3), (fEscale, 32), (fEbias, 48), (fTkk, 7), (fTkaddr, 48), (fTkcd, 2), (fMapaddr, 48)]

/-- Width of an assigned field id; none for an unassigned one. -/
def planeWidth (id : Nat) : Option Nat := (planeFields.find? fun p => p.1 == id).map Prod.snd

/-! The plane image and its checksum (R262). -/

/-- One bit of the reflected CRC-32C. -/
def crcBit (x : Nat) : Nat := if x % 2 = 1 then (x / 2) ^^^ 0x82F63B78 else x / 2

def crcByte (crc : Nat) (b : Byte) : Nat :=
  crcBit (crcBit (crcBit (crcBit (crcBit (crcBit (crcBit (crcBit (crc ^^^ b.toNat))))))))

/-- CRC-32C of bytes. -/
def crc32c (l : List Byte) : Nat := l.foldl crcByte 0xFFFFFFFF ^^^ 0xFFFFFFFF

def planeImage (p : SMap (BitVec 48)) : List Byte :=
  planeFields.flatMap fun f => leBytes 2 f.1 ++ leBytes 6 (SMap.get 0 p f.1).toNat

def planeSum (p : SMap (BitVec 48)) : Nat := crc32c (planeImage p)

/-- Pairs of a packet applied in order (R267). -/
def applyPairs (p : SMap (BitVec 48)) (pairs : List Nat) : SMap (BitVec 48) :=
  pairs.foldl (fun p w =>
    let id := fld w 48 16
    SMap.set 0 p id (BitVec.ofNat 48 (fld w 0 48 % 2 ^ (planeWidth id).getD 0))) p

/-! Domains (R302). -/

/-- The members of the level-lv domain of core k; none when it is not resident: a member's job has ended. A member that has
yielded is one still, for the cohort is stopped and resumed as a whole. -/
def State.domain (s : State) (k lv : Nat) : Option (List Nat) :=
  let c := s.core k
  match s.nodeOf c.slot c.node with
  | none => if lv = 3 then none else some [k]
  | some n =>
    let gone := n.ended.map fun i => n.cores.getD i 512
    match lv with
    | 0 => some [k]
    | 1 => if gone.any fun j => j / 8 == k / 8 then none else some (n.cores.filter fun j => j / 8 == k / 8)
    | 2 => if gone.isEmpty then some n.cores else none
    | _ => if gone.isEmpty && n.csize == 512 then some n.cores else none

/-- A member of the domain does not run: its job has not started, or is saved. Words that act on the domain wait for it. -/
def State.starting (s : State) (l : List Nat) : Bool := l.any fun j => (s.core j).st == .placed || s.yieldHeld j

/-- The members of a domain, or DOMINC (R302, R303). -/
def domainOf (lv : Nat) : Op (List Nat) := do
  let s ← get
  match s.domain s.curCore lv with
  | none => fault fcDOMINC
  | some l => return l

/-! CDIFF (R268). -/

/-- The packet: its expected checksum and its pairs. -/
def readPacket (va : Nat) : Op (Nat × List Nat) := do
  let a ← accHere
  let w0 ← readNat a false va 8
  let n := w0 % 65536
  guardFault (n ≤ 1024) fcENGCMD
  let pairs ← readWords a ((va + 8) % 2 ^ 64) n
  guardFault (pairs.all fun w => (planeWidth (fld w 48 16)).isSome) fcENGCMD
  return (fld w0 32 32, pairs)

def diffLevel : DiffScope → Nat
  | .core => 0 | .clu => 1 | .coh => 2

def cdiffOp (sc : DiffScope) (d a : Nat) : Op Unit := do
  let c ← here
  guardFault (sc == .core || !c.inIter) fcSPECVIOL
  let x ← rdS a
  guardAddr (x.toNat % 8 = 0) fcALIGN x.toNat
  let (crc, pairs) ← readPacket x.toNat
  let targets ← domainOf (diffLevel sc)
  let s ← get
  guardBlock (!s.starting targets)
  let copies := targets.map fun j => (j, applyPairs (s.core j).shadowPlane pairs)
  let bad := (copies.filter fun p => planeSum p.2 ≠ crc).map Prod.fst
  match bad with
  | [] => do
    copies.forM fun p => modCore p.1 fun c => { c with shadowPlane := p.2 }
    wrS d (BitVec.ofNat 64 targets.length)
  | j :: l => faultAt fcCFGSUM 0 (BitVec.ofNat 64 (bad.length % 1024 * 2 ^ 32 + l.foldl Nat.min j))

def execCdiff (h : Hdr) (sc : DiffScope) (d a : Nat) (s : State) : Res := runOp (.cdiff h sc d a) h (cdiffOp sc d a) s

/-! CGO (R270). -/

def ceilDiv (a b : Nat) : Nat := (a + b - 1) / b

/-- c of R276. -/
def stepCycles (f : MFmt) (kk : Nat) : Nat :=
  match f with
  | .mx8 => 2 * kk | .mx6 => ceilDiv (4 * kk) 3 | _ => kk

/-- L for the check of R270. -/
def boundL : Nat := 6000

/-- The cycle bound of a body word under a plane (R276). -/
def wordBound (p : SMap (BitVec 48)) (i : Instr) : Nat :=
  let pf := fun id => (SMap.get 0 p id).toNat
  let rows := fun t => pf (tileField t 2) + 1
  let cols := fun t => pf (tileField t 3) + 1
  let blk := fun t => ceilDiv (rows t) 16 * ceilDiv (cols t) 16
  match i with
  | .mma _ _ _ f t _ _ k | .msma _ _ _ f t _ _ k => blk t * stepCycles f (kSteps k) + 32
  | .mgrp _ _ f t _ _ k =>
    64 + 64 * (32 + ceilDiv (cols t) 16 * stepCycles f (kSteps k)) + blk t * stepCycles f (kSteps k)
  | .mldw _ f t _ _ k => 4 * cols t * colUnits f (pf 3 % 8) (kSteps k * groupSize f) + boundL
  | .mzero _ t => ceilDiv (rows t * cols t) 256 + 8
  | .acopy _ _ _ ts _ => ceilDiv (rows ts * cols ts) 64 + 16
  | .mdrain _ _ _ _ fl nost t _ =>
    4 * blk t + (if nost then 0 else boundL) + (if (pf fEctl).testBit 1 then boundL else 0)
      + if fl then 16 * pf fTkk + 64 else 0
  | .fence .. => 16 + boundL
  | .nop _ | .hint .. | .signal .. => 1
  | _ => 0

/-- Running levels, outermost first, with their red bits. -/
def runningLevels (p : SMap (BitVec 48)) : List (Nat × Bool) :=
  (List.range 6).filterMap fun l =>
    let n := (SMap.get 0 p (levelField l 0)).toNat
    if n = 0 then none else some (n, (SMap.get 0 p (levelField l 5)).toNat == 1)

/-- The marked levels are one run that ends with the innermost running level, or none (R264). -/
def marksOk (l : List (Nat × Bool)) : Bool := (l.dropWhile fun x => !x.2).all Prod.snd

/-- The words of the nest body that a plane names, as they stand in the window. -/
def State.bodyWords (s : State) (k : Nat) (p : SMap (BitVec 48)) : List Instr :=
  let x := (s.core k).sM
  let b := (SMap.get 0 p 1).toNat
  (List.range (SMap.get 0 p 2).toNat).filterMap fun (w : Nat) =>
    let va := (x.plus (BitVec.ofNat 64 x.winBase) (8 * (b + w))).toNat
    match decodeFirst .m (leNat (s.peek (scratchPa k va) 8)) with
    | .ok i => some i
    | .error _ => none

/-- The reduction cycle bound of the nest of a plane (R264). -/
def State.reductionBound (s : State) (k : Nat) (p : SMap (BitVec 48)) : Nat :=
  ((runningLevels p).filter Prod.snd).foldl (fun x l => x * l.1) 1 * ((s.bodyWords k p).map (wordBound p)).sum

/-- The checks of CGO on the shadow (R270). -/
def State.planeOk (s : State) (k : Nat) (p : SMap (BitVec 48)) : Bool :=
  let c := s.core k
  let pf := fun id => (SMap.get 0 p id).toNat
  let limit := match s.nodeOf c.slot c.node with | some n => some n.depth | none => none
  1 ≤ pf 2 && pf 2 ≤ 64 && 8 * pf 2 ≤ c.sM.winSize
    && (List.range 16).all (fun n => pf (tileField n 5) ≤ 4)
    && pf 3 % 8 ≤ 3 && marksOk (runningLevels p)
    && (match limit with | some d => s.reductionBound k p ≤ d | none => true)

def cgoOp (try_ : Bool) (d : Nat) : Op Unit := do
  noSpec
  let c ← here
  let k ← coreId
  guardFault c.sM.started fcENGCMD
  if c.nest.isNone && !c.sM.issued then do
    let s ← get
    guardFault (s.planeOk k c.shadowPlane) fcENGCMD
    putHere ({ c with plane := c.shadowPlane, nest := some ([0, 0, 0, 0, 0, 0], 0),
                        nestNo := c.nestNo + 1 }.trimHeaps)
    wrS d 1
  else if try_ then wrS d 0
  else block

def execCgo (h : Hdr) (try_ : Bool) (d : Nat) (s : State) : Res := runOp (.cgo h try_ d) h (cgoOp try_ d) s

end Sys2Proof.Machine
end

