-- ==== Sys2Proof/Machine/Xlat.lean ====
section
/-! DEFINITION. TLBINV (R378, R380), CLBINV (R391) and BSP (R302, R303). -/

namespace Sys2Proof.Machine

/-- Every earlier store of the executing stream is performed for every path; in frame mode, at the next boundary. -/
def storesPerformed : Op Unit := do
  let a ← accHere
  let s ← get
  match a.writer with
  | some w => if s.bufs.any fun e => e.writer == w then hold else drainOwn allPaths
  | none => drainOwn allPaths

/-- Bytes of the frames of removed entries that stand buffered: in frame mode, or in an iteration of a Virga loop; core
`own` does not wait for its own iteration. `mine` says which writers of a core count. -/
def State.stillBuffered (s : State) (own : Nat) (mine : Nat → Nat → Bool) (l : List (Nat × Nat × Nat)) : Bool :=
  l.any fun p =>
    let inside := fun (pa : Nat) => decide (p.2.1 ≤ pa) && decide (pa < p.2.1 + p.2.2)
    (s.bufs.any fun e => mine p.1 e.writer && inside e.pa)
      -- what an MDRAIN has still to store (R310)
      || (mine p.1 (agentOf p.1 .m) && ((s.core p.1).drain.any fun d => d.rest.any fun q => inside q.2.1))
      || (p.1 ≠ own && (s.core p.1).spec.buf.any fun e => inside e.1)

/-- The word has removed its entries, and retires once no store through one stands buffered. -/
def settleRemoved (mine : Nat → Nat → Bool) : Op Unit := do
  let k ← coreId
  let c ← here
  let s ← get
  if s.stillBuffered k mine c.invWait then hold else pure ()

/-! TLBINV. -/

/-- The frames of a core's entries that match. -/
def State.tlbFrames (s : State) (k : Nat) (m : TlbEnt → Bool) : List (Nat × Nat × Nat) :=
  [0, 1, 2, 3, 4, 5, 8].flatMap fun n => ((s.tlbGet (.core k n)).filter m).map fun e => (k, e.pa, e.size)

/-- A writer of the core (R310). -/
def ofCore (k w : Nat) : Bool := if w < 2048 then w / 4 == k else (w - 2048) / 8 == k

/-- The core belongs to a frame-mode cohort that runs: a removal reaches it at its next boundary. -/
def State.inFrame (s : State) (k : Nat) : Bool :=
  let c := s.core k
  c.framed && (c.st == .running || c.st == .halting) && !s.cohortHeld k

def tlbinvOp (sub : TlbSub) (sc : InvScope) (a b : Nat) : Op Unit := do
  storesPerformed
  let va ← rdS a
  let y ← rdS b
  let k ← coreId
  let x ← thisStream
  let m := invMatches sub va.toNat (y.toNat % 4096)
  let s ← get
  let cores := match sc with | .core => [k] | .pkg => s.cores.map Prod.fst
  match x.bwaitAt with
  | some _ =>
    -- the removals of frame-mode cohorts wait for their boundaries
    if cores.any fun j => (s.core j).tlbDue.any fun r => r.by_ == k then hold else settleRemoved ofCore
  | none =>
    let now := cores.filter fun j => !s.inFrame j
    let later := cores.filter s.inFrame
    let gone := now.flatMap fun j => s.tlbFrames j m
    let s := now.foldl (fun s j => s.tlbRemoveCore j m) s
    let s := match sc with | .core => s | .pkg => s.tlbRemoveNear m
    let s := later.foldl (fun s j =>
      let c := s.core j
      s.setCore j { c with tlbDue := c.tlbDue ++ [⟨k, subNum sub, va.toNat, y.toNat % 4096⟩] }) s
    set s
    modHere fun c => { c with invWait := gone }
    modStream fun x => { x with bwaitAt := some 1 }
    if later.isEmpty then settleRemoved ofCore else hold

def execTlbinv (h : Hdr) (k : TlbSub) (sc : InvScope) (a b : Nat) (s : State) : Res :=
  runOp (.tlbinv h k sc a b) h (tlbinvOp k sc a b) s

/-! CLBINV. -/

/-- Where V's stores through entries of core k have gone: core, physical address and size. -/
def clbFrames (k : Nat) (gone : List ClbEnt) : List (Nat × Nat × Nat) := gone.flatMap fun e => e.frames.map fun p => (k, p)

/-- Remove matching entries of a core's look-aside buffer; stores of V into their tiles are performed. -/
def State.clbRemove (s : State) (k : Nat) (m : ClbEnt → Bool) : State :=
  let c := s.core k
  let frames := (clbFrames k (c.clb.filter m)).map fun p =>
    TlbEnt.mk 0 p.2.2 p.2.1 0 false false false false false false false
  let s := s.performFrames (fun e => e.core == k && e.path == 2) frames
  s.setCore k { s.core k with clb := c.clb.filter fun e => !m e }

/-- V of the core is the writer. -/
def ofV (k w : Nat) : Bool := w == agentOf k .v

def clbinvOp (sub : ClbSub) (sc : InvScope) (a b : Nat) : Op Unit := do
  storesPerformed
  let x ← rdS a
  let y ← rdS b
  let k ← coreId
  let st ← thisStream
  let m := fun (e : ClbEnt) => match sub with
    | .tile => e.desc == x.toNat && e.tile == y.toNat
    | .vol => e.desc == x.toNat
    | .all => true
  match st.bwaitAt with
  | some _ => settleRemoved ofV
  | none =>
    let s ← get
    let cores := match sc with | .core => [k] | .pkg => s.cores.map Prod.fst
    let gone := cores.flatMap fun j => clbFrames j ((s.core j).clb.filter m)
    set (cores.foldl (fun s j => s.clbRemove j m) s)
    modHere fun c => { c with invWait := gone }
    modStream fun x => { x with bwaitAt := some 1 }
    settleRemoved ofV

def execClbinv (h : Hdr) (k : ClbSub) (sc : InvScope) (a b : Nat) (s : State) : Res :=
  runOp (.clbinv h k sc a b) h (clbinvOp k sc a b) s

/-! BSP. Keys of Core.arrived: level arrived, 4 + level released, 8 + level waiting for a boundary, 12 + level with its
stores committed. -/

def Core.flag (c : Core) (key : Nat) : Bool := SMap.get false c.arrived key

def Core.setFlag (c : Core) (key : Nat) (b : Bool) : Core := { c with arrived := SMap.set false c.arrived key b }

/-- Buffered stores of the core's writers stand (R310). -/
def State.buffered (s : State) (k : Nat) : Bool :=
  s.bufs.any fun e => ofCore k e.writer

/-- Writes of the core's retired words and commands are performed for every path; those of started commands are not. A bound
one stays bound: another core sees it by its release (R336). -/
def State.performCore (s : State) (k : Nat) : State :=
  let live := (List.range 5).filterMap fun e => (s.started k e).map fun r => cmdAgent r.cmd.id
  s.mapWrites fun e => if e.core = k && !live.contains e.agent then { e with perf := allPaths } else e

/-- The core's count of phases of a level. -/
def Core.phaseOf (c : Core) (lv : Nat) : Nat := SMap.get 0 c.phase lv

/-- The core has arrived for phase p of a level: it waits there, is released, or has passed it. -/
def Core.hasArrived (c : Core) (lv p : Nat) : Bool :=
  (c.phaseOf lv == p && (c.flag lv || c.flag (4 + lv))) || c.phaseOf lv == (p + 1) % 2 ^ 32

/-- Where all members have arrived for the core's phase, those that wait there are released with what all have done
(R325). -/
def State.bspRelease (s : State) (k lv : Nat) (members : List Nat) : State :=
  let p := (s.core k).phaseOf lv
  if members.all (fun j => (s.core j).hasArrived lv p) then
    let all := members.foldl (fun t j => joinClk t (SMap.get [] (s.core j).bspClk lv)) []
    members.foldl (fun s j =>
      let c := s.core j
      if c.phaseOf lv == p && c.flag lv then
        s.setCore j { (c.setFlag lv false).setFlag (4 + lv) true with bspClk := SMap.set [] c.bspClk lv all }
      else s) s
  else s

/-- The core arrives; the last to arrive releases every member. -/
def State.bspArrive (s : State) (k lv : Nat) (members : List Nat) : State :=
  let tok := s.token (agentOf k .c)
  let c := (s.core k).setFlag lv true
  (s.setCore k { c with bspClk := SMap.set [] c.bspClk lv tok }).bspRelease k lv members

/-- A released member passes on. -/
def bspPass (lv d : Nat) : Op Unit := do
  let c ← here
  let p := c.phaseOf lv
  learnHere (SMap.get [] c.bspClk lv)
  modHere fun c =>
    { c.setFlag (4 + lv) false with phase := SMap.set 0 c.phase lv ((p + 1) % 2 ^ 32),
                                    bspClk := SMap.set [] c.bspClk lv [] }
  wrS d (BitVec.ofNat 64 ((p + 1) % 2 ^ 32))

def bspOp (lv d : Nat) : Op Unit := do
  noSpec
  let c ← here
  let k ← coreId
  if c.flag (4 + lv) then bspPass lv d
  else
    let members ← domainOf lv
    let s ← get
    guardBlock (!s.starting members)
    if c.flag lv then do
      -- an arrival that a stop has kept (R303) may be the last that was missing
      modify fun s => s.bspRelease k lv members
      let c ← here
      if c.flag (4 + lv) then bspPass lv d else hold
    else if c.flag (8 + lv) then hold
    else if c.framed && s.buffered k && !c.flag (12 + lv) then do
      modHere fun c => c.setFlag (8 + lv) true
      hold
    else
      modHere fun c => c.setFlag (12 + lv) false
      modify fun s => (s.performCore k).bspArrive k lv members
      let c ← here
      if c.flag (4 + lv) then bspPass lv d else hold

def execBsp (h : Hdr) (lv d : Nat) (s : State) : Res := runOp (.bsp h lv d) h (bspOp lv d) s

end Sys2Proof.Machine
end

