-- ==== Sys2Proof/Machine/Launch.lean ====
section
/-! DEFINITION. Launching a graph (R290 to R294): its records, the checks with their codes, and GLAUNCH (R295). -/

namespace Sys2Proof.Machine

/-- Boot has stopped at a verification that failed (R450). -/
def State.bootFailed (s : State) : Bool := decide (0x80 ≤ s.boot)

/-! Records. -/

/-- A node record's fields (R291). -/
def Node.ofWords (w : List Nat) (succ : List Nat) (job : List Nat) : Node :=
  let f := fun (i lo n : Nat) => fld (w.getD i 0) lo n
  let word := fun (i : Nat) => BitVec.ofNat 64 (w.getD i 0)
  { kind := f 0 61 3, cls := f 0 59 2, fm := f 0 58 1 == 1, du := f 0 57 1 == 1, cpl := f 0 56 1 == 1, f := f 0 51 5,
    csize := f 0 41 10, est := f 0 38 3, npred := f 0 0 16, deadline := f 1 0 48, depth := f 2 32 32,
    energy := f 2 0 32, span := f 3 32 32, horizon := f 3 0 32, image := word 4, succ := succ, sync := word 6,
    ops := (List.range 8).map fun q => word (8 + q),
    job := job.map (BitVec.ofNat 64), st := .waiting, readyAt := 0, startAt := 0, late := false, therm := false,
    fault := 0, code := 0, flags := 0, cores := [], ended := [], yielded := [], charged := none, used := 0, cmds := [] }

/-- An address that the dispatcher may use: translated, or in the launching core's own scratchpad (R294). -/
def recordAddr (own : Bool) (va : Nat) : Bool := decide (0x410000 ≤ va) || (own && decide (va < 0x400000))

/-- A word that a code 6 stands for. -/
def unreadable {α : Type} (a : Acc) : Op α := accFault a fcPROT 0

def needAddr (a : Acc) (va : Nat) : Op Unit :=
  if recordAddr a.own.isSome va then pure () else unreadable a

/-- Unsigned 32-bit words. -/
def readWords32 (a : Acc) (va : Nat) : Nat → Op (List Nat)
  | 0 => pure []
  | n + 1 => do
    let x ← readNat a false va 4
    let xs ← readWords32 a ((va + 4) % 2 ^ 64) n
    return x :: xs

/-- Addresses that a job image names and the dispatcher reads (R292, R294). -/
def jobAddrs (j : List Nat) : List Nat :=
  (if fld (j.getD 8 0) 32 13 = 0 then [] else [j.getD 7 0])
    ++ [j.getD 9 0, j.getD 10 0].filter fun x => x ≠ 0

/-- The job image, or the parameter block, that a launch reads for a node (R294). -/
def readJob (a : Acc) (kind image : Nat) : Op (List Nat) := do
  match kind with
  | 0 => do
    needAddr a image
    let j ← readWords a image 16
    (jobAddrs j).forM (needAddr a)
    return j
  | 1 => do
    needAddr a image
    readWords a image 5
  | 2 => do
    needAddr a image
    let w ← readWords a image 8
    let bufs ← readWords a ((image + 64) % 2 ^ 64) (fld (w.getD 0 0) 48 4 + 1)
    return w ++ bufs
  | 3 => do
    needAddr a image
    return []
  | _ => return []

/-- One node record with its successor list and its image. -/
def readNode (a : Acc) (va : Nat) : Op Node := do
  let w ← readWords a va 16
  let ns := w.getD 7 0 % 4096
  let sv := w.getD 5 0
  if ns ≠ 0 then needAddr a sv else pure ()
  let succ ← readWords32 a sv ns
  let job ← readJob a (fld (w.getD 0 0) 61 3) (w.getD 4 0)
  return Node.ofWords w succ job

/-- A graph as it is read, before it has a slot; `done` is translated (R294). -/
def readGraph (a : Acc) (va : Nat) : Op Graph := do
  needAddr a va
  let w ← readWords a va 8
  let n := w.getD 1 0 % 4096 + 1
  let nodes := w.getD 0 0
  let done := w.getD 3 0
  needAddr a nodes
  needAddr a (w.getD 2 0)
  let ns ← (List.range n).mapM fun i => readNode a ((nodes + 128 * i) % 2 ^ 64)
  let donePa ← if done = 0 then pure 0 else do
    needAddr a done
    translate a .rmw done
  let s ← get
  return { serial := 0, nodes := ns,
           statusVa := BitVec.ofNat 64 (w.getD 2 0), doneVa := BitVec.ofNat 64 done, donePa := donePa,
           sv := (w.getD 4 0).testBit 2, sec := (w.getD 4 0).testBit 1, hirq := (w.getD 4 0).testBit 0,
           lsup := a.sup, lsec := a.sec, xroot := a.root, ownCore := a.own, launchAt := s.now, failed := false,
           fnode := 0, report := false }

/-! Checks (R294). -/

/-- Code 3 for one node. -/
def nodeOk (n : Node) : Bool :=
  n.kind ≤ 4 && (n.kind ≠ 0 || (1 ≤ n.csize && n.csize ≤ 512))
    && !(n.kind = 0 && n.cpl && n.csize % 2 == 1)
    && ((!n.fm && n.du) || (10 ≤ n.f && n.f ≤ 16))
    && n.ops.all (fun w => wfld w 62 2 = 0 || (12 ≤ wfld w 0 6 && wfld w 0 6 ≤ 56
        && wfld w 12 45 * 4096 % 2 ^ wfld w 0 6 == 0))
    && !(n.cls = 0 && n.deadline = 0) && n.horizon ≤ n.depth
    && !(n.kind = 1 && n.image.toNat % 8 ≠ 0) && !(n.kind = 2 && n.image.toNat % 64 ≠ 0)

/-- Code 4: the edges name nodes, and each npred counts them. -/
def edgesOk (ns : List Node) : Bool :=
  let edges := ns.flatMap Node.succ
  edges.all (fun j => j < ns.length) && ns.zipIdx.all fun p => p.1.npred == edges.count p.2

/-- Remove nodes without open predecessors until none is left: whether all go. -/
def acyclic (ns : List Node) : Nat → List Nat → Bool
  | 0, left => left.isEmpty
  | fuel + 1, left =>
    let targets := left.flatMap fun i => match ns[i]? with | some n => n.succ | none => []
    let rest := left.filter fun i => targets.contains i
    if rest.length = left.length then left.isEmpty else acyclic ns fuel rest

/-- The window of stream number st, 1 to 3, in a job image: base and size. -/
def jobWindow (j : List Word) (st : Nat) : Nat × Nat :=
  let w := j.getD (3 + st) 0
  (wfld w 0 22, 2 ^ wfld w 56 8)

def notStartedPc : Word := 0xFFFFFFFFFFFFFFFF

def jobStarts (j : List Word) (st : Nat) : Bool := j.getD st 0 != notStartedPc

/-- Ranges [a, a + n) do not meet. -/
def disjoint (p q : Nat × Nat) : Bool := p.1 + p.2 ≤ q.1 || q.1 + q.2 ≤ p.1 || p.2 = 0 || q.2 = 0

def pairwiseDisjoint : List (Nat × Nat) → Bool
  | [] => true
  | p :: l => l.all (disjoint p) && pairwiseDisjoint l

/-- The range lies in granted banks. -/
def inBanks (banks : Nat) (p : Nat × Nat) : Bool :=
  p.2 = 0 || (List.range 16).all fun b => banks.testBit b || disjoint p (0x40000 * b, 0x40000)

/-- Code 5: R124, R158, R218, the launch block, and M without C. -/
def jobOk (j : List Word) : Bool :=
  let started := [1, 2, 3].filter (jobStarts j)
  let wins := started.map (jobWindow j)
  let ldst := (wfld (j.getD 8 0) 0 22, wfld (j.getD 8 0) 32 13)
  let banks := wfld (j.getD 11 0) 32 16
  started.all (fun st =>
      let (b, n) := jobWindow j st
      let pc := (j.getD st 0).toNat
      256 ≤ n && n ≤ 2 ^ 20 && b % n == 0 && b + n ≤ 0x400000 && b ≤ pc && pc < b + n && pc % 8 == 0)
    && (!jobStarts j 0 || (j.getD 0 0).toNat % 8 == 0)
    && pairwiseDisjoint (wins ++ [ldst])
    && ldst.1 % 64 == 0 && ldst.2 ≤ 4096 && ldst.1 + ldst.2 ≤ 0x400000
    && wfld (j.getD 11 0) 48 10 ≠ 0 && banks ≠ 0 && (wins ++ [ldst]).all (inBanks banks)
    && (!jobStarts j 3 || jobStarts j 0)

/-- Entries of the ready pool in use (R289): a node keeps its entry until it completes, halted or not (R87). -/
def State.poolUsed (s : State) : Nat :=
  (s.graphs.map fun g => g.2.nodes.countP fun n =>
    match n.st with | .waiting | .ready | .running | .preempted => true | .halted => !n.cores.isEmpty | _ => false).sum

/-- The result code of a graph that could be read (R294): the first that applies. -/
def State.launchCode (s : State) (mayBoth : Bool) (g : Graph) : Nat :=
  let n := g.nodes.length
  if !(g.nodes.all nodeOk) || (g.sv && !(mayBoth || g.lsup)) || (g.sec && !(mayBoth || g.lsec))
      || g.doneVa.toNat % 16 ≠ 0 || (g.doneVa ≠ 0 && tierOf g.donePa ≠ some .scratch) then 3
  else if !edgesOk g.nodes || !acyclic g.nodes (n + 1) (List.range n) then 4
  else if !(g.nodes.all fun x => x.kind ≠ 0 || jobOk x.job) then 5
  else if s.graphs.length ≥ 64 then 2
  else if s.poolUsed + n > 4096 then 1
  else 0

/-! The status area (R293, R297). -/

/-- The code with which what the dispatcher or the fabric engine could not do ends a node. -/
def Stop.code : Stop → Nat
  | .fault f => f.code
  | _ => fcPROT

/-- How the dispatcher accesses memory for a graph (R294). -/
def Graph.acc (g : Graph) : Acc :=
  { path := 0, agent := dispAgent, own := g.ownCore, allot := false, tlb := .none, sup := g.lsup, sec := g.lsec,
    root := g.xroot, vis := [], writer := none, st := 0, tag := 0, cmd := none }

/-- Write bytes that every path sees at once. -/
def writeAll (a : Acc) (va : Nat) (bytes : List Byte) : Op Unit := do
  let cs ← chunks a .write va bytes.length
  let _ ← cs.foldlM (fun (rest : List Byte) c => do
    if tierOf c.pa == some .ctl then writeChunk a false c (rest.take c.len)
    else
      eccCheckWrite a c.va c.pa c.len
      modify fun s => s.poke c.pa (rest.take c.len)
    return rest.drop c.len) bytes
  pure ()

/-- A write of the dispatcher that is passed over when it faults: the fault's code. -/
def State.tryWrite (s : State) (a : Acc) (va : Nat) (bytes : List Byte) : State × Option Nat :=
  match (writeAll a va bytes).run s with
  | .ok (_, s') => (s', none)
  | .error e => (s.noteStop e, some e.code)

def NodeSt.num : NodeSt → Nat
  | .waiting => 0 | .ready => 1 | .running => 2 | .complete => 3 | .halted => 4 | .faulted => 5 | .abandoned => 6
  | .preempted => 7

/-- A node's status word (R293). -/
def Node.status (n : Node) : Nat :=
  n.fault % 256 * 2 ^ 56 + (if n.therm then 2 ^ 55 else 0) + n.code % 2 ^ 32 * 2 ^ 16 + (if n.late then 2 ^ 15 else 0)
    + n.flags.toNat * 2 ^ 8 + n.st.num

/-- A node's status word is written; where it cannot be, its graph fails (R297). -/
def State.writeNode (s : State) (slot node : Nat) : State :=
  match s.graph slot with
  | none => s
  | some g =>
    match g.nodes[node]? with
    | none => s
    | some n =>
      match s.tryWrite g.acc ((g.statusVa.toNat + 8 * (node + 1)) % 2 ^ 64) (leBytes 8 n.status) with
      | (s, none) => s
      | (s, some code) =>
        s.modGraph slot fun g =>
          { g with failed := true, report := true, fnode := if g.failed then g.fnode else node,
                   nodes := g.nodes.modify node fun n => { n with fault := if n.fault = 0 then code else n.fault } }

/-! Pools. -/

/-- A class pool takes back what is unused, up to its ceiling (R439). -/
def State.credit (s : State) (cls n : Nat) : State :=
  { s with pool := SMap.set 0 s.pool cls (min (SMap.get 0 s.pool cls + n) (SMap.get 0 s.ceil cls)) }

/-- A node's deduction goes back, less what its core jobs have used. -/
def State.creditNode (s : State) (n : Node) : State :=
  match n.charged with
  | none => s
  | some e => s.credit n.cls (e - (n.used + (n.yielded.map fun p => p.2.2).sum))

/-- Save areas go back to Overcast's pool (R415). -/
def State.returnAreas (s : State) (l : List (Word × Nat)) : State :=
  { s with savePool := s.savePool ++ l.filter fun p => p.1 ≠ 0 }

/-- Nodes of a failed graph that do not run are abandoned. -/
def State.abandonRest (s : State) (slot : Nat) : State :=
  match s.graph slot with
  | none => s
  | some g =>
    (List.range g.nodes.length).foldl (fun s i =>
      match s.nodeOf slot i with
      | some n =>
        match n.st with
        | .waiting | .ready | .preempted =>
          let s := (s.creditNode n).returnAreas (n.yielded.map fun p => p.2.1)
          let s := s.modNode slot i fun n => { n with st := .abandoned, yielded := [], charged := none }
          let s := if s.urgent = some (slot, i) then { s with urgent := none } else s
          s.writeNode slot i
        | _ => s
      | none => s) s

/-- Where a status word could not be written the graph has failed, and its other nodes are abandoned (R297). -/
def State.afterStatus (s : State) (slot : Nat) : State :=
  match s.graph slot with
  | some g => if g.failed then s.abandonRest slot else s
  | none => s

/-- Status word 0 (R293). -/
def graphWord (reject fnode gstate : Nat) : Nat := reject * 2 ^ 56 + fnode % 65536 * 2 ^ 16 + gstate

def State.writeGraph (s : State) (g : Graph) (reject gstate : Nat) : State × Bool :=
  let (s, r) := s.tryWrite g.acc g.statusVa.toNat (leBytes 8 (graphWord reject (if gstate = 2 then g.fnode else 0) gstate))
  (s, r.isNone)

/-- The lowest free graph slot. -/
def State.freeGraphSlot (s : State) : Nat :=
  ((List.range 64).find? fun i => !(s.graphs.any fun p => p.1 == i)).getD 0

/-- The graph is accepted: its slot, its entries, and its roots ready. -/
def State.accept (s : State) (g : Graph) : State × Nat :=
  let slot := s.freeGraphSlot
  let g := { g with serial := s.serial + 1,
                    nodes := g.nodes.map fun n => if n.npred = 0 then { n with st := .ready, readyAt := s.now } else n }
  let s := { s with serial := s.serial + 1, graphs := SMap.ins s.graphs slot g }
  let (s, ok) := s.writeGraph g 0 0
  let s := if ok then s else s.modGraph slot fun g => { g with report := true }
  let s := (List.range g.nodes.length).foldl (fun s i => s.writeNode slot i) s
  (s.afterStatus slot, slot)

/-- A launch as a whole (R294): the code and the slot. The bits in `mayBoth` let Pileus launch with any values. -/
def State.launchGraph (s : State) (a : Acc) (mayBoth : Bool) (va : Nat) : State × Nat × Nat :=
  if va % 64 ≠ 0 then (s, 6, 0)
  else match (readGraph a va).run s with
    | .error e =>
      let s := s.noteStop e
      -- the status word of a refusal is written where the record itself can be read
      match (readWords a va 8).run s with
      | .ok (w, s') =>
        let sv := w.getD 2 0
        if recordAddr a.own.isSome va && recordAddr a.own.isSome sv then
          ((s'.tryWrite { a with path := 0, agent := dispAgent, allot := false, tlb := .none, writer := none } sv
            (leBytes 8 (graphWord 6 0 3))).1, 6, 0)
        else (s', 6, 0)
      | .error _ => (s, 6, 0)
    | .ok (g, s') =>
      match s'.launchCode mayBoth g with
      | 0 => let (s, slot) := s'.accept g; (s, 0, slot)
      | code => ((s'.writeGraph g code 3).1, code, 0)

/-- The result word (R295). -/
def launchResult (code slot : Nat) : Word := BitVec.ofNat 64 (code * 2 ^ 56 + slot)

/-! GLAUNCH (R295). -/

/-- How a GLAUNCH reads the records: as the launching C, through no TLB and past its bank allotment. -/
def launchAcc (c : Core) (k : Nat) : Acc := { c.acc k .c with allot := false, tlb := .none, writer := none }

def glaunchOp (d a : Nat) : Op Unit := do
  noSpec
  let x ← rdS a
  guardAddr (x.toNat % 64 = 0) fcALIGN x.toNat
  storesPerformed
  let c ← here
  let k ← coreId
  let s ← get
  let (s', code, slot) := s.launchGraph (launchAcc c k) false x.toNat
  -- what the launching C knows goes to the graph's jobs (R297)
  set (s'.learn dispAgent (s.token (agentOf k .c)))
  wrS d (launchResult code slot)

def execGlaunch (h : Hdr) (d a : Nat) (s : State) : Res := runOp (.glaunch h d a) h (glaunchOp d a) s

end Sys2Proof.Machine
end

