-- ==== Sys2Proof/Machine/Near.lean ====
section
/-! DEFINITION. The near-memory engines: whom they serve (R346, R363), the selection engine (R353 to R365) and the
reduction engine (R340 to R351), for the cores and for nodes of kinds 1 and 2. -/

namespace Sys2Proof.Machine

/-! Requesters (R346). -/

def State.near (s : State) (e x : Nat) : NearEng := SMap.get .reset (if e = 2 then s.sel else s.red) x

def State.setNear (s : State) (e x : Nat) (n : NearEng) : State :=
  if e = 2 then { s with sel := SMap.set .reset s.sel x n } else { s with red := SMap.set .reset s.red x n }

/-- The stack whose engine performs a command of a core (R342, R356). -/
def Cmd.stack (m : Cmd) : Nat :=
  let stk := if m.eng = 2 then wfld m.w2 58 3 else wfld m.w1 0 3
  if stk < 4 then stk else m.core / 128

/-- The command that a core would start at the engine of stack x. -/
def State.coreRequest (s : State) (e x k : Nat) : Option Cmd :=
  let c := s.core k
  if c.st == .running && s.engineOn k e && (s.started k e).isNone then
    match headCmd (c.equeue e) with
    | some m => if m.stack = x then some m else none
    | none => none
  else none

/-- The command that the dispatcher would start: of the running nodes of the engine's kind that name it, the one
dispatched first. -/
def State.nodeRequest (s : State) (e x : Nat) : Option (Nat × Nat × Cmd) :=
  let all := s.graphs.flatMap fun g => g.2.nodes.zipIdx.filterMap fun p =>
    match p.1.cmds with
    | m :: _ =>
      if p.1.kind = e - 1 && p.1.st == .running && (p.1.est ≥ 4 || p.1.est = x) then some (p.1.startAt, g.1, p.2, m) else none
    | [] => none
  match all with
  | [] => none
  | q :: l => some (l.foldl (fun (b : Nat × Nat × Nat × Cmd) r => if r.1 < b.1 then r else b) q).2

/-- The first requester at or after the pointer that holds a command (R346). -/
def State.nextRequest (s : State) (e x : Nat) : Option (Nat × Option (Nat × Nat) × Cmd) :=
  if s.thermStop then none
  else
    let cores := s.cores.filterMap fun p => (s.coreRequest e x p.1).map fun m => (p.1, (none : Option (Nat × Nat)), m)
    let all := cores ++ (match s.nodeRequest e x with
      | some (g, n, m) => [(512, some (g, n), m)]
      | none => [])
    match all.find? fun q => decide ((s.near e x).ptr ≤ q.1) with
    | some q => some q
    | none => all.head?

/-- The engine starts a requester's command. -/
def State.startNear (s : State) (e x : Nat) (q : Nat × Option (Nat × Nat) × Cmd) : State :=
  let (k, nd, m) := q
  let s := match nd with
    | some (g, n) => s.modNode g n fun n => { n with cmds := n.cmds.tail }
    | none =>
      let c := s.core k
      s.setCore k ((c.setEqueue e (c.equeue e).tail).markStarted m.id)
  s.setNear e x { s.near e x with busy := some (k, .ofCmd m), ptr := (k + 1) % 513, node := nd }

/-! Access and endings. -/

/-- How a node's command or operation accesses memory (R465). -/
def Graph.nodeAcc (g : Graph) (path id : Nat) (tlb : TlbRef) : Acc :=
  { path := path, agent := cmdAgent id, own := none, allot := false, tlb := tlb, sup := g.sv, sec := g.sec,
    root := g.xroot, vis := [], writer := none, st := 0, tag := 0, cmd := none }

/-- The accessor of the engine's command. -/
def State.nearAcc (s : State) (e x : Nat) (m : Cmd) : Acc :=
  let tlb := if e = 2 then TlbRef.sel x else TlbRef.red x
  match (s.near e x).node with
  | some (g, _) =>
    match s.graph g with
    | some g => g.nodeAcc (enginePath e) m.id tlb
    | none => { (s.core m.core).accCmd m with tlb := tlb }
  | none => { (s.core m.core).accCmd m with tlb := tlb }

/-- The engine is free again. -/
def State.freeNear (s : State) (e x : Nat) : State := s.setNear e x { s.near e x with busy := none, node := none }

/-- A node's executor has ended, with a fault code or 0, and flags. -/
def State.endNode (s : State) (g n code : Nat) (flags : BitVec 7) : State :=
  s.modNode g n fun n => { n with ended := [0], fault := code, flags := n.flags ||| flags }

/-- A fault of the command: of its core, or of its node. -/
def nearFault (e x : Nat) (s : State) (r : Run) (f : FaultInfo) : State :=
  match (s.near e x).node with
  | some (g, n) => (((s.noteEcc f).performOwn (cmdAgent r.cmd.id) allPaths).freeNear e x).endNode g n f.code r.flags
  | none =>
    let k := r.cmd.core
    let s := engineFault k s r f
    -- a core that a double fault halts leaves the engine free
    if (s.core k).st == .dead then s.freeNear e x else s

def putNear (e x : Nat) (s : State) (r : Run) : State :=
  match (s.near e x).busy with
  | some (k, _) => s.setNear e x { s.near e x with busy := some (k, r) }
  | none => s

/-- The command completes: a core's reply and retirement (R241), or the end of a node. -/
def nearDone (e x : Nat) (reply : Run → Option Word) (s : State) (r : Run) : State :=
  match (s.near e x).node with
  | some (g, n) => ((s.performOwn (cmdAgent r.cmd.id) allPaths).freeNear e x).endNode g n 0 r.flags
  | none => (s.freeNear e x).completeCmd r.cmd.core e r (reply r)

/-- At most n beats or elements of the engine of stack x, of the kind that the event names. -/
def nearEvent (e x n : Nat) (kind : Cmd → Bool) (beat : Nat → Run → Op (Option Run)) (reply : Run → Option Word)
    (s : State) : State :=
  let go := fun (s : State) (r : Run) =>
    let on := match (s.near e x).node with | some _ => true | none => s.engineOn r.cmd.core e
    if on && kind r.cmd then beats (beat x) (nearFault e x) (putNear e x) (nearDone e x reply) n s r else s
  match (s.near e x).busy with
  | some (_, r) => go s r
  | none =>
    match s.nextRequest e x with
    | some q => if kind q.2.2 then go (s.startNear e x q) (.ofCmd q.2.2) else s
    | none => s

/-! The selection engine. -/

/-- Progress of a selection command: phase (1 scan, 2 output, 3 last arrival), records written, full, and the bytes
that wait for their beat, the bins, or the ranked list as key, index and pattern. -/
structure SelSt where
  phase : Nat
  count : Nat
  full : Nat
  data : List Nat
  deriving DecidableEq, Repr

def SelSt.toList (x : SelSt) : List Nat := x.phase :: x.count :: x.full :: x.data

def SelSt.ofList : List Nat → SelSt
  | p :: c :: f :: d => ⟨p, c, f, d⟩
  | _ => ⟨0, 0, 0, []⟩

/-- Destination address: in the own window, or word 2 of a node's block. -/
def Cmd.selDst (m : Cmd) : Nat := if m.core = 512 then m.w2.toNat else wfld m.w2 0 22

/-- Ranges of virtual addresses meet. -/
def meets (a n b m : Nat) : Bool := n ≠ 0 && m ≠ 0 && a < b + m && b < a + n

/-- The checks at a command's start (R358, R364). -/
def selStart (a : Acc) (m : Cmd) : Op Unit := do
  let w := m.selTy.width / 8
  let src := m.w1.toNat
  if m.core = 512 && !m.selOk m.selDst then accFault a fcENGCMD 0
  else if src % w ≠ 0 then accFault a fcENGCMD 0
  else if meets src (m.selN * w) m.selDst m.selSize then accFault a fcENGCMD 0
  else
    let _ ← chunks a .write m.selDst m.selSize
    pure ()

/-- A comparison by its condition code (R356). -/
def selTest (cond x y : Nat) : Bool :=
  match cond with
  | 0 => x == y | 1 => x != y | 2 => decide (x < y) | 3 => decide (x ≤ y) | 4 => decide (y < x) | _ => decide (y ≤ x)

/-- top(x, j) (R359). -/
def topDigits (x j : Nat) : Nat := x / 2 ^ (4 * j)

/-- A survivor's record (R357). -/
def selRecord (m : Cmd) (pat idx : Nat) : List Nat :=
  let h := m.rsz / 2
  (leBytes h pat ++ leBytes h idx).map BitVec.toNat

/-- An element is admitted (R359); `pred` and `filt`. -/
def selAdmits (m : Cmd) (key : Nat) : Bool :=
  let opnd := m.w3.toNat % 2 ^ m.selTy.width
  if m.selMode = 0 then selTest m.selCond key ((selKey m.selTy m.w3.toNat).getD 0)
  else selTest m.selCond (topDigits key m.selDig) (topDigits opnd m.selDig)

/-- The key matches the prefix above the digit; `hist`. -/
def selPrefix (m : Cmd) (key : Nat) : Bool :=
  m.selDig + 1 = m.selTy.width / 4
    || topDigits key (m.selDig + 1) == topDigits (m.w3.toNat % 2 ^ m.selTy.width) (m.selDig + 1)

/-- Rank an element into the best k: a list of key, index, pattern, best first. -/
def selRank (k : Nat) (isMin : Bool) (key idx pat : Nat) : List Nat → List Nat
  | ky :: i :: p :: l =>
    if k = 0 then []
    else if (if isMin then key < ky else ky < key) then (key :: idx :: pat :: ky :: i :: p :: l).take (3 * k)
    else ky :: i :: p :: selRank (k - 1) isMin key idx pat l
  | _ => if k = 0 then [] else [key, idx, pat]

/-- One element of the scan. -/
def selElem (m : Cmd) (x : SelSt) (idx pat : Nat) : SelSt :=
  match selKey m.selTy pat with
  | none => x
  | some key =>
    match m.selMode with
    | 1 => { x with data := selRank m.selCap (m.selCond == 1) key idx pat x.data }
    | 2 =>
      if selPrefix m key then
        let d := key / 2 ^ (4 * m.selDig) % 16
        { x with count := x.count + 1, data := x.data.set d (x.data.getD d 0 + 1) }
      else x
    | _ =>
      if selAdmits m key then
        { x with count := x.count + 1, data := x.data ++ selRecord m pat idx,
                 full := if m.selCap ≠ 0 && x.count + 1 = m.selCap then 1 else 0 }
      else x

/-- Bytes of the ranked list, or of the bins, for output. -/
def selOut (m : Cmd) (x : SelSt) : SelSt :=
  match m.selMode with
  | 1 =>
    let recs := chunksOf 3 (x.data.length / 3) x.data
    { x with phase := 2, count := recs.length, data := recs.flatMap fun r => selRecord m (r.getD 2 0) (r.getD 1 0) }
  | 2 => { x with phase := 2, data := x.data.flatMap fun b => (leBytes 4 b).map BitVec.toNat }
  | _ => { x with phase := 2 }

/-- Land one beat of n bytes from the front of the waiting bytes. -/
def selLand (a : Acc) (r : Run) (x : SelSt) (n : Nat) : Op Run := do
  let m := r.cmd
  writeBytes a false ((m.selDst + r.landed) % 2 ^ 64) ((x.data.take n).map (BitVec.ofNat 8))
  arrive a m.bar n
  return { r with landed := r.landed + n, acc := ({ x with data := x.data.drop n } : SelSt).toList }

/-- One element, or one beat, of a selection command. -/
def selBeat (e x : Nat) (r : Run) : Op (Option Run) := withStat (statusWord r) do
  let s ← get
  let m := r.cmd
  let a ← (s.nearAcc e x m).weak m.core
  let da := { a with allot := a.own.isSome }
  let z := SelSt.ofList r.acc
  let room := 256 - (m.selDst + r.landed) % 256
  match z.phase with
  | 0 => do
    match m.kept a with
    | some f => throw (.fault f)
    | none => pure ()
    selStart da m
    return some { r with acc := [1, 0, 0] ++ if m.selMode = 2 then List.replicate 16 0 else [] }
  | 1 =>
    let streaming := m.selMode = 0 || m.selMode = 3
    if streaming && room ≤ z.data.length then do
      let r ← selLand da r z room
      return some r
    else if r.pos < m.selN && z.full = 0 then do
      let w := m.selTy.width / 8
      let p ← readNat a false ((m.w1.toNat + w * r.pos) % 2 ^ 64) w
      return some { r with pos := r.pos + 1, acc := (selElem m z r.pos p).toList }
    else return some { r with acc := (selOut m z).toList }
  | 2 =>
    if z.data.isEmpty then do
      arrive da m.bar (m.selSize - r.landed)
      return some { r with landed := m.selSize, acc := ({ z with phase := 3 } : SelSt).toList }
    else do
      let r ← selLand da r z (min room z.data.length)
      return some r
  | _ => do
    -- a node stores its reply entry (R364)
    match (s.near e x).node with
    | some (g, n) =>
      let va := match s.nodeOf g n with | some nd => (nd.job.getD 4 0).toNat | none => 0
      if va = 0 then pure ()
      else writeBytes a true va (leBytes 8 (z.count * 2 ^ 32 + z.full * 2 ^ 16 + n % 4096))
    | none => pure ()
    return none

/-- The reply of R360. -/
def selReply (r : Run) : Option Word :=
  let z := SelSt.ofList r.acc
  some (BitVec.ofNat 64 (z.count % 2 ^ 32 * 2 ^ 32 + z.full * 2 ^ 16 + r.cmd.replyTag))

def selEvent (mode x n : Nat) (s : State) : State :=
  nearEvent 2 x n (fun m => m.selMode == mode) (selBeat 2) selReply s

def execSelPred (stack n : Nat) (s : State) : Res := .next (selEvent 0 stack n s)
def execSelTopk (stack n : Nat) (s : State) : Res := .next (selEvent 1 stack n s)
def execSelHist (stack n : Nat) (s : State) : Res := .next (selEvent 2 stack n s)
def execSelFilt (stack n : Nat) (s : State) : Res := .next (selEvent 3 stack n s)

/-! The reduction engine. A started command holds its parameter block. -/

def redOp_ (b : List Nat) : Nat := fld (b.getD 0 0) 61 3
def redFmt (b : List Nat) : Nat := fld (b.getD 0 0) 58 3
def redBufs (b : List Nat) : List Nat := b.drop 8
def redN (b : List Nat) : Nat := b.getD 0 0 % 2 ^ 32

/-- Element type of fmt 0 to 5 (R343). -/
def redTy (f : Nat) : Ty :=
  match f with
  | 0 => .f64 | 1 => .f32 | 2 => .bf16 | 3 => .f16 | 4 => .i64 | _ => .i32

/-- The block, read when the command starts; of a node, when the graph was launched (R343, R350). -/
def readBlock (a : Acc) (m : Cmd) (node : Option Node) : Op (List Nat) := do
  match node with
  | some n => return n.job.map BitVec.toNat
  | none => do
    let w ← readWords a m.w0.toNat 8
    let bufs ← readWords a ((m.w0.toNat + 64) % 2 ^ 64) (fld (w.getD 0 0) 48 4 + 1)
    return w ++ bufs

/-- The checks of R344 after the block's read. -/
def redCheck (a : Acc) (b : List Nat) : Op Unit := do
  let s ← get
  let w := (redTy (redFmt b)).width / 8
  let dst := b.getD 1 0
  let flag := b.getD 2 0
  let sync := b.getD 4 0
  if 3 ≤ redOp_ b || 6 ≤ redFmt b then accFault a fcENGCMD 0
  else if dst % w ≠ 0 || (redBufs b).any (fun x => x % w ≠ 0) || flag % 8 ≠ 0 || sync % 16 ≠ 0 then accFault a fcENGCMD 0
  else if (redBufs b).any (fun x => meets dst (redN b * w) x (redN b * w)) then accFault a fcENGCMD 0
  else if sync = 0 then pure ()
  else match s.peekXlate a.own a.root sync with
    | some pa => if tierOf pa == some .scratch then pure () else accFault a fcAMOSPACE sync
    | none => pure ()

/-- combine (R345). -/
def redCombine (op f x y : Nat) : Nat × Flags :=
  let t := redTy f
  let w := t.width
  if t.isFloat then
    match op with
    | 0 => fAdd (ffmt t) .rne ((ffmt t).unpack x) ((ffmt t).unpack y)
    | 1 => fminmax (ffmt t) false x y
    | _ => fminmax (ffmt t) true x y
  else
    match op with
    | 0 => ((x + y) % 2 ^ w, 0)
    | 1 => (if sval w y < sval w x then y else x, 0)
    | _ => (if sval w x < sval w y then y else x, 0)

/-- One level of the tree over buffer positions. -/
def redLevel (op f : Nat) : List Nat → List Nat × Flags
  | x :: y :: l =>
    let (z, fl) := redCombine op f x y
    let (r, fl') := redLevel op f l
    (z :: r, fl ||| fl')
  | l => (l, 0)

/-- At most n levels: sixteen leaves take four. -/
def redFold (op f : Nat) : Nat → List Nat → Nat × Flags
  | 0, l => (l.headD 0, 0)
  | n + 1, l =>
    let (r, fl) := redLevel op f l
    let (x, fl') := redFold op f n r
    (x, fl ||| fl')

/-- Steps 1 to 3 of R347. -/
def redFinish (a : Acc) (core : Nat) (b : List Nat) : Op Unit := do
  let flag := b.getD 2 0
  let sync := b.getD 4 0
  let fp ← if flag = 0 then pure [] else chunks a .write flag 8
  let sp ← if sync = 0 then pure 0 else bankTarget a .rmw sync 16
  -- a flag store that finds no room in its frame holds back all that comes before it too (R310)
  let s0 ← get
  bufferRoom a (s0.toBuffer a fp)
  if sync = 0 then pure ()
  else do
    let o ← bankRead a sync sp 16
    bankWrite a sync sp (syncBytes ((leNat (o.take 8) + 1) % 2 ^ 64) (if core = 512 then 0xFFFF else core) 7)
    modify fun s => s.release core a.agent sp
  if flag = 0 then pure ()
  else do
    let s ← get
    -- whoever reads the flag is ordered after its store too
    writeChunks { a with tok := joinClk (s.token a.agent) [(a.agent, s.seq + 1)] } true fp (leBytes 8 (b.getD 3 0))

/-- One element of a reduction. -/
def redBeat (e x : Nat) (r : Run) : Op (Option Run) := withStat (statusWord r) do
  let s ← get
  let m := r.cmd
  let a ← (s.nearAcc e x m).weak m.core
  match r.acc with
  | [] => do
    let nd := match (s.near e x).node with | some (g, n) => s.nodeOf g n | none => none
    let b ← readBlock a m nd
    withStat (statusWord { r with acc := b }) (redCheck a b)
    return some { r with acc := b }
  | b =>
    if r.pos ≥ redN b then do
      redFinish a m.core b
      return none
    else do
      let w := (redTy (redFmt b)).width / 8
      let leaves ← (redBufs b).mapM fun p => readNat a false ((p + w * r.pos) % 2 ^ 64) w
      let (v, fl) := redFold (redOp_ b) (redFmt b) 4 leaves
      writeBytes a false ((b.getD 1 0 + w * r.pos) % 2 ^ 64) (leBytes w v)
      return some { r with pos := r.pos + 1, flags := r.flags ||| fl }

/-- The reply of R349, where the command asks for one. -/
def redReply (r : Run) : Option Word :=
  if r.cmd.w1.getLsbD 4 then
    some (BitVec.ofNat 64 (r.pos % 2 ^ 32 * 2 ^ 32 + r.flags.toNat * 2 ^ 24 + r.cmd.replyTag))
  else none

def execReduceCommand (stack n : Nat) (s : State) : Res :=
  .next (nearEvent 3 stack n (fun _ => true) (redBeat 3) redReply s)

end Sys2Proof.Machine
end

