-- ==== Sys2Proof/Machine/Sampler.lean ====
section
/-! DEFINITION. The sampler (R404 to R412): the draw, SMP, STOPSET and the commands of its port. -/

namespace Sys2Proof.Machine

/-! The draw (R406, R407). -/

/-- A present candidate: weight or logit, token id, list index, and the probability p of `res`, as f32 patterns. -/
structure CandWord where
  w : Nat
  id : Nat
  idx : Nat
  p : Nat
  deriving DecidableEq, Repr

def f32v (p : Nat) : Val := fmt32.unpack (p % 2 ^ 32)

/-- The value is a NaN, +∞ or below -0. -/
def badProb (p : Nat) : Bool :=
  match f32v p with
  | .nan _ => true
  | .inf _ => true
  | .fin neg m _ _ => neg && m ≠ 0

/-- T is not allowed, or a present logit is a NaN or +∞. -/
def badTemp (t : Nat) : Bool :=
  match f32v t with
  | .nan _ => true
  | .inf neg => neg
  | .fin neg m _ _ => neg && m ≠ 0

def badLogit (p : Nat) : Bool :=
  match f32v p with
  | .nan _ => true
  | .inf neg => !neg
  | .fin .. => false

/-- max(+0, Round(p - q)). -/
def resWeight (p q : Nat) : Nat :=
  let (d, _) := fSub fmt32 .rne (f32v p) (f32v q)
  if (f32v d).neg then 0 else d

/-- One candidate stands before another: greater key, then lower id, then lower list index. -/
def candBefore (x y : CandWord) : Bool :=
  let kx := (selKey .f32 x.w).getD 0
  let ky := (selKey .f32 y.w).getD 0
  if kx ≠ ky then ky < kx
  else if x.id ≠ y.id then sval 32 x.id < sval 32 y.id
  else x.idx < y.idx

/-- Insert into a ranked list. -/
def candInsert (x : CandWord) : List CandWord → List CandWord
  | [] => [x]
  | y :: l => if candBefore x y then x :: y :: l else y :: candInsert x l

def candRank (l : List CandWord) : List CandWord := l.foldl (fun r x => candInsert x r) []

/-- A finite non-negative f32 in units of 2^-149. -/
def f32Units (p : Nat) : Nat :=
  match f32v p with
  | .fin _ m e _ => m * 2 ^ (e + 149).toNat
  | _ => 0

/-- The weights in rank order (R407). -/
def drawWeights (kind : DrawKind) (t : Nat) (l : List CandWord) : List Nat :=
  match kind with
  | .tmp =>
    let s := (fDiv fmt32 .rne (f32v 0x3F800000) (f32v t)).1
    let c := (fMul fmt32 .rne (f32v s) (f32v 0x3FB8AA3B)).1
    let v0 := f32v ((l.head?.map CandWord.w).getD 0)
    l.map fun x =>
      let d := (sumVals false [f32v x.w, v0.negate]).1
      let y := (finish fmt32 .rne [] (mulVals d (f32v c))).1
      (fExp2 fmt32 .rne (f32v y)).1
  | .prob => l.map CandWord.w
  | .res =>
    let ws := l.map CandWord.w
    if ws.all (fun w => w = 0) then l.map CandWord.p else ws

/-- Partial sums, each rounded once. -/
def drawSums (acc : Nat) : List Nat → List Nat
  | [] => []
  | w :: l =>
    let x := (fAdd fmt32 .rne (f32v acc) (f32v w)).1
    x :: drawSums x l

/-- The rank that a draw picks; none is SAMPLE. -/
def drawPick (kind : DrawKind) (t u : Nat) (l : List CandWord) : Option Nat :=
  let greedy := kind == .tmp && fld t 23 8 == 0
  if greedy then some 0
  else if kind == .tmp && (f32v t).isInf then some (u * l.length / 2 ^ 32)
  else
    let ws := drawWeights kind t l
    match ws with
    | [] => none
    | w0 :: rest =>
      let sums := w0 :: drawSums w0 rest
      let W := sums.getLastD 0
      if (f32v W).isZero || (f32v W).isInf then none
      else some ((sums.findIdx fun x => decide (u * f32Units W < f32Units x * 2 ^ 32)))

/-- The candidate list as read: value and id words, and the q values of `res`. Either the ranked present candidates, or
none for SAMPLE. -/
def drawCands (kind : DrawKind) (t : Nat) (words qs : List Nat) : Option (List CandWord) :=
  let present := words.zipIdx.filter fun p => p.1 % 2 ^ 32 ≠ 0xFF800000
  let bad := match kind with
    | .tmp => badTemp t || present.any fun p => badLogit p.1
    | .prob => present.any fun p => badProb p.1
    | .res => present.any fun p => badProb p.1 || badProb (qs.getD p.2 0)
  if bad || present.isEmpty then none
  else some (candRank (present.map fun p =>
    let v := p.1 % 2 ^ 32
    let w := match kind with | .res => resWeight v (qs.getD p.2 0) | _ => v
    ⟨w, fld p.1 32 32, p.2, v⟩))

/-- The token of a draw with the bits U. -/
def drawToken (kind : DrawKind) (t u : Nat) (words qs : List Nat) : Option Nat := do
  let l ← drawCands kind t words qs
  let j ← drawPick kind t u l
  let x ← l[j]?
  return x.id

/-! A draw on a slot (R408, R409). -/

/-- Write one slot of core k. -/
def setSlot (k slot : Nat) (x : Slot) : Op Unit := modCore k fun c => { c with smp := SMap.set .reset c.smp slot x }

/-- f32 values from an address. -/
def readF32s (a : Acc) (va : Nat) : Nat → Op (List Nat)
  | 0 => pure []
  | n + 1 => do
    let x ← readNat a false va 4
    let xs ← readF32s a ((va + 4) % 2 ^ 64) n
    return x :: xs

/-- One draw: its outcome, its token and the token's position. A SAMPLE leaves the slot faulted. -/
def drawSlot (a : Acc) (sample : FaultInfo) (k : Nat) (kind : DrawKind) (slot n t list q : Nat) (g : Gen) (tag : Nat) :
    Op (Nat × Nat × Nat) := do
  let s ← get
  let x := SMap.get Slot.reset (s.core k).smp slot
  if x.st ≠ 1 then return (2, 0, 0)
  else
    let words ← readWords a list n
    let qs ← match kind with | .res => readF32s a q n | _ => pure []
    let u := keyed g ((slot * 2 ^ 32 + x.pos : Nat)) tag % 2 ^ 32
    match drawToken kind t u words qs with
    | none => do
      setSlot k slot { x with st := 3 }
      let s ← get
      throw (.faultKeep sample s)
    | some tok => do
      let stop := x.ids.contains tok
      setSlot k slot { x with last := tok, pos := (x.pos + 1) % 2 ^ 32, st := if stop then 2 else 1 }
      return (if stop then 1 else 0, tok, x.pos)

/-- The result of SMP, or a reply (R410). -/
def drawResult (out slot f token : Nat) : Word := BitVec.ofNat 64 (out * 2 ^ 62 + slot * 2 ^ 56 + f % 65536 * 2 ^ 32 + token)

/-! SMP and STOPSET queue behind what the core queued before (R409, R411): the entry stands in the sampler's queue while
C waits, and the word acts when it has come to the head and the engine is free. -/

/-- The entry that the executing SMP or STOPSET has in the queue. -/
def isOwnDraw (m : Cmd) : Bool := match m.kind with | .draw _ => true | .stopset => true | _ => false

/-- The word's turn: its entry is placed at the first attempt, and taken out when it is the word's turn. -/
def drawTurn (kind : CmdKind) : Op Cmd := do
  let c ← here
  let k ← coreId
  match (c.equeue 4).find? isOwnDraw with
  | none => do
    let s ← get
    guardBlock (s.cmdFill k 4 < cmdDepth)
    drainOwn (2 ^ enginePath 4)
    let id ← newCmdId
    let tok ← tokenHere
    modify fun s => s.learn (cmdAgent id) tok
    let m : Cmd := ⟨kind, 0, 0, 0, 0, c.sC.pc, 4, 0, k, id, none, none, tok, c.sC.visOf (enginePath 4), false, none⟩
    modHere fun c => c.setEqueue 4 (c.equeue 4 ++ [m])
    let s ← get
    if (c.equeue 4).isEmpty && (c.runOf 4).isNone && !s.thermStop then do
      modHere fun c => c.setEqueue 4 []
      return m
    else hold
  | some m =>
    let s ← get
    if ((c.equeue 4).head?.map Cmd.id) == some m.id && (c.runOf 4).isNone && !s.thermStop then do
      modHere fun c => c.setEqueue 4 (c.equeue 4).tail
      return m
    else hold

/-- How the draw of a word reaches memory: on the sampler's path, with the fault at the word. -/
def drawAcc (c : Core) (m : Cmd) : Acc := { c.accCmd m with cmd := none, tag := 0 }

/-- Retirement of a draw of a word: its entry in the replay list has started (R420). -/
def noteDraw (m : Cmd) : Op Unit := modHere fun c => (c.note c .c m.id).markStarted m.id

/-- SMP: n is the field nm1, one less than the number of candidates. -/
def smpOp (kind : DrawKind) (d a b slot n : Nat) : Op Unit := do
  noSpec
  let list ← rdS a
  let y ← rdS b
  guardAddr (list.toNat % 8 = 0) fcALIGN list.toNat
  guardAddr (kind != .res || y.toNat % 4 == 0) fcALIGN y.toNat
  let m ← drawTurn (.draw kind)
  let c ← here
  let k ← coreId
  let acc ← (drawAcc c m).weak k
  let sample : FaultInfo := ⟨fcSAMPLE, 0, BitVec.ofNat 64 slot, acc.path, 0, 0, none, none, none⟩
  let (out, tok, pos) ← drawSlot acc sample k kind slot (n + 1) (y.toNat % 2 ^ 32) list.toNat y.toNat c.genC
    (wfld (c.creg crSRTAG) 32 20)
  let s ← get
  -- without a committed token no position is stated
  let f ← if out = 2 then do
      set { s with draws := s.draws + 1 }
      pure (Config.freeWord s.draws).toNat
    else pure pos
  wrS d (drawResult out slot f tok)
  modify fun s => s.chargeCmd k
  noteDraw m

def execSmp (h : Hdr) (k : DrawKind) (d a b slot n : Nat) (s : State) : Res :=
  runOp (.smp h k d a b slot n) h (smpOp k d a b slot n) s

def stopsetOp (d a b slot cnt : Nat) : Op Unit := do
  noSpec
  let x ← rdS a
  let y ← rdS b
  guardAddr (x.toNat % 4 = 0) fcALIGN x.toNat
  let m ← drawTurn .stopset
  let c ← here
  let k ← coreId
  let acc ← (drawAcc c m).weak k
  let ids ← readF32s acc x.toNat cnt
  let old := SMap.get Slot.reset c.smp slot
  setSlot k slot ⟨y.toNat % 2 ^ 32, 0, 1, ids⟩
  wrS d (BitVec.ofNat 64 old.st)
  noteDraw m

def execStopset (h : Hdr) (d a b slot cnt : Nat) (s : State) : Res :=
  runOp (.stopset h d a b slot cnt) h (stopsetOp d a b slot cnt) s

/-! Commands of the port (R412). -/

def drawKindOf (n : Nat) : DrawKind := if n = 0 then .tmp else if n = 1 then .prob else .res

/-- A sampler command as a whole: it starts and draws; the reply is kept with the run. -/
def samplerOp (k : Nat) (r : Run) : Op (Option Run) := do
  let s ← get
  let m := r.cmd
  match r.acc with
  | _ :: _ => return none
  | [] => do
    let a ← ((s.core k).accCmd m).weak k
    let slot := wfld m.w0 56 6
    let (g, tag) := m.key.getD ((s.core k).gen (if m.st = 1 then .a else .c), wfld ((s.core k).creg crSRTAG) 32 20)
    let sample : FaultInfo := ⟨fcSAMPLE, 0, BitVec.ofNat 64 slot, a.path, m.st, m.tag, none, some m, none⟩
    let (out, tok, _) ← drawSlot a sample k (drawKindOf (wfld m.w0 62 2)) slot (wfld m.w0 32 7 + 1) (wfld m.w0 0 32)
      m.w1.toNat m.w2.toNat g tag
    return some { r with acc := [out, slot, tok] }

def samplerDone (k : Nat) (s : State) (r : Run) : State :=
  s.completeCmd k 4 r (some (drawResult (r.acc.getD 0 0) (r.acc.getD 1 0) r.cmd.replyTag (r.acc.getD 2 0)))

/-- The sampler performs its head command, of the kind that the event names. -/
def samplerEvent (kind k : Nat) (s : State) : State :=
  if s.thermStop && ((s.core k).runOf 4).isNone then s
  else match s.engineRun k 4 fun m => m.kind == .go && wfld m.w0 62 2 == kind with
    | none => s
    | some (s, r) => beats (samplerOp k) (engineFault k) (putRun k 4) (samplerDone k) 2 s r

def execSamplerTmp (core : Nat) (s : State) : Res := .next (samplerEvent 0 core s)
def execSamplerProb (core : Nat) (s : State) : Res := .next (samplerEvent 1 core s)
def execSamplerRes (core : Nat) (s : State) : Res := .next (samplerEvent 2 core s)

end Sys2Proof.Machine
end

