-- ==== Sys2Proof/Machine/Context.lean ====
section
/-! DEFINITION. The save area (R426 to R429, R467), CTXSAVE and CTXLOAD (R430, R433). -/

namespace Sys2Proof.Machine

/-! Building the image. -/

/-- A list of bytes padded with zeros to n. -/
def padTo (n : Nat) (l : List Byte) : List Byte := (l ++ List.replicate (n - l.length) 0).take n

def words64 (l : List Nat) : List Byte := l.flatMap (leBytes 8)

/-- Geometry (R429). -/
def geom : Nat := 0x0015_0100_1C26_8040

/-- The live masks within the allotment (R425). -/
structure Live where
  banks : List Nat
  acc : List Nat
  wbuf : List Nat
  tiles : List Nat
  deriving DecidableEq, Repr

def bitsOf (n : Nat) (f : Nat → Bool) : List Nat := (List.range n).filter f

def Core.live (c : Core) (l0 l1 : Nat) : Live :=
  { banks := bitsOf 10 fun b => l1.testBit b && (c.creg crVALLOT).getLsbD b,
    acc := bitsOf 16 fun i => l1.testBit (10 + i), wbuf := bitsOf 16 fun i => l1.testBit (26 + i),
    tiles := bitsOf 64 fun t => l0.testBit t && (c.creg crBANKALLOT).getLsbD (t / 4) }

/-- Registers of live banks, ascending. -/
def Live.regs (l : Live) : List Nat := l.banks.flatMap fun b => (List.range 64).map (64 * b + ·)

/-- Bytes of the whole area. -/
def Live.size (l : Live) : Nat :=
  0xE000 + (if l.banks.isEmpty then 0 else 960 + 32 * 1088 + 96 * 64 * l.banks.length) + 32768 * l.banks.length
    + 16384 * l.acc.length + 65536 * l.wbuf.length + 65536 * l.tiles.length

/-- VALLOT, BANKALLOT and the reply-reader mask in the layout of R292. -/
def Core.allotWord (c : Core) (mask : Nat) : Nat :=
  wfld (c.creg crVALLOT) 0 10 * 2 ^ 48 + wfld (c.creg crBANKALLOT) 0 16 * 2 ^ 32 + mask

def jndBits (c : Core) : Nat :=
  ([Stream.c, .a, .v, .m].map fun st =>
    let x := c.stream st
    if x.joined || !x.started then 2 ^ st.num else 0).sum

/-- The commands that a save records: the failing one under rq, then the held ones, and markers of the handler's own that
wait behind the nest that is saved. -/
def Core.saved (c : Core) : List Held :=
  (if (c.creg crTREC0).getLsbD 18 then c.failing.toList.map fun m => Held.mk 0 m (c.creg crTREC2) else []) ++ c.held
    ++ (c.equeue 5).map fun m => Held.mk 2 m 0

/-- A held record (R428). -/
def Held.bytes (r : Held) : List Byte :=
  let last := match r.cmd.kind with
    | .reply e => (lo64 e.img).toNat
    | .marker j _ => j
    | _ => 0
  -- a marker has no command words
  let w := fun (x : Word) => match r.cmd.kind with | .marker .. => 0 | _ => x.toNat
  words64 [w r.cmd.w0, w r.cmd.w1, w r.cmd.w2, w r.cmd.w3, r.cmd.tag.toNat,
    r.cmd.eng + r.cmd.st * 16 + r.kind * 64, r.status.toNat, last]

/-- Barriers named by held records and by not-started commands, each once. -/
def Core.barriers (c : Core) : List (Nat × Nat) := (c.saved.filterMap (fun r => r.cmd.barName) ++ c.barNames).eraseDups

/-- A barrier record: address, what is pending, phase (R428). -/
def State.barrierRecord (s : State) (b : Nat × Nat) : List Byte :=
  let o := s.peek b.2 16
  leBytes 8 b.1 ++ leBytes 6 (wrap 48 ((barExpected o : Int) - barArrived o)) ++ leBytes 2 (barPhase o)

def sRegs (m : SMap Word) (lo n : Nat) : List Byte :=
  words64 ((List.range n).map fun i => if lo + i = 0 then 0 else (SMap.get 0 m (lo + i)).toNat)

/-- Staging words of C or A: ports 0 to 4. -/
def stagingBytes (m : SMap Word) (st : Stream) : List Byte :=
  words64 ((List.range 20).map fun i => (SMap.get 0 m (stagingKey st (i / 4) (i % 4))).toNat)

def replayBytes (r : Option Replay) (st : Stream) : List Byte :=
  match r with
  | none => padTo 704 []
  | some r =>
    padTo 704 (sRegs r.regs 0 64 ++ stagingBytes r.staging st ++ leBytes 8 r.addr.toNat
      ++ leBytes 8 (r.list.zipIdx.foldl (fun x p => x + if p.1.1 then 2 ^ p.2 else 0) 0) ++ leBytes 8 r.list.length)

def genBytes (g : Gen) : List Byte := leBytes 16 g.x.toNat ++ leBytes 16 g.c.toNat ++ leBytes 16 g.x0.toNat

/-- A sequencer: levels from the outermost, depth, and the RPT index (R467). -/
def seqBytes (x : StreamSt) : List Byte :=
  let ls := x.seqr.reverse.flatMap fun l => leBytes 4 l.count ++ leBytes 4 l.idx ++ leBytes 8 l.body.toNat ++ leBytes 4 l.len ++ leBytes 4 0
  let (r, on) := match x.rpt with | some (r, _) => (r, 1) | none => (0, 0)
  padTo 144 ls ++ padTo 8 (leBytes 1 x.seqr.length) ++ leBytes 4 r ++ leBytes 4 on

def zeroUnless (on : Bool) (l : List Byte) : List Byte := if on then l else List.replicate l.length 0

def queueBytes (c : Core) (q : Nat) : List Byte :=
  let l := c.queue q
  if qWide q then padTo 64 (leBytes 8 l.length) ++ padTo 4096 (l.flatMap fun e => leBytes 512 e.img.toNat)
  else leBytes 8 l.length ++ padTo 128 (l.flatMap fun e => leBytes 8 (lo64 e.img).toNat)

/-- The nest section (R467): the issue to make again is that of its body word where M stopped at one. -/
def nestBytes (c : Core) : List Byte :=
  match c.nest with
  | none => padTo 64 []
  | some (idx, w) =>
    padTo 64 (idx.flatMap (leBytes 4) ++ [1, BitVec.ofNat 8 w, if w ≠ 0 || c.nestPc.isSome then 1 else 0])

def heapBytes (c : Core) : List Byte :=
  let h := fun i => SMap.get [] c.heap i
  padTo 64 ((List.range 16).map fun i => BitVec.ofNat 8 (h i).length)
    ++ (List.range 16).flatMap fun i => padTo 512 ((h i).flatMap fun p => leBytes 4 p.1 ++ leBytes 4 p.2)

def slotBytes (x : Slot) : List Byte :=
  padTo 96 (leBytes 4 x.pos ++ leBytes 4 x.last ++ leBytes 1 x.st ++ leBytes 1 x.ids.length ++ leBytes 6 0
    ++ x.ids.flatMap (leBytes 4))

def mapRecord (m : VMap) : List Byte :=
  match m with
  | .affine a => padTo 8 [0] ++ padTo 88 (words64 a.toWords)
  | .explicit n a => padTo 8 [1, BitVec.ofNat 8 n] ++ padTo 88 (words64 a.toWords)
  | .opaque n => padTo 96 (padTo 4 [2] ++ leBytes 4 n)

def mapSlotBytes (x : MapSlot) : List Byte := padTo 1088 (leBytes 1024 x.idx.toNat ++ leBytes 64 x.void.toNat)

/-- Map slot n as it is saved: a free one is zero (R467). -/
def Core.slotSaved (c : Core) (n : Nat) : MapSlot := if slotUsed c.vmap n then SMap.get .zero c.slots n else .zero

/-- Base and size of the code windows of A, V and M, which R123 has saved: in bytes 64 to 111 of the header, to which R427
gives no meaning, for R426 has no place for them (log entry 104). -/
def Core.windowWords (c : Core) : List Nat := [c.sA, c.sV, c.sM].flatMap fun x => [x.winBase, x.winSize]

/-- The header (R427). -/
def headerBytes (c : Core) (mask : Nat) (l : Live) : List Byte :=
  let vb := if l.banks.isEmpty then 2 ^ 24 else 0
  padTo 256 (words64 [1 + wfld (c.creg crTREC0) 7 2 * 2 ^ 16 + vb, geom, c.allotWord mask, (c.creg crTLIVE0).toNat,
    (c.creg crTLIVE1).toNat, l.size, (c.creg crXROOT).toNat,
    c.saved.length + c.barriers.length * 2 ^ 8 + jndBits c * 2 ^ 16] ++ words64 c.windowWords)

/-- The sections from 0x0100 up to the registers' sections (R426). -/
def stateBytes (c : Core) (k : Nat) : List Byte :=
  let a := c.sA.started
  let z := c.sC.started
  words64 ((List.range 128).map fun n => (c.crdVal k n).toNat)
    ++ zeroUnless z (sRegs c.regC 0 48 ++ sRegs c.trapBank 48 16)
    ++ zeroUnless a (sRegs c.regA 0 64)
    ++ zeroUnless z (sRegs c.shadow 56 8)
    ++ zeroUnless z (stagingBytes c.staging .c) ++ zeroUnless a (stagingBytes c.staging .a)
    ++ zeroUnless z (replayBytes c.replayC .c) ++ zeroUnless a (replayBytes c.replayA .a)

/-- 0x1000 to 0x1480. -/
def controlBytes (c : Core) : List Byte :=
  (List.range 64).flatMap (fun n => leBytes 2 (if n = 0 then 0 else c.count n))
    ++ (List.range 16).flatMap (fun n =>
      let r := SMap.get Rdv.reset c.rdv n
      leBytes 8 ((if r.fired then 1 else 0) + r.pend % 64 * 2 + r.gen % 256 * 256))
    ++ zeroUnless c.sC.started (genBytes c.genC) ++ zeroUnless c.sA.started (genBytes c.genA) ++ zeroUnless c.sV.started (genBytes c.genV)
    ++ padTo 48 []
    ++ zeroUnless c.sA.started (seqBytes c.sA) ++ zeroUnless c.sV.started (seqBytes c.sV)
    ++ padTo 64 ((List.range 4).flatMap (fun l => leBytes 4 (SMap.get 0 c.phase l))
      ++ leBytes 8 (((List.range 4).map fun l => if c.flag l || c.flag (4 + l) then 2 ^ l else 0).sum)
      ++ leBytes 8 (c.creg crFRAMECNT).toNat)
    ++ padTo 320 []

/-- 0x1480 to 0xB840. -/
def unitBytes (c : Core) : List Byte :=
  padTo 1792 ((List.range 13).flatMap fun i => queueBytes c (3 + i))
    ++ (List.range 3).flatMap (queueBytes c)
    ++ words64 ((List.range 256).map fun n => (SMap.get 0 c.k n).toNat)
    ++ (List.range 32).flatMap (fun n => leBytes 128 (SMap.get 0 c.vw n).toNat)
    ++ padTo 3456 (planeImage c.plane) ++ padTo 3456 (planeImage c.shadowPlane)
    ++ nestBytes c ++ heapBytes c
    ++ words64 ((List.range 16).map fun b => (SMap.get 0 c.bfmt b).toNat)
    ++ (List.range 64).flatMap fun n => slotBytes (SMap.get .reset c.smp n)

/-- 0xB840 to 0xE000. -/
def recordBytes (s : State) (c : Core) : List Byte :=
  padTo 6144 ((c.saved.take 96).flatMap Held.bytes) ++ padTo 1024 ((c.barriers.take 64).flatMap s.barrierRecord) ++ padTo 3008 []

/-- The live groups from 0xE000. -/
def liveBytes (s : State) (c : Core) (k : Nat) (l : Live) : List Byte :=
  (if l.banks.isEmpty then [] else
    (List.range 15).flatMap (fun n => leBytes 64 (c.pred (n + 1)))
      ++ (List.range 32).flatMap (fun n => mapSlotBytes (c.slotSaved n))
      ++ l.regs.flatMap fun r => mapRecord (c.mapOf r))
    ++ l.regs.flatMap (fun r => leBytes 512 (SMap.get 0 c.v r).toNat)
    ++ l.acc.flatMap (fun i => (List.range 2048).flatMap fun j => leBytes 8 (SMap.get 0 c.cell (2048 * i + j)).toNat)
    ++ l.wbuf.flatMap (fun i => (List.range 1024).flatMap fun j => leBytes 64 (SMap.get 0 c.wbuf (1024 * i + j)).toNat)
    ++ l.tiles.flatMap fun t => s.peek (scratchPa k (0x10000 * t)) 0x10000

/-- Reads of the arrays that a save makes (R442). -/
def liveReads (k : Nat) (l : Live) : Op Unit := do
  l.regs.forM fun r => arrayRead 16 (64 * r) 64
  l.acc.forM fun i => arrayRead 17 (2048 * i) 2048
  l.wbuf.forM fun i => arrayRead 18 (8192 * i) 8192
  arrayRead 19 0 256
  let a ← accHere
  l.tiles.forM fun t => eccCheckRead a (0x10000 * t) (scratchPa k (0x10000 * t)) 0x10000
  let c ← here
  c.barriers.forM fun b => eccCheckRead a b.1 b.2 16

def ctxCheck (x : Word) : Op Unit := do
  let c ← here
  guardFault c.act fcILLOP
  guardAddr (x.toNat % 64 = 0) fcALIGN x.toNat

/-- CTXSAVE: the image is written, and performed for every path. -/
def ctxsaveOp (d areg : Nat) (yield_ : Bool) : Op Unit := do
  let x ← rdS areg
  ctxCheck x
  let c ← here
  let k ← coreId
  let s ← get
  -- what the handler has signalled to the coupled core lands first (R76)
  guardBlock (!yield_ || c.flight.isEmpty)
  let l := c.live (c.creg crTLIVE0).toNat (c.creg crTLIVE1).toNat
  liveReads k l
  let a ← accHere
  writeBytes a false x.toNat (headerBytes c (s.replyMask k) l ++ stateBytes c k ++ controlBytes c ++ unitBytes c
    ++ recordBytes s c ++ liveBytes s c k l)
  drainOwn allPaths
  wrS d (BitVec.ofNat 64 l.size)
  if yield_ then do
    let s ← get
    throw (.ended (s.yieldCore k))
  else pure ()

def execCtxsave (h : Hdr) (d a : Nat) (yield_ : Bool) (s : State) : Res :=
  runOp (.ctxsave h d a yield_) h (ctxsaveOp d a yield_) s

/-! Reading the image back. -/

/-- The number in w bytes at an offset of an image. -/
def imgNat (b : List Byte) (off w : Nat) : Nat := leNat ((b.drop off).take w)

def imgWord (b : List Byte) (off : Nat) : Word := BitVec.ofNat 64 (imgNat b off 8)

/-- n registers from an offset, numbered from lo. -/
def imgRegs (b : List Byte) (off lo n : Nat) : SMap Word :=
  SMap.setRange 0 [] lo ((List.range n).map fun i => imgWord b (off + 8 * i))

def imgStaging (b : List Byte) (off : Nat) (st : Stream) : List (Nat × Word) :=
  (List.range 20).map fun i => (stagingKey st (i / 4) (i % 4), imgWord b (off + 8 * i))

/-- A replay list that is not empty resumes in replay (R421). -/
def imgReplay (b : List Byte) (off : Nat) (st : Stream) (id : Nat) : Option Replay :=
  let n := min 64 (imgNat b (off + 688) 8)
  if n = 0 then none
  else
    let skips := imgNat b (off + 680) 8
    some ⟨imgRegs b off 0 64, setAll 0 [] (imgStaging b (off + 512) st), imgWord b (off + 672),
      (List.range n).map fun i => (skips.testBit i, id + i), some 0⟩

def imgGen (b : List Byte) (off : Nat) : Gen :=
  ⟨BitVec.ofNat 128 (imgNat b off 16), BitVec.ofNat 128 (imgNat b (off + 16) 16), BitVec.ofNat 128 (imgNat b (off + 32) 16)⟩

def imgSeq (b : List Byte) (off : Nat) : List Level :=
  ((List.range (min 6 (imgNat b (off + 144) 1))).map fun l =>
    ⟨imgNat b (off + 24 * l) 4, imgNat b (off + 24 * l + 4) 4, imgWord b (off + 24 * l + 8), imgNat b (off + 24 * l + 16) 4⟩).reverse

/-- An RPT in progress: its repetition index; the count is its word's again (R171). -/
def imgRpt (b : List Byte) (off : Nat) : Option (Nat × Nat) :=
  if imgNat b (off + 156) 4 = 0 then none else some (imgNat b (off + 152) 4, 0)

/-- A queue of the image. A counter that an entry of q14 names has no room in a save area, and is lost: log entry 101. -/
def imgQueue (b : List Byte) (q : Nat) : List QEnt :=
  let (off, w, hd) := if qWide q then (0x1B80 + 4160 * q, 512, 64) else (0x1480 + 136 * (q - 3), 8, 8)
  (List.range (min (qDepth q) (imgNat b off 8))).map fun i =>
    ⟨BitVec.ofNat 4096 (imgNat b (off + hd + w * i) w), true, [], 0⟩

def imgPlane (b : List Byte) (off : Nat) : SMap (BitVec 48) :=
  setAll 0 [] (planeFields.zipIdx.map fun (p : (Nat × Nat) × Nat) =>
    (p.1.1, BitVec.ofNat 48 (imgNat b (off + 8 * p.2 + 2) 6 % 2 ^ p.1.2)))

def imgHeap (b : List Byte) : SMap (List (Nat × Nat)) :=
  setAll [] [] ((List.range 16).map fun h =>
    (h, (List.range (min 64 (imgNat b (0x7F80 + h) 1))).map fun i =>
      (imgNat b (0x7FC0 + 512 * h + 8 * i) 4, imgNat b (0x7FC4 + 512 * h + 8 * i) 4)))

def imgSlot (b : List Byte) (off : Nat) : Slot :=
  ⟨imgNat b off 4, imgNat b (off + 4) 4, imgNat b (off + 8) 1 % 4,
    (List.range (min 16 (imgNat b (off + 9) 1))).map fun i => imgNat b (off + 16 + 4 * i) 4⟩

/-- A nest runs in the image. -/
def imgNest (b : List Byte) : Bool := imgNat b (0x7F40 + 24) 1 ≠ 0

/-- A held record of a save area, as core k places it; a marker of the matrix engine waits for the nest that
runs, and every marker has the generation of its Jn in the image (log entry 101). -/
def imgHeld (b : List Byte) (k id i : Nat) : Held :=
  let off := 0xB840 + 64 * i
  let w := fun n => imgWord b (off + 8 * n)
  let e := wfld (w 5) 0 3
  let kind := wfld (w 5) 6 2
  let ck := match kind with
    | 1 => CmdKind.reply ⟨img64 (w 7), true, [], 0⟩
    | 2 => CmdKind.marker ((w 7).toNat % 16) (imgNat b (0x1080 + 8 * ((w 7).toNat % 16) + 1) 1)
    | _ => CmdKind.go
  let w0 := if kind = 2 then (if e = 5 && imgNest b then 1 else 0) else w 0
  ⟨kind, ⟨ck, w0, w 1, w 2, w 3, w 4, e, wfld (w 5) 4 2, k, id + i, none, none, [], [], true, none⟩, w 6⟩

def imgMap (b : List Byte) (off : Nat) : VMap :=
  let a := AffMap.ofWords ((List.range 10).map fun i => imgNat b (off + 8 + 8 * i) 8)
  match imgNat b off 1 with
  | 0 => .affine a
  | 1 => .explicit (imgNat b (off + 1) 1 % 32) a
  | _ => .opaque (imgNat b (off + 4) 4)

/-- Control registers that a restore writes: those held as they stand, but for the core's own (R430). -/
def restored (n : Nat) : Bool :=
  n < 128 && n ≠ crCORE && n ≠ crCOHORT && n ≠ crDMEM && n ≠ crGDATA && n ≠ crSMPPOS && n ≠ crSMPST

/-- Bits that a restore writes: all but the reserved ones (R95), those that CWR does not write among them. -/
def restoreMask (n : Nat) : Nat :=
  if n = crTREC0 then 2 ^ 31 - 1 - 0x60
  else if n = crUISTAT then 2 ^ 64 - 1 - 2 ^ 54
  else if n = crENUSED || n = crFRAMECNT then 2 ^ 64 - 1
  else if n = crFRAMECFG then 0x1F0001
  else cregMask n

/-- The trap record stays that of a running handler, and a request that the save has answered is gone. -/
def trecRestored (v : Word) : Word := setFld (setFld v 29 1 1) 17 1 0

/-- The checks of R429. -/
def ctxOk (c : Core) (b : List Byte) : Bool :=
  let g := imgNat b 8 8
  let vb := imgNat b 32 8 % 1024
  let allot := imgNat b 16 8
  imgNat b 0 2 == 1 && fld g 22 31 == fld geom 22 31 && (vb = 0 || fld g 0 22 == fld geom 0 22)
    && fld allot 48 10 == wfld (c.creg crVALLOT) 0 10 && fld allot 32 16 == wfld (c.creg crBANKALLOT) 0 16

def restoreStream (x : StreamSt) (jnd : Bool) : StreamSt := { x with joined := x.started && jnd }

/-- The window of stream n (1 to 3) as an image holds it; one without it leaves the job's own. -/
def imgWindow (b : List Byte) (n : Nat) (x : StreamSt) : StreamSt :=
  let size := imgNat b (16 * n + 56) 8
  if size = 0 then x else { x with winBase := imgNat b (16 * n + 48) 8, winSize := size }

/-- The record in the image is that of a fault of M's word. -/
def imgFaultM (b : List Byte) : Bool :=
  let t := imgWord b (0x100 + 8 * crTREC0)
  wfld t 13 2 == 3 && wfld t 7 2 == 0 && wfld t 0 5 ≠ 0 && !t.getLsbD 18

/-- The core with everything but scratchpad and barriers restored (R430); commands take the numbers from id on. The
engines that the latest MARK of a Jn named have no room in a save area, and are lost (log entry 101); nor has M's
sequential PC where the record names a body word, and it is free (log entry 26). -/
def Core.restore (c : Core) (k : Nat) (b : List Byte) (l : Live) (freePc : Word) (id : Nat) : Core :=
  let jnd := fun (s : Nat) => (imgNat b 56 8).testBit (16 + s)
  let cr := (List.range 128).foldl (fun m n =>
    if restored n then
      let v := imgWord b (0x100 + 8 * n)
      let v := v &&& BitVec.ofNat 64 (restoreMask n)
      SMap.set 0 m n (if n = crTREC0 then trecRestored v else v)
    else m) c.cr
  let handler := c.regC.filter fun p => decide (48 ≤ p.1)
  let again := imgNest b && imgNat b (0x7F40 + 26) 1 ≠ 0
  let nest := if !imgNest b then none
    else some ((List.range 6).map fun i => imgNat b (0x7F40 + 4 * i) 4, if again then imgNat b (0x7F40 + 25) 1 else 0)
  let vo := 0xE000 + 960
  let mo := vo + 32 * 1088
  let ro := if l.banks.isEmpty then 0xE000 else mo + 96 * l.regs.length
  let ao := ro + 512 * l.regs.length
  let wo := ao + 16384 * l.acc.length
  let banks := if l.banks.isEmpty then [] else l.regs.zipIdx
  let vmap := setAll .dflt [] (banks.map fun p => (p.1, imgMap b (mo + 96 * p.2)))
  { c with
    cr := SMap.set 0 cr crXROOT (imgWord b 48 &&& BitVec.ofNat 64 (cregMask crXROOT)),
    regC := imgRegs b 0x500 0 48 ++ handler, trapBank := imgRegs b (0x500 + 384) 48 16,
    regA := imgRegs b 0x700 0 64, shadow := imgRegs b 0x900 56 8,
    staging := setAll 0 [] (imgStaging b 0x940 .c ++ imgStaging b (0x940 + 160) .a),
    replayC := imgReplay b 0xA80 .c (id + 128), replayA := imgReplay b (0xA80 + 704) .a (id + 192),
    cnt := setAll 0 [] ((List.range 63).map fun i => (i + 1, imgNat b (0x1000 + 2 * (i + 1)) 2)),
    cntClk := setAll [] [] ((List.range 63).filterMap fun i =>
      let n := imgNat b (0x1000 + 2 * (i + 1)) 2
      if n = 0 then none else some (i + 1, [(n, ([] : Clk))])),
    rdv := setAll .reset [] ((List.range 16).map fun i =>
      let v := imgNat b (0x1080 + 8 * i) 8
      (i, Rdv.mk (v % 2 == 1) (fld v 1 6) (fld v 8 8) [] 0)),
    genC := imgGen b 0x1100, genA := imgGen b 0x1130, genV := imgGen b 0x1160,
    phase := setAll 0 [] ((List.range 4).map fun i => (i, imgNat b (0x1300 + 4 * i) 4)),
    arrived := setAll false [] ((List.range 4).map fun i => (i, (imgNat b 0x1310 1).testBit i)),
    q := setAll [] [] ((List.range 16).map fun i => (i, imgQueue b i)),
    k := SMap.setRange 0 [] 0 ((List.range 256).map fun i => imgWord b (0x4C40 + 8 * i)),
    vw := SMap.setRange 0 [] 0 ((List.range 32).map fun i => BitVec.ofNat 1024 (imgNat b (0x5440 + 128 * i) 128)),
    plane := imgPlane b 0x6440, shadowPlane := imgPlane b (0x6440 + 3456),
    nest := nest, nestPc := if again && imgFaultM b then some freePc else none, nestNo := (imgNest b).toNat,
    heap := imgHeap b,
    bfmt := SMap.setRange 0 [] 0 ((List.range 16).map fun i => imgWord b (0x9FC0 + 8 * i) &&& 0x7F),
    smp := setAll .reset [] ((List.range 64).map fun i => (i, imgSlot b (0xA040 + 96 * i))),
    held := (List.range (min 96 (imgNat b 56 1 % 128))).map (imgHeld b k id), failing := none,
    p := if l.banks.isEmpty then [] else
      SMap.setRange 0 [] 1 ((List.range 15).map fun i => BitVec.ofNat 512 (imgNat b (0xE000 + 64 * i) 64)),
    vmap := vmap,
    slots := if l.banks.isEmpty then [] else setAll .zero [] (((List.range 32).filter (slotUsed vmap)).map fun i =>
      (i, ⟨BitVec.ofNat 8192 (imgNat b (vo + 1088 * i) 1024), BitVec.ofNat 512 (imgNat b (vo + 1088 * i + 1024) 64)⟩)),
    v := setAll 0 [] (banks.map fun p => (p.1, BitVec.ofNat 4096 (imgNat b (ro + 512 * p.2) 512))),
    cell := setAll 0 [] (l.acc.zipIdx.flatMap fun p => (List.range 2048).map fun j =>
      (2048 * p.1 + j, imgWord b (ao + 16384 * p.2 + 8 * j))),
    wbuf := setAll 0 [] (l.wbuf.zipIdx.flatMap fun p => (List.range 1024).map fun j =>
      (1024 * p.1 + j, BitVec.ofNat 512 (imgNat b (wo + 65536 * p.2 + 64 * j) 64))),
    rhist := [],
    sC := restoreStream c.sC (jnd 0),
    sA := { imgWindow b 1 (restoreStream c.sA (jnd 1)) with seqr := imgSeq b 0x11C0, fetched := [], fetchLeft := 0 },
    sV := { imgWindow b 2 (restoreStream c.sV (jnd 2)) with
      seqr := imgSeq b 0x1260, rpt := imgRpt b 0x1260, pc := imgWord b (0x100 + 8 * (crTPCC + 2)), fetched := [],
      fetchLeft := 0 },
    sM := { imgWindow b 3 (restoreStream c.sM (jnd 3)) with fetched := [], fetchLeft := 0 } }

/-- Scratchpad tiles: those of the image, and zero in every other granted bank (R430). -/
def State.restoreTiles (s : State) (k : Nat) (b : List Byte) (off : Nat) (l : Live) : State :=
  let banks := (s.core k).creg crBANKALLOT
  (List.range 64).foldl (fun s t =>
    if banks.getLsbD (t / 4) then
      let bytes := match l.tiles.findIdx? fun x => x == t with
        | some i => (b.drop (off + 65536 * i)).take 65536
        | none => List.replicate 65536 0
      s.poke (scratchPa k (0x10000 * t)) bytes
    else s) s

/-- A barrier record is applied through its address (R430). -/
def applyBarrier (a : Acc) (b : List Byte) (i : Nat) : Op Unit := do
  let off := 0xD040 + 16 * i
  let va := imgNat b off 8
  let pa ← bankTarget a .rmw va 16
  let o ← bankRead a va pa 16
  let arrived := wrap 48 ((barExpected o : Int) - imgNat b (off + 8) 6)
  eccCheckWrite a va pa 16
  modify fun s => s.poke pa (barBytes (barExpected o) (imgNat b (off + 14) 2) arrived)

/-- Storage words that a restore writes whole (R442). -/
def liveWrites (k : Nat) : Op Unit := do
  let c ← here
  (bitsOf 10 fun b => (c.creg crVALLOT).getLsbD b).forM fun b => arrayWrite 16 (4096 * b) 4096
  arrayWrite 17 0 32768
  arrayWrite 18 0 131072
  arrayWrite 19 0 256
  let a ← accHere
  (bitsOf 16 fun b => (c.creg crBANKALLOT).getLsbD b).forM fun b =>
    eccCheckWrite a (0x40000 * b) (scratchPa k (0x40000 * b)) 0x40000

def ctxloadOp (d areg : Nat) : Op Unit := do
  let x ← rdS areg
  ctxCheck x
  let a ← accHere
  let k ← coreId
  let hd ← readBytes a false x.toNat 256
  let c ← here
  guardFault (ctxOk c hd) fcCTXGEOM
  let l := c.live (imgNat hd 24 8) (imgNat hd 32 8)
  let b ← readBytes a false x.toNat l.size
  let s ← get
  let freePc := Config.freeWord s.draws
  set { s with draws := s.draws + 1, cmdId := s.cmdId + 256 }
  liveWrites k
  modHere fun c => c.restore k b l freePc (s.cmdId + 1)
  modify fun s => s.restoreTiles k b (l.size - 65536 * l.tiles.length) l
  let a ← accHere
  (List.range (min 64 (imgNat hd 57 1 % 128))).forM (applyBarrier a b)
  drainOwn allPaths
  wrS d (BitVec.ofNat 64 (imgNat hd 40 8))

def execCtxload (h : Hdr) (d a : Nat) (s : State) : Res := runOp (.ctxload h d a) h (ctxloadOp d a) s

end Sys2Proof.Machine
end

