-- ==== Sys2Proof/Machine/Cohort.lean ====
section
/-! DEFINITION. How core jobs and nodes end (R83, R297, R424, R439, R462): a job's end, a node's completion with what
follows from it, the retirement and the abandonment of a cohort, and the end of a graph. -/

namespace Sys2Proof.Machine

/-! Time in the dispatcher's cycles (R296). -/

/-- The deadline, counted from the launch; none for 0. -/
def Node.deadlineCycles (n : Node) : Option Nat :=
  if n.deadline = 0 then none
  else some (if n.du then n.deadline * 17 / 10 else n.deadline * 2 ^ n.f)

/-- The deadline in time since reset. -/
def Graph.absDeadline (g : Graph) (n : Node) : Option Nat := n.deadlineCycles.map (g.launchAt + ·)

def Node.spanCycles (n : Node) : Nat := (n.span * 17 + 9) / 10

/-! The end of a core job (R83). -/

/-- The near engines that the core occupies are free. -/
def State.leaveNear (s : State) (k : Nat) : State :=
  (List.range 4).foldl (fun s x =>
    [2, 3].foldl (fun s e => if ((s.near e x).runOf k).isSome then s.freeNear e x else s) s) s

/-- Nothing of the core waits for a boundary any more. -/
def State.dropHeld (s : State) (k : Nat) : State :=
  { s with heldAtomics := s.heldAtomics.filter fun h => h.core ≠ k,
           heldAllocs := s.heldAllocs.filter fun h => h.stream / 4 ≠ k }

/-- A core's job ends: its flags and its energy go to the node, and the core is free. -/
def State.endCore (s : State) (k : Nat) : State :=
  let c := s.core k
  let fl : BitVec 7 := (c.creg crFPFLAGS ||| c.creg crVFLAGS ||| c.creg crMFLAGS).setWidth 7
  let s := s.modNode c.slot c.node fun n =>
    { n with ended := n.ended ++ [wfld (c.creg crCOHORT) 0 10], flags := n.flags ||| fl,
             used := n.used + (c.creg crENUSED).toNat }
  let s := ((s.returnAreas [(c.creg crCTXADDR, c.areaSize)]).leaveNear k).dropHeld k
  s.dropJob k

/-- Nothing that the core has sent to its coupled core can still land there (R76, R148): a signal always can, mail while
the partner's queue has space. -/
def State.sent (s : State) (k : Nat) : Bool :=
  let c := s.core k
  c.flight.isEmpty &&
  match s.mate k with
  | .there j => (c.queue 14).isEmpty || !(s.core j).qHasSpace 13
  | .early _ => (c.queue 14).isEmpty
  | .gone => true

/-- Every started stream has retired its JOIN, and every command of the job has retired. -/
def State.jobDone (s : State) (k : Nat) : Bool :=
  let c := s.core k
  [Stream.c, .a, .v, .m].all (fun st => !(c.stream st).started || (c.stream st).joined)
    && (List.range 6).all (fun e => (c.equeue e).isEmpty && (s.started k e).isNone)
    && !c.act && c.pend.isNone && c.nest.isNone && !s.buffered k && s.sent k

/-- A halted core's started commands have run to completion (R87). -/
def State.haltDone (s : State) (k : Nat) : Bool :=
  (List.range 5).all (fun e => (s.started k e).isNone)
    && !s.buffered k

/-! The end of a node (R297). -/

/-- Every write of the node's executor is performed for every path, whether or not it was released (R297, R336), and the
dispatcher learns what its cores know. -/
def State.performNode (s : State) (n : Node) : State :=
  let cores := n.cores.filter (· < 512)
  let s := s.mapWrites fun e => if cores.contains e.core then { e with perf := allPaths, obj := none } else e
  cores.foldl (fun s k => (List.range 4).foldl (fun s i => s.learn dispAgent (s.token (4 * k + i))) s) s

/-- The edges of a completed node: a successor that has no open predecessor left is ready. -/
def State.releaseSuccessors (s : State) (slot : Nat) (succ : List Nat) : State :=
  succ.foldl (fun s j =>
    match s.nodeOf slot j with
    | some n =>
      if n.npred = 1 && n.st == .waiting then
        (s.modNode slot j fun n => { n with npred := 0, st := .ready, readyAt := s.now }).writeNode slot j
      else s.modNode slot j fun n => { n with npred := n.npred - 1 }
    | none => s) s

/-- The graph fails by a node. -/
def State.failGraph (s : State) (slot i : Nat) : State :=
  s.modGraph slot fun g => if g.failed then g else { g with failed := true, fnode := i }

/-- A node ends in a state: its writes are performed, its status is written, and its successors or its graph follow. -/
def State.finishNode (s : State) (slot i : Nat) (st : NodeSt) : State :=
  match s.graph slot, s.nodeOf slot i with
  | some g, some n =>
    let late := n.late || (match g.absDeadline n with | some d => decide (d < s.now) | none => false)
    let s := ((s.performNode n).creditNode n).returnAreas (n.yielded.map fun p => p.2.1)
    let s := s.modNode slot i fun n =>
      { n with st := st, late := late, cores := [], ended := [], yielded := [], cmds := [], charged := none }
    let s := if st == .complete then s else s.failGraph slot i
    let s := s.writeNode slot i
    let failed := match s.graph slot with | some g => g.failed | none => false
    (if failed then s else s.releaseSuccessors slot n.succ).afterStatus slot
  | _, _ => s

/-- A pre-empted node goes back to the pool (R301): what its cores wrote is performed. -/
def State.takeBack (s : State) (slot i : Nat) : State :=
  match s.nodeOf slot i with
  | some n =>
    let s := s.performNode n
    let s := s.modNode slot i fun n => { n with st := .preempted, cores := [] }
    (s.writeNode slot i).afterStatus slot
  | none => s

/-- The executor of a node has ended, or its cohort has yielded. -/
def Node.over (n : Node) : Bool :=
  if n.kind = 0 then
    !n.cores.isEmpty && (List.range n.csize).all fun i => n.ended.contains i || n.yielded.any fun p => p.1 == i
  else !n.ended.isEmpty

def State.completeNode (s : State) (slot i : Nat) : State :=
  match s.nodeOf slot i with
  | some n =>
    if !n.over then s
    else match n.st with
      | .halted => s.finishNode slot i .halted
      | .running =>
        if n.fault ≠ 0 then s.finishNode slot i .faulted
        else if n.yielded.isEmpty then s.finishNode slot i .complete
        else s.takeBack slot i
      | _ => s
  | none => s

def execNodeCompletion (slot node : Nat) (s : State) : Res := .next (s.completeNode slot node)

/-! Cohorts that end as a whole. -/

/-- Every job of the node's cohort is stopped without a handler and ends. -/
def State.stopCohort (s : State) (slot i : Nat) : State :=
  match s.nodeOf slot i with
  | some n => n.cores.foldl (fun s k =>
      let c := s.core k
      if c.st == .idle || c.slot ≠ slot || c.node ≠ i then s else (s.quiesce k none true).endCore k) s
  | none => s

/-- The cohort of a core in the halted-fault state is retired: the node's status is written with its fault, and then the host
is told (R424). -/
def State.retireCohort (s : State) (k : Nat) : State :=
  let c := s.core k
  let s := s.stopCohort c.slot c.node
  let s := s.modNode c.slot c.node fun n => { n with fault := fcDBLFAULT, st := .running }
  (s.completeNode c.slot c.node).interrupt 64

/-- A cohort that a thermal stop finds without save areas is abandoned (R462). -/
def State.abandonCohort (s : State) (slot i : Nat) : State :=
  let s := s.stopCohort slot i
  let s := s.modNode slot i fun n => { n with therm := true }
  s.finishNode slot i .abandoned

/-- All that the allotments let a stop at the horizon save (R425). -/
def Live.full (vallot banks : Nat) : Live :=
  { banks := bitsOf 10 vallot.testBit, acc := List.range 16, wbuf := List.range 16,
    tiles := bitsOf 64 fun t => banks.testBit (t / 4) }

/-- The core has a save area of the size that a stop may need (R415). -/
def Core.hasArea (c : Core) : Bool :=
  c.creg crCTXADDR ≠ 0 && (Live.full (c.creg crVALLOT).toNat (c.creg crBANKALLOT).toNat).size ≤ c.areaSize

/-- Every live core of the cohort has a save area (R415). -/
def State.savable (s : State) (slot i : Nat) : Bool :=
  match s.nodeOf slot i with
  | some n => n.cores.all fun k =>
      let c := s.core k
      c.st == .idle || c.slot ≠ slot || c.node ≠ i || c.hasArea
  | none => false

/-- The job of the core ends, or the dispatcher retires its cohort. -/
def State.jobEnd (s : State) (k : Nat) : State :=
  match (s.core k).st with
  | .running => if s.jobDone k then s.endCore k else s
  | .halting => if s.haltDone k then s.endCore k else s
  | .dead => s.retireCohort k
  | _ => s

def execCoreJobEnd (core : Nat) (s : State) : Res := .next (s.jobEnd core)

/-! The end of a graph (R297). -/

/-- A node that is done with. -/
def Node.terminal (n : Node) : Bool :=
  match n.st with
  | .complete | .faulted | .abandoned => true
  | .halted => n.cores.isEmpty
  | _ => false

/-- The release of `done` in the ALU of its bank. -/
def doneOp (g : Graph) : Op Unit := do
  let a := g.acc
  let va := g.doneVa.toNat
  let pa ← bankTarget a .rmw va 16
  let o ← bankRead a va pa 16
  bankWrite a va pa (syncBytes ((leNat (o.take 8) + 1) % 2 ^ 64) 0xFFFF 0xFF)
  modify fun s => (s.release 512 dispAgent pa).performOwn dispAgent allPaths

/-- The release, passed over where it faults. -/
def State.releaseDone (s : State) (g : Graph) : State × Bool :=
  if g.doneVa = 0 then (s, true)
  else match (doneOp g).run s with
    | .ok (_, s') => (s', true)
    | .error e => (s.noteStop e, false)

def State.endGraph (s : State) (slot : Nat) : State :=
  match s.graph slot with
  | none => s
  | some g =>
    if !(g.nodes.all Node.terminal) then s
    else
      let (s, ok1) := s.writeGraph g 0 (if g.failed then 2 else 1)
      let (s, ok2) := s.releaseDone g
      let s := if g.hirq || g.report || !ok1 || !ok2 then s.interrupt slot else s
      { s with graphs := s.graphs.filter fun p => p.1 ≠ slot }

def execGraphEnd (slot : Nat) (s : State) : Res := .next (s.endGraph slot)

end Sys2Proof.Machine
end

