-- ==== Sys2Proof/Machine/Fetch.lean ====
section
/-! DEFINITION. Fetch and the front of decoding (R32, R93, R117, R125 to R127): from a stream's PC to the word it
executes next. -/

namespace Sys2Proof.Machine

/-- A word of C: its address is translated for every fetch, and one that is no translated address is PROT (R117, log entry
24); it reads as it was when the job first fetched it (R93). -/
def fetchC (va : Nat) : Op Nat := do
  let a ← accHere
  let pa ← if va < 0x410000 then accFault a fcPROT va else translate a .fetch va
  let c ← here
  match c.icache.find? fun p => p.1 == va with
  | some p => return p.2
  | none => do
    let w ← if tierOf pa == some .ctl then do let s ← get; pure (s.ctlRead (pa / 8 * 8))
      else do
        eccCheckRead a va pa 8
        let s ← get
        let obj := s.boundTo a va
        let a := { a with writer := none }
        let b ← if obj.isSome then readUnit a obj pa 8 else readCode a a.bars pa
        pure (leNat b)
    modHere fun c => { c with icache := c.icache ++ [(va, w)] }
    return w

/-- A word of a window as a fetch may take it (R126, R127); PROT in a bank that BANKALLOT withholds (R219). -/
def fetchMem (va : Nat) : Op Nat := do
  let k ← coreId
  let a ← accHere
  let x ← thisStream
  let pa := scratchPa k va
  let s ← get
  if !bankOk s a pa then accFault a fcPROT va
  else
    eccCheckRead a va pa 8
    let b ← readCode a (windowBars x s.curStream) pa
    return leNat b

/-- A word for the fetch buffer; none where its storage cannot be used, which stops the stream only where it executes it
(R126). -/
def bufferWord (va : Nat) : Op (Option (Nat × Nat)) := do
  let k ← coreId
  let a ← accHere
  let x ← thisStream
  let s ← get
  let pa := scratchPa k va
  match s.eccScan pa 8 (some k) with
  | (s', none) => do
    set s'
    let b ← readCode a (windowBars x s.curStream) pa
    return some (va, leNat b)
  | (_, some key) => do
    set (s.eccRead key (some k)).1
    return none

/-- Fill the fetch buffer with the words of 16 from an address, round the window, whose bank is granted (R127, R219). -/
def refill (pc : Word) : Op Unit := do
  let k ← coreId
  let a ← accHere
  let x ← thisStream
  let s ← get
  let vas := ((List.range 16).map fun (i : Nat) => (x.plus pc (8 * i)).toNat).filter fun va => bankOk s a (scratchPa k va)
  let l ← vas.filterMapM bufferWord
  modStream fun x => { x with fetched := l, fetchLeft := 15 }

/-- A word of A, V or M through the fetch buffer (R127): where the buffer holds another word than memory gives, either. -/
def fetchBuffer (pc : Word) : Op Nat := do
  let w ← fetchMem pc.toNat
  let x ← thisStream
  match x.fetched.find? fun p => p.1 == pc.toNat with
  | some p =>
    if x.fetchLeft = 0 then do
      refill pc
      return w
    else
      modStream fun x => { x with fetchLeft := x.fetchLeft - 1 }
      if p.2 = w then return w
      else
        let d ← draw 2
        return if d = 0 then w else p.2
  | none => do
    refill pc
    return w

/-- A word of A, V or M: it is fetched once, and stays what it is until the stream leaves it, with its literal and the words of
an RPT. -/
def fetchWindow (pc : Word) : Op Nat := do
  let x ← thisStream
  match x.code.find? fun p => p.1 == pc.toNat with
  | some p => return p.2
  | none => do
    let w ← fetchBuffer pc
    modStream fun x => { x with code := x.code ++ [(pc.toNat, w)] }
    return w

def fetchWord (pc : Word) : Op Nat := do
  let st ← streamOf
  match st with
  | .c => fetchC pc.toNat
  | _ => fetchWindow pc

/-- Decode the word at an address of the executing stream: steps 1 to 7 of R32, with the fetch of its literal. -/
def decodeAt (pc : Word) : Op Instr := do
  let st ← streamOf
  let c ← here
  let w ← fetchWord pc
  match decodeFirst st w with
  -- the trap record holds the literal word's address
  | .error .litx => faultAt fcLITX pc 0
  | .error _ => if st = .c && privOp (opOf w) && !c.sup then fault fcPRIV else fault fcILLOP
  | .ok i =>
    preCheck i (hdrOf w)
    match i.litKind with
    | none => return i
    | some _ =>
      let x ← thisStream
      let next ← fetchWord (x.plus pc 8)
      match takeLit i next with
      | .ok i => return i
      | .error _ => fault fcLITM

/-- Field f strided for repetition r (R171); codes that name no register stay. -/
def strided (s r f : Nat) : Nat :=
  if f < 640 then (sx 5 s * r + f).toNat else f

/-- The fields of an RPT's target stay in the allotted banks of a mask for every repetition (R171). -/
def rptInRange (vallot : Nat) (i : Instr) (n sd sa sb : Nat) : Bool :=
  let (d, a, b) := vecOf i
  let top : Int := match i with | .vaddi .. | .vmuli .. | .vfmai .. => 511 | _ => 639
  let ok := fun (f : Option Nat) (s : Nat) =>
    match f with
    | none => true
    | some f => f ≥ 640 || (List.range n).all fun r =>
        let x : Int := sx 5 s * r + f
        0 ≤ x && x ≤ top && vallot.testBit (x.toNat / 64)
  ok d sd && ok a sa && ok b sb

/-- A V word that RPT repeats (R171). -/
def rptRepeats : Instr → Bool
  | .rpt .. | .lsetLoop .. | .lsetView .. | .nop _ | .hint .. | .join _ | .signal .. | .fence _ _ => false
  | _ => true

/-- The target of a running RPT, as the next repetition executes it. -/
def decodeRpt (pc : Word) (done : Nat) : Op Instr := do
  let x ← thisStream
  let r ← fetchWord pc
  match decodeFirst .v r with
  | .ok (.rpt _ n sd sa sb) =>
    modStream fun x => { x with rpt := some (done, n) }
    let i ← decodeAt (x.plus pc 8)
    let c ← here
    let vallot ← rdWeak crVALLOT (c.creg crVALLOT).toNat
    let h := i.hdr.getD ⟨0, 0, .always⟩
    if !rptRepeats i then fault fcILLOP
    else if done = 0 && !x.issued && !c.skipped .v h && !rptInRange vallot i n sd sa sb then fault fcREGALLOT
    else return mapVec (strided sd done) (strided sa done) (strided sb done) i
  | _ => fault fcILLOP

/-- The word that the executing stream is to execute. -/
def frontEnd : Op Instr := do
  let st ← streamOf
  let c ← here
  let x := c.stream st
  match st, c.nest, x.rpt with
  | .m, some (_, w), _ =>
    let i ← decodeAt (c.nestAddr w)
    match i with
    -- a nest cannot end its stream (R263)
    | .join _ => faultAt fcLITX (c.nestAddr w) 0
    | i => return i
  | .v, _, some (done, _) => decodeRpt x.pc done
  | _, _, _ => decodeAt x.pc

/-- A stream's turn: the word to execute and the state it executes in, or the state that the turn ends in. -/
def State.issueSlot (s : State) (k : Nat) (st : Stream) : State ⊕ Instr × State :=
  let s := { s with curCore := k, curStream := st }
  if s.stopDue k then .inl (s.takePending k)
  else if !s.mayIssue k st then .inl s
  else if st = .c && s.uiReady k && (s.core k).betweenWords then .inl (s.uiEntry k)
  else match frontEnd.run s with
    | .ok (i, s') => .inr (i, s')
    | .error (.fault f) => .inl (s.takeFault k f false)
    | .error _ => .inl s

/-! Time. -/

/-- Cycles left in the core's frame; none outside frame mode (R306, R308). -/
def Core.frameLeft (c : Core) : Option Nat :=
  if c.frame && (c.st == .running || c.st == .halting) then some (2 ^ wfld (c.creg crFRAMECFG) 16 5 - 1 - (c.frameNow).2) else none

/-- Cycles until a stamped word of a stream that may issue does (R317). -/
def State.stampLeft (s : State) (k : Nat) : Option Nat :=
  let c := s.core k
  let one := fun (st : Stream) => match (c.stream st).stamp with
    | some (f, y) =>
      if (c.stream st).issued && s.mayIssue k st && f = (c.frameNow).1 && (c.frameNow).2 ≤ y then some (y - (c.frameNow).2)
      else none
    | none => none
  match one .c, one .a with
  | some a, some b => some (min a b)
  | some a, none => some a
  | none, b => b

/-- Frequency in units of 0.1 GHz at a clock step (R440). -/
def stepFreq (n : Nat) : Nat :=
  match n with
  | 1 => 15 | 2 => 13 | 3 => 11 | 4 => 9 | _ => 17

/-- Cycles of the core's islands in n of the 1.7 GHz clock, with the part of one that is left over, in seventeenths (R3,
R440); a frame-mode core runs at 1.7 GHz. -/
def Core.cycles (c : Core) (n : Nat) : Nat × Nat :=
  if c.frame then (n, 0) else ((n * stepFreq c.step + c.cycRem) / 17, (n * stepFreq c.step + c.cycRem) % 17)

/-- n cycles of the 1.7 GHz clock pass at a core: FRAMECNT counts up to the end of its frame, and the counts of a
pre-emption request and of a deferred fault run down in the core's cycles (R308, R379, R425). -/
def Core.pass (c : Core) (held : Bool) (n : Nat) : Core :=
  let c := match c.frameLeft with
    | some l => if held || c.act then c else
        c.setCreg crFRAMECNT (setFld (c.creg crFRAMECNT) 0 16 ((c.frameNow).2 + min n l))
    | none => c
  let (m, r) := c.cycles n
  let c := { c with cycRem := r, pend := c.pend.map fun p => { p with left := p.left.map fun l => l - m } }
  -- a request that arrived in the handler counts from ERET (R423)
  if c.act && c.horizonHeld then c else { c with horizon := c.horizon.map fun h => h - m }

/-- n cycles pass; no core passes a cycle in which a stamped word issues. -/
def State.tick (s : State) (n : Nat) : State :=
  let n := s.cores.foldl (fun n p => match s.stampLeft p.1 with | some l => min n l | none => n) n
  { s with now := s.now + n, poolAge := s.poolAge + n,
           fabNode := s.fabNode.map fun x => { x with quiet := x.quiet + n },
           peers := s.peers.map fun p => (p.1, { p.2 with
             quiet := if p.2.unacked.isEmpty then 0 else p.2.quiet + n,
             stalled := if p.2.unacked.isEmpty then 0 else p.2.stalled + n }),
           cores := s.cores.map fun p => (p.1, p.2.pass (s.cohortHeld p.1) n) }

/-! Prefetches (R376). -/

/-- The start of a range and of the page behind its first. -/
def pagesAhead (writes : Bool) (va len : Nat) : List (Bool × Nat) :=
  if len = 0 then []
  else (writes, va) :: if (va / 4096 + 1) * 4096 < va + len then [(writes, (va / 4096 + 1) * 4096)] else []

/-- The word that a stream of a window has fetched and not left. -/
def StreamSt.wordNow (x : StreamSt) (st : Stream) : Option Instr :=
  let pc := if x.rpt.isSome then x.plus x.pc 8 else x.pc
  (x.code.find? fun p => p.1 == pc.toNat).bind fun p => (decodeFirst st p.2).toOption

/-- What V's view access in progress reaches. -/
def State.viewPages (s : State) (k : Nat) : List (Bool × Nat) :=
  let x := (s.core k).sV
  let pages := fun (writes : Bool) (t : Ty) (vw o : Nat) =>
    match (rdViewV vw).run { s with curCore := k, curStream := .v } with
    | .ok (v, _) => (List.range t.count).filterMap fun e => (v.addr (sx 13 o) e).map fun va => (writes, va)
    | .error _ => []
  if !x.issued then []
  else match x.wordNow .v with
    | some (.vld _ _ t _ _ _ vw o) => pages false t vw o
    | some (.vst _ _ t _ _ _ vw o) => pages true t vw o
    | _ => []

/-- What a started copy or index command reaches next: of a copy the rest of its row and the next row, of an index command its
index list. -/
def Run.pagesAhead (r : Run) : List (Bool × Nat) :=
  let m := r.cmd
  if m.eng = 0 then
    let p := CopyPlan.ofList r.acc
    let rb := p.rowBytes m
    if rb = 0 then []
    else
      let row := r.landed / rb
      let off := r.landed % rb
      let src := fun (row off : Nat) => if m.copyKind = 2 then [] else
        Machine.pagesAhead false (m.srcRow row + off / p.ud * p.us) (m.rowLen - off / p.ud * p.us)
      let rows := fun (row off : Nat) => if row < m.rows then Machine.pagesAhead true (m.dstRow row + off) (rb - off) ++ src row off else []
      rows row off ++ rows (row + 1) 0
  else if m.eng = 1 then Machine.pagesAhead false (m.w2.toNat + 4 * r.pos) (4 * (m.idxN - r.pos))
  else []

/-- The accessor whose TLB n of core k may walk ahead, and the pages that it reaches next, with whether it writes there: a view
access of V that waits, what M's MDRAIN has still to store, and a started copy or index command (R376). -/
def State.prefetcher (s : State) (k n : Nat) : Option (Acc × List (Bool × Nat)) :=
  let c := s.core k
  if c.st ≠ .running && c.st ≠ .halting then none
  else match n with
    | 2 => some (c.acc k .v, s.viewPages k)
    | 3 => c.drain.map fun d => (c.acc k .m, d.rest.map fun p => (true, p.1))
    | 4 | 5 => (c.runOf (n - 4)).map fun r => (c.accCmd r.cmd, r.pagesAhead)
    | _ => none

/-- TLB n of core k walks for the page at va, for a write where `kind` is not 0: a page that the command or view access under
way reaches next. -/
def State.prefetch (s : State) (k n kind va : Nat) : State :=
  match s.prefetcher k n with
  | some (a, l) =>
    if l.any fun p => p.1 == (kind ≠ 0) && p.2 / 4096 == va / 4096 then s.walkAhead a (if kind = 0 then .read else .write) va
    else s
  | none => s

/-! Who moves (log entry 3). -/

/-- The turns that a running core may take. -/
def coreTurns (k : Nat) (c : Core) : List Turn :=
  if c.st == .idle then []
  else if c.st == .placed then [.event (.coreJobStart k)]
  else
    [Stream.c, .a, .v, .m].map (Turn.stream k) ++
    [.event (.copyLin k 16), .event (.copyRect k 16), .event (.copyFill k 16), .event (.indexGat k 16),
     .event (.indexSct k 16), .event (.samplerTmp k), .event (.samplerProb k), .event (.samplerRes k),
     .event (.coupledSignalArrival k), .event (.mailboxTransfer k), .event (.coreStop k), .event (.preemptHorizon k),
     .event (.virgaIterationDispatch k), .event (.virgaRoundCommit k), .event (.htreeUpdate k),
     .event (.enusedUpdate k), .event (.coreJobEnd k)]
    ++ (List.range 5).map (fun e => .event (.engineReplyPush k e))
    ++ (List.range 6).map (fun e => .event (.markerRetire k e))
    ++ [.event (.ldqDataArrival k 0), .event (.ldqDataArrival k 1)]

/-- The turns of the running fabric node. -/
def FabNode.turns (n : FabNode) : List Turn :=
  [.event (match n.op with | 0 => .fabricPut n.slot n.node | 1 => .fabricGet n.slot n.node | _ => .fabricRadd n.slot n.node),
   .event (.fabricFailureTimeout n.peer)]

/-- The turns of the package when the agenda is empty: what its own parts do. What comes from the host, a peer, the
board or an error is an event that the agenda names. -/
def State.turns (s : State) : List Turn :=
  s.cores.flatMap (fun p => coreTurns p.1 p.2)
    ++ (if s.cores.isEmpty && s.graphs.isEmpty then [] else (List.range 4).flatMap fun x =>
      [.event (.selPred x 16), .event (.selTopk x 16), .event (.selHist x 16), .event (.selFilt x 16)])
    ++ (if s.cores.isEmpty && s.graphs.isEmpty then [] else (List.range 4).map fun x => .event (.reduceCommand x 16))
    ++ (if s.graphs.isEmpty then [] else [.event .dispatchDecision])
    ++ s.graphs.flatMap (fun g =>
      (List.range g.2.nodes.length).flatMap (fun n =>
        [.event (.nodeCompletion g.1 n), .event (.quantumBoundary g.1 n)])
      ++ [.event (.graphEnd g.1)])
    ++ (match s.fabNode with | some n => n.turns | none => [])
    ++ s.peers.flatMap (fun p => if p.2.unacked.isEmpty then [] else
      [.event (.fabricRetransmitTimeout p.1), .event (.fabricFailureTimeout p.1)])
    ++ s.launch.flatMap (fun p => if p.2.busy then [.event (.launchDecision p.1)] else [])
    ++ if s.cores.isEmpty && s.graphs.isEmpty && s.peers.isEmpty then [] else 
      [.event .poolInterval, .event (if s.thermStop then .thermalStopEnd else .thermalStopBegin), .tick 1]

/-- The next turn: the head of the agenda, else the default order's. -/
def State.nextTurn (s : State) : Option Turn × State :=
  match s.agenda with
  | t :: l => (some t, { s with agenda := l })
  | [] =>
    let ts := s.turns
    if ts.isEmpty then (none, s)
    else (ts[s.rr % ts.length]?, { s with rr := s.rr + 1 })

end Sys2Proof.Machine
end

