-- ==== Sys2Proof/Machine/Sha3.lean ====
section
/-! DEFINITION. SHA3-256 (FIPS 202), which R318 and R451 name. The state is five planes, plane y a list of the lanes
x = 0 to 4; the constants of the rounds are formed as the standard forms them. -/

namespace Sys2Proof.Machine

abbrev ShaPlane := List Word

/-- The lanes x + n of a plane at the places x, round the plane. -/
def laneTurn (p : ShaPlane) (n : Nat) : ShaPlane := p.drop n ++ p.take n

def laneXor (p q : ShaPlane) : ShaPlane := List.zipWith (· ^^^ ·) p q

/-- Step theta: every lane takes the parities of the columns beside it. -/
def shaTheta (a : List ShaPlane) : List ShaPlane :=
  let parity := a.foldl laneXor (List.replicate 5 0)
  let near := List.zipWith (fun l r => l ^^^ r.rotateLeft 1) (laneTurn parity 4) (laneTurn parity 1)
  a.map (laneXor near)

/-- The 24 lanes off the origin in the order of step rho, as (x, y). -/
def rhoPath : Nat → Nat × Nat → List (Nat × Nat)
  | 0, _ => []
  | n + 1, (x, y) => (x, y) :: rhoPath n (y, (2 * x + 3 * y) % 5)

/-- How far step rho turns lane (x, y): the t-th of its path by the t-th triangular number. -/
def rhoTurn (x y : Nat) : Nat :=
  match (rhoPath 24 (1, 0)).findIdx? (· == (x, y)) with
  | some t => (t + 1) * (t + 2) / 2 % 64
  | none => 0

/-- Steps rho and pi: lane (x + 3y, x) turned stands at (x, y). -/
def shaRhoPi (a : List ShaPlane) : List ShaPlane :=
  (List.range 5).map fun y => (List.range 5).map fun x =>
    let from_ := (x + 3 * y) % 5
    ((a.getD x []).getD from_ 0).rotateLeft (rhoTurn from_ x)

/-- Step chi. -/
def shaChi (a : List ShaPlane) : List ShaPlane :=
  a.map fun p => laneXor p (List.zipWith (fun l r => ~~~l &&& r) (laneTurn p 1) (laneTurn p 2))

/-- One step of the shift register that gives the rounds' constants. -/
def lfsrStep (r : Nat) : Nat := if r < 128 then 2 * r else (2 * r) ^^^ 0x171

/-- The register after n steps from 1. -/
def lfsr : Nat → Nat
  | 0 => 1
  | n + 1 => lfsrStep (lfsr n)

/-- The constant of round i: bits 2^j - 1 from the register after j + 7i steps. -/
def iotaWord (i : Nat) : Word :=
  BitVec.ofNat 64 (((List.range 7).map fun j => lfsr (j + 7 * i) % 2 * 2 ^ (2 ^ j - 1)).sum)

/-- Step iota. -/
def shaIota (i : Nat) : List ShaPlane → List ShaPlane
  | (l :: ls) :: ps => ((l ^^^ iotaWord i) :: ls) :: ps
  | a => a

/-- The permutation: 24 rounds. -/
def shaRounds (a : List ShaPlane) : List ShaPlane :=
  (List.range 24).foldl (fun a i => shaIota i (shaChi (shaRhoPi (shaTheta a)))) a

/-- Eight bytes as a lane, low byte first. -/
def laneOf (l : List Byte) : Word := l.foldr (fun b w => w.shiftLeft 8 ||| b.setWidth 64) 0

/-- A block of 136 bytes enters the state. -/
def shaBlock (a : List ShaPlane) (b : List Byte) : List ShaPlane :=
  let lanes := (List.range 25).map fun i => laneOf ((b.drop (8 * i)).take 8)
  shaRounds ((List.range 5).map fun y => laneXor (a.getD y []) ((lanes.drop (5 * y)).take 5))

/-- The message's end with its padding: the bits 01, then 1, zeros and 1 up to the block's end. -/
def shaPad (l : List Byte) : List Byte :=
  if l.length = 135 then l ++ [0x86] else l ++ 0x06 :: List.replicate (134 - l.length) 0 ++ [0x80]

/-- The message in blocks; n bounds their number. -/
def shaAbsorb : Nat → List ShaPlane → List Byte → List ShaPlane
  | 0, a, _ => a
  | n + 1, a, l =>
    if l.length < 136 then shaBlock a (shaPad l) else shaAbsorb n (shaBlock a (l.take 136)) (l.drop 136)

/-- SHA3-256: 32 bytes. -/
def sha3_256 (l : List Byte) : List Byte :=
  let a := shaAbsorb (l.length / 136 + 1) (List.replicate 5 (List.replicate 5 0)) l
  ((a.getD 0 []).take 4).flatMap fun w => (List.range 8).map fun i => w.extractLsb' (8 * i) 8

end Sys2Proof.Machine
end

