-- ==== Sys2Proof/Machine/Htree.lean ====
section
/-! DEFINITION. HTREE (R318): the descriptor, the snapshot at a quantum boundary, and the update that writes the tree. -/

namespace Sys2Proof.Machine

/-- Node counts of the levels over n leaves, level 0 first. -/
def treeSizes : Nat → Nat → List Nat
  | 0, n => [n]
  | fuel + 1, n => if n ≤ 1 then [n] else n :: treeSizes fuel ((n + 1) / 2)

/-- Bytes of the tree area. -/
def areaBytes (pages : Nat) : Nat := 64 + 32 * (treeSizes 20 pages).sum

/-- The next level: pairs hashed, a node with no partner unchanged. -/
def treeUp : List (List Byte) → List (List Byte)
  | a :: b :: l => sha3_256 (a ++ b) :: treeUp l
  | l => l

/-- All levels from the leaves up, one after the other. -/
def treeNodes : Nat → List (List Byte) → List (List Byte)
  | 0, l => l
  | fuel + 1, l => if l.length ≤ 1 then l else l ++ treeNodes fuel (treeUp l)

/-- Virtual addresses of the 4 KiB pages that [va, va + len) touches. -/
def pagesOf (va len : Nat) : List Nat :=
  (List.range ((va % 4096 + len + 4095) / 4096)).map fun i => va / 4096 * 4096 + 4096 * i

def htreeStartOp (areg : Nat) : Op Unit := do
  let c ← here
  let x ← rdS areg
  guardAddr (x.toNat % 8 = 0) fcALIGN x.toNat
  guardFault c.frame fcENGCMD
  let a ← accHere
  let ws ← readWords a x.toNat 4
  let pages := ws.getD 1 0 % 2 ^ 20 + 1
  let n := ws.getD 2 0 % 65536
  guardFault (n ≠ 0 && pages * 640 + 10000 ≤ 2 ^ wfld (c.creg crFRAMECFG) 16 5) fcENGCMD
  -- the tree that is active is replaced after its current update
  match c.htree with
  | some t => guardBlock t.pending.isNone
  | none => pure ()
  let region := ws.getD 0 0 / 4096 * 4096
  let area := ws.getD 3 0 / 64 * 64
  let rx ← (pagesOf region (4096 * pages)).mapM (translate a .read)
  let ax ← (pagesOf area (areaBytes pages)).mapM (translate a .write)
  writeBytes a false area (List.replicate 64 0)
  modHere fun c => { c with htree := some ⟨region, pages, n, area, 0, none, rx ++ ax, false⟩ }

def execHtreeStart (h : Hdr) (a : Nat) (s : State) : Res := runOp (.htreeStart h a) h (htreeStartOp a) s

/-- Updates end after the one in progress; the epoch stays readable. -/
def execHtreeStop (h : Hdr) (s : State) : Res :=
  runOp (.htreeStop h) h (modHere fun c => { c with htree := c.htree.map fun t => { t with stopping := true } }) s

/-- `wait`: without a tree the epoch is 0. -/
def htreeWaitOp (d b : Nat) : Op Unit := do
  let u ← rdS b
  let c ← here
  let e := (c.htree.map HTree.epoch).getD 0
  guardBlock (u.toNat ≤ e)
  wrS d (BitVec.ofNat 64 e)

def execHtreeWait (h : Hdr) (d b : Nat) (s : State) : Res := runOp (.htreeWait h d b) h (htreeWaitOp d b) s

/-- Leaf i: the hash of the page's bytes as they stand. -/
def State.leafHash (s : State) (t : HTree) (i : Nat) : List Byte := sha3_256 (s.peek (t.xlat.getD i 0) 4096)

/-- The unit reads page i on path 0 of C (R442). -/
def leafRead (a : Acc) (t : HTree) (i : Nat) : Op (List Byte) := do
  eccCheckRead a (t.region + 4096 * i) (t.xlat.getD i 0) 4096
  let s ← get
  return s.leafHash t i

/-- A fault of the unit is C's (R442), and ends the update that meets it (log entry 107). -/
def State.htreeRun (s : State) (k : Nat) (op : Op Unit) : State :=
  match op.run s with
  | .ok (_, t) => t
  | .error (.fault f) =>
    let c := s.core k
    (s.setCore k { c with htree := c.htree.map fun t => { t with pending := none } }).takeFault k f false
  | .error _ => s

/-- The snapshot of the boundary that ends frame fr (R318): frames that are multiples of the interval. -/
def State.htreeSnap (s : State) (k fr : Nat) : State :=
  let c := s.core k
  match c.htree with
  | some t =>
    if t.stopping || fr % t.interval ≠ 0 then s
    else s.htreeRun k do
      let l ← (List.range t.pages).mapM (leafRead (c.acc k .c) t)
      modCore k fun c => { c with htree := some { t with pending := some (fr, l) } }
  | none => s

/-- Where a byte of the area lies, by its virtual address. -/
def HTree.areaPa (t : HTree) (va : Nat) : Nat := t.xlat.getD (t.pages + (va / 4096 - t.area / 4096)) 0 + va % 4096

/-- Bytes of the area as the unit writes them, by physical address. -/
def areaWrites (t : HTree) (off : Nat) (l : List Byte) : List (Nat × Byte) :=
  l.zipIdx.map fun p => (t.areaPa (t.area + off + p.2), p.1)

/-- The unit writes the area in C's own handler, page by page; in the frames it is buffered (R310). -/
def areaStore (a : Acc) (t : HTree) (off : Nat) (l : List Byte) : Op Unit :=
  (pieces (t.area + off) (l.length / 4096 + 2) l.length).forM fun p => do
    eccCheckWrite a p.1 (t.areaPa p.1) p.2
    (units false (t.areaPa p.1) p.2).forM fun u =>
      modify fun s => s.putUnit a none u.1 ((l.drop (p.1 + (u.1 - t.areaPa p.1) - (t.area + off))).take u.2)

/-- The update (R318): a page written meanwhile gives either content in its leaf; the nodes are stores of C, and the
epoch follows them. -/
def htreeUpdateOp (k : Nat) (t : HTree) (fr : Nat) (leaves : List (List Byte)) : Op Unit := do
  let s ← get
  let a := (s.core k).acc k .c
  let leaves ← leaves.zipIdx.mapM fun (p : List Byte × Nat) => do
    let now ← leafRead a t p.2
    if now = p.1 then return now
    else
      let d ← draw 2
      return if d = 0 then p.1 else now
  let nodes := treeNodes 20 leaves
  let head := leBytes 8 (t.epoch + 1) ++ leBytes 8 fr
  match a.writer with
  | some w =>
    let l := areaWrites t 64 nodes.flatten ++ areaWrites t 0 head
    modify fun s => { s with bufs := s.bufs ++ l.map fun (p : Nat × Byte) => BufSt.mk w p.1 p.2 }
  | none =>
    areaStore a t 64 nodes.flatten
    areaStore a t 0 head
  modCore k fun c => { c with htree := some { t with epoch := t.epoch + 1, pending := none } }

def State.htreeUpdate (s : State) (k : Nat) : State :=
  match (s.core k).htree with
  | some t =>
    match t.pending with
    | some (fr, leaves) => s.htreeRun k (htreeUpdateOp k t fr leaves)
    | none => s
  | none => s

def execHtreeUpdate (core : Nat) (s : State) : Res := .next (s.htreeUpdate core)

end Sys2Proof.Machine
end

