-- ==== Sys2Proof/Machine/Virga.lean ====
section
/-! DEFINITION. Virga speculative loops (R393 to R403): the acceptance rules, SPBEGIN, SPCMP, SPACC, SPAPP and SPEND, the
dispatch of guesses and iterations, and the commit of a round. -/

namespace Sys2Proof.Machine

/-! Acceptance (R401). -/

/-- A word passes under `exact` (0), `ulp` (1) or `rel` (2). `open_` stands for the comparison that the rule does not
decide: an infinite factor of a zero. -/
def wordPasses (rule : Nat) (ct : Bool) (tol : Nat) (open_ : Bool) (g c : Nat) : Bool :=
  let t : Ty := if ct then .f32 else .f64
  match rule with
  | 0 => g == c
  | 1 => match selKey t g, selKey t c with
    | some x, some y => decide (((x : Int) - y).natAbs ≤ tol)
    | _, _ => false
  | _ =>
    let x := (ffmt t).unpack (g % 2 ^ t.width)
    let y := (ffmt t).unpack (c % 2 ^ t.width)
    let z := fmt64.unpack tol
    if x.isNan || y.isNan || z.isNan || (z.neg && !z.isZero) then false
    else if x.isInf || y.isInf then x == y
    else if z.isInf && y.isZero then open_
    else !ltVals (mulVals z y.abs).1 (sumVals false [x, y.negate]).1.abs

/-- Every carry word passes. -/
def carryPasses (rule : Nat) (ct : Bool) (tol : Nat) (open_ : Bool) (g c : List Nat) : Bool :=
  (g.zip c).all fun p => wordPasses rule ct tol open_ p.1 p.2

/-- A choice that nothing decides. -/
def openBit : Op Bool := do
  let d ← draw 2
  return d == 1

/-- A value that `blk` refuses: a NaN, an infinity or a negative. -/
def badPair (x : Nat) : Bool :=
  match f32v x with
  | .nan _ => true
  | .inf _ => true
  | .fin neg m _ _ => neg && m ≠ 0

/-- `blk` over pairs (p, q) with the bits u: m and the flags; none for SAMPLE. -/
def blkLength (u : Nat) (pairs : List (Nat × Nat)) : Option (Nat × Flags) :=
  if pairs.any fun p => badPair p.1 || badPair p.2 || (f32v p.2).isZero then none
  else
    let (_, m, fl, _) := pairs.foldl (fun (a : Nat × Nat × Flags × Nat) p =>
      let (rho, m, fl, j) := a
      let (x, f1) := fDiv fmt32 .rne (f32v p.1) (f32v p.2)
      let (r, f2) := fMul fmt32 .rne (f32v rho) (f32v x)
      let ge := !(f32v r).isNan && !ltVals (f32v r) (.fin false u (-24) false)
      (r, if ge then j + 1 else m, fl ||| f1 ||| f2, j + 1)) (0x3F800000, 0, 0, 0)
    some (m, fl)

/-- m of `blk` with the generator of C of a core, and the flags, which go to FPFLAGS of that core; SAMPLE as a fault. -/
def blkOp (k : Nat) (lin : Int) (tag : Nat) (pairs : List (Nat × Nat)) : Op (Nat × Flags) := do
  let s ← get
  match blkLength (keyed (s.core k).genC lin tag / 2 ^ 40) pairs with
  | none => throw (.fault (.ofStream .c fcSAMPLE 0 0))
  | some (m, fl) =>
    modCore k fun c => c.setCreg crFPFLAGS (raise (c.creg crFPFLAGS) fl)
    return (m, fl)

def SpRule.num (r : SpRule) : Nat :=
  match r with | .exact => 0 | .ulp => 1 | .rel => 2

def spcmpOp (rule : SpRule) (ct : Bool) (d a b t nc : Nat) : Op Unit := do
  let x ← rdS a
  let y ← rdS b
  let tol ← rdS t
  let acc ← accHere
  let g ← readWords acc x.toNat (nc + 1)
  let c ← readWords acc y.toNat (nc + 1)
  let o ← openBit
  wrS d (if carryPasses (SpRule.num rule) ct tol.toNat o g c then 1 else 0)

def execSpcmp (h : Hdr) (k : SpRule) (ct : Bool) (d a b t nc : Nat) (s : State) : Res :=
  runOp (.spcmp h k ct d a b t nc) h (spcmpOp k ct d a b t nc) s

def spaccOp (d a b l : Nat) : Op Unit := do
  let x ← rdS a
  let lin ← rdS b
  let acc ← accHere
  let ws ← readWords acc x.toNat (l + 1)
  let c ← here
  let k ← coreId
  let (m, _) ← blkOp k lin.toInt (wfld (c.creg crSRTAG) 32 20) (ws.map fun w => (w % 2 ^ 32, fld w 32 32))
  wrS d (BitVec.ofNat 64 m)

def execSpacc (h : Hdr) (d a b l : Nat) (s : State) : Res := runOp (.spacc h d a b l) h (spaccOp d a b l) s

/-! The control block and the window (R393, R394). -/

def Spec.word (sp : Spec) (i : Nat) : Nat := sp.cb.getD i 0
def Spec.n (sp : Spec) : Nat := fld (sp.word 2) 32 32
def Spec.w (sp : Spec) : Nat := fld (sp.word 2) 27 5
def Spec.nc (sp : Spec) : Nat := fld (sp.word 2) 23 4 + 1
def Spec.rule (sp : Spec) : Nat := fld (sp.word 2) 21 2
def Spec.ct (sp : Spec) : Bool := (sp.word 2).testBit 20
def Spec.nap (sp : Spec) : Nat := fld (sp.word 2) 17 3

/-- Window cores 0 to w - 1 of lead k. -/
def State.window (s : State) (k w : Nat) : List Nat :=
  let c := s.core k
  match s.nodeOf c.slot c.node with
  | some n => (List.range w).map fun j => n.cores.getD (wfld (c.creg crCOHORT) 0 10 + j) 512
  | none => []

/-- The job of a window core has ended. -/
def State.windowGone (s : State) (k j : Nat) : Bool :=
  let c := s.core k
  let d := s.core j
  d.st == .idle || d.slot ≠ c.slot || d.node ≠ c.node

def carryIn : Nat := 0x3C0000
def carryOut : Nat := 0x3C0080
/-- Where the lead holds g[i]: the true carry as its own carry-in, the guesses behind. -/
def guessAt (i : Nat) : Nat := if i = 0 then carryIn else 0x3C0100 + 128 * (i - 1)

/-- n words of core k's scratchpad as they stand. -/
def State.spadWords (s : State) (k off n : Nat) : List Nat :=
  (List.range n).map fun i => leNat (s.peek (scratchPa k (off + 8 * i)) 8)

def State.putSpad (s : State) (k off : Nat) (ws : List Nat) : State :=
  s.poke (scratchPa k off) (ws.flatMap (leBytes 8))

/-- The unit reads words of core j's scratchpad: ECCU at the executing C where one cannot be used (R442). -/
def spadRead (j off n : Nat) : Op (List Nat) := do
  let a ← accHere
  eccCheckRead { a with own := some j } off (scratchPa j off) (8 * n)
  let s ← get
  return s.spadWords j off n

/-- The unit writes whole words of core j's scratchpad. -/
def spadWrite (j off : Nat) (ws : List Nat) : Op Unit := do
  let a ← accHere
  eccCheckWrite { a with own := some j } off (scratchPa j off) (8 * ws.length)
  modify fun s => s.putSpad j off ws

/-! SPBEGIN (R395, R402). -/

/-- C of the core stands aside of its own words: its word has passed its wait, and the unit steers it. -/
def StreamSt.aside (x : StreamSt) : StreamSt :=
  { x with issued := false, taken := none, popped := [], blocked := false, waitOn := 0 }

/-- SPBEGIN waits for the window's jobs to start: bank 15 is the unit's from its issue on (R393). -/
def spbeginWait : Op Unit := do
  let k ← coreId
  let st ← thisStream
  modHere fun c => { c with spec := { Spec.reset with role := 5, lead := k, pc := st.pc } }
  hold

def spbeginOp (g d a : Nat) : Op Fin := do
  noSpec
  let x ← rdS a
  guardAddr (x.toNat % 64 = 0) fcALIGN x.toNat
  let acc ← accHere
  let cb ← readWords acc x.toNat 16
  guardAddr (cb.getD 0 0 % 8 = 0) fcALIGN (cb.getD 0 0)
  guardAddr (cb.getD 1 0 % 8 = 0) fcALIGN (cb.getD 1 0)
  let c ← here
  let k ← coreId
  let st ← thisStream
  let sp : Spec := { Spec.reset with role := 1, lead := k, cbVa := x.toNat, cb := cb, done := cb.getD 5 0 % 2 ^ 32,
                                     pc := st.pc, g := g, d := d, tok := st.taken }
  -- inside a guess run the unit is taken
  guardFault (c.spec.role = 0 || c.spec.role = 5) fcENGCMD
  guardFault (2 ≤ sp.w && sp.w ≤ 16 && wfld (c.creg crCOHORT) 0 10 + sp.w ≤ wfld (c.creg crCOHORT) 16 10 && sp.nap ≤ 4
    && sp.word 6 % 8 = 0 && (List.range sp.nap).all fun r => sp.word (8 + 2 * r) % 8 = 0) fcENGCMD
  let s ← get
  let win := s.window k sp.w
  guardFault (!(win.any fun j => s.windowGone k j)) fcDOMINC
  if s.starting win then spbeginWait else pure ()
  guardFault (win.all fun j => ((s.core j).creg crBANKALLOT).getLsbD 15) fcENGCMD
  throw (.ended (s.setCore k { c with sC := st.aside, spec := sp }))

def execSpbegin (h : Hdr) (d a : Nat) (s : State) : Res := runWord (.spbegin h d a) h (spbeginOp h.g d a) s

/-! SPAPP and SPEND (R402). -/

/-- Bytes that the iteration has appended to a region. -/
def Spec.appended (sp : Spec) (r : Nat) : Nat := ((sp.app.filter fun p => p.region == r).map SpApp.size).sum

/-- An iteration runs on C. -/
def Core.inBody (c : Core) : Bool := c.spec.role == 3 && !c.spec.ended

def spappOp (sz : WD) (d a r : Nat) : Op Unit := do
  let c ← here
  guardFault (c.inBody && r < c.spec.nap) fcILLOP
  let x ← rdS a
  let n := c.spec.appended r
  if n + wdLen sz > 4096 then faultAt fcSPECBUF 0 (BitVec.ofNat 64 (bufSlots c.spec.buf))
  else do
    modHere fun c => { c with spec := { c.spec with app := c.spec.app ++ [⟨r, wdLen sz, x⟩] } }
    wrS d (BitVec.ofNat 64 n)

def execSpapp (h : Hdr) (sz : WD) (d a r : Nat) (s : State) : Res := runOp (.spapp h sz d a r) h (spappOp sz d a r) s

/-- `spend.g`: the guess run ends, and C stands at SPBEGIN again. -/
def spendGOp : Op Fin := do
  noSpec
  let c ← here
  guardFault (c.spec.role = 4) fcILLOP
  putHere { c with spec := { c.spec with role := 1, guessed := c.spec.pos, pos := 0 } }
  return ⟨.jump c.spec.pc, []⟩

def execSpendG (h : Hdr) (s : State) : Res := runWord (.spendG h) h spendGOp s

/-- `spend.b`: the iteration ends once every command of it has retired (R398). -/
def spendBOp (a : Nat) : Op Unit := do
  let c ← here
  guardFault c.inBody fcILLOP
  let x ← rdS a
  guardBlock ([0, 1].all fun e => (c.runOf e).all (fun r => decide (r.cmd.id ≤ c.spec.cmdLow))
    && (c.equeue e).all fun m => m.kind != .go || m.id ≤ c.spec.cmdLow)
  putHere { c with spec := { c.spec with ended := true, stop := x != 0 } }

def execSpendB (h : Hdr) (a : Nat) (s : State) : Res := runOp (.spendB h a) h (spendBOp a) s

/-- `spend.srv`: the core waits to be handed an iteration. -/
def spendSrvOp (g : Nat) : Op Fin := do
  let c ← here
  let k ← coreId
  let st ← thisStream
  guardFault (c.spec.role = 0) fcILLOP
  let s ← get
  throw (.ended (s.setCore k { c with
    sC := st.aside, spec := { Spec.reset with role := 2, lead := k, pc := st.pc, g := g, tok := st.taken } }))

def execSpendSrv (h : Hdr) (s : State) : Res := runWord (.spendSrv h) h (spendSrvOp h.g) s

/-! Runs (R396). -/

/-- C of a core starts a run with its three arguments. -/
def Core.startRun (c : Core) (pc s1 s2 s3 : Nat) : Core :=
  let c := ((c.setSreg .c 1 (BitVec.ofNat 64 s1)).setSreg .c 2 (BitVec.ofNat 64 s2)).setSreg .c 3 (BitVec.ofNat 64 s3)
  { c with sC := { c.sC.aside with pc := BitVec.ofNat 64 pc } }

/-- The next guess run of the lead. -/
def startGuess (k : Nat) : Op Unit := do
  let s ← get
  let sp := (s.core k).spec
  let i := sp.guessed + 1
  if i = 1 then spadWrite k carryIn sp.carry else pure ()
  modCore k fun c =>
    let c := c.startRun (sp.word 0) (guessAt (i - 1)) (guessAt i) i
    { c with spec := { c.spec with role := 4, pos := i } }

/-- Core j is handed iteration p of the round: the lead's stores are performed, the carry is copied, and C runs the
body. -/
def handOut (k j p : Nat) : Op Unit := do
  modify fun s => s.performOwn (agentOf k .c) allPaths
  let s ← get
  let sp := (s.core k).spec
  let g ← if p = 0 then pure sp.carry else spadRead k (guessAt p) sp.nc
  spadWrite j carryIn g
  modify fun s =>
    let s := s.learn (agentOf j .c) (s.token (agentOf k .c))
    let c := (s.core j).startRun (sp.word 1) carryIn carryOut ((sp.done + p) % 2 ^ 32)
    s.setCore j { c with spec := { c.spec with
      role := 3, lead := k, pos := p, stop := false, ended := false, bad := false, buf := [], app := [], cb := sp.cb,
      cmdLow := s.cmdId, gens := [c.genC, c.genA, c.genV],
      flags := [c.creg crFPFLAGS, c.creg crVFLAGS, c.creg crMFLAGS] } }

/-- SPBEGIN or spend.srv retires at last: its signal is raised and C goes on behind it. -/
def State.retireSpec (s : State) (j : Nat) : State :=
  let sp := (s.core j).spec
  let (s, ov) := s.applyRaises j 0 (raises ⟨0, sp.g, .always⟩ fall true) (s.token (agentOf j .c))
  let c := s.core j
  let c := { c with sC := { c.sC with pc := sp.pc }, spec := .reset }
  let s := { s.setCore j (c.leave .c 1 .fall) with seq := s.seq + 1 }
  if ov then s.takeFault j (.ofStream .c fcSIGOV 0 0) false else s

/-- The loop ends with a reason: the members that serve it, and the lead, go on. -/
def State.endLoop (s : State) (k reason : Nat) : State :=
  let sp := (s.core k).spec
  let members := (s.window k sp.w).filter fun j =>
    j ≠ k && (s.core j).spec.role == 2 && ((s.core j).spec.lead == k || (s.core j).spec.lead == j)
  let s := members.foldl State.retireSpec s
  let s := s.setCore k ((s.core k).setSreg .c sp.d (BitVec.ofNat 64 reason))
  s.retireSpec k

/-- The unit of the core may act: its loop is not stopped. -/
def State.virgaOn (s : State) (k : Nat) : Bool :=
  let c := s.core k
  c.st == .running && c.spec.lead == k && (c.spec.role == 1 || c.spec.role == 3 || c.spec.role == 4) && !c.act
    && c.pend.isNone && !s.cohortHeld k

/-- Run an operation as C of a core; a fault of it is taken at SPBEGIN. -/
def State.virgaRun (s : State) (k : Nat) (op : Op Unit) : State :=
  match op.run { s with curCore := k, curStream := .c } with
  | .ok (_, s') => { s' with curCore := s.curCore, curStream := s.curStream }
  | .error (.fault f) => s.takeFault k f false
  | .error _ => s

/-- What the lead itself does next: the round's true carry, a guess run, or iteration 0. -/
def State.leadStep (s : State) (k : Nat) : State :=
  let sp := (s.core k).spec
  match sp.carry with
  | [] =>
    if sp.n ≤ sp.done then s.endLoop k 0
    else s.virgaRun k do
      let a ← accHere
      let t ← readWords a (sp.word 6) sp.nc
      modCore k fun c => { c with spec := { c.spec with carry := t } }
  | _ => s.virgaRun k (if sp.guessed + 1 < sp.w then startGuess k else handOut k k 0)

/-- In frame mode the guesses are stores that commit at a boundary. -/
def State.guessStands (s : State) (k : Nat) : Bool :=
  !((s.core k).frame && s.bufs.any fun e => e.writer == agentOf k .c)

/-- One action of the unit: a guess goes to a member that serves, and the lead goes on. -/
def State.virgaDispatch (s : State) (k : Nat) : State :=
  if !s.virgaOn k then s
  else
    let sp := (s.core k).spec
    let win := s.window k sp.w
    if (win.drop (sp.handed + 1)).any fun j => s.windowGone k j then
      s.takeFault k (.ofStream .c fcDOMINC 0 0) false
    else
      let j := win.getD (sp.handed + 1) 512
      let m := (s.core j).spec
      let s := if sp.handed < sp.guessed && m.role == 2 && (m.lead == j || m.lead == k) && s.guessStands k then
          s.virgaRun k do
            handOut k j (sp.handed + 1)
            modCore k fun c => { c with spec := { c.spec with handed := sp.handed + 1 } }
        else s
      if sp.role = 1 && (s.core k).spec.role == 1 then s.leadStep k else s

def execVirgaIterationDispatch (lead : Nat) (s : State) : Res := .next (s.virgaDispatch lead)

/-! The commit (R397). -/

/-- Every iteration of the round has ended, iteration 0 with no fault (R400). In frame mode its boundary commits it ahead of
a stop that waits there. -/
def State.roundDone (s : State) (k : Nat) : Bool :=
  let c := s.core k
  let sp := c.spec
  (s.virgaOn k || (c.frame && c.st == .running && sp.lead == k && !c.act)) && sp.role == 3 && sp.ended && !sp.bad && sp.handed + 1 == sp.w &&
    (s.window k sp.w).all fun j => (s.core j).spec.role == 3 && (s.core j).spec.lead == k && (s.core j).spec.ended

/-- n words of the carry-out of window core j, as its iteration left them: a word that it has written whole is taken from its
buffer alone. -/
def carryOutOf (j n : Nat) : Op (List Nat) := do
  let a ← accHere
  let s ← get
  let buf := (s.core j).spec.buf
  let pa := scratchPa j carryOut
  (List.range n).forM fun i =>
    if (List.range 8).all fun b => buf.any fun p => p.1 == pa + 8 * i + b then pure ()
    else eccCheckRead { a with own := some j } (carryOut + 8 * i) (pa + 8 * i) 8
  let s ← get
  let b := overBuf buf pa (s.peek pa (8 * n))
  return (List.range n).map fun i => leNat ((b.drop (8 * i)).take 8)

/-- How many iterations the comparisons accept (R395, R396). -/
def acceptLength (k : Nat) (win : List Nat) : Op Nat := do
  let s ← get
  let c := s.core k
  let sp := c.spec
  if sp.rule = 3 then do
    let pairs ← (List.range (sp.w - 1)).mapM fun i => do
      let t ← carryOutOf (win.getD i 512) 2
      let g ← spadRead k (guessAt (i + 1)) 1
      return (t.getD 1 0 % 2 ^ 32, fld (g.getD 0 0) 32 32)
    let (m, fl) ← blkOp k (sval 64 (sp.word 4 + sp.done)) (wfld (c.creg crSRTAG) 32 20) pairs
    -- the flags are the loop's, and stay where iteration 0 is rejected (R401)
    modCore k fun c => { c with spec := { c.spec with flags := c.spec.flags.modify 0 fun x => raise x fl } }
    return m + 1
  else do
    let o ← openBit
    let pass ← (List.range (sp.w - 1)).mapM fun j => do
      let g ← spadRead k (guessAt (j + 1)) sp.nc
      let t ← carryOutOf (win.getD j 512) sp.nc
      return carryPasses sp.rule sp.ct (sp.word 3) o g t
    return 1 + (pass.takeWhile id).length

/-- The bytes that an iteration appends to a region, in order. -/
def Spec.appBytes (sp : Spec) (r : Nat) : List Byte :=
  (sp.app.filter fun p => p.region == r).flatMap fun p => leBytes p.size p.data.toNat

/-- Write an iteration's buffer for every path, by storage words and registers; a higher iteration comes later and leaves its
byte. `fuel` is the length of the list. -/
def commitBuf (a : Acc) : Nat → List (Nat × Byte) → Op Unit
  | fuel + 1, p :: l => do
    let now := p :: wordRun (wordBytes p.1) p.1 l
    if tierOf p.1 == some .ctl then modify fun s => s.ctlWriteBytes now
    else
      eccCheckWrite a p.1 p.1 now.length
      modify fun s => s.poke p.1 (now.map Prod.snd)
    commitBuf a fuel (l.drop (now.length - 1))
  | _, _ => pure ()

/-- An iteration's appends to a region, at its pointer word as it then stands: false where they would pass its limit. -/
def appendRegion (a : Acc) (lead sp : Spec) (r : Nat) : Op Bool := do
  let b := sp.appBytes r
  if b.isEmpty then return true
  else
    let p ← readNat a true (lead.word (8 + 2 * r)) 8
    if lead.word (9 + 2 * r) < p + b.length then return false
    else
      writeAll a p b
      writeAll a (lead.word (8 + 2 * r)) (leBytes 8 (p + b.length))
      return true

/-- Its appends to the regions of a list, in order. -/
def appendAll (a : Acc) (lead sp : Spec) : List Nat → Op Bool
  | [] => pure true
  | r :: l => do if ← appendRegion a lead sp r then appendAll a lead sp l else return false

/-- Commit the iteration of core j: its buffer, its appends, its flags. False where an append would pass its region's limit,
and nothing is written. -/
def commitOne (k j : Nat) : Op Bool := do
  let a ← accHere
  let s ← get
  let lead := (s.core k).spec
  let sp := (s.core j).spec
  commitBuf a sp.buf.length sp.buf
  if ← appendAll a lead sp (List.range lead.nap) then
    modCore j fun c =>
      let old := fun (i : Nat) => sp.flags.getD i 0
      let c := c.setCreg crFPFLAGS (c.creg crFPFLAGS ||| old 0)
      (c.setCreg crVFLAGS (c.creg crVFLAGS ||| old 1)).setCreg crMFLAGS (c.creg crMFLAGS ||| old 2)
    return true
  else
    set s
    return false

/-- Commit iterations in ascending order, up to a limit that an append meets: how many are committed. -/
def commitRun (k : Nat) : List Nat → Op Nat
  | [] => pure 0
  | j :: l => do
    if ← commitOne k j then
      let n ← commitRun k l
      return n + 1
    else return 0

/-- A window core after the round: a rejected iteration leaves no trace, and C is back at its word. -/
def Core.afterRound (c : Core) (lead : Nat) (rejected isLead : Bool) : Core :=
  let c := if rejected then c.specReject else c
  let c := if c.spec.bad then c.specDrop else c
  { c with sC := { c.sC.aside with pc := c.spec.pc },
           spec := { c.spec with role := if isLead then 1 else 2, lead := lead, pos := 0, stop := false, ended := false,
                                 buf := [], app := [], gens := [], flags := [], guessed := 0, handed := 0, carry := [] } }

/-- Commit a complete round. -/
def commitRound (k : Nat) : Op Unit := do
  let s ← get
  let sp := (s.core k).spec
  let win := s.window k sp.w
  let spec := fun (j : Nat) => (s.core j).spec
  let a0 ← acceptLength k win
  let bad := win.findIdx fun j => (spec j).bad
  let stop := win.findIdx fun j => (spec j).stop
  let a := min (min a0 bad) (min (stop + 1) (sp.n - sp.done))
  let n ← commitRun k (win.take a)
  let acc ← accHere
  if n ≠ 0 then do
    let t ← carryOutOf (win.getD (n - 1) 512) sp.nc
    writeAll acc (sp.word 6) (t.flatMap (leBytes 8))
  else pure ()
  let done := sp.done + n
  writeAll acc ((sp.cbVa + 40) % 2 ^ 64) (leBytes 8 done)
  modify fun s =>
    let tok := win.foldl (fun t j => joinClk t (s.token (agentOf j .c))) []
    let s := win.zipIdx.foldl (fun s p =>
      let (j, i) := p
      (s.setCore j ((s.core j).afterRound k (decide (n ≤ i)) (j == k))).learn (agentOf j .c) tok) s
    let c := s.core k
    let s := s.setCore k { c with spec := { c.spec with done := done } }
    if sp.n ≤ done then s.endLoop k 0
    else if stop < n then s.endLoop k 1
    else if n < a then s.endLoop k 2
    else s

/-- The round of lead k commits, if it is complete. -/
def State.virgaCommit (s : State) (k : Nat) : State := if s.roundDone k then s.virgaRun k (commitRound k) else s

/-- In free mode the commit follows the last comparison; in frame mode it is the boundary's (R397, R464). -/
def execVirgaRoundCommit (lead : Nat) (s : State) : Res :=
  .next (if (s.core lead).frame then s else s.virgaCommit lead)

end Sys2Proof.Machine
end

