-- ==== Sys2Proof/Machine/Boundary.lean ====
section
/-! DEFINITION. The quantum boundary of a frame-mode cohort (R310, R311, R464). -/

namespace Sys2Proof.Machine

/-- The cohort's cores whose jobs have not ended. -/
def State.liveCores (s : State) (slot node : Nat) : List Nat :=
  match s.nodeOf slot node with
  | some n => n.cores.filter fun k =>
      let c := s.core k
      (c.st == .running || c.st == .halting || c.st == .placed) && c.slot == slot && c.node == node
  | none => []

/-- Every core of the cohort has passed the last cycle of its frame, and none is in its handler. -/
def State.boundaryDue (s : State) (slot node : Nat) : Bool :=
  let l := s.liveCores slot node
  !l.isEmpty && l.all fun k =>
    let c := s.core k
    c.frame && !c.act && c.frameLeft == some 0

/-- The word's address space for an event: run an operation as a stream of a core. -/
def State.asStream (s : State) (k : Nat) (st : Stream) (f : State → State) : State :=
  let t := f { s with curCore := k, curStream := st }
  { t with curCore := s.curCore, curStream := s.curStream }

/-! Step 2: allocations (R389). -/

/-- One requested allocation: an earlier one of this boundary may have filled the entry. -/
def heldAllocOp (h : HeldAlloc) : Op Unit := do
  let a ← accHere
  let v ← readVol a h.desc false
  let x ← entryLatest a h.entryVa
  if x % 4 ≠ 0 then pure ()
  else do
    let _ ← allocate a v h.entryVa x (h.entry.testBit 50) (fld h.entry 40 10) (h.entry % 2 ^ 40)
    pure ()

def State.applyAlloc (s : State) (h : HeldAlloc) : State :=
  let k := h.stream / 4
  s.asStream k .v fun s =>
    match (heldAllocOp h).run s with
    | .ok (_, t) => t
    | .error (.fault f) => s.takeFault k f false
    | .error (.faultKeep f t) => t.takeFault k f false
    | .error _ => s

/-! Step 3: buffered stores (R310). -/

/-- The bytes that go on a store of byte b to one storage word or register, of the same writer. -/
def sameStore (b : BufSt) (l : List BufSt) : List (Nat × Byte) :=
  wordRun (wordBytes b.pa) b.pa ((l.takeWhile fun e => e.writer == b.writer).map fun e => (e.pa, e.val))

/-- A fault of a buffered store at its commit: of the writer's core, at the physical address (log entry 105). -/
def commitFault (writer code pa : Nat) : Nat × FaultInfo :=
  if writer < 2048 then (writer / 4, ⟨code, BitVec.ofNat 64 pa, 0, writer % 4, writer % 4, 0, none, none, none⟩)
  else ((writer - 2048) / 8, ⟨code, BitVec.ofNat 64 pa, 0, enginePath (writer % 8), 0, 0, none, none, none⟩)

/-- A fault of a commit is taken by the writer's core. -/
def State.commitFails (s : State) (writer code pa : Nat) : State :=
  let (k, f) := commitFault writer code pa
  s.takeFault k f false

/-- The next commit of a list of buffered bytes, and the list after it: the bytes of one storage word or register. What the
link cannot take is lost with HOSTERR (R456), and what meets a word that cannot be used with ECCU (R442). -/
def State.commitNext (s : State) (b : BufSt) (l : List BufSt) : State × List BufSt :=
  let now := sameStore b l
  let rest := l.drop now.length
  if tierOf b.pa == some .ctl then (s.ctlWriteBytes ((b.pa, b.val) :: now), rest)
  else if tierOf b.pa == some .host && !s.linkUp then (s.commitFails b.writer fcHOSTERR b.pa, rest)
  else
    let (s, ok) := s.pokeSafe b.pa (b.val :: now.map Prod.snd) (some (commitFault b.writer 0 0).1)
    (if ok then s else s.commitFails b.writer fcECCU b.pa, rest)

/-- Commits in their order; `fuel` is the length of the list. -/
def State.commitAll : Nat → State → List BufSt → State
  | fuel + 1, s, b :: l => let (s, l) := s.commitNext b l; State.commitAll fuel s l
  | _, s, _ => s

/-- All buffered stores of the cores' writers commit in ascending writer, and within one in their order. -/
def State.commitStores (s : State) (cores : List Nat) : State :=
  let mine := fun (b : BufSt) => cores.any fun k => ofCore k b.writer
  let l := sortBy (fun x y => decide (x.writer ≤ y.writer)) (s.bufs.filter mine)
  State.commitAll l.length { s with bufs := s.bufs.filter fun b => !mine b } l

/-! Step 4: held atomics (R232). -/

def applyAtomic (h : HeldAtomic) : Op Unit :=
  match h.instr with
  | .amo _ op sz d _ b _ => amoApply op sz d b h.va h.pa
  | .cas _ sz d _ b _ => casApply sz d b h.va h.pa
  | _ => pure ()

/-- The atomic applies and its word retires. -/
def State.applyHeld (s : State) (h : HeldAtomic) : State :=
  s.asStream h.core h.st fun s =>
    match (applyAtomic h).run s with
    | .ok (_, t) => t.retire h.instr (h.instr.hdr.getD ⟨0, 0, .always⟩) fall
    | .error (.fault f) => s.takeFault h.core f false
    | .error (.faultKeep f t) => t.takeFault h.core f false
    | .error _ => s

/-! Step 5: the next frame and stops. -/

/-- A BSP that waited for the commit goes on (R303). -/
def Core.bspCommitted (c : Core) : Core :=
  (List.range 4).foldl (fun c lv => if c.flag (8 + lv) then (c.setFlag (8 + lv) false).setFlag (12 + lv) true else c) c

/-- The first cycle of the next frame. -/
def Core.nextFrame (c : Core) : Core :=
  c.setCreg crFRAMECNT (BitVec.ofNat 64 ((c.frameNow.1 + 1) % 2 ^ 48 * 2 ^ 16))

/-- A stop that waits for the boundary is taken. -/
def State.boundaryStop (s : State) (k : Nat) : State :=
  match (s.core k).pend with
  | none => s
  | some p => s.coreStop k p.fault p.kind p.th

/-- A fault waits at a core. -/
def State.faultWaits (s : State) (k : Nat) : Bool :=
  match (s.core k).pend with
  | some p => p.fault.isSome
  | none => false

/-- The core runs, and a pre-emption waits there for its boundary with M at a retirement point; or it does not run. -/
def State.standsReady (s : State) (k : Nat) : Bool :=
  let c := s.core k
  c.st != .running || (c.atRetirement && match c.pend with | some p => p.kind ≠ 0 | none => false)

/-- A HALT that waits on a core without a fault. -/
def State.boundaryHalt (s : State) (k : Nat) : Option Nat :=
  match (s.core k).pend with
  | some p => if p.fault.isSome then none else p.halt
  | none => none

/-- The stops of the boundary: a HALT stops the cohort; a thermal stop that finds no save areas ends it; faults stop their
cores, and hold the rest. A pre-emption stops every running core at one boundary, once all stand ready for it: they are
saved at one count, and resume from it (R311, log entry 106). -/
def State.boundaryStops (s : State) (slot node : Nat) (cores : List Nat) : State :=
  match cores.findSome? fun k => (s.boundaryHalt k).map fun code => (k, code) with
  | some (k, code) => s.haltCohort k code
  | none =>
    if s.thermStop && !s.savable slot node then s.abandonCohort slot node
    else
      let faulty := cores.filter s.faultWaits
      let stops := if faulty.isEmpty then (if cores.all s.standsReady then cores.filter fun k => (s.core k).st == .running else [])
        else faulty
      stops.foldl State.boundaryStop s

/-- The boundary's effects, each complete before the next. -/
def State.boundary (s : State) (slot node : Nat) : State :=
  if !s.boundaryDue slot node then s
  else
    let cores := s.liveCores slot node
    let s := cores.foldl State.htreeUpdate s
    let s := cores.foldl State.virgaCommit s
    let here_ := fun (k : Nat) => cores.contains k
    let allocs := sortBy (fun x y => decide (x.stream ≤ y.stream)) (s.heldAllocs.filter fun h => here_ (h.stream / 4))
    let s := { s with heldAllocs := s.heldAllocs.filter fun h => !here_ (h.stream / 4) }
    let s := allocs.foldl State.applyAlloc s
    let s := s.commitStores cores
    let atomics := sortBy (fun x y => decide (agentOf x.core x.st ≤ agentOf y.core y.st))
      (s.heldAtomics.filter fun h => here_ h.core)
    let s := { s with heldAtomics := s.heldAtomics.filter fun h => !here_ h.core }
    let s := atomics.foldl State.applyHeld s
    let s := cores.foldl (fun s k => s.htreeSnap k ((s.core k).frameNow).1) s
    let s := cores.foldl State.tlbApplyDue s
    let s := cores.foldl (fun s k => s.setCore k ((s.core k).bspCommitted.nextFrame)) s
    s.boundaryStops slot node cores

def execQuantumBoundary (slot node : Nat) (s : State) : Res := .next (s.boundary slot node)

end Sys2Proof.Machine
end

