-- ==== Sys2Proof/Machine/Dispatcher.lean ====
section
/-! DEFINITION. The dispatcher's decisions (R289, R296, R298 to R301, R439, R440, R446): the order of the ready nodes, what
can start, how a cohort is placed, how a core job starts (R71, R72, R132, R160, R220, R257, R314, R336), pre-emption, and
thermal stops (R462). -/

namespace Sys2Proof.Machine

/-! The order of the ready nodes (R296). -/

/-- Lexicographic order of keys. -/
def lexLe : List Nat → List Nat → Bool
  | [], _ => true
  | _, [] => false
  | a :: l, b :: m => if a = b then lexLe l m else a < b

/-- Ticks of 1,024 cycles since the node became ready. -/
def State.ageTicks (s : State) (n : Node) : Nat := (s.now - n.readyAt) / 1024

/-- The effective class. -/
def State.effClass (s : State) (n : Node) : Nat := if n.cls = 0 then 0 else max (n.cls - s.ageTicks n / 2 ^ 16) 1

/-- The key of a node: an endangered node whose victims are stopping goes ahead of all (R301). -/
def State.nodeKey (s : State) (g : Graph) (slot i : Nat) (n : Node) : List Nat :=
  [if s.urgent = some (slot, i) then 0 else 1, s.effClass n]
    ++ (match g.absDeadline n with | some d => [0, d] | none => [1, 0])
    ++ [2 ^ 64 - s.ageTicks n, slot, i]

/-- Ready and pre-empted nodes of the graphs that have not failed, in the dispatcher's order. -/
def State.readyNodes (s : State) : List (Nat × Nat) :=
  let l := s.graphs.flatMap fun p =>
    if p.2.failed then []
    else p.2.nodes.zipIdx.filterMap fun q =>
      if q.1.st == .ready || q.1.st == .preempted then some (s.nodeKey p.2 p.1 q.2 q.1, p.1, q.2) else none
  (sortBy (fun x y => lexLe x.1 y.1) l).map Prod.snd

/-! What can start (R296). -/

/-- The node's executor has not ended. -/
def Node.runs (n : Node) : Bool := n.st == .running || (n.st == .halted && !n.cores.isEmpty)

/-- Tile operands of a node: first byte, size and mode. -/
def Node.operands (n : Node) : List (Nat × Nat × Nat) :=
  n.ops.filterMap fun w => if wfld w 62 2 = 0 then none else some (wfld w 12 45 * 4096, 2 ^ wfld w 0 6, wfld w 62 2)

/-- Two operands overlap and one of them is written. -/
def opClash (x y : Nat × Nat × Nat) : Bool :=
  x.1 < y.1 + y.2.1 && y.1 < x.1 + x.2.1 && (2 ≤ x.2.2 || 2 ≤ y.2.2)

def State.hazard (s : State) (n : Node) : Bool :=
  s.graphs.any fun p => p.2.nodes.any fun m => m.runs && n.operands.any fun x => m.operands.any fun y => opClash x y

/-- A pre-empted node keeps its deduction; a node above its class's ceiling never fits (R439). -/
def State.energyFits (s : State) (n : Node) : Bool :=
  n.charged.isSome || (n.energy ≤ SMap.get 0 s.pool n.cls && n.energy ≤ SMap.get 0 s.ceil n.cls)

/-- A core that takes jobs and has none; one that has yielded is held until its whole cohort is saved (R289). -/
def State.coreFree (s : State) (k : Nat) : Bool := (s.core k).st == .idle && !s.yieldHeld k && !s.cretire.getLsbD k

def State.freeCores (s : State) : List Nat := (List.range 512).filter s.coreFree

/-- Cohort indices that a placement starts: all, or those that yielded. -/
def Node.indices (n : Node) : List Nat :=
  if n.yielded.isEmpty then List.range n.csize
  else (List.range n.csize).filter fun i => n.yielded.any fun p => p.1 == i

/-- The cores of a placement of n cores, ascending (R298); none when there are too few. -/
def State.placement (s : State) (n : Nat) : Option (List Nat) :=
  let free := s.freeCores
  let fits := (List.range 4).filterMap fun x =>
    let l := free.filter fun k => k / 128 == x
    if n ≤ l.length then some l else none
  match fits with
  | l :: ls => some ((ls.foldl (fun (b : List Nat) m => if m.length < b.length then m else b) l).take n)
  | [] => if n ≤ free.length then some (free.take n) else none

/-- Running nodes of an engine kind, with the stack that each names. -/
def State.engineNodes (s : State) (kind : Nat) : List Node :=
  s.graphs.flatMap fun p => p.2.nodes.filter fun n => n.kind == kind && n.runs

/-- The engine of stack x serves a node, or is named by one that waits for it. -/
def State.engineTaken (s : State) (kind x : Nat) : Bool :=
  (s.near (kind + 1) x).node.isSome || (s.engineNodes kind).any fun n => n.est == x

def State.executorFree (s : State) (n : Node) : Bool :=
  match n.kind with
  | 0 => (s.placement n.indices.length).isSome
  | 1 | 2 =>
    if n.est < 4 then !s.engineTaken n.kind n.est
    else (s.engineNodes n.kind).length < 4 && (List.range 4).any fun x => !s.engineTaken n.kind x
  | 3 => s.fabNode.isNone
  | _ => s.callbacks.length < 64

/-! Placing a cohort. -/

/-- The storage word that an array and an index name: arrays 0 to 19 of a core by word, else a DRAM line by its number. -/
def errorKey (arr core idx : Nat) : Nat :=
  if arr < 16 then keyScratch (scratchPa core (0x40000 * arr + 8 * idx))
  else if arr < 20 then keyArray core arr idx
  else keyDram (64 * idx)

/-- Words of an array of a core. -/
def arrayWords (arr : Nat) : Nat :=
  match arr with
  | 16 => 40960 | 17 => 32768 | 18 => 131072 | 19 => 256 | _ => 32768

/-- Every word of some arrays of a core is written (R442): no error stands there, and an armed injection stores its flips
(R445). -/
def State.arraysWritten (s : State) (k : Nat) (arrs : List Nat) : State :=
  let out := fun (key : Nat) => arrs.all fun x => key < errorKey x k 0 || errorKey x k 0 + arrayWords x ≤ key
  let s := { s with flips := s.flips.filter fun p => out p.1, poison := s.poison.filter fun p => out p.1 }
  let e := (s.core k).einj
  let arr := wfld e 0 8
  let idx := wfld e 32 23
  if e.getLsbD 63 && arrs.contains arr && idx < arrayWords arr then s.eccWrite (errorKey arr k idx) else s

/-- Zero bytes in every bank, in the weight buffer and in the accumulator store of a core (R220, R257). -/
def State.wipe (s : State) (k : Nat) : State :=
  let lo := scratchPa k 0
  let hi := scratchPa (k + 1) 0
  let out := fun (pa : Nat) => pa < lo || hi ≤ pa
  let s := { s with mem := s.mem.filter fun p => out p.1, hist := s.hist.filter fun p => out p.1 }
  (s.setCore k { s.core k with wbuf := [], cell := [] }).arraysWritten k (17 :: 18 :: List.range 16)

/-- What the dispatcher reads for a cohort (R294): the launch block, the constants and the views. -/
structure Images where
  block : List Byte
  k : List Nat
  vw : List Nat
  deriving DecidableEq, Repr

/-- Numbers of a given width from an address. -/
def readWide (a : Acc) (va w : Nat) : Nat → Op (List Nat)
  | 0 => pure []
  | n + 1 => do
    let x ← readNat a false va w
    let xs ← readWide a ((va + w) % 2 ^ 64) w n
    return x :: xs

def readImages (g : Graph) (n : Node) : Op Images := do
  let a := g.acc
  let w := fun (i : Nat) => (n.job.getD i 0).toNat
  let len := fld (w 8) 32 13
  let block ← if len = 0 then pure [] else readBytes a false (w 7) len
  let k ← if w 9 = 0 then pure [] else readWide a (w 9) 8 256
  let vw ← if w 10 = 0 then pure [] else readWide a (w 10) 128 32
  return ⟨block, k, vw⟩

/-- COHORT of index i (R98): the coupled core is that of the other index of the pair, where it has one. -/
def cohortWord (n : Node) (cores : List Nat) (i : Nat) : Nat :=
  let j := if i % 2 = 0 then i + 1 else i - 1
  let cpl := cores.getD j 512
  i + n.csize * 2 ^ 16 + (if n.cpl && cpl < 512 then cpl * 2 ^ 32 + 2 ^ 41 else 0)

/-- Registers that the dispatcher sets (R98, R158, R177, R218, R302, R307, R368, R415, R416, R436). -/
def State.jobRegs (s : State) (g : Graph) (slot node : Nat) (n : Node) (cores : List Nat) (i k : Nat) (area : Word) :
    SMap Word :=
  let job := fun (j : Nat) => (n.job.getD j 0).toNat
  setAll 0 (s.core k).cr [(crVMODE, 2), (crTVEC, s.tvec), (crCTXADDR, area),
    (crCOHORT, BitVec.ofNat 64 (cohortWord n cores i)),
    (crDMEM, BitVec.ofNat 64 ((slot * 4096 + node) * 2 ^ 32 + k / 8 * 2 ^ 20)),
    (crENBUDGET, BitVec.ofNat 64 ((n.energy + n.csize - 1) / n.csize)),
    (crVALLOT, BitVec.ofNat 64 (fld (job 11) 48 10)), (crBANKALLOT, BitVec.ofNat 64 (fld (job 11) 32 16)),
    (crFRAMECFG, if n.fm then BitVec.ofNat 64 (n.f * 2 ^ 16 + 1) else 0),
    (crXROOT, g.xroot &&& BitVec.ofNat 64 (2 ^ 52 - 1))]

/-- The first free save area of at least so many bytes leaves the pool; address 0 with none (R415). -/
def State.takeArea (s : State) (need : Nat) : (Word × Nat) × State :=
  match s.savePool.find? fun p => need ≤ p.2 with
  | some p => (p, { s with savePool := s.savePool.erase p })
  | none => ((0, 0), s)

/-- The save area of an index: the one that holds its state where it has yielded, else one that the job may need. -/
def State.areaFor (s : State) (n : Node) (i : Nat) : (Word × Nat) × State :=
  match n.yielded.find? fun p => p.1 == i with
  | some p => (p.2.1, s)
  | none =>
    let w := n.job.getD 11 0
    s.takeArea (Live.full (wfld w 48 10) (wfld w 32 16)).size

/-- A launch block goes to a scratchpad whose bytes stay: the storage word of it that cannot be used (R442). -/
def State.blockError (s : State) (g : Graph) (n : Node) (im : Images) (cores : List Nat) : Option Nat :=
  cores.findSome? fun k =>
    if (s.core k).owner = g.serial then (s.eccPart (scratchPa k (wfld (n.job.getD 8 0) 0 22)) im.block.length (some k)).2
    else none

/-- Core k is placed as index i: another graph's bytes go, nothing of an earlier job is left but what R220 and R257 keep,
the registers are set, and the launch block and the images are in place. -/
def State.placeCore (s : State) (g : Graph) (slot node : Nat) (n : Node) (cores : List Nat) (im : Images) (i k : Nat) :
    State :=
  let s := if (s.core k).owner = g.serial then s else s.wipe k
  let (area, s) := (s.dropJob k).areaFor n i
  let cr := s.jobRegs g slot node n cores i k area.1
  let c := s.core k
  let c := { c with
    st := .placed, slot := slot, node := node, owner := g.serial, sup := g.sv, jobSup := g.sv, sec := g.sec, cr := cr,
    k := SMap.setRange 0 [] 0 (im.k.map (BitVec.ofNat 64)), vw := SMap.setRange 0 [] 0 (im.vw.map (BitVec.ofNat 1024)),
    step := if n.fm then 0 else SMap.get 0 s.clkStep n.cls, clb := [],
    tlb := if n.fm then [] else c.tlb, resume := !n.yielded.isEmpty, areaSize := area.2 }
  (((s.setCore k c).arraysWritten k [16, 19]).pokeSafe (scratchPa k (wfld (n.job.getD 8 0) 0 22)) im.block (some k)).1

/-- The cohort's cores by index: those that are placed take the placement's cores in order. -/
def coresByIndex (n : Node) (l : List Nat) : List Nat :=
  (List.range n.csize).map fun i =>
    match n.indices.findIdx? fun j => j == i with
    | some p => l.getD p 512
    | none => 512

/-- A node that the dispatcher starts leaves the pool: its energy is deducted, and it is late after its latest start
(R299, R439). Where its status cannot be written its graph fails (R297). -/
def State.admitNode (s : State) (g : Graph) (slot i : Nat) (n : Node) (f : Node → Node) : State :=
  let late := match g.absDeadline n with | some d => decide (d < s.now + n.spanCycles) | none => false
  let s := if n.charged.isSome then s
    else { s with pool := SMap.set 0 s.pool n.cls (SMap.get 0 s.pool n.cls - n.energy) }
  let s := if s.urgent = some (slot, i) then { s with urgent := none } else s
  let s := s.modNode slot i fun n =>
    f { n with st := .running, startAt := s.now, late := n.late || late, charged := some (n.charged.getD n.energy) }
  (s.writeNode slot i).afterStatus slot

/-- A node whose reads stop ends as faulted, with no executor (R294): the code of its fault. -/
def State.failStart (s : State) (slot i code : Nat) : State :=
  (s.modNode slot i fun n => { n with fault := code }).finishNode slot i .faulted

def State.startCohort (s : State) (g : Graph) (slot i : Nat) (n : Node) : State :=
  match s.placement n.indices.length with
  | none => s
  | some l =>
    let images := if n.yielded.isEmpty then (readImages g n).run s else .ok (⟨[], [], []⟩, s)
    match images with
    | .error e => ((s.noteStop e).admitNode g slot i n id).failStart slot i e.code
    | .ok (im, s) =>
      match s.blockError g n im l with
      | some key => ((s.eccRead key).1.admitNode g slot i n id).failStart slot i fcECCU
      | none =>
      let cores := coresByIndex n l
      let s := (n.indices.zip l).foldl (fun s p => s.placeCore g slot i n cores im p.1 p.2) s
      s.admitNode g slot i n fun n => { n with cores := cores, yielded := [] }

/-- The command of an engine node: the words of its block (R350, R364). -/
def nodeCmd (n : Node) (id : Nat) : Cmd :=
  let w := fun (i : Nat) => n.job.getD i 0
  ⟨.go, w 0, w 1, w 2, w 3, 0, n.kind + 1, 0, 512, id, none, none, [], [], false, none⟩

/-- A fabric node takes the engine: its block is read (R460, R465). -/
def State.startFabric (s : State) (g : Graph) (slot i : Nat) (n : Node) : State :=
  let s := { s with cmdId := s.cmdId + 1 }
  match (readWords (g.nodeAcc 9 s.cmdId .fab) n.image.toNat 4).run s with
  | .error e => ((s.noteStop e).admitNode g slot i n id).failStart slot i e.code
  | .ok (w, s) =>
    let w0 := w.getD 0 0
    let op := fld w0 62 2
    let fmt := fld w0 60 2
    let len := w0 % 2 ^ 32
    let s := s.admitNode g slot i n id
    if op = 3 || (op = 2 && (2 ≤ fmt || len % (if fmt = 0 then 8 else 4) ≠ 0)) then s.failStart slot i fcENGCMD
    else { s with fabNode := some ⟨slot, i, op, fmt, fld w0 32 16, len, w.getD 1 0, w.getD 2 0, w.getD 3 0, s.cmdId, 0, none, false, 0⟩ }

/-- Start a node that can start now. -/
def State.startNode (s : State) (slot i : Nat) : State :=
  match s.graph slot, s.nodeOf slot i with
  | some g, some n =>
    match n.kind with
    | 0 => s.startCohort g slot i n
    | 1 | 2 =>
      let s := { s with cmdId := s.cmdId + 1 }
      let id := s.cmdId
      let s := s.learn (cmdAgent id) (s.token dispAgent)
      s.admitNode g slot i n fun n => { n with cmds := [nodeCmd n id] }
    | 3 => s.startFabric g slot i n
    | _ =>
      let s := s.admitNode g slot i n id
      { s with callbacks := s.callbacks ++ [(slot, i, n.image)] }.interrupt 67
  | _, _ => s

/-- A node can start now; `cores` leaves the need for cores out. -/
def State.canStart (s : State) (n : Node) (cores : Bool) : Bool :=
  !s.hazard n && s.energyFits n && ((cores && n.kind == 0) || s.executorFree n)

/-- Each node in order starts if it can; its graph may have failed meanwhile. -/
def State.tryStart (s : State) (p : Nat × Nat) : State :=
  match s.graph p.1, s.nodeOf p.1 p.2 with
  | some g, some n =>
    if !g.failed && (n.st == .ready || n.st == .preempted) && s.canStart n false then s.startNode p.1 p.2 else s
  | _, _ => s

/-! Pre-emption (R301). -/

/-- A pre-emption request reaches every core of the cohort (R425). -/
def State.requestStop (s : State) (slot i : Nat) : State :=
  match s.nodeOf slot i with
  | some n => n.cores.foldl (fun s k =>
      let c := s.core k
      if (c.st == .running || c.st == .placed) && c.slot == slot && c.node == i && c.horizon.isNone then
        s.setCore k { c with horizon := some n.horizon, horizonHeld := c.act }
      else s) s
  | none => s

/-- The stop bound of a cohort in the dispatcher's cycles (R304): depth at its islands' clock, and 4 µs. -/
def State.stopBound (s : State) (n : Node) : Nat :=
  let f := stepFreq (s.core (n.cores.findSome? (fun k => if k < 512 then some k else none) |>.getD 512)).step
  (n.depth * 17 + f - 1) / f + 6800

/-- Running cohorts of RESEARCH and BULK, with their graph. -/
def State.victims (s : State) : List (Graph × Nat × Nat × Node) :=
  s.graphs.flatMap fun p => p.2.nodes.zipIdx.filterMap fun q =>
    if q.1.kind = 0 && q.1.st == .running && 2 ≤ q.1.cls then some (p.2, p.1, q.2, q.1) else none

/-- The order in which victims are asked. -/
def victimKey (v : Graph × Nat × Nat × Node) : List Nat :=
  let (g, _, _, n) := v
  [n.cls] ++ (match g.absDeadline n with | some d => [1, 2 ^ 80 - d] | none => [0, 0]) ++ [2 ^ 64 - n.startAt]

/-- Cores that a cohort still holds, those that have yielded among them (R289). -/
def State.heldCores (s : State) (slot i : Nat) : Nat :=
  match s.nodeOf slot i with
  | some n => n.cores.countP fun k =>
      ((s.core k).st != .idle || s.yieldHeld k) && (s.core k).slot == slot && (s.core k).node == i
  | none => 0

/-- Victims in order until the cores suffice; none where they cannot. -/
def takeVictims : Nat → List (Nat × Nat × Nat) → Option (List (Nat × Nat))
  | 0, _ => some []
  | _, [] => none
  | need, (slot, i, n) :: l => (takeVictims (need - n) l).map fun r => (slot, i) :: r

/-- An OPER node that lacks cores alone, and whose latest start is within the largest stop bound. -/
def State.endangered (s : State) (slot i : Nat) : Bool :=
  match s.graph slot, s.nodeOf slot i with
  | some g, some n =>
    let bound := (s.victims.map fun v => s.stopBound v.2.2.2).foldl max 0
    n.kind == 0 && n.cls == 0 && s.canStart n true && !s.executorFree n && !s.victims.isEmpty &&
      (match g.absDeadline n with | some d => decide (d ≤ s.now + bound + n.spanCycles) | none => false)
  | _, _ => false

/-- The highest-ordered endangered node has its victims asked. -/
def State.preempt (s : State) : State :=
  match s.readyNodes.find? fun p => s.endangered p.1 p.2 with
  | none => s
  | some (slot, i) =>
    let need := match s.nodeOf slot i with | some n => n.indices.length | none => 0
    let vs := (sortBy (fun x y => lexLe (victimKey x) (victimKey y)) s.victims).filter fun v => s.savable v.2.1 v.2.2.1
    match takeVictims (need - s.freeCores.length) (vs.map fun v => (v.2.1, v.2.2.1, s.heldCores v.2.1 v.2.2.1)) with
    | none => s
    | some l => { l.foldl (fun s p => s.requestStop p.1 p.2) s with urgent := some (slot, i) }

/-- A decision: the ready nodes in order, and the pre-emption for an endangered one; none during a thermal stop, and none
after a boot that has stopped (R450). -/
def State.decide_ (s : State) : State :=
  if s.thermStop || s.bootFailed then s else (s.readyNodes.foldl State.tryStart s).preempt

def execDispatchDecision (s : State) : Res := .next s.decide_

/-! The start of a core job (R71, R72, R160, R306, R314, R336, R424). -/

/-- A generator at job start (R314). -/
def seedGen (n : Node) (index stream : Nat) : Gen :=
  let lo := (n.job.getD 12 0).toNat
  let hi := (n.job.getD 13 0).toNat
  let x0 := hi * 2 ^ 64 + lo
  let c := hi * 2 + 1
  ⟨BitVec.ofNat 128 (genJump x0 c (2 ^ 127 + (index * 4 + stream) * 2 ^ 96)), BitVec.ofNat 128 c, BitVec.ofNat 128 x0⟩

/-- A stream at job start: it fetches from its entry PC, in its window, if it is started (R73, R124). -/
def startStream (n : Node) (st : Nat) : StreamSt :=
  let (b, z) := if st = 0 then (0, 0) else jobWindow n.job st
  { StreamSt.reset with pc := n.job.getD st 0, started := jobStarts n.job st, winBase := b, winSize := z }

/-- S1 to S3 (R72). -/
def startRegs (n : Node) (index : Nat) : SMap Word :=
  setAll 0 [] [(1, BitVec.ofNat 64 (wfld (n.job.getD 8 0) 0 22)), (2, BitVec.ofNat 64 index), (3, BitVec.ofNat 64 n.csize)]

/-- A resumed job enters the handler at TVEC + 0x80 (R424), from the mode of its start, with no path failed (R416). -/
def Core.enterResume (c : Core) : Core :=
  let c := c.swapTrap
  let t := 2 ^ 29 + (if c.jobSup then 2 ^ 15 else 0) + 15 * 2 ^ 9 + 3 * 2 ^ 7
  { c with sup := true, cr := SMap.set 0 c.cr crTREC0 (BitVec.ofNat 64 t),
           sC := { c.sC with pc := c.creg crTVEC + 0x80 } }

/-- A placed core begins: every started stream fetches from here on. -/
def State.startCore (s : State) (n : Node) (k : Nat) : State :=
  let c := s.core k
  let index := wfld (c.creg crCOHORT) 0 10
  let s := (List.range 4).foldl (fun s i =>
    { s with clk := SMap.set [] s.clk (4 * k + i) [] }.learn (4 * k + i) (s.token dispAgent)) s
  let regs := startRegs n index
  let c := { c with
    st := .running, sC := startStream n 0, sA := startStream n 1, sV := startStream n 2, sM := startStream n 3,
    regC := regs, regA := regs, genC := seedGen n index 0, genA := seedGen n index 1, genV := seedGen n index 2,
    acq := s.rel.map fun (p : Nat × Nat) => (p.1, [(0, p.2)]) }
  s.setCore k (if c.resume then c.enterResume else c)

/-- The core, or in frame mode its whole cohort, starts. -/
def State.jobStart (s : State) (k : Nat) : State :=
  let c := s.core k
  if c.st ≠ .placed then s
  else match s.nodeOf c.slot c.node with
    | none => s
    | some n =>
      let l := if n.fm then n.cores.filter fun j => (s.core j).st == .placed && (s.core j).slot == c.slot && (s.core j).node == c.node
        else [k]
      l.foldl (fun s j => s.startCore n j) s

def execCoreJobStart (core : Nat) (s : State) : Res := .next (s.jobStart core)

/-! Thermal stops (R462). -/

/-- Running cohorts. -/
def State.runningCohorts (s : State) : List (Nat × Nat) :=
  s.graphs.flatMap fun p => p.2.nodes.zipIdx.filterMap fun q =>
    if q.1.kind = 0 && q.1.st == .running then some (p.1, q.2) else none

/-- What the sensors of the four compute dies read at a cycle, in 1/16 °C (R463). -/
def dieTemps (t : Nat) : List Int := [0x10, 0x11, 0x12, 0x13].map fun code => (Config.temperature t code).toInt

/-- A die reads 105 °C. -/
def diesHot (t : Nat) : Bool := (dieTemps t).any fun x => decide (1680 ≤ x)

/-- In each of the n cycles up to t every die reads at or below 95 °C. -/
def diesCool : Nat → Nat → Bool
  | 0, _ => true
  | n + 1, t => ((dieTemps t).all fun x => decide (x ≤ 1520)) && diesCool n (t - 1)

/-- Cycles of 1.7 GHz in 10 ms. -/
def coolCycles : Nat := 17000000

/-- The dies have been cool for 10 ms. -/
def State.cooled (s : State) : Bool := decide (coolCycles ≤ s.now) && diesCool coolCycles s.now

/-- Where a die reads 105 °C every running cohort is asked to stop; one without save areas ends, in frame mode at its
boundary. -/
def State.thermalBegin (s : State) : State :=
  if s.thermStop || !diesHot s.now then s
  else
    let s := { s with thermStop := true, smbus := SMap.set 0 s.smbus 0x22 3 }.interrupt 68
    s.runningCohorts.foldl (fun s p =>
      let fm := match s.nodeOf p.1 p.2 with | some n => n.fm | none => false
      if s.savable p.1 p.2 then s.requestStop p.1 p.2
      else if fm then s
      else s.abandonCohort p.1 p.2) s

def execThermalStopBegin (s : State) : Res := .next s.thermalBegin

/-- The stop ends when every die has read at or below 95 °C for 10 ms. -/
def execThermalStopEnd (s : State) : Res :=
  .next (if s.thermStop && s.cooled then
      { s with thermStop := false, smbus := SMap.set 0 s.smbus 0x22 (SMap.get 0 s.smbus 0x22 / 2 * 2) }.interrupt 68
    else s)

end Sys2Proof.Machine
end

