-- ==== Sys2Proof/Machine/Events.lean ====
section
/-! DEFINITION. Events of a core: held replies (R144), markers (R80), signals and mail to the coupled core (R76, R148),
LDQ arrivals (R146), user-level interrupts (R253), stops (R418), the pre-emption horizon (R425), energy (R436, R437,
R439), and writes of registers that are more than a CWR's storing (R99, R315, R405, R444, R445). -/

namespace Sys2Proof.Machine

/-- The core's engines and transfers go on: it runs, or HALT lets what has started run on. -/
def Core.goesOn (c : Core) : Bool := c.st == .running || c.st == .halting

/-! Replies and markers. -/

/-- A reply that waited for space is pushed, and its command retires; or a held reply at the head of its queue. On a core
that HALT has stopped nobody reads the queue any more: a command whose reply finds it full retires without it (R87, log
entry 102). -/
def State.replyPush (s : State) (k e : Nat) : State :=
  let c := s.core k
  let space := c.qHasSpace (8 + e)
  if !c.goesOn || !(space || c.st == .halting) || s.cohortHeld k then s
  else
    let push := fun (c : Core) (ent : QEnt) => if space then c.setQueue (8 + e) (c.queue (8 + e) ++ [ent]) else c
    match c.runOf e with
    | some r => match r.reply with
      | some ent => (s.setCore k (push c ent)).retireCmd k e r
      | none => s
    | none =>
      if (s.started k e).isSome then s
      else match c.equeue e with
        | m :: l => match m.kind with
          | .reply ent => (s.setCore k ((push c ent).setEqueue e l)).retireCmd k e (.ofCmd m)
          | _ => s
        | [] => s

def execEngineReplyPush (core e : Nat) (s : State) : Res := .next (s.replyPush core e)

/-- A marker retires: Jn loses the engine where the generations agree, and fires with the last one (R80). -/
def Core.retireMarker (c : Core) (m : Cmd) (e j gen : Nat) : Core :=
  let r := SMap.get Rdv.reset c.rdv j
  let c := if r.gen = gen && r.pend.testBit e then
      let pend := r.pend - 2 ^ e
      let r' := { r with pend := pend, fired := decide (pend = 0), clk := joinClk r.clk m.clk }
      { c with rdv := SMap.set .reset c.rdv j r' }
    else c
  -- its MARK is passed in a replay when none of its markers is left (R420)
  if (List.range 6).any fun n => (c.equeue n).any fun x => x.id == m.id then c else c.markStarted m.id

/-- Everything ahead of the marker at the head of a queue has retired: for the matrix engine, the nests that were started
before its MARK (R80). -/
def State.nothingAhead (s : State) (k e : Nat) (m : Cmd) : Bool :=
  let c := s.core k
  if e = 5 then c.nest.isNone || decide (m.w0.toNat < c.nestNo) else (s.started k e).isNone

def State.markerEvent (s : State) (k e : Nat) : State :=
  let c := s.core k
  if !c.goesOn || s.cohortHeld k then s
  else match c.equeue e with
    | m :: l => match m.kind with
      | .marker j gen => if s.nothingAhead k e m then s.setCore k ((c.setEqueue e l).retireMarker m e j gen) else s
      | _ => s
    | [] => s

def execMarkerRetire (core e : Nat) (s : State) : Res := .next (s.markerEvent core e)

/-! The coupled core. -/

/-- The oldest raise on the way lands, or is SIGOV at the core that raised it. -/
def State.signalArrival (s : State) (k : Nat) : State :=
  let c := s.core k
  match s.mate k, c.flight with
  | .gone, _ :: l => s.setCore k { c with flight := l }
  | .there j, (n, cnt, st, tok) :: l =>
    let (s, ov) := (s.setCore k { c with flight := l }).landRaise j n cnt tok
    if ov then s.takeFault k (sigov st) false else s
  | _, _ => s

def execCoupledSignalArrival (core : Nat) (s : State) : Res := .next (s.signalArrival core)

/-- The head of q14 moves to the partner's q13 and raises the counter that its MBSEND names (R148). -/
def State.mailbox (s : State) (k : Nat) : State :=
  let c := s.core k
  match s.mate k, c.queue 14 with
  | .gone, _ :: l => s.setCore k (c.setQueue 14 l)
  | .there j, e :: l =>
    if !(s.core j).qHasSpace 13 then s
    else
      let s := s.setCore k (c.setQueue 14 l)
      let d := s.core j
      let s := s.setCore j (d.setQueue 13 (d.queue 13 ++ [{ e with g := 0 }]))
      if e.g = 0 then s
      else
        let (s, ov) := s.landRaise j e.g 1 e.clk
        if ov then s.takeFault k (sigov 0) false else s
  | _, _ => s

def execMailboxTransfer (core : Nat) (s : State) : Res := .next (s.mailbox core)

/-! LDQ arrivals (R146). -/

/-- The oldest reserved entry of a queue has its bytes. -/
def arriveFirst : List QEnt → List QEnt
  | [] => []
  | e :: l => if e.ready then e :: arriveFirst l else { e with ready := true } :: l

/-- The entry becomes poppable, and its LDQ retires with its signal (R74, R76). -/
def State.ldqArrival (s : State) (k q : Nat) : State :=
  let c := s.core k
  match (c.queue q).find? fun e => !e.ready with
  | none => s
  | some e =>
    let s := s.setCore k (c.setQueue q (arriveFirst (c.queue q)))
    let (s, ov) := s.applyRaises k 1 (raises ⟨0, e.g, .always⟩ fall true) e.clk
    if ov then s.takeFault k (sigov 1) false else s

def execLdqDataArrival (core q : Nat) (s : State) : Res := .next (s.ldqArrival core q)

/-! Interrupts and stops. -/

def execUserInterruptEntry (core : Nat) (s : State) : Res :=
  .next (if !s.stopDue core && s.uiReady core && (s.core core).betweenWords then s.uiEntry core else s)

/-- A stop that has waited in free mode is taken when it is due. -/
def execCoreStop (core : Nat) (s : State) : Res := .next (if s.stopDue core then s.takePending core else s)

/-- The horizon has passed with no PPOINT (R425): the core stops, in frame mode at the boundary and in free mode when M
is at a retirement point. -/
def State.horizonStop (s : State) (k : Nat) : State :=
  let c := s.core k
  let waits := match c.pend with | some p => p.kind ≠ 0 | none => false
  if c.st ≠ .running || c.act || c.horizon ≠ some 0 || waits then s
  else
    let c := c.liveAll
    let s := s.setCore k c
    if !c.frame && c.atRetirement then s.coreStop k none 2 s.thermStop
    else s.setCore k { c with pend := some { c.pend.getD ⟨none, 0, false, none, none⟩ with kind := 2, th := s.thermStop } }

def execPreemptHorizon (core : Nat) (s : State) : Res := .next (s.horizonStop core)

/-! Energy. -/

/-- An island's counter takes what it has drawn since the last update, which is measured (R436): the amount. -/
def State.drawEnergy (s : State) (i : Nat) : State × Nat :=
  let e := Config.energy s.draws i
  ({ s with draws := s.draws + 1, islands := SMap.set 0 s.islands i ((SMap.get 0 s.islands i + e) % 2 ^ 64) }, e)

/-- The stop of an exhausted allotment (R437). -/
def energyFault (used budget : Word) : FaultInfo := ⟨fcENERGY, used, budget, 15, 0, 0, none, none, none⟩

/-- ENUSED ≥ ENBUDGET ≠ 0 is a stop, in frame mode at the boundary; while the handler runs it waits (R423). -/
def State.checkEnergy (s : State) (k : Nat) : State :=
  let c := s.core k
  let used := c.creg crENUSED
  let budget := c.creg crENBUDGET
  if budget = 0 || used.toNat < budget.toNat || c.st ≠ .running || c.act then s
  else if c.frame then
    let p := c.pend.getD ⟨none, 0, false, none, none⟩
    s.setCore k { c with pend := some { p with fault := lowest (some (energyFault used budget)) p.fault } }
  else s.coreStop k (some (energyFault used budget)) 0 false

/-- Both islands of a core, and the supply domain of its base die; of a job, ENUSED in whole microjoules with the remainder
carried. -/
def State.enUpdate (s : State) (k : Nat) : State :=
  let (s, e1) := s.drawEnergy (2 * k)
  let (s, e2) := s.drawEnergy (2 * k + 1)
  let s := (s.drawEnergy (1024 + k / 128)).1
  let c := s.core k
  if !c.goesOn then s
  else
    let n := c.enRem + e1 + e2
    let c := { c.setCreg crENUSED (c.creg crENUSED + BitVec.ofNat 64 (n / 1000)) with enRem := n % 1000 }
    (s.setCore k c).checkEnergy k

def execEnusedUpdate (core : Nat) (s : State) : Res := .next (s.enUpdate core)

/-- Cycles of 1.7 GHz in 1 ms. -/
def poolCycles : Nat := 1700000

/-- The sum of all energy counters (R436), modulo 2^64. -/
def State.energySum (s : State) : Nat := (s.islands.map Prod.snd).sum % 2 ^ 64

/-- PWR in W of the interval that ends (R463): nanojoules of 1 ms over 10^6. -/
def State.power (s : State) : Nat := (s.energySum + 2 ^ 64 - s.energyMark) % 2 ^ 64 / 1000000 % 2 ^ 16

/-- The 1 ms boundary (R439); the base dies' supply domains count on (R436), and PWR takes the interval's power (R463). -/
def execPoolInterval (s : State) : Res :=
  .next (if s.poolAge < poolCycles then s
    else
      let s := (List.range 4).foldl (fun s x => (s.drawEnergy (1024 + x)).1) s
      { s with poolAge := s.poolAge - poolCycles, energyMark := s.energySum,
               smbus := SMap.set 0 s.smbus 0x18 s.power,
               pool := setAll 0 s.pool ((List.range 4).map fun c =>
                 (c, min (SMap.get 0 s.pool c + SMap.get 0 s.grant c) (SMap.get 0 s.ceil c))) })

/-! Register writes. -/

/-- Run an operation as C of core k; one that waits or faults leaves the state. -/
def State.asCore (s : State) (k : Nat) (op : Op Unit) : State :=
  match op.run { s with curCore := k, curStream := .c } with
  | .ok (_, t) => { t with curCore := s.curCore, curStream := s.curStream }
  | .error _ => s

def execSmpposWrite (core : Nat) (v : Word) (s : State) : Res := .next (s.asCore core (cwr crSMPPOS v))
def execSmpstWrite (core : Nat) (v : Word) (s : State) : Res := .next (s.asCore core (cwr crSMPST v))
def execGdataWrite (core : Nat) (v : Word) (s : State) : Res := .next (s.asCore core (cwr crGDATA v))
def execElogsClear (core : Nat) (s : State) : Res := .next (s.asCore core (cwr 0x092 0))
def execEinjWrite (core : Nat) (v : Word) (s : State) : Res := .next (s.asCore core (cwr crEINJ v))

/-- CRETIRE's 8-byte register k of 0 to 7: set-only, by a supervisor that is not the host path; else PROT at the
writer, and nothing is written (R446). -/
def execCretireWrite (sup host : Bool) (k : Nat) (v : Word) (s : State) : Res :=
  .next (if sup && !host && k < 8 then s.ctlWrite (ctlCretire + 8 * k) v.toNat else s)

/-- Word k of 0 to 127 of the region table: by the secure world; else PROT at the writer (R448). -/
def execRegionTableWrite (sec : Bool) (k : Nat) (v : Word) (s : State) : Res :=
  .next (if sec && k < 128 then s.ctlWrite (ctlRegions + 8 * k) v.toNat else s)

/-- THERM over SMBus: a write of 0 clears `occurred` (R463). -/
def execThermWrite (v : Nat) (s : State) : Res :=
  .next (if v % 256 = 0 then { s with smbus := SMap.set 0 s.smbus 0x22 (if s.thermStop then 1 else 0) } else s)

/-- Pileus launches a graph under a root, with any values of sv and sec (R294, R450); a boot that has stopped launches
nothing. -/
def State.pileusLaunch (s : State) (root : Word) (va : Nat) : State :=
  if s.bootFailed then s
  else
  let a : Acc := { path := 0, agent := dispAgent, own := none, allot := false, tlb := .none, sup := true, sec := true, root := root,
                   vis := [], writer := none, st := 0, tag := 0, cmd := none }
  (s.launchGraph a true va).1

/-- Registers of the firmware's own making, by the model's numbers (log entry 5): LROOTi, the jobs' trap vector, the root
for fabric access, the package id, whether the host link completes accesses, a free save area of n - 2^54 bytes, and a launch by Pileus under the root n - 2^55 (R294,
R415, R416, R453, R457, R460). -/
def State.firmwareWrite (s : State) (n : Nat) (v : Word) : State :=
  let base := 2 ^ 52 + 0x100
  if base ≤ n && n < base + 128 then
    let i := (n - base) / 8
    { s with launch := SMap.set ⟨false, 0, 0, 0⟩ s.launch i { SMap.get ⟨false, 0, 0, 0⟩ s.launch i with root := v &&& BitVec.ofNat 64 (2 ^ 52 - 1) } }
  else if n = 2 ^ 53 + 8 then { s with tvec := v &&& BitVec.ofNat 64 (2 ^ 64 - 128) }
  else if n = 2 ^ 53 + 16 then { s with fabRoot := v &&& BitVec.ofNat 64 (2 ^ 52 - 1) }
  else if n = 2 ^ 53 + 24 then { s with pkgId := v.toNat % 65536, peers := [] }
  else if n = 2 ^ 53 + 32 then { s with linkUp := v.getLsbD 0 }
  else if 2 ^ 54 < n && n < 2 ^ 54 + 2 ^ 53 then
    { s with savePool := s.savePool ++ [(v &&& BitVec.ofNat 64 (2 ^ 64 - 64), n - 2 ^ 54)] }
  else if 2 ^ 55 ≤ n && n < 2 ^ 55 + 2 ^ 52 then s.pileusLaunch (BitVec.ofNat 64 (n - 2 ^ 55)) v.toNat
  else s

/-- Control registers by number, the command ports and bank formats by virtual address, the control space by physical
address (R99, R222, R239, R438, R440, R443), and Overcast's. -/
def State.registerWrite (s : State) (core n : Nat) (v : Word) : State :=
  if n < 0x400 then s.asCore core (cwr n v)
  else if 0x400000 ≤ n && n < 0x410000 then s.asCore core (mmioWrite n v)
  else if ctlPools ≤ n && n < 0x050000000000 then
    if (ctlRegions ≤ n && n < ctlRegions + 0x400) || (ctlCretire ≤ n && n < ctlCretire + 64) then s
    else s.ctlWrite (n / 8 * 8) v.toNat
  else s.firmwareWrite n v

def execRegisterWrite (core n : Nat) (v : Word) (s : State) : Res := .next (s.registerWrite core n v)

end Sys2Proof.Machine
end

