-- ==== Sys2Proof/Machine/Fabric.lean ====
section
/-! DEFINITION. The Tarostuo fabric (R457 to R460): fabric nodes, the sequence spaces towards the peers, what frames from a
peer do, and timeouts. The frames that leave stand in `State.frames`. -/

namespace Sys2Proof.Machine

/-! Frames (R458). -/

/-- The flg field: last, fmt and sy, and the radd flags of an ack. -/
def frameFlg (f : Frame) : Nat := f.last.toNat + 2 * f.fmt.toNat + 4 * f.sy.toNat + 256 * (f.flags % 128)

/-- The 32-byte transport header, little-endian. -/
def frameHeader (f : Frame) : List Byte :=
  leBytes 1 f.ver ++ leBytes 1 f.op ++ leBytes 2 f.src ++ leBytes 2 f.dst ++ leBytes 2 (frameFlg f) ++ leBytes 4 f.seq
    ++ leBytes 4 f.mid ++ leBytes 8 f.off ++ leBytes 4 f.len ++ leBytes 4 f.ack

/-- The payload of a frame: the header, the rsync word where there is one, and the data. -/
def framePayload (f : Frame) : List Byte := frameHeader f ++ (if f.sy then leBytes 8 f.rsync else []) ++ f.data

/-- A frame carries data: put, get data and radd. -/
def carriesData (op : Nat) : Bool := op = 0 || op = 2 || op = 3

/-- The frame of a payload: what follows its data is padding. None where the header or the data are not whole. -/
def frameOf (l : List Byte) : Option Frame :=
  let g := fun (o n : Nat) => leNat ((l.drop o).take n)
  let flg := g 6 2
  let sy := flg.testBit 2
  let op := g 1 1
  let len := g 24 4
  let data := l.drop (if sy then 40 else 32)
  if l.length < (if sy then 40 else 32) || (carriesData op && data.length < len) then none
  else some ⟨g 0 1, op, g 2 2, g 4 2, flg.testBit 0, flg.testBit 1, sy, fld flg 8 7, g 8 4, g 12 4, g 16 8, len, g 28 4,
    if sy then g 32 8 else 0, if carriesData op then data.take len else []⟩

/-- The payloads of the frames that have left. -/
def State.wire (s : State) : List (List Byte) := s.frames.map framePayload

/-! Peers (R459). -/

def Peer.reset : Peer := ⟨0, [], 0, [], [], 0, 0, 0, []⟩

def State.peer (s : State) (p : Nat) : Peer := SMap.get .reset s.peers p

def State.setPeer (s : State) (p : Nat) (x : Peer) : State := { s with peers := SMap.set .reset s.peers p x }

/-- Frames that may stand unacknowledged (R459). -/
def fabWindow : Nat := 4096

/-- Data bytes of a frame that is not the last: a multiple of every element's width, with room for the rsync word. -/
def fabChunk : Nat := 9176

/-- A numbered frame leaves for a peer. -/
def State.sendFrame (s : State) (p : Nat) (f : Frame) : State :=
  let x := s.peer p
  let f := { f with ver := 1, src := s.pkgId, dst := p, seq := x.sendSeq }
  let s := s.setPeer p { x with sendSeq := (x.sendSeq + 1) % 2 ^ 32, unacked := x.unacked ++ [f] }
  { s with frames := s.frames ++ [f] }

/-- An ack (4) or a nak (5) leaves: the next expected number, and the flags of radd roundings. `bad` reports that a
landing failed (log entry 80). -/
def State.sendControl (s : State) (p op flags : Nat) (bad : Bool) : State :=
  { s with frames := s.frames ++
      [⟨1, op, s.pkgId, p, false, bad, false, flags, 0, 0, 0, 0, (s.peer p).expect, 0, []⟩] }

/-- A data frame or a request, before it is numbered. -/
def dataFrame (op : Nat) (last fmt : Bool) (rsync mid off len : Nat) (data : List Byte) : Frame :=
  ⟨1, op, 0, 0, last, fmt, rsync != 0, 0, 0, mid, off, len, 0, rsync, data⟩

/-! Nodes (R460). -/

/-- The fabric node ends with a fault code or 0. -/
def State.endFab (s : State) (f : FabNode) (code : Nat) : State :=
  let s := s.performOwn (cmdAgent f.mid) allPaths
  { s with fabNode := none }.endNode f.slot f.node code 0

/-- The next frame of a put or a radd: its bytes are read on path 9. -/
def State.sendPart (s : State) (g : Graph) (f : FabNode) : State :=
  let left := f.len - f.sent
  let last := left ≤ if f.rsync = 0 then 9184 else fabChunk
  let n := if last then left else fabChunk
  match (readBytes (g.nodeAcc 9 f.mid .fab) false ((f.laddr + f.sent) % 2 ^ 64) n).run s with
  | .error e => (s.noteStop e).endFab f e.code
  | .ok (b, s) =>
    let seq := (s.peer f.peer).sendSeq
    let frame := dataFrame (if f.op = 0 then 0 else 3) last (f.op == 2 && f.fmt == 1) (if last then f.rsync else 0)
      (f.mid % 2 ^ 32) ((f.raddr + f.sent) % 2 ^ 64) n b
    { s.sendFrame f.peer frame with fabNode := some { f with sent := f.sent + n, last := if last then some seq else none } }

/-- The engine moves the node that it serves: one frame. -/
def State.fabStep (s : State) (slot node op : Nat) : State :=
  match s.fabNode, s.graph slot with
  | some f, some g =>
    if f.slot ≠ slot || f.node ≠ node || f.op ≠ op || f.last.isSome || fabWindow ≤ (s.peer f.peer).unacked.length then s
    else if op = 1 then
      let seq := (s.peer f.peer).sendSeq
      let frame := dataFrame 1 true false f.rsync (f.mid % 2 ^ 32) f.raddr f.len []
      { s.sendFrame f.peer frame with fabNode := some { f with last := some seq, quiet := 0 } }
    else s.sendPart g f
  | _, _ => s

def execFabricPut (slot node : Nat) (s : State) : Res := .next (s.fabStep slot node 0)
def execFabricGet (slot node : Nat) (s : State) : Res := .next (s.fabStep slot node 1)
def execFabricRadd (slot node : Nat) (s : State) : Res := .next (s.fabStep slot node 2)

/-! What a peer reaches here. -/

/-- How a peer's operation accesses memory: on path 9, under the root that Overcast sets for fabric access. -/
def State.remoteAcc (s : State) : Acc :=
  { path := 9, agent := fabAgent, own := none, allot := false, tlb := .fab, sup := false, sec := false, root := s.fabRoot,
    vis := [], writer := none, st := 0, tag := 0, cmd := none }

/-- Run a landing: a fault of it leaves nothing and is reported. -/
def State.landing (s : State) (op : Op Unit) : State × Bool :=
  match op.run s with
  | .ok (_, t) => (t.performOwn fabAgent allPaths, false)
  | .error e => (s.noteStop e, true)

/-- The release that follows a landing (R334, R460). -/
def rsyncOp (a : Acc) (va : Nat) : Op Unit := do
  let pa ← bankTarget a .rmw va 16
  let o ← bankRead a va pa 16
  bankWrite a va pa (syncBytes ((leNat (o.take 8) + 1) % 2 ^ 64) 0xFFFF 9)
  modify fun s => s.release 512 fabAgent pa

/-- remote + local for each element, and the flags. -/
def raddBytes (fmt : Bool) : Nat → List Byte → List Byte → List Byte × Flags
  | 0, _, _ => ([], 0)
  | n + 1, old, new =>
    let w := if fmt then 4 else 8
    let f := if fmt then fmt32 else fmt64
    let (v, fl) := fAdd f .rne (f.unpack (leNat (old.take w))) (f.unpack (leNat (new.take w)))
    let (r, fl') := raddBytes fmt n (old.drop w) (new.drop w)
    (leBytes w v ++ r, fl ||| fl')

/-- A put frame's bytes land, or a radd frame's elements are added: the flags of the roundings. -/
def landOp (a : Acc) (f : Frame) : Op Flags := do
  if f.op = 0 then do
    writeBytes a false f.off (f.data.take f.len)
    return 0
  else do
    let n := f.len / if f.fmt then 4 else 8
    let old ← readBytes a false f.off (n * if f.fmt then 4 else 8)
    let (b, fl) := raddBytes f.fmt n old f.data
    writeBytes a false f.off b
    return fl

/-- The message that a frame belongs to. -/
def Peer.msgOf (x : Peer) (mid : Nat) : Msg := (x.msgs.find? fun m => m.mid == mid).getD ⟨mid, 0, false⟩

def Peer.setMsg (x : Peer) (m : Msg) (gone : Bool) : Peer :=
  { x with msgs := (x.msgs.filter fun y => y.mid ≠ m.mid) ++ if gone then [] else [m] }

/-- Note what an accepted put or radd frame has to report, for an ack that may have to be sent again; a message's first frame
starts anew, for its sender had the message before acknowledged. -/
def Peer.note (x : Peer) (fresh : Bool) (seq flags : Nat) (bad : Bool) : Peer :=
  let l := (if fresh then [] else x.landed) ++ [(seq, flags, bad)]
  { x with landed := l.drop (l.length - fabWindow) }

/-- What an ack again of frame seq covers: the flags and failures of the frames accepted from it on (R458). -/
def Peer.reports (x : Peer) (seq : Nat) : Nat × Bool :=
  (x.landed.filter fun p => decide ((p.1 + 2 ^ 32 - seq) % 2 ^ 32 < 2 ^ 31)).foldl
    (fun r p => (r.1 ||| p.2.1, r.2 || p.2.2)) (0, false)

/-- A put or radd frame in its turn: it lands, the release follows the message's last frame, and an ack is sent. -/
def State.landData (s : State) (f : Frame) : State :=
  let a := s.remoteAcc
  let fresh := !((s.peer f.src).msgs.any fun m => m.mid == f.mid)
  let m := (s.peer f.src).msgOf f.mid
  let m := { m with rsync := if f.sy then f.rsync else m.rsync }
  let (s, bad, fl) := match (landOp a f).run s with
    | .ok (fl, t) => (t.performOwn fabAgent allPaths, false, fl)
    | .error e => (s.noteStop e, true, (0 : Flags))
  let m := { m with bad := m.bad || bad }
  let (s, bad) := if f.last && m.rsync ≠ 0 && !m.bad then s.landing (rsyncOp a m.rsync) else (s, bad)
  let bad := m.bad || bad
  let s := s.setPeer f.src (((s.peer f.src).setMsg m f.last).note fresh f.seq fl.toNat bad)
  s.sendControl f.src 4 fl.toNat bad

/-- The next data frame of a get that a peer asked for; one that cannot be read ends the answer. -/
def State.answerFrame (s : State) (p : Nat) (x : Answer) : State × Answer :=
  let n := min x.left 9184
  let seq := (s.peer p).sendSeq
  match (readBytes s.remoteAcc false (x.addr % 2 ^ 64) n).run s with
  | .ok (b, t) =>
    let last := n == x.left
    (t.sendFrame p (dataFrame 2 last false 0 x.mid x.off n b),
      { x with addr := x.addr + n, off := x.off + n, left := x.left - n, last := if last then some seq else none })
  | .error e => ((s.noteStop e).sendFrame p (dataFrame 2 true true 0 x.mid x.off 0 []), { x with left := 0, rsync := 0, last := some seq })

/-- Answers go on while the window has room. -/
def State.serve (s : State) (p : Nat) : Nat → State
  | 0 => s
  | fuel + 1 =>
    let x := s.peer p
    if fabWindow ≤ x.unacked.length then s
    else match x.answers.find? fun y => y.last.isNone with
      | none => s
      | some y =>
        let (s, y') := s.answerFrame p y
        let x := s.peer p
        (s.setPeer p { x with answers := x.answers.map fun z => if z.mid = y.mid then y' else z }).serve p fuel

/-- A get request in its turn (R459). -/
def State.landRequest (s : State) (f : Frame) : State :=
  let x := s.peer f.src
  let s := s.setPeer f.src { x with answers := x.answers ++ [⟨f.mid, f.off, 0, f.len, if f.sy then f.rsync else 0, none⟩] }
  (s.sendControl f.src 4 0 false).serve f.src fabWindow

/-- The bytes of a get's data frame land at the requester, and are performed for every path; the last one ends the node. -/
def State.landPart (s : State) (f : Frame) (n : FabNode) : State :=
  match s.graph n.slot with
  | none => s
  | some g =>
    let n := { n with bad := n.bad || f.fmt, quiet := 0 }
    match (writeBytes (g.nodeAcc 9 n.mid .fab) false ((n.laddr + f.off) % 2 ^ 64) (f.data.take f.len)).run s with
    | .ok (_, t) =>
      let t := t.performOwn (cmdAgent n.mid) allPaths
      if f.last then t.endFab n (if n.bad then fcPROT else 0) else { t with fabNode := some n }
    | .error e => (s.noteStop e).endFab n e.code

/-- A data frame of a get in its turn: it lands, and then the ack is sent (R459). -/
def State.landGet (s : State) (f : Frame) : State :=
  let s := match s.fabNode with
    | some n => if n.op = 1 && n.peer = f.src && n.mid % 2 ^ 32 = f.mid then s.landPart f n else s
    | none => s
  s.sendControl f.src 4 0 false

/-- A numbered frame: accepted in its turn; one ahead of it is answered with a nak, one behind with the ack again and what
that covers. -/
def State.receive (s : State) (f : Frame) (land : State → Frame → State) : State :=
  if f.ver ≠ 1 || f.dst ≠ s.pkgId then s
  else
    let x := s.peer f.src
    if f.seq = x.expect then land (s.setPeer f.src { x with expect := (x.expect + 1) % 2 ^ 32 }) f
    else if (f.seq + 2 ^ 32 - x.expect) % 2 ^ 32 < 2 ^ 31 then s.sendControl f.src 5 0 false
    else
      let (flags, bad) := x.reports f.seq
      s.sendControl f.src 4 flags bad

def execPutData (f : Frame) (s : State) : Res := .next (s.receive f State.landData)
def execGetRequest (f : Frame) (s : State) : Res := .next (s.receive f State.landRequest)
def execGetData (f : Frame) (s : State) : Res := .next (s.receive f State.landGet)
def execRaddData (f : Frame) (s : State) : Res := .next (s.receive f State.landData)

/-! Acks, naks and timeouts (R459). -/

/-- An ack of `next` covers a frame's number. -/
def covered (next seq : Nat) : Bool :=
  let d := (next + 2 ^ 32 - seq) % 2 ^ 32
  1 ≤ d && d ≤ fabWindow

/-- The put or radd in progress takes an ack: its flags, a failure that it reports, and its end with the last frame. -/
def State.ackNode (s : State) (f : Frame) : State :=
  match s.fabNode with
  | none => s
  | some n =>
    if n.op = 1 || n.peer ≠ f.src then s
    else
      let n := { n with bad := n.bad || f.fmt }
      let s := { s with fabNode := some n }.modNode n.slot n.node fun x => { x with flags := x.flags ||| BitVec.ofNat 7 f.flags }
      match n.last with
      | some l => if covered f.ack l then s.endFab n (if n.bad then fcPROT else 0) else s
      | none => s

/-- Answers whose last frame is covered have landed: their objects are released. -/
def State.ackAnswers (s : State) (f : Frame) : State :=
  let x := s.peer f.src
  let spent := fun (y : Answer) => match y.last with | some l => covered f.ack l | none => false
  let s := s.setPeer f.src { x with answers := x.answers.filter fun y => !spent y }
  (x.answers.filter fun y => spent y && y.rsync ≠ 0).foldl (fun s y => (s.landing (rsyncOp s.remoteAcc y.rsync)).1) s

def State.takeAck (s : State) (f : Frame) : State :=
  if f.ver ≠ 1 || f.dst ≠ s.pkgId then s
  else
    let x := s.peer f.src
    let rest := x.unacked.filter fun u => !covered f.ack u.seq
    -- an ack that covers nothing new repeats what an earlier one has reported
    if rest.length = x.unacked.length then s.serve f.src fabWindow
    else
      let s := s.setPeer f.src { x with unacked := rest, quiet := 0, stalled := 0 }
      let s := { s with fabNode := s.fabNode.map fun (n : FabNode) => if n.peer = f.src then { n with quiet := 0 } else n }
      ((s.ackNode f).ackAnswers f).serve f.src fabWindow

def execFabricAck (f : Frame) (s : State) : Res := .next (s.takeAck f)

/-- Resend in order from the named frame. -/
def execFabricNak (f : Frame) (s : State) : Res :=
  .next (if f.ver ≠ 1 || f.dst ≠ s.pkgId then s
    else
      let x := s.peer f.src
      let l := x.unacked.dropWhile fun u => u.seq != f.ack
      { s.setPeer f.src { x with quiet := 0 } with frames := s.frames ++ l })

/-- 100 µs and 10 ms at 1.7 GHz. -/
def resendCycles : Nat := 170000
def failCycles : Nat := 17000000

/-- With no ack within 100 µs every unacknowledged frame is sent again. -/
def execFabricRetransmitTimeout (peer : Nat) (s : State) : Res :=
  let x := s.peer peer
  .next (if x.unacked.isEmpty || x.quiet < resendCycles then s
    else { s.setPeer peer { x with quiet := 0 } with frames := s.frames ++ x.unacked })

/-- The frames towards the peer have made no progress for 10 ms. -/
def Peer.failed (x : Peer) : Bool := !x.unacked.isEmpty && decide (failCycles ≤ x.stalled)

/-- The data frames of a get have made none, whose request has been sent. -/
def FabNode.failed (n : FabNode) (peer : Nat) : Bool :=
  n.op == 1 && n.peer == peer && n.last.isSome && decide (failCycles ≤ n.quiet)

/-- After 10 ms without progress the operation fails with HOSTERR (R457, R459). -/
def execFabricFailureTimeout (peer : Nat) (s : State) : Res :=
  let x := s.peer peer
  let s' := if x.failed then s.setPeer peer { x with unacked := [], answers := [], quiet := 0, stalled := 0 } else s
  .next (match s.fabNode with
    | some n => if (x.failed && n.peer = peer) || n.failed peer then s'.endFab n fcHOSTERR else s'
    | none => s')

/-- A frame of an operation 6 to 255 is dropped (R458). -/
def execFabricFrameDropped (_f : Frame) (s : State) : Res := .next s

end Sys2Proof.Machine
end

