-- ==== Sys2Proof/Machine/HostLink.lean ====
section
/-! DEFINITION. The host's side (R300, R339, R452 to R456), the SMBus registers (R463), boot and attestation (R450, R451),
soft errors (R441) and the failure of the link (R456). -/

namespace Sys2Proof.Machine

/-! The memory window (R452, R456). -/

/-- How the host accesses memory: on path 10, as a non-secure accessor of physical addresses. -/
def hostAcc (root : Word) : Acc :=
  { path := 10, agent := hostAgent, own := none, allot := false, tlb := .none, sup := false, sec := false, root := root,
    vis := [], writer := none, st := 0, tag := 0, cmd := none }

/-- Every byte lies in the window, in a tier, and in a non-secure region. -/
def State.hostOk (s : State) (addr n : Nat) : Bool :=
  addr + n ≤ 0x030000000000 &&
    (List.range n).all fun i =>
      (match tierOf (addr + i) with | some .scratch | some .dram | some .lpddr => true | _ => false) && s.nonSecure (addr + i)

/-- The aligned 8-byte units of an access: start and length of the covered part. -/
def hostUnits : Nat → Nat → Nat → List (Nat × Nat)
  | 0, _, _ => []
  | _, _, 0 => []
  | fuel + 1, addr, n =>
    let k := min n (8 - addr % 8)
    (addr, k) :: hostUnits fuel (addr + k) (n - k)

/-- A host read: its bytes; an error where it meets poisoned data. -/
def hostReadOp (addr n : Nat) : Op (List Byte) := do
  let a := hostAcc 0
  eccCheckRead a addr addr n
  let l ← (hostUnits n addr n).mapM fun u => readUnit a none u.1 u.2
  return l.flatten

/-- A host write, unit by unit. -/
def hostWriteOp (addr : Nat) (data : List Byte) : Op Unit := do
  let a := hostAcc 0
  eccCheckWrite a addr addr data.length
  (hostUnits data.length addr data.length).forM fun u => writeUnit a none u.1 ((data.drop (u.1 - addr)).take u.2)

/-- A failed read answers all ones. -/
def execHostMemoryRead (addr n : Nat) (s : State) : Res :=
  .next (
    let ones := List.replicate n (0xFF : Byte)
    if !s.hostOk addr n then { s.hostError 1 false addr with hostReads := s.hostReads ++ [ones] }
    else match (hostReadOp addr n).run s with
      | .ok (b, t) => { t with hostReads := t.hostReads ++ [b] }
      | .error e => { (s.noteStop e).hostError 1 true addr with hostReads := s.hostReads ++ [ones] })

def execHostMemoryWrite (addr : Nat) (data : List Byte) (s : State) : Res :=
  .next (if !s.hostOk addr data.length then s.hostError 1 false addr
    else match (hostWriteOp addr data).run s with
      | .ok (_, t) => t
      | .error e => (s.noteStop e).hostError 1 true addr)

/-! Launch registers (R453, R454). -/

def Launch.reset : Launch := ⟨false, 0, 0, 0⟩

/-- A store to LAUNCHi: any form but an aligned 8-byte store is an error whose address the manual does not state. -/
def execLaunchStore (i : Nat) (form8 : Bool) (addr : Word) (s : State) : Res :=
  let l := SMap.get Launch.reset s.launch i
  .next (if !form8 then { s with draws := s.draws + 1 }.hostError 2 false (Config.freeWord s.draws).toNat
    else if 16 ≤ i || l.busy then s
    else { s with launch := SMap.set .reset s.launch i { l with busy := true, addr := addr } })

/-- The dispatcher decides: the host's earlier stores are performed before the records are read (R339). After a boot that
has stopped it does not run (R450). -/
def State.decideLaunch (s : State) (i : Nat) : State :=
  let l := SMap.get Launch.reset s.launch i
  if !l.busy || s.bootFailed then s
  else
    let s := s.performOwn hostAgent allPaths
    let (s, code, slot) := s.launchGraph (hostAcc l.root) false l.addr.toNat
    let s := s.learn dispAgent (s.token hostAgent)
    { s with launch := SMap.set .reset s.launch i { l with busy := false, result := launchResult code slot } }

def execLaunchDecision (i : Nat) (s : State) : Res := .next (s.decideLaunch i)

/-- What a load of LAUNCHi returns (R295). -/
def Launch.shown (l : Launch) : Word := if l.busy then BitVec.ofNat 64 (2 ^ 63) else l.result

/-! Callbacks (R300). -/

/-- CBHEAD and CBARG. -/
def State.cbHead (s : State) : Word × Word :=
  match s.callbacks with
  | (slot, node, arg) :: _ => (BitVec.ofNat 64 (2 ^ 63 + slot % 64 * 2 ^ 12 + node % 4096), arg)
  | [] => (0, 0)

def execCbpopStore (s : State) : Res := .next { s with callbacks := s.callbacks.tail }

/-- A store to CBDONE ends a running callback node; the host's earlier stores are performed first. -/
def execCbdoneStore (v : Word) (s : State) : Res :=
  let slot := wfld v 12 6
  let node := wfld v 0 12
  .next (match s.nodeOf slot node with
    | some n =>
      if n.kind = 4 && n.st == .running && n.ended.isEmpty then
        let s := (s.performOwn hostAgent allPaths).learn dispAgent (s.token hostAgent)
        s.endNode slot node (wfld v 56 8) 0
      else s.hostError 3 false 0
    | none => s.hostError 3 false 0)

/-! Status registers. -/

def execHintstClear (mask : Word) (s : State) : Res := .next { s with hintst := s.hintst &&& ~~~mask }

def execHerrClear (s : State) : Res := .next { s with herr := 0 }

/-- The link goes down or exhausts its retries: accesses to host memory end in HOSTERR (R456), until it completes accesses
again (log entry 6). An access that misses its padding (R309) is one meanwhile. -/
def execSwiverLinkFailure (s : State) : Res := .next { s with linkUp := false }

/-! SMBus (R463). -/

/-- A read of a command code; the management window shows the same (R452). -/
def State.smbusRead (s : State) (code : Nat) : Nat :=
  match code with
  | 0x00 => 0x0880
  | 0x01 => 0xB1
  | 0x20 => s.boot
  | 0x21 => popCount s.cretire.toNat 512
  | 0x10 | 0x11 | 0x12 | 0x13 | 0x14 => (Config.temperature s.now code).toNat
  | 0x18 => SMap.get 0 s.smbus code % 2 ^ 16
  | 0x22 => SMap.get 0 s.smbus code % 4
  | _ => 0

/-- A host load of 8 bytes at an offset of the management window: command code c at offset 8c (R452). -/
def State.managementLoad (s : State) (off : Nat) : Word :=
  if off % 8 = 0 && off < 0x1000 then BitVec.ofNat 64 (s.smbusRead (off / 8)) else 0

/-! The control window (R453). -/

/-- A host load of the register at an offset; what holds none reads 0 (log entry 108). -/
def State.controlLoad (s : State) (off : Nat) : Word :=
  let l := fun (i : Nat) => SMap.get Launch.reset s.launch i
  if off % 8 ≠ 0 then 0
  else if off < 0x80 then (l (off / 8)).shown
  else if 0x100 ≤ off && off < 0x180 then (l ((off - 0x100) / 8)).root
  else match off with
    | 0x200 => s.hintst
    | 0x208 => s.herr
    | 0x300 => s.cbHead.1
    | 0x308 => s.cbHead.2
    | _ => 0

/-- What a host store of n bytes at an offset is: the event that it makes, or none where it is discarded. HERR is cleared by a
write of 0, and a launch register takes an aligned 8-byte store only (R453, R454). -/
def controlStore (off n : Nat) (v : Word) : Option Instr :=
  if off < 0x80 then some (.launchStore (off / 8) (n == 8 && off % 8 == 0) v)
  else if n ≠ 8 then none
  else match off with
    | 0x200 => some (.hintstClear v)
    | 0x208 => if v = 0 then some .herrClear else none
    | 0x310 => some .cbpopStore
    | 0x318 => some (.cbdoneStore v)
    | _ => none

/-! Boot and attestation (R450, R451). -/

/-- BOOT after the verifications: a failure stops at the stage before it. -/
def bootStage (pileusOk overcastOk : Bool) : Nat :=
  if !pileusOk then 0x80 else if !overcastOk then 0x81 else 3

/-- Power-on: the package as it is after reset, and the boot stage that the verifications reach. The model's counter of
free draws goes on. -/
def execPowerOnReset (pileusOk overcastOk : Bool) (s : State) : Res :=
  .next { State.reset with boot := bootStage pileusOk overcastOk, draws := s.draws }

/-- The region table as bytes, two words an entry. -/
def State.regionBytes (s : State) : List Byte := (List.range 128).flatMap fun i => leBytes 8 (SMap.get 0 s.regions i).toNat

/-- The four items of a report. -/
def State.reportBody (s : State) (nonce : List Byte) : List Byte :=
  nonce ++ sha3_256 Config.pileusImage ++ sha3_256 Config.overcastImage ++ [0xB1] ++ s.regionBytes

/-- Pileus runs from stage 1 on, and answers with the report and both signatures. -/
def execAttestationRequest (nonce : List Byte) (s : State) : Res :=
  .next (if s.boot % 8 = 0 then s
    else
      let b := s.reportBody nonce
      { s with reports := s.reports ++ [b ++ Config.signEd25519 b ++ Config.signMlDsa65 b] })

/-! Soft errors (R441). -/

/-- Bits of the word flip; a bit that flips twice is as it was. -/
def flipBits (old new : List Nat) : List Nat :=
  new.eraseDups.foldl (fun l b => if l.contains b then l.filter (· ≠ b) else l ++ [b]) old

def execSoftError (arr core idx : Nat) (bits : List Nat) (s : State) : Res :=
  let key := errorKey arr core idx
  .next { s with flips := SMap.set [] s.flips key (flipBits (SMap.get [] s.flips key) bits) }

end Sys2Proof.Machine
end

