-- ==== Sys2Proof/Machine/Queue.lean ====
section
/-! DEFINITION. Queue words of C and A (R140 to R155): QPUSH, QPOP, QTRY, QLEN, LDQ, STQ, BTOK, ECUT and the mailboxes. -/

namespace Sys2Proof.Machine

/-- The stream pops the 64-bit queue (R140, R143, R144). -/
def readsQueue (st : Stream) (mask q : Nat) : Bool :=
  match st with
  | .c => q == 4 || q == 6 || q == 15 || (8 ≤ q && q ≤ 12 && !mask.testBit (q - 8))
  | .a => q == 3 || q == 5 || (8 ≤ q && q ≤ 12 && mask.testBit (q - 8))
  | _ => false

/-- The stream pushes the 64-bit queue. -/
def writesQueue (st : Stream) (q : Nat) : Bool :=
  match st with
  | .c => q == 5 || q == 7
  | .a => q == 6
  | _ => false

/-- QSTATE where the stream does not hold the reading end. -/
def checkReads (q : Nat) : Op Unit := do
  let st ← streamOf
  let s ← get
  guardFault (readsQueue st (s.replyMask s.curCore) q) fcQSTATE

def checkWrites (q : Nat) : Op Unit := do
  let st ← streamOf
  guardFault (writesQueue st q) fcQSTATE

def execQpush (h : Hdr) (q d : Nat) (s : State) : Res :=
  runOp (.qpush h q d) h (do
    checkWrites q
    let x ← rdS d
    qPush q (img64 x)) s

def execQpop (h : Hdr) (q d : Nat) (s : State) : Res :=
  runOp (.qpop h q d) h (do
    checkReads q
    let e ← qPop q
    wrS d (lo64 e)) s

def execQtryPop (h : Hdr) (q d f : Nat) (s : State) : Res :=
  runOp (.qtryPop h q d f) h (do
    checkReads q
    let c ← here
    if c.qReady q then do
      let e ← qPop q
      wrS d (lo64 e)
      wrS f 1
    else wrS f 0) s

def execQtryPush (h : Hdr) (q d f : Nat) (s : State) : Res :=
  runOp (.qtryPush h q d f) h (do
    checkWrites q
    let c ← here
    if c.qHasSpace q then do
      let x ← rdS d
      qPush q (img64 x)
      wrS f 1
    else wrS f 0) s

def execQlen (h : Hdr) (free : Bool) (q d : Nat) (s : State) : Res :=
  runOp (.qlen h free q d) h (do
    let c ← here
    let n := (c.queue q).length
    wrS d (BitVec.ofNat 64 (if free then qDepth q - n else n))) s

/-! LDQ and STQ (R146, R151). -/

/-- LDQ: the tail entry is reserved and its bytes are read in A's program order; they arrive as an event of their
own. -/
def ldqOp (g q d off : Nat) : Op Unit := do
  let c ← here
  guardBlock (c.qHasSpace q)
  let x ← rdS d
  let acc ← accHere
  let b ← readBytes acc false (addOff x 24 off).toNat 512
  let t ← tokenHere
  modHere fun c => c.setQueue q (c.queue q ++ [⟨BitVec.ofNat 4096 (leNat b), false, t, g⟩])

def execLdq (h : Hdr) (q d off : Nat) (s : State) : Res := runOp (.ldq h q d off) h (ldqOp h.g q d off) s

/-- STQ: the entry is popped when its image is stored, so that a fault leaves it. -/
def stqOp (d off : Nat) : Op Unit := do
  let c ← here
  match c.queue 2 with
  | [] => block
  | e :: _ =>
    let x ← rdS d
    let acc ← accHere
    -- its store comes after V's push, as its pop does (R325)
    learnHere e.clk
    writeBytes acc false (addOff x 24 off).toNat (leBytes 512 e.img.toNat)
    modHere fun c => c.setQueue 2 (c.queue 2).tail

def execStq (h : Hdr) (d off : Nat) (s : State) : Res := runOp (.stq h d off) h (stqOp d off) s

/-! BTOK (R152). -/

def btokOp (q d l off : Nat) : Op Fin := do
  checkReads q
  let c ← here
  match c.queue q with
  | [] => block
  | e :: _ =>
    let t := lo64 e.img
    guardFault (wfld t 0 16 < (if l = 0 then 256 else l)) fcQSTATE
    let _ ← qPop q
    wrS d (BitVec.ofInt 64 (sx 48 (wfld t 16 48)))
    let x ← thisStream
    return ⟨.jump (x.plus x.pc (8 * (sx 20 off + wfld t 0 16))), []⟩

def execBtok (h : Hdr) (q d l off : Nat) (s : State) : Res := runWord (.btok h q d l off) h (btokOp q d l off) s

/-! Mailboxes (R148, R154). -/

def checkCoupled : Op Unit := do
  let c ← here
  guardFault c.coupled.isSome fcQSTATE

/-- MBSEND: the entry enters q14 with the counter that it raises on the partner when it lands. -/
def mbsendOp (d n : Nat) : Op Unit := do
  checkCoupled
  let c ← here
  guardBlock (c.qHasSpace 14)
  let x ← rdS d
  let t ← tokenHere
  modHere fun c => c.setQueue 14 (c.queue 14 ++ [⟨img64 x, true, t, n⟩])

def execMbsend (h : Hdr) (d c : Nat) (s : State) : Res := runOp (.mbsend h d c) h (mbsendOp d c) s

def execMbrecv (h : Hdr) (d : Nat) (s : State) : Res :=
  runOp (.mbrecv h d) h (do
    checkCoupled
    let e ← qPop 13
    wrS d (lo64 e)) s

/-! ECUT (R149, R155, R420). -/

/-- Whether an entry is the marker of the latest MARK of Jn. -/
def isCutMarker (j gen : Nat) (m : Cmd) : Bool :=
  match m.kind with
  | .marker j' g' => j == j' && gen == g'
  | _ => false

def isMarker (m : Cmd) : Bool := match m.kind with | .marker .. => true | _ => false

/-- What a cut leaves behind it: markers, and held replies of commands that have completed (R149, R422). -/
def uncut (m : Cmd) : Bool := match m.kind with | .marker .. | .reply _ => true | _ => false

/-- The entries of a queue before the cut and after it; the marker, where it still stands, is before. -/
def cutQueue (j gen : Nat) (l : List Cmd) : List Cmd × List Cmd :=
  if l.any (isCutMarker j gen) then
    let pre := l.takeWhile fun m => !isCutMarker j gen m
    (pre ++ (l.drop pre.length).take 1, l.drop (pre.length + 1))
  else ([], l)

def ecutOp (d j e : Nat) : Op Unit := do
  let c ← here
  let r := SMap.get Rdv.reset c.rdv j
  let cut := (List.range 5).filter fun n => e.testBit n && r.set_.testBit n
  -- C's commands and markers that it would not discard have started or retired
  guardBlock ((List.range 6).all fun n =>
    let own := c.waitsFor .c n
    if cut.contains n then !((cutQueue j r.gen (c.equeue n)).1.any own) else !((c.equeue n).any own))
  let gone := cut.flatMap fun n => (cutQueue j r.gen (c.equeue n)).2.filter fun m => !uncut m
  let c := cut.foldl (fun (c : Core) n =>
    let (pre, post) := cutQueue j r.gen (c.equeue n)
    -- C's markers behind the cut are held at a stop, for their checkpoint clears
    c.setEqueue n (pre ++ (post.filter uncut).map fun m => if m.st = 0 && isMarker m then { m with again := true } else m)) c
  let c := gone.foldl (fun (c : Core) m => c.markStarted m.id) c
  putHere (c.setReplay .c none)
  wrS d (BitVec.ofNat 64 gone.length)

def execEcut (h : Hdr) (d j e : Nat) (s : State) : Res := runOp (.ecut h d j e) h (ecutOp d j e) s

end Sys2Proof.Machine
end

