-- ==== Sys2Proof/Machine/Rng.lean ====
section
/-! DEFINITION. RSEED, RJUMP and RNEXT (R319). -/

namespace Sys2Proof.Machine

def genStream : GenSel → Stream
  | .c => .c | .a => .a | .v => .v

/-- Replace a generator of the executing core; A and V see a write of C without order (R316). -/
def wrGen (st : Stream) (g : Gen) : Op Unit := do
  let c ← here
  noteOld (keyGen st.num) (c.gen st).nat g.nat
  modHere fun c => c.setGen st g

/-- In a speculative iteration another stream's generator is SPECVIOL. -/
def ownGen (g : GenSel) : Op Unit := if g == .c then pure () else noSpec

def rseedOp (g : GenSel) (a b : Nat) : Op Unit := do
  ownGen g
  let lo ← rdS a
  let hi ← rdS b
  let x := BitVec.ofNat 128 (hi.toNat * 2 ^ 64 + lo.toNat)
  wrGen (genStream g) ⟨x, BitVec.ofNat 128 (hi.toNat * 2) ||| 1, x⟩

def execRseed (h : Hdr) (g : GenSel) (a b : Nat) (s : State) : Res := runOp (.rseed h g a b) h (rseedOp g a b) s

def rjumpOp (g : GenSel) (a sh : Nat) : Op Unit := do
  ownGen g
  let n ← rdS a
  let c ← here
  let old := c.gen (genStream g)
  wrGen (genStream g) { old with x := BitVec.ofNat 128 (genJump old.x.toNat old.c.toNat (n.toNat * 2 ^ sh)) }

def execRjump (h : Hdr) (g : GenSel) (a sh : Nat) (s : State) : Res := runOp (.rjump h g a sh) h (rjumpOp g a sh) s

def execRnext (h : Hdr) (d : Nat) (s : State) : Res :=
  runOp (.rnext h d) h (do
    let c ← here
    let g := c.genC.stepped
    putHere (c.setGen .c g)
    wrS d (BitVec.ofNat 64 (genOut g.x.toNat))) s

end Sys2Proof.Machine
end

