-- ==== Sys2Proof/Machine/Scalar.lean ====
section
/-! DEFINITION. Integer words of C and A: ADD to SEXT (R102 to R108), MOVL and ADDI (R134, R135). -/

namespace Sys2Proof.Machine

/-! Results (R103 to R108). -/

/-- The high 64 bits of the product (R103). -/
def mulhVal (k : MulhKind) (x y : Word) : Word :=
  let p : Int := match k with
    | .ss => x.toInt * y.toInt
    | .uu => (x.toNat : Int) * y.toNat
    | .su => x.toInt * y.toNat
  BitVec.ofInt 64 (p / 2 ^ 64)

/-- Quotient truncated toward zero (R104). -/
def divVal (u : Bool) (x y : Word) : Word :=
  if u then BitVec.ofNat 64 (x.toNat / y.toNat) else BitVec.ofInt 64 (x.toInt.tdiv y.toInt)

/-- Remainder with the sign of the dividend (R104). -/
def remVal (u : Bool) (x y : Word) : Word :=
  if u then BitVec.ofNat 64 (x.toNat % y.toNat) else BitVec.ofInt 64 (x.toInt - y.toInt * x.toInt.tdiv y.toInt)

/-- Shifts by the whole 64-bit amount (R105). -/
def shlVal (x y : Word) : Word := if y.toNat < 64 then x <<< y.toNat else 0
def shrVal (x y : Word) : Word := if y.toNat < 64 then x >>> y.toNat else 0
def sarVal (x y : Word) : Word :=
  if y.toNat < 64 then x.sshiftRight y.toNat else if x.msb then BitVec.allOnes 64 else 0

/-- Leading zero bits, 0 to 64 (R103). -/
def clzVal (x : Word) : Word := BitVec.ofNat 64 (if x = 0 then 64 else 63 - Nat.log2 x.toNat)

/-- One bits, 0 to 64 (R103). -/
def popcVal (x : Word) : Word := BitVec.ofNat 64 (popCount x.toNat 64)

def minVal (u : Bool) (x y : Word) : Word :=
  if u then (if y.toNat < x.toNat then y else x) else (if y.toInt < x.toInt then y else x)

def maxVal (u : Bool) (x y : Word) : Word :=
  if u then (if x.toNat < y.toNat then y else x) else (if x.toInt < y.toInt then y else x)

/-- The condition of CMP (R106). -/
def condHolds (k : Cond) (x y : Word) : Bool :=
  match k with
  | .eq => x == y
  | .ne => x != y
  | .lt => decide (x.toInt < y.toInt)
  | .ge => decide (y.toInt ≤ x.toInt)
  | .ltu => decide (x.toNat < y.toNat)
  | .geu => decide (y.toNat ≤ x.toNat)
  | .le => decide (x.toInt ≤ y.toInt)
  | .gt => decide (y.toInt < x.toInt)
  | .leu => decide (x.toNat ≤ y.toNat)
  | .gtu => decide (y.toNat < x.toNat)

/-- 1 or 0. -/
def boolWord (b : Bool) : Word := if b then 1 else 0

/-- The low w bits extended (R108). -/
def sextVal (k : ExtKind) (x : Word) : Word :=
  match k with
  | .s8 => BitVec.ofInt 64 (sx 8 x.toNat)
  | .s16 => BitVec.ofInt 64 (sx 16 x.toNat)
  | .s32 => BitVec.ofInt 64 (sx 32 x.toNat)
  | .z8 => BitVec.ofNat 64 (x.toNat % 2 ^ 8)
  | .z16 => BitVec.ofNat 64 (x.toNat % 2 ^ 16)
  | .z32 => BitVec.ofNat 64 (x.toNat % 2 ^ 32)

/-- The value of a literal (R134). -/
def litVal (k : LitKind) (lit : Nat) : Word :=
  match k with
  | .s32 => BitVec.ofInt 64 (sx 32 lit)
  | .z32 => BitVec.ofNat 64 (lit % 2 ^ 32)
  | .s48 => BitVec.ofInt 64 (sx 48 lit)
  | .h48 => BitVec.ofNat 64 (lit % 2 ^ 48 * 2 ^ 16)

/-! Shapes. -/

/-- S[d] := f S[a]. -/
def alu1 (f : Word → Word) (d a : Nat) : Op Unit := do wrS d (f (← rdS a))

/-- S[d] := f S[a] S[b]; both sources are read before d is written (R91). -/
def alu2 (f : Word → Word → Word) (d a b : Nat) : Op Unit := do
  let x ← rdS a
  let y ← rdS b
  wrS d (f x y)

/-- As `alu2`, with DIVZERO for a zero divisor even when d = 0 (R104). -/
def aluDiv (f : Word → Word → Word) (d a b : Nat) : Op Unit := do
  let x ← rdS a
  let y ← rdS b
  guardFault (y ≠ 0) fcDIVZERO
  wrS d (f x y)

/-! Meanings. -/

def execAdd (h : Hdr) (d a b : Nat) (s : State) : Res := runOp (.add h d a b) h (alu2 (· + ·) d a b) s
def execSub (h : Hdr) (d a b : Nat) (s : State) : Res := runOp (.sub h d a b) h (alu2 (· - ·) d a b) s
def execMul (h : Hdr) (d a b : Nat) (s : State) : Res := runOp (.mul h d a b) h (alu2 (· * ·) d a b) s
def execMulh (h : Hdr) (k : MulhKind) (d a b : Nat) (s : State) : Res :=
  runOp (.mulh h k d a b) h (alu2 (mulhVal k) d a b) s
def execDiv (h : Hdr) (u : Bool) (d a b : Nat) (s : State) : Res :=
  runOp (.div h u d a b) h (aluDiv (divVal u) d a b) s
def execRem (h : Hdr) (u : Bool) (d a b : Nat) (s : State) : Res :=
  runOp (.rem h u d a b) h (aluDiv (remVal u) d a b) s
def execAnd (h : Hdr) (d a b : Nat) (s : State) : Res := runOp (.and h d a b) h (alu2 (· &&& ·) d a b) s
def execOr (h : Hdr) (d a b : Nat) (s : State) : Res := runOp (.or h d a b) h (alu2 (· ||| ·) d a b) s
def execXor (h : Hdr) (d a b : Nat) (s : State) : Res := runOp (.xor h d a b) h (alu2 (· ^^^ ·) d a b) s
def execShl (h : Hdr) (d a b : Nat) (s : State) : Res := runOp (.shl h d a b) h (alu2 shlVal d a b) s
def execShr (h : Hdr) (d a b : Nat) (s : State) : Res := runOp (.shr h d a b) h (alu2 shrVal d a b) s
def execSar (h : Hdr) (d a b : Nat) (s : State) : Res := runOp (.sar h d a b) h (alu2 sarVal d a b) s
def execClz (h : Hdr) (d a : Nat) (s : State) : Res := runOp (.clz h d a) h (alu1 clzVal d a) s
def execPopc (h : Hdr) (d a : Nat) (s : State) : Res := runOp (.popc h d a) h (alu1 popcVal d a) s
def execMin (h : Hdr) (u : Bool) (d a b : Nat) (s : State) : Res :=
  runOp (.min h u d a b) h (alu2 (minVal u) d a b) s
def execMax (h : Hdr) (u : Bool) (d a b : Nat) (s : State) : Res :=
  runOp (.max h u d a b) h (alu2 (maxVal u) d a b) s
def execCmp (h : Hdr) (k : Cond) (d a b : Nat) (s : State) : Res :=
  runOp (.cmp h k d a b) h (alu2 (fun x y => boolWord (condHolds k x y)) d a b) s

/-- SEL (R107). -/
def execSel (h : Hdr) (d c a b : Nat) (s : State) : Res :=
  runOp (.sel h d c a b) h (do
    let z ← rdS c
    let x ← rdS a
    let y ← rdS b
    wrS d (if z ≠ 0 then x else y)) s

/-- MOVI (R103). -/
def execMovi (h : Hdr) (d imm : Nat) (s : State) : Res :=
  runOp (.movi h d imm) h (wrS d (BitVec.ofInt 64 (sx 32 imm))) s

def execSext (h : Hdr) (k : ExtKind) (d a : Nat) (s : State) : Res :=
  runOp (.sext h k d a) h (alu1 (sextVal k) d a) s

def execMovl (h : Hdr) (k : LitKind) (d lit : Nat) (s : State) : Res :=
  runOp (.movl h k d lit) h (wrS d (litVal k lit)) s

def execAddi (h : Hdr) (d a imm : Nat) (s : State) : Res :=
  runOp (.addi h d a imm) h (alu1 (fun x => addOff x 20 imm) d a) s

end Sys2Proof.Machine
end

