-- ==== Sys2Proof/Machine/VSeq.lean ====
section
/-! DEFINITION. VMAP and VMAPQ (R214, R215), and the sequencer's words LSET and RPT (R167 to R171). -/

namespace Sys2Proof.Machine

/-! VMAP. -/

/-- The parameter: an entry of the constant bank, or one popped from q7. The pop stands when the word faults (R214). -/
def vmapParam (b : Nat) : Op Nat := do
  if b = 655 then
    let e ← qPop 7
    return (lo64 e).toNat
  else rdK (b - 768)

/-- The rest of a VMAP word: a fault keeps what it has popped, and no map. -/
def vmapFault {α : Type} (op : Op α) : Op α := fun s =>
  match op.run s with
  | .error (.fault f) => .error (.faultKeep f s)
  | r => r

/-- `set`: the descriptor in K[n] to K[n+9]. -/
def vmapSetOp (d b : Nat) : Op Unit := do
  let ws ← (List.range 10).mapM fun i => rdK (b - 768 + i)
  let a := AffMap.ofWords ws
  guardFault (1 ≤ a.rank && a.rank ≤ 4) fcILLOP
  modHere fun c => c.setMap d (.affine a)

def execVmapSet (h : Hdr) (d b : Nat) (s : State) : Res := runOp (.vmapSet h d b) h (vmapSetOp d b) s

/-- `slice` along index dimension k. -/
def vmapSliceOp (k d a b : Nat) : Op Unit := do
  let par ← vmapParam b
  vmapFault do
    let start := sx 32 par
    let len := fld par 32 32
    let c ← here
    let m := c.mapOf a
    match m.parent with
    | none => modHere fun c => c.setMap d m
    | some q =>
      guardFault (k < q.rank) fcILLOP
      guardFault (0 ≤ start && start + len ≤ (q.extent k : Int)) fcBOUNDS
      let affine := match m with | .affine _ => true | _ => false
      if affine && k + 1 = q.rank then
        modHere fun c => c.setMap d (.affine { q with
          ext := q.ext.set k len, skew := wrapS 32 (q.skew - start * (q.extents k : Int)),
          org := (List.range 4).map fun i => wrapS 32 (q.org.getD i 0 + q.entry i k * start),
          lb := wrapS 64 (q.lb + q.lam.getD k 0 * start) })
      else
        let idx := (List.range 512).map fun e =>
          match m.parentIdx c.slots e with
          | some L =>
            let i : Int := q.index L k
            if start ≤ i && i < start + len then some L else none
          | none => none
        modHere fun c => c.formMap d (some q) idx 512

def execVmapSlice (h : Hdr) (k d a b : Nat) (s : State) : Res :=
  runOp (.vmapSlice h k d a b) h (vmapSliceOp k d a b) s

/-- A map with its parent changed. -/
def VMap.onParent (m : VMap) (f : AffMap → AffMap) : VMap :=
  match m with
  | .affine a => .affine (f a)
  | .explicit n a => .explicit n (f a)
  | .opaque n => .opaque n

def execVmapPerm (h : Hdr) (d a b : Nat) (s : State) : Res :=
  runOp (.vmapPerm h d a b) h (do
    let par ← vmapParam b
    modHere fun c => c.setMap d ((c.mapOf a).onParent fun q => q.columns fun j => fld par (2 * j) 2)) s

def execVmapShift (h : Hdr) (k d a b : Nat) (s : State) : Res :=
  runOp (.vmapShift h k d a b) h (do
    let par ← vmapParam b
    modHere fun c => c.setMap d ((c.mapOf a).onParent fun q =>
      { q with org := q.org.set k (wrapS 32 (q.org.getD k 0 + sx 32 par)) })) s

/-! VMAPQ. -/

/-- The entries that VMAPQ pushes, and whether an opaque map was read. -/
def vmapqEntries (c : Core) (k : MapqSub) (a b : Nat) : List Nat × Bool :=
  let m := c.mapOf a
  match k with
  | .kind =>
    let kind := match m with | .affine _ => 0 | .explicit _ _ => 1 | .opaque _ => 2
    let slot := match m with | .explicit n _ => n | _ => 0
    let live := (List.range 512).countP fun e => !m.isVoid c.slots e
    let free := (List.range 32).countP fun n => !slotUsed c.vmap n
    ([kind + slot * 4 + live * 2 ^ 16 + free * 2 ^ 32], false)
  | .desc =>
    match m.parent with
    | some q => (q.toWords, false)
    | none => (List.replicate 10 0, true)
  | .elt =>
    let two := fun (x y : Int) => wrap 32 y * 2 ^ 32 + wrap 32 x
    match m.spot c.slots b with
    | .void => ([0x8000000080000000, 0x8000000080000000, 0x8000000000000000], false)
    | .lost => ([0x8000000080000000, 0x8000000080000000, wrap 64 (-(2 ^ 31))], true)
    | .at_ co l => ([two (co.getD 0 0) (co.getD 1 0), two (co.getD 2 0) (co.getD 3 0), wrap 64 l], false)

def vmapqOp (k : MapqSub) (q4 : Bool) (a b : Nat) : Op Unit := do
  let q := if q4 then 4 else 3
  let c ← here
  let (es, lost) := vmapqEntries c k a b
  needSpace q es.length
  let vm ← rdVmode
  if lost then
    if vm % 2 = 1 then fault fcMAPLOST else raiseFlags fMapLost
  else pure ()
  qPushHold q (es.map fun e => img64 (BitVec.ofNat 64 e))

def execVmapq (h : Hdr) (k : MapqSub) (q4 : Bool) (a b : Nat) (s : State) : Res :=
  runOp (.vmapq h k q4 a b) h (vmapqOp k q4 a b) s

/-! LSET (R167 to R170). -/

/-- The source value: the immediate sign-extended from 20 bits, a register, or a queue entry. -/
def lsetValue (src : LsetSrc) (val : Nat) : Op Nat := do
  let st ← streamOf
  match src with
  | .imm => return wrap 64 (sx 20 val)
  | .reg =>
    if st = .a then
      let x ← rdS (val % 64)
      return x.toNat
    else rdK (val % 256)
  | .q => do
    let e ← qPop (if st = .a then 5 else 7)
    return (lo64 e).toNat

/-- Checks of R169 on a loop whose body is len words after the LSET. -/
def loopOk (x : StreamSt) (len : Nat) : Bool :=
  let body := x.plus x.pc 8
  x.seqr.length < 6 && len ≠ 0 && len < x.winSize / 8 &&
  match x.seqr with
  | l :: _ => if l.holds x x.pc then x.dist l.body body + 8 * len ≤ 8 * l.len else true
  | [] => true

/-- LSET `loop`: a level opens at the word after it, or a zero count passes over the body (R167). -/
def lsetLoopOp (src : LsetSrc) (len val : Nat) : Op Fin := do
  let x ← thisStream
  guardFault (loopOk x len) fcILLOP
  let v ← match src with
    | .imm => pure val
    | src => lsetValue src val
  let n := v % 2 ^ 32
  let x ← thisStream
  let body := x.plus x.pc 8
  if n = 0 then return ⟨.seq (x.plus x.pc (8 * (len + 1))), []⟩
  else
    modStream fun x => { x with seqr := ⟨n, 0, body, len⟩ :: x.seqr }
    return ⟨.seq body, []⟩

def execLsetLoop (h : Hdr) (src : LsetSrc) (len val : Nat) (s : State) : Res :=
  runWord (.lsetLoop h src len val) h (lsetLoopOp src len val) s

/-- LSET `view`: the low bits of the source, as many as the field is wide (R170). The reserved byte ranges have no field
id. -/
def lsetViewOp (src : LsetSrc) (vw fl val : Nat) : Op Unit := do
  let v ← lsetValue src val
  let c ← here
  let new := v % 2 ^ (viewField fl).2
  noteOld (keyView vw fl) (c.viewFld vw fl) new
  modHere fun c => c.setViewFld vw fl new

def execLsetView (h : Hdr) (src : LsetSrc) (vw fld val : Nat) (s : State) : Res :=
  runOp (.lsetView h src vw fld val) h (lsetViewOp src vw fld val) s

/-! RPT (R171). -/

/-- The word can be repeated: of format V3, VM or V2I, other than RPT and LSET, and no literal. BWAIT of V overlays V3,
and PLOGIC has V3's type and mask fields. -/
def rptTarget (w : Nat) : Bool :=
  let o := opOf w
  fld w 56 8 ≠ 0xFF && ((0x80 ≤ o && o ≤ 0xA8) || o == 0xAA || o == 0xAC || o == 0xAD || o == 0x49)

/-- RPT: its target and its place are checked; V then stands at it with no repetition done. -/
def rptOp (n : Nat) : Op Fin := do
  let x ← thisStream
  let last := match x.seqr with
    | l :: _ => l.holds x x.pc && x.dist l.body x.pc + 8 == 8 * l.len
    | [] => false
  guardFault (!last) fcILLOP
  let w ← nextWord
  guardFault (rptTarget w) fcILLOP
  modStream fun x => { x with rpt := some (0, n) }
  return ⟨.seq x.pc, []⟩

def execRpt (h : Hdr) (n sd sa sb : Nat) (s : State) : Res := runWord (.rpt h n sd sa sb) h (rptOp n) s

end Sys2Proof.Machine
end

