-- ==== Sys2Proof/Machine/Dispatch.lean ====
section
/-! DEFINITION. One arm for each constructor of Instr: the direct call of its meaning. -/

namespace Sys2Proof.Machine

def exec (i : Instr) (s : State) : Host.Outcome State Fault Refusal :=
  match i with
  | .nop h => Sys2Proof.Machine.execNop h s
  | .hint h n => Sys2Proof.Machine.execHint h n s
  | .join h => Sys2Proof.Machine.execJoin h s
  | .signal h n cpl c => Sys2Proof.Machine.execSignal h n cpl c s
  | .mark h j e => Sys2Proof.Machine.execMark h j e s
  | .halt h a => Sys2Proof.Machine.execHalt h a s
  | .jwait h d any mask => Sys2Proof.Machine.execJwait h d any mask s
  | .trap h a code => Sys2Proof.Machine.execTrap h a code s
  | .fence h mask => Sys2Proof.Machine.execFence h mask s
  | .stamp h a abs cyc => Sys2Proof.Machine.execStamp h a abs cyc s
  | .ppoint h a b => Sys2Proof.Machine.execPpoint h a b s
  | .eret h => Sys2Proof.Machine.execEret h s
  | .ctxsave h d a yield => Sys2Proof.Machine.execCtxsave h d a yield s
  | .ctxload h d a => Sys2Proof.Machine.execCtxload h d a s
  | .crd h d n => Sys2Proof.Machine.execCrd h d n s
  | .cwr h a n => Sys2Proof.Machine.execCwr h a n s
  | .htreeStart h a => Sys2Proof.Machine.execHtreeStart h a s
  | .htreeStop h => Sys2Proof.Machine.execHtreeStop h s
  | .htreeWait h d b => Sys2Proof.Machine.execHtreeWait h d b s
  | .add h d a b => Sys2Proof.Machine.execAdd h d a b s
  | .sub h d a b => Sys2Proof.Machine.execSub h d a b s
  | .mul h d a b => Sys2Proof.Machine.execMul h d a b s
  | .mulh h k d a b => Sys2Proof.Machine.execMulh h k d a b s
  | .div h u d a b => Sys2Proof.Machine.execDiv h u d a b s
  | .rem h u d a b => Sys2Proof.Machine.execRem h u d a b s
  | .and h d a b => Sys2Proof.Machine.execAnd h d a b s
  | .or h d a b => Sys2Proof.Machine.execOr h d a b s
  | .xor h d a b => Sys2Proof.Machine.execXor h d a b s
  | .shl h d a b => Sys2Proof.Machine.execShl h d a b s
  | .shr h d a b => Sys2Proof.Machine.execShr h d a b s
  | .sar h d a b => Sys2Proof.Machine.execSar h d a b s
  | .clz h d a => Sys2Proof.Machine.execClz h d a s
  | .popc h d a => Sys2Proof.Machine.execPopc h d a s
  | .min h u d a b => Sys2Proof.Machine.execMin h u d a b s
  | .max h u d a b => Sys2Proof.Machine.execMax h u d a b s
  | .cmp h k d a b => Sys2Proof.Machine.execCmp h k d a b s
  | .sel h d c a b => Sys2Proof.Machine.execSel h d c a b s
  | .movi h d imm => Sys2Proof.Machine.execMovi h d imm s
  | .sext h k d a => Sys2Proof.Machine.execSext h k d a s
  | .movl h k d lit => Sys2Proof.Machine.execMovl h k d lit s
  | .addi h d a imm => Sys2Proof.Machine.execAddi h d a imm s
  | .fadd h t m d a b => Sys2Proof.Machine.execFadd h t m d a b s
  | .fsub h t m d a b => Sys2Proof.Machine.execFsub h t m d a b s
  | .fmul h t m d a b => Sys2Proof.Machine.execFmul h t m d a b s
  | .fdiv h t m d a b => Sys2Proof.Machine.execFdiv h t m d a b s
  | .fsqrt h t m d a => Sys2Proof.Machine.execFsqrt h t m d a s
  | .fma h t m d a b c => Sys2Proof.Machine.execFma h t m d a b c s
  | .fmin h t d a b => Sys2Proof.Machine.execFmin h t d a b s
  | .fmax h t d a b => Sys2Proof.Machine.execFmax h t d a b s
  | .fcmp h k t d a b => Sys2Proof.Machine.execFcmp h k t d a b s
  | .fcvt h src t m d a => Sys2Proof.Machine.execFcvt h src t m d a s
  | .fmai h t m d b imm => Sys2Proof.Machine.execFmai h t m d b imm s
  | .fmal h t m d a b lit => Sys2Proof.Machine.execFmal h t m d a b lit s
  | .fmak h t m d a b n => Sys2Proof.Machine.execFmak h t m d a b n s
  | .br h k c off => Sys2Proof.Machine.execBr h k c off s
  | .jmp h a off => Sys2Proof.Machine.execJmp h a off s
  | .call h c off => Sys2Proof.Machine.execCall h c off s
  | .ret h a => Sys2Proof.Machine.execRet h a s
  | .uiret h => Sys2Proof.Machine.execUiret h s
  | .btok h q d l off => Sys2Proof.Machine.execBtok h q d l off s
  | .ld h k at_ d a off => Sys2Proof.Machine.execLd h k at_ d a off s
  | .st h k at_ d a off => Sys2Proof.Machine.execSt h k at_ d a off s
  | .amo h op sz d a b off => Sys2Proof.Machine.execAmo h op sz d a b off s
  | .cas h sz d a b off => Sys2Proof.Machine.execCas h sz d a b off s
  | .barm h d a b off => Sys2Proof.Machine.execBarm h d a b off s
  | .acq h ge d a b off => Sys2Proof.Machine.execAcq h ge d a b off s
  | .rel h d a off => Sys2Proof.Machine.execRel h d a off s
  | .kldLd h a n cnt => Sys2Proof.Machine.execKldLd h a n cnt s
  | .kldRd h d n => Sys2Proof.Machine.execKldRd h d n s
  | .ldq h q d off => Sys2Proof.Machine.execLdq h q d off s
  | .stq h d off => Sys2Proof.Machine.execStq h d off s
  | .bwait h f => Sys2Proof.Machine.execBwait h f s
  | .qpush h q d => Sys2Proof.Machine.execQpush h q d s
  | .qpop h q d => Sys2Proof.Machine.execQpop h q d s
  | .qtryPop h q d f => Sys2Proof.Machine.execQtryPop h q d f s
  | .qtryPush h q d f => Sys2Proof.Machine.execQtryPush h q d f s
  | .qlen h free q d => Sys2Proof.Machine.execQlen h free q d s
  | .ecut h d j e => Sys2Proof.Machine.execEcut h d j e s
  | .mbsend h d c => Sys2Proof.Machine.execMbsend h d c s
  | .mbrecv h d => Sys2Proof.Machine.execMbrecv h d s
  | .cdiff h sc d a => Sys2Proof.Machine.execCdiff h sc d a s
  | .cgo h try_ d => Sys2Proof.Machine.execCgo h try_ d s
  | .glaunch h d a => Sys2Proof.Machine.execGlaunch h d a s
  | .bsp h lv d => Sys2Proof.Machine.execBsp h lv d s
  | .rseed h g a b => Sys2Proof.Machine.execRseed h g a b s
  | .rjump h g a sh => Sys2Proof.Machine.execRjump h g a sh s
  | .rnext h d => Sys2Proof.Machine.execRnext h d s
  | .tlbinv h k sc a b => Sys2Proof.Machine.execTlbinv h k sc a b s
  | .clbinv h k sc a b => Sys2Proof.Machine.execClbinv h k sc a b s
  | .spbegin h d a => Sys2Proof.Machine.execSpbegin h d a s
  | .spcmp h k ct d a b t nc => Sys2Proof.Machine.execSpcmp h k ct d a b t nc s
  | .spacc h d a b l => Sys2Proof.Machine.execSpacc h d a b l s
  | .spapp h sz d a r => Sys2Proof.Machine.execSpapp h sz d a r s
  | .spendG h => Sys2Proof.Machine.execSpendG h s
  | .spendB h a => Sys2Proof.Machine.execSpendB h a s
  | .spendSrv h => Sys2Proof.Machine.execSpendSrv h s
  | .smp h k d a b slot n => Sys2Proof.Machine.execSmp h k d a b slot n s
  | .stopset h d a b slot cnt => Sys2Proof.Machine.execStopset h d a b slot cnt s
  | .vadd h t p m d a b => Sys2Proof.Machine.execVadd h t p m d a b s
  | .vsub h t p m d a b => Sys2Proof.Machine.execVsub h t p m d a b s
  | .vmul h t p m d a b => Sys2Proof.Machine.execVmul h t p m d a b s
  | .vfma h t p m d a b => Sys2Proof.Machine.execVfma h t p m d a b s
  | .vdiv h t p m d a b => Sys2Proof.Machine.execVdiv h t p m d a b s
  | .vsqrt h t p m d a => Sys2Proof.Machine.execVsqrt h t p m d a s
  | .vexp2 h t p m d a => Sys2Proof.Machine.execVexp2 h t p m d a s
  | .vlog2 h t p m d a => Sys2Proof.Machine.execVlog2 h t p m d a s
  | .vmin h t p m d a b => Sys2Proof.Machine.execVmin h t p m d a b s
  | .vmax h t p m d a b => Sys2Proof.Machine.execVmax h t p m d a b s
  | .vabs h t p m d a => Sys2Proof.Machine.execVabs h t p m d a s
  | .vneg h t p m d a => Sys2Proof.Machine.execVneg h t p m d a s
  | .vand h t p m d a b => Sys2Proof.Machine.execVand h t p m d a b s
  | .vor h t p m d a b => Sys2Proof.Machine.execVor h t p m d a b s
  | .vxor h t p m d a b => Sys2Proof.Machine.execVxor h t p m d a b s
  | .vshl h t p m d a b => Sys2Proof.Machine.execVshl h t p m d a b s
  | .vshr h t p m d a b => Sys2Proof.Machine.execVshr h t p m d a b s
  | .vsar h t p m d a b => Sys2Proof.Machine.execVsar h t p m d a b s
  | .vaddi h d a imm => Sys2Proof.Machine.execVaddi h d a imm s
  | .vmuli h d a imm => Sys2Proof.Machine.execVmuli h d a imm s
  | .vfmai h d a imm => Sys2Proof.Machine.execVfmai h d a imm s
  | .vfmal h t p m d a b lit => Sys2Proof.Machine.execVfmal h t p m d a b lit s
  | .vcmp h k t p pd a b => Sys2Proof.Machine.execVcmp h k t p pd a b s
  | .vsel h t p d a b => Sys2Proof.Machine.execVsel h t p d a b s
  | .vcvt h src j sat t p m d a => Sys2Proof.Machine.execVcvt h src j sat t p m d a s
  | .vqmx h w t p d a slot => Sys2Proof.Machine.execVqmx h w t p d a slot s
  | .vdqmx h w t p m d a slot => Sys2Proof.Machine.execVdqmx h w t p m d a slot s
  | .vred h op sg t p m d a => Sys2Proof.Machine.execVred h op sg t p m d a s
  | .vscan h op sg t p m d a => Sys2Proof.Machine.execVscan h op sg t p m d a s
  | .vperm h pm t p d a b => Sys2Proof.Machine.execVperm h pm t p d a b s
  | .vcomp h t p d a => Sys2Proof.Machine.execVcomp h t p d a s
  | .vpart h four q4 t p d a => Sys2Proof.Machine.execVpart h four q4 t p d a s
  | .plogic h fn t p pd pa pb => Sys2Proof.Machine.execPlogic h fn t p pd pa pb s
  | .pcnt h pre t p d pa => Sys2Proof.Machine.execPcnt h pre t p d pa s
  | .rpt h n sd sa sb => Sys2Proof.Machine.execRpt h n sd sa sb s
  | .vmov h t p d a => Sys2Proof.Machine.execVmov h t p d a s
  | .vld h at_ t p m d vw o => Sys2Proof.Machine.execVld h at_ t p m d vw o s
  | .vst h at_ t p m d vw o => Sys2Proof.Machine.execVst h at_ t p m d vw o s
  | .vldc h p d a vw o0 o1 o2 => Sys2Proof.Machine.execVldc h p d a vw o0 o1 o2 s
  | .vstc h p d a vw o0 o1 o2 => Sys2Proof.Machine.execVstc h p d a vw o0 o1 o2 s
  | .vmapSet h d b => Sys2Proof.Machine.execVmapSet h d b s
  | .vmapSlice h k d a b => Sys2Proof.Machine.execVmapSlice h k d a b s
  | .vmapPerm h d a b => Sys2Proof.Machine.execVmapPerm h d a b s
  | .vmapShift h k d a b => Sys2Proof.Machine.execVmapShift h k d a b s
  | .vmapq h k q4 a b => Sys2Proof.Machine.execVmapq h k q4 a b s
  | .vrndKey h t p d b => Sys2Proof.Machine.execVrndKey h t p d b s
  | .vrndStr h t p d => Sys2Proof.Machine.execVrndStr h t p d s
  | .vtok h k q4 t p a b => Sys2Proof.Machine.execVtok h k q4 t p a b s
  | .lsetLoop h src len val => Sys2Proof.Machine.execLsetLoop h src len val s
  | .lsetView h src vw fld val => Sys2Proof.Machine.execLsetView h src vw fld val s
  | .vsal h pat t p d a b => Sys2Proof.Machine.execVsal h pat t p d a b s
  | .mma h tr z f t vw wb k => Sys2Proof.Machine.execMma h tr z f t vw wb k s
  | .msma h tr z f t vw wb k => Sys2Proof.Machine.execMsma h tr z f t vw wb k s
  | .mgrp h z f t vw wb k => Sys2Proof.Machine.execMgrp h z f t vw wb k s
  | .mldw h f t vw wb k => Sys2Proof.Machine.execMldw h f t vw wb k s
  | .mzero h t => Sys2Proof.Machine.execMzero h t s
  | .mdrain h tr z ins fl nost t vw => Sys2Proof.Machine.execMdrain h tr z ins fl nost t vw s
  | .acopy h tr acc ts td => Sys2Proof.Machine.execAcopy h tr acc ts td s
  | .copyLin core n => Sys2Proof.Machine.execCopyLin core n s
  | .copyRect core n => Sys2Proof.Machine.execCopyRect core n s
  | .copyFill core n => Sys2Proof.Machine.execCopyFill core n s
  | .indexGat core n => Sys2Proof.Machine.execIndexGat core n s
  | .indexSct core n => Sys2Proof.Machine.execIndexSct core n s
  | .selPred stack n => Sys2Proof.Machine.execSelPred stack n s
  | .selTopk stack n => Sys2Proof.Machine.execSelTopk stack n s
  | .selHist stack n => Sys2Proof.Machine.execSelHist stack n s
  | .selFilt stack n => Sys2Proof.Machine.execSelFilt stack n s
  | .reduceCommand stack n => Sys2Proof.Machine.execReduceCommand stack n s
  | .samplerTmp core => Sys2Proof.Machine.execSamplerTmp core s
  | .samplerProb core => Sys2Proof.Machine.execSamplerProb core s
  | .samplerRes core => Sys2Proof.Machine.execSamplerRes core s
  | .engineReplyPush core e => Sys2Proof.Machine.execEngineReplyPush core e s
  | .markerRetire core e => Sys2Proof.Machine.execMarkerRetire core e s
  | .coupledSignalArrival core => Sys2Proof.Machine.execCoupledSignalArrival core s
  | .mailboxTransfer core => Sys2Proof.Machine.execMailboxTransfer core s
  | .ldqDataArrival core q => Sys2Proof.Machine.execLdqDataArrival core q s
  | .userInterruptEntry core => Sys2Proof.Machine.execUserInterruptEntry core s
  | .coreStop core => Sys2Proof.Machine.execCoreStop core s
  | .preemptHorizon core => Sys2Proof.Machine.execPreemptHorizon core s
  | .enusedUpdate core => Sys2Proof.Machine.execEnusedUpdate core s
  | .poolInterval => Sys2Proof.Machine.execPoolInterval s
  | .quantumBoundary slot node => Sys2Proof.Machine.execQuantumBoundary slot node s
  | .htreeUpdate core => Sys2Proof.Machine.execHtreeUpdate core s
  | .coreJobStart core => Sys2Proof.Machine.execCoreJobStart core s
  | .coreJobEnd core => Sys2Proof.Machine.execCoreJobEnd core s
  | .dispatchDecision => Sys2Proof.Machine.execDispatchDecision s
  | .nodeCompletion slot node => Sys2Proof.Machine.execNodeCompletion slot node s
  | .graphEnd slot => Sys2Proof.Machine.execGraphEnd slot s
  | .virgaIterationDispatch lead => Sys2Proof.Machine.execVirgaIterationDispatch lead s
  | .virgaRoundCommit lead => Sys2Proof.Machine.execVirgaRoundCommit lead s
  | .fabricPut slot node => Sys2Proof.Machine.execFabricPut slot node s
  | .fabricGet slot node => Sys2Proof.Machine.execFabricGet slot node s
  | .fabricRadd slot node => Sys2Proof.Machine.execFabricRadd slot node s
  | .putData f => Sys2Proof.Machine.execPutData f s
  | .getRequest f => Sys2Proof.Machine.execGetRequest f s
  | .getData f => Sys2Proof.Machine.execGetData f s
  | .raddData f => Sys2Proof.Machine.execRaddData f s
  | .fabricAck f => Sys2Proof.Machine.execFabricAck f s
  | .fabricNak f => Sys2Proof.Machine.execFabricNak f s
  | .fabricRetransmitTimeout peer => Sys2Proof.Machine.execFabricRetransmitTimeout peer s
  | .fabricFailureTimeout peer => Sys2Proof.Machine.execFabricFailureTimeout peer s
  | .hostMemoryRead addr n => Sys2Proof.Machine.execHostMemoryRead addr n s
  | .hostMemoryWrite addr data => Sys2Proof.Machine.execHostMemoryWrite addr data s
  | .launchStore ix form8 addr => Sys2Proof.Machine.execLaunchStore ix form8 addr s
  | .cbpopStore => Sys2Proof.Machine.execCbpopStore s
  | .cbdoneStore v => Sys2Proof.Machine.execCbdoneStore v s
  | .hintstClear mask => Sys2Proof.Machine.execHintstClear mask s
  | .herrClear => Sys2Proof.Machine.execHerrClear s
  | .smpposWrite core v => Sys2Proof.Machine.execSmpposWrite core v s
  | .smpstWrite core v => Sys2Proof.Machine.execSmpstWrite core v s
  | .gdataWrite core v => Sys2Proof.Machine.execGdataWrite core v s
  | .elogsClear core => Sys2Proof.Machine.execElogsClear core s
  | .einjWrite core v => Sys2Proof.Machine.execEinjWrite core v s
  | .cretireWrite sup host k v => Sys2Proof.Machine.execCretireWrite sup host k v s
  | .regionTableWrite sec k v => Sys2Proof.Machine.execRegionTableWrite sec k v s
  | .thermWrite v => Sys2Proof.Machine.execThermWrite v s
  | .registerWrite core n v => Sys2Proof.Machine.execRegisterWrite core n v s
  | .thermalStopBegin => Sys2Proof.Machine.execThermalStopBegin s
  | .thermalStopEnd => Sys2Proof.Machine.execThermalStopEnd s
  | .powerOnReset pileusOk overcastOk => Sys2Proof.Machine.execPowerOnReset pileusOk overcastOk s
  | .attestationRequest nonce => Sys2Proof.Machine.execAttestationRequest nonce s
  | .launchDecision ix => Sys2Proof.Machine.execLaunchDecision ix s
  | .softError arr core idx bits => Sys2Proof.Machine.execSoftError arr core idx bits s
  | .swiverLinkFailure => Sys2Proof.Machine.execSwiverLinkFailure s
  | .fabricFrameDropped f => Sys2Proof.Machine.execFabricFrameDropped f s

end Sys2Proof.Machine
end

