-- ==== Sys2Proof/Machine/Step.lean ====
section
/-! DEFINITION. One step of the package. -/

namespace Sys2Proof.Machine

/-- A turn: a stream executes its next word, an event takes place, cycles pass, or a TLB walks ahead. -/
def turn (t : Turn) (s : State) : Host.Outcome State Fault Refusal :=
  match t with
  | .stream k st =>
    match s.issueSlot k st with
    | .inl s' => .next s'
    | .inr (i, s') => exec i s'
  | .event i => exec i s
  | .tick n => .next (s.tick n)
  | .prefetch k n kind va => .next (s.prefetch k n kind va)

def step (s : State) : Host.Outcome State Fault Refusal :=
  match s.nextTurn with
  | (some t, s') => turn t s'
  | (none, s') => .next s'

/-- The address at which a word of C is placed: C fetches at translated addresses only (R117). -/
def placeVa : Nat := 0x1000000

/-- A TLB entry that maps its page onto the first page of core 0's scratchpad, for every access. -/
def placeEnt : TlbEnt := ⟨placeVa, 4096, scratchPa 0 0, 0, true, true, true, true, true, true, true⟩

/-- Core 0 with a job of the secure world whose stream st starts at the start of its own scratchpad: A, V and M at address 0
of the window, C at the address that its TLB maps there. -/
def Core.withJob (c : Core) (st : Stream) (sup : Bool) : Core :=
  let c := { c with st := .running, sup := sup, sec := true, pend := none, icache := [], nest := none, spec := .reset,
                    replayC := none, replayA := none, tlb := SMap.set [] c.tlb 0 [placeEnt],
                    cr := setAll 0 c.cr [(crBANKALLOT, 1), (crVALLOT, 0x3FF), (crTREC0, 0), (crUISTAT, 0)] }
  c.setStream st { StreamSt.reset with
    pc := if st = .c then BitVec.ofNat 64 placeVa else 0, started := true, winSize := if st = .c then 0 else 256 }

/-- The instruction word placed as the next word of a job on core 0: the job is started by hand (log entry 22), the word
lies at its PC, and the next turn is that stream's. -/
def State.withFetchWord (s : State) (nbits w : Nat) : State :=
  let v := w % 2 ^ nbits
  let st := match firstStream (v % 2 ^ 64) (v / 2 ^ 64 % 2 ^ 64) with
    | some (st, _) => st
    | none => .c
  let s := s.poke (scratchPa 0 0) (leBytes 16 v)
  let s := s.setCore 0 ((s.core 0).withJob st (privOp (opOf (v % 2 ^ 64))))
  { s with agenda := [.stream 0 st], bufs := [], flips := [], poison := [] }

end Sys2Proof.Machine
end

