-- ==== Sys2Proof/Safety.lean ====
section
/-! DEFINITION. What counts as a safe run: memory in its canonical form, and a step that neither faults nor is refused
as a matter of the model; and when a word's turn executes it. -/

namespace Sys2Proof.Machine

/-- The invariant that every step keeps: memory is in canonical form. -/
def State.Inv (s : State) : Prop := Memory.wf s.mem = true

/-- A step that goes on. -/
def Goes (s : State) : Prop := ∃ t, step s = .next t

/-! When the executing stream's turn reaches a word's effects: conditions on the state, the header and the operands. -/

/-- The executing core. -/
def State.me (s : State) : Core := s.core s.curCore

/-- The executing stream's sequencing state. -/
def State.strm (s : State) : StreamSt := s.me.stream s.curStream

/-- The executing stream's scalar register r. -/
def State.sreg (s : State) (r : Nat) : Word := s.me.sreg s.curStream r

/-- The executing stream's number among the agents that memory's order names. -/
def State.agent (s : State) : Nat := agentOf s.curCore s.curStream

/-- The state with the executing core changed. -/
def State.withMe (s : State) (c : Core) : State := s.setCore s.curCore c

/-- The state with the executing stream's sequencing state changed. -/
def State.modStrm (s : State) (f : StreamSt → StreamSt) : State := s.withMe (s.me.setStream s.curStream (f s.strm))

/-- The state with a scalar register of the executing stream written. -/
def State.setS (s : State) (d : Nat) (v : Word) : State := s.withMe (s.me.setSreg s.curStream d v)

/-- No stop is due, the stream may issue, and C takes no user-level interrupt first. -/
def State.atWord (s : State) : Bool :=
  !s.stopDue s.curCore && s.mayIssue s.curCore s.curStream && !(s.curStream = .c && s.uiReady s.curCore)

/-- The last event before the issue of the executing stream's word: a word that waits reads the registers of other streams as
they stood then (R133). -/
def State.readsAt (s : State) : Nat := if s.strm.issued then s.strm.issuedAt else s.seq

/-- A register that other streams read without order is settled for the executing stream: it can read only the newest
value, which stood there at its word's issue (R99, R133). -/
def State.settled (s : State) (key : Nat) : Bool :=
  match SMap.get [] s.me.rhist key with
  | [] => true
  | (a, n, _) :: _ => (a = s.agent || knows (SMap.get [] s.clk s.agent) a n) && n ≤ s.readsAt

/-- The word passes decode steps 3 to 6 in the executing stream (R32); V reads the allotment as it stands. -/
def State.accepts (s : State) (i : Instr) (h : Hdr) : Bool :=
  i.streams.contains s.curStream && (!isPrivileged i || s.me.sup) && i.acceptedBy s.curStream && i.wf
    && (s.curStream ≠ .v || (s.settled crVALLOT && (vregs i).all fun r => (s.me.creg crVALLOT).getLsbD (r / 64)))
    && (!needsCoupled i h || s.me.coupled.isSome)

/-- The word is executed for the first time: no repetition of an RPT has run (R171). -/
def State.firstPass (s : State) : Bool := s.strm.firstPass s.curStream

/-- The wait that W names is satisfied (R28), or was taken before. -/
def State.waitOpen (s : State) (h : Hdr) : Bool :=
  s.strm.issued || !s.firstPass ||
    (if 0x01 ≤ h.w && h.w ≤ 0x3F then s.me.count h.w ≠ 0 && !s.outranked h.w
     else if 0x40 ≤ h.w && h.w ≤ 0x4F then (SMap.get Rdv.reset s.me.rdv (h.w - 0x40)).fired
     else if 0x50 ≤ h.w && h.w ≤ 0x5F then s.me.qReady (h.w - 0x50)
     else if 0x60 ≤ h.w && h.w ≤ 0x6F then s.me.qHasSpace (h.w - 0x60)
     else true)

/-- The replay list lets the word go (R420): what it does with the list, or that it waits. -/
inductive ReplayRule where
  | keep | drop | wait
  deriving DecidableEq, Repr

def State.replayRule (s : State) (i : Instr) (h : Hdr) : ReplayRule :=
  if s.strm.issued then .keep
  else match s.me.replay s.curStream with
  | none =>
    match i with
    | .ecut .. => .keep
    | _ => if s.me.notStarted s.curStream && !replaySafe i h s.me s.curStream then .wait else .keep
  | some r =>
    if r.at_.isSome then .keep
    else if replaySafe i h s.me s.curStream then
      if isListed i s.me s.curStream && r.list.length ≥ 64 then
        if s.me.notStarted s.curStream then .wait else .drop
      else .keep
    else match i with
      | .ecut .. => .keep
      | _ => if s.me.notStarted s.curStream then .wait else .drop

/-- The word's stamp names the cycle that passes, or it has none (R317); a word of A goes behind C's of the same cycle
(R145). -/
def State.stampDue (s : State) : Bool :=
  (s.curStream ≠ .c && s.curStream ≠ .a) ||
    match s.strm.stamp with
    | none => true
    | some (f, y) => f = s.me.frameNow.1 && y = s.me.frameNow.2 && !(s.curStream = .a && s.me.stampFirst)

/-- The word's turn executes it: it is accepted, not skipped, and nothing makes it wait. -/
def State.ready (s : State) (i : Instr) (h : Hdr) : Bool :=
  s.atWord && s.accepts i h && !(s.firstPass && s.me.skipped s.curStream h)
    && !(isListed i s.me s.curStream && s.me.replaySkip s.curStream) && s.replayRule i h ≠ .wait && s.waitOpen h
    && s.stampDue && !s.strm.rptNone s.curStream

/-- The count of counter w taken (R28): the stream learns what the count carries, and keeps it for a stop (R33). -/
def State.takeCounter (s : State) (w : Nat) : State :=
  ((s.withMe (s.me.takeCount w).1).learn s.agent (s.me.takeCount w).2).modStrm fun x =>
    { x with taken := some (w, (s.me.takeCount w).2), waitOn := 0 }

/-- The word issues. -/
def State.issue (s : State) : State := s.modStrm fun x => { x with issued := true, issuedAt := s.seq, blocked := false }

/-- The wait taken (R28, R75). -/
def State.takeWait (s : State) (h : Hdr) : State :=
  State.issue
    (if 0x01 ≤ h.w && h.w ≤ 0x3F then s.takeCounter h.w
     else if 0x40 ≤ h.w && h.w ≤ 0x4F then s.learn s.agent (SMap.get Rdv.reset s.me.rdv (h.w - 0x40)).clk
     else s)

/-- The replay list as the word leaves it (R420). -/
def State.replayed (s : State) (i : Instr) (h : Hdr) : State :=
  if s.replayRule i h = .drop then s.withMe (s.me.setReplay s.curStream none) else s

/-- The state in which a ready word's effects take place: its wait is taken, its stamp used up, and the replay list
dropped where the word may not be replayed. -/
def State.waited (s : State) (i : Instr) (h : Hdr) : State :=
  let s1 := s.replayed i h
  let s2 := if s.strm.issued then s1 else if !s.firstPass then s1.issue else s1.takeWait h
  if (s.curStream = .c || s.curStream = .a) && s.strm.stamp.isSome then s2.modStrm fun x => { x with stamp := none }
  else s2

/-- The word's own signals fit their counters (R77): the count of G and of SIGNAL on the own core. -/
def State.signalsFit (s : State) (h : Hdr) (l : List (Bool × Nat × Nat)) (g : Bool) : Bool :=
  (raises h ⟨.fall, l⟩ g).all fun p => p.1 || s.me.count p.2.1 + localSum (raises h ⟨.fall, l⟩ g) p.2.1 ≤ 65535

/-! What a word leaves alone. -/

/-- A core without what the issue and the retirement of any word change: the streams' sequencing, the counters, the
signals on their way to the coupled core, the nest with what it hands to markers, the matrix unit's drain, the removals
that C waits for, and the replay lists. -/
def Core.apart (c : Core) : Core :=
  { c with sC := .reset, sA := .reset, sV := .reset, sM := .reset, cnt := [], cntClk := [], flight := [], nest := none,
           drain := none, invWait := [], doneClk := [],
           eq := SMap.set [] c.eq 5 ((c.equeue 5).map fun m => { m with clk := [] }),
           replayC := none, replayA := none }

/-- The package without the cores, the agents' knowledge and the event number. -/
def State.apart (s : State) : State := { s with cores := [], clk := [], seq := 0 }

/-- Nothing changed but the executing core's part of issuing and retiring a word, and what `c` says of that core. -/
structure State.OnlyMe (s t : State) (c : Core) : Prop where
  package : t.apart = s.apart
  others : ∀ j, j ≠ s.curCore → t.core j = s.core j
  mine : t.me.apart = c.apart

end Sys2Proof.Machine
end

