-- ==== Sys2Proof/Certificates/Slice0/Obligations.lean ====
section
/-! DEFINITION. What the provers are asked about: statements of the manual's rules over this machine. -/

open Sys2Proof Sys2Proof.Machine

namespace Sys2Proof.Machine

/-! ### Integer words -/

/-- Destination and result of an integer word of R102 to R108, R134 and R135, over the registers it reads. -/
def intResult (r : Nat → Word) : Instr → Option (Nat × Word)
  | .add _ d a b => some (d, r a + r b)
  | .sub _ d a b => some (d, r a - r b)
  | .mul _ d a b => some (d, r a * r b)
  | .mulh _ .ss d a b => some (d, BitVec.ofInt 64 ((r a).toInt * (r b).toInt / 2 ^ 64))
  | .mulh _ .uu d a b => some (d, BitVec.ofInt 64 (((r a).toNat : Int) * (r b).toNat / 2 ^ 64))
  | .mulh _ .su d a b => some (d, BitVec.ofInt 64 ((r a).toInt * (r b).toNat / 2 ^ 64))
  | .and _ d a b => some (d, r a &&& r b)
  | .or _ d a b => some (d, r a ||| r b)
  | .xor _ d a b => some (d, r a ^^^ r b)
  | .shl _ d a b => some (d, if (r b).toNat < 64 then r a <<< (r b).toNat else 0)
  | .shr _ d a b => some (d, if (r b).toNat < 64 then r a >>> (r b).toNat else 0)
  | .sar _ d a b => some (d, (r a).sshiftRight (min (r b).toNat 64))
  | .clz _ d a => some (d, (r a).clz)
  | .popc _ d a => some (d, BitVec.ofNat 64 ((List.range 64).countP fun n => (r a).getLsbD n))
  | .min _ true d a b => some (d, if (r b).ult (r a) then r b else r a)
  | .min _ false d a b => some (d, if (r b).slt (r a) then r b else r a)
  | .max _ true d a b => some (d, if (r a).ult (r b) then r b else r a)
  | .max _ false d a b => some (d, if (r a).slt (r b) then r b else r a)
  | .cmp _ k d a b => some (d, if (match k with
      | .eq => r a = r b | .ne => r a ≠ r b
      | .lt => (r a).toInt < (r b).toInt | .ge => (r a).toInt ≥ (r b).toInt
      | .ltu => (r a).toNat < (r b).toNat | .geu => (r a).toNat ≥ (r b).toNat
      | .le => (r a).toInt ≤ (r b).toInt | .gt => (r a).toInt > (r b).toInt
      | .leu => (r a).toNat ≤ (r b).toNat | .gtu => (r a).toNat > (r b).toNat : Bool) then 1 else 0)
  | .sel _ d c a b => some (d, if r c ≠ 0 then r a else r b)
  | .movi _ d imm => some (d, (BitVec.ofNat 32 imm).signExtend 64)
  | .sext _ .s8 d a => some (d, ((r a).setWidth 8).signExtend 64)
  | .sext _ .s16 d a => some (d, ((r a).setWidth 16).signExtend 64)
  | .sext _ .s32 d a => some (d, ((r a).setWidth 32).signExtend 64)
  | .sext _ .z8 d a => some (d, ((r a).setWidth 8).setWidth 64)
  | .sext _ .z16 d a => some (d, ((r a).setWidth 16).setWidth 64)
  | .sext _ .z32 d a => some (d, ((r a).setWidth 32).setWidth 64)
  | .movl _ .s32 d lit => some (d, (BitVec.ofNat 32 lit).signExtend 64)
  | .movl _ .z32 d lit => some (d, (BitVec.ofNat 32 lit).setWidth 64)
  | .movl _ .s48 d lit => some (d, (BitVec.ofNat 48 lit).signExtend 64)
  | .movl _ .h48 d lit => some (d, (BitVec.ofNat 48 lit).setWidth 64 <<< 16)
  | .addi _ d a imm => some (d, r a + (BitVec.ofNat 20 imm).signExtend 64)
  | _ => none

/-- The quotient or remainder of R104 for a divisor other than 0. -/
def divResult (r : Nat → Word) : Instr → Option (Nat × Nat × Word)
  | .div _ true d a b => some (b, d, r a / r b)
  | .div _ false d a b => some (b, d, BitVec.ofInt 64 ((r a).toInt.tdiv (r b).toInt))
  | .rem _ true d a b => some (b, d, r a % r b)
  | .rem _ false d a b => some (b, d, BitVec.ofInt 64 ((r a).toInt.tmod (r b).toInt))
  | _ => none

/-- Divisor register of DIV and REM. -/
def divisorOf : Instr → Option Nat
  | .div _ _ _ _ b | .rem _ _ _ _ b => some b
  | _ => none

end Sys2Proof.Machine

/-- R102 to R108, R134, R135: a ready integer word writes its result to S[d] (nothing when d = 0) and retires; the next
state is the one after its wait with that register written, and nothing else but the retirement. -/
def Obligations.IntegerWordWritesResultAndRetires : Prop :=
  ∀ (s : State) (i : Instr) (h : Hdr) (d : Nat) (v : Word), i.hdr = some h → intResult s.sreg i = some (d, v) →
    s.ready i h = true → exec i s = .next (((s.waited i h).setS d v).retire i h fall)

/-- R104: DIV and REM by a divisor other than 0 write quotient or remainder, the signed ones truncated toward zero. -/
def Sys2Proof.Machine.DivideWritesQuotientOrRemainder : Prop :=
  ∀ (s : State) (i : Instr) (h : Hdr) (b d : Nat) (v : Word), i.hdr = some h → divResult s.sreg i = some (b, d, v) →
    s.sreg b ≠ 0 → s.ready i h = true → exec i s = .next (((s.waited i h).setS d v).retire i h fall)

/-- R104: DIV and REM by 0 raise DIVZERO, whatever d is, and write nothing. -/
def Sys2Proof.Machine.DivideByZeroFaults : Prop :=
  ∀ (s : State) (i : Instr) (h : Hdr) (b : Nat), i.hdr = some h → divisorOf i = some b → s.sreg b = 0 →
    s.ready i h = true →
    exec i s = .next ((s.waited i h).takeFault s.curCore (.ofStream s.curStream 0x1A 0 0) false)

/-- R104: DIV and REM write quotient and remainder, and fault when the divisor is 0, as both parts state. -/
def Obligations.DivisionTruncatesAndFaultsOnZero : Prop :=
  DivideWritesQuotientOrRemainder ∧ DivideByZeroFaults

namespace Sys2Proof.Machine

/-! ### Retirement and control flow -/

/-- Signed reading of a field of n bits. -/
def sfield (n x : Nat) : Int := (BitVec.ofNat n x).toInt

/-- The condition of BR over S[c] (R114). -/
def branchHolds (k : BrCond) (x : Word) : Prop :=
  match k with
  | .z => x = 0 | .nz => x ≠ 0 | .lt => x.toInt < 0 | .ge => x.toInt ≥ 0 | .gt => x.toInt > 0 | .le => x.toInt ≤ 0
  | .odd => x.toNat % 2 = 1 | .even => x.toNat % 2 = 0 | .al => True

/-- The word has not waited since its issue: one that did issued before the iteration that runs, if any (R399). -/
def State.fresh (s : State) : Prop := ¬ (s.strm.issued = true ∧ s.strm.blocked = true)

/-- G is raised by this retirement (R29, R171): not by an LDQ, nor by a repetition of an RPT before the last. -/
def State.raisesG (s : State) (i : Instr) : Bool :=
  match i with
  | .rpt .. => true
  | .ldq .. => false
  | _ => s.curStream ≠ .v || s.me.sV.lastRep

end Sys2Proof.Machine

/-- R29, R74, R76, R77, R125: a word that falls through and whose signals fit changes nothing of the package but the
executing core, and of that core only counters, signals in flight, the nest with what its end hands to markers, and the
stream's sequencing. Outside nests,
loops and RPT the PC moves on by 8 bytes, or 16 with a literal, round the window. Its counter G goes up by one, and no
other counter changes; a count for the coupled core goes on its way. -/
def Sys2Proof.Machine.FallThroughRetirementMovesPcAndRaisesG : Prop :=
  ∀ (s : State) (i : Instr) (h : Hdr), s.me.st = .running → s.signalsFit h [] (s.raisesG i) = true →
    s.OnlyMe (s.retire i h fall) s.me ∧
    ((s.curStream ≠ .m ∨ s.me.nest = none) → s.strm.rpt = none → s.strm.seqr = [] →
      (s.retire i h fall).strm.pc = s.strm.plus s.strm.pc (8 * spanOf i) ∧ (s.retire i h fall).strm.issued = false) ∧
    (∀ n, (s.retire i h fall).me.count n =
      s.me.count n + (if s.raisesG i = true ∧ n = h.g ∧ 0x01 ≤ h.g ∧ h.g ≤ 0x3F then 1 else 0)) ∧
    (s.retire i h fall).me.flight = s.me.flight ++
      (if s.raisesG i = true ∧ 0x41 ≤ h.g ∧ h.g ≤ 0x7F then
        [(h.g - 0x40, 1, s.curStream.num, (s.learnPopped s.curCore s.curStream).token s.agent)] else [])

/-- R167: in A and V a word that ends the body of the innermost loop starts its next pass, with the index one higher, or
closes the loop after the last, and the stream goes on behind the body, in the enclosing loop if it has one; a word before
the end of the body only moves the PC. R171: V stands at an RPT for all its repetitions, and then passes it and its target.
R263 to R265: M stands where it is while a nest runs; each word is followed by the next body word, and the last by the first
one of the next iteration, the innermost level that is not at its end moving on and those inside it starting again; after
the last iteration no nest runs. -/
def Sys2Proof.Machine.PassesRepetitionsAndNestsAdvance : Prop :=
  ∀ (s : State) (i : Instr) (h : Hdr), s.me.st = .running → s.signalsFit h [] (s.raisesG i) = true →
    let t := s.retire i h fall
    let x := s.strm
    (∀ l ls, s.curStream = .a ∨ s.curStream = .v → x.rpt = none → x.seqr = l :: ls →
      let after := x.plus l.body (8 * l.len)
      (x.dist l.body x.pc + 8 * spanOf i < 8 * l.len →
        t.strm.seqr = x.seqr ∧ t.strm.pc = x.plus x.pc (8 * spanOf i)) ∧
      (x.dist l.body x.pc + 8 * spanOf i = 8 * l.len → x.dist l.body after = 8 * l.len →
        (l.idx + 1 < l.count → t.strm.seqr = { l with idx := l.idx + 1 } :: ls ∧ t.strm.pc = l.body) ∧
        (l.count ≤ l.idx + 1 → (∀ m ∈ ls.head?, x.dist m.body after ≠ 8 * m.len) →
          t.strm.seqr = ls ∧ t.strm.pc = after))) ∧
    (∀ r n, s.curStream = .v → x.rpt = some (r, n) →
      (r + 1 < n → t.strm.rpt = some (r + 1, n) ∧ t.strm.pc = x.pc ∧ t.strm.seqr = x.seqr) ∧
      (n ≤ r + 1 → x.seqr = [] → t.strm.rpt = none ∧ t.strm.pc = x.plus x.pc (8 * (spanOf i + 1)))) ∧
    (∀ idx w, s.curStream = .m → s.me.nest = some (idx, w) →
      let count := fun l => (SMap.get 0 s.me.plane (0x10 + 8 * l)).toNat
      let more := fun l => idx.getD l 0 + 1 < count l
      t.strm.pc = x.pc ∧ (w + 1 < (SMap.get 0 s.me.plane 2).toNat → t.me.nest = some (idx, w + 1)) ∧
      ((SMap.get 0 s.me.plane 2).toNat ≤ w + 1 → idx.length = 6 →
        (∀ l < 6, more l → (∀ m < 6, l < m → ¬ more m) → t.me.nest = some ((List.range 6).map fun m =>
          if m < l then idx.getD m 0 else if m = l then idx.getD l 0 + 1 else 0, 0)) ∧
        ((∀ l < 6, ¬ more l) → t.me.nest = none)))

/-- R168: a taken transfer sets the PC to its target, and the loops whose bodies do not hold the target end; outside
loops the sequencer stays empty. It changes no more than a word that falls through. -/
def Sys2Proof.Machine.TakenTransferSetsPc : Prop :=
  ∀ (s : State) (i : Instr) (h : Hdr) (pc : Word), s.me.st = .running → s.signalsFit h [] (s.raisesG i) = true →
    s.OnlyMe (s.retire i h ⟨.jump pc, []⟩) s.me ∧ (s.retire i h ⟨.jump pc, []⟩).strm.pc = pc ∧
    (∀ l ∈ (s.retire i h ⟨.jump pc, []⟩).strm.seqr.head?, l.holds (s.retire i h ⟨.jump pc, []⟩).strm pc = true) ∧
    (s.strm.seqr = [] → (s.retire i h ⟨.jump pc, []⟩).strm.seqr = [])

/-- R77: a raise that would pass 65,535 leaves the counter as it is, and the word that makes it takes SIGOV after its
other effects. -/
def Sys2Proof.Machine.CounterOverflowKeepsCountAndFaults : Prop :=
  ∀ (s : State) (i : Instr) (h : Hdr), s.me.st = .running → s.raisesG i = true → 0x01 ≤ h.g → h.g ≤ 0x3F →
    s.me.count h.g = 65535 →
    ∃ u : State, s.retire i h fall = u.takeFault s.curCore (.ofStream s.curStream 0x1B 0 0) false ∧
      u.me.count h.g = 65535 ∧ s.OnlyMe u s.me

/-- R50, R48, R51, R84: NOP and the hints only wait and signal, and SIGNAL adds its count to its counter at its
retirement. -/
def Sys2Proof.Machine.NopHintAndSignalOnlyRetire : Prop :=
  ∀ (s : State) (h : Hdr),
    (s.ready (.nop h) h = true → exec (.nop h) s = .next ((s.waited (.nop h) h).retire (.nop h) h fall)) ∧
    (∀ n, s.ready (.hint h n) h = true →
      exec (.hint h n) s = .next ((s.waited (.hint h n) h).retire (.hint h n) h fall)) ∧
    (∀ n cpl c, s.ready (.signal h n cpl c) h = true → ∃ t : State, exec (.signal h n cpl c) s = .next t ∧
      t = (s.waited (.signal h n cpl c) h).retire (.signal h n cpl c) h ⟨.fall, if n = 0 then [] else [(cpl, c, n)]⟩ ∧
      (cpl = false → h.g = 0 → h.w = 0 → s.me.count c + n ≤ 65535 → t.me.count c = s.me.count c + n))

/-- R114, R117: BR goes to the word off words on, round the window in A, when S[c] meets the condition, else to the next
word; no register changes. -/
def Sys2Proof.Machine.BranchFollowsItsCondition : Prop :=
  ∀ (s : State) (h : Hdr) (k : BrCond) (c off : Nat), s.ready (.br h k c off) h = true →
    (branchHolds k (s.sreg c) → exec (.br h k c off) s = .next ((s.waited (.br h k c off) h).retire (.br h k c off) h
      ⟨.jump (s.strm.plus s.strm.pc (8 * sfield 28 off)), []⟩)) ∧
    (¬ branchHolds k (s.sreg c) →
      exec (.br h k c off) s = .next ((s.waited (.br h k c off) h).retire (.br h k c off) h fall))

/-- R115, R116: JMP goes to S[a] + 8x and RET to S[a]; a register that is not a multiple of 8 is ALIGN, and that the
record holds it as the address is the model's choice (log entry 79). CALL writes the address of the next word to its link
register and goes off words on. -/
def Sys2Proof.Machine.JumpCallAndReturnTargets : Prop :=
  ∀ (s : State) (h : Hdr),
    (∀ a off, s.ready (.jmp h a off) h = true →
      ((s.sreg a).toNat % 8 = 0 → exec (.jmp h a off) s = .next ((s.waited (.jmp h a off) h).retire (.jmp h a off) h
        ⟨.jump (s.strm.plus (s.sreg a) (8 * sfield 20 off)), []⟩)) ∧
      ((s.sreg a).toNat % 8 ≠ 0 → exec (.jmp h a off) s = .next ((s.waited (.jmp h a off) h).takeFault s.curCore
        (.ofStream s.curStream 0x05 (s.sreg a) 0) false))) ∧
    (∀ a, s.ready (.ret h a) h = true →
      ((s.sreg a).toNat % 8 = 0 → exec (.ret h a) s = .next ((s.waited (.ret h a) h).retire (.ret h a) h
        ⟨.jump (s.strm.plus (s.sreg a) 0), []⟩)) ∧
      ((s.sreg a).toNat % 8 ≠ 0 → exec (.ret h a) s = .next ((s.waited (.ret h a) h).takeFault s.curCore
        (.ofStream s.curStream 0x05 (s.sreg a) 0) false))) ∧
    (∀ c off, s.ready (.call h c off) h = true →
      exec (.call h c off) s = .next (((s.waited (.call h c off) h).setS c (s.strm.pc + 8)).retire (.call h c off) h
        ⟨.jump (s.strm.plus s.strm.pc (8 * sfield 28 off)), []⟩))

/-- R63, R82, R83: a JOIN of C, A or V, its earlier accesses done, gives the stream's flags to its node and ends the
stream's fetching outside a handler; it waits for those accesses, and a JOIN of V that waits takes the stop of a fault of A
that waits for V (R379). M's JOIN ends the stream once C has joined and no nest runs (R265), and until then it waits with the
wait it has taken, which is the model's choice (log entry 77). In an iteration of a Virga loop JOIN is SPECVIOL (R399). -/
def Sys2Proof.Machine.JoinEndsTheStream : Prop :=
  ∀ (s : State) (h : Hdr), s.ready (.join h) h = true → s.me.joinWait = none →
    (s.me.inIter = false → s.me.accessesDone s.curStream = true → s.signalsFit h [] (s.raisesG (.join h)) = true →
      (s.curStream ≠ .m ∨ (s.me.sC.joined = true ∧ s.me.nest = none)) →
      let t := (s.waited (.join h) h).modNode s.me.slot s.me.node fun n =>
        { n with flags := n.flags ||| s.me.flagsOf s.curStream }
      exec (.join h) s = .next (t.retire (.join h) h ⟨.join, []⟩) ∧
      (s.me.act = false → (t.retire (.join h) h ⟨.join, []⟩).strm.joined = true)) ∧
    (s.me.inIter = false → s.me.accessesDone s.curStream = false → s.curStream ≠ .v ∨ s.me.pend = none →
      exec (.join h) s = .next (s.waited (.join h) h).setBlocked) ∧
    (s.me.inIter = false → s.curStream = .m → ¬ (s.me.sC.joined = true ∧ s.me.nest = none) →
      ∃ t : State, exec (.join h) s = .next t ∧ t.me.joinWait.isSome ∧ t.strm.joined = s.strm.joined ∧ t.mem = s.mem) ∧
    (s.me.inIter = true → s.fresh → exec (.join h) s =
      .next ((s.waited (.join h) h).takeFault s.curCore (.ofStream s.curStream 0x12 0 0) false))

/-- R79, R85: MARK starts a new generation of Jn, fired at once when it names no engine, and puts one marker at the tail
of each engine that it names, once each of their queues has a free entry; that the matrix engine's markers fill no queue is
the model's choice (log entry 45). -/
def Sys2Proof.Machine.MarkPlacesOneMarkerInEachQueue : Prop :=
  ∀ (s : State) (h : Hdr) (j e : Nat), s.ready (.mark h j e) h = true →
    SMap.rising 0 s.me.rdv = true →
    (∀ n < 5, e.testBit n = true → s.cmdFill s.curCore n < 16) → s.signalsFit h [] true = true →
    ∃ t : State, exec (.mark h j e) s = .next t ∧
      (SMap.get Rdv.reset t.me.rdv j).gen = ((SMap.get Rdv.reset s.me.rdv j).gen + 1) % 256 ∧
      (SMap.get Rdv.reset t.me.rdv j).fired = decide (e = 0) ∧ (SMap.get Rdv.reset t.me.rdv j).pend = e ∧
      (∀ n < 6, ∃ m : List Cmd, t.me.equeue n = s.me.equeue n ++ m ∧
        m.map Cmd.kind = if e.testBit n then [.marker j (((SMap.get Rdv.reset s.me.rdv j).gen + 1) % 256)] else []) ∧
      t.mem = s.mem ∧ ∀ r, t.sreg r = s.sreg r

/-- R86: JWAIT goes on when a register of its mask has fired (`any`) or all have, or the mask is 0, and writes the
fired registers of the mask. -/
def Sys2Proof.Machine.JwaitReportsFiredRegisters : Prop :=
  ∀ (s : State) (h : Hdr) (d : Nat) (any : Bool) (mask : Nat), s.ready (.jwait h d any mask) h = true →
    (let fired := fun n => (SMap.get Rdv.reset s.me.rdv n).fired
     (∀ n < 16, mask.testBit n = false) ∨
      (if any then ∃ n < 16, mask.testBit n = true ∧ fired n = true else ∀ n < 16, mask.testBit n = true → fired n = true)) →
    ∃ (t : State) (v : Word), exec (.jwait h d any mask) s = .next (t.retire (.jwait h d any mask) h fall) ∧
      s.OnlyMe t (s.me.setSreg s.curStream d v) ∧
      ∀ n < 64, v.getLsbD n = (decide (n < 16) && mask.testBit n && (SMap.get Rdv.reset s.me.rdv n).fired)

/-- R87: in free mode HALT stops every core of its cohort and leaves the node halted with the low 32 bits of S[a]; in
frame mode it waits for the quantum boundary with that code, which is the model's choice of the code (log entry 46). -/
def Sys2Proof.Machine.HaltStopsTheCohort : Prop :=
  ∀ (s : State) (h : Hdr) (a : Nat) (n : Node), s.ready (.halt h a) h = true → s.me.inIter = false →
    (s.me.framed = false → s.nodeOf s.me.slot s.me.node = some n → n.st = .running →
      ∃ (t : State) (n' : Node), exec (.halt h a) s = .next t ∧ (∀ k ∈ s.cohort s.curCore, (t.core k).st = .halting) ∧
        t.nodeOf s.me.slot s.me.node = some n' ∧ n'.st = .halted ∧ n'.code = (s.sreg a).toNat % 2 ^ 32) ∧
    (s.me.framed = true → ∃ t : State, exec (.halt h a) s = .next t ∧ t.mem = s.mem ∧
      t.me.pend.bind PendingStop.halt = some ((s.sreg a).toNat % 2 ^ 32))

/-- What the retirement of a word that falls through does: PC and signals, the passes of loops, repetitions and nests, and
SIGOV where a counter would pass 65,535. -/
def Obligations.RetirementMovesPcAndRaisesSignals : Prop :=
  FallThroughRetirementMovesPcAndRaisesG ∧ PassesRepetitionsAndNestsAdvance ∧ CounterOverflowKeepsCountAndFaults

/-- BR, JMP, CALL and RET choose their target, and a taken transfer goes there and ends the loops it leaves. -/
def Obligations.TransfersGoToTheirTargets : Prop :=
  TakenTransferSetsPc ∧ BranchFollowsItsCondition ∧ JumpCallAndReturnTargets

/-- JOIN ends its stream, and HALT stops its cohort. -/
def Obligations.JoinAndHaltEndStreams : Prop :=
  JoinEndsTheStream ∧ HaltStopsTheCohort

/-- MARK places markers, and JWAIT waits for fired rendezvous registers. -/
def Obligations.MarkersAndRendezvousWaits : Prop :=
  MarkPlacesOneMarkerInEachQueue ∧ JwaitReportsFiredRegisters

namespace Sys2Proof.Machine

/-! ### System words -/

/-- The bytes [va, va + len) lie in granted banks of the own scratchpad, no Virga loop holds bank 15, and no write of the
registers that an access reads is open (R99, R219, R393). -/
def State.ownScratch (s : State) (va len : Nat) : Prop :=
  s.curCore < 512 ∧ va + len ≤ 0x400000 ∧ s.me.spec.role = 0 ∧ s.me.accSettled = true ∧
    ∀ o < len, (s.me.creg 0x051).getLsbD ((va + o) / 0x40000) = true

/-- No storage error stands and the core has no injection armed (R441, R445). -/
def State.arraysQuiet (s : State) : Prop := s.eccQuiet = true ∧ s.me.einj.getLsbD 63 = false

/-- No write to the bytes [pa, pa + len) is open: every path reads their latest values, and the read orders nothing
(R326, R348). -/
def State.settledBytes (s : State) (pa len : Nat) : Prop := ∀ i < len, (s.byteHist (pa + i)).closed = true

/-- Memory outside [pa, pa + len) reads as before. -/
def State.sameOutside (s t : State) (pa len : Nat) : Prop :=
  ∀ p, (p < pa ∨ pa + len ≤ p) → t.memByte p = s.memByte p

end Sys2Proof.Machine

/-- R95, R100, R101: CRD writes the register's value to S[d]; the core's number for CORE, and for a register that is held
as it stands the value held. CWR of such a register replaces its writable fields by those of S[a] and no other register. -/
def Sys2Proof.Machine.ControlRegisterReadsAndWrites : Prop :=
  ∀ (s : State) (h : Hdr) (n : Nat),
    (∀ d, s.ready (.crd h d n) h = true →
      exec (.crd h d n) s =
        .next (((s.waited (.crd h d n) h).setS d (s.me.crdVal s.curCore n)).retire (.crd h d n) h fall) ∧
      (n = 0x020 → s.me.crdVal s.curCore n = BitVec.ofNat 64 s.curCore) ∧
      (n ∉ [0x011, 0x020, 0x022, 0x064, 0x079, 0x07A, 0x091, 0x092, 0x093, 0x094, 0x098] →
        s.me.crdVal s.curCore n = s.me.creg n)) ∧
    (∀ a, s.ready (.cwr h a n) h = true → SMap.rising 0 s.me.cr = true → n ∉ [0x064, 0x079, 0x07A, 0x092, 0x098] →
      ∃ t : State, exec (.cwr h a n) s = .next (t.retire (.cwr h a n) h fall) ∧
        t.me.creg n = (s.me.creg n &&& ~~~(BitVec.ofNat 64 (cregMask n))) ||| (s.sreg a &&& BitVec.ofNat 64 (cregMask n)) ∧
        (∀ m, m ≠ n → t.me.creg m = s.me.creg m) ∧ t.mem = s.mem ∧ ∀ r, t.sreg r = s.sreg r)

/-- R49, R95, R416: in user mode ERET, CTXSAVE, CTXLOAD, TLBINV, a CRD or CWR of 0x080 to 0x0FF, and a CWR of a register
below them that only a supervisor writes (TVEC, the trap record, TPCC to TPCM, TLIVE0 and TLIVE1, ENBUDGET, VALLOT and
BANKALLOT), take PRIV before any wait or other check of their fields. -/
def Sys2Proof.Machine.PrivilegedWordInUserModeFaults : Prop :=
  ∀ (s : State) (i : Instr) (h : Hdr), i.hdr = some h → s.atWord = true → s.curStream = .c → s.me.sup = false →
    (match i with
     | .eret _ | .ctxsave .. | .ctxload .. | .tlbinv .. => True
     | .crd _ _ n => 0x80 ≤ n ∧ n ≤ 0xFF
     | .cwr _ _ n => (0x80 ≤ n ∧ n ≤ 0xFF) ∨ (0x010 ≤ n ∧ n ≤ 0x014) ∨ (0x019 ≤ n ∧ n ≤ 0x01F) ∨ n = 0x030 ∨ n = 0x050 ∨
        n = 0x051
     | _ => False) →
    exec i s = .next (s.takeFault s.curCore (.ofStream .c 0x02 0 0) false)

/-- R88: TRAP takes the fault TRAP with S[a] in the address field and its code in the status field. -/
def Sys2Proof.Machine.TrapRecordsRegisterAndCode : Prop :=
  ∀ (s : State) (h : Hdr) (a code : Nat), s.ready (.trap h a code) h = true →
    exec (.trap h a code) s = .next ((s.waited (.trap h a code) h).takeFault s.curCore
      (.ofStream s.curStream 0x1C (s.sreg a) (BitVec.ofNat 64 code)) false)

/-- R330: outside frame mode a FENCE makes every open write of its stream performed for the paths of its mask, and
changes no byte; in frame mode it only retires (R310). -/
def Sys2Proof.Machine.FencePerformsOwnWrites : Prop :=
  ∀ (s : State) (h : Hdr) (mask : Nat), s.ready (.fence h mask) h = true →
    (s.me.framed = false → ∃ t : State, exec (.fence h mask) s = .next (t.retire (.fence h mask) h fall) ∧ t.mem = s.mem ∧
      t.me.apart = s.me.apart ∧ (∀ j, j ≠ s.curCore → t.core j = s.core j) ∧
      ∀ p ∈ t.hist, ∀ e ∈ p.2.wr, e.agent = s.agent → ∀ n, mask.testBit n = true → e.perf.testBit n = true) ∧
    (s.me.framed = true → exec (.fence h mask) s =
      .next ((s.waited (.fence h mask) h).retire (.fence h mask) h fall))

/-- R317: in frame mode STAMP names the frame and cycle of the next word, a cycle past the quantum being ILLOP; outside
frame mode it only retires. -/
def Sys2Proof.Machine.StampNamesTheNextWordsCycle : Prop :=
  ∀ (s : State) (h : Hdr) (a : Nat) (abs : Bool) (cyc : Nat), s.ready (.stamp h a abs cyc) h = true →
    let w := s.waited (.stamp h a abs cyc) h
    let q := 2 ^ wfld (s.me.creg 0x060) 16 5
    (s.me.frame = false → exec (.stamp h a abs cyc) s = .next (w.retire (.stamp h a abs cyc) h fall)) ∧
    (s.me.frame = true → cyc < q → exec (.stamp h a abs cyc) s = .next ((w.modStrm fun x =>
      { x with stamp := some (if abs then (s.sreg a).toNat % 2 ^ 48 else s.me.frameNow.1, cyc) }).retire
        (.stamp h a abs cyc) h fall)) ∧
    (s.me.frame = true → q ≤ cyc →
      exec (.stamp h a abs cyc) s = .next (w.takeFault s.curCore (.ofStream s.curStream 0x01 0 0) false))

/-- R425, R431: PPOINT with no request pending, or in the handler, only retires. With a request, in free mode and M at a
retirement point, it records the live masks and the core stops, a pre-emption of kind 1. -/
def Sys2Proof.Machine.PpointStopsOnlyForARequest : Prop :=
  ∀ (s : State) (h : Hdr) (a b : Nat), s.ready (.ppoint h a b) h = true →
    let w := s.waited (.ppoint h a b) h
    ((s.me.horizon = none ∨ s.me.act = true) → exec (.ppoint h a b) s = .next (w.retire (.ppoint h a b) h fall)) ∧
    (s.me.horizon ≠ none → s.me.act = false → s.me.frame = false → s.me.atRetirement = true → ∃ u : State,
      exec (.ppoint h a b) s = .next (u.coreStop s.curCore none 1 s.thermStop) ∧
      u = w.withMe ((w.me.setCreg 0x01E (s.sreg a)).setCreg 0x01F (s.sreg b &&& BitVec.ofNat 64 (2 ^ 42 - 1))))

/-- R416 to R418, R424: a fault of a stream's word in free mode, outside a handler and a Virga loop, is recorded: cause,
path, stream, kind 0 and the mode in TREC0, the address and status in TREC1 and TREC2, the PCs of the streams in TPCC to
TPCM; those of streams that are not started or have joined too, which is the model's choice (log entry 81). With no command
started, no queue entry on its way and no command list to rewind to, memory is unchanged, and C goes on in supervisor mode at
TVEC with S48 to S63 those of the trap bank and S1 to S47 as they were, also where C is not started or has joined (the
model's choice, log entry 82). -/
def Sys2Proof.Machine.FaultEntersTheHandler : Prop :=
  ∀ (s : State) (f : FaultInfo), s.me.st = .running → s.me.act = false → s.me.frame = false → s.me.spec.role = 0 →
    s.me.pend = none → f.cmd = none → f.ecc = none → f.path < 16 → f.stream < 4 → f.code < 32 → s.me.nest = none →
    s.me.replayC = none → s.me.replayA = none → SMap.rising 0 s.me.cr = true → s.me.coupled = none →
    (∀ e < 5, s.me.runOf e = none) → (∀ x < 4, (SMap.get NearEng.reset s.sel x).runOf s.curCore = none) →
    (∀ x < 4, (SMap.get NearEng.reset s.red x).runOf s.curCore = none) →
    (∀ p ∈ s.me.trapBank, 48 ≤ p.1) → (∀ q < 2, ∀ e ∈ s.me.queue q, e.ready = true) →
    (∀ st, ∀ p ∈ (s.me.stream st).popped, p.2.ready = true) →
    let t := s.takeFault s.curCore f false
    t.me.act = true ∧ wfld (t.me.creg 0x011) 0 5 = f.code ∧ wfld (t.me.creg 0x011) 7 2 = 0 ∧
    wfld (t.me.creg 0x011) 9 4 = f.path ∧ wfld (t.me.creg 0x011) 13 2 = f.stream ∧
    (t.me.creg 0x011).getLsbD 15 = s.me.sup ∧ t.me.creg 0x012 = f.addr ∧ t.me.creg 0x013 = f.stat ∧
    t.me.creg 0x019 = s.me.sC.pc &&& ~~~7 ∧ t.me.creg 0x01A = s.me.sA.pc &&& ~~~7 ∧
    t.me.creg 0x01B = s.me.sV.pc &&& ~~~7 ∧ t.me.creg 0x01C = s.me.sM.pc &&& ~~~7 ∧
    t.me.sup = true ∧ t.me.sC.pc = s.me.creg 0x010 ∧ t.mem = s.mem ∧
    (∀ r, 48 ≤ r → t.me.sreg .c r = SMap.get 0 s.me.trapBank r) ∧ (∀ r, r < 48 → t.me.sreg .c r = s.me.sreg .c r) ∧
    (∀ r, 48 ≤ r → SMap.get 0 t.me.trapBank r = SMap.get 0 s.me.regC r)

/-- R424: a fault in the handler is a double fault: the core stays dead, TREC0 holds DBLFAULT, and the two codes. That a
fault of a command there is one too is the model's choice (log entry 47). -/
def Sys2Proof.Machine.FaultInHandlerIsDoubleFault : Prop :=
  ∀ (s : State) (f : FaultInfo), s.me.st = .running → s.me.act = true → s.me.spec.role ≠ 3 → f.ecc = none →
    f.code < 32 → s.me.lastCause < 32 → SMap.rising 0 s.me.cr = true →
    let t := s.takeFault s.curCore f false
    t.me.st = .dead ∧ wfld (t.me.creg 0x011) 0 5 = 0x1D ∧ wfld (t.me.creg 0x011) 19 5 = s.me.lastCause ∧
    wfld (t.me.creg 0x011) 24 5 = f.code ∧ t.me.creg 0x012 = f.addr

/-- R432: ERET outside a handler is ILLOP. In a handler with no command to place again it goes to TPCC in the mode of
TREC0 bit 15, act is clear, S48 to S63 are exchanged with the trap bank, and A, V and M stand at their TPC registers. -/
def Sys2Proof.Machine.EretLeavesTheHandler : Prop :=
  ∀ (s : State) (h : Hdr), s.ready (.eret h) h = true →
    (s.me.act = false → exec (.eret h) s =
      .next ((s.waited (.eret h) h).takeFault s.curCore (.ofStream s.curStream 0x01 0 0) false)) ∧
    (s.me.act = true → s.me.held = [] → s.me.failing = none → s.me.nestPc = none → s.signalsFit h [] true = true →
      SMap.rising 0 s.me.cr = true → (∀ p ∈ s.me.trapBank, 48 ≤ p.1) →
      ∃ t : State, exec (.eret h) s = .next t ∧ t.me.act = false ∧ t.me.sup = (s.me.creg 0x011).getLsbD 15 ∧
        t.me.sC.pc = s.me.creg 0x019 ∧ t.me.sA.pc = s.me.creg 0x01A ∧ t.me.sV.pc = s.me.creg 0x01B ∧
        t.me.sM.pc = s.me.creg 0x01C ∧ t.mem = s.mem ∧
        (∀ r, 48 ≤ r → t.me.sreg .c r = SMap.get 0 s.me.trapBank r) ∧
        (∀ r, r < 48 → t.me.sreg .c r = s.me.sreg .c r) ∧
        (t.me.creg 0x018).getLsbD 63 = (s.me.creg 0x011).getLsbD 16)

/-- R254: in user-level interrupt context UIRET goes to UIPC, clears the context bit and exchanges S56 to S63 with the
shadow bank; outside it UIRET is ILLOP. -/
def Sys2Proof.Machine.UiretLeavesTheInterrupt : Prop :=
  ∀ (s : State) (h : Hdr), s.ready (.uiret h) h = true →
    ((s.me.creg 0x018).getLsbD 63 = false → exec (.uiret h) s =
      .next ((s.waited (.uiret h) h).takeFault s.curCore (.ofStream s.curStream 0x01 0 0) false)) ∧
    ((s.me.creg 0x018).getLsbD 63 = true → s.signalsFit h [] true = true → SMap.rising 0 s.me.cr = true →
      (∀ p ∈ s.me.shadow, 56 ≤ p.1) →
      ∃ t : State, exec (.uiret h) s = .next t ∧ t.me.sC.pc = s.me.creg 0x016 ∧ (t.me.creg 0x018).getLsbD 63 = false ∧
        t.mem = s.mem ∧ (∀ r, 56 ≤ r → t.me.sreg .c r = SMap.get 0 s.me.shadow r) ∧
        (∀ r, r < 56 → t.me.sreg .c r = s.me.sreg .c r))

/-- R426 to R430, R433: in a handler, a CTXSAVE to a 64-byte aligned area of the own scratchpad, no storage error
standing and no write to it open, writes the save image there and no other byte, and its size to S[d]; with `yield`, which
waits for signals on their way to the coupled core, the core's job ends as pre-empted. Outside a handler it is ILLOP. -/
def Sys2Proof.Machine.ContextSaveWritesTheImage : Prop :=
  ∀ (s : State) (h : Hdr) (d a : Nat) (y : Bool), s.ready (.ctxsave h d a y) h = true →
    let w := s.waited (.ctxsave h d a y) h
    let l := s.me.live (s.me.creg 0x01E).toNat (s.me.creg 0x01F).toNat
    let img := headerBytes w.me (s.replyMask s.curCore) l ++ stateBytes w.me s.curCore ++ controlBytes w.me ++
      unitBytes w.me ++ recordBytes s w.me ++ liveBytes s w.me s.curCore l
    (s.me.act = false → exec (.ctxsave h d a y) s = .next (w.takeFault s.curCore (.ofStream s.curStream 0x01 0 0) false)) ∧
    (s.me.act = true → (s.sreg a).toNat % 64 = 0 → y = true → s.me.flight ≠ [] →
      exec (.ctxsave h d a y) s = .next w.setBlocked) ∧
    (s.me.act = true → (s.sreg a).toNat % 64 = 0 → (y = true → s.me.flight = []) →
      s.ownScratch (s.sreg a).toNat img.length → s.arraysQuiet →
        s.settledBytes (scratchPa s.curCore (s.sreg a).toNat) img.length → s.Inv →
      ∃ t : State, t.peek (scratchPa s.curCore (s.sreg a).toNat) img.length = img ∧
        s.sameOutside t (scratchPa s.curCore (s.sreg a).toNat) img.length ∧
        t.sreg d = (if d = 0 then 0 else BitVec.ofNat 64 l.size) ∧
        exec (.ctxsave h d a y) s = .next (if y then t.yieldCore s.curCore else t.retire (.ctxsave h d a y) h fall))

/-- R426 to R429, R467: what the save image of a core holds, by offset. Streams that are not started have zeros. -/
structure Sys2Proof.Machine.Core.SavedAs (c : Core) (k : Nat) (l : Live) (b : List Byte) : Prop where
  header : imgNat b 0 2 = 1 ∧ imgNat b 2 1 % 4 = wfld (c.creg 0x011) 7 2 ∧
    imgNat b 3 1 = (if l.banks.isEmpty then 1 else 0) ∧
    imgNat b 8 8 = 0x0015_0100_1C26_8040 ∧ imgWord b 24 = c.creg 0x01E ∧ imgWord b 32 = c.creg 0x01F ∧
    imgNat b 40 8 = l.size ∧ b.length = l.size ∧ imgWord b 48 = c.creg 0x080
  cregs : ∀ n < 128, imgWord b (0x100 + 8 * n) = c.crdVal k n
  regsC : ∀ r, 0 < r → r < 64 → imgWord b (0x500 + 8 * r) =
    if c.sC.started = false then 0 else if r < 48 then SMap.get 0 c.regC r else SMap.get 0 c.trapBank r
  regsA : ∀ r, 0 < r → r < 64 → imgWord b (0x700 + 8 * r) = if c.sA.started = false then 0 else SMap.get 0 c.regA r
  shadow : ∀ r, 56 ≤ r → r < 64 →
    imgWord b (0x900 + 8 * (r - 56)) = if c.sC.started = false then 0 else SMap.get 0 c.shadow r
  counters : ∀ n, 0 < n → n < 64 → imgNat b (0x1000 + 2 * n) 2 = c.count n % 2 ^ 16
  rendezvous : ∀ n < 16, let r := SMap.get Rdv.reset c.rdv n
    imgNat b (0x1080 + 8 * n) 8 = r.fired.toNat + r.pend % 64 * 2 + r.gen % 256 * 256
  gens : (∀ o ∈ [(0x1100, c.sC.started, c.genC), (0x1130, c.sA.started, c.genA), (0x1160, c.sV.started, c.genV)],
    imgNat b o.1 16 = (if o.2.1 then o.2.2.x.toNat else 0) ∧ imgNat b (o.1 + 16) 16 = (if o.2.1 then o.2.2.c.toNat else 0) ∧
      imgNat b (o.1 + 32) 16 = if o.2.1 then o.2.2.x0.toNat else 0)
  frames : imgWord b 0x1318 = c.creg 0x061 ∧ ∀ n < 4, imgNat b (0x1300 + 4 * n) 4 = SMap.get 0 c.phase n % 2 ^ 32
  narrow : ∀ q, 3 ≤ q → q < 16 → imgNat b (0x1480 + 136 * (q - 3)) 8 = (c.queue q).length % 2 ^ 64 ∧
    ∀ i e, i < 16 → (c.queue q)[i]? = some e → imgWord b (0x1480 + 136 * (q - 3) + 8 + 8 * i) = lo64 e.img
  wide : ∀ q < 3, imgNat b (0x1B80 + 4160 * q) 8 = (c.queue q).length % 2 ^ 64 ∧
    ∀ i e, i < 8 → (c.queue q)[i]? = some e → imgNat b (0x1B80 + 4160 * q + 64 + 512 * i) 512 = e.img.toNat
  bank : ∀ n < 256, imgWord b (0x4C40 + 8 * n) = SMap.get 0 c.k n
  views : ∀ n < 32, imgNat b (0x5440 + 128 * n) 128 = (SMap.get 0 c.vw n).toNat
  planes : (∀ p ∈ planeFields.zipIdx, imgNat b (0x6440 + 8 * p.2) 2 = p.1.1 ∧
      imgNat b (0x6440 + 8 * p.2 + 2) 6 = (SMap.get 0 c.plane p.1.1).toNat ∧
      imgNat b (0x6440 + 3456 + 8 * p.2 + 2) 6 = (SMap.get 0 c.shadowPlane p.1.1).toNat)
  nest : imgNat b (0x7F40 + 24) 1 = c.nest.isSome.toNat
  formats : ∀ n < 16, imgWord b (0x9FC0 + 8 * n) = SMap.get 0 c.bfmt n
  slots : ∀ n < 64, let x := SMap.get Slot.reset c.smp n
    imgNat b (0xA040 + 96 * n) 4 = x.pos % 2 ^ 32 ∧ imgNat b (0xA040 + 96 * n + 4) 4 = x.last % 2 ^ 32 ∧
      imgNat b (0xA040 + 96 * n + 8) 1 = x.st % 256 ∧ imgNat b (0xA040 + 96 * n + 9) 1 = x.ids.length % 256
  preds : l.banks ≠ [] → ∀ n, 0 < n → n < 16 → imgNat b (0xE000 + 64 * (n - 1)) 64 = c.pred n % 2 ^ 512
  vregs : l.banks ≠ [] → ∀ i r, l.regs[i]? = some r →
    imgNat b (0xE000 + 960 + 32 * 1088 + 96 * l.regs.length + 512 * i) 512 = (SMap.get 0 c.v r).toNat

/-- R426 to R429, R467: CTXSAVE's image has the manual's layout: each part that the tables name at its offset. The bytes that
they give no meaning are zero but for the header's bytes 64 to 111, which hold the code windows of R123; both are the model's
choice (log entries 51 and 104). -/
def Sys2Proof.Machine.SaveImageHasTheLayout : Prop :=
  ∀ (s : State) (c : Core) (k mask : Nat), (∀ idx w, c.nest = some (idx, w) → idx.length = 6) →
    let l := c.live (c.creg 0x01E).toNat (c.creg 0x01F).toNat
    let b := headerBytes c mask l ++ stateBytes c k ++ controlBytes c ++ unitBytes c ++ recordBytes s c ++ liveBytes s c k l
    c.SavedAs k l b ∧ imgNat b 112 144 = 0 ∧ imgNat b 0x1340 320 = 0 ∧ imgNat b 0xD440 3008 = 0

/-- R429, R430: in a handler, a CTXLOAD from a 64-byte aligned area of the own scratchpad whose header passes the checks of
R429 and which names no barrier restores S1 to S47, A's registers and the control registers from it, but for reserved
bits, and writes the size
that the header gives to S[d]; a header that fails them is CTXGEOM. Outside a handler it is ILLOP. -/
def Sys2Proof.Machine.ContextLoadRestoresTheImage : Prop :=
  ∀ (s : State) (h : Hdr) (d a : Nat), s.ready (.ctxload h d a) h = true →
    let w := s.waited (.ctxload h d a) h
    let pa := scratchPa s.curCore (s.sreg a).toNat
    let hd := s.peek pa 256
    let l := s.me.live (imgNat hd 24 8) (imgNat hd 32 8)
    let img := s.peek pa l.size
    (s.me.act = false → exec (.ctxload h d a) s = .next (w.takeFault s.curCore (.ofStream s.curStream 0x01 0 0) false)) ∧
    (s.me.act = true → (s.sreg a).toNat % 64 = 0 → s.ownScratch (s.sreg a).toNat l.size → s.arraysQuiet →
    s.settledBytes pa l.size →
    (ctxOk s.me hd = true → imgNat hd 57 1 % 128 = 0 → SMap.rising 0 s.me.cr = true →
      ∃ t : State, exec (.ctxload h d a) s = .next (t.retire (.ctxload h d a) h fall) ∧
        (∀ r, 0 < r → r < 48 → r ≠ d → t.me.sreg .c r = imgWord img (0x500 + 8 * r)) ∧
        (∀ r, 0 < r → r < 64 → t.me.sreg .a r = imgWord img (0x700 + 8 * r)) ∧
        (0 < d → d < 48 → t.me.sreg .c d = BitVec.ofNat 64 (imgNat hd 40 8)) ∧
        (∀ n < 128, restored n = true → n ≠ 0x011 →
          t.me.creg n = imgWord img (0x100 + 8 * n) &&& BitVec.ofNat 64 (restoreMask n)) ∧
        ∀ n < 256, SMap.get 0 t.me.k n = imgWord img (0x4C40 + 8 * n)) ∧
    (ctxOk s.me hd = false →
      exec (.ctxload h d a) s = .next (w.takeFault s.curCore (.ofStream s.curStream 0x18 0 0) false)))

/-- CRD and CWR read and write control registers, privileged words in user mode are PRIV, and TRAP is recorded. -/
def Obligations.ControlRegisterPrivilegeAndTrap : Prop :=
  ControlRegisterReadsAndWrites ∧ PrivilegedWordInUserModeFaults ∧ TrapRecordsRegisterAndCode

/-- NOP and the hints only retire, FENCE performs writes, STAMP names a cycle, and PPOINT stops for a request only. -/
def Obligations.HintsFenceStampAndPpoint : Prop :=
  NopHintAndSignalOnlyRetire ∧ FencePerformsOwnWrites ∧ StampNamesTheNextWordsCycle ∧ PpointStopsOnlyForARequest

/-- A fault enters the handler, and one in the handler is a double fault. -/
def Obligations.FaultEntryAndDoubleFault : Prop :=
  FaultEntersTheHandler ∧ FaultInHandlerIsDoubleFault

/-- ERET leaves the trap handler, and UIRET the interrupt context. -/
def Obligations.ReturnsFromHandlers : Prop :=
  EretLeavesTheHandler ∧ UiretLeavesTheInterrupt

/-- CTXSAVE writes the image of the core in the manual's layout, and CTXLOAD restores it. -/
def Obligations.ContextSaveAndLoad : Prop :=
  ContextSaveWritesTheImage ∧ SaveImageHasTheLayout ∧ ContextLoadRestoresTheImage

namespace Sys2Proof.Machine

/-! ### Loads, stores, bank operations -/

/-- S[a] plus a signed byte offset of n bits, as an address (R118, R151). -/
def State.eaddr (s : State) (a n off : Nat) : Nat := (s.sreg a + (BitVec.ofNat n off).signExtend 64).toNat

/-- The executing stream reads [va, va + len) of its own scratchpad as memory holds it: granted banks, no storage error,
no open write, no buffered store. -/
def State.canRead (s : State) (va len : Nat) : Prop :=
  s.ownScratch va len ∧ s.eccQuiet = true ∧ s.settledBytes (scratchPa s.curCore va) len ∧ s.bufs = []

/-- It writes [va, va + len) of its own scratchpad at once: granted banks, free mode, nothing armed, and no write there
with which its own would race (R337). -/
def State.canWrite (s : State) (va len : Nat) : Prop :=
  s.ownScratch va len ∧ s.arraysQuiet ∧ s.settledBytes (scratchPa s.curCore va) len ∧ s.me.framed = false ∧ s.Inv

/-- A bank-ALU word changes [va, va + len) of its own scratchpad, whatever writes there are open: granted banks, nothing
armed, no buffered store. -/
def State.canAlu (s : State) (va len : Nat) : Prop :=
  s.ownScratch va len ∧ s.arraysQuiet ∧ s.bufs = [] ∧ s.Inv

/-- The memory of t is that of s with bytes at va of the executing core's scratchpad. -/
def State.stored (s t : State) (va : Nat) (b : List Byte) : Prop :=
  t.peek (scratchPa s.curCore va) b.length = b ∧ s.sameOutside t (scratchPa s.curCore va) b.length

/-- The number that len bytes of the own scratchpad hold, low byte first. -/
def State.ownNat (s : State) (va len : Nat) : Nat := leNat (s.peek (scratchPa s.curCore va) len)

/-- The walk of va from the table at t, at level n - 1 and down, reads settled entries in near DRAM and ends at a leaf: its
level, the address of its entry, and the entry (R370, R372). -/
def State.walksTo (s : State) (va : Nat) : Nat → Nat → Nat × Nat × Nat → Prop
  | 0, _, _ => False
  | l + 1, t, r =>
    let p := t + 8 * (va / 2 ^ (12 + 9 * l) % 512)
    let e := leNat (s.peek p 8)
    tierOf p = some .dram ∧ s.settledBytes p 8 ∧ e % 2 = 1 ∧
      if l = 0 ∨ e.testBit 1 = true then l < 3 ∧ r = (l, p, e) else s.walksTo va l (e / 4096 % 2 ^ 40 * 4096) r

/-- The executing stream's mode for its accesses: C's own, the job's for the others (R71). -/
def State.accMode (s : State) : Bool := if s.curStream = .c then s.me.sup else s.me.jobSup

/-- Address of the table at which walks begin (R368). -/
def State.rootTable (s : State) : Nat := (s.me.creg 0x080).toNat / 4096 % 2 ^ 40 * 4096

/-- The executing stream's TLB entry for va in its address space (R374). -/
def State.tlbHit (s : State) (va : Nat) : Option TlbEnt :=
  (SMap.get [] s.me.tlb s.curStream.num).find? fun e => e.covers ((s.me.creg 0x080).toNat % 4096) va

/-- [va, va + len) lies in one page of the translated addresses; no storage error stands, no store is buffered, no Virga
loop runs on the core, and no write of the registers that an access reads is open. -/
def State.translates (s : State) (va len : Nat) : Prop :=
  0x410000 ≤ va ∧ va < 2 ^ 57 ∧ va % 4096 + len ≤ 4096 ∧ s.eccQuiet = true ∧ s.bufs = [] ∧ s.me.spec.role = 0 ∧
    s.me.accSettled = true

/-- A page with these u and ns bits opens the frame bytes [pa, pa + len), in near DRAM, to the executing stream (R372). -/
def State.opens (s : State) (u ns : Bool) (pa len : Nat) : Prop :=
  (s.accMode = true ∨ u = true) ∧ (s.me.sec = true ∨ (ns = true ∧ s.nonSecure pa = true)) ∧ tierOf pa = some .dram ∧
    s.settledBytes pa len

/-- Where a leaf (level, entry's address, entry) that stands for itself maps va (R372). -/
def leafFrame (va : Nat) (r : Nat × Nat × Nat) : Nat :=
  r.2.2 / 4096 % 2 ^ 40 * 4096 / 2 ^ (12 + 9 * r.1) * 2 ^ (12 + 9 * r.1) + va % 2 ^ (12 + 9 * r.1)

/-- What LD writes (R119): the extended number, or both halves of a 16-byte one. -/
def ldRegs (c : Core) (st : Stream) (k : LdKind) (d n : Nat) : Core :=
  match k with
  | .s8 => c.setSreg st d ((BitVec.ofNat 8 n).signExtend 64)
  | .s16 => c.setSreg st d ((BitVec.ofNat 16 n).signExtend 64)
  | .s32 => c.setSreg st d ((BitVec.ofNat 32 n).signExtend 64)
  | .x128 => (c.setSreg st d (BitVec.ofNat 64 n)).setSreg st (d + 1) (BitVec.ofNat 64 (n / 2 ^ 64))
  | _ => c.setSreg st d (BitVec.ofNat 64 n)

/-- The bytes that ST stores (R119). -/
def storeBytes (r : Nat → Word) (k : StKind) (d : Nat) : List Byte :=
  match k with
  | .b128 => leBytes 8 (r d).toNat ++ leBytes 8 (r (d + 1)).toNat
  | _ => leBytes (stLen k) (r d).toNat

/-- New value of an AMO over w bits, and its flags (R230). -/
def amoResult (op : AmoOp) (w m y : Nat) : Nat × Flags :=
  match op with
  | .add => ((m + y) % 2 ^ w, 0) | .and => (m &&& y, 0) | .or => (m ||| y, 0) | .xor => (m ^^^ y, 0) | .swap => (y, 0)
  | .smin => (if (BitVec.ofNat w y).toInt < (BitVec.ofNat w m).toInt then y else m, 0)
  | .smax => (if (BitVec.ofNat w m).toInt < (BitVec.ofNat w y).toInt then y else m, 0)
  | .umin => (min m y, 0) | .umax => (max m y, 0)
  | .fadd => if w = 32 then fAdd fmt32 .rne (fmt32.unpack m) (fmt32.unpack y)
      else fAdd fmt64 .rne (fmt64.unpack m) (fmt64.unpack y)

/-- A core after flags of a stream are raised (R61); A has no flag register. -/
def Core.flagged (c : Core) (st : Stream) (f : Flags) : Core :=
  let up := fun n => if f = 0 then c else c.setCreg n (c.creg n ||| f.setWidth 64)
  match st with
  | .c => up 0x001 | .v => up 0x002 | .m => up 0x003 | .a => c

end Sys2Proof.Machine

/-- R118, R119: an LD from the own scratchpad writes the little-endian number at S[a] + off, extended as its kind says,
and changes nothing else; a 16-byte LD writes a register pair. -/
def Sys2Proof.Machine.LoadWritesTheBytesOfMemory : Prop :=
  ∀ (s : State) (h : Hdr) (k : LdKind) (at_ : At) (d a off : Nat), s.ready (.ld h k at_ d a off) h = true →
    (atUnit at_ = 0 ∨ s.eaddr a 14 off % atUnit at_ = 0) → s.canRead (s.eaddr a 14 off) (ldLen k) →
    ∃ t : State, exec (.ld h k at_ d a off) s = .next (t.retire (.ld h k at_ d a off) h fall) ∧
      s.OnlyMe t (ldRegs s.me s.curStream k d (s.ownNat (s.eaddr a 14 off) (ldLen k)))

/-- R368 to R375, R379: an LD at a translated address whose page the TLB holds reads the frame that its entry names, with
r, u and the world checked, or is PROT with why 3. (The level that XFSTAT then names is the entry's, and 7 for an address
that no walk takes: the model's choice, log entry 109.) Where the TLB holds no entry the tables are walked: at the leaf
the accessed bit is set, and no other byte of memory changes, the entry fills the TLB, and the frame that it names is
read; an invalid entry of the top table is XLATE with why 1, and so is with why 0 an address of 2^57 or more. Tables and
frame lie in near DRAM; the leaf is of no contiguous block, and its entry is not among the bytes read. R219: an address of
the own scratchpad in a bank that is not granted is PROT. (A fault of A waits for V, R379: these are C's.) -/
def Sys2Proof.Machine.TranslatedLoadsReadTheFrame : Prop :=
  ∀ (s : State) (h : Hdr) (k : LdKind) (at_ : At) (d a off : Nat), s.ready (.ld h k at_ d a off) h = true →
    let va := s.eaddr a 14 off
    let len := ldLen k
    let faults := fun code xf => exec (.ld h k at_ d a off) s = .next ((s.waited (.ld h k at_ d a off) h).takeFault s.curCore
      ⟨code, BitVec.ofNat 64 va, 0, 0, 0, 0, xf, none, none⟩ false)
    let reads := fun (t : State) pa => exec (.ld h k at_ d a off) s = .next (t.retire (.ld h k at_ d a off) h fall) ∧
      ({ s with mem := t.mem } : State).OnlyMe t
        { ldRegs s.me s.curStream k d (leNat (s.peek pa len)) with tlb := t.me.tlb }
    (atUnit at_ = 0 ∨ va % atUnit at_ = 0) →
    (s.translates va len →
      (∀ e, s.tlbHit va = some e →
        let pa := e.pa + va % e.size
        (e.r = true → s.opens e.u e.ns pa len → ∃ t, reads t pa ∧ t.mem = s.mem ∧
          ∀ x, x ∈ SMap.get [] t.me.tlb s.curStream.num ↔ x ∈ SMap.get [] s.me.tlb s.curStream.num) ∧
        (e.r = false → s.curStream = .c → faults 0x07 (some (xfstat e.level 0 3)))) ∧
      (s.tlbHit va = none →
        (∀ r : Nat × Nat × Nat, s.walksTo va 5 s.rootTable r → r.2.2.testBit 11 = false → r.2.2.testBit 4 = true →
          let pa := leafFrame va r
          s.opens (r.2.2.testBit 7) (r.2.2.testBit 58) pa len → (r.2.1 + 8 ≤ pa ∨ pa + len ≤ r.2.1) → s.Inv →
          ∃ t, reads t pa ∧ t.peek r.2.1 8 = leBytes 8 (r.2.2 ||| 0x100) ∧ s.sameOutside t r.2.1 8 ∧
            ∃ x ∈ SMap.get [] t.me.tlb s.curStream.num, x.covers ((s.me.creg 0x080).toNat % 4096) va = true ∧
              x.pa + va % x.size = pa) ∧
        (let p := s.rootTable + 8 * (va / 2 ^ 48 % 512)
         s.curStream = .c → tierOf p = some .dram → s.settledBytes p 8 → leNat (s.peek p 8) % 2 = 0 →
          faults 0x06 (some (xfstat 4 0 1))))) ∧
    (2 ^ 57 ≤ va → s.me.accSettled = true → s.curStream = .c → faults 0x06 (some (xfstat 7 0 0))) ∧
    (va + len ≤ 0x400000 → s.curCore < 512 → s.me.accSettled = true → (s.me.creg 0x051).getLsbD (va / 0x40000) = false →
      s.curStream = .c → faults 0x07 none)

/-- R118, R119: an ST to the own scratchpad in free mode stores the low bytes of S[d], or a register pair, at S[a] + off:
those bytes of memory, no other byte and no register. -/
def Sys2Proof.Machine.StoreWritesOnlyItsBytes : Prop :=
  ∀ (s : State) (h : Hdr) (k : StKind) (at_ : At) (d a off : Nat), s.ready (.st h k at_ d a off) h = true →
    (atUnit at_ = 0 ∨ s.eaddr a 14 off % atUnit at_ = 0) → s.canWrite (s.eaddr a 14 off) (stLen k) →
    ∃ t : State, exec (.st h k at_ d a off) s = .next (t.retire (.st h k at_ d a off) h fall) ∧
      s.stored t (s.eaddr a 14 off) (storeBytes s.sreg k d) ∧ t.me.apart = s.me.apart ∧
      ∀ j, j ≠ s.curCore → t.core j = s.core j

/-- R370 to R375: an ST in free mode at a translated address stores its bytes, and no other byte, in the frame that a dirty
TLB entry names, w, u and the world checked. Where the TLB holds no entry, or one that is not dirty, the tables are walked:
the leaf's accessed and dirty bits are set before, and besides the stored bytes nothing else of memory changes. Tables and
frame lie in near DRAM; the leaf is of no contiguous block, and its entry is not among the bytes stored. -/
def Sys2Proof.Machine.TranslatedStoresWriteTheFrame : Prop :=
  ∀ (s : State) (h : Hdr) (k : StKind) (at_ : At) (d a off : Nat), s.ready (.st h k at_ d a off) h = true →
    let va := s.eaddr a 14 off
    let len := stLen k
    let stores := fun (t : State) pa => exec (.st h k at_ d a off) s = .next (t.retire (.st h k at_ d a off) h fall) ∧
      t.peek pa len = storeBytes s.sreg k d ∧ t.me.apart = { s.me with tlb := t.me.tlb }.apart ∧
      ∀ j, j ≠ s.curCore → t.core j = s.core j
    (atUnit at_ = 0 ∨ va % atUnit at_ = 0) → s.translates va len → s.me.framed = false → s.Inv →
    (∀ e, s.tlbHit va = some e → e.d = true → e.w = true →
      let pa := e.pa + va % e.size
      s.opens e.u e.ns pa len → ∃ t, stores t pa ∧ s.sameOutside t pa len) ∧
    ((∀ e, s.tlbHit va = some e → e.d = false) →
      ∀ r : Nat × Nat × Nat, s.walksTo va 5 s.rootTable r → r.2.2.testBit 11 = false → r.2.2.testBit 5 = true →
      let pa := leafFrame va r
      s.opens (r.2.2.testBit 7) (r.2.2.testBit 58) pa len → (r.2.1 + 8 ≤ pa ∨ pa + len ≤ r.2.1) →
      ∃ t, stores t pa ∧ t.peek r.2.1 8 = leBytes 8 (r.2.2 ||| 0x300) ∧
        ∀ q, (q < pa ∨ pa + len ≤ q) → (q < r.2.1 ∨ r.2.1 + 8 ≤ q) → t.memByte q = s.memByte q)

/-- R310: in frame mode an ST to the own scratchpad changes no memory: its bytes are added, in order, to the stores that
wait for the boundary (an access within one page, to a region that no sync object binds). -/
def Sys2Proof.Machine.FrameModeStoreIsBuffered : Prop :=
  ∀ (s : State) (h : Hdr) (k : StKind) (at_ : At) (d a off : Nat), s.ready (.st h k at_ d a off) h = true →
    (atUnit at_ = 0 ∨ s.eaddr a 14 off % atUnit at_ = 0) → s.eaddr a 14 off % 4096 + stLen k ≤ 4096 →
    s.ownScratch (s.eaddr a 14 off) (stLen k) → s.arraysQuiet → s.me.framed = true →
    (∀ o < stLen k, s.boundTo (s.me.acc s.curCore s.curStream) (s.eaddr a 14 off + o) = none) →
    s.bufs.length + 16 ≤ 65536 →
    ∃ t : State, exec (.st h k at_ d a off) s = .next (t.retire (.st h k at_ d a off) h fall) ∧ t.mem = s.mem ∧
      t.me.apart = s.me.apart ∧
      t.bufs = s.bufs ++ (storeBytes s.sreg k d).zipIdx.map fun p =>
        ⟨s.agent, scratchPa s.curCore (s.eaddr a 14 off) + p.2, p.1⟩

/-- R118, R121: an access that misses the alignment its atomicity asks for, and any access to the engine port window
other than 8 bytes at an 8-byte aligned address, is ALIGN; that the record holds its address is the model's choice (log entry
79). -/
def Sys2Proof.Machine.MisalignedAccessFaults : Prop :=
  ∀ (s : State) (h : Hdr) (at_ : At) (d a off : Nat),
    (∀ k, s.ready (.ld h k at_ d a off) h = true →
      (¬ (atUnit at_ = 0 ∨ s.eaddr a 14 off % atUnit at_ = 0) ∨
        (s.eaddr a 14 off < 0x410000 ∧ 0x400000 < s.eaddr a 14 off + ldLen k ∧
          ¬ (k = .x64 ∧ s.eaddr a 14 off % 8 = 0))) →
      exec (.ld h k at_ d a off) s = .next ((s.waited (.ld h k at_ d a off) h).takeFault s.curCore
        (.ofStream s.curStream 0x05 (BitVec.ofNat 64 (s.eaddr a 14 off)) 0) false)) ∧
    (∀ k, s.ready (.st h k at_ d a off) h = true →
      (¬ (atUnit at_ = 0 ∨ s.eaddr a 14 off % atUnit at_ = 0) ∨
        (s.eaddr a 14 off < 0x410000 ∧ 0x400000 < s.eaddr a 14 off + stLen k ∧
          ¬ (k = .b64 ∧ s.eaddr a 14 off % 8 = 0))) →
      exec (.st h k at_ d a off) s = .next ((s.waited (.st h k at_ d a off) h).takeFault s.curCore
        (.ofStream s.curStream 0x05 (BitVec.ofNat 64 (s.eaddr a 14 off)) 0) false))

/-- R238 to R240: outside an iteration of a Virga loop a store to GO of port e, its words well formed, with no barrier
and no declared buffer, places one command at the tail of engine e's queue once it has a free entry: the staging words of
the storing stream, with the word's address as its tag. Malformed words are ENGCMD. Memory does not change. -/
def Sys2Proof.Machine.StoreToGoPlacesTheCommand : Prop :=
  ∀ (s : State) (h : Hdr) (d a off e : Nat), s.ready (.st h .b64 .dflt d a off) h = true →
    s.eaddr a 14 off = 0x400000 + 64 * e + 32 → e < 5 → s.me.inIter = false →
    let w := s.waited (.st h .b64 .dflt d a off) h
    let m := w.me.goCmd s.curCore s.curStream e (s.cmdId + 1) (w.token s.agent)
    (m.wordsOk = true → m.barVa = none → (e = 0 → m.w3.getLsbD 58 = false) → (e = 1 → m.w3.getLsbD 61 = false) →
      s.cmdFill s.curCore e < 16 →
      ∃ t : State, exec (.st h .b64 .dflt d a off) s = .next (t.retire (.st h .b64 .dflt d a off) h fall) ∧
        t.me.equeue e = s.me.equeue e ++ [m] ∧ t.mem = s.mem ∧ (∀ r, t.sreg r = s.sreg r) ∧
        ∀ n, n < 4 → [m.w0, m.w1, m.w2, m.w3][n]? =
          some (SMap.get 0 s.me.staging ((if s.curStream = .a then 32 else 0) + 4 * e + n))) ∧
    (m.wordsOk = false → exec (.st h .b64 .dflt d a off) s =
      .next (w.takeFault s.curCore (.ofStream s.curStream 0x1E 0 0) false))

/-- R229, R230: an aligned AMO on the own scratchpad in free mode, outside an iteration of a Virga loop, stores the
combined value, writes the old one to S[d] and raises the flags of a floating add. -/
def Sys2Proof.Machine.AmoCombinesAndReturnsTheOldValue : Prop :=
  ∀ (s : State) (h : Hdr) (op : AmoOp) (sz : WD) (d a b off : Nat), s.ready (.amo h op sz d a b off) h = true →
    let va := s.eaddr a 14 off
    let n := wdLen sz
    let r := amoResult op (8 * n) (s.ownNat va n) ((s.sreg b).toNat % 2 ^ (8 * n))
    va % n = 0 → s.canAlu va n → s.me.framed = false →
    ∃ t : State, exec (.amo h op sz d a b off) s = .next (t.retire (.amo h op sz d a b off) h fall) ∧
      s.stored t va (leBytes n r.1) ∧
      t.me.apart = ((s.me.setSreg s.curStream d (BitVec.ofNat 64 (s.ownNat va n))).flagged s.curStream r.2).apart

/-- R231: CAS stores its new value when memory holds the expected one, and only then; S[d] (a pair for 16 bytes) gets
what memory held. -/
def Sys2Proof.Machine.CasStoresOnlyOnMatch : Prop :=
  ∀ (s : State) (h : Hdr) (sz : CasSz) (d a b off : Nat), s.ready (.cas h sz d a b off) h = true →
    let va := s.eaddr a 14 off
    let n := casLen sz
    let pair := fun r => (s.sreg r).toNat + 2 ^ 64 * (s.sreg (r + 1)).toNat
    let m := s.ownNat va n
    va % n = 0 → s.canAlu va n → s.me.framed = false →
    ∃ t : State, exec (.cas h sz d a b off) s = .next (t.retire (.cas h sz d a b off) h fall) ∧
      (m = pair d % 2 ^ (8 * n) → s.stored t va (leBytes n (pair b % 2 ^ (8 * n)))) ∧
      (m ≠ pair d % 2 ^ (8 * n) → t.mem = s.mem) ∧
      t.me.apart = (if sz = .q then (s.me.setSreg s.curStream d (BitVec.ofNat 64 m)).setSreg s.curStream (d + 1)
          (BitVec.ofNat 64 (m / 2 ^ 64)) else s.me.setSreg s.curStream d (BitVec.ofNat 64 m)).apart

/-- R232: in frame mode an aligned AMO or CAS on the own scratchpad changes no memory and no register: it is held, with its
word and address, for the boundary, and its stream stands at it. -/
def Sys2Proof.Machine.AtomicsAreHeldInFrameMode : Prop :=
  ∀ (s : State) (h : Hdr) (i : Instr) (n a off : Nat), i.hdr = some h →
    ((∃ op sz d b, i = .amo h op sz d a b off ∧ n = wdLen sz) ∨ (∃ sz d b, i = .cas h sz d a b off ∧ n = casLen sz)) →
    s.ready i h = true → s.eaddr a 14 off % n = 0 → s.ownScratch (s.eaddr a 14 off) n → s.me.framed = true →
    (∀ x ∈ s.heldAtomics, ¬ (x.core = s.curCore ∧ x.st = s.curStream)) →
    ∃ t : State, exec i s = .next t ∧ t.mem = s.mem ∧ t.strm.pc = s.strm.pc ∧ t.strm.blocked = true ∧
      t.me.apart = s.me.apart ∧
      t.heldAtomics = s.heldAtomics ++ [⟨s.curCore, s.curStream, i, s.eaddr a 14 off, scratchPa s.curCore (s.eaddr a 14
        off)⟩]

/-- R233, R234, R335: BARM sets the expected count of its barrier to S[b], moves its phase on and clears its arrivals; REL
counts the version of its sync object up and names the core; ACQ, its version test passing, writes the version and
acquires the object's releases. Each writes the value that it has formed to S[d]. -/
def Sys2Proof.Machine.BarrierAndSyncWords : Prop :=
  ∀ (s : State) (h : Hdr) (d a off : Nat),
    let va := s.eaddr a 14 off
    let pa := scratchPa s.curCore va
    let old := s.peek pa 16
    va % 16 = 0 → s.canAlu va 16 →
    (∀ b, s.ready (.barm h d a b off) h = true →
      ∃ t : State, exec (.barm h d a b off) s = .next (t.retire (.barm h d a b off) h fall) ∧
        s.stored t va (barBytes ((s.sreg b).toNat % 2 ^ 48) ((barPhase old + 1) % 65536) 0) ∧
        t.me.apart = (s.me.setSreg s.curStream d (BitVec.ofNat 64 ((barPhase old + 1) % 65536))).apart) ∧
    (s.ready (.rel h d a off) h = true →
      ∃ t : State, exec (.rel h d a off) s = .next (t.retire (.rel h d a off) h fall) ∧
        s.stored t va (syncBytes ((leNat (old.take 8) + 1) % 2 ^ 64) s.curCore 0) ∧
        SMap.get 0 t.rel pa = SMap.get 0 s.rel pa + 1 ∧
        t.me.apart = (s.me.setSreg s.curStream d (BitVec.ofNat 64 ((leNat (old.take 8) + 1) % 2 ^ 64))).apart) ∧
    (∀ ge b, s.ready (.acq h ge d a b off) h = true →
      ((ge = true → (s.sreg b).toNat ≤ leNat (old.take 8)) →
        ∃ t : State, exec (.acq h ge d a b off) s = .next (t.retire (.acq h ge d a b off) h fall) ∧ t.mem = s.mem ∧
          (SMap.get [] t.me.acq pa).head? = some (s.seq + 1, SMap.get 0 s.rel pa) ∧
          (∀ r, t.sreg r = (s.me.setSreg s.curStream d (BitVec.ofNat 64 (leNat (old.take 8)))).sreg s.curStream r)) ∧
      (ge = true → leNat (old.take 8) < (s.sreg b).toNat →
        exec (.acq h ge d a b off) s = .next (s.waited (.acq h ge d a b off) h).setBlocked))

/-- R235: BWAIT goes on when the barrier's arrivals have reached its expected count, in C and A with the arrivals in
S[d]; the V form takes its address from the constant bank, or from q7, which it pops. Short of the count it waits. -/
def Sys2Proof.Machine.BwaitWaitsForArrivals : Prop :=
  ∀ (s : State) (h : Hdr),
    (∀ d a off, s.ready (.bwait h (.scalar d a off)) h = true → s.eaddr a 14 off % 16 = 0 →
      s.ownScratch (s.eaddr a 14 off) 16 → s.eccQuiet = true → s.bufs = [] →
      let b := s.peek (scratchPa s.curCore (s.eaddr a 14 off)) 16
      (barExpected b ≤ barArrived b →
        ∃ t : State, exec (.bwait h (.scalar d a off)) s = .next (t.retire (.bwait h (.scalar d a off)) h fall) ∧
          t.mem = s.mem ∧ t.me.apart = (s.me.setSreg s.curStream d (BitVec.ofNat 64 (barArrived b))).apart) ∧
      (barArrived b < barExpected b → ∃ t : State, exec (.bwait h (.scalar d a off)) s = .next t ∧ t.mem = s.mem ∧
        t.strm.pc = s.strm.pc ∧ t.strm.blocked = true ∧ t.me.apart = s.me.apart)) ∧
    (∀ (e : QEnt) (l : List QEnt), s.ready (.bwait h (.vector 655)) h = true → s.strm.bwaitAt = none →
      s.me.queue 7 = e :: l → e.ready = true → SMap.rising 0 s.me.q = true →
      (lo64 e.img).toNat % 16 = 0 → s.ownScratch (lo64 e.img).toNat 16 → s.eccQuiet = true → s.bufs = [] →
      let b := s.peek (scratchPa s.curCore (lo64 e.img).toNat) 16
      barExpected b ≤ barArrived b →
        ∃ t : State, exec (.bwait h (.vector 655)) s = .next (t.retire (.bwait h (.vector 655)) h fall) ∧
          t.mem = s.mem ∧ t.me.queue 7 = l)

/-- R131, R133, R137: KLD with a register address fills cnt + 1 entries of the constant bank, from n on, with the words
from an 8-byte aligned S[a]; KLD of an entry writes its value to S[d], when no older one can be seen. -/
def Sys2Proof.Machine.ConstantBankLoads : Prop :=
  ∀ (s : State) (h : Hdr) (n : Nat), s.arraysQuiet → SMap.rising 0 s.me.k = true →
    (∀ a cnt, s.ready (.kldLd h a n cnt) h = true → (s.sreg a).toNat % 8 = 0 →
      s.canRead (s.sreg a).toNat (8 * (cnt + 1)) →
      ∃ t : State, exec (.kldLd h a n cnt) s = .next (t.retire (.kldLd h a n cnt) h fall) ∧ t.mem = s.mem ∧
        (∀ i ≤ cnt, SMap.get 0 t.me.k (n + i) = BitVec.ofNat 64 (s.ownNat ((s.sreg a).toNat + 8 * i) 8)) ∧
        (∀ j, j < n ∨ n + cnt < j → SMap.get 0 t.me.k j = SMap.get 0 s.me.k j) ∧ ∀ r, t.sreg r = s.sreg r) ∧
    (∀ d, s.ready (.kldRd h d n) h = true → (s.waited (.kldRd h d n) h).settled (0x1000 + n) = true →
      exec (.kldRd h d n) s =
        .next (((s.waited (.kldRd h d n) h).setS d (SMap.get 0 s.me.k n)).retire (.kldRd h d n) h fall))

/-- R146, R151: LDQ reserves the tail entry of its queue and reads the 512 bytes at S[d] + off into it, as they stand when
it issues (the model's choice, log entry 38); its signal waits for their arrival. STQ pops q2 and stores its image at S[d]
+ off, those 512 bytes and no other. -/
def Sys2Proof.Machine.QueueLoadsAndStores : Prop :=
  ∀ (s : State) (h : Hdr) (d off : Nat),
    (∀ q, s.ready (.ldq h q d off) h = true → s.me.qHasSpace q = true → s.canRead (s.eaddr d 24 off) 512 →
      ∃ (t : State) (e : QEnt), exec (.ldq h q d off) s = .next (t.retire (.ldq h q d off) h fall) ∧
        t.me.queue q = s.me.queue q ++ [e] ∧ e.img.toNat = s.ownNat (s.eaddr d 24 off) 512 ∧ e.ready = false ∧
        e.g = h.g ∧ t.mem = s.mem ∧ ∀ r, t.sreg r = s.sreg r) ∧
    (∀ (e : QEnt) (l : List QEnt), s.ready (.stq h d off) h = true → s.me.queue 2 = e :: l →
      SMap.rising 0 s.me.q = true → s.canWrite (s.eaddr d 24 off) 512 →
      ∃ t : State, exec (.stq h d off) s = .next (t.retire (.stq h d off) h fall) ∧
        s.stored t (s.eaddr d 24 off) (leBytes 512 e.img.toNat) ∧ t.me.queue 2 = l ∧ ∀ r, t.sreg r = s.sreg r)

/-- LD writes a number of memory to a register, through a translation too, and KLD fills the constant bank. -/
def Obligations.LoadsReadMemory : Prop :=
  LoadWritesTheBytesOfMemory ∧ TranslatedLoadsReadTheFrame ∧ ConstantBankLoads

/-- ST stores its bytes, through a translation too, and in frame mode into the buffer. -/
def Obligations.StoresWriteOnlyTheirBytes : Prop :=
  StoreWritesOnlyItsBytes ∧ TranslatedStoresWriteTheFrame ∧ FrameModeStoreIsBuffered

/-- Misaligned accesses are ALIGN, and a store to GO places a command. -/
def Obligations.PortStoresAndMisalignedAccesses : Prop :=
  MisalignedAccessFaults ∧ StoreToGoPlacesTheCommand

/-- AMO and CAS read and change their operand in one step, and are held in frame mode. -/
def Obligations.AtomicsCombineOnce : Prop :=
  AmoCombinesAndReturnsTheOldValue ∧ CasStoresOnlyOnMatch ∧ AtomicsAreHeldInFrameMode

/-- BARM, REL and ACQ act on barriers and sync objects, and BWAIT waits for arrivals. -/
def Obligations.BarriersAndSyncObjects : Prop :=
  BarrierAndSyncWords ∧ BwaitWaitsForArrivals

namespace Sys2Proof.Machine

/-! ### Queues, mailboxes and cuts -/

/-- The 64-bit queues that a stream pops (R140, R144): C q4, q6, q15 and the reply queues that A does not read, A q3, q5
and those that it does. -/
def popsQueue (st : Stream) (mask q : Nat) : Prop :=
  match st with
  | .c => q = 4 ∨ q = 6 ∨ q = 15 ∨ (8 ≤ q ∧ q ≤ 12 ∧ mask.testBit (q - 8) = false)
  | .a => q = 3 ∨ q = 5 ∨ (8 ≤ q ∧ q ≤ 12 ∧ mask.testBit (q - 8) = true)
  | _ => False

/-- Those that it pushes: C q5 and q7, A q6. -/
def pushesQueue (st : Stream) (q : Nat) : Prop :=
  match st with
  | .c => q = 5 ∨ q = 7 | .a => q = 6 | _ => False

/-- An entry that a word of the executing stream has pushed. -/
def pushed (x : Word) (e : QEnt) : Prop := e.img = x.setWidth 4096 ∧ e.ready = true

end Sys2Proof.Machine

/-- R141, R150: QPUSH puts S[d] at the tail of a queue that the stream pushes, and waits while it is full; another queue
is QSTATE. -/
def Sys2Proof.Machine.QpushAppendsOrWaits : Prop :=
  ∀ (s : State) (h : Hdr) (q d : Nat), s.ready (.qpush h q d) h = true →
    (pushesQueue s.curStream q → (s.me.queue q).length < qDepth q →
      ∃ (t : State) (e : QEnt), exec (.qpush h q d) s = .next (t.retire (.qpush h q d) h fall) ∧ pushed (s.sreg d) e ∧
        s.OnlyMe t (s.me.setQueue q (s.me.queue q ++ [e]))) ∧
    (pushesQueue s.curStream q → qDepth q ≤ (s.me.queue q).length →
      exec (.qpush h q d) s = .next (s.waited (.qpush h q d) h).setBlocked) ∧
    (¬ pushesQueue s.curStream q → exec (.qpush h q d) s =
      .next ((s.waited (.qpush h q d) h).takeFault s.curCore (.ofStream s.curStream 0x0C 0 0) false))

/-- R141, R150: QPOP takes the head entry of a queue that the stream pops into S[d], and waits while there is none whose
bytes have arrived; another queue is QSTATE. -/
def Sys2Proof.Machine.QpopTakesTheHeadOrWaits : Prop :=
  ∀ (s : State) (h : Hdr) (q d : Nat), s.ready (.qpop h q d) h = true →
    (popsQueue s.curStream (s.replyMask s.curCore) q → ∀ e l, s.me.queue q = e :: l → e.ready = true →
      ∃ t : State, exec (.qpop h q d) s = .next (t.retire (.qpop h q d) h fall) ∧
        s.OnlyMe t ((s.me.setQueue q l).setSreg s.curStream d (e.img.setWidth 64))) ∧
    (popsQueue s.curStream (s.replyMask s.curCore) q → s.me.qReady q = false →
      exec (.qpop h q d) s = .next (s.waited (.qpop h q d) h).setBlocked) ∧
    (¬ popsQueue s.curStream (s.replyMask s.curCore) q → exec (.qpop h q d) s =
      .next ((s.waited (.qpop h q d) h).takeFault s.curCore (.ofStream s.curStream 0x0C 0 0) false))

/-- R150: QTRY pops or pushes when it can and writes 1 to S[f], else it writes 0 there and nothing else; it never waits.
QLEN writes the entries that a queue holds, or has free. -/
def Obligations.QtryAndQlenNeverWait : Prop :=
  ∀ (s : State) (h : Hdr) (q d f : Nat),
    (s.ready (.qtryPop h q d f) h = true → popsQueue s.curStream (s.replyMask s.curCore) q →
      (∀ e l, s.me.queue q = e :: l → e.ready = true →
        ∃ t : State, exec (.qtryPop h q d f) s = .next (t.retire (.qtryPop h q d f) h fall) ∧ s.OnlyMe t
          (((s.me.setQueue q l).setSreg s.curStream d (e.img.setWidth 64)).setSreg s.curStream f 1)) ∧
      (s.me.qReady q = false → exec (.qtryPop h q d f) s =
        .next (((s.waited (.qtryPop h q d f) h).setS f 0).retire (.qtryPop h q d f) h fall))) ∧
    (s.ready (.qtryPush h q d f) h = true → pushesQueue s.curStream q →
      ((s.me.queue q).length < qDepth q → ∃ (t : State) (e : QEnt),
        exec (.qtryPush h q d f) s = .next (t.retire (.qtryPush h q d f) h fall) ∧ pushed (s.sreg d) e ∧
        s.OnlyMe t ((s.me.setQueue q (s.me.queue q ++ [e])).setSreg s.curStream f 1)) ∧
      (qDepth q ≤ (s.me.queue q).length → exec (.qtryPush h q d f) s =
        .next (((s.waited (.qtryPush h q d f) h).setS f 0).retire (.qtryPush h q d f) h fall))) ∧
    (∀ free, s.ready (.qlen h free q d) h = true → exec (.qlen h free q d) s =
      .next (((s.waited (.qlen h free q d) h).setS d (BitVec.ofNat 64 (if free then qDepth q - (s.me.queue q).length
        else (s.me.queue q).length))).retire (.qlen h free q d) h fall))

/-- R147, R152: BTOK pops a token whose route is below its number of targets L (256 for L = 0), writes its payload,
sign-extended, to S[d] and goes to that target; a larger route is QSTATE and pops nothing. -/
def Sys2Proof.Machine.BtokBranchesByRoute : Prop :=
  ∀ (s : State) (h : Hdr) (q d l off : Nat) (e : QEnt) (es : List QEnt), s.ready (.btok h q d l off) h = true →
    popsQueue s.curStream (s.replyMask s.curCore) q → s.me.queue q = e :: es → e.ready = true →
    let route := e.img.toNat % 2 ^ 16
    (route < (if l = 0 then 256 else l) → ∃ t : State,
      exec (.btok h q d l off) s = .next (t.retire (.btok h q d l off) h
        ⟨.jump (s.strm.plus s.strm.pc (8 * (sfield 20 off + route))), []⟩) ∧
      s.OnlyMe t ((s.me.setQueue q es).setSreg s.curStream d ((e.img.extractLsb' 16 48).signExtend 64))) ∧
    ((if l = 0 then 256 else l) ≤ route → exec (.btok h q d l off) s =
      .next ((s.waited (.btok h q d l off) h).takeFault s.curCore (.ofStream s.curStream 0x0C 0 0) false))

/-- R148, R154: with a coupled core, MBSEND puts S[d] into q14 with the counter that it is to raise there, and MBRECV
takes the head of q13; with none they are QSTATE. -/
def Sys2Proof.Machine.MailboxSendAndReceive : Prop :=
  ∀ (s : State) (h : Hdr) (d : Nat),
    (∀ c, s.ready (.mbsend h d c) h = true →
      (s.me.coupled ≠ none → (s.me.queue 14).length < qDepth 14 →
        ∃ (t : State) (e : QEnt), exec (.mbsend h d c) s = .next (t.retire (.mbsend h d c) h fall) ∧
          pushed (s.sreg d) e ∧ e.g = c ∧ s.OnlyMe t (s.me.setQueue 14 (s.me.queue 14 ++ [e]))) ∧
      (s.me.coupled = none → exec (.mbsend h d c) s =
        .next ((s.waited (.mbsend h d c) h).takeFault s.curCore (.ofStream s.curStream 0x0C 0 0) false))) ∧
    (s.ready (.mbrecv h d) h = true →
      (∀ e l, s.me.coupled ≠ none → s.me.queue 13 = e :: l → e.ready = true →
        ∃ t : State, exec (.mbrecv h d) s = .next (t.retire (.mbrecv h d) h fall) ∧
          s.OnlyMe t ((s.me.setQueue 13 l).setSreg s.curStream d (e.img.setWidth 64))) ∧
      (s.me.coupled = none → exec (.mbrecv h d) s =
        .next ((s.waited (.mbrecv h d) h).takeFault s.curCore (.ofStream s.curStream 0x0C 0 0) false)))

/-- R149, R155, R420: ECUT discards the commands behind the marker of the latest MARK of Jn, or all where it has retired,
in the engines that both name, and writes their number to S[d]; markers, and replies of commands that have completed, stay,
and so do other engines' queues. It waits while a command or marker of C that it would not discard has not started; that it
does not wait for A's is the model's choice (log entry 43), and so is it that a handler's does not wait for a marker of the
matrix engine behind the nest (log entry 28). -/
def Sys2Proof.Machine.EcutDiscardsBehindTheMarker : Prop :=
  ∀ (s : State) (h : Hdr) (d j e : Nat), s.ready (.ecut h d j e) h = true →
    let r := SMap.get Rdv.reset s.me.rdv j
    let named := fun n => n < 5 ∧ e.testBit n = true ∧ r.set_.testBit n = true
    let before := fun n => (cutQueue j r.gen (s.me.equeue n)).1
    let behind := fun n => (cutQueue j r.gen (s.me.equeue n)).2
    SMap.rising 0 s.me.eq = true →
    let waits := fun n (m : Cmd) => m.st = 0 ∧ ¬ (n = 5 ∧ s.me.act = true ∧ s.me.nest.isSome = true)
    let ahead := ∃ n < 6, ∃ m, waits n m ∧ ((named n ∧ m ∈ before n) ∨ (¬ named n ∧ m ∈ s.me.equeue n))
    (ahead → exec (.ecut h d j e) s = .next (s.waited (.ecut h d j e) h).setBlocked) ∧
    (¬ ahead → ∃ (t : State) (gone : Nat), exec (.ecut h d j e) s = .next (t.retire (.ecut h d j e) h fall) ∧
      (∀ r, t.sreg r = (s.me.setSreg .c d (BitVec.ofNat 64 gone)).sreg .c r) ∧ t.mem = s.mem ∧
      (∀ n < 6, ¬ named n → t.me.equeue n = s.me.equeue n) ∧
      (∀ n < 6, named n → ∃ marks, t.me.equeue n = before n ++ marks ∧
        marks.map Cmd.id = ((behind n).filter uncut).map Cmd.id) ∧
      gone = ((List.range 5).map fun n =>
        if e.testBit n && r.set_.testBit n then (behind n).countP (fun m => !uncut m) else 0).sum)

/-- LDQ, STQ, QPUSH and QPOP move entries at the tail and the head of their queues. -/
def Obligations.QueueWordsAppendAndTake : Prop :=
  QueueLoadsAndStores ∧ QpushAppendsOrWaits ∧ QpopTakesTheHeadOrWaits

/-- BTOK branches by a token, MBSEND and MBRECV use the mailbox, and ECUT discards commands behind a marker. -/
def Obligations.TokensMailAndCuts : Prop :=
  BtokBranchesByRoute ∧ MailboxSendAndReceive ∧ EcutDiscardsBehindTheMarker

namespace Sys2Proof.Machine

/-! ### Planes, launches, domains, generators, look-aside buffers, hash trees -/

/-- The word pairs of a plane packet at an address of the own scratchpad. -/
def State.packet (s : State) (va : Nat) : List Nat :=
  (List.range (s.ownNat va 8 % 65536)).map fun i => s.ownNat (va + 8 + 8 * i) 8

/-- The entry is named by a TLBINV (R378). -/
def tlbNamed (k : TlbSub) (va asid : Nat) (e : TlbEnt) : Prop :=
  match k with
  | .va => va < 2 ^ 57 ∧ e.va ≤ va ∧ va < e.va + e.size ∧ (e.g = true ∨ e.asid = asid)
  | .asid => e.g = false ∧ e.asid = asid
  | .all => True

/-- The TLBs of a core. -/
def tlbNumbers : List Nat := [0, 1, 2, 3, 4, 5, 8]

end Sys2Proof.Machine

/-- R266 to R268: CDIFF applies a packet from the own scratchpad, at most 1,024 pairs of assigned fields, to the shadow
plane of every core of its domain, all of them running their jobs (log entry 76), and writes their number to S[d], when
every result has the packet's checksum. Where one has not, nothing is applied and the fault is CFGSUM; a domain with a
member gone is DOMINC. -/
def Sys2Proof.Machine.PlaneDiffAppliesToItsDomain : Prop :=
  ∀ (s : State) (h : Hdr) (sc : DiffScope) (d a : Nat) (l : List Nat), s.ready (.cdiff h sc d a) h = true →
    let va := (s.sreg a).toNat
    va % 8 = 0 → s.canRead va (8 + 8 * (s.ownNat va 8 % 65536)) → s.ownNat va 8 % 65536 ≤ 1024 →
    (∀ w ∈ s.packet va, (planeWidth (fld w 48 16)).isSome = true) →
    (s.domain s.curCore (diffLevel sc) = some l → s.starting l = false → SMap.rising 0 s.cores = true →
      (∀ j ∈ l, planeSum (applyPairs (s.core j).shadowPlane (s.packet va)) = fld (s.ownNat va 8) 32 32) →
      ∃ t : State, exec (.cdiff h sc d a) s = .next (t.retire (.cdiff h sc d a) h fall) ∧ t.mem = s.mem ∧
        (∀ j ∈ l, (t.core j).shadowPlane = applyPairs (s.core j).shadowPlane (s.packet va)) ∧
        ∀ r, t.sreg r = (s.me.setSreg .c d (BitVec.ofNat 64 l.length)).sreg .c r) ∧
    (s.domain s.curCore (diffLevel sc) = some [s.curCore] →
      planeSum (applyPairs s.me.shadowPlane (s.packet va)) ≠ fld (s.ownNat va 8) 32 32 →
      ∃ u : State, exec (.cdiff h sc d a) s = .next (u.takeFault s.curCore
        (.ofStream .c 0x0D 0 (BitVec.ofNat 64 (2 ^ 32 + s.curCore))) false) ∧ u.me.shadowPlane = s.me.shadowPlane) ∧
    (s.domain s.curCore (diffLevel sc) = none →
      ∃ u : State, exec (.cdiff h sc d a) s = .next (u.takeFault s.curCore (.ofStream .c 0x15 0 0) false))

/-- R267, R271: a CDIFF whose packet is not 8-byte aligned is ALIGN, with its address in the record; the model's choices are
that address and the 0 that other faults of it record (log entries 79 and 48). One of more than 1,024 pairs, or with a
pair whose id is not assigned, is ENGCMD; and one to other cores is SPECVIOL in an iteration of a Virga loop. Nothing
changes. -/
def Sys2Proof.Machine.PlaneDiffRefusesBadPackets : Prop :=
  ∀ (s : State) (h : Hdr) (sc : DiffScope) (d a : Nat), s.ready (.cdiff h sc d a) h = true →
    let va := (s.sreg a).toNat
    let faults := fun code addr => exec (.cdiff h sc d a) s =
      .next ((s.waited (.cdiff h sc d a) h).takeFault s.curCore (.ofStream .c code addr 0) false)
    (s.me.inIter = true → sc ≠ .core → faults 0x12 0) ∧
    ((s.me.inIter = false ∨ sc = .core) → va % 8 ≠ 0 → faults 0x05 (s.sreg a)) ∧
    (va % 8 = 0 → s.canRead va 8 → 1024 < s.ownNat va 8 % 65536 → faults 0x1E 0) ∧
    (va % 8 = 0 → s.canRead va (8 + 8 * (s.ownNat va 8 % 65536)) → s.ownNat va 8 % 65536 ≤ 1024 →
      (∃ w ∈ s.packet va, (planeWidth (fld w 48 16)).isSome = false) → faults 0x1E 0)

/-- R263, R270: with M started, no nest running and no word of M in flight, CGO of a shadow plane that passes the checks
of R270 makes it active, starts its nest at its first body word with all indices 0, and writes 1. With a nest running
or a word of M in flight CGO.TRY writes 0 and CGO waits. A shadow plane that fails the checks, and M not started, are
ENGCMD, and in an iteration of a Virga loop CGO is SPECVIOL. -/
def Sys2Proof.Machine.CgoStartsTheNest : Prop :=
  ∀ (s : State) (h : Hdr) (d : Nat) (y : Bool), s.ready (.cgo h y d) h = true →
    let w := s.waited (.cgo h y d) h
    (s.me.inIter = true → s.fresh → exec (.cgo h y d) s = .next (w.takeFault s.curCore (.ofStream .c 0x12 0 0) false)) ∧
    (s.me.inIter = false → (s.me.sM.started = true → s.me.nest = none → s.me.sM.issued = false →
      s.planeOk s.curCore s.me.shadowPlane = true →
      ∃ t : State, exec (.cgo h y d) s = .next (t.retire (.cgo h y d) h fall) ∧ t.me.plane = s.me.shadowPlane ∧
        t.me.nest = some ([0, 0, 0, 0, 0, 0], 0) ∧ t.mem = s.mem ∧
        ∀ r, t.sreg r = (s.me.setSreg .c d 1).sreg .c r) ∧
    (s.me.sM.started = true → (s.me.nest ≠ none ∨ s.me.sM.issued = true) → y = true →
      exec (.cgo h y d) s = .next ((w.setS d 0).retire (.cgo h y d) h fall)) ∧
    (s.me.sM.started = true → (s.me.nest ≠ none ∨ s.me.sM.issued = true) → y = false →
      exec (.cgo h y d) s = .next w.setBlocked) ∧
    (s.me.sM.started = true → s.me.nest = none → s.me.sM.issued = false → s.planeOk s.curCore s.me.shadowPlane = false →
      exec (.cgo h y d) s = .next (w.takeFault s.curCore (.ofStream .c 0x1E 0 0) false)) ∧
    (s.me.sM.started = false → exec (.cgo h y d) s = .next (w.takeFault s.curCore (.ofStream .c 0x1E 0 0) false)))

/-- R294, R295: GLAUNCH of a 64-byte aligned record, outside an iteration of a Virga loop and in free mode, performs its
stream's stores for every path, reads and checks the graph, and writes the result
word, code and slot, to S[d]. An accepted graph lies in that slot under the next serial number, and its nodes without
predecessors are ready where every status word could be written (R297). Another alignment is ALIGN with the address in the
record. The readings of a launch's order are the model's (log entry 54), and so is that address (log entry 79). -/
def Sys2Proof.Machine.GlaunchReportsAndPlacesTheGraph : Prop :=
  ∀ (s : State) (h : Hdr) (d a : Nat), s.ready (.glaunch h d a) h = true → s.me.inIter = false →
    s.me.accSettled = true →
    let w := s.waited (.glaunch h d a) h
    ((s.sreg a).toNat % 64 = 0 → s.me.framed = false → ∃ (u : State) (code slot : Nat),
      (w.performOwn s.agent allPaths).launchGraph (launchAcc w.me s.curCore) false (s.sreg a).toNat = (u, code, slot) ∧
      (∃ t : State, exec (.glaunch h d a) s = .next (t.retire (.glaunch h d a) h fall) ∧ t.graphs = u.graphs ∧
        t.mem = u.mem ∧ (∀ p ∈ t.hist, ∀ e ∈ p.2.wr, e.agent = s.agent → ∀ n, allPaths.testBit n = true →
          e.perf.testBit n = true) ∧
        ∀ r, t.sreg r = (s.me.setSreg .c d (BitVec.ofNat 64 (code * 2 ^ 56 + slot))).sreg .c r) ∧
      (code = 0 → ∃ g : Graph, u.graph slot = some g ∧ g.serial = s.serial + 1 ∧
        (g.failed = false → ∀ n ∈ g.nodes, n.npred = 0 → n.st = .ready))) ∧
    ((s.sreg a).toNat % 64 ≠ 0 →
      exec (.glaunch h d a) s = .next (w.takeFault s.curCore (.ofStream .c 0x05 (s.sreg a) 0) false))

/-- R302, R303: the last core of a domain to arrive at BSP, its own stores at the boundary where it is in frame mode,
passes with its phase count plus 1 in S[d], and releases every other member that waits for its phase; a core that others
must still follow waits, and a released core passes. A domain with a member gone is DOMINC. (While a member's job has not
started, or is saved, the word waits: log entry 76.) -/
def Sys2Proof.Machine.BspReleasesTheDomainTogether : Prop :=
  ∀ (s : State) (h : Hdr) (lv d : Nat) (l : List Nat), s.ready (.bsp h lv d) h = true → s.me.inIter = false →
    SMap.rising 0 s.me.arrived = true → SMap.rising 0 s.me.phase = true →
    let p := s.me.phaseOf lv
    let next := (p + 1) % 2 ^ 32
    (s.me.flag (4 + lv) = true → ∃ t : State, exec (.bsp h lv d) s = .next (t.retire (.bsp h lv d) h fall) ∧
      SMap.get 0 t.me.phase lv = next ∧ t.me.flag (4 + lv) = false ∧ t.mem = s.mem ∧
      ∀ r, t.sreg r = (s.me.setSreg .c d (BitVec.ofNat 64 next)).sreg .c r) ∧
    (s.me.flag (4 + lv) = false → s.domain s.curCore lv = none →
      exec (.bsp h lv d) s = .next ((s.waited (.bsp h lv d) h).takeFault s.curCore (.ofStream .c 0x15 0 0) false)) ∧
    (s.me.flag (4 + lv) = false → s.me.flag lv = false → s.me.flag (8 + lv) = false → s.me.framed = false →
      s.domain s.curCore lv = some l → s.curCore ∈ l → l.Nodup → s.starting l = false →
      ((∀ j ∈ l, j ≠ s.curCore → (s.core j).hasArrived lv p = true) → ∃ t : State,
        exec (.bsp h lv d) s = .next (t.retire (.bsp h lv d) h fall) ∧ SMap.get 0 t.me.phase lv = next ∧
        (∀ j ∈ l, j ≠ s.curCore → (s.core j).phaseOf lv = p → (t.core j).flag (4 + lv) = true) ∧ t.mem = s.mem ∧
        ∀ r, t.sreg r = (s.me.setSreg .c d (BitVec.ofNat 64 next)).sreg .c r) ∧
      ((∃ j ∈ l, j ≠ s.curCore ∧ (s.core j).hasArrived lv p = false) → ∃ t : State, exec (.bsp h lv d) s = .next t ∧
        t.me.flag lv = true ∧ t.strm.pc = s.strm.pc ∧ t.mem = s.mem ∧ ∀ r, t.sreg r = s.sreg r))

/-- R313, R319: RSEED sets state, increment and origin of a generator from S[b]:S[a], the increment odd; RJUMP moves a
generator on by S[a] * 2^sh steps; RNEXT steps C's generator once and writes the output to S[d]. None changes another
generator, memory or another register. -/
def Sys2Proof.Machine.GeneratorWords : Prop :=
  ∀ (s : State) (h : Hdr),
    (∀ g a b, s.ready (.rseed h g a b) h = true → (s.me.inIter = false ∨ g = .c) →
      ∃ t : State, exec (.rseed h g a b) s = .next (t.retire (.rseed h g a b) h fall) ∧
        t.me.gen (genStream g) = ⟨s.sreg b ++ s.sreg a, ((s.sreg b ++ s.sreg a : BitVec 128) >>> 63) ||| 1,
          s.sreg b ++ s.sreg a⟩ ∧
        (∀ st, st ≠ .m → st ≠ genStream g → t.me.gen st = s.me.gen st) ∧ t.mem = s.mem ∧ ∀ r, t.sreg r = s.sreg r) ∧
    (∀ g a sh, s.ready (.rjump h g a sh) h = true → (s.me.inIter = false ∨ g = .c) →
      ∃ t : State, exec (.rjump h g a sh) s = .next (t.retire (.rjump h g a sh) h fall) ∧
        (let o := s.me.gen (genStream g)
         t.me.gen (genStream g) =
          { o with x := BitVec.ofNat 128 (genJump o.x.toNat o.c.toNat ((s.sreg a).toNat * 2 ^ sh)) }) ∧
        (∀ st, st ≠ .m → st ≠ genStream g → t.me.gen st = s.me.gen st) ∧ t.mem = s.mem ∧ ∀ r, t.sreg r = s.sreg r) ∧
    (∀ d, s.ready (.rnext h d) h = true →
      ∃ t : State, exec (.rnext h d) s = .next (t.retire (.rnext h d) h fall) ∧
        s.OnlyMe t ((s.me.setGen .c s.me.genC.stepped).setSreg .c d
          (BitVec.ofNat 64 (genOut s.me.genC.stepped.x.toNat))))

/-- R25, R313: Jump by n below 2^128 is n steps of the generator. -/
def Sys2Proof.Machine.JumpIsRepeatedStep : Prop :=
  ∀ x c n : Nat, x < 2 ^ 128 → n < 2 ^ 128 → genJump x c n = (fun y => genStep y c)^[n] x

/-- No store stands buffered, neither in frame mode, of an MDRAIN, nor in an iteration on another core. -/
def Sys2Proof.Machine.State.unbuffered (s : State) : Prop :=
  s.bufs = [] ∧ (∀ j, j ≠ s.curCore → (s.core j).spec.buf = []) ∧ ∀ j d, (s.core j).drain = some d → d.rest = []

/-- R378: TLBINV in free mode, with no store buffered anywhere, performs its stream's open stores for every path and removes
exactly the named entries of every TLB of its core, or with scope package of every core; memory and registers stay. That
of other streams' stores those into the removed entries' frames are performed is the model's choice (log entry 55), and
the statement says nothing of them. -/
def Sys2Proof.Machine.TlbinvRemovesExactlyTheNamedEntries : Prop :=
  ∀ (s : State) (h : Hdr) (k : TlbSub) (sc : InvScope) (a b : Nat), s.ready (.tlbinv h k sc a b) h = true →
    s.strm.bwaitAt = none → (∀ j, (s.core j).framed = false ∧ SMap.rising 0 (s.core j).tlb = true) →
    SMap.rising 0 s.cores = true → s.unbuffered →
    ∃ t : State, exec (.tlbinv h k sc a b) s = .next (t.retire (.tlbinv h k sc a b) h fall) ∧ t.mem = s.mem ∧
      (∀ r, t.sreg r = s.sreg r) ∧
      (∀ p ∈ t.hist, ∀ e ∈ p.2.wr, e.agent = s.agent → ∀ n < 11, e.perf.testBit n = true) ∧
      ∀ j, ∀ n ∈ tlbNumbers, ∀ e : TlbEnt,
        e ∈ SMap.get [] (t.core j).tlb n ↔ e ∈ SMap.get [] (s.core j).tlb n ∧
          ¬ ((sc = .pkg ∨ j = s.curCore) ∧ tlbNamed k (s.sreg a).toNat ((s.sreg b).toNat % 4096) e)

/-- R391: CLBINV in free mode, with no store buffered anywhere, performs its stream's open stores for every path and removes
the entries of a tile, of a volume or all from the look-aside buffer of its core, or with scope package of every core;
memory and registers stay. Which of V's stores count as made through an entry is the model's choice (log entry 56), and the
statement says nothing of them. -/
def Sys2Proof.Machine.ClbinvRemovesExactlyTheNamedEntries : Prop :=
  ∀ (s : State) (h : Hdr) (k : ClbSub) (sc : InvScope) (a b : Nat), s.ready (.clbinv h k sc a b) h = true →
    s.strm.bwaitAt = none → s.me.framed = false → SMap.rising 0 s.cores = true → s.unbuffered →
    ∃ t : State, exec (.clbinv h k sc a b) s = .next (t.retire (.clbinv h k sc a b) h fall) ∧ t.mem = s.mem ∧
      (∀ r, t.sreg r = s.sreg r) ∧
      (∀ p ∈ t.hist, ∀ e ∈ p.2.wr, e.agent = s.agent → ∀ n < 11, e.perf.testBit n = true) ∧
      ∀ j, ∀ e : ClbEnt, e ∈ (t.core j).clb ↔ e ∈ (s.core j).clb ∧
        ¬ ((sc = .pkg ∨ j = s.curCore) ∧ (match k with
          | .tile => e.desc = (s.sreg a).toNat ∧ e.tile = (s.sreg b).toNat
          | .vol => e.desc = (s.sreg a).toNat
          | .all => True))

/-- R318: HTREE start, in frame mode with a valid block in the own scratchpad and no update in progress, starts a tree of
epoch 0 over its region; outside frame mode it is ENGCMD. Stop lets no further update begin. Wait goes on once the epoch
has reached S[b], with the epoch in S[d], 0 where there is no tree. -/
def Obligations.HashTreeWords : Prop :=
  ∀ (s : State) (h : Hdr),
    (∀ a, s.ready (.htreeStart h a) h = true → (s.sreg a).toNat % 8 = 0 →
      let va := (s.sreg a).toNat
      let pages := s.ownNat (va + 8) 8 % 2 ^ 20 + 1
      let n := s.ownNat (va + 16) 8 % 65536
      let region := s.ownNat va 8 / 4096 * 4096
      let area := s.ownNat (va + 24) 8 / 64 * 64
      (s.me.frame = false → exec (.htreeStart h a) s =
        .next ((s.waited (.htreeStart h a) h).takeFault s.curCore (.ofStream .c 0x1E 0 0) false)) ∧
      (s.me.frame = true → s.canRead va 32 → s.arraysQuiet → n ≠ 0 →
        pages * 640 + 10000 ≤ 2 ^ wfld (s.me.creg 0x060) 16 5 → (∀ t, s.me.htree = some t → t.pending = none) →
        s.ownScratch region (4096 * pages) → s.ownScratch area (areaBytes pages) →
        ∃ (t : State) (x : HTree), exec (.htreeStart h a) s = .next (t.retire (.htreeStart h a) h fall) ∧
          t.me.htree = some x ∧ x.region = region ∧ x.pages = pages ∧ x.interval = n ∧ x.area = area ∧ x.epoch = 0 ∧
          x.stopping = false ∧ ∀ r, t.sreg r = s.sreg r)) ∧
    (s.ready (.htreeStop h) h = true →
      ∃ t : State, exec (.htreeStop h) s = .next (t.retire (.htreeStop h) h fall) ∧
        s.OnlyMe t { s.me with htree := s.me.htree.map fun x => { x with stopping := true } }) ∧
    (∀ d b, s.ready (.htreeWait h d b) h = true →
      let epoch := match s.me.htree with | some x => x.epoch | none => 0
      ((s.sreg b).toNat ≤ epoch → exec (.htreeWait h d b) s =
        .next (((s.waited (.htreeWait h d b) h).setS d (BitVec.ofNat 64 epoch)).retire (.htreeWait h d b) h fall)) ∧
      (epoch < (s.sreg b).toNat → exec (.htreeWait h d b) s = .next (s.waited (.htreeWait h d b) h).setBlocked))

/-- CDIFF changes the shadow planes of a domain, and CGO starts a nest. -/
def Obligations.PlanesAndNests : Prop :=
  PlaneDiffAppliesToItsDomain ∧ PlaneDiffRefusesBadPackets ∧ CgoStartsTheNest

/-- GLAUNCH launches a graph, and BSP is the barrier of a domain. -/
def Obligations.GraphLaunchAndDomainBarrier : Prop :=
  GlaunchReportsAndPlacesTheGraph ∧ BspReleasesTheDomainTogether

/-- RSEED, RJUMP and RNEXT change one generator, and a jump is repeated steps. -/
def Obligations.GeneratorsStepAndJump : Prop :=
  GeneratorWords ∧ JumpIsRepeatedStep

/-- TLBINV and CLBINV remove exactly the entries that they name, their stream's stores performed. -/
def Obligations.LookAsideRemovals : Prop :=
  TlbinvRemovesExactlyTheNamedEntries ∧ ClbinvRemovesExactlyTheNamedEntries

namespace Sys2Proof.Machine

/-! ### Floating words of C -/

/-- The rounding of a result of C and the core after it (R40, R59, R110): a keyed or streamed draw, or a mode of FPMODE. -/
def Core.rounding (c : Core) (m : Option Rnd) : RMode × Core :=
  let key := (RMode.stoch (keyed c.genC 0 (wfld (c.creg 0x062) 0 20) % 2 ^ 32), c)
  match m with
  | none | some .rne => (.rne, c)
  | some .rtz => (.rtz, c)
  | some .srk => key
  | some .dyn => match (c.creg 0x000).toNat % 8 with
    | 1 => (.rtz, c) | 2 => (.down, c) | 3 => (.up, c) | 4 => (.away, c) | 5 => key
    | 6 => (.stoch (genOut c.genC.stepped.x.toNat % 2 ^ 32), c.setGen .c c.genC.stepped)
    | _ => (.rne, c)

/-- A register read as a number of type t (R91). -/
def fval (t : FTy) (x : Word) : Val := (ftFmt t).unpack (x.toNat % 2 ^ (ftFmt t).bits)

/-- The constant of FMAI and of FMAL: the upper bits of a number, zeros below (R128, R136). -/
def fconst (t : FTy) (bits x : Nat) : Val := (ftFmt t).unpack (x * 2 ^ ((ftFmt t).bits - bits))

/-- Type and width of a number that FCVT names. -/
def cvtWidth : CvtTy → Nat
  | .f64 | .i64 => 64 | .f32 | .i32 => 32

/-- A floating word's rounding field (none where nothing is rounded), destination, and pattern with its flags under a
mode; r reads a register, k an entry of the constant bank (R110 to R113, R136). -/
def floatWord (r k : Nat → Word) : Instr → Option (Option Rnd × Nat × (RMode → Nat × Flags))
  | .fadd _ t m d a b => some (some m, d, fun o => fAdd (ftFmt t) o (fval t (r a)) (fval t (r b)))
  | .fsub _ t m d a b => some (some m, d, fun o => fSub (ftFmt t) o (fval t (r a)) (fval t (r b)))
  | .fmul _ t m d a b => some (some m, d, fun o => fMul (ftFmt t) o (fval t (r a)) (fval t (r b)))
  | .fdiv _ t m d a b => some (some m, d, fun o => fDiv (ftFmt t) o (fval t (r a)) (fval t (r b)))
  | .fsqrt _ t m d a => some (some m, d, fun o => fSqrt (ftFmt t) o (fval t (r a)))
  | .fma _ t m d a b c => some (some m, d, fun o => fFma (ftFmt t) o (fval t (r a)) (fval t (r b)) (fval t (r c)))
  | .fmai _ t m d b imm =>
    some (some m, d, fun o => fFma (ftFmt t) o (fval t (r d)) (fval t (r b)) (fconst t 20 (imm % 2 ^ 20)))
  | .fmal _ .f64 m d a b lit =>
    some (some m, d, fun o => fFma fmt64 o (fval .f64 (r a)) (fval .f64 (r b)) (fconst .f64 48 (lit % 2 ^ 48)))
  | .fmal _ .f32 m d a b lit =>
    some (some m, d, fun o => fFma fmt32 o (fval .f32 (r a)) (fval .f32 (r b)) (fconst .f32 32 (lit % 2 ^ 32)))
  | .fmak _ t m d a b n =>
    some (some m, d, fun o => fFma (ftFmt t) o (fval t (r a)) (fval t (r b)) (fval t (k n)))
  | .fmin _ t d a b => some (none, d, fun _ =>
    fminmax (ftFmt t) false ((r a).toNat % 2 ^ (ftFmt t).bits) ((r b).toNat % 2 ^ (ftFmt t).bits))
  | .fmax _ t d a b => some (none, d, fun _ =>
    fminmax (ftFmt t) true ((r a).toNat % 2 ^ (ftFmt t).bits) ((r b).toNat % 2 ^ (ftFmt t).bits))
  | .fcmp _ c t d a b => some (none, d, fun _ =>
    ((fcompare c (fval t (r a)) (fval t (r b))).1.toNat, (fcompare c (fval t (r a)) (fval t (r b))).2))
  | .fcvt _ s t m d a => some (if convRounds (cvTy s) (cvTy t) then some m else none, d, fun o =>
    convert (cvTy s) (cvTy t) o false ((r a).toNat % 2 ^ cvtWidth s))
  | _ => none

/-- A result in S[d] (R91): a floating number zero-extended, an integer of FCVT sign-extended. -/
def fwritten (i : Instr) (p : Nat) : Word :=
  match i with
  | .fcvt _ _ .i32 _ _ _ => (BitVec.ofNat 32 p).signExtend 64
  | _ => BitVec.ofNat 64 p

end Sys2Proof.Machine

/-- R91, R109 to R113, R136: a floating word writes the rounded result of its registers and constant to S[d], raises its
flags in FPFLAGS and changes nothing else; the streamed mode steps C's generator once, and only where a result is
rounded. FPMODE, C's generator and the entry that FMAK names are those that C must see. -/
def Sys2Proof.Machine.FloatingWordsRoundOnceAndRaiseFlags : Prop :=
  ∀ (s : State) (i : Instr) (h : Hdr) (m : Option Rnd) (d : Nat) (f : RMode → Nat × Flags), i.hdr = some h →
    floatWord s.sreg (fun n => SMap.get 0 s.me.k n) i = some (m, d, f) → s.ready i h = true →
    (s.waited i h).settled 0x000 = true → (s.waited i h).settled 0x4000 = true →
    (match i with
     | .fmak _ _ _ _ _ _ n => s.eccQuiet = true ∧ (s.waited i h).settled (0x1000 + n) = true
     | _ => True) →
    let o := s.me.rounding m
    ∃ t : State, exec i s = .next (t.retire i h fall) ∧
      s.OnlyMe t ((o.2.setSreg .c d (fwritten i (f o.1).1)).flagged .c (f o.1).2)

/-- R57: rounding a magnitude to a multiple of a power of 2: toward zero gives the multiple below it, to nearest a multiple
no further away than half the unit, the even one of two as near; a result that is not exact says so. -/
def Sys2Proof.Machine.RoundingIsToTheNearestMultiple : Prop :=
  ∀ (neg : Bool) (m sh : Nat),
    let r := roundAt .rne neg m (-(sh : Int)) false 0
    let z := roundAt .rtz neg m (-(sh : Int)) false 0
    2 * m ≤ (2 * r.1 + 1) * 2 ^ sh ∧ 2 * r.1 * 2 ^ sh ≤ 2 * m + 2 ^ sh ∧
    ((2 * m = (2 * r.1 + 1) * 2 ^ sh ∨ 2 * r.1 * 2 ^ sh = 2 * m + 2 ^ sh) → r.1 % 2 = 0) ∧
    z.1 * 2 ^ sh ≤ m ∧ m < (z.1 + 1) * 2 ^ sh ∧ (r.2 = false ↔ r.1 * 2 ^ sh = m) ∧ (z.2 = false ↔ z.1 * 2 ^ sh = m)

/-- Scalar floating words round once and raise flags, and rounding gives the multiple that its mode names. -/
def Obligations.FloatingWordsRoundOnce : Prop :=
  FloatingWordsRoundOnceAndRaiseFlags ∧ RoundingIsToTheNearestMultiple

namespace Sys2Proof.Machine

/-! ### Virga loops and the sampler -/

/-- n 8-byte words of the own scratchpad from va. -/
def State.ownWords (s : State) (va n : Nat) : List Nat := (List.range n).map fun i => s.ownNat (va + 8 * i) 8

/-- n 4-byte words of the own scratchpad from va. -/
def State.ownWords4 (s : State) (va n : Nat) : List Nat := (List.range n).map fun i => s.ownNat (va + 4 * i) 4

/-- C of the executing core stands at the word, which has passed its wait, with a new role (R396, R402). -/
def State.servesAs (s : State) (role : Nat) (t : State) (h : Hdr) : Prop :=
  t.me.spec.role = role ∧ t.me.spec.pc = s.strm.pc ∧ t.me.spec.g = h.g ∧ t.me.spec.lead = s.curCore ∧ t.mem = s.mem ∧
    (∀ r, t.sreg r = s.sreg r) ∧ ∀ j, j ≠ s.curCore → t.core j = s.core j

end Sys2Proof.Machine

/-- R395, R401: SPCMP writes 1 when every word of one carry passes the rule against the other's, else 0; under `exact`
that is equality. SPACC writes the length that `blk` accepts, with the bits of the keyed generator at S[b] and flags in
FPFLAGS, or is SAMPLE where a value is not a probability. -/
def Sys2Proof.Machine.SpeculationCompares : Prop :=
  ∀ (s : State) (h : Hdr),
    (∀ k ct d a b t nc, s.ready (.spcmp h k ct d a b t nc) h = true → (s.sreg a).toNat % 8 = 0 → (s.sreg b).toNat % 8 = 0 →
      s.canRead (s.sreg a).toNat (8 * (nc + 1)) → s.canRead (s.sreg b).toNat (8 * (nc + 1)) →
      let g := s.ownWords (s.sreg a).toNat (nc + 1)
      let c := s.ownWords (s.sreg b).toNat (nc + 1)
      ∃ (u : State) (o v : Bool), exec (.spcmp h k ct d a b t nc) s = .next (u.retire (.spcmp h k ct d a b t nc) h fall) ∧
        (∀ r, u.sreg r = (s.me.setSreg .c d (if v then 1 else 0)).sreg .c r) ∧ u.mem = s.mem ∧
        v = carryPasses (Machine.SpRule.num k) ct (s.sreg t).toNat o g c ∧ (k = .exact → (v = true ↔ g = c))) ∧
    (∀ d a b l, s.ready (.spacc h d a b l) h = true → (s.sreg a).toNat % 8 = 0 →
      s.canRead (s.sreg a).toNat (8 * (l + 1)) →
      let pairs := (s.ownWords (s.sreg a).toNat (l + 1)).map fun w => (w % 2 ^ 32, fld w 32 32)
      let u := keyed s.me.genC (s.sreg b).toInt (wfld (s.me.creg 0x062) 32 20) / 2 ^ 40
      (∀ m fl, blkLength u pairs = some (m, fl) → ∃ t : State,
        exec (.spacc h d a b l) s = .next (t.retire (.spacc h d a b l) h fall) ∧ t.mem = s.mem ∧
        (∀ r, t.sreg r = (s.me.setSreg .c d (BitVec.ofNat 64 m)).sreg .c r) ∧
        t.me.creg 0x001 = s.me.creg 0x001 ||| fl.setWidth 64) ∧
      (blkLength u pairs = none → ∃ t : State,
        exec (.spacc h d a b l) s = .next (t.takeFault s.curCore (.ofStream .c 0x19 0 0) false)))

/-- R395, R396, R402: SPBEGIN of a valid control block hands the core to its unit, and `spend.srv` lets the core serve;
both stand at their word. Where the core runs an iteration, `spapp` adds its value to a region, and writes how many bytes
the iteration had added; `spend.b`, its commands retired, ends the iteration with its stop request; `spend.g` ends a
guess run and goes back to SPBEGIN. -/
def Sys2Proof.Machine.SpeculationWords : Prop :=
  ∀ (s : State) (h : Hdr),
    (∀ d a, s.ready (.spbegin h d a) h = true → s.me.spec.role = 0 → (s.sreg a).toNat % 64 = 0 →
      s.canRead (s.sreg a).toNat 128 →
      let cb := s.ownWords (s.sreg a).toNat 16
      let w2 := cb.getD 2 0
      let win := s.window s.curCore (fld w2 27 5)
      cb.getD 0 0 % 8 = 0 → cb.getD 1 0 % 8 = 0 → cb.getD 6 0 % 8 = 0 → 2 ≤ fld w2 27 5 → fld w2 27 5 ≤ 16 →
      wfld (s.me.creg 0x021) 0 10 + fld w2 27 5 ≤ wfld (s.me.creg 0x021) 16 10 → fld w2 17 3 ≤ 4 →
      (∀ r < fld w2 17 3, cb.getD (8 + 2 * r) 0 % 8 = 0) →
      s.starting win = false →
      (∀ j ∈ win, s.windowGone s.curCore j = false ∧ ((s.core j).creg 0x051).getLsbD 15 = true) →
      ∃ t : State, exec (.spbegin h d a) s = .next t ∧ s.servesAs 1 t h ∧ t.me.spec.cb = cb ∧
        t.me.spec.done = cb.getD 5 0 % 2 ^ 32 ∧ t.me.spec.d = d) ∧
    (s.ready (.spendSrv h) h = true → s.me.spec.role = 0 →
      ∃ t : State, exec (.spendSrv h) s = .next t ∧ s.servesAs 2 t h) ∧
    (∀ sz d a r, s.ready (.spapp h sz d a r) h = true → s.me.spec.role = 3 → s.me.spec.ended = false →
      r < s.me.spec.nap →
      (s.me.spec.appended r + wdLen sz ≤ 4096 → ∃ t : State,
        exec (.spapp h sz d a r) s = .next (t.retire (.spapp h sz d a r) h fall) ∧
        s.OnlyMe t ({ s.me with spec := { s.me.spec with app := s.me.spec.app ++ [(⟨r, wdLen sz, s.sreg a⟩ : SpApp)] }
          }.setSreg .c d
          (BitVec.ofNat 64 (s.me.spec.appended r)))) ∧
      (4096 < s.me.spec.appended r + wdLen sz → ∃ n : Word, exec (.spapp h sz d a r) s =
        .next ((s.waited (.spapp h sz d a r) h).takeFault s.curCore (.ofStream .c 0x13 0 n) false))) ∧
    (∀ a, s.ready (.spendB h a) h = true → s.me.spec.role = 3 → s.me.spec.ended = false →
      (∀ e < 2, s.me.runOf e = none ∧ s.me.equeue e = []) →
      ∃ t : State, exec (.spendB h a) s = .next (t.retire (.spendB h a) h fall) ∧
        s.OnlyMe t { s.me with spec := { s.me.spec with ended := true, stop := s.sreg a != 0 } }) ∧
    (s.ready (.spendG h) h = true → s.me.spec.role = 4 →
      ∃ t : State, exec (.spendG h) s = .next (t.retire (.spendG h) h ⟨.jump s.me.spec.pc, []⟩) ∧
        s.OnlyMe t { s.me with spec := { s.me.spec with role := 1, guessed := s.me.spec.pos, pos := 0 } })

/-- R406 to R411: with the sampler free, SMP on an active slot draws from the candidates in memory with the keyed bits of
the slot's position, writes outcome, slot, position and token, and moves the slot on; a token of the stop set makes it
stopped. On another slot it writes outcome 2 and leaves the slot. STOPSET makes a slot active at position S[b] with
the stop set in memory, and writes the slot's old state. -/
def Obligations.SamplerWords : Prop :=
  ∀ (s : State) (h : Hdr), s.me.inIter = false → s.thermStop = false → s.me.equeue 4 = [] → s.me.runOf 4 = none →
    SMap.rising 0 s.me.smp = true → SMap.rising 0 s.me.eq = true →
    (∀ k d a b slot n, s.ready (.smp h k d a b slot n) h = true → (s.sreg a).toNat % 8 = 0 →
      (k = .res → (s.sreg b).toNat % 4 = 0) →
      let x := SMap.get Slot.reset s.me.smp slot
      (x.st ≠ 1 → ∃ (t : State) (p : Nat), exec (.smp h k d a b slot n) s = .next (t.retire (.smp h k d a b slot n) h fall) ∧
        SMap.get Slot.reset t.me.smp slot = x ∧ t.mem = s.mem ∧
        ∀ r, t.sreg r = (s.me.setSreg .c d (BitVec.ofNat 64 (2 * 2 ^ 62 + slot * 2 ^ 56 + p % 65536 * 2 ^ 32))).sreg .c r) ∧
      (∀ tok, x.st = 1 → s.canRead (s.sreg a).toNat (8 * (n + 1)) → (k = .res → s.canRead (s.sreg b).toNat (4 * (n + 1))) →
        drawToken k ((s.sreg b).toNat % 2 ^ 32) (keyed s.me.genC (slot * 2 ^ 32 + x.pos : Nat)
            (wfld (s.me.creg 0x062) 32 20) % 2 ^ 32) (s.ownWords (s.sreg a).toNat (n + 1))
          (if k = .res then s.ownWords4 (s.sreg b).toNat (n + 1) else []) = some tok →
        ∃ t : State, exec (.smp h k d a b slot n) s = .next (t.retire (.smp h k d a b slot n) h fall) ∧
          SMap.get Slot.reset t.me.smp slot =
            ⟨(x.pos + 1) % 2 ^ 32, tok, if x.ids.contains tok then 2 else 1, x.ids⟩ ∧ t.mem = s.mem ∧
          ∀ r, t.sreg r = (s.me.setSreg .c d (BitVec.ofNat 64 ((if x.ids.contains tok then 1 else 0) * 2 ^ 62 +
            slot * 2 ^ 56 + x.pos % 65536 * 2 ^ 32 + tok))).sreg .c r)) ∧
    (∀ d a b slot cnt, s.ready (.stopset h d a b slot cnt) h = true → (s.sreg a).toNat % 4 = 0 →
      s.canRead (s.sreg a).toNat (4 * cnt) →
      ∃ t : State, exec (.stopset h d a b slot cnt) s = .next (t.retire (.stopset h d a b slot cnt) h fall) ∧
        SMap.get Slot.reset t.me.smp slot = ⟨(s.sreg b).toNat % 2 ^ 32, 0, 1, s.ownWords4 (s.sreg a).toNat cnt⟩ ∧
        t.mem = s.mem ∧
        ∀ r, t.sreg r = (s.me.setSreg .c d (BitVec.ofNat 64 (SMap.get Slot.reset s.me.smp slot).st)).sreg .c r)

/-- SPCMP and SPACC compare, and the SPBEGIN, SPAPP and SPEND words steer a Virga loop. -/
def Obligations.SpeculationWordsAndCompares : Prop :=
  SpeculationCompares ∧ SpeculationWords

namespace Sys2Proof.Machine

/-! ### Words of V -/

/-- The queue whose head a source code names (R44). -/
def srcQueue (c : Nat) : Option Nat := if c = 648 then some 0 else if c = 649 then some 1 else if c = 655 then some 7
  else none

/-- What a source code names, as V reads it (R44, R45). -/
def State.vsrc (s : State) (c : Nat) : Src :=
  let head := fun q => ((s.me.queue q).head?.map QEnt.img).getD 0
  if c < 640 then .img (SMap.get 0 s.me.v c).toNat
  else if c < 644 then .coord (c - 640)
  else if c = 644 then .lane else if c = 645 then .lin else if c = 646 then .rnd else if c = 647 then .zero
  else if c = 655 then .bcast (lo64 (head 7)).toNat
  else if c < 650 then .img (head (c - 648)).toNat
  else .bcast (SMap.get 0 s.me.k (c - 768)).toNat

/-- A map, a mask and what keyed bits need, from the registers as they stand (R59, R162, R177). -/
def State.vview (s : State) (m : VMap) (p : Nat) : VCtx :=
  ⟨m, s.me.slots, s.me.pred p, s.me.genV, 0, wfld (s.me.creg 0x062) 0 20, wfld (s.me.creg 0x062) 32 20,
    (s.me.creg 0x004).getLsbD 0⟩

/-- A ready V word with the source codes `codes` and the destination d: its queue sources have arrived, q2 has room where
it is the destination, V must see the newest control registers, generator and constants, no storage error stands. -/
def State.vReady (s : State) (i : Instr) (h : Hdr) (codes : List Nat) (d : Nat) : Prop :=
  i.hdr = some h ∧ s.ready i h = true ∧ s.arraysQuiet ∧ s.strm.popped = [] ∧
  (∀ key ∈ [0x000, 0x004, 0x062, 0x4002], (s.waited i h).settled key = true) ∧
  (∀ c ∈ codes, 768 ≤ c → (s.waited i h).settled (0x1000 + (c - 768)) = true) ∧
  (∀ c ∈ codes, ∀ q, srcQueue c = some q → s.me.qReady q = true) ∧ (d = 650 → (s.me.queue 2).length < 8) ∧
  SMap.rising 0 s.me.v = true ∧ SMap.rising 0 s.me.vmap = true ∧ SMap.rising 0 s.me.q = true ∧
  SMap.rising 0 s.me.cr = true ∧ SMap.rising 0 s.me.p = true

/-- What a V word with destination registers ds, source codes, a queue or a predicate it writes, flags and k draws leaves
alone: the package, other cores, and of its core all but V registers and maps of ds, the queue sources' heads, the written
queue, the predicate, VFLAGS and V's generator. -/
structure State.VOnly (s t : State) (ds codes : List Nat) (dq : Option Nat) (pd : Nat) (f : Flags) (k : Nat) : Prop where
  rest : s.OnlyMe t { s.me with v := t.me.v, vmap := t.me.vmap, slots := t.me.slots, q := t.me.q, cr := t.me.cr,
                                genV := t.me.genV, p := t.me.p }
  regs : ∀ r, r ∉ ds → SMap.get 0 t.me.v r = SMap.get 0 s.me.v r ∧ t.me.mapOf r = s.me.mapOf r ∧
    ∀ e, (t.me.mapOf r).spot t.me.slots e = (s.me.mapOf r).spot s.me.slots e
  queues : ∀ q, dq ≠ some q →
    t.me.queue q = if codes.any fun c => srcQueue c == some q then (s.me.queue q).tail else s.me.queue q
  preds : ∀ n, n ≠ pd → SMap.get 0 t.me.p n = SMap.get 0 s.me.p n
  flags : t.me.creg 0x002 = s.me.creg 0x002 ||| f.setWidth 64
  cregs : ∀ n, n ≠ 0x002 → t.me.creg n = s.me.creg n
  gen : t.me.genV = Gen.stepped^[k] s.me.genV

/-- The destination d holds the outs in elements of w bits (R162): a register keeps its old bytes where masked; q2 takes an
entry with zeros there. -/
def State.vOut (s t : State) (w d : Nat) (out : Nat → Out) : Prop :=
  (d < 640 → ∀ e < 4096 / w, elemOf w (SMap.get 0 t.me.v d).toNat e = match out e with
    | .val x => x % 2 ^ w | .zero => 0 | .keep => elemOf w (SMap.get 0 s.me.v d).toNat e) ∧
  (d = 650 → ∃ e : QEnt, t.me.queue 2 = s.me.queue 2 ++ [e] ∧ e.ready = true ∧
    ∀ i < 4096 / w, elemOf w e.img.toNat i = match out i with | .val x => x % 2 ^ w | _ => 0)

/-- The queue that a destination code writes. -/
def destQueue (d : Nat) : Option Nat := if d = 650 then some 2 else none

/-- An element that is active, void or masked under a map (R25, R162). -/
def VCtx.out (x : VCtx) (e v : Nat) : Out := if x.active e then .val v else if x.isVoid e then .zero else .keep

/-- Flags of the active elements below n. -/
def VCtx.flagsOf (x : VCtx) (n : Nat) (f : Nat → Flags) : Flags :=
  ((List.range n).filter x.active).foldl (fun a e => a ||| f e) 0

/-- MAPCHK lets the word go: its register sources agree, and no coordinate is lost (R201, R209, R210). -/
def State.mapsPass (s : State) (x : VCtx) (n : Nat) (regs : List Nat) (f : Flags) : Prop :=
  x.chk = true → s.me.agreeAll n regs = true ∧ f &&& 0x40 = 0

/-- A word of R176 to R182 or VMOV: element type, mask, rounding field (none: never rounded), operand codes, whether the
destination's element is an operand, and the function of mode, a, b and that element. -/
structure VForm where
  t : Ty
  p : Nat
  m : Option Rnd
  d : Nat
  a : Nat
  b : Nat
  addend : Bool
  f : RMode → Nat → Nat → Nat → Nat × Flags

/-- The value of a V2I immediate (R128). -/
def vimm (t : Ty) (imm : Nat) : Val := if t = .f64 then fmt64.unpack (imm % 2 ^ 20 * 2 ^ 44) else fmt32.unpack (imm % 2
  ^ 20 * 2 ^ 12)

def vform (vmode : Nat) : Instr → Option VForm
  | .vadd _ t p m d a b => some ⟨t, p, some m, d, a, b, false, vBin t fAdd fun x y => x + y⟩
  | .vsub _ t p m d a b => some ⟨t, p, some m, d, a, b, false, vBin t fSub fun x y => x + 2 ^ t.width - y⟩
  | .vmul _ t p m d a b => some ⟨t, p, some m, d, a, b, false, vBin t fMul fun x y => x * y⟩
  | .vfma _ t p m d a b => some ⟨t, p, some m, d, a, b, true, vFmaFn t⟩
  | .vdiv _ t p m d a b => some ⟨t, p, some m, d, a, b, false, vBin t fDiv fun x _ => x⟩
  | .vsqrt _ t p m d a => some ⟨t, p, some m, d, a, 647, false, vUn t fSqrt⟩
  | .vexp2 _ t p m d a => some ⟨t, p, some m, d, a, 647, false, vUn t fExp2⟩
  | .vlog2 _ t p m d a => some ⟨t, p, some m, d, a, 647, false, vUn t fLog2⟩
  | .vmin _ t p _ d a b => some ⟨t, p, none, d, a, b, false, fun _ x y _ => vMinMax false t x y⟩
  | .vmax _ t p _ d a b => some ⟨t, p, none, d, a, b, false, fun _ x y _ => vMinMax true t x y⟩
  | .vabs _ t p _ d a => some ⟨t, p, none, d, a, 647, false, fun _ x _ _ => vSign false t x⟩
  | .vneg _ t p _ d a => some ⟨t, p, none, d, a, 647, false, fun _ x _ _ => vSign true t x⟩
  | .vand _ t p _ d a b => some ⟨t, p, none, d, a, b, false, fun _ x y _ => (x &&& y, 0)⟩
  | .vor _ t p _ d a b => some ⟨t, p, none, d, a, b, false, fun _ x y _ => (x ||| y, 0)⟩
  | .vxor _ t p _ d a b => some ⟨t, p, none, d, a, b, false, fun _ x y _ => (x ^^^ y, 0)⟩
  | .vshl _ t p _ d a b => some ⟨t, p, none, d, a, b, false, fun _ x y _ => (if y < t.width then x * 2 ^ y else 0, 0)⟩
  | .vshr _ t p _ d a b => some ⟨t, p, none, d, a, b, false, fun _ x y _ => (if y < t.width then x / 2 ^ y else 0, 0)⟩
  | .vsar _ t p _ d a b => some ⟨t, p, none, d, a, b, false, fun _ x y _ =>
      (wrap t.width (sval t.width x / (2 ^ min y (t.width - 1) : Nat)), 0)⟩
  | .vmov _ t p d a => some ⟨t, p, none, d, a, 647, false, fun _ x _ _ => (x, 0)⟩
  | .vfmal _ t p m d a b lit => some ⟨t, p, some m, d, a, b, false, fun o x y _ =>
      if t.isFloat then
        fFma (ffmt t) o ((ffmt t).unpack x) ((ffmt t).unpack y)
          (if t = .f64 then fmt64.unpack (lit % 2 ^ 48 * 2 ^ 16) else fmt32.unpack (lit % 2 ^ 32))
      else (wrap t.width ((x * y : Nat) + if t = .i64 then sval 48 lit else sval 32 lit), 0)⟩
  | .vaddi _ d a imm => vimmForm (Ty.ofCode (fld vmode 1 3)) d a imm false (fun f o x i _ => fAdd f o x i) fun x i _ => x + i
  | .vmuli _ d a imm => vimmForm (Ty.ofCode (fld vmode 1 3)) d a imm false (fun f o x i _ => fMul f o x i) fun x i _ => x * i
  | .vfmai _ d a imm => vimmForm (Ty.ofCode (fld vmode 1 3)) d a imm true (fun f o x i z => fFma f o z x i) fun x i z
    => z * x + i
  | _ => none
where
  vimmForm (t : Ty) (d a imm : Nat) (addend : Bool) (ff : FFmt → RMode → Val → Val → Val → Nat × Flags)
      (fi : Nat → Nat → Nat → Nat) : Option VForm :=
    some ⟨t, 0, some .dyn, d, a, 647, addend, fun o x _ z =>
      if t.isFloat then ff (ffmt t) o ((ffmt t).unpack x) (vimm t imm) ((ffmt t).unpack z)
      else (fi x (wrap t.width (sval 20 imm)) z, 0)⟩

/-- The mode number that a rounding field names (R40). -/
def State.rndOf (s : State) (m : Rnd) : Nat :=
  match m with
  | .rne => 0 | .rtz => 1 | .srk => 5 | .dyn => rndCode ((s.me.creg 0x000).toNat % 8)

/-- A rounding by mode number: keyed by the linear index of element q, or drawn in ascending position of `act` (R59). -/
def State.roundBy (s : State) (x : VCtx) (act : Nat → Bool) (code e q : Nat) : RMode × Flags :=
  if code = 6 then (.stoch (genOut (Gen.stepped^[(List.range e).countP act + 1] s.me.genV).x.toNat % 2 ^ 32), 0)
  else keyedMode x code q

/-- The rounding of position e under a rounding field (R40, R59, R176). -/
def State.elemRound (s : State) (x : VCtx) (act : Nat → Bool) (m : Option Rnd) (e q : Nat) : RMode × Flags :=
  match m with
  | none => (.rne, 0)
  | some m => s.roundBy x act (s.rndOf m) e q

/-- Draws of a streamed rounding, one for each active position (R59). -/
def State.streamed (s : State) (act : Nat → Bool) (m : Option Rnd) (n : Nat) : Nat :=
  match m with
  | some m => if s.rndOf m = 6 then (List.range n).countP act else 0
  | none => 0

end Sys2Proof.Machine

/-- R162, R176 to R182, R206: a word of element arithmetic, VMOV or an immediate form computes every active element from the
elements of its sources, each rounded once; masked elements keep their bytes and void ones are zero (in q2 both zero). A
register destination takes the reference map, the flags of the active elements go to VFLAGS, and nothing else changes but
V's generator, which streamed rounding moves on. -/
def Obligations.ElementWordsComputeEachElement : Prop :=
  ∀ (s : State) (i : Instr) (h : Hdr) (w : VForm), vform (s.me.creg 0x004).toNat i = some w →
    let regs := regsOf ([w.a, w.b] ++ if w.addend then [w.d] else [])
    let x := s.vview (s.me.refMap regs w.d) w.p
    let el := fun c e => srcElem x w.t (s.vsrc c) e
    let o := fun e => s.elemRound x x.active (if w.t.isFloat then w.m else none) e e
    let z := fun e => if w.addend then el w.d e else (0, 0)
    let r := fun e => w.f (o e).1 (el w.a e).1 (el w.b e).1 (z e).1
    let f := x.flagsOf w.t.count fun e => (r e).2 ||| (el w.a e).2 ||| (el w.b e).2 ||| (o e).2
    s.vReady i h [w.a, w.b] w.d → s.mapsPass x w.t.count regs f →
    ∃ t : State, exec i s = .next (t.retire i h fall) ∧ s.VOnly t [w.d] [w.a, w.b] (destQueue w.d) 0 f
        (s.streamed x.active (if w.t.isFloat then w.m else none) w.t.count) ∧
      s.vOut t w.t.width w.d (fun e => x.out e (r e).1) ∧ (w.d < 640 → t.me.mapOf w.d = x.map)

namespace Sys2Proof.Machine

/-- What predicate pd of t holds: the bits of a function, old bits where it gives none; P0 stays all ones (R163). -/
def State.predOut (s t : State) (pd n : Nat) (bit : Nat → Option Bool) : Prop :=
  pd ≠ 0 → ∀ e < 512, (t.me.pred pd).testBit e =
    if e < n then (bit e).getD ((s.me.pred pd).testBit e) else (s.me.pred pd).testBit e

/-- A comparison of two elements and its flags (R112, R183). -/
def vcmpElem (k : VCond) (t : Ty) (x y : Nat) : Bool × Flags :=
  let i := sval t.width x
  let j := sval t.width y
  let fc : FCond := match k with
    | .ne => .ne | .lt => .lt | .le => .le | .gt => .gt | .ge => .ge | .un => .un | .ord => .ord | _ => .eq
  if t.isFloat then fcompare fc ((ffmt t).unpack x) ((ffmt t).unpack y)
  else (match k with
    | .eq => decide (x = y) | .ne => decide (x ≠ y) | .lt => decide (i < j) | .le => decide (i ≤ j) | .gt => decide (j < i)
    | .ge => decide (j ≤ i) | .ltu => decide (x < y) | .leu => decide (x ≤ y) | .gtu => decide (y < x)
    | .geu => decide (y ≤ x) | .un | .ord => false, 0)

end Sys2Proof.Machine

/-- R173, R174, R183, R184: VCMP sets the bits of active elements to their comparison and clears those of void ones;
PLOGIC sets the bits under its mask to its function of two predicates; VSEL takes each element from a or b as its
predicate says; PCNT writes how many active bits are set, or are set below each element. -/
def Obligations.SelectionAndPredicateWords : Prop :=
  ∀ (s : State) (h : Hdr) (t : Ty) (p : Nat),
    (∀ k pd a b, s.vReady (.vcmp h k t p pd a b) h [a, b] 0 →
      let x := s.vview (s.me.refMap (regsOf [a, b]) 650) p
      let el := fun c e => srcElem x t (s.vsrc c) e
      let f := x.flagsOf t.count fun e => (el a e).2 ||| (el b e).2 ||| (vcmpElem k t (el a e).1 (el b e).1).2
      s.mapsPass x t.count (regsOf [a, b]) f →
      ∃ u : State, exec (.vcmp h k t p pd a b) s = .next (u.retire (.vcmp h k t p pd a b) h fall) ∧
        s.VOnly u [] [a, b] none pd f 0 ∧ s.predOut u pd t.count fun e =>
          if x.isVoid e then some false
          else if x.active e then some (vcmpElem k t (el a e).1 (el b e).1).1 else none) ∧
    (∀ d a b, s.vReady (.vsel h t p d a b) h [a, b] d →
      let x := s.vview (s.me.refMap (regsOf [a, b]) d) 0
      let el := fun e => srcElem x t (s.vsrc (if (s.me.pred p).testBit e then a else b)) e
      let f := x.flagsOf t.count fun e => (el e).2
      s.mapsPass x t.count (regsOf [a, b]) f →
      ∃ u : State, exec (.vsel h t p d a b) s = .next (u.retire (.vsel h t p d a b) h fall) ∧
        s.VOnly u [d] [a, b] (destQueue d) 0 f 0 ∧ s.vOut u t.width d (fun e => x.out e (el e).1) ∧
        (d < 640 → u.me.mapOf d = x.map)) ∧
    (∀ fn pd pa pb, s.vReady (.plogic h fn t p pd pa pb) h [] 0 →
      ∃ u : State, exec (.plogic h fn t p pd pa pb) s = .next (u.retire (.plogic h fn t p pd pa pb) h fall) ∧
        s.VOnly u [] [] none pd 0 0 ∧ s.predOut u pd t.count fun e =>
          if (s.me.pred p).testBit e then
            some (fn.testBit (2 * ((s.me.pred pa).testBit e).toNat + ((s.me.pred pb).testBit e).toNat)) else none) ∧
    (∀ pre d pa, s.vReady (.pcnt h pre t p d pa) h [] d →
      let x := s.vview (s.me.refMap [] d) p
      let n := fun e => (List.range (if pre then e else t.count)).countP fun q => (s.me.pred pa).testBit q && x.active q
      ∃ u : State, exec (.pcnt h pre t p d pa) s = .next (u.retire (.pcnt h pre t p d pa) h fall) ∧
        s.VOnly u [d] [] (destQueue d) 0 0 0 ∧ s.vOut u t.width d (fun e => x.out e (n e)) ∧
        (d < 640 → u.me.mapOf d = x.map))

/-- Register d takes the map that is formed from m, position i with the parent element of element `src i` (R205):
explicit, or opaque with count n. -/
def Sys2Proof.Machine.State.formed (s t : State) (d : Nat) (m : VMap) (src : Nat → Option Nat) (n : Nat) : Prop :=
  ((∃ q, m.parent = some q ∧ q.total ≤ 65536) ∧ (s.me.setMap d (.affine .dflt)).freeSlot.isSome = true →
    (t.me.mapOf d).parent = m.parent ∧ ∀ e < 512,
      (t.me.mapOf d).parentIdx t.me.slots e = ((src e).bind (m.parentIdx s.me.slots)).map (· % 65536)) ∧
  (¬ ((∃ q, m.parent = some q ∧ q.total ≤ 65536) ∧ (s.me.setMap d (.affine .dflt)).freeSlot.isSome = true) →
    t.me.mapOf d = .opaque n)

/-- R153, R189 to R191, R205: VPERM takes the element of a that the index in b names, zero where there is none (`permm` zero
wherever nothing is taken); VCOMP packs the active elements in ascending order with zeros behind; VPART puts the element
numbers of each outcome into list registers and their counts into a token; VTOK pushes its token of the active elements.
With `permm`, VCOMP and VPART a destination takes an explicit map under the parent of a, each position the parent element of
the element that it holds, or an opaque one where no slot is free or the parent is too large (R205); with VPERM an opaque
one. -/
def Obligations.RearrangingWordsMoveElements : Prop :=
  ∀ (s : State) (h : Hdr) (t : Ty) (p : Nat),
    (∀ pm d a b, s.vReady (.vperm h pm t p d a b) h [a, b] d →
      let am := if a < 640 then s.me.mapOf a else .affine .dflt
      let x := s.vview (if b < 640 then s.me.mapOf b else s.me.refMap [] d) p
      let j := fun e => srcElem x (intOf t) (s.vsrc b) e
      let takes := fun e => x.active e && decide ((j e).1 < t.count) && !(decide (a < 640) && am.isVoid s.me.slots (j e).1)
      let v := fun e => if takes e then srcElem x t (s.vsrc a) (j e).1 else (0, 0)
      let f := x.flagsOf t.count fun e => (j e).2 ||| (v e).2
      (x.chk = true → f &&& 0x40 = 0) →
      ∃ u : State, exec (.vperm h pm t p d a b) s = .next (u.retire (.vperm h pm t p d a b) h fall) ∧
        s.VOnly u [d] [a, b] (destQueue d) 0 f 0 ∧
        s.vOut u t.width d (fun e => if takes e then .val (v e).1 else if pm || x.active e then .zero else .keep) ∧
        (d < 640 → pm = false → u.me.mapOf d = .opaque 512) ∧
        (d < 640 → pm = true → s.formed u d am (fun e => if e < t.count ∧ takes e = true then some (j e).1 else none) 512)) ∧
    (∀ d a, s.vReady (.vcomp h t p d a) h [a] d →
      let x := s.vview (if a < 640 then s.me.mapOf a else .affine .dflt) p
      let l := (List.range t.count).filter x.active
      let f := x.flagsOf t.count fun e => (srcElem x t (s.vsrc a) e).2
      (x.chk = true → f &&& 0x40 = 0) →
      ∃ u : State, exec (.vcomp h t p d a) s = .next (u.retire (.vcomp h t p d a) h fall) ∧
        s.VOnly u [d] [a] (destQueue d) 0 f 0 ∧ s.vOut u t.width d (fun e => match l[e]? with
          | some q => .val (srcElem x t (s.vsrc a) q).1 | none => .zero) ∧
        (d < 640 → s.formed u d x.map (fun i => l[i]?) l.length)) ∧
    (∀ four q4 d a, s.vReady (.vpart h four q4 t p d a) h [a] 0 →
      let q := if q4 then 4 else 3
      let x := s.vview (if a < 640 then s.me.mapOf a else .affine .dflt) p
      let el := fun e => srcElem x t (s.vsrc a) e
      let f := x.flagsOf t.count fun e => (el e).2
      let outcome := fun e => if four then (el e).1 % 4 else (nonZero t (el e).1).toNat
      let list := fun k => (List.range t.count).filter fun e => x.active e && outcome e == k
      let ways := if four then 4 else 2
      let n := fun k => if k < ways then (list k).length else 0
      (s.me.queue q).length < 16 → (x.chk = true → f &&& 0x40 = 0) →
      ∃ (u : State) (e : QEnt), exec (.vpart h four q4 t p d a) s = .next (u.retire (.vpart h four q4 t p d a) h fall) ∧
        s.VOnly u ((List.range ways).map (d + ·)) [a] (some q) 0 f 0 ∧ u.me.queue q = s.me.queue q ++ [e] ∧
        lo64 e.img = BitVec.ofNat 64 (n 3 * 2 ^ 52 + n 2 * 2 ^ 40 + n 1 * 2 ^ 28 + n 0 * 2 ^ 16 +
          ((List.range 4).map fun k => if n k > 0 then 2 ^ k else 0).sum) ∧
        ∀ k < ways, (∀ i < 256, elemOf 16 (SMap.get 0 u.me.v (d + k)).toNat i = (list k).getD i 0) ∧
          (u.me.mapOf (d + k) = .opaque (list k).length ∨ ((u.me.mapOf (d + k)).parent = x.map.parent ∧ ∀ e < 512,
            (u.me.mapOf (d + k)).parentIdx u.me.slots e =
              (((list k)[e]?).bind (x.map.parentIdx s.me.slots)).map (· % 65536)))) ∧
    (∀ k q4 a b, s.vReady (.vtok h k q4 t p a b) h [a] 0 →
      let q := if q4 then 4 else 3
      let x := s.vview (s.me.refMap (regsOf [a]) 650) (if k = .elt then 0 else p)
      let el := fun e => srcElem x t (s.vsrc a) e
      let set_ := (List.range t.count).countP fun e => x.active e && nonZero t (el e).1
      let act := (List.range t.count).countP x.active
      let fl := match k with
        | .elt => if x.isVoid b then 0 else (el b).2
        | _ => x.flagsOf t.count fun e => (el e).2
      (s.me.queue q).length < 16 → (x.chk = true → fl &&& 0x40 = 0) →
      ∃ (u : State) (e : QEnt), exec (.vtok h k q4 t p a b) s = .next (u.retire (.vtok h k q4 t p a b) h fall) ∧
        s.VOnly u [] [a] (some q) 0 0 0 ∧ u.me.queue q = s.me.queue q ++ [e] ∧ e.ready = true ∧
        lo64 e.img = match k with
          | .elt => if x.isVoid b then 0 else if t.isFloat then BitVec.ofNat 64 (el b).1
              else BitVec.ofInt 64 (sval t.width (el b).1)
          | .any => BitVec.ofNat 64 (set_ * 65536 + if set_ > 0 then 1 else 0)
          | .all => BitVec.ofNat 64 (set_ * 65536 + if set_ = act then 1 else 0)
          | .cnt => BitVec.ofNat 64 (set_ * 65536 + min set_ 0xFFFF))

namespace Sys2Proof.Machine

/-- A combination of a tree over present values (R67): the one that is present, or the operation on both. -/
def joinNodes (f : Nat → Nat → Nat) : Option Nat → Option Nat → Option Nat
  | some u, some v => some (f u v)
  | some u, none => some u
  | none, v => v

/-- One level up. -/
def pairNodes (f : Nat → Nat → Nat) : List (Option Nat) → List (Option Nat)
  | a :: b :: l => joinNodes f a b :: pairNodes f l
  | l => l

/-- The levels of a tree of at most 2^n leaves, from the leaves up. -/
def treeLevels (f : Nat → Nat → Nat) : Nat → List (Option Nat) → List (List (Option Nat))
  | 0, l => [l]
  | n + 1, l => if l.length ≤ 1 then [l] else l :: treeLevels f n (pairNodes f l)

/-- The prefix over n positions: the maximal aligned blocks from the left (R67). -/
def treePrefix (f : Nat → Nat → Nat) (ls : List (List (Option Nat))) (n : Nat) : Nat → Nat → Option Nat → Option Nat
  | 0, _, acc => acc
  | k + 1, off, acc =>
    if n.testBit k then treePrefix f ls n k (off + 2 ^ k) (joinNodes f acc ((ls.getD k []).getD (off / 2 ^ k) none))
    else treePrefix f ls n k off acc

/-- The leaves of a segment: its active elements. -/
def treeLeaves (x : VCtx) (val : Nat → Nat) (n : Nat) (seg : Nat × Nat) : List (Option Nat) :=
  (List.range (pow2Up seg.2)).map fun i =>
    if i < seg.2 ∧ seg.1 + i < n ∧ x.active (seg.1 + i) = true then some (val (seg.1 + i)) else none

end Sys2Proof.Machine

/-- R67, R187, R188: VRED combines the active elements of each segment by a tree of pairs, in elements 0 up, an empty
segment giving the identity, zeros behind; VSCAN gives each active element the combination of its segment's active
elements up to it; along dim 0 an active element of no segment gets 0 (the model's choice, log entry 98). The value is stated
where no combination rounds or the rounding is a fixed mode; the map is that of R208 (the fields that R208 leaves open are
the model's choice, log entry 103). -/
def Obligations.ReductionsAndScansCombineByTree : Prop :=
  ∀ (s : State) (h : Hdr) (op : RedOp) (sg : Seg) (t : Ty) (p : Nat) (m : Rnd) (d a : Nat),
    let map := if a < 640 then s.me.mapOf a else .affine .dflt
    let x := s.vview map p
    let el := fun e => (srcElem x t (s.vsrc a) e).1
    let segs := redSegs x sg t.count
    let fixed := redRounds op t = false ∨ s.rndOf m < 5
    let f := fun u v => (redFn op t (if redRounds op t then modeOfCode (s.rndOf m) 0 else .rne) u v).1
    let tree := fun g => treeLevels f 10 (treeLeaves x el t.count g)
    (sg = .all ∨ dim0Ok map = true) → (x.chk = true → ∀ e, x.spot e ≠ .lost ∧ (srcElem x t (s.vsrc a) e).2 &&& 0x40 = 0) →
    (s.vReady (.vred h op sg t p m d a) h [a] d →
      ∃ (u : State) (fl : Flags) (k : Nat), exec (.vred h op sg t p m d a) s = .next (u.retire (.vred h op sg t p m d
        a) h fall) ∧
        s.VOnly u [d] [a] (destQueue d) 0 fl k ∧
        (fixed → s.vOut u t.width d fun e => match segs[e]? with
          | some g => .val ((((tree g).getLastD []).headD none).getD (redIdentity op t)) | none => .zero) ∧
        (d < 640 → u.me.mapOf d = match sg with | .all => redAllMap map | .dim0 => redDimMap map)) ∧
    (s.vReady (.vscan h op sg t p m d a) h [a] d →
      ∃ (u : State) (fl : Flags) (k : Nat), exec (.vscan h op sg t p m d a) s = .next (u.retire (.vscan h op sg t p m d
        a) h fall) ∧
        s.VOnly u [d] [a] (destQueue d) 0 fl k ∧
        (fixed → s.vOut u t.width d fun e => x.out e (match segs.find? fun g => g.1 ≤ e && e < g.1 + g.2 with
          | some g => (treePrefix f (tree g) (e - g.1 + 1) 10 0 none).getD 0 | none => 0)) ∧
        (d < 640 → u.me.mapOf d = map))

/-- R64 to R66, R185, R186, R212, R320 (the model's choices: the index that rounds an element of an implicit source, log
entry 97, and which elements draw a rounding, log entry 41): VCVT converts the elements that its part names, each rounded
once, and a register takes the source's map, an affine one moved to its part; VQMX packs blocks of 16 elements, inactive
ones as +0, into its slots of the destination and leaves the other bytes, VDQMX unpacks them; VRND writes keyed or
streamed bits. -/
def Obligations.ConversionsBlocksAndRandomWords : Prop :=
  ∀ (s : State) (h : Hdr),
    (∀ sTy j sat t p m d a, s.vReady (.vcvt h sTy j sat t p m d a) h [a] d →
      let own := decide (640 ≤ a)
      let x := s.vview (if own then s.me.refMap [] d else s.me.mapOf a) p
      let src := fun e => cvtSrc sTy.count t.count j e
      let void := fun e => if own then x.isVoid e else match src e with | some q => x.isVoid q | none => false
      let act := fun e => (src e).isSome && x.mask.testBit e && !void e
      let el := fun e => srcElem x sTy (s.vsrc a) ((src e).getD 0)
      let o := fun e => s.elemRound x act (if convRounds sTy t then some m else none) e (if own then e else (src e).getD 0)
      let r := fun e => convert sTy t (o e).1 sat (el e).1
      let f := ((List.range t.count).filter act).foldl (fun y e => y ||| ((r e).2 ||| (el e).2 ||| (o e).2)) 0
      (x.chk = true → f &&& 0x40 = 0) →
      ∃ u : State, exec (.vcvt h sTy j sat t p m d a) s = .next (u.retire (.vcvt h sTy j sat t p m d a) h fall) ∧
        s.VOnly u [d] [a] (destQueue d) 0 f (s.streamed act (if convRounds sTy t then some m else none) t.count) ∧
        (s.vOut u t.width d fun e =>
          if (src e).isNone then .keep else if act e then .val (r e).1 else if void e then .zero else .keep) ∧
        (d < 640 → own = true → u.me.mapOf d = s.me.mapOf d) ∧
        (d < 640 → own = false → sTy.count = t.count → j = 0 → u.me.mapOf d = s.me.mapOf a) ∧
        ∀ q, d < 640 → s.me.mapOf a = .affine q → own = false → u.me.mapOf d = .affine { q with
          skew := if t.count ≤ sTy.count then q.skew + (j * t.count : Nat) else q.skew - (j * sTy.count : Nat) }) ∧
    (∀ w t p d a slot, s.vReady (.vqmx h w t p d a slot) h [a] d →
      let x := s.vview (if a < 640 then s.me.mapOf a else .affine .dflt) p
      let el := fun e => srcElem x t.ty (s.vsrc a) e
      let val := fun e => if x.active e then tyVal t.ty (el e).1 else .fin false 0 0 false
      let block := fun k => mxQuantize w ((List.range 16).map fun q => val (16 * k + q))
      let n := t.ty.count / 16
      let bits := 8 * w.size
      let f := x.flagsOf t.ty.count (fun e => (el e).2) ||| (List.range n).foldl (fun y k => y ||| (block k).2) 0
      let held := fun (old new : Nat) => (∀ k < n, fld new (bits * (slot + k)) bits = (block k).1) ∧
        ∀ q < 4096, (q < bits * slot ∨ bits * (slot + n) ≤ q) → new.testBit q = old.testBit q
      (x.chk = true → f &&& 0x40 = 0) →
      ∃ u : State, exec (.vqmx h w t p d a slot) s = .next (u.retire (.vqmx h w t p d a slot) h fall) ∧
        s.VOnly u [d] [a] (destQueue d) 0 f 0 ∧
        (d < 640 → held (SMap.get 0 s.me.v d).toNat (SMap.get 0 u.me.v d).toNat ∧ u.me.mapOf d = s.me.mapOf d) ∧
        (d = 650 → ∃ e : QEnt, u.me.queue 2 = s.me.queue 2 ++ [e] ∧ held 0 e.img.toNat)) ∧
    (∀ w t p m d a slot, s.vReady (.vdqmx h w t p m d a slot) h [a] d →
      let map := if a < 640 then s.me.mapOf a else s.me.refMap [] d
      let x := s.vview map p
      let bits := 8 * w.size
      let block := fun e => fld (srcImage x t.ty (s.vsrc a)).1 (bits * (slot + e / 16)) bits
      let rounds := fun e => x.active e && mxRounds w t.ty (block e) (e % 16)
      let o := fun e => s.elemRound x rounds (if rounds e then some m else none) e e
      let r := fun e => mxDecode w (ffmt t.ty) (o e).1 (block e) (e % 16)
      let f := (srcImage x t.ty (s.vsrc a)).2 ||| x.flagsOf t.ty.count fun e => (r e).2 ||| (o e).2
      (x.chk = true → f &&& 0x40 = 0) →
      ∃ u : State, exec (.vdqmx h w t p m d a slot) s = .next (u.retire (.vdqmx h w t p m d a slot) h fall) ∧
        s.VOnly u [d] [a] (destQueue d) 0 f (s.streamed rounds (some m) t.ty.count) ∧
        s.vOut u t.ty.width d (fun e => x.out e (r e).1) ∧
        (d < 640 → u.me.mapOf d = map)) ∧
    (∀ t p d b, s.vReady (.vrndKey h t p d b) h [b] d →
      let x := s.vview (s.me.refMap [] d) p
      let tag := match s.vsrc b with | .bcast v => v % 2 ^ 20 | _ => 0
      let f := x.flagsOf t.count fun e => (x.lin e).2
      (x.chk = true → f &&& 0x40 = 0) →
      ∃ u : State, exec (.vrndKey h t p d b) s = .next (u.retire (.vrndKey h t p d b) h fall) ∧
        s.VOnly u [d] [b] (destQueue d) 0 f 0 ∧
        s.vOut u t.width d (fun e => x.out e (keyed s.me.genV (x.lin e).1 tag)) ∧ (d < 640 → u.me.mapOf d = x.map)) ∧
    (∀ t p d, s.vReady (.vrndStr h t p d) h [] d →
      let x := s.vview (s.me.refMap [] d) p
      ∃ u : State, exec (.vrndStr h t p d) s = .next (u.retire (.vrndStr h t p d) h fall) ∧
        s.VOnly u [d] [] (destQueue d) 0 0 ((List.range t.count).countP x.active) ∧ s.vOut u t.width d fun e => x.out e
          (genOut (Gen.stepped^[(List.range e).countP x.active + 1] s.me.genV).x.toNat))

namespace Sys2Proof.Machine

/-! ### V's memory words -/

/-- A view as V's words see it: its base with what the running loops add (R164, R165). -/
def State.viewOf (s : State) (vw : Nat) : ViewVal :=
  let f := s.me.viewFld vw
  let ls := s.me.sV.seqr.reverse
  let adds := (List.range ls.length).map fun l => f (16 + l) * (ls.map Level.idx).getD l 0
  ⟨(f 0 + adds.sum) % 2 ^ 64, f 1, f 2, f 3, (List.range 4).map fun i => f (4 + i),
    (List.range 4).map fun i => sval 64 (f (8 + i)), (List.range 4).map fun i => sval 32 (f (12 + i))⟩

/-- V must see the newest fields of the view and the newest bank formats. -/
def State.viewSettled (s : State) (vw : Nat) : Prop :=
  (∀ f < 22, s.settled (0x2000 + 32 * vw + f) = true) ∧ ∀ b < 16, s.settled (0x3000 + b) = true

/-- The format of an element at an own scratchpad address: the view's, or the bank's (R194, R223). -/
def State.fmtAt (s : State) (v : ViewVal) (va : Nat) : Nat :=
  if v.fmt < 12 then v.fmt
  else if (SMap.get 0 s.me.bfmt (va / 0x40000)).toNat % 16 < 12 then (SMap.get 0 s.me.bfmt (va / 0x40000)).toNat % 16 else 0

/-- Its rounding: the word's, or that of the bank where the bank gives the format and the word's field is dyn (R194). -/
def State.codeAt (s : State) (v : ViewVal) (m : Rnd) (bank : Bool) (va : Nat) : Nat :=
  if bank && m = .dyn && 12 ≤ v.fmt then rndCode ((SMap.get 0 s.me.bfmt (va / 0x40000)).toNat / 16 % 8) else s.rndOf m

/-- An element in memory of format f is type t's as it stands (R194). -/
def rawFmt (t : Ty) (f : Nat) : Bool := f = 0 || fmtTy f == t

/-- The view's format is that of elements, and its base says the memory width that divides the strides (R194, R207). -/
def State.viewFits (s : State) (v : ViewVal) : Prop :=
  1 ≤ v.rank ∧ v.rank ≤ 4 ∧ (v.fmt < 9 ∨ (12 ≤ v.fmt ∧ s.ownScratch v.base 1 ∧ s.fmtAt v v.base < 9))

/-- The atomicity request holds for elements at the addresses that `va` gives (R195). -/
def atomicFits (at_ : At) (t : Ty) (v : ViewVal) (fmt : Nat → Nat) (va : Nat → Option Nat) : Prop :=
  match at_ with
  | .dflt => True
  | .a8 => (12 ≤ v.fmt ∨ memWidth t v.fmt = 8) ∧ ∀ e < t.count, ∀ p, va e = some p → memWidth t (fmt p) = 8 ∧ p % 8 = 0
  | .a16 => (12 ≤ v.fmt ∨ memWidth t v.fmt = 8) ∧ v.str.getD 0 0 = 8 ∧ ∀ e < t.count, ∀ p, va e = some p →
    memWidth t (fmt p) = 8 ∧
      (va (if e % 2 = 0 then e + 1 else e - 1)).isSome = true ∧ (if e % 2 = 0 then e + 1 else e - 1) < t.count ∧
      (e % 2 = 0 → p % 16 = 0)

/-- Memory after writes in order: the last that covers a byte leaves it. -/
def writesByte (l : List (Nat × List Byte)) (old : Nat → Byte) : Nat → Byte :=
  l.foldl (fun f q pa => if q.1 ≤ pa ∧ pa < q.1 + q.2.length then q.2.getD (pa - q.1) 0 else f pa) old

/-- The memory of t is that of s after stores to the own scratchpad, in order. -/
def State.storedAll (s t : State) (l : List (Nat × List Byte)) : Prop :=
  ∀ pa, t.memByte pa = writesByte (l.map fun q => (scratchPa s.curCore q.1, q.2)) s.memByte pa

/-- V's stores of a word changed memory as `l` says, and of the core no more than VOnly lets (with no register). -/
structure State.VStored (s t : State) (codes : List Nat) (f : Flags) (k : Nat) (l : List (Nat × List Byte)) : Prop where
  only : { s with mem := t.mem, hist := t.hist }.VOnly t [] codes none 0 f k
  bytes : s.storedAll t l

end Sys2Proof.Machine

/-- R165, R192 to R196, R207: VLD reads the elements of its view at its offset that are active under the map that the view
gives, each converted from its memory format with one rounding, into the elements of d, which takes that map. VST stores
the active elements of its source that lie in the view, in ascending order, and no other byte. Views in the own
scratchpad, VST in free mode; the atomicity request holds. -/
def Obligations.VectorLoadsAndStoresFollowTheView : Prop :=
  ∀ (s : State) (h : Hdr) (at_ : At) (t : Ty) (p : Nat) (m : Rnd) (d vw o : Nat),
    let v := s.viewOf vw
    let fmt := s.fmtAt v
    let vmap := VMap.affine (v.map (sval 13 o) (memWidth t (fmt v.base)))
    s.viewFits v →
    (s.vReady (.vld h at_ t p m d vw o) h [] d → (s.waited (.vld h at_ t p m d vw o) h).viewSettled vw →
      let x := s.vview vmap p
      let va := fun e => (v.addr (sval 13 o) e).getD 0
      (∀ e < t.count, x.active e = true → fmt (va e) < 9 ∧ s.canRead (va e) (memWidth t (fmt (va e)))) →
      atomicFits at_ t v fmt (fun e => if x.active e then some (va e) else none) →
      let drawn := fun e => x.active e && !rawFmt t (fmt (va e)) && convRounds (fmtTy (fmt (va e))) t && s.rndOf m == 6
      let raw := fun e => s.ownNat (va e) (memWidth t (fmt (va e)))
      let md := fun e => if convRounds (fmtTy (fmt (va e))) t then s.roundBy x drawn (s.rndOf m) e e else (.rne, 0)
      let r := fun e => if rawFmt t (fmt (va e)) then (raw e, 0)
        else ((convert (fmtTy (fmt (va e))) t (md e).1 false (raw e)).1,
          (convert (fmtTy (fmt (va e))) t (md e).1 false (raw e)).2 ||| (md e).2)
      let f := x.flagsOf t.count fun e => (r e).2
      (x.chk = true → f &&& 0x40 = 0) →
      ∃ u : State, exec (.vld h at_ t p m d vw o) s = .next (u.retire (.vld h at_ t p m d vw o) h fall) ∧
        s.VOnly u [d] [] (destQueue d) 0 f ((List.range t.count).countP drawn) ∧
        s.vOut u t.width d (fun e => x.out e (r e).1) ∧ (d < 640 → u.me.mapOf d = vmap)) ∧
    (s.vReady (.vst h at_ t p m d vw o) h [d] 0 → (s.waited (.vst h at_ t p m d vw o) h).viewSettled vw →
      let x := s.vview (if d < 640 then s.me.mapOf d else vmap) p
      let va := fun e => (v.addr (sval 13 o) e).getD 0
      let live := fun e => x.active e && (v.addr (sval 13 o) e).isSome
      (∀ e < t.count, live e = true → fmt (va e) < 9 ∧ s.canWrite (va e) (memWidth t (fmt (va e)))) →
      atomicFits at_ t v fmt (fun e => if live e then some (va e) else none) →
      let rounds := fun e => !rawFmt t (fmt (va e)) && convRounds t (fmtTy (fmt (va e)))
      let drawn := fun e => live e && rounds e && s.codeAt v m true (va e) == 6
      let el := fun e => srcElem x t (s.vsrc d) e
      let md := fun e => if rounds e then s.roundBy x drawn (s.codeAt v m true (va e)) e e else (.rne, 0)
      let r := fun e => if rawFmt t (fmt (va e)) then ((el e).1, 0)
        else ((convert t (fmtTy (fmt (va e))) (md e).1 false (el e).1).1,
          (convert t (fmtTy (fmt (va e))) (md e).1 false (el e).1).2 ||| (md e).2)
      let l := (List.range t.count).filter live
      let f := l.foldl (fun y e => y ||| ((el e).2 ||| (r e).2)) 0
      (x.chk = true → f &&& 0x40 = 0) →
      ∃ u : State, exec (.vst h at_ t p m d vw o) s = .next (u.retire (.vst h at_ t p m d vw o) h fall) ∧
        s.VStored u [d] f ((List.range t.count).countP drawn)
          (l.map fun e => (va e, leBytes (memWidth t (fmt (va e))) (r e).1)))

namespace Sys2Proof.Machine

/-- The descriptor of a sparse volume in the own scratchpad (R384). -/
def State.volAt (s : State) (va : Nat) : Vol :=
  let n := fun off len => s.ownNat (va + off) len
  ⟨va, n 0 1, n 1 1, n 2 1, n 3 1, n 8 8, (List.range 4).map fun i => n (16 + 4 * i) 4,
    (List.range 4).map fun i => sval 32 (n (32 + 4 * i) 4), n 48 8, n 56 8⟩

/-- The tree of the volume leads from a node to r for tile tl: a tile's address, or none where it is absent (R385, R387);
its nodes stand in the own scratchpad. -/
def State.leads (s : State) (v : Vol) (tl : Nat) : Nat → Nat → Option Nat → Prop
  | 0, node, r => s.ownScratch node v.tileBytes ∧ r = some node
  | n + 1, node, r =>
    let ent := node + 8 * (tl / 64 ^ n % 64)
    s.ownScratch node 512 ∧ s.canRead ent 8 ∧ match s.ownNat ent 8 % 4 with
      | 1 => s.leads v tl n (fld (s.ownNat ent 8) 9 48 * 512) r
      | 3 => False
      | _ => r = none

/-- The volume's tile tl is at r, and the look-aside buffer, where it has an entry, agrees (R388). -/
def State.tileIs (s : State) (v : Vol) (tl : Nat) (r : Option Nat) : Prop :=
  s.leads v tl v.depth v.root r ∧ ∀ a, s.me.clbFind v.desc tl = some a → r = some a

end Sys2Proof.Machine

/-- R384 to R390: VLDC reads each active element at its place in the volume: in its tile, or the background value where
the place is outside or the tile is absent; its bits, whatever the bank's format (log entry 96). VSTC stores each active
element to its tile, all tiles being there. Descriptor, nodes and tiles in the own scratchpad. -/
def Obligations.SparseVolumeLoadsAndStores : Prop :=
  ∀ (s : State) (h : Hdr) (p d a vw o0 o1 o2 : Nat) (tile : Nat → Option Nat),
    let view := s.viewOf vw
    let v := s.volAt view.base
    let w := v.ty.width / 8
    let x := s.vview (s.me.mapOf a) p
    let place := fun e => v.locate (volCoord x view v (volOffs o0 o1 o2) e).1
    let f := x.flagsOf v.ty.count fun e => (x.coord e 0).2
    s.canRead view.base 64 → v.ok = true →
    (∀ e < v.ty.count, x.active e = true → ∀ tl q, place e = some (tl, q) → s.tileIs v tl (tile tl)) →
    (s.vReady (.vldc h p d a vw o0 o1 o2) h [] d → (s.waited (.vldc h p d a vw o0 o1 o2) h).viewSettled vw →
      (∀ e < v.ty.count, x.active e = true → ∀ tl q b, place e = some (tl, q) → tile tl = some b → s.canRead (b + q * w) w) →
      (x.chk = true → f &&& 0x40 = 0) →
      ∃ u : State, exec (.vldc h p d a vw o0 o1 o2) s = .next (u.retire (.vldc h p d a vw o0 o1 o2) h fall) ∧
        (s.withMe { s.me with clb := u.me.clb }).VOnly u [d] []
          (destQueue d) 0 f 0 ∧
        s.vOut u v.ty.width d (fun e => x.out e (match place e with
          | none => v.bg
          | some (tl, q) => match tile tl with | none => v.bg | some b => s.ownNat (b + q * w) w)) ∧
        (d < 640 → u.me.mapOf d = x.map)) ∧
    (s.vReady (.vstc h p d a vw o0 o1 o2) h [d] 0 → (s.waited (.vstc h p d a vw o0 o1 o2) h).viewSettled vw →
      s.me.spec.role = 0 → v.pool % 16 = 0 → s.ownScratch v.pool 16 →
      let l := (List.range v.ty.count).filter x.active
      let at_ := fun e => match place e with | some (tl, q) => ((tile tl).getD 0) + q * w | none => 0
      let el := fun e => srcElem x v.ty (s.vsrc d) e
      let g := l.foldl (fun y e => y ||| (el e).2) f &&& 0x40
      (∀ e ∈ l, ∃ tl q b, place e = some (tl, q) ∧ tile tl = some b ∧ s.canWrite (b + q * w) w) →
      (x.chk = true → s.me.agreeAll v.ty.count (regsOf [a, d]) = true ∧ g = 0) →
      ∃ u : State, exec (.vstc h p d a vw o0 o1 o2) s = .next (u.retire (.vstc h p d a vw o0 o1 o2) h fall) ∧
        (s.withMe { s.me with clb := u.me.clb }).VStored u [d] g 0
          (l.map fun e => (at_ e, leBytes w (el e).1)))

namespace Sys2Proof.Machine

/-! ### Maps and sequencers -/

/-- V's parameter of a VMAP word: an entry of the constant bank, or the head of q7 (R214). -/
def State.vpar (s : State) (b : Nat) : Nat :=
  match s.vsrc b with | .bcast v => v | _ => 0

/-- A VMAP word changed the map of d, and nothing else but q7 where it pops its parameter. -/
structure State.VMapped (s t : State) (d : Nat) (codes : List Nat) : Prop where
  only : s.VOnly t [d] codes none 0 0 0
  image : SMap.get 0 t.me.v d = SMap.get 0 s.me.v d

/-- The value of an LSET source (R170). -/
def State.lsetVal (s : State) (src : LsetSrc) (val : Nat) : Nat :=
  match src with
  | .imm => wrap 64 (sval 20 val)
  | .reg => if s.curStream = .a then (s.sreg (val % 64)).toNat else (SMap.get 0 s.me.k (val % 256)).toNat
  | .q => ((s.me.queue (if s.curStream = .a then 5 else 7)).head?.map fun e => (lo64 e.img).toNat).getD 0

/-- The LSET source can be read: its queue entry has arrived, its constant is settled. -/
def State.lsetReady (s : State) (i : Instr) (h : Hdr) (src : LsetSrc) (val : Nat) : Prop :=
  i.hdr = some h ∧ s.ready i h = true ∧ SMap.rising 0 s.me.q = true ∧
  match src with
  | .imm => True
  | .reg => s.curStream = .a ∨ (s.eccQuiet = true ∧ (s.waited i h).settled (0x1000 + val % 256) = true)
  | .q => s.me.qReady (if s.curStream = .a then 5 else 7) = true

/-- The queues as the LSET source leaves them. -/
def Core.lsetTook (c : Core) (st : Stream) (src : LsetSrc) : Core :=
  let q := if st = .a then 5 else 7
  match src with | .q => c.setQueue q (c.queue q).tail | _ => c

end Sys2Proof.Machine

/-- R200, R203 to R205, R214: VMAP `set` gives d the affine map of the descriptor in the constant bank; `perm` and `shift`
the source's map with its index columns relabelled or an origin moved; `slice` of an affine map's outermost dimension the
part from `start` on, and else the elements of the part, as parent elements. The bytes of d stay. A rank outside 1 to 4, a
dimension beyond the rank and a part outside the extent fault. -/
def Sys2Proof.Machine.MapWordsGiveRegistersMaps : Prop :=
  ∀ (s : State) (h : Hdr) (d a b k : Nat),
    (s.vReady (.vmapSet h d b) h ((List.range 10).map (b + ·)) 0 →
      let m := AffMap.ofWords ((List.range 10).map fun n => (SMap.get 0 s.me.k (b - 768 + n)).toNat)
      (1 ≤ m.rank → m.rank ≤ 4 → ∃ t : State, exec (.vmapSet h d b) s = .next (t.retire (.vmapSet h d b) h fall) ∧
        s.VMapped t d [] ∧ t.me.mapOf d = .affine m) ∧
      (m.rank = 0 ∨ 4 < m.rank → exec (.vmapSet h d b) s =
        .next ((s.waited (.vmapSet h d b) h).takeFault s.curCore (.ofStream .v 0x01 0 0) false))) ∧
    (s.vReady (.vmapPerm h d a b) h [b] 0 → ∃ t : State,
      exec (.vmapPerm h d a b) s = .next (t.retire (.vmapPerm h d a b) h fall) ∧ s.VMapped t d [b] ∧
      t.me.mapOf d = (s.me.mapOf a).onParent fun q => q.columns fun j => fld (s.vpar b) (2 * j) 2) ∧
    (s.vReady (.vmapShift h k d a b) h [b] 0 → ∃ t : State,
      exec (.vmapShift h k d a b) s = .next (t.retire (.vmapShift h k d a b) h fall) ∧ s.VMapped t d [b] ∧
      t.me.mapOf d = (s.me.mapOf a).onParent fun q =>
        { q with org := q.org.set k (wrapS 32 (q.org.getD k 0 + sval 32 (s.vpar b))) }) ∧
    (s.vReady (.vmapSlice h k d a b) h [b] 0 →
      let start := sval 32 (s.vpar b)
      let len := fld (s.vpar b) 32 32
      (∀ n, s.me.mapOf a = .opaque n → ∃ t : State,
        exec (.vmapSlice h k d a b) s = .next (t.retire (.vmapSlice h k d a b) h fall) ∧ s.VMapped t d [b] ∧
        t.me.mapOf d = .opaque n) ∧
      (∀ q : AffMap, (s.me.mapOf a).parent = some q →
        (k < q.rank → 0 ≤ start → start + len ≤ (q.extent k : Int) → ∃ t : State,
          exec (.vmapSlice h k d a b) s = .next (t.retire (.vmapSlice h k d a b) h fall) ∧ s.VMapped t d [b] ∧
          (s.me.mapOf a = .affine q → k + 1 = q.rank → t.me.mapOf d = .affine { q with
            ext := q.ext.set k len, skew := wrapS 32 (q.skew - start * (q.extents k : Int)),
            org := (List.range 4).map fun i => wrapS 32 (q.org.getD i 0 + q.entry i k * start),
            lb := wrapS 64 (q.lb + q.lam.getD k 0 * start) }) ∧
          ((∀ r, s.me.mapOf a ≠ .affine r) ∨ k + 1 ≠ q.rank → q.total ≤ 65536 →
            ((s.me.setMap d (.affine .dflt)).freeSlot.isSome = true) → ∀ e < 512,
            (t.me.mapOf d).parentIdx t.me.slots e = match (s.me.mapOf a).parentIdx s.me.slots e with
              | some L => if start ≤ (q.index L k : Int) ∧ (q.index L k : Int) < start + len then some (L % 65536) else none
              | none => none)) ∧
        (q.rank ≤ k → ∃ t : State, exec (.vmapSlice h k d a b) s =
          .next (t.takeFault s.curCore (.ofStream .v 0x01 0 0) false) ∧ s.VOnly t [] [b] none 0 0 0) ∧
        (k < q.rank → ¬ (0 ≤ start ∧ start + len ≤ (q.extent k : Int)) → ∃ t : State, exec (.vmapSlice h k d a b) s =
          .next (t.takeFault s.curCore (.ofStream .v 0x08 0 0) false) ∧ s.VOnly t [] [b] none 0 0 0)))

/-- R215: VMAPQ pushes what it asks of a map into q3 or q4: its kind, slot and the counts of positions that are not void and
of free slots in one entry, its descriptor in ten (zeros for an opaque map), or an element's coordinates and linear index in
three. MAPCHK is 0. -/
def Sys2Proof.Machine.VmapqReportsTheMap : Prop :=
  ∀ (s : State) (h : Hdr) (k : MapqSub) (q4 : Bool) (a b : Nat), s.vReady (.vmapq h k q4 a b) h [] 0 →
    let q := if q4 then 4 else 3
    let m := s.me.mapOf a
    let n := match k with | .kind => 1 | .desc => 10 | .elt => 3
    (s.me.queue q).length + n ≤ 16 → (s.me.creg 0x004).getLsbD 0 = false → (∀ i p, m = .explicit i p → i < 32) →
    ∃ (t : State) (f : Flags) (es : List QEnt), exec (.vmapq h k q4 a b) s = .next (t.retire (.vmapq h k q4 a b) h fall) ∧
      s.VOnly t [] [] (some q) 0 f 0 ∧ t.me.queue q = s.me.queue q ++ es ∧ es.length = n ∧ (∀ e ∈ es, e.ready = true) ∧
      (k = .kind → ∃ e ∈ es, (lo64 e.img).toNat % 4 = (match m with | .affine _ => 0 | .explicit .. => 1 | .opaque _ => 2) ∧
        fld (lo64 e.img).toNat 2 5 = (match m with | .explicit i _ => i | _ => 0) ∧
        fld (lo64 e.img).toNat 16 16 = ((List.range 512).countP fun e => !m.isVoid s.me.slots e) ∧
        fld (lo64 e.img).toNat 32 32 = (List.range 32).countP fun i => !slotUsed s.me.vmap i) ∧
      (∀ q, k = .desc → m.parent = some q → es.map (fun e => (lo64 e.img).toNat) = q.toWords) ∧
      (k = .desc → m.parent = none → (∀ e ∈ es, lo64 e.img = 0) ∧ f = 0x40) ∧
      (k = .elt →
        let two := fun (c : List Int) i => wrap 32 (c.getD (i + 1) 0) * 2 ^ 32 + wrap 32 (c.getD i 0)
        es.map (fun e => (lo64 e.img).toNat) = (match m.spot s.me.slots b with
          | .at_ c l => [two c 0, two c 2, wrap 64 l]
          | .void => [0x8000000080000000, 0x8000000080000000, 0x8000000000000000]
          | .lost => [0x8000000080000000, 0x8000000080000000, wrap 64 (-(2 ^ 31))]) ∧
        (f = 0x40 ↔ m.spot s.me.slots b = .lost))

/-- R167 to R171: LSET `loop` opens a loop over the words behind it, with a count of 0 passing over them; LSET `view`
writes a view's field and no other. A loop without a body, or past six levels, is ILLOP. RPT stands with no repetition of
the word behind it done, of n; in a loop's last place, or before a word that it cannot repeat, it is ILLOP. -/
def Obligations.SequencerWords : Prop :=
  ∀ (s : State) (h : Hdr),
    (∀ src len val, s.lsetReady (.lsetLoop h src len val) h src val →
      let n := (match src with | .imm => val | _ => s.lsetVal src val) % 2 ^ 32
      let body := s.strm.plus s.strm.pc 8
      (loopOk s.strm len = true → n ≠ 0 → ∃ t : State,
        exec (.lsetLoop h src len val) s = .next (t.retire (.lsetLoop h src len val) h ⟨.seq body, []⟩) ∧
        s.OnlyMe t (s.me.lsetTook s.curStream src) ∧ t.strm.seqr = ⟨n, 0, body, len⟩ :: s.strm.seqr ∧
        (s.me.st = .running → s.strm.joined = false → s.signalsFit h [] true = true →
          (t.retire (.lsetLoop h src len val) h ⟨.seq body, []⟩).strm.pc = body)) ∧
      (loopOk s.strm len = true → n = 0 → ∃ t : State, exec (.lsetLoop h src len val) s = .next
          (t.retire (.lsetLoop h src len val) h ⟨.seq (s.strm.plus s.strm.pc (8 * (len + 1))), []⟩) ∧
        s.OnlyMe t (s.me.lsetTook s.curStream src) ∧ t.strm.seqr = s.strm.seqr) ∧
      ((len = 0 ∨ 6 ≤ s.strm.seqr.length) → exec (.lsetLoop h src len val) s =
        .next ((s.waited (.lsetLoop h src len val) h).takeFault s.curCore (.ofStream s.curStream 0x01 0 0) false))) ∧
    (∀ src vw f val, s.lsetReady (.lsetView h src vw f val) h src val → ∃ t : State,
      exec (.lsetView h src vw f val) s = .next (t.retire (.lsetView h src vw f val) h fall) ∧
      t.me.viewFld vw f = s.lsetVal src val % 2 ^ (viewField f).2 ∧
      (∀ g < 22, g ≠ f → t.me.viewFld vw g = s.me.viewFld vw g) ∧
      (∀ x, x ≠ vw → SMap.get 0 t.me.vw x = SMap.get 0 s.me.vw x) ∧
      s.OnlyMe t { s.me.lsetTook s.curStream src with vw := t.me.vw, rhist := t.me.rhist }) ∧
    (∀ n sd sa sb, s.ready (.rpt h n sd sa sb) h = true →
      let last := ∃ l ∈ s.strm.seqr.head?, l.holds s.strm s.strm.pc = true ∧ s.strm.dist l.body s.strm.pc + 8 = 8 * l.len
      let next := (s.strm.plus s.strm.pc 8).toNat
      (¬ last → s.settledBytes (scratchPa s.curCore next) 8 → s.bufs = [] → s.me.inIter = false →
        rptTarget (s.ownNat next 8) = true → ∃ t : State,
        exec (.rpt h n sd sa sb) s = .next (t.retire (.rpt h n sd sa sb) h ⟨.seq s.strm.pc, []⟩) ∧
        s.OnlyMe t s.me ∧ t.strm.rpt = some (0, n) ∧ t.strm.pc = s.strm.pc) ∧
      (¬ last → s.settledBytes (scratchPa s.curCore next) 8 → s.bufs = [] → s.me.inIter = false →
        rptTarget (s.ownNat next 8) = false → exec (.rpt h n sd sa sb) s =
        .next ((s.waited (.rpt h n sd sa sb) h).takeFault s.curCore (.ofStream s.curStream 0x01 0 0) false)) ∧
      (last → exec (.rpt h n sd sa sb) s =
        .next ((s.waited (.rpt h n sd sa sb) h).takeFault s.curCore (.ofStream s.curStream 0x01 0 0) false)))

/-- The map words give registers coordinate maps, and VMAPQ reports them. -/
def Obligations.CoordinateMapWords : Prop :=
  MapWordsGiveRegistersMaps ∧ VmapqReportsTheMap

namespace Sys2Proof.Machine

/-! ### Words of M -/

/-- Tile register n, its region moved by the running nest (R260, R263). -/
def State.tileAt (s : State) (n : Nat) : Tile :=
  let f := fun k => s.me.pf (tileField n k)
  let dr := s.me.nestSum 3 16
  let dc := s.me.nestSum 4 16
  let r0 : Int := f 0 + dr
  let c0 : Int := f 1 + dc
  ⟨r0.toNat, c0.toNat, f 2 + 1, f 3 + 1, f 4 == 1, match s.me.tileMap n with
    | some m => m.moved dr dc
    | none => naturalMap r0 c0 (f 2 + 1) (f 3 + 1)⟩

/-- Its region lies in the store of 256 rows and 128 columns. -/
def State.tileFits (s : State) (n : Nat) : Prop :=
  let r0 : Int := s.me.pf (tileField n 0) + s.me.nestSum 3 16
  let c0 : Int := s.me.pf (tileField n 1) + s.me.nestSum 4 16
  0 ≤ r0 ∧ 0 ≤ c0 ∧ r0 + (s.me.pf (tileField n 2) + 1) ≤ 256 ∧ c0 + (s.me.pf (tileField n 3) + 1) ≤ 128

/-- The accumulator of a tile at a row and a column offset. -/
def State.cellAt (s : State) (t : Tile) (i j : Nat) : Nat :=
  (SMap.get 0 s.me.cell (128 * (t.row0 + i) + (t.col0 + j))).toNat % 2 ^ t.fmt.bits

/-- A ready word of M; no storage error stands and no injection is armed. -/
def State.mReady (s : State) (i : Instr) (h : Hdr) : Prop :=
  i.hdr = some h ∧ s.ready i h = true ∧ s.curStream = .m ∧ s.arraysQuiet ∧ SMap.rising 0 s.me.cell = true ∧
  SMap.rising 0 s.me.cr = true

/-- The cells of a tile's region become those of a function where it gives one; every other cell stays. -/
def State.cellsOut (s t : State) (x : Tile) (cell : Nat → Nat → Option Nat) : Prop :=
  (∀ i < x.rows, ∀ j < x.cols, t.cellAt x i j = (cell i j).getD (s.cellAt x i j) % 2 ^ x.fmt.bits) ∧
  ∀ r < 256, ∀ c < 128, (r < x.row0 ∨ x.row0 + x.rows ≤ r ∨ c < x.col0 ∨ x.col0 + x.cols ≤ c) →
    SMap.get 0 t.me.cell (128 * r + c) = SMap.get 0 s.me.cell (128 * r + c)

/-- Nothing changed but cells and MFLAGS. -/
structure State.MOnly (s t : State) (f : Flags) : Prop where
  rest : s.OnlyMe t { s.me with cell := t.me.cell, cr := t.me.cr }
  flags : t.me.creg 0x003 = s.me.creg 0x003 ||| f.setWidth 64
  cregs : ∀ n, n ≠ 0x003 → t.me.creg n = s.me.creg n

/-- The view of an M word, its base moved by the running nest (R165, R263). -/
def State.viewM (s : State) (vw : Nat) : ViewVal :=
  let f := s.me.viewFld vw
  ⟨(f 0 + wrap 64 (s.me.nestSum 1 48)) % 2 ^ 64, f 1, f 2, f 3, (List.range 4).map fun i => f (4 + i),
    (List.range 4).map fun i => sval 64 (f (8 + i)), (List.range 4).map fun i => sval 32 (f (12 + i))⟩

/-- Where row i of A lies: addresses and lengths of its elements, or blocks (R273). -/
def aPlaces (v : ViewVal) (f : MFmt) (tr : Bool) (K i : Nat) : List (Nat × Nat) :=
  let (s0, s1) := (v.str.getD 0 0, v.str.getD 1 0)
  if f.isMx then (List.range (K / 16)).map fun b => (strideAt v.base i s1 b (mfmtMx f).size, (mfmtMx f).size)
  else (List.range K).map fun k =>
    (if tr then strideAt v.base i s0 k s1 else strideAt v.base k s0 i s1, (mfmtTy f).width / 8)

/-- The K values of row i of A. -/
def State.aRow (s : State) (v : ViewVal) (f : MFmt) (tr : Bool) (K i : Nat) : List Val :=
  (aPlaces v f tr K i).flatMap fun q =>
    if f.isMx then (List.range 16).map (mxVal (mfmtMx f) (s.ownNat q.1 q.2)) else [tyVal (mfmtTy f) (s.ownNat q.1 q.2)]

/-- Row i of A can be read: in the own scratchpad, in the word's format. -/
def State.aFits (s : State) (v : ViewVal) (f : MFmt) (tr : Bool) (K i : Nat) : Prop :=
  ∀ q ∈ aPlaces v f tr K i, s.canRead q.1 q.2 ∧ (s.fmtAt v q.1 = 0 ∨ s.fmtAt v q.1 = mfmtBank f)

/-- cu units of the weight buffer from u as a number. -/
def State.unitsAt (s : State) (u cu : Nat) : Nat :=
  (List.range cu).foldr (fun i x => (SMap.get 0 s.me.wbuf (u + i)).toNat + 2 ^ 512 * x) 0

/-- The offset of an M word in the weight buffer and what the nest makes of it lie within, and so does a block of len units
at off more (R37, R263, R278). -/
def State.blockFits (s : State) (wb len off : Nat) : Prop :=
  let w : Int := wb + s.me.nestSum 2 16
  wb ≤ 16383 ∧ 0 ≤ w ∧ w + off ≤ 16383 ∧ w + off + len ≤ 16384

def State.blockAt (s : State) (wb off : Nat) : Nat := (wb + s.me.nestSum 2 16 + off).toNat

/-- A cell's new value over the groups of K products, each group one exact sum rounded once (R68, R277). -/
def State.product (s : State) (x : Tile) (v : ViewVal) (f : MFmt) (tr z : Bool) (kk u i j : Nat) : Nat × Flags :=
  let K := kk * groupSize f
  let comp := s.me.wbFmt.2
  let cu := colUnits f comp K
  cellSum x.fmt (groupSize f) (s.aRow v f tr K i) (imageAt f comp K (s.unitsAt (u + j * cu) cu)) kk 0
    (if z then 0 else s.cellAt x i j)

/-- The block of tile row i among the groups of a table (R278). -/
def groupBlock : List (Nat × Nat) → Nat → Option Nat
  | [], _ => none
  | (n, u) :: l, i => if i < n then some u else groupBlock l (i - n)

/-- OR of the flags over a region. -/
def regionFlags (x : Tile) (f : Nat → Nat → Flags) : Flags := (pairs x.rows x.cols).foldl (fun y p => y ||| f p.1 p.2) 0

end Sys2Proof.Machine

/-- R68, R273 to R278: MMA and MSMA add the products of A's rows and the weight columns to the cells of a tile (or start
at zero), group by group; MGRP does so with the block that its table names for each group of rows, rows of no group
staying. Tile, block and views fit; A lies in the own scratchpad. -/
def Obligations.ProductWordsAccumulate : Prop :=
  ∀ (s : State) (h : Hdr) (z : Bool) (f : MFmt) (n vw wb k : Nat),
    let x := s.tileAt n
    let kk := kSteps k
    let K := kk * groupSize f
    let v := s.viewM vw
    let e0 := v.ext.getD 0 0
    let e1 := v.ext.getD 1 0
    let comp := s.me.wbFmt.2
    let len := x.cols * colUnits f comp K
    s.tileFits n → accOk f x = true → s.me.wbFmt.1 = mfmtCode f → comp < 4 → v.rank = 2 →
    (∀ (i : Instr) (tr : Bool), ((i = .mma h tr z f n vw wb k ∧ comp = 0) ∨ (i = .msma h tr z f n vw wb k ∧ comp ≠ 0)) →
      s.mReady i h → (s.waited i h).viewSettled vw → s.blockFits wb len 0 →
      (if tr then x.rows ≤ e0 ∧ K ≤ e1 else K ≤ e0 ∧ x.rows ≤ e1) → (∀ r < x.rows, s.aFits v f tr K r) →
      let new := s.product x v f tr z kk (s.blockAt wb 0)
      ∃ t : State, exec i s = .next (t.retire i h fall) ∧ s.MOnly t (regionFlags x fun r c => (new r c).2) ∧
        s.cellsOut t x fun r c => some (new r c).1) ∧
    (s.mReady (.mgrp h z f n vw wb k) h → (s.waited (.mgrp h z f n vw wb k) h).viewSettled vw →
      (s.waited (.mgrp h z f n vw wb k) h).viewSettled ((vw + 1) % 32) → K ≤ e0 →
      let tb := (s.viewM ((vw + 1) % 32)).base
      let m := s.ownNat tb 8 % 128
      let gs := (List.range m).map fun q =>
        (fld (s.ownNat (tb + 8 * (q + 1)) 8) 0 16, fld (s.ownNat (tb + 8 * (q + 1)) 8) 16 15)
      let sum := (gs.map Prod.fst).sum
      s.blockFits wb 0 0 → tb % 8 = 0 → m ≤ 64 → s.canRead tb (8 * (m + 1)) → sum ≤ x.rows → sum ≤ e1 →
      (∀ g ∈ gs, g.1 ≠ 0 → s.blockFits wb len g.2) → (∀ r < sum, s.aFits v f false K r) →
      let block := fun r => (groupBlock gs r).map fun g => s.blockAt wb g
      ∃ t : State, exec (.mgrp h z f n vw wb k) s = .next (t.retire (.mgrp h z f n vw wb k) h fall) ∧
        s.MOnly t (regionFlags x fun r c => match block r with
          | some u => (s.product x v f false z kk u r c).2 | none => 0) ∧
        s.cellsOut t x fun r c => (block r).map fun u => (s.product x v f false z kk u r c).1)

/-- Fields 5 to 23 of tile register n hold a map (R260). -/
def Sys2Proof.Machine.Core.holdsTileMap (c : Core) (n : Nat) (m : AffMap) : Prop :=
  let f := fun k => c.pf (tileField n k)
  f 5 = m.rank % 2 ^ 48 ∧ f 6 = wrap 32 m.skew ∧ f 23 = wrap 48 m.lb ∧
  ∀ k < 4, f (7 + k) = m.ext.getD k 1 % 2 ^ 32 ∧ f (11 + k) = wrap 32 (m.org.getD k 0) ∧
    f (19 + k) = wrap 32 (m.lam.getD k 0) ∧ ∀ j < 4, fld (f (15 + k)) (8 * j) 8 = wrap 8 (m.entry k j)

/-- R279 to R282: MLDW loads a column image for each column of its tile into the weight buffer, the metadata ascending;
MZERO clears a tile's cells; ACOPY copies or adds the cells of one tile to another, converted to its accumulator format,
and writes the source's map, transposed where it transposes, to fields 5 to 23 of the destination, the displacement of the
running nest taken out. -/
def Sys2Proof.Machine.TileWordsLoadClearAndCopy : Prop :=
  ∀ (s : State) (h : Hdr),
    (∀ n, s.mReady (.mzero h n) h → s.tileFits n → ∃ t : State,
      exec (.mzero h n) s = .next (t.retire (.mzero h n) h fall) ∧ s.MOnly t 0 ∧
      s.cellsOut t (s.tileAt n) fun _ _ => some 0) ∧
    (∀ f n vw wb k, s.mReady (.mldw h f n vw wb k) h → (s.waited (.mldw h f n vw wb k) h).viewSettled vw → s.tileFits n →
      let x := s.tileAt n
      let v := s.viewM vw
      let comp := s.me.wbFmt.2
      let K := kSteps k * groupSize f
      let cu := colUnits f comp K
      let len := (colBytes f comp K).2.2
      let place := fun j => strideAt v.base j (v.str.getD 1 0) 0 0
      let img := fun j => s.ownNat (place j) len
      s.me.wbFmt.1 = mfmtCode f → comp < 4 → s.blockFits wb (x.cols * cu) 0 → SMap.rising 0 s.me.wbuf = true →
      (∀ j < x.cols, s.canRead (place j) len ∧ imageOk f comp K (img j) = true) →
      ∃ t : State, exec (.mldw h f n vw wb k) s = .next (t.retire (.mldw h f n vw wb k) h fall) ∧
        s.OnlyMe t { s.me with wbuf := t.me.wbuf } ∧
        (∀ j < x.cols, t.unitsAt (s.blockAt wb 0 + j * cu) cu = img j) ∧
        ∀ u, (u < s.blockAt wb 0 ∨ s.blockAt wb 0 + x.cols * cu ≤ u) →
          SMap.get 0 t.me.wbuf u = SMap.get 0 s.me.wbuf u) ∧
    (∀ tr acc a b, s.mReady (.acopy h tr acc a b) h → s.tileFits a → s.tileFits b → SMap.rising 0 s.me.plane = true →
      let x := s.tileAt a
      let y := s.tileAt b
      let old := fun i j => if tr then s.cellAt x j i else s.cellAt x i j
      let new := fun i j => if acc then fAdd y.fmt .rne (y.fmt.unpack (s.cellAt y i j)) (x.fmt.unpack (old i j))
        else finish y.fmt .rne [x.fmt.unpack (old i j)] (x.fmt.unpack (old i j), 0)
      (if tr then y.rows = x.cols ∧ y.cols = x.rows else y.rows = x.rows ∧ y.cols = x.cols) →
      ∃ t : State, exec (.acopy h tr acc a b) s = .next (t.retire (.acopy h tr acc a b) h fall) ∧
        s.OnlyMe t { s.me with cell := t.me.cell, cr := t.me.cr, plane := t.me.plane } ∧
        (s.cellsOut t y fun i j => some (new i j).1) ∧
        t.me.creg 0x003 = s.me.creg 0x003 ||| (regionFlags y fun i j => (new i j).2).setWidth 64 ∧
        (∀ n, n ≠ 0x003 → t.me.creg n = s.me.creg n) ∧
        t.me.holdsTileMap b ((if tr then x.map.transposed else x.map).moved (-(s.me.nestSum 3 16)) (-(s.me.nestSum 4 16))) ∧
        ∀ q, (q < tileField b 5 ∨ tileField b 24 ≤ q) → SMap.get 0 t.me.plane q = SMap.get 0 s.me.plane q)

namespace Sys2Proof.Machine

/-- The scaled and biased value of a cell (R284); the bias lies in the own scratchpad. -/
def State.epilogue (s : State) (x : Tile) (i j : Nat) : Val :=
  let c := x.fmt.unpack (s.cellAt x i j)
  let c := if (s.me.pf 0x400).testBit 0 then (mulVals c (fmt32.unpack (s.me.pf 0x401))).1 else c
  if (s.me.pf 0x400).testBit 1 then (sumVals false
    [c, fmt32.unpack (s.ownNat ((s.me.pf 0x402 + wrap 64 (4 * x.coord i j 1)) % 2 ^ 64) 4)]).1 else c

/-- The stores of MDRAIN's elements, in order (R284). -/
def State.drained (s : State) (x : Tile) (v : ViewVal) (tr : Bool) : List (Nat × List Byte) :=
  let mode := if (s.me.pf 0x400).testBit 2 then RMode.rtz else RMode.rne
  let (s0, s1) := (v.str.getD 0 0, v.str.getD 1 0)
  if 9 ≤ s.fmtAt v v.base then
    let w := fmtMx (s.fmtAt v v.base)
    (List.range x.rows).flatMap fun i => (List.range (x.cols / 16)).map fun b =>
      (strideAt v.base i s1 b w.size, leBytes w.size (mxQuantize w ((List.range 16).map fun q =>
        s.epilogue x i (16 * b + q))).1)
  else (pairs x.rows x.cols).map fun p =>
    let va := if tr then strideAt v.base p.1 s0 p.2 s1 else strideAt v.base p.2 s0 p.1 s1
    (va, (drainElem x mode (s.fmtAt v va) (s.cellAt x p.1 p.2) (s.epilogue x p.1 p.2)).1)

/-- The heaps after MDRAIN has offered its values to those of their rows (R285). -/
def State.offered (s : State) (x : Tile) (k : Nat) : SMap (List (Nat × Nat)) :=
  (pairs x.rows x.cols).foldl (fun m p =>
    let r := (x.row0 + p.1) % 16
    SMap.set [] m r (heapOffer k (SMap.get [] m r) ((roundTo fmt32 .rne (s.epilogue x p.1 p.2)).1,
      wrap 32 (x.coord p.1 p.2 (s.me.pf 0x405))))) s.me.heap

end Sys2Proof.Machine

/-- R283 to R286: MDRAIN stores the scaled, biased and converted cells of a tile through its view (or none), offers them to
the heaps, flushes the heaps to the candidate area with a descriptor in q15, stores the map where MAPADDR is set, and clears
the cells where asked; no other byte changes. Everything lies in the own scratchpad, in free mode. -/
def Obligations.MdrainStoresTheTile : Prop :=
  ∀ (s : State) (h : Hdr) (tr z ins fl nost : Bool) (n vw : Nat), s.mReady (.mdrain h tr z ins fl nost n vw) h →
    (s.waited (.mdrain h tr z ins fl nost n vw) h).viewSettled vw → s.tileFits n → SMap.rising 0 s.me.q = true →
    s.me.drain = none →
    let x := s.tileAt n
    let v := s.viewM vw
    let k := s.me.pf 0x403
    let tk := s.me.pf 0x404
    let ma := s.me.pf 0x406
    let e0 := v.ext.getD 0 0
    let e1 := v.ext.getD 1 0
    let mx := 9 ≤ s.fmtAt v v.base
    let heap := if ins = true ∧ k ≠ 0 then s.offered x k else s.me.heap
    let flushed := fun r => (SMap.get [] heap r).take k
    let cand := if fl then (List.range 16).flatMap fun r => heapWords k (flushed r) else []
    let stores := (if nost then [] else s.drained x v tr)
      ++ (if cand.isEmpty then [] else [(tk, cand.flatMap (leBytes 8))])
      ++ (if ma = 0 then [] else [(ma, (if tr then x.map.transposed else x.map).toWords.flatMap (leBytes 8))])
    (nost = false → v.rank = 2 ∧ (if tr then x.rows ≤ e0 ∧ x.cols ≤ e1 else x.cols ≤ e0 ∧ x.rows ≤ e1) ∧
      (v.fmt < 12 ∨ s.ownScratch v.base 1) ∧ (mx → tr = false ∧ x.cols % 16 = 0) ∧
      (¬ mx → ∀ q ∈ s.drained x v tr, s.fmtAt v q.1 < 9)) →
    ((ins || fl) = true → k ≤ 64) → (fl = true → tk % 8 = 0 ∧ (k ≠ 0 → s.ownScratch tk (128 * k)) ∧
      (s.me.queue 15).length < 16) →
    ma % 8 = 0 → (∀ q ∈ stores, s.canWrite q.1 q.2.length) →
    ((s.me.pf 0x400).testBit 1 = true → ∀ i < x.rows, ∀ j < x.cols,
      s.canRead ((s.me.pf 0x402 + wrap 64 (4 * x.coord i j 1)) % 2 ^ 64) 4) →
    ∃ (t : State) (f : Flags), exec (.mdrain h tr z ins fl nost n vw) s =
        .next (t.retire (.mdrain h tr z ins fl nost n vw) h fall) ∧
      s.storedAll t stores ∧ (s.cellsOut t x fun i j => some (if z then 0 else s.cellAt x i j)) ∧
      t.me.heap = (if fl then [] else heap) ∧
      { s with mem := t.mem, hist := t.hist }.OnlyMe t
        { s.me with cell := t.me.cell, cr := t.me.cr, heap := t.me.heap, q := t.me.q } ∧
      t.me.creg 0x003 = s.me.creg 0x003 ||| f.setWidth 64 ∧ (∀ r, r ≠ 0x003 → t.me.creg r = s.me.creg r) ∧
      (∀ q, q ≠ 15 → t.me.queue q = s.me.queue q) ∧ (fl = false → t.me.queue 15 = s.me.queue 15) ∧
      (fl = true → ∃ e : QEnt, t.me.queue 15 = s.me.queue 15 ++ [e] ∧ lo64 e.img = BitVec.ofNat 64 (2 ^ 60 +
        (List.range 16).countP (fun r => flushed r ≠ []) * 2 ^ 40 + k * 2 ^ 32 +
        ((List.range 16).map fun r => (flushed r).length).sum))

/-- R279, R287: VSAL keeps, in each group of its pattern, the elements of greatest saliency |a * b|, rounded to f32, the
lower element of equal ones, a NaN below every number and a void element last; predicate p says which, and d takes their
column image, values and positions, with the default map. -/
def Sys2Proof.Machine.VsalKeepsTheMostSalient : Prop :=
  ∀ (s : State) (h : Hdr) (pat : Pat) (ft : VFTy) (p d a b : Nat), s.vReady (.vsal h pat ft p d a b) h [a, b] 0 →
    let t := ft.ty
    let g := ffmt t
    let x := s.vview (s.me.refMap (regsOf [a, b]) d) 0
    let el := fun c e => srcElem x t (s.vsrc c) e
    let pr := fun e => mulVals (g.unpack (el a e).1) (g.unpack (el b e).1)
    let r := fun e => roundTo fmt32 .rne (pr e).1.abs
    let f := x.flagsOf t.count fun e => (el a e).2 ||| (el b e).2 ||| (pr e).2 ||| (r e).2 |||
      sigFlags [g.unpack (el a e).1, g.unpack (el b e).1]
    let (n, m, _) := sparsity (patComp pat)
    let ent := fun e => (e, x.isVoid e, if x.isVoid e then Val.fin false 0 0 false else fmt32.unpack (r e).1)
    let kept := fun e => decide ((List.range m).countP (fun q => salBefore (ent (m * (e / m) + q)) (ent e)) < n)
    s.mapsPass x t.count (regsOf [a, b]) f →
    ∃ u : State, exec (.vsal h pat ft p d a b) s = .next (u.retire (.vsal h pat ft p d a b) h fall) ∧
      s.VOnly u [d] [a, b] none p f 0 ∧ (s.predOut u p t.count fun e => some (kept e)) ∧
      (SMap.get 0 u.me.v d).toNat = salImage t (patComp pat) ((List.range t.count).filter kept)
        (fun e => if x.isVoid e then 0 else (el a e).1) ∧ u.me.mapOf d = .affine .dflt

/-- MLDW, MZERO and ACOPY act on tiles and weights, and VSAL on the elements of groups. -/
def Obligations.TileWordsAndVsal : Prop :=
  TileWordsLoadClearAndCopy ∧ VsalKeepsTheMostSalient

namespace Sys2Proof.Machine

/-! ### Engines -/

/-- The state as core k sees its own scratchpad. -/
def State.seenBy (s : State) (k : Nat) : State := { s with curCore := k }

/-- Engine e of core k works on the run r: one in progress, or the head command of its queue, which starts. -/
def State.engineTakes (s : State) (k e : Nat) (r : Run) : Prop :=
  s.engineOn k e = true ∧ r.reply = none ∧ r.cmd.core = k ∧ r.cmd.eng = e ∧ r.cmd.bar = none ∧ r.cmd.barFault = none ∧
  ((s.core k).runOf e = some r ∨ ((s.core k).runOf e = none ∧ (s.core k).st = .running ∧
    headCmd ((s.core k).equeue e) = some r.cmd ∧ r = .ofCmd r.cmd))

/-- The engine has moved: it holds r' or is free, a command that started has left the queue, and registers stand. -/
def State.engineMoved (s t : State) (k e : Nat) (r' : Option Run) : Prop :=
  (t.core k).runOf e = r' ∧ (∀ st r, (t.core k).sreg st r = (s.core k).sreg st r) ∧
  ((t.core k).equeue e).length = if ((s.core k).runOf e).isSome then ((s.core k).equeue e).length
    else ((s.core k).equeue e).length - 1

/-- The command has retired: the engine is free, and a reply with room in its queue stands at its tail. -/
def State.engineReplied (s t : State) (k e : Nat) (reply : Option Word) : Prop :=
  s.engineMoved t k e none ∧ t.mem = s.mem ∧
  match reply with
  | none => (t.core k).queue (8 + e) = (s.core k).queue (8 + e)
  | some v => ∃ x : QEnt, (t.core k).queue (8 + e) = (s.core k).queue (8 + e) ++ [x] ∧ lo64 x.img = v ∧ x.ready = true

/-- The memory of t is that of s with bytes at va of core k's scratchpad. -/
def State.landed (s t : State) (k va : Nat) (b : List Byte) : Prop := (s.seenBy k).stored t va b

/-- A level of an index command's lookup from index x: its result, or no fault lets it be none (R248). -/
def State.idxFinds (s : State) (m : Cmd) (chain : List Nat) : Nat → Nat → Nat → Bool → Nat × Bool × Bool → Prop
  | 0, _, x, cl, o => o = (x, cl, cl)
  | fuel + 1, l, x, cl, o =>
    let base := chain.getD (2 * (l - 1)) 0
    let bound := chain.getD (2 * (l - 1) + 1) 0
    if bound ≤ x ∧ m.pol = 0 then False
    else if bound ≤ x ∧ (m.pol = 1 ∨ bound = 0) then o = (x, true, false)
    else
      let y := if bound ≤ x then bound - 1 else x
      let c := cl || decide (bound ≤ x)
      if l < m.depth then s.canRead ((base + 4 * y) % 2 ^ 64) 4 ∧
        s.idxFinds m chain fuel (l + 1) (s.ownNat ((base + 4 * y) % 2 ^ 64) 4) c o
      else o = (y, c, c)

end Sys2Proof.Machine

/-- R241 to R246: an event of the copy engine lands the next beat of its command, at most up to the next 256-byte boundary
of the destination: the source's bytes, row by row, or the fill pattern, and no other byte; when all has landed the
command retires, with the bytes landed as its reply where it asks for one. Commands that do not convert and name no
barrier; source and destination in the own scratchpad, free mode. -/
def Sys2Proof.Machine.CopyEngineLandsItsBytes : Prop :=
  ∀ (s : State) (k : Nat) (i : Instr) (r : Run),
    (match i with
     | .copyLin c n => c = k ∧ n = 1 ∧ r.cmd.copyKind = 0
     | .copyRect c n => c = k ∧ n = 1 ∧ r.cmd.copyKind = 1
     | .copyFill c n => c = k ∧ n = 1 ∧ r.cmd.copyKind = 2
     | _ => False) →
    s.engineTakes k 0 r → r.cmd.converts = false → (r.acc = [] ∨ r.acc = [1, 1, 0, 0, 0]) →
    SMap.rising 0 (s.core k).run = true → SMap.rising 0 (s.core k).eq = true → SMap.rising 0 (s.core k).q = true →
    SMap.rising 0 s.cores = true → (s.core k).st ≠ .idle →
    let m := r.cmd
    let total := m.rows * m.rowLen
    let off := r.landed % m.rowLen
    let dst := (m.dstRow (r.landed / m.rowLen) + off) % 2 ^ 64
    let src := (m.srcRow (r.landed / m.rowLen) + off) % 2 ^ 64
    let len := min (m.rowLen - off) (256 - dst % 256)
    let bytes := if m.copyKind = 2 then (List.range len).map fun j => BitVec.ofNat 8 (wfld m.w1 (8 * ((off + j) % 8)) 8)
      else s.peek (scratchPa k src) len
    (r.landed < total → (m.copyKind ≠ 2 → (s.seenBy k).canRead src len) → (s.seenBy k).canWrite dst len →
      ∃ t : State, exec i s = .next t ∧ s.landed t k dst bytes ∧
        s.engineMoved t k 0 (some { r with acc := [1, 1, 0, 0, 0], pos := r.pos + 1, landed := r.landed + len })) ∧
    (total ≤ r.landed → (s.core k).qHasSpace 8 = true →
      ∃ t : State, exec i s = .next t ∧ s.engineReplied t k 0 (if m.w3.getLsbD 60 then
        some (BitVec.ofNat 64 (r.landed % 2 ^ 48 * 2 ^ 16 + wfld m.tag 3 16)) else none))

/-- R247 to R249: an event of the index engine looks the next element up through the levels of its chain and moves up to
256 bytes of it: a gather from the last level's base plus y elements to the side array, a scatter back; an element out of
bounds is zero when gathered and left when scattered. When all elements are done the command retires, its reply the
elements and how many were out of bounds. Everything in the own scratchpad, free mode, no barrier. -/
def Sys2Proof.Machine.IndexEngineMovesElements : Prop :=
  ∀ (s : State) (k : Nat) (i : Instr) (r : Run) (oob : Nat) (x : IdxElem) (chain : List Nat),
    (match i with
     | .indexGat c n => c = k ∧ n = 1 ∧ r.cmd.idxOp = 0
     | .indexSct c n => c = k ∧ n = 1 ∧ r.cmd.idxOp = 1
     | _ => False) →
    s.engineTakes k 1 r →
    ((r.acc = [] ∧ oob = 0 ∧ x = ⟨0, false, false, 0⟩ ∧ (s.seenBy k).canRead r.cmd.w1.toNat 48 ∧
        chain = (s.seenBy k).ownWords r.cmd.w1.toNat 6) ∨ r.acc = oob :: x.toList ++ chain) →
    SMap.rising 0 (s.core k).run = true → SMap.rising 0 (s.core k).eq = true → SMap.rising 0 (s.core k).q = true →
    SMap.rising 0 s.cores = true → (s.core k).st ≠ .idle →
    let m := r.cmd
    let at_ := (m.w2.toNat + 4 * r.pos) % 2 ^ 64
    (∀ y bad cl, r.pos < m.idxN →
      (if x.off ≠ 0 then (y, bad, cl) = (x.y, x.bad, x.clamped)
        else (s.seenBy k).canRead at_ 4 ∧ (s.seenBy k).idxFinds m chain 3 1 ((s.seenBy k).ownNat at_ 4) false (y, bad, cl)) →
      let elem := (chain.getD (2 * (m.depth - 1)) 0 + m.esz * y) % 2 ^ 64
      let side := m.side + m.esz * r.pos
      let lost := bad = true ∧ cl = false
      let dst := ((if m.idxOp = 0 then side else elem) + x.off) % 2 ^ 64
      let src := ((if m.idxOp = 0 then elem else side) + x.off) % 2 ^ 64
      let len := min (m.esz - x.off) (256 - dst % 256)
      (¬ lost → (s.seenBy k).canRead src len) → (¬ (lost ∧ m.idxOp = 1) → (s.seenBy k).canWrite dst len) →
      ∃ t : State, exec i s = .next t ∧
        (¬ (lost ∧ m.idxOp = 1) → s.landed t k dst
          (if bad = true ∧ cl = false then List.replicate len 0 else s.peek (scratchPa k src) len)) ∧
        (lost ∧ m.idxOp = 1 → t.mem = s.mem) ∧
        s.engineMoved t k 1 (some { r with
          pos := if x.off + len = m.esz then r.pos + 1 else r.pos, landed := r.landed + len,
          acc := (if x.off + len = m.esz ∧ bad = true then oob + 1 else oob) ::
            (IdxElem.toList ⟨y, bad, cl, if x.off + len = m.esz then 0 else x.off + len⟩) ++ chain })) ∧
    (m.idxN ≤ r.pos → r.acc = oob :: x.toList ++ chain → (s.core k).qHasSpace 9 = true →
      ∃ t : State, exec i s = .next t ∧ s.engineReplied t k 1
        (some (BitVec.ofNat 64 (r.pos % 2 ^ 32 * 2 ^ 32 + oob % 2 ^ 32))))

namespace Sys2Proof.Machine

/-- The near engine e of stack x works on the run r of a core: one in progress, or the next request, which starts
(R346). -/
def State.nearTakes (s : State) (e x : Nat) (r : Run) : Prop :=
  s.engineOn r.cmd.core e = true ∧ r.cmd.core < 512 ∧ r.cmd.eng = e ∧ r.cmd.bar = none ∧ r.cmd.barFault = none ∧
  (((s.near e x).busy = some (r.cmd.core, r) ∧ (s.near e x).node = none) ∨
    ((s.near e x).busy = none ∧ s.nextRequest e x = some (r.cmd.core, none, r.cmd) ∧ r = .ofCmd r.cmd))

/-- The engine of the stack holds r' for the core. -/
def State.nearHolds (t : State) (e x k : Nat) (r' : Run) : Prop := (t.near e x).busy = some (k, r')

/-- The event of a selection of mode n at stack x, with one element or beat. -/
def selEventOf (n x : Nat) : Instr :=
  if n = 0 then .selPred x 1 else if n = 1 then .selTopk x 1 else if n = 2 then .selHist x 1 else .selFilt x 1

end Sys2Proof.Machine

/-- R353 to R365: an event of the selection engine of each mode advances the command of its turn: its checks passed, it
starts; it takes the next element into its records, ranks or bins; it forms its output; it lands a beat of it; when all
has landed it retires with its count as the reply. Source and destination in the own scratchpad, free mode, no barrier. -/
def Sys2Proof.Machine.SelectionEngineScansAndReplies : Prop :=
  ∀ (s : State) (x : Nat) (r : Run) (z : SelSt), s.nearTakes 2 x r → r.acc = z.toList ∨ (r.acc = [] ∧ z.phase = 0) →
    SMap.rising 0 s.cores = true → SMap.rising 0 s.sel = true → SMap.rising 0 (s.core r.cmd.core).q = true →
    (s.core r.cmd.core).st ≠ .idle → x < 4 →
    let m := r.cmd
    let k := m.core
    let i := selEventOf m.selMode x
    let w := m.selTy.width / 8
    let room := 256 - (m.selDst + r.landed) % 256
    (z.phase = 0 → m.w1.toNat % w = 0 → meets m.w1.toNat (m.selN * w) m.selDst m.selSize = false →
      (s.seenBy k).ownScratch m.selDst m.selSize →
      ∃ t : State, exec i s = .next t ∧ t.mem = s.mem ∧ t.nearHolds 2 x k
        { r with acc := [1, 0, 0] ++ if m.selMode = 2 then List.replicate 16 0 else [] }) ∧
    (z.phase = 1 → ¬ ((m.selMode = 0 ∨ m.selMode = 3) ∧ room ≤ z.data.length) → r.pos < m.selN → z.full = 0 →
      let p := (m.w1.toNat + w * r.pos) % 2 ^ 64
      (s.seenBy k).canRead p w →
      ∃ t : State, exec i s = .next t ∧ t.mem = s.mem ∧ t.nearHolds 2 x k
        { r with pos := r.pos + 1, acc := (selElem m z r.pos ((s.seenBy k).ownNat p w)).toList }) ∧
    (z.phase = 1 → ¬ ((m.selMode = 0 ∨ m.selMode = 3) ∧ room ≤ z.data.length) → (m.selN ≤ r.pos ∨ z.full ≠ 0) →
      ∃ t : State, exec i s = .next t ∧ t.mem = s.mem ∧ t.nearHolds 2 x k { r with acc := (selOut m z).toList }) ∧
    ((z.phase = 1 ∧ (m.selMode = 0 ∨ m.selMode = 3) ∧ room ≤ z.data.length) ∨ (z.phase = 2 ∧ z.data ≠ []) →
      let n := min room z.data.length
      let dst := (m.selDst + r.landed) % 2 ^ 64
      (s.seenBy k).canWrite dst n →
      ∃ t : State, exec i s = .next t ∧ s.landed t k dst ((z.data.take n).map (BitVec.ofNat 8)) ∧ t.nearHolds 2 x k
        { r with landed := r.landed + n, acc := ({ z with data := z.data.drop n } : SelSt).toList }) ∧
    (z.phase = 2 → z.data = [] → ∃ t : State, exec i s = .next t ∧ t.mem = s.mem ∧ t.nearHolds 2 x k
      { r with landed := m.selSize, acc := ({ z with phase := 3 } : SelSt).toList }) ∧
    (z.phase = 3 → (s.core k).qHasSpace 10 = true → ∃ (t : State) (e : QEnt), exec i s = .next t ∧
      (t.near 2 x).busy = none ∧ t.mem = s.mem ∧ (t.core k).queue 10 = (s.core k).queue 10 ++ [e] ∧
      lo64 e.img = BitVec.ofNat 64 (z.count % 2 ^ 32 * 2 ^ 32 + z.full * 2 ^ 16 + wfld m.tag 3 16))

/-- R340 to R349: an event of the reduction engine reads its block and checks it, then combines one element of every buffer
by a tree of pairs into the destination, and at the end retires, with its reply where it asks for one. R404 to R412: an
event of the sampler draws for the command at the head of its queue, moves the slot on, and pushes its result. Everything
in the own scratchpad, free mode; the reduction names no flag and no sync object. -/
def Sys2Proof.Machine.ReductionEngineAndSamplerCommands : Prop :=
  ∀ (s : State), SMap.rising 0 s.cores = true →
    (∀ (x : Nat) (r : Run), s.nearTakes 3 x r → SMap.rising 0 s.red = true → (s.core r.cmd.core).st ≠ .idle → x < 4 →
      SMap.rising 0 (s.core r.cmd.core).q = true →
      let m := r.cmd
      let k := m.core
      let c := s.seenBy k
      let n := fld (c.ownNat m.w0.toNat 8) 48 4 + 1
      (r.acc = [] → c.canRead m.w0.toNat (64 + 8 * n) →
        let b := c.ownWords m.w0.toNat (8 + n)
        let w := (redTy (redFmt b)).width / 8
        redOp_ b < 3 → redFmt b < 6 → b.getD 1 0 % w = 0 → (∀ p ∈ redBufs b, p % w = 0) → b.getD 2 0 % 8 = 0 →
        b.getD 4 0 = 0 → (∀ p ∈ redBufs b, meets (b.getD 1 0) (redN b * w) p (redN b * w) = false) →
        ∃ t : State, exec (.reduceCommand x 1) s = .next t ∧ t.mem = s.mem ∧ t.nearHolds 3 x k { r with acc := b }) ∧
      (r.acc ≠ [] → r.pos < redN r.acc →
        let b := r.acc
        let w := (redTy (redFmt b)).width / 8
        let at_ := fun p => (p + w * r.pos) % 2 ^ 64
        (∀ p ∈ redBufs b, c.canRead (at_ p) w) → c.canWrite (at_ (b.getD 1 0)) w →
        let v := redFold (redOp_ b) (redFmt b) 4 ((redBufs b).map fun p => c.ownNat (at_ p) w)
        ∃ t : State, exec (.reduceCommand x 1) s = .next t ∧ s.landed t k (at_ (b.getD 1 0)) (leBytes w v.1) ∧
          t.nearHolds 3 x k { r with pos := r.pos + 1, flags := r.flags ||| v.2 }) ∧
      (r.acc ≠ [] → redN r.acc ≤ r.pos → r.acc.getD 2 0 = 0 → r.acc.getD 4 0 = 0 → c.me.framed = false →
        (s.core k).qHasSpace 11 = true →
        ∃ t : State, exec (.reduceCommand x 1) s = .next t ∧ (t.near 3 x).busy = none ∧ t.mem = s.mem ∧
          if m.w1.getLsbD 4 then ∃ e : QEnt, (t.core k).queue 11 = (s.core k).queue 11 ++ [e] ∧
            lo64 e.img = BitVec.ofNat 64 (r.pos % 2 ^ 32 * 2 ^ 32 + r.flags.toNat * 2 ^ 24 + wfld m.tag 3 16)
          else (t.core k).queue 11 = (s.core k).queue 11)) ∧
    (∀ (k : Nat) (kd : DrawKind) (r : Run) (g : Gen) (tag tok : Nat), s.engineTakes k 4 r → r.acc = [] →
      s.thermStop = false → r.cmd.kind = .go → r.cmd.key = some (g, tag) → (s.core k).st ≠ .idle →
      wfld r.cmd.w0 62 2 = (match kd with | .tmp => 0 | .prob => 1 | .res => 2) →
      SMap.rising 0 (s.core k).smp = true → SMap.rising 0 (s.core k).q = true → SMap.rising 0 (s.core k).run = true →
      let m := r.cmd
      let c := s.seenBy k
      let slot := wfld m.w0 56 6
      let n := wfld m.w0 32 7 + 1
      let x := SMap.get Slot.reset (s.core k).smp slot
      x.st = 1 → c.canRead m.w1.toNat (8 * n) → (kd = .res → c.canRead m.w2.toNat (4 * n)) →
      drawToken kd (wfld m.w0 0 32) (keyed g (slot * 2 ^ 32 + x.pos : Nat) tag % 2 ^ 32) (c.ownWords m.w1.toNat n)
        (if kd = .res then c.ownWords4 m.w2.toNat n else []) = some tok → (s.core k).qHasSpace 12 = true →
      ∃ (t : State) (e : QEnt),
        exec (match kd with | .tmp => .samplerTmp k | .prob => .samplerProb k | .res => .samplerRes k) s = .next t ∧
        SMap.get Slot.reset (t.core k).smp slot =
          ⟨(x.pos + 1) % 2 ^ 32, tok, if x.ids.contains tok then 2 else 1, x.ids⟩ ∧ t.mem = s.mem ∧
        (t.core k).runOf 4 = none ∧ (t.core k).queue 12 = (s.core k).queue 12 ++ [e] ∧
        lo64 e.img = BitVec.ofNat 64 ((if x.ids.contains tok then 1 else 0) * 2 ^ 62 + slot * 2 ^ 56 +
          wfld m.tag 3 16 % 65536 * 2 ^ 32 + tok))

/-- An event of the copy engine lands one beat, and one of the index engine moves one element part. -/
def Obligations.CopyAndIndexEnginesMoveBytes : Prop :=
  CopyEngineLandsItsBytes ∧ IndexEngineMovesElements

/-- Events of the selection engine, the reduction engine and the sampler advance the command of their turn. -/
def Obligations.NearEnginesAndSamplerCommands : Prop :=
  SelectionEngineScansAndReplies ∧ ReductionEngineAndSamplerCommands

namespace Sys2Proof.Machine

/-! ### Events of cores, cohorts and graphs -/

/-- Memory, the graphs, every other core, and core k's scalar registers are as before. -/
structure State.inCore (s t : State) (k : Nat) : Prop where
  mem : t.mem = s.mem
  graphs : t.graphs = s.graphs
  others : ∀ j, j ≠ k → t.core j = s.core j
  regs : ∀ st r, (t.core k).sreg st r = (s.core k).sreg st r

/-- The maps that a core's events change list each key once. -/
def Core.orderly (c : Core) : Prop :=
  SMap.rising 0 c.q = true ∧ SMap.rising 0 c.eq = true ∧ SMap.rising 0 c.run = true ∧ SMap.rising 0 c.rdv = true ∧
  SMap.rising 0 c.cnt = true ∧ SMap.rising 0 c.cr = true

end Sys2Proof.Machine

/-- R80, R144: a held reply is pushed as soon as its queue has room, and its command retires; a marker at the head of its
queue, everything ahead of it retired, leaves the queue, and where its generation is the register's, the engine leaves
the pending set of Jn, which fires with the last one. No other rendezvous register changes. -/
def Sys2Proof.Machine.HeldRepliesArePushedAndMarkersRetire : Prop :=
  ∀ (s : State) (k e : Nat), (s.core k).goesOn = true → s.cohortHeld k = false → (s.core k).orderly →
    (∀ (r : Run) (x : QEnt), e < 5 → (s.core k).qHasSpace (8 + e) = true → (s.core k).runOf e = some r →
      r.reply = some x → ∃ t : State, exec (.engineReplyPush k e) s = .next t ∧ s.inCore t k ∧
        (t.core k).queue (8 + e) = (s.core k).queue (8 + e) ++ [x] ∧ (t.core k).runOf e = none ∧
        ∀ q, q ≠ 8 + e → (t.core k).queue q = (s.core k).queue q) ∧
    (∀ (m : Cmd) (l : List Cmd) (j gen : Nat), s.nothingAhead k e m = true → (s.core k).equeue e = m :: l →
      m.kind = .marker j gen → ∃ t : State, exec (.markerRetire k e) s = .next t ∧ s.inCore t k ∧
        (t.core k).equeue e = l ∧
        (let r := SMap.get Rdv.reset (s.core k).rdv j
         let r' := SMap.get Rdv.reset (t.core k).rdv j
         if r.gen = gen ∧ r.pend.testBit e = true then
           r'.pend = r.pend - 2 ^ e ∧ r'.fired = decide (r'.pend = 0) ∧ r'.gen = gen
         else r' = r) ∧
        ∀ i, i ≠ j → SMap.get Rdv.reset (t.core k).rdv i = SMap.get Rdv.reset (s.core k).rdv i)

/-- R76, R77, R148: the oldest raise on its way to the coupled core adds its count there; the head of q14 moves to the
tail of the coupled core's q13 and raises the counter that it names. R74, R146: the oldest reserved entry of a queue has
its bytes, stands where it stood, and its LDQ raises its counter. A sum past 65,535 is left out of these. (The model's
choices: the bytes are those that the LDQ read when it issued, log entry 38; a raise or an entry for a coupled core that does
not run the job, or has not started, log entry 94.) -/
def Sys2Proof.Machine.SignalsMailAndQueueDataArrive : Prop :=
  ∀ (s : State) (k j : Nat), (s.core k).orderly → (s.core j).orderly → SMap.rising 0 s.cores = true → k ≠ j →
    (∀ n cnt st tok l, s.mate k = .there j → (s.core k).flight = (n, cnt, st, tok) :: l →
      (s.core j).count n + cnt ≤ 65535 →
      ∃ t : State, exec (.coupledSignalArrival k) s = .next t ∧ t.mem = s.mem ∧ (t.core k).flight = l ∧
        (∀ i, (t.core j).count i = (s.core j).count i + if i = n then cnt else 0) ∧
        ∀ i, (t.core k).count i = (s.core k).count i) ∧
    (∀ x l, s.mate k = .there j → (s.core k).queue 14 = x :: l → (s.core j).qHasSpace 13 = true →
      (s.core j).count x.g < 65535 →
      ∃ t : State, exec (.mailboxTransfer k) s = .next t ∧ t.mem = s.mem ∧ (t.core k).queue 14 = l ∧
        (∃ y : QEnt, (t.core j).queue 13 = (s.core j).queue 13 ++ [y] ∧ y.img = x.img ∧ y.ready = x.ready) ∧
        ∀ i, (t.core j).count i = (s.core j).count i + if x.g ≠ 0 ∧ i = x.g then 1 else 0) ∧
    (∀ q a x b, (s.core k).queue q = a ++ x :: b → (∀ y ∈ a, y.ready = true) → x.ready = false →
      (x.g = 0 ∨ (0x01 ≤ x.g ∧ x.g ≤ 0x3F)) → (s.core k).count x.g < 65535 → (s.core k).st ≠ .idle →
      ∃ t : State, exec (.ldqDataArrival k q) s = .next t ∧ s.inCore t k ∧
        (t.core k).queue q = a ++ { x with ready := true } :: b ∧
        ∀ i, (t.core k).count i = (s.core k).count i + if x.g ≠ 0 ∧ i = x.g then 1 else 0)

/-- R252, R253: before its next word C takes the pending and enabled interrupt of the lowest engine e: pend[e] clears, the
context bit is set, UISTAT names e and its tag, UIPC holds the PC, and C goes on in user mode at UIVEC with S56 to S63
exchanged with the shadow bank. (For a supervisor's job that user mode is the model's choice, log entry 93; so is that an
event that nothing enables leaves the state, log entry 87, and where M's retirement points lie, log entry 26.) R418, R425:
a waiting pre-emption that is due enters the handler with its cause; when the horizon of a request ends, a core in free
mode at M's retirement point stops with every live bit of its grants, any other waits. -/
def Sys2Proof.Machine.InterruptsAndStopsAreTakenBetweenWords : Prop :=
  ∀ (s : State) (k : Nat), (s.core k).orderly → (s.core k).st ≠ .idle →
    (∀ e, s.stopDue k = false → s.uiReady k = true → (s.core k).uiEngine = some e → (s.core k).sC.popped = [] →
      (s.core k).sC.taken = none → (s.core k).betweenWords = true → (∀ p ∈ (s.core k).shadow, 56 ≤ p.1) →
      ∃ t : State, exec (.userInterruptEntry k) s = .next t ∧ t.mem = s.mem ∧ (∀ j, j ≠ k → t.core j = s.core j) ∧
        let u := (t.core k).creg 0x018
        u.getLsbD (58 + e) = false ∧ u.getLsbD 63 = true ∧ wfld u 55 3 = e ∧
        wfld u 0 54 = wfld (SMap.get 0 (s.core k).uiTag e) 3 54 ∧ (∀ i < 5, i ≠ e → u.getLsbD (58 + i) =
          ((s.core k).creg 0x018).getLsbD (58 + i)) ∧
        (t.core k).creg 0x016 = (s.core k).sC.pc ∧ (t.core k).sC.pc = (s.core k).creg 0x015 ∧ (t.core k).sup = false ∧
        (∀ r < 56, (t.core k).sreg .c r = (s.core k).sreg .c r) ∧
        ∀ r, 56 ≤ r → r < 64 → (t.core k).sreg .c r = SMap.get 0 (s.core k).shadow r) ∧
    (∀ p, (s.core k).pend = some p → s.stopDue k = true →
      exec (.coreStop k) s = .next (s.coreStop k p.fault p.kind p.th)) ∧
    (s.stopDue k = false → exec (.coreStop k) s = .next s) ∧
    ((s.core k).st = .running → (s.core k).act = false → (s.core k).horizon = some 0 → (s.core k).pend = none →
      ((s.core k).frame = false → (s.core k).atRetirement = true → ∃ u : State,
        (u.core k).creg 0x01E = BitVec.ofNat 64 (((List.range 64).map fun n =>
          if ((s.core k).creg 0x051).getLsbD (n / 4) then 2 ^ n else 0).sum) ∧
        u.mem = s.mem ∧ exec (.preemptHorizon k) s = .next (u.coreStop k none 2 s.thermStop)) ∧
      (((s.core k).frame = true ∨ (s.core k).atRetirement = false) → ∃ t : State,
        exec (.preemptHorizon k) s = .next t ∧ s.inCore t k ∧ (t.core k).st = .running ∧
        (t.core k).pend = some ⟨none, 2, s.thermStop, none, none⟩))

/-- R436, R437: an update adds what both islands have drawn to their counters, and the whole microjoules of it to ENUSED,
with the rest carried; a core in free mode whose budget that exhausts stops with ENERGY. R439: after 1 ms every class pool
takes its grant, up to its ceiling. What an island draws is measured, so the amounts are free (log entry 13). (The model's
choices: what the event of an update not due does, log entry 87; where M's retirement points lie, log entry 26.) -/
def Sys2Proof.Machine.EnergyIsCountedAndPoolsAreFilled : Prop :=
  ∀ (s : State),
    (∀ k < 512, (s.core k).goesOn = true → SMap.rising 0 (s.core k).cr = true → SMap.rising 0 s.islands = true →
      let used := (s.core k).creg 0x031
      let budget := (s.core k).creg 0x030
      ∃ (e1 e2 : Nat) (t : State),
        let n := (s.core k).enRem + e1 + e2
        let used' := used + BitVec.ofNat 64 (n / 1000)
        (SMap.get 0 t.islands (2 * k) = (SMap.get 0 s.islands (2 * k) + e1) % 2 ^ 64 ∧
          SMap.get 0 t.islands (2 * k + 1) = (SMap.get 0 s.islands (2 * k + 1) + e2) % 2 ^ 64 ∧ t.mem = s.mem ∧
          (t.core k).creg 0x031 = used' ∧ (t.core k).enRem = n % 1000 ∧
          ∀ st r, (t.core k).sreg st r = (s.core k).sreg st r) ∧
        ((budget = 0 ∨ used'.toNat < budget.toNat) → exec (.enusedUpdate k) s = .next t) ∧
        (budget ≠ 0 → budget.toNat ≤ used'.toNat → (s.core k).st = .running → (s.core k).act = false →
          (s.core k).frame = false → exec (.enusedUpdate k) s = .next (t.coreStop k (some (energyFault used' budget)) 0
            false))) ∧
    (SMap.rising 0 s.pool = true → 1700000 ≤ s.poolAge → ∃ t : State, exec .poolInterval s = .next t ∧ t.mem = s.mem ∧
      t.cores = s.cores ∧ t.poolAge = s.poolAge - 1700000 ∧
      ∀ c < 4, SMap.get 0 t.pool c = min (SMap.get 0 s.pool c + SMap.get 0 s.grant c) (SMap.get 0 s.ceil c)) ∧
    (s.poolAge < 1700000 → exec .poolInterval s = .next s)

/-- Held replies, markers, signals to the coupled core, mail and queue data arrive. -/
def Obligations.RepliesMarkersSignalsAndMailArrive : Prop :=
  HeldRepliesArePushedAndMarkersRetire ∧ SignalsMailAndQueueDataArrive

/-- User interrupts, stops and the pre-emption horizon act between words, and energy updates and pools act as stated. -/
def Obligations.InterruptsStopsAndEnergyEvents : Prop :=
  InterruptsAndStopsAreTakenBetweenWords ∧ EnergyIsCountedAndPoolsAreFilled

namespace Sys2Proof.Machine

/-! ### Boundaries, jobs, nodes and graphs -/

/-- A buffered store of one of the cores. -/
def BufSt.of (cores : List Nat) (b : BufSt) : Bool :=
  cores.contains (if b.writer < 2048 then b.writer / 4 else (b.writer - 2048) / 8)

/-- The status area of the graph lies in the scratchpad of core k, which launched it; no storage error stands. -/
def State.statusLies (s : State) (g : Graph) (k : Nat) : Prop :=
  g.ownCore = some k ∧ k < 512 ∧ g.statusVa.toNat % 8 = 0 ∧ g.statusVa.toNat + 8 * (g.nodes.length + 1) ≤ 0x400000 ∧
  (s.seenBy k).arraysQuiet

/-- Word i of the status area in the scratchpad of core k. -/
def State.statusWord (s : State) (g : Graph) (k i : Nat) : Nat := (s.seenBy k).ownNat (g.statusVa.toNat + 8 * i) 8

/-- The node waits for others, for an executor, or to go on. -/
def Node.unstarted (n : Node) : Prop := n.st = .waiting ∨ n.st = .ready ∨ n.st = .preempted

/-- A stream of a started job, from its image (R73, R124, R292). -/
def Node.startsAs (n : Node) (i : Nat) (x : StreamSt) : Prop :=
  let pc := n.job.getD i 0
  x.started = decide (pc ≠ 0xFFFFFFFFFFFFFFFF) ∧ x.joined = false ∧ x.pc = pc ∧
  (i ≠ 0 → x.winBase = wfld (n.job.getD (3 + i) 0) 0 22 ∧ x.winSize = 2 ^ wfld (n.job.getD (3 + i) 0) 56 8)

/-- A generator at the start of a job (R314). -/
def Node.seeds (n : Node) (index stream : Nat) (g : Gen) : Prop :=
  let x0 := (n.job.getD 13 0 : BitVec 64) ++ (n.job.getD 12 0 : BitVec 64)
  g.x0 = x0 ∧ g.c = BitVec.ofNat 128 ((n.job.getD 13 0).toNat * 2 + 1) ∧
  g.x = BitVec.ofNat 128 (genJump x0.toNat ((n.job.getD 13 0).toNat * 2 + 1) (2 ^ 127 + (index * 4 + stream) * 2 ^ 96))

end Sys2Proof.Machine

/-- R310, R464: at the boundary of a cohort, its cores all past the last cycle of their frame, with nothing held but
stores, every buffered byte reaches memory, the highest writer's last store to a byte standing; every other byte is as
before, and the next frame begins at cycle 0. Before the boundary nothing happens. R318: the update of a hash tree whose
pages have not changed since the snapshot stores its nodes and then the epoch and the frame, as stores of C. (The model's
choices: an event before the boundary, or with no update pending, leaves the state, log entry 87; the order of what a
boundary does, log entry 72; one boundary for all cores that stop, log entry 106.) -/
def Obligations.BoundaryCommitsStoresAndTreeUpdates : Prop :=
  ∀ (s : State),
    (∀ slot node, s.boundaryDue slot node = false → exec (.quantumBoundary slot node) s = .next s) ∧
    (∀ slot node, s.boundaryDue slot node = true →
      let cores := s.liveCores slot node
      (∀ k ∈ cores, (s.core k).htree = none ∧ (s.core k).spec.role = 0 ∧ (s.core k).tlbDue = [] ∧
        (s.core k).pend = none ∧ SMap.rising 0 (s.core k).cr = true) →
      s.heldAllocs = [] → s.heldAtomics = [] → s.thermStop = false → SMap.rising 0 s.cores = true →
      s.Inv → cores.Nodup → s.eccQuiet = true → (∀ b ∈ s.bufs, tierOf b.pa ≠ some .ctl ∧ s.armed b.pa = false ∧
        (tierOf b.pa = some .host → s.linkUp = true)) →
      ∃ t : State, exec (.quantumBoundary slot node) s = .next t ∧
        t.bufs = s.bufs.filter (fun b => !b.of cores) ∧
        (∀ k ∈ cores, (t.core k).frameNow = (((s.core k).frameNow.1 + 1) % 2 ^ 48, 0)) ∧
        (∀ l b m, s.bufs = l ++ b :: m → b.of cores = true →
          (∀ x ∈ l, x.pa = b.pa → x.of cores = true → x.writer ≤ b.writer) →
          (∀ x ∈ m, x.pa = b.pa → x.of cores = true → x.writer < b.writer) → t.memByte b.pa = b.val) ∧
        ∀ pa, (∀ b ∈ s.bufs, b.of cores = true → b.pa ≠ pa) → t.memByte pa = s.memByte pa) ∧
    (∀ k x fr leaves, (s.core k).htree = some x → x.pending = some (fr, leaves) → (s.core k).framed = true →
      s.eccQuiet = true →
      (∀ i < leaves.length, leaves[i]? = some (s.leafHash x i)) →
      ∃ t : State, exec (.htreeUpdate k) s = .next t ∧ t.mem = s.mem ∧
        (t.core k).htree = some { x with epoch := x.epoch + 1, pending := none } ∧
        t.bufs.map (fun b => (b.pa, b.val)) = s.bufs.map (fun b => (b.pa, b.val)) ++
          (areaWrites x 64 (treeNodes 20 leaves).flatten ++ areaWrites x 0 (leBytes 8 (x.epoch + 1) ++ leBytes 8 fr))) ∧
    (∀ k, (∀ x, (s.core k).htree = some x → x.pending = none) → exec (.htreeUpdate k) s = .next s)

/-- R72, R73, R124, R314: a placed core of a free-mode job starts: every stream stands at its entry and is started unless
that is all ones, S1 to S3 of C and A hold the launch block, the cohort index and the cohort size, every other scalar
register is 0, and the generators are seeded; a job that resumes enters the handler at TVEC + 0x80 instead, in supervisor
mode. R83: when all its streams have joined and its commands have retired, the core is free, and its flags go to its node.
A dead core has its whole cohort retired, and the host is told (R424, R455). (The model's choices: the event that retires a
dead core, log entry 83; that streams start at the event coreJobStart, log entry 64; that an event that is not enabled
leaves the state, log entry 87.) -/
def Obligations.CoreJobsStartAndEnd : Prop :=
  ∀ (s : State) (k : Nat), SMap.rising 0 s.cores = true →
    ((s.core k).st ≠ .placed → exec (.coreJobStart k) s = .next s) ∧
    (∀ n, (s.core k).st = .placed → s.nodeOf (s.core k).slot (s.core k).node = some n → n.fm = false →
      let index := wfld ((s.core k).creg 0x021) 0 10
      let regs := fun (r : Nat) => if r = 1 then BitVec.ofNat 64 (wfld (n.job.getD 8 0) 0 22) else if r = 2 then
        BitVec.ofNat 64 index else if r = 3 then BitVec.ofNat 64 n.csize else 0
      ∃ t : State, exec (.coreJobStart k) s = .next t ∧ (t.core k).st = .running ∧ t.mem = s.mem ∧
        (∀ j, j ≠ k → t.core j = s.core j) ∧ n.startsAs 1 (t.core k).sA ∧ n.startsAs 2 (t.core k).sV ∧
        n.startsAs 3 (t.core k).sM ∧ n.seeds index 0 (t.core k).genC ∧ n.seeds index 1 (t.core k).genA ∧
        n.seeds index 2 (t.core k).genV ∧ (∀ r, (t.core k).sreg .a r = regs r) ∧
        ((s.core k).resume = false → n.startsAs 0 (t.core k).sC ∧ ∀ r, (t.core k).sreg .c r = regs r) ∧
        ((s.core k).resume = true → SMap.rising 0 (s.core k).cr = true →
          (t.core k).sC.pc = (s.core k).creg 0x010 + 0x80 ∧ (t.core k).sup = true ∧ (t.core k).act = true)) ∧
    (∀ g n, s.graph (s.core k).slot = some g → g.nodes[(s.core k).node]? = some n →
      ((s.core k).st = .running → s.jobDone k = false → exec (.coreJobEnd k) s = .next s) ∧
      (((s.core k).st = .running ∧ s.jobDone k = true ∨ (s.core k).st = .halting ∧ s.haltDone k = true) →
        ∃ (t : State) (n' : Node), exec (.coreJobEnd k) s = .next t ∧ t.mem = s.mem ∧ (t.core k).st = .idle ∧
          t.nodeOf (s.core k).slot (s.core k).node = some n' ∧
          n'.ended = n.ended ++ [wfld ((s.core k).creg 0x021) 0 10] ∧
          n'.flags = n.flags ||| ((s.core k).creg 0x001 ||| (s.core k).creg 0x002 ||| (s.core k).creg 0x003).setWidth 7 ∧
          ∀ j, j ≠ k → t.core j = s.core j) ∧
      ((s.core k).st = .dead → ∃ (t : State) (n' : Node), exec (.coreJobEnd k) s = .next t ∧
        (∀ j ∈ n.cores, (s.core j).slot = (s.core k).slot → (s.core j).node = (s.core k).node → (t.core j).st = .idle) ∧
        t.nodeOf (s.core k).slot (s.core k).node = some n' ∧ n'.fault = 0x1D ∧ 64 ∈ t.msi))

/-- R293, R296, R297: a node whose executor has ended becomes complete, faulted or halted, or pre-empted where its cohort
has yielded, and its status word says so. A completed node takes one from every successor's count of predecessors, and one
that has none left is ready; a faulted or halted one makes its graph fail, which abandons every node that has not started.
Once every node is done with, the graph's word says how it ended, its done object is released, the host is told where it
asked, and the slot is free. The status area lies in the launching core's scratchpad. (The model's choices: a pre-empted
node of a failed graph is abandoned with the ready and waiting ones that R297 names, log entry 53; an event that is not
enabled leaves the state, log entry 87.) -/
def Obligations.NodesCompleteAndGraphsEnd : Prop :=
  ∀ (s : State) (slot i k : Nat) (g : Graph) (n : Node), s.graph slot = some g → g.nodes[i]? = some n →
    s.statusLies g k → s.Inv →
    (n.over = false → exec (.nodeCompletion slot i) s = .next s) ∧
    (n.over = true → n.st = .running ∨ n.st = .halted →
      ∃ (t : State) (g' : Graph) (n' : Node), exec (.nodeCompletion slot i) s = .next t ∧ t.graph slot = some g' ∧
        g'.nodes[i]? = some n' ∧ n'.cores = [] ∧
        (if n.st = .halted then n'.st = .halted else if n.fault ≠ 0 then n'.st = .faulted
          else if n.yielded ≠ [] then n'.st = .preempted ∨ (g.failed = true ∧ n'.st = .abandoned) else n'.st = .complete) ∧
        t.statusWord g k (i + 1) = n'.status ∧
        (n'.st = .complete → g.failed = false → n.succ.Nodup → i ∉ n.succ → g'.failed = false ∧
          ∀ j ∈ n.succ, ∀ m, g.nodes[j]? = some m → ∃ m', g'.nodes[j]? = some m' ∧ m'.npred = m.npred - 1 ∧
            m'.st = if m.npred = 1 ∧ m.st = .waiting then .ready else m.st) ∧
        (n'.st = .faulted ∨ n'.st = .halted → g'.failed = true ∧ (g.failed = false → g'.fnode = i) ∧
          ∀ j m, j ≠ i → g.nodes[j]? = some m → m.unstarted → ∃ m', g'.nodes[j]? = some m' ∧ m'.st = .abandoned)) ∧
    ((∃ m ∈ g.nodes, m.terminal = false) → exec (.graphEnd slot) s = .next s) ∧
    ((∀ m ∈ g.nodes, m.terminal = true) →
      (g.doneVa = 0 ∨ (g.doneVa.toNat % 16 = 0 ∧ g.doneVa.toNat + 16 ≤ 0x400000 ∧
        (g.doneVa.toNat + 16 ≤ g.statusVa.toNat ∨ g.statusVa.toNat + 8 ≤ g.doneVa.toNat))) →
      ∃ t : State, exec (.graphEnd slot) s = .next t ∧ t.graph slot = none ∧
        t.statusWord g k 0 = (if g.failed then g.fnode % 65536 * 2 ^ 16 + 2 else 1) ∧
        (g.doneVa ≠ 0 → (t.seenBy k).ownNat g.doneVa.toNat 8 = ((s.seenBy k).ownNat g.doneVa.toNat 8 + 1) % 2 ^ 64) ∧
        t.msi = s.msi ++ if g.hirq ∨ g.report then [slot] else [])

/-- R296: the dispatcher's order puts a node of a smaller effective class first, and of one class an earlier deadline. R462:
during a thermal stop nothing starts. R296, R298, R300, R439: a ready node, alone and able to start, is started at a
decision, its energy taken from its class's pool: a callback is appended to the callback queue and the host is told; a
cohort's cores are placed in order of index, with the registers of its job; a node of an engine gets its command. (The
model's choices: the status word at each change of state, log entry 53; what the dispatcher reads and which engine it takes,
log entries 54 and 62; the images are read at dispatch, log entry 64; a decision that is not enabled, log entry 87.) -/
def Obligations.DispatchStartsReadyNodesInOrder : Prop :=
  ∀ (s : State),
    (s.urgent = none → SMap.rising 0 s.graphs = true → s.readyNodes.Pairwise fun p q => ∀ g m g' m',
      s.graph p.1 = some g → s.nodeOf p.1 p.2 = some m →
      s.graph q.1 = some g' → s.nodeOf q.1 q.2 = some m' → s.effClass m ≤ s.effClass m' ∧
        (s.effClass m = s.effClass m' → ∀ d', g'.absDeadline m' = some d' → ∃ d, g.absDeadline m = some d ∧ d ≤ d')) ∧
    (s.thermStop = true → exec .dispatchDecision s = .next s) ∧
    (∀ slot i k g n, s.thermStop = false → s.bootFailed = false → s.urgent = none → s.readyNodes = [(slot, i)] →
      s.graph slot = some g →
      g.nodes[i]? = some n → s.statusLies g k → s.canStart n false = true → n.charged = none → n.yielded = [] →
      SMap.rising 0 s.pool = true → SMap.rising 0 s.cores = true → SMap.rising 0 s.graphs = true → s.Inv → n.kind ≠ 3 →
      (n.kind = 0 → fld (n.job.getD 8 0).toNat 32 13 = 0 ∧ n.job.getD 9 0 = 0 ∧ n.job.getD 10 0 = 0) →
      ∃ (t : State) (n' : Node), exec .dispatchDecision s = .next t ∧ t.nodeOf slot i = some n' ∧ n'.st = .running ∧
        n'.charged = some n.energy ∧ SMap.get 0 t.pool n.cls = SMap.get 0 s.pool n.cls - n.energy ∧
        t.statusWord g k (i + 1) = n'.status ∧
        (n.kind = 4 → t.callbacks = s.callbacks ++ [(slot, i, n.image)] ∧ t.msi = s.msi ++ [67] ∧ t.cores = s.cores) ∧
        (n.kind = 1 ∨ n.kind = 2 → ∃ c : Cmd, n'.cmds = [c] ∧ c.w0 = n.job.getD 0 0 ∧ c.w1 = n.job.getD 1 0 ∧
          c.w2 = n.job.getD 2 0 ∧ c.w3 = n.job.getD 3 0 ∧ t.cores = s.cores) ∧
        (n.kind = 0 → ∃ l : List Nat, s.placement n.csize = some l ∧ n'.cores = l ∧
          (∀ j, j ∉ l → t.core j = s.core j) ∧
          ∀ p j, l[p]? = some j → p < n.csize →
            (t.core j).st = .placed ∧ (t.core j).slot = slot ∧ (t.core j).node = i ∧ (t.core j).sup = g.sv ∧
            (t.core j).sec = g.sec ∧
            (SMap.rising 0 (s.core j).cr = true →
              wfld ((t.core j).creg 0x021) 0 10 = p % 1024 ∧
              (t.core j).creg 0x051 = BitVec.ofNat 64 (wfld (n.job.getD 11 0) 32 16) ∧
              (t.core j).creg 0x050 = BitVec.ofNat 64 (wfld (n.job.getD 11 0) 48 10) ∧
              (t.core j).creg 0x080 = g.xroot &&& BitVec.ofNat 64 (2 ^ 52 - 1) ∧ (t.core j).creg 0x010 = s.tvec) ∧
            ((s.core j).owner ≠ g.serial → (t.core j).wbuf = [] ∧ (t.core j).cell = [])))

namespace Sys2Proof.Machine

/-- C of core j runs as a Virga unit has started it: its role and position, its PC, and S1 to S3 (R396). -/
structure State.runs (t : State) (j role pos pc s1 s2 s3 : Nat) : Prop where
  role_ : (t.core j).spec.role = role
  pos_ : (t.core j).spec.pos = pos
  pc_ : (t.core j).sC.pc = BitVec.ofNat 64 pc
  args : (t.core j).sreg .c 1 = BitVec.ofNat 64 s1 ∧ (t.core j).sreg .c 2 = BitVec.ofNat 64 s2 ∧
    (t.core j).sreg .c 3 = BitVec.ofNat 64 s3

/-- Where the lead holds guess i, from 1 on; the true carry stands at 0x3C0000 (R394). -/
def guessPlace (i : Nat) : Nat := if i = 0 then 0x3C0000 else 0x3C0100 + 128 * (i - 1)

/-- [va, va + len) lies in granted banks of core k, below the bank that a loop holds, and no write of the registers that
an access reads is open (R99). -/
def State.loopFree (s : State) (k va len : Nat) : Prop :=
  va + len ≤ 0x3C0000 ∧ (s.core k).accSettled = true ∧ ∀ i < len, ((s.core k).creg 0x051).getLsbD ((va + i) / 0x40000) = true

end Sys2Proof.Machine

/-- R394, R396, R402: one action of a lead's unit: with all iterations committed, the loop ends with reason 0 in S[d], its
signal raised, behind SPBEGIN; with the round's true carry read and guesses still to make, the guess body runs with its
two places and its number; then the lead runs iteration 0 of the round; and a member that serves is handed the next
iteration with its guess as the carry-in. (The model's choices: where a lead holds its guesses, and the order of guess runs
and iterations, log entry 59; that all iterations of a round run, log entry 61; that a turn with nothing to do leaves the
state, log entry 87.) -/
def Sys2Proof.Machine.VirgaUnitDispatches : Prop :=
  ∀ (s : State) (k : Nat), SMap.rising 0 s.cores = true → s.Inv → s.eccQuiet = true →
    (∀ j, SMap.rising 0 (s.core j).regC = true) →
    let sp := (s.core k).spec
    let win := s.window k sp.w
    let m := win.getD (sp.handed + 1) 512
    (s.virgaOn k = false → exec (.virgaIterationDispatch k) s = .next s) ∧
    (s.virgaOn k = true → (∀ j ∈ win, s.windowGone k j = false) →
      (sp.role = 1 → (sp.guessed ≤ sp.handed ∨ (s.core m).spec.role ≠ 2) →
        (sp.carry = [] → sp.n ≤ sp.done → (∀ j ∈ win, j ≠ k → (s.core j).spec.role ≠ 2) → sp.g ≤ 0x3F →
          (s.core k).count sp.g < 65535 → SMap.rising 0 (s.core k).cnt = true → (s.core k).sC.seqr = [] →
          ∃ t : State, exec (.virgaIterationDispatch k) s = .next t ∧ (t.core k).spec.role = 0 ∧
            (t.core k).sC.pc = (s.core k).sC.plus sp.pc 8 ∧ t.mem = s.mem ∧
            (∀ n, (t.core k).count n = (s.core k).count n + if sp.g ≠ 0 ∧ n = sp.g then 1 else 0) ∧
            ∀ r, (t.core k).sreg .c r = ((s.core k).setSreg .c sp.d 0).sreg .c r) ∧
        (sp.carry ≠ [] → sp.guessed + 1 < sp.w → ∃ t : State, exec (.virgaIterationDispatch k) s = .next t ∧
          t.runs k 4 (sp.guessed + 1) (sp.word 0) (guessPlace sp.guessed) (guessPlace (sp.guessed + 1)) (sp.guessed + 1)) ∧
        (sp.carry ≠ [] → sp.w ≤ sp.guessed + 1 → ∃ t : State, exec (.virgaIterationDispatch k) s = .next t ∧
          t.runs k 3 0 (sp.word 1) 0x3C0000 0x3C0080 (sp.done % 2 ^ 32) ∧
          ((∀ w ∈ sp.carry, w < 2 ^ 64) → (t.seenBy k).ownWords 0x3C0000 sp.carry.length = sp.carry))) ∧
      (sp.role ≠ 1 → sp.handed < sp.guessed → m ≠ k → (s.core m).spec.role = 2 →
        ((s.core m).spec.lead = m ∨ (s.core m).spec.lead = k) → s.guessStands k = true → (s.core m).st ≠ .idle →
        ∃ t : State, exec (.virgaIterationDispatch k) s = .next t ∧
          t.runs m 3 (sp.handed + 1) (sp.word 1) 0x3C0000 0x3C0080 ((sp.done + sp.handed + 1) % 2 ^ 32) ∧
          (t.core m).spec.lead = k ∧ (t.core k).spec.handed = sp.handed + 1 ∧
          (t.seenBy m).ownWords 0x3C0000 sp.nc = (s.seenBy k).ownWords (guessPlace (sp.handed + 1)) sp.nc))

/-- R395, R397: the round of a lead commits when all its iterations have ended, in free mode (in frame mode at the
boundary). Under `exact`, with no fault, stop, append or buffered store in it and more iterations to come: the first
iteration is accepted, and each further one while the guess that it began with equals the carry-out of the one before;
the loop's count of iterations goes on by that number, and stands in the control block; every core is back at its word;
and a rejected iteration has its generators as they were at its dispatch. (The model's choice: what a fault of an iteration
leaves, log entry 61, which the hypotheses shut out.) -/
def Sys2Proof.Machine.VirgaRoundCommits : Prop :=
  ∀ (s : State) (k : Nat), SMap.rising 0 s.cores = true → s.Inv →
    let sp := (s.core k).spec
    let win := s.window k sp.w
    let a := 1 + ((List.range (sp.w - 1)).takeWhile fun j =>
      (s.seenBy k).ownWords (guessPlace (j + 1)) sp.nc == (s.seenBy (win.getD j 512)).ownWords 0x3C0080 sp.nc).length
    (((s.core k).frame = true ∨ s.roundDone k = false) → exec (.virgaRoundCommit k) s = .next s) ∧
    ((s.core k).frame = false → s.roundDone k = true → win.length = sp.w → win.Nodup → sp.rule = 0 → sp.nap = 0 →
      sp.done + sp.w < sp.n → 2 ≤ sp.w → k < 512 → (s.seenBy k).arraysQuiet →
      (∀ j ∈ win, (s.core j).spec.bad = false ∧ (s.core j).spec.stop = false ∧ (s.core j).spec.buf = [] ∧
        (s.core j).st ≠ .idle) →
      s.loopFree k (sp.word 6) (8 * sp.nc) → s.loopFree k (sp.cbVa + 40) 8 →
      ∃ t : State, exec (.virgaRoundCommit k) s = .next t ∧ (t.core k).spec.done = sp.done + a ∧
        (t.seenBy k).ownNat (sp.cbVa + 40) 8 = sp.done + a ∧
        (∀ j ∈ win, (t.core j).spec.role = (if j = k then 1 else 2) ∧ (t.core j).sC.pc = (s.core j).spec.pc) ∧
        ∀ i j g0 g1 g2, win[i]? = some j → (s.core j).spec.gens = [g0, g1, g2] →
          (t.core j).genC.x = (if a ≤ i then g0.x else (s.core j).genC.x) ∧
          (t.core j).genV.x = (if a ≤ i then g2.x else (s.core j).genV.x))

/-- A Virga unit dispatches the runs of a round, and commits the iterations that it accepts. -/
def Obligations.VirgaRounds : Prop :=
  VirgaUnitDispatches ∧ VirgaRoundCommits

namespace Sys2Proof.Machine

/-! ### The fabric -/

/-- A frame that leaves for peer p in state u (R458): its operation, its place in the sequence, and the message's fields. -/
structure State.leaves (u t : State) (p op mid off len : Nat) (last : Bool) (data : List Byte) : Prop where
  sent : ∃ f : Frame, t.frames = u.frames ++ [f] ∧ f.ver = 1 ∧ f.op = op ∧ f.src = u.pkgId ∧ f.dst = p ∧
    f.seq = (u.peer p).sendSeq ∧ f.mid = mid ∧ f.off = off ∧ f.len = len ∧ f.last = last ∧ f.data = data ∧
    (t.peer p).unacked = (u.peer p).unacked ++ [f]
  next : (t.peer p).sendSeq = ((u.peer p).sendSeq + 1) % 2 ^ 32

/-- An ack (4) or nak (5) of the next expected number for peer p is the last frame that left (R459). -/
def State.answered (s t : State) (p op flags : Nat) : Prop :=
  ∃ f : Frame, t.frames = s.frames ++ [f] ∧ f.ver = 1 ∧ f.op = op ∧ f.src = s.pkgId ∧ f.dst = p ∧
    f.ack = (t.peer p).expect ∧ f.flags = flags ∧ f.data = []

/-- Accepted in its turn: the frame is for this package, of version 1 and the next expected (R459). -/
def State.inTurn (s : State) (f : Frame) : Prop := f.ver = 1 ∧ f.dst = s.pkgId ∧ f.seq = (s.peer f.src).expect

/-- The node's executor has ended with a fault code. -/
def State.ended (u t : State) (slot node code : Nat) : Prop :=
  t.fabNode = none ∧ t.mem = u.mem ∧ ∀ n, u.nodeOf slot node = some n →
    ∃ n', t.nodeOf slot node = some n' ∧ n'.ended = [0] ∧ n'.fault = code

end Sys2Proof.Machine

/-- R458 to R460: the fabric engine moves its node by one frame: a get sends its request; a put and a radd send the next
bytes of the local buffer, at most 9,184 of them, as they are read under the graph's translation, with the last frame
marked. Each frame takes the next number towards its peer. With 4,096 frames unacknowledged nothing leaves. (The model's
choices: the size of a frame that is not the last, and the rsync word in the last one, log entry 67; peers access as user,
non-secure, log entry 69; a step with nothing to send leaves the state, log entry 87.) -/
def Sys2Proof.Machine.FabricNodesSendTheirFrames : Prop :=
  ∀ (s : State) (slot node : Nat) (f : FabNode) (g : Graph), s.fabNode = some f → s.graph slot = some g →
    f.slot = slot → f.node = node → f.last = none → SMap.rising 0 s.peers = true →
    let i : Instr := if f.op = 0 then .fabricPut slot node else if f.op = 1 then .fabricGet slot node
      else .fabricRadd slot node
    let left := f.len - f.sent
    let n := if left ≤ (if f.rsync = 0 then 9184 else 9176) then left else 9176
    (4096 ≤ (s.peer f.peer).unacked.length → f.op < 3 → exec i s = .next s) ∧
    ((s.peer f.peer).unacked.length < 4096 →
      (f.op = 1 → ∃ t : State, exec i s = .next t ∧ s.leaves t f.peer 1 (f.mid % 2 ^ 32) f.raddr f.len true [] ∧
        t.mem = s.mem ∧ t.fabNode = some { f with last := some (s.peer f.peer).sendSeq, quiet := 0 }) ∧
      (∀ b u, f.op = 0 ∨ f.op = 2 →
        (readBytes (g.nodeAcc 9 f.mid .fab) false ((f.laddr + f.sent) % 2 ^ 64) n).run s = .ok (b, u) →
        ∃ t : State, exec i s = .next t ∧ t.mem = u.mem ∧
          u.leaves t f.peer (if f.op = 0 then 0 else 3) (f.mid % 2 ^ 32) ((f.raddr + f.sent) % 2 ^ 64) n (n == left) b ∧
          t.fabNode = some { f with sent := f.sent + n, last := if n = left then some (u.peer f.peer).sendSeq else none }))

/-- R459, R460: a frame that is not for this package, or not of version 1, does nothing; one ahead of its turn is answered
with a nak, and one behind with the ack again, and the flags of the frames that it covers. In its turn a put's bytes are
written, a radd's elements added in the order remote plus local, under the root that is set for fabric access, and an ack
with the flags is sent; a get's request is acknowledged, and answered with the bytes at its address; and a get's data are
written at the requester and then acknowledged, and its node ends with the last of them. A release is left out of these.
(The model's choices: a get is answered as its request arrives, log entry 68; landing, performing and acknowledging are
one event, log entry 69; the bit of a failure at the peer, log entry 80; a frame that is not there leaves the state, log
entry 87.) -/
def Sys2Proof.Machine.FabricFramesLandInTurn : Prop :=
  ∀ (s : State) (f : Frame), SMap.rising 0 s.peers = true →
    (∀ i ∈ [Instr.putData f, .getRequest f, .getData f, .raddData f],
      ((f.ver ≠ 1 ∨ f.dst ≠ s.pkgId) → exec i s = .next s) ∧
      (f.ver = 1 → f.dst = s.pkgId → f.seq ≠ (s.peer f.src).expect →
        let ahead := (f.seq + 2 ^ 32 - (s.peer f.src).expect) % 2 ^ 32 < 2 ^ 31
        ∃ t : State, exec i s = .next t ∧ t.mem = s.mem ∧ t.peers = s.peers ∧
          s.answered t f.src (if ahead then 5 else 4) (if ahead then 0 else ((s.peer f.src).reports f.seq).1))) ∧
    (s.inTurn f →
      let next := ((s.peer f.src).expect + 1) % 2 ^ 32
      (f.last = false → ∃ s1 : State, s1.mem = s.mem ∧ s1.frames = s.frames ∧ (s1.peer f.src).expect = next ∧
        (f.op = 0 → ∀ u, (writeBytes s.remoteAcc false f.off (f.data.take f.len)).run s1 = .ok ((), u) →
          u.peers = s1.peers → ∃ t : State, exec (.putData f) s = .next t ∧ u.answered t f.src 4 0 ∧ t.mem = u.mem ∧
            (t.peer f.src).expect = next) ∧
        (f.op ≠ 0 → let n := f.len / if f.fmt then 4 else 8
          ∀ old v u, (readBytes s.remoteAcc false f.off (n * if f.fmt then 4 else 8)).run s1 = .ok (old, v) →
            (writeBytes s.remoteAcc false f.off (raddBytes f.fmt n old f.data).1).run v = .ok ((), u) →
            u.peers = s1.peers → ∃ t : State, exec (.raddData f) s = .next t ∧ t.mem = u.mem ∧
              (t.peer f.src).expect = next ∧ u.answered t f.src 4 (raddBytes f.fmt n old f.data).2.toNat)) ∧
      ((s.peer f.src).answers = [] → f.len ≤ 9184 → (s.peer f.src).unacked.length < 4096 → f.sy = false →
        ∃ s1 : State, s.answered s1 f.src 4 0 ∧ (s1.peer f.src).expect = next ∧ s1.mem = s.mem ∧
          ∀ b u, (readBytes s.remoteAcc false (f.off % 2 ^ 64) f.len).run s1 = .ok (b, u) → u.peers = s1.peers →
            ∃ t : State, exec (.getRequest f) s = .next t ∧ t.mem = u.mem ∧
              u.leaves t f.src 2 f.mid 0 f.len true b) ∧
      (∀ n g, s.fabNode = some n → n.op = 1 → n.peer = f.src → n.mid % 2 ^ 32 = f.mid → s.graph n.slot = some g →
        f.fmt = false → n.bad = false →
        ∃ s1 : State, s1.mem = s.mem ∧ s1.frames = s.frames ∧ s1.graphs = s.graphs ∧ (s1.peer f.src).expect = next ∧
          ∀ u, (writeBytes (g.nodeAcc 9 n.mid .fab) false ((n.laddr + f.off) % 2 ^ 64) (f.data.take f.len)).run s1 =
              .ok ((), u) → u.peers = s1.peers → u.frames = s.frames →
            ∃ t : State, exec (.getData f) s = .next t ∧ (t.peer f.src).expect = next ∧ u.answered t f.src 4 0 ∧
              t.mem = u.mem ∧ (f.last = true → u.ended t n.slot n.node 0) ∧
              (f.last = false → t.fabNode = some { n with quiet := 0 })))

/-- R459: an ack takes every frame that its number covers from those that stand unacknowledged, and ends the put or radd
whose last frame it covers; a nak sends again, in order, from the frame that it names; so does a timeout of 100 µs with
all of them, and after 10 ms without progress, of the frames towards the peer or of a get's data, the operation ends with
HOSTERR. R458: a frame of an operation above 5 is dropped. (The model's choice: a timeout that is not due leaves the state,
log entry 87.) -/
def Sys2Proof.Machine.FabricAcksNaksAndTimeouts : Prop :=
  ∀ (s : State) (f : Frame), SMap.rising 0 s.peers = true →
    let x := s.peer f.src
    (f.ver = 1 → f.dst = s.pkgId → x.answers = [] →
      let rest := x.unacked.filter fun u => !covered f.ack u.seq
      (s.fabNode = none → ∃ t : State, exec (.fabricAck f) s = .next t ∧ (t.peer f.src).unacked = rest ∧
        t.mem = s.mem ∧ t.frames = s.frames) ∧
      (∀ n l, s.fabNode = some n → n.op ≠ 1 → n.peer = f.src → n.last = some l → covered f.ack l = true → n.bad = false →
        f.fmt = false → (∃ u ∈ x.unacked, covered f.ack u.seq = true) → ∃ t : State, exec (.fabricAck f) s = .next t ∧
          (t.peer f.src).unacked = rest ∧
          s.ended t n.slot n.node 0)) ∧
    (f.ver = 1 → f.dst = s.pkgId → ∃ t : State, exec (.fabricNak f) s = .next t ∧ t.mem = s.mem ∧
      t.frames = s.frames ++ (x.unacked.dropWhile fun u => u.seq != f.ack) ∧ (t.peer f.src).unacked = x.unacked) ∧
    (∀ p, (s.peer p).unacked ≠ [] → 170000 ≤ (s.peer p).quiet → ∃ t : State, exec (.fabricRetransmitTimeout p) s = .next t ∧
      t.frames = s.frames ++ (s.peer p).unacked ∧ (t.peer p).unacked = (s.peer p).unacked ∧ (t.peer p).quiet = 0 ∧
      t.mem = s.mem) ∧
    (∀ p, ((s.peer p).unacked = [] ∨ (s.peer p).quiet < 170000) → exec (.fabricRetransmitTimeout p) s = .next s) ∧
    (∀ p n, (s.peer p).unacked ≠ [] → 17000000 ≤ (s.peer p).stalled → s.fabNode = some n → n.peer = p →
      ∃ t : State, exec (.fabricFailureTimeout p) s = .next t ∧ (t.peer p).unacked = [] ∧ s.ended t n.slot n.node 0x1F) ∧
    (∀ p n, s.fabNode = some n → n.op = 1 → n.peer = p → n.last.isSome = true → 17000000 ≤ n.quiet →
      ∃ t : State, exec (.fabricFailureTimeout p) s = .next t ∧ s.ended t n.slot n.node 0x1F) ∧
    (∀ p, ((s.peer p).unacked = [] ∨ (s.peer p).stalled < 17000000) → (∀ n, s.fabNode = some n → n.op ≠ 1 ∨ n.peer ≠ p ∨
      n.last = none ∨ n.quiet < 17000000) → exec (.fabricFailureTimeout p) s = .next s) ∧
    exec (.fabricFrameDropped f) s = .next s

/-- Fabric nodes send frames, frames land in their turn, and acks, naks and timeouts keep the window. -/
def Obligations.FabricExchangesFrames : Prop :=
  FabricNodesSendTheirFrames ∧ FabricFramesLandInTurn ∧ FabricAcksNaksAndTimeouts

namespace Sys2Proof.Machine

/-! ### The host, registers and the package -/

/-- A failed host access (R453, R456): message 66 is sent, and the error register holds its kind and address unless an
earlier error stands there. -/
def State.hostFailed (s t : State) (kind : Nat) (addr : Option Nat) : Prop :=
  t.msi = s.msi ++ [66] ∧ t.mem = s.mem ∧ t.graphs = s.graphs ∧ t.launch = s.launch ∧
  (wfld s.herr 62 2 ≠ 0 → t.herr = s.herr) ∧
  (wfld s.herr 62 2 = 0 → wfld t.herr 62 2 = kind ∧ ∀ a, addr = some a → wfld t.herr 0 52 = a % 2 ^ 52)

/-- Nothing but core k has changed, and of it no register of a stream. -/
structure State.onlyRegsOf (s t : State) (k : Nat) : Prop where
  mem : t.mem = s.mem
  graphs : t.graphs = s.graphs
  others : ∀ j, j ≠ k → t.core j = s.core j
  regs : ∀ st r, (t.core k).sreg st r = (s.core k).sreg st r
  run : (t.core k).st = (s.core k).st ∧ (t.core k).sC = (s.core k).sC ∧ (t.core k).sA = (s.core k).sA ∧
    (t.core k).sV = (s.core k).sV ∧ (t.core k).sM = (s.core k).sM

end Sys2Proof.Machine

/-- R339, R452, R456: a host read of the window whose every byte is in a tier and a non-secure region returns the bytes of
memory, and a host write stores its bytes and no other; where one byte is not, the access fails as a whole: a read
returns all ones, and a write stores nothing. No write stands open there and no storage error or injection. (That an access
fails as a whole is the model's choice, log entry 70.) -/
def Sys2Proof.Machine.HostReadsAndWritesMemory : Prop :=
  ∀ (s : State) (addr : Nat),
    (∀ n, s.hostOk addr n = true → s.eccQuiet = true → s.settledBytes addr n →
      ∃ t : State, exec (.hostMemoryRead addr n) s = .next t ∧ t.hostReads = s.hostReads ++ [s.peek addr n] ∧
        t.mem = s.mem ∧ t.msi = s.msi ∧ t.cores = s.cores) ∧
    (∀ n, s.hostOk addr n = false → ∃ t : State, exec (.hostMemoryRead addr n) s = .next t ∧
      t.hostReads = s.hostReads ++ [List.replicate n 0xFF] ∧ s.hostFailed t 1 (some addr)) ∧
    (∀ data, s.hostOk addr data.length = true → s.eccQuiet = true → (∀ k, (s.core k).einj.getLsbD 63 = false) → s.Inv →
      ∃ t : State, exec (.hostMemoryWrite addr data) s = .next t ∧ t.peek addr data.length = data ∧
        s.sameOutside t addr data.length ∧ t.msi = s.msi ∧ t.cores = s.cores) ∧
    (∀ data, s.hostOk addr data.length = false → ∃ t : State, exec (.hostMemoryWrite addr data) s = .next t ∧
      s.hostFailed t 1 (some addr))

/-- R300, R453 to R455: an aligned 8-byte store to a launch register that is not busy makes it busy with its address, one
to a busy register does nothing, and any other form fails as an access of kind 2. The decision on a busy register launches
the graph and leaves the code and slot in it, or waits for ever where the boot has failed (R450; that it is a wait is the
model's choice, log entry 110). Stores to CBPOP, HINTST and HERR take the head of the callback queue, and
clear bits and the error; one to CBDONE ends the running callback node that it names, with its code, or fails as kind 3. (A
decision that is not due leaves the state, the model's choice, log entry 87.) -/
def Sys2Proof.Machine.LaunchAndCallbackRegisters : Prop :=
  ∀ (s : State),
    (∀ i addr, i < 16 → let l := SMap.get Launch.reset s.launch i
      (l.busy = true → exec (.launchStore i true addr) s = .next s) ∧
      (l.busy = false → ∃ t : State, exec (.launchStore i true addr) s = .next t ∧
        SMap.get Launch.reset t.launch i = { l with busy := true, addr := addr } ∧ t.mem = s.mem ∧ t.graphs = s.graphs) ∧
      (∃ t : State, exec (.launchStore i false addr) s = .next t ∧ s.hostFailed t 2 none) ∧
      (l.busy = false → exec (.launchDecision i) s = .next s) ∧
      (l.busy = true → s.bootFailed = true → exec (.launchDecision i) s = .next s) ∧
      (l.busy = true → s.bootFailed = false → SMap.rising 0 s.launch = true → ∃ (t u : State) (code slot : Nat),
        (s.performOwn hostAgent allPaths).launchGraph (hostAcc l.root) false l.addr.toNat = (u, code, slot) ∧
        exec (.launchDecision i) s = .next t ∧ t.graphs = u.graphs ∧ t.mem = u.mem ∧
        (u.launch = s.launch → (SMap.get Launch.reset t.launch i).busy = false ∧
          (SMap.get Launch.reset t.launch i).result = BitVec.ofNat 64 (code * 2 ^ 56 + slot)))) ∧
    exec .cbpopStore s = .next { s with callbacks := s.callbacks.tail } ∧
    (∀ m, exec (.hintstClear m) s = .next { s with hintst := s.hintst &&& ~~~m }) ∧
    exec .herrClear s = .next { s with herr := 0 } ∧
    (∀ v, let live := ∃ n, s.nodeOf (wfld v 12 6) (wfld v 0 12) = some n ∧ n.kind = 4 ∧ n.st = .running ∧ n.ended = []
      (live → ∃ (t : State) (n' : Node), exec (.cbdoneStore v) s = .next t ∧ t.mem = s.mem ∧
        t.nodeOf (wfld v 12 6) (wfld v 0 12) = some n' ∧ n'.ended = [0] ∧ n'.fault = wfld v 56 8) ∧
      (¬ live → ∃ t : State, exec (.cbdoneStore v) s = .next t ∧ s.hostFailed t 3 (some 0)))

/-- R315, R405, R443, R445: a write of SMPPOS and SMPST sets position and state of the slot that SMPSEL names, unless the
sampler holds a command; GDATA sets the word of the generator that GSEL names, the increment staying odd; ELOGS of 0
clears the log that ELSEL names; EINJ holds its assigned bits. R99, R101: any other control register takes the fields that
may be written. R222, R239: a store to a bank format keeps its low seven bits, and one to a staging word all. (The numbers
that the event gives what it writes are the model's, log entry 34; a write that is not allowed leaves the state, log
entry 87.) -/
def Obligations.RegisterWritesOfACore : Prop :=
  ∀ (s : State) (k : Nat) (v : Word), SMap.rising 0 s.cores = true → SMap.rising 0 (s.core k).cr = true →
    SMap.rising 0 (s.core k).smp = true → SMap.rising 0 (s.core k).elog = true → SMap.rising 0 (s.core k).bfmt = true →
    SMap.rising 0 (s.core k).staging = true →
    let c := s.core k
    let slot := wfld (c.creg 0x078) 0 6
    let x := SMap.get Slot.reset c.smp slot
    (c.smpBusy = false → ∃ t u : State, exec (.smpposWrite k v) s = .next t ∧ exec (.smpstWrite k v) s = .next u ∧
      s.onlyRegsOf t k ∧ s.onlyRegsOf u k ∧
      SMap.get Slot.reset (t.core k).smp slot = { x with pos := v.toNat % 2 ^ 32 } ∧
      SMap.get Slot.reset (u.core k).smp slot = { x with st := v.toNat % 4 }) ∧
    (c.smpBusy = true → exec (.smpposWrite k v) s = .next s ∧ exec (.smpstWrite k v) s = .next s) ∧
    (∃ t : State, exec (.gdataWrite k v) s = .next t ∧ s.onlyRegsOf t k ∧
      (∀ n < 6, ((t.core k).gen c.gselStream).word n =
        if n = wfld (c.creg 0x063) 0 3 then (if n = 2 then v.toNat ||| 1 else v.toNat) else (c.gen c.gselStream).word n)) ∧
    (∃ t : State, exec (.elogsClear k) s = .next t ∧ s.onlyRegsOf t k ∧
      ∀ a, SMap.get .zero (t.core k).elog a =
        if a = wfld (c.creg 0x090) 0 8 ∧ a < 20 then ELog.zero else SMap.get .zero c.elog a) ∧
    (∃ t : State, exec (.einjWrite k v) s = .next t ∧ s.onlyRegsOf t k ∧
      (t.core k).einj = (c.einj &&& ~~~0xFFFFFFFF000000FF) ||| (v &&& 0xFFFFFFFF000000FF)) ∧
    (∀ n, n < 0x400 → n ∉ [0x064, 0x079, 0x07A, 0x092, 0x098] → ∃ t : State, exec (.registerWrite k n v) s = .next t ∧
      s.onlyRegsOf t k ∧ (∀ m, m ≠ n → (t.core k).creg m = c.creg m) ∧
      (t.core k).creg n = (c.creg n &&& ~~~(BitVec.ofNat 64 (cregMask n))) ||| (v &&& BitVec.ofNat 64 (cregMask n))) ∧
    (∀ va b, 0x400000 ≤ va → va < 0x410000 → mmioAt va = .bfmt b → ∃ t : State, exec (.registerWrite k va v) s = .next t ∧
      s.onlyRegsOf t k ∧ SMap.get 0 (t.core k).bfmt b = v &&& 0x7F) ∧
    (∀ va p n, 0x400000 ≤ va → va < 0x410000 → mmioAt va = .staging p n → ∃ t : State,
      exec (.registerWrite k va v) s = .next t ∧ s.onlyRegsOf t k ∧
      SMap.get 0 (t.core k).staging (stagingKey .c p n) = v)

/-- R446, R448: a supervisor that is not the host path sets bits of CRETIRE, and only sets them; the secure world writes
the region table, whose reserved bits stay 0; any other writer changes nothing. R438, R440: a class's grant, ceiling and
clock step are written at their addresses, its pool is not. R463: a write of 0 to THERM clears `occurred`. -/
def Sys2Proof.Machine.PackageRegisterWrites : Prop :=
  ∀ (s : State) (v : Word),
    (∀ sup host k, k < 8 → ∃ t : State, exec (.cretireWrite sup host k v) s = .next t ∧
      t = { s with cretire := t.cretire } ∧ ∀ b < 512, t.cretire.getLsbD b =
        (s.cretire.getLsbD b || (sup && !host && decide (b / 64 = k) && v.getLsbD (b % 64)))) ∧
    (∀ sec k, k < 128 → SMap.rising 0 s.regions = true → ∃ t : State, exec (.regionTableWrite sec k v) s = .next t ∧
      t = { s with regions := t.regions } ∧ ∀ j, SMap.get 0 t.regions j = if j = k ∧ sec = true then
        v &&& (if k % 2 = 0 then 0xC00FFFFFFFFFF000 else 0x000FFFFFFFFFF000) else SMap.get 0 s.regions j) ∧
    (∀ core c, c < 4 → SMap.rising 0 s.grant = true → SMap.rising 0 s.ceil = true → SMap.rising 0 s.clkStep = true →
      (∃ t : State, exec (.registerWrite core (0x040000001000 + 0x20 * c) v) s = .next t ∧
        t = { s with grant := t.grant } ∧ SMap.get 0 t.grant c = v.toNat) ∧
      (∃ t : State, exec (.registerWrite core (0x040000001000 + 0x20 * c + 8) v) s = .next t ∧
        t = { s with ceil := t.ceil } ∧ SMap.get 0 t.ceil c = v.toNat) ∧
      exec (.registerWrite core (0x040000001000 + 0x20 * c + 0x10) v) s = .next s ∧
      (∃ t : State, exec (.registerWrite core (0x040000001000 + 0x20 * c + 0x18) v) s = .next t ∧
        t = { s with clkStep := t.clkStep } ∧ SMap.get 0 t.clkStep c = v.toNat % 8)) ∧
    (SMap.rising 0 s.smbus = true → (∃ t : State, exec (.thermWrite 0) s = .next t ∧ t = { s with smbus := t.smbus } ∧
      t.smbusRead 0x22 = if s.thermStop then 1 else 0) ∧ ∀ w, w % 256 ≠ 0 → exec (.thermWrite w) s = .next s)

/-- R455, R461, R462: a thermal stop begins where a die is at 105 °C, asks every running cohort with save areas to stop,
and the host is told; it ends, and lets the dispatcher go on, once every die has been at or below 95 °C for 10 ms. R450:
power-on leaves the package as after reset, at boot stage 3 when both images verify, else at stage 0 or 1 with the failure
bit. R451: a report holds the nonce, the two image hashes, the part and the region table, and both signatures. R441: a
soft error turns over the named bits of one storage word. R456: the link goes down. (The model's choices: readings are
free, log entry 10; what a stop lets move, log entry 90; the counter of draws kept at power-on, log entry 71; signatures
and images opaque, log entry 16; an event that is not enabled leaves the state, log entry 87.) -/
def Sys2Proof.Machine.PackageEvents : Prop :=
  ∀ (s : State),
    (s.thermStop = true → exec .thermalStopBegin s = .next s) ∧
    (diesHot s.now = false → exec .thermalStopBegin s = .next s) ∧
    (s.thermStop = false → diesHot s.now = true → (∀ p ∈ s.runningCohorts, s.savable p.1 p.2 = true) →
      SMap.rising 0 s.smbus = true →
      ∃ t : State, exec .thermalStopBegin s = .next t ∧ t.thermStop = true ∧ t.msi = s.msi ++ [68] ∧ t.mem = s.mem ∧
        t.smbusRead 0x22 = 3 ∧ ∀ slot i n, (slot, i) ∈ s.runningCohorts → s.nodeOf slot i = some n → ∀ k ∈ n.cores,
          (s.core k).st = .running → (s.core k).slot = slot → (s.core k).node = i → (t.core k).horizon.isSome = true) ∧
    (s.thermStop = true → 17000000 ≤ s.now → (∀ i < 17000000, ∀ x ∈ dieTemps (s.now - i), x ≤ 95 * 16) →
      ∃ t : State, exec .thermalStopEnd s = .next t ∧ t.thermStop = false ∧ t.msi = s.msi ++ [68] ∧
      t.cores = s.cores ∧ t.mem = s.mem) ∧
    ((s.thermStop = false ∨ s.now < 17000000 ∨ ∃ i < 17000000, ∃ x ∈ dieTemps (s.now - i), 95 * 16 < x) →
      exec .thermalStopEnd s = .next s) ∧
    (∀ p o, ∃ t : State, exec (.powerOnReset p o) s = .next t ∧ t = { State.reset with boot := t.boot, draws := t.draws } ∧
      t.boot = if p = true ∧ o = true then 3 else if p = true then 0x81 else 0x80) ∧
    (∀ nonce, s.boot % 8 = 0 → exec (.attestationRequest nonce) s = .next s) ∧
    (∀ nonce, s.boot % 8 ≠ 0 → ∃ (t : State) (sig : List Byte), exec (.attestationRequest nonce) s = .next t ∧
      t.reports = s.reports ++ [nonce ++ sha3_256 Config.pileusImage ++ sha3_256 Config.overcastImage ++ [0xB1] ++
        s.regionBytes ++ sig] ∧ t = { s with reports := t.reports }) ∧
    (∀ core b l, core < 512 → b < 0x400000 → b % 8 = 0 → l.Nodup → SMap.rising 0 s.flips = true →
      ∃ t : State, exec (.softError (b / 0x40000) core (b % 0x40000 / 8) l) s = .next t ∧ t = { s with flips := t.flips } ∧
        ∀ x, x ∈ SMap.get [] t.flips (keyScratch (scratchPa core b)) ↔
          let was := x ∈ SMap.get [] s.flips (keyScratch (scratchPa core b))
          (was ∧ x ∉ l) ∨ (¬ was ∧ x ∈ l)) ∧
    exec .swiverLinkFailure s = .next { s with linkUp := false }

/-- The host reads and writes memory, and uses the launch and callback registers. -/
def Obligations.HostAccessesAndLaunches : Prop :=
  HostReadsAndWritesMemory ∧ LaunchAndCallbackRegisters

/-- Registers of the package take their writers' values, and its thermal, power-on, attestation and error events act. -/
def Obligations.PackageRegistersAndEvents : Prop :=
  PackageRegisterWrites ∧ PackageEvents

namespace Sys2Proof.Machine

/-! ### Decoding, steps, reset -/

/-- The state in which stream st of core k takes its turn, the agenda's rest standing. -/
def State.turnOf (s : State) (k : Nat) (st : Stream) (l : List Turn) : State :=
  { s with agenda := l, curCore := k, curStream := st }

/-- The executing stream's fetch of the word at pc gives w. C fetches in a page that its TLB holds, in near DRAM and for
it to execute: its first fetch of the word in the job stands, or memory is read. A, V and M read their window, in a
granted bank, where the fetch buffer holds no other word; a word that waits has been fetched (R93, R117, R126, R127,
R219). -/
def State.fetches (s : State) (pc : Word) (w : Nat) : Prop :=
  if s.curStream = .c then
    s.translates pc.toNat 8 ∧ ∃ e, s.tlbHit pc.toNat = some e ∧ e.x = true ∧ s.opens e.u e.ns (e.pa + pc.toNat % e.size) 8 ∧
      w = match s.me.icache.find? fun p => p.1 == pc.toNat with
        | some p => p.2
        | none => leNat (s.peek (e.pa + pc.toNat % e.size) 8)
  else match s.strm.code.find? fun p => p.1 == pc.toNat with
    | some p => p.2 = w
    | none => s.canRead pc.toNat 8 ∧ w = s.ownNat pc.toNat 8 ∧ ∀ p ∈ s.strm.fetched, p.1 = pc.toNat → p.2 = w

/-- The stream's next word is at its PC: M runs no nest, and V is at no target of an RPT. -/
def State.plainPc (s : State) : Prop :=
  (s.curStream = .m → s.me.nest = none) ∧ (s.curStream = .v → s.strm.rpt = none)

/-- Nothing has happened but the fetch: what it leaves of C's words and of the TLB's order, and of the stream's buffer and
its word, apart, and the model's count of free values. -/
def State.fetched (s u : State) : Prop :=
  u.apart = { s.apart with draws := u.draws } ∧ u.curCore = s.curCore ∧ u.curStream = s.curStream ∧
    (∀ j, j ≠ s.curCore → u.core j = s.core j) ∧
  u.me = ({ s.me with icache := u.me.icache, tlb := u.me.tlb } : Core).setStream s.curStream
    { s.strm with fetched := u.strm.fetched, fetchLeft := u.strm.fetchLeft, code := u.strm.code } ∧
  ∀ n x, x ∈ SMap.get [] u.me.tlb n ↔ x ∈ SMap.get [] s.me.tlb n

/-- Neither a loop's nor a repetition's header, whose skip passes more than itself (R31, R167, R171). -/
def plainSkip : Instr → Bool
  | .lsetLoop .. | .rpt .. => false
  | _ => true

end Sys2Proof.Machine

/-- R32, R34, R93, R125 to R127: when the stream whose turn it is may issue, and the word at its PC, with its literal word
where it takes one, decodes to an instruction that the checks of decoding pass, the step is that instruction's execution,
in the state that the fetch leaves; the literal of the instruction is bound. An event's turn is the event's execution, and
a turn of cycles lets them pass, and one of a prefetch walks ahead. A stream that may not issue leaves the state. (The
agenda of turns is the model's, log entry 3; what the fetch buffer may hold, log entry 23.) -/
def Obligations.StepRunsTheDecodedInstruction : Prop :=
  ∀ (s : State) (l : List Turn),
    (∀ k st w next i, s.agenda = .stream k st :: l →
      let z := s.turnOf k st l
      let pc := z.strm.pc
      z.atWord = true → z.plainPc → z.fetches pc w → (i.litKind.isSome = true → z.fetches (z.strm.plus pc 8) next) →
      decode st w next = .ok i → z.accepts i (hdrOf w) = true →
      ∃ u : State, z.fetched u ∧ step s = exec i u) ∧
    (∀ e, s.agenda = .event e :: l → step s = exec e { s with agenda := l }) ∧
    (∀ n, s.agenda = .tick n :: l → step s = .next ({ s with agenda := l }.tick n)) ∧
    (∀ k n kind va, s.agenda = .prefetch k n kind va :: l → step s = .next ({ s with agenda := l }.prefetch k n kind va)) ∧
    (∀ k st, s.agenda = .stream k st :: l → (s.turnOf k st l).stopDue k = false → (s.turnOf k st l).mayIssue k st = false →
      step s = .next (s.turnOf k st l))

/-- R32, R34, R35, R49: a word that is no instruction of the stream is LITX, with its address, where its W is 0xFF, and
ILLOP else, but PRIV where its opcode is privileged and C is in user mode; a literal word of another kind is LITM. An
accepted V word with a register in a bank that VALLOT does not grant is REGALLOT. (The addresses recorded with LITX and
LITM are the model's choice, log entry 79.) -/
def Sys2Proof.Machine.WordsThatDoNotDecodeFault : Prop :=
  ∀ (s : State) (l : List Turn) (k : Nat) (st : Stream),
    (∀ w e, s.agenda = .stream k st :: l →
      let z := s.turnOf k st l
      z.atWord = true → z.plainPc → z.fetches z.strm.pc w → decodeFirst st w = .error e →
      step s = .next (z.takeFault k (match e with
        | .litx => .ofStream st 0x03 z.strm.pc 0
        | _ => .ofStream st (if st = .c ∧ privOp (opOf w) = true ∧ z.me.sup = false then 0x02 else 0x01) 0 0) false)) ∧
    (∀ w next i, s.agenda = .stream k st :: l →
      let z := s.turnOf k st l
      z.atWord = true → z.plainPc → z.fetches z.strm.pc w → z.fetches (z.strm.plus z.strm.pc 8) next →
      decodeFirst st w = .ok i → z.accepts i (hdrOf w) = true → takeLit i next = .error .litm →
      step s = .next (z.takeFault k (.ofStream st 0x04 0 0) false)) ∧
    (∀ i h, i.hdr = some h → s.atWord = true → s.curStream = .v → i.streams.contains .v = true → isPrivileged i = false →
      i.acceptedBy .v = true → i.wf = true → s.settled 0x050 = true →
      (∃ r ∈ vregs i, (s.me.creg 0x050).getLsbD (r / 64) = false) →
      exec i s = .next (s.takeFault s.curCore (.ofStream .v 0x09 0 0) false))

/-- R28, R75, R77: an accepted word whose wait is not satisfied changes nothing but that its stream is blocked at it, and at
a counter stands among those that wait for it; a list of commands that all have started may go (R420). (Where V waits, the
stop of a fault of A that waits for V may come first, R379.) -/
def Sys2Proof.Machine.WaitingWordsBlock : Prop :=
  ∀ (s : State) (i : Instr) (h : Hdr), i.hdr = some h → s.atWord = true → s.accepts i h = true → s.firstPass = true →
    s.me.skipped s.curStream h = false → isListed i s.me s.curStream = false → s.replayRule i h ≠ .wait →
    s.waitOpen h = false → (s.curStream ≠ .v ∨ s.me.pend = none) → exec i s = .next (if 0x01 ≤ h.w ∧ h.w ≤ 0x3F then
      ((s.replayed i h).modStrm fun x => { x with waitOn := h.w }).setBlocked else s.setBlocked)

namespace Sys2Proof.Machine

/-- The kind leaves out iteration idx of count (R30). -/
def leftOut (it : Iter) (idx count : Nat) : Prop :=
  match it with
  | .always => False
  | .first => idx ≠ 0
  | .last => idx + 1 ≠ count
  | .nfirst => idx = 0

end Sys2Proof.Machine

/-- R30: I is ignored in C. In A and V it refers to the innermost loop whose body holds the word, in M to the innermost
running level of the nest, and a word outside every loop counts as one in a loop of a single iteration: first leaves out
all but the first iteration, last all but the last, not-first the first. R31: a word that is left out takes no wait,
raises no signal and has no effect: of the whole state, only its stream's place changes, and what the end of M's nest hands
to markers. Outside loops, repetitions and
nests that place is the next word, past a literal; a skipped LSET `loop` passes its body too, and a skipped RPT its target,
with the literal of a VFMAL. -/
def Obligations.IterationKindsSkip : Prop :=
  (∀ (c : Core) (h : Hdr), c.skipped .c h = false ∧
    (∀ st l ls k, st = .a ∨ st = .v → (c.stream st).seqr = k ++ l :: ls →
      (∀ x ∈ k, Level.holds (c.stream st) x (c.stream st).pc = false) →
      l.holds (c.stream st) (c.stream st).pc = true → (c.skipped st h = true ↔ leftOut h.it l.idx l.count)) ∧
    (∀ st, st = .a ∨ st = .v → (∀ x ∈ (c.stream st).seqr, Level.holds (c.stream st) x (c.stream st).pc = false) →
      (c.skipped st h = true ↔ leftOut h.it 0 1)) ∧
    (c.nest = none → (c.skipped .m h = true ↔ leftOut h.it 0 1)) ∧
    (∀ idx w l, c.nest = some (idx, w) → l < 6 → SMap.get 0 c.plane (0x10 + 8 * l) ≠ 0 →
      (∀ m, l < m → m < 6 → SMap.get 0 c.plane (0x10 + 8 * m) = 0) →
      (c.skipped .m h = true ↔ leftOut h.it (idx.getD l 0) (SMap.get 0 c.plane (0x10 + 8 * l)).toNat)) ∧
    (∀ idx w, c.nest = some (idx, w) → (∀ m < 6, SMap.get 0 c.plane (0x10 + 8 * m) = 0) →
      (c.skipped .m h = true ↔ leftOut h.it 0 1))) ∧
  ∀ (s : State) (i : Instr) (h : Hdr), i.hdr = some h → s.atWord = true → s.accepts i h = true → s.firstPass = true →
    s.me.skipped s.curStream h = true → exec i s = .next (s.skip i) ∧
      (∃ (c : Core) (d : Nat), s.skip i = { s with draws := d }.withMe c ∧ c.apart = s.me.apart ∧ c.cnt = s.me.cnt ∧
        c.flight = s.me.flight ∧ (∀ st, st ≠ s.curStream → c.stream st = s.me.stream st) ∧
            ∃ x : StreamSt, c.stream s.curStream = { s.strm with pc := x.pc, seqr := x.seqr, rpt := x.rpt, code := [] }) ∧
      (s.me.nest = none → s.strm.rpt = none → s.strm.seqr = [] →
        (plainSkip i = true → s.skip i = s.modStrm fun x => { x with pc := x.plus x.pc (8 * i.words), code := [] }) ∧
        (∀ src len val, i = .lsetLoop h src len val →
          s.skip i = s.modStrm fun x => { x with pc := x.plus x.pc (8 * (len + 1)), code := [] }) ∧
        (∀ n sd sa sb, i = .rpt h n sd sa sb →
          let at_ := (s.strm.plus s.strm.pc 8).toNat
          let w := s.ownNat at_ 8
          s.settledBytes (scratchPa s.curCore at_) 8 → s.bufs = [] → s.me.inIter = false →
          ∃ d : Nat, s.skip i = ({ s with draws := d } : State).modStrm fun x =>
            { x with pc := x.plus x.pc (8 * if opOf w = 0x95 ∧ fld w 56 8 ≠ 0xFF then 3 else 2), code := [] }))

/-- Every step of every state goes on: every instruction and every event has an effect, waits, or takes the fault that the
manual names. (The model has no stop of its own.) -/
def Obligations.EveryStepGoesOn : Prop := ∀ s : State, ∃ t : State, step s = .next t

/-- Words that the manual prints, with the instructions that it prints them for. -/
def Obligations.PrintedWordsDecode : Prop :=
  let h : Hdr := ⟨0, 0, .always⟩
  decodeTableWord 64 0x0000040518700000 = some (.add h 5 6 7) ∧
  decodeTableWord 64 0x00000B4518700209 = some (.fma h .f32 .rne 5 6 7 8) ∧
  decodeTableWord 128 0xFF01400400000000000008C300000003 = some (.movl h .h48 3 0x400400000000) ∧
  decodeTableWord 64 0x5009C00000000000 = some (.nop ⟨0x50, 9, .nfirst⟩) ∧
  decodeTableWord 64 0x0000108518700010 = some (.amo h .add .w 5 6 7 16) ∧
  decodeTableWord 64 0x0000148C40000005 = some (.qtryPop h 3 4 5) ∧
  decodeTableWord 64 0x00002A4010210000 = some (.rpt h 4 1 1 0) ∧
  decodeTableWord 64 0x000020C0C00C0420 = some (.vfma h .f32 0 .dyn 12 3 4) ∧
  decodeTableWord 64 0x000028C282BFF800 = some (.vst h .a8 .f64 0 .dyn 40 5 8184) ∧
  decodeTableWord 64 0x0000B148000001C0 = some (.mdrain ⟨0, 0, .last⟩ false false true true true 2 0) ∧
  decodeTableWord 64 0x00001A451870DF80 = some (.smp h .tmp 5 6 7 3 63) ∧
  decodeTableWord 64 0x00000371C0000001 = some (.ctxsave h 49 48 true) ∧
  decodeTableWord 64 0x00001C0000000000 = none

/-- R3, R16, R26 to R29, R34, R36 to R38, R47: for every well-formed instruction, and every stream that accepts it, the
decoder reads from the bytes that the encoder writes, whatever follows them, that instruction, every field at its value,
and leaves what follows. -/
def Obligations.DecodeReadsWhatEncodeWrites : Prop :=
  ∀ (i : Instr) (st : Stream) (rest : List Byte), i.wf = true → i.acceptedBy st = true →
    decodeBytes st (encodeBytes i ++ rest) = .ok (i, rest)

/-- Every step keeps memory in its canonical form: addresses strictly rising, and no byte listed that reads as an unlisted
one does. It holds of every state that has the form, whoever's turn it is. -/
def Obligations.EveryStepKeepsMemoryCanonical : Prop := ∀ s t : State, s.Inv → step s = .next t → t.Inv

/-- R79, R98, R259, R315, R316, R405, R443, R446, R448, R450, R453: after power-on reset memory is in canonical form with
no byte listed, no core has a job, COHORT.size is 1 and every other control register 0, every counter is 0, every queue
empty, every rendezvous register has fired, every plane field is 0, every sampler slot free, every error log clear,
CRETIRE and the region table 0, BOOT 0, no graph runs, and nothing moves. (Memory is the model's choice, log entry 1; the
region table, log entry 8; registers without a reset value in the manual hold the values of log entries 7, 9, 11 and 12.)
-/
def Obligations.ResetLeavesThePackageIdle : Prop :=
  State.reset.Inv ∧ State.reset.mem = [] ∧ State.reset.graphs = [] ∧ State.reset.cretire = 0 ∧ State.reset.boot = 0 ∧
  (∀ n, SMap.get 0 State.reset.regions n = 0) ∧ (∀ n, SMap.get ELog.zero State.reset.elog n = ELog.zero) ∧
  (∀ n, SMap.get Launch.reset State.reset.launch n = Launch.reset) ∧ step State.reset = .next State.reset ∧
  ∀ k, let c := State.reset.core k
    c.st = .idle ∧ (∀ n, c.creg n = if n = 0x021 then 0x10000 else 0) ∧ (∀ n, c.count n = 0) ∧ (∀ q, c.queue q = []) ∧
    (∀ j, (SMap.get Rdv.reset c.rdv j).fired = true) ∧ (∀ f, SMap.get 0 c.plane f = 0 ∧ SMap.get 0 c.shadowPlane f = 0) ∧
    (∀ i, (SMap.get Slot.reset c.smp i).st = 0) ∧ (∀ a, SMap.get ELog.zero c.elog a = ELog.zero) ∧
    (∀ st r, c.sreg st r = 0) ∧ (∀ st, (c.stream st).started = false)

/-- Words that do not decode fault by name, and words whose wait is not satisfied block. -/
def Obligations.UndecodableAndWaitingWords : Prop :=
  WordsThatDoNotDecodeFault ∧ WaitingWordsBlock
end

