-- ==== Sys2Proof/Laws/Map.lean ====
section
/-! SUPPORT. Laws of sparse maps: reading after writing, and the canonical form is kept. -/

namespace Sys2Proof

variable {α : Type}

theorem SMap.get_nil (d : α) (k : Nat) : SMap.get d [] k = d := rfl

theorem SMap.get_ins_self (d v : α) (m : SMap α) (k : Nat) : SMap.get d (SMap.ins m k v) k = v := by
  induction m with
  | nil => simp [SMap.ins, SMap.get]
  | cons p m ih =>
    obtain ⟨k', v'⟩ := p
    by_cases h1 : k < k'
    · simp [SMap.ins, SMap.get, h1]
    · by_cases h2 : k = k'
      · simp [SMap.ins, SMap.get, h2]
      · simp [SMap.ins, SMap.get, h1, h2, ih]

theorem SMap.get_ins_other (d v : α) (m : SMap α) {k j : Nat} (h : j ≠ k) :
    SMap.get d (SMap.ins m k v) j = SMap.get d m j := by
  induction m with
  | nil => simp [SMap.ins, SMap.get, h]
  | cons p m ih =>
    obtain ⟨k', v'⟩ := p
    by_cases h1 : k < k'
    · simp [SMap.ins, SMap.get, h1, h]
    · by_cases h2 : k = k'
      · subst h2; simp [SMap.ins, SMap.get, h]
      · simp [SMap.ins, SMap.get, h1, h2, ih]

theorem SMap.get_del_other (d : α) (m : SMap α) {k j : Nat} (h : j ≠ k) :
    SMap.get d (SMap.del m k) j = SMap.get d m j := by
  induction m with
  | nil => rfl
  | cons p m ih =>
    obtain ⟨k', v'⟩ := p
    by_cases h2 : k = k'
    · subst h2; simp [SMap.del, SMap.get, h]
    · simp [SMap.del, SMap.get, h2, ih]

/-- Writing one key leaves what every other key reads as. -/
@[simp] theorem SMap.get_set_other [DecidableEq α] (d v : α) (m : SMap α) {k j : Nat} (h : j ≠ k) :
    SMap.get d (SMap.set d m k v) j = SMap.get d m j := by
  unfold SMap.set
  split
  · exact SMap.get_del_other d m h
  · exact SMap.get_ins_other d v m h

/-- A key reads as what was written, when that is not the default. -/
theorem SMap.get_set_ne [DecidableEq α] {d v : α} (m : SMap α) (k : Nat) (h : v ≠ d) :
    SMap.get d (SMap.set d m k v) k = v := by
  unfold SMap.set
  rw [if_neg h]
  exact SMap.get_ins_self d v m k

theorem SMap.get_of_rising (d : α) (m : SMap α) {lo k : Nat} (h : SMap.rising lo m = true) (hk : k < lo) :
    SMap.get d m k = d := by
  induction m generalizing lo with
  | nil => rfl
  | cons p m ih =>
    obtain ⟨k', v'⟩ := p
    simp only [SMap.rising, Bool.and_eq_true, decide_eq_true_eq] at h
    have hne : k ≠ k' := by omega
    simp only [SMap.get, if_neg hne]
    exact ih h.2 (by omega)

theorem SMap.rising_mono (m : SMap α) {lo lo' : Nat} (h : SMap.rising lo m = true) (hl : lo' ≤ lo) :
    SMap.rising lo' m = true := by
  cases m with
  | nil => rfl
  | cons p m =>
    obtain ⟨k', v'⟩ := p
    simp only [SMap.rising, Bool.and_eq_true, decide_eq_true_eq] at h ⊢
    exact ⟨by omega, h.2⟩

theorem SMap.get_del_self (d : α) (m : SMap α) {lo : Nat} (k : Nat) (h : SMap.rising lo m = true) :
    SMap.get d (SMap.del m k) k = d := by
  induction m generalizing lo with
  | nil => rfl
  | cons p m ih =>
    obtain ⟨k', v'⟩ := p
    simp only [SMap.rising, Bool.and_eq_true, decide_eq_true_eq] at h
    by_cases h2 : k = k'
    · subst h2
      simp only [SMap.del, if_pos]
      exact SMap.get_of_rising d m h.2 (by omega)
    · simp only [SMap.del, SMap.get, if_neg h2]
      exact ih h.2

/-- Read after write, of a map in its canonical form. -/
theorem SMap.get_set_self [DecidableEq α] (d v : α) (m : SMap α) {lo : Nat} (k : Nat) (h : SMap.rising lo m = true) :
    SMap.get d (SMap.set d m k v) k = v := by
  unfold SMap.set
  split
  · rename_i hv; subst hv; exact SMap.get_del_self v m k h
  · exact SMap.get_ins_self d v m k

theorem SMap.rising_del (m : SMap α) (k : Nat) {lo : Nat} (h : SMap.rising lo m = true) :
    SMap.rising lo (SMap.del m k) = true := by
  induction m generalizing lo with
  | nil => rfl
  | cons p m ih =>
    obtain ⟨k', v'⟩ := p
    simp only [SMap.rising, Bool.and_eq_true, decide_eq_true_eq] at h
    by_cases h2 : k = k'
    · simp only [SMap.del, if_pos h2]; exact SMap.rising_mono m h.2 (by omega)
    · simp only [SMap.del, if_neg h2, SMap.rising, Bool.and_eq_true, decide_eq_true_eq]
      exact ⟨h.1, ih h.2⟩

theorem SMap.rising_ins (m : SMap α) (k : Nat) (v : α) {lo : Nat} (h : SMap.rising lo m = true) (hk : lo ≤ k) :
    SMap.rising lo (SMap.ins m k v) = true := by
  induction m generalizing lo with
  | nil => simp [SMap.ins, SMap.rising, hk]
  | cons p m ih =>
    obtain ⟨k', v'⟩ := p
    simp only [SMap.rising, Bool.and_eq_true, decide_eq_true_eq] at h
    by_cases h1 : k < k'
    · simp only [SMap.ins, if_pos h1, SMap.rising, Bool.and_eq_true, decide_eq_true_eq]
      exact ⟨hk, by omega, h.2⟩
    · by_cases h2 : k = k'
      · subst h2
        simp only [SMap.ins, if_neg h1, if_pos, SMap.rising, Bool.and_eq_true, decide_eq_true_eq]
        exact ⟨hk, h.2⟩
      · simp only [SMap.ins, if_neg h1, if_neg h2, SMap.rising, Bool.and_eq_true, decide_eq_true_eq]
        exact ⟨h.1, ih h.2 (by omega)⟩

theorem SMap.mem_del {m : SMap α} {k : Nat} {p : Nat × α} (h : p ∈ SMap.del m k) : p ∈ m := by
  induction m with
  | nil => exact h
  | cons q m ih =>
    obtain ⟨k', v'⟩ := q
    by_cases h2 : k = k'
    · simp only [SMap.del, if_pos h2] at h; exact List.mem_cons_of_mem _ h
    · simp only [SMap.del, if_neg h2, List.mem_cons] at h
      rcases h with h | h
      · exact h ▸ List.mem_cons_self
      · exact List.mem_cons_of_mem _ (ih h)

theorem SMap.mem_ins {m : SMap α} {k : Nat} {v : α} {p : Nat × α} (h : p ∈ SMap.ins m k v) : p = (k, v) ∨ p ∈ m := by
  induction m with
  | nil => simpa [SMap.ins] using h
  | cons q m ih =>
    obtain ⟨k', v'⟩ := q
    by_cases h1 : k < k'
    · simpa [SMap.ins, h1] using h
    · by_cases h2 : k = k'
      · simp only [SMap.ins, if_neg h1, if_pos h2, List.mem_cons] at h
        exact h.imp id (List.mem_cons_of_mem _)
      · simp only [SMap.ins, if_neg h1, if_neg h2, List.mem_cons] at h
        rcases h with h | h
        · exact .inr (h ▸ List.mem_cons_self)
        · exact (ih h).imp id (List.mem_cons_of_mem _)

theorem SMap.wf_iff [DecidableEq α] (d : α) (m : SMap α) :
    SMap.wf d m = true ↔ SMap.rising 0 m = true ∧ ∀ p ∈ m, p.2 ≠ d := by
  simp [SMap.wf]

/-- A write keeps the canonical form. -/
theorem SMap.wf_set [DecidableEq α] (d v : α) (m : SMap α) (k : Nat) (h : SMap.wf d m = true) :
    SMap.wf d (SMap.set d m k v) = true := by
  rw [SMap.wf_iff] at h ⊢
  unfold SMap.set
  split
  · exact ⟨SMap.rising_del m k h.1, fun p hp => h.2 p (SMap.mem_del hp)⟩
  · rename_i hv
    refine ⟨SMap.rising_ins m k v h.1 (Nat.zero_le _), fun p hp => ?_⟩
    rcases SMap.mem_ins hp with rfl | hp
    · exact hv
    · exact h.2 p hp

theorem SMap.rising_filter (f : Nat × α → Bool) (m : SMap α) {lo : Nat} (h : SMap.rising lo m = true) :
    SMap.rising lo (m.filter f) = true := by
  induction m generalizing lo with
  | nil => rfl
  | cons p m ih =>
    obtain ⟨k', v'⟩ := p
    simp only [SMap.rising, Bool.and_eq_true, decide_eq_true_eq] at h
    by_cases hf : f (k', v') = true
    · simp only [List.filter_cons_of_pos hf, SMap.rising, Bool.and_eq_true, decide_eq_true_eq]
      exact ⟨h.1, ih h.2⟩
    · simp only [List.filter_cons_of_neg hf]
      exact SMap.rising_mono _ (ih h.2) (by omega)

/-- Dropping entries keeps the canonical form. -/
theorem SMap.wf_filter [DecidableEq α] (d : α) (f : Nat × α → Bool) (m : SMap α) (h : SMap.wf d m = true) :
    SMap.wf d (m.filter f) = true := by
  rw [SMap.wf_iff] at h ⊢
  exact ⟨SMap.rising_filter f m h.1, fun p hp => h.2 p (List.mem_of_mem_filter hp)⟩

/-- Reading a filtered map: a dropped key reads as the default. -/
theorem SMap.get_filter (d : α) (f : Nat → Bool) (m : SMap α) (k : Nat) :
    SMap.get d (m.filter fun p => f p.1) k = if f k then SMap.get d m k else d := by
  induction m with
  | nil => simp [SMap.get]
  | cons p m ih =>
    obtain ⟨k', v'⟩ := p
    by_cases hf : f k' = true
    · rw [List.filter_cons_of_pos (by simpa using hf)]
      by_cases hk : k = k'
      · subst hk; simp [SMap.get, hf]
      · simp [SMap.get, hk, ih]
    · rw [List.filter_cons_of_neg (by simpa using hf)]
      by_cases hk : k = k'
      · subst hk; simp [ih, hf]
      · simp [SMap.get, hk, ih]

/-- Of two insertions at one key the later stands. -/
theorem SMap.ins_ins (m : SMap α) (k : Nat) (a b : α) : SMap.ins (SMap.ins m k a) k b = SMap.ins m k b := by
  induction m with
  | nil => simp [SMap.ins]
  | cons p m ih =>
    obtain ⟨k', v'⟩ := p
    by_cases h1 : k < k'
    · simp [SMap.ins, h1]
    · by_cases h2 : k = k'
      · subst h2; simp [SMap.ins]
      · simp [SMap.ins, h1, h2, ih]

/-! Sorting. -/

theorem insertBy_perm {α : Type} (le : α → α → Bool) (a : α) (l : List α) : (insertBy le a l).Perm (a :: l) := by
  induction l with
  | nil => exact .refl _
  | cons b l ih =>
    simp only [insertBy]
    split
    · exact .refl _
    · exact (ih.cons b).trans (.swap a b l)

theorem sortBy_perm {α : Type} (le : α → α → Bool) (l : List α) : (sortBy le l).Perm l := by
  induction l with
  | nil => exact .refl _
  | cons a l ih => exact (insertBy_perm le a _).trans (ih.cons a)

@[simp] theorem mem_sortBy {α : Type} (le : α → α → Bool) (l : List α) (x : α) : x ∈ sortBy le l ↔ x ∈ l :=
  (sortBy_perm le l).mem_iff

theorem sortBy_pairwise {α : Type} {le : α → α → Bool} (total : ∀ a b, le a b || le b a)
    (trans : ∀ a b c, le a b → le b c → le a c) (l : List α) : (sortBy le l).Pairwise fun a b => le a b := by
  induction l with
  | nil => exact .nil
  | cons a l ih =>
    simp only [sortBy]
    generalize sortBy le l = m at ih ⊢
    induction m with
    | nil => simp [insertBy]
    | cons b m jh =>
      simp only [insertBy]
      obtain ⟨hb, hm⟩ := List.pairwise_cons.1 ih
      split
      · rename_i h
        exact .cons (fun c hc => by
          rcases List.mem_cons.1 hc with rfl | hc
          · exact h
          · exact trans _ _ _ h (hb c hc)) ih
      · rename_i h
        refine .cons (fun c hc => ?_) (jh hm)
        rcases List.mem_cons.1 ((insertBy_perm le a m).mem_iff.1 hc) with rfl | hc
        · simpa [h] using total c b
        · exact hb c hc

end Sys2Proof
end

