-- ==== Sys2Proof/Laws/State.lean ====
section
/-! SUPPORT. What each update of the state leaves alone and what it sets, field by field: no later proof unfolds an
update. -/

namespace Sys2Proof.Machine

/-! A core put back. -/

@[simp] theorem State.setCore_mem (s : State) (k : Nat) (c : Core) : (s.setCore k c).mem = s.mem := rfl
@[simp] theorem State.setCore_hist (s : State) (k : Nat) (c : Core) : (s.setCore k c).hist = s.hist := rfl
@[simp] theorem State.setCore_clk (s : State) (k : Nat) (c : Core) : (s.setCore k c).clk = s.clk := rfl
@[simp] theorem State.setCore_seq (s : State) (k : Nat) (c : Core) : (s.setCore k c).seq = s.seq := rfl
@[simp] theorem State.setCore_cmdId (s : State) (k : Nat) (c : Core) : (s.setCore k c).cmdId = s.cmdId := rfl
@[simp] theorem State.setCore_draws (s : State) (k : Nat) (c : Core) : (s.setCore k c).draws = s.draws := rfl
@[simp] theorem State.setCore_rel (s : State) (k : Nat) (c : Core) : (s.setCore k c).rel = s.rel := rfl
@[simp] theorem State.setCore_relClk (s : State) (k : Nat) (c : Core) : (s.setCore k c).relClk = s.relClk := rfl
@[simp] theorem State.setCore_barClk (s : State) (k : Nat) (c : Core) : (s.setCore k c).barClk = s.barClk := rfl
@[simp] theorem State.setCore_flips (s : State) (k : Nat) (c : Core) : (s.setCore k c).flips = s.flips := rfl
@[simp] theorem State.setCore_poison (s : State) (k : Nat) (c : Core) : (s.setCore k c).poison = s.poison := rfl
@[simp] theorem State.setCore_curCore (s : State) (k : Nat) (c : Core) : (s.setCore k c).curCore = s.curCore := rfl
@[simp] theorem State.setCore_curStream (s : State) (k : Nat) (c : Core) : (s.setCore k c).curStream = s.curStream := rfl
@[simp] theorem State.setCore_agenda (s : State) (k : Nat) (c : Core) : (s.setCore k c).agenda = s.agenda := rfl
@[simp] theorem State.setCore_rr (s : State) (k : Nat) (c : Core) : (s.setCore k c).rr = s.rr := rfl
@[simp] theorem State.setCore_now (s : State) (k : Nat) (c : Core) : (s.setCore k c).now = s.now := rfl
@[simp] theorem State.setCore_graphs (s : State) (k : Nat) (c : Core) : (s.setCore k c).graphs = s.graphs := rfl
@[simp] theorem State.setCore_serial (s : State) (k : Nat) (c : Core) : (s.setCore k c).serial = s.serial := rfl
@[simp] theorem State.setCore_urgent (s : State) (k : Nat) (c : Core) : (s.setCore k c).urgent = s.urgent := rfl
@[simp] theorem State.setCore_savePool (s : State) (k : Nat) (c : Core) : (s.setCore k c).savePool = s.savePool := rfl
@[simp] theorem State.setCore_tvec (s : State) (k : Nat) (c : Core) : (s.setCore k c).tvec = s.tvec := rfl
@[simp] theorem State.setCore_fabRoot (s : State) (k : Nat) (c : Core) : (s.setCore k c).fabRoot = s.fabRoot := rfl
@[simp] theorem State.setCore_sel (s : State) (k : Nat) (c : Core) : (s.setCore k c).sel = s.sel := rfl
@[simp] theorem State.setCore_red (s : State) (k : Nat) (c : Core) : (s.setCore k c).red = s.red := rfl
@[simp] theorem State.setCore_launch (s : State) (k : Nat) (c : Core) : (s.setCore k c).launch = s.launch := rfl
@[simp] theorem State.setCore_hintst (s : State) (k : Nat) (c : Core) : (s.setCore k c).hintst = s.hintst := rfl
@[simp] theorem State.setCore_herr (s : State) (k : Nat) (c : Core) : (s.setCore k c).herr = s.herr := rfl
@[simp] theorem State.setCore_callbacks (s : State) (k : Nat) (c : Core) : (s.setCore k c).callbacks = s.callbacks := rfl
@[simp] theorem State.setCore_msi (s : State) (k : Nat) (c : Core) : (s.setCore k c).msi = s.msi := rfl
@[simp] theorem State.setCore_hostReads (s : State) (k : Nat) (c : Core) : (s.setCore k c).hostReads = s.hostReads := rfl
@[simp] theorem State.setCore_linkUp (s : State) (k : Nat) (c : Core) : (s.setCore k c).linkUp = s.linkUp := rfl
@[simp] theorem State.setCore_islands (s : State) (k : Nat) (c : Core) : (s.setCore k c).islands = s.islands := rfl
@[simp] theorem State.setCore_grant (s : State) (k : Nat) (c : Core) : (s.setCore k c).grant = s.grant := rfl
@[simp] theorem State.setCore_ceil (s : State) (k : Nat) (c : Core) : (s.setCore k c).ceil = s.ceil := rfl
@[simp] theorem State.setCore_pool (s : State) (k : Nat) (c : Core) : (s.setCore k c).pool = s.pool := rfl
@[simp] theorem State.setCore_clkStep (s : State) (k : Nat) (c : Core) : (s.setCore k c).clkStep = s.clkStep := rfl
@[simp] theorem State.setCore_poolAge (s : State) (k : Nat) (c : Core) : (s.setCore k c).poolAge = s.poolAge := rfl
@[simp] theorem State.setCore_energyMark (s : State) (k : Nat) (c : Core) : (s.setCore k c).energyMark = s.energyMark := rfl
@[simp] theorem State.setCore_cretire (s : State) (k : Nat) (c : Core) : (s.setCore k c).cretire = s.cretire := rfl
@[simp] theorem State.setCore_regions (s : State) (k : Nat) (c : Core) : (s.setCore k c).regions = s.regions := rfl
@[simp] theorem State.setCore_elog (s : State) (k : Nat) (c : Core) : (s.setCore k c).elog = s.elog := rfl
@[simp] theorem State.setCore_pkgId (s : State) (k : Nat) (c : Core) : (s.setCore k c).pkgId = s.pkgId := rfl
@[simp] theorem State.setCore_peers (s : State) (k : Nat) (c : Core) : (s.setCore k c).peers = s.peers := rfl
@[simp] theorem State.setCore_fabNode (s : State) (k : Nat) (c : Core) : (s.setCore k c).fabNode = s.fabNode := rfl
@[simp] theorem State.setCore_fabTlb (s : State) (k : Nat) (c : Core) : (s.setCore k c).fabTlb = s.fabTlb := rfl
@[simp] theorem State.setCore_frames (s : State) (k : Nat) (c : Core) : (s.setCore k c).frames = s.frames := rfl
@[simp] theorem State.setCore_smbus (s : State) (k : Nat) (c : Core) : (s.setCore k c).smbus = s.smbus := rfl
@[simp] theorem State.setCore_boot (s : State) (k : Nat) (c : Core) : (s.setCore k c).boot = s.boot := rfl
@[simp] theorem State.setCore_thermStop (s : State) (k : Nat) (c : Core) : (s.setCore k c).thermStop = s.thermStop := rfl
@[simp] theorem State.setCore_bufs (s : State) (k : Nat) (c : Core) : (s.setCore k c).bufs = s.bufs := rfl
@[simp] theorem State.setCore_heldAtomics (s : State) (k : Nat) (c : Core) : (s.setCore k c).heldAtomics = s.heldAtomics := rfl
@[simp] theorem State.setCore_heldAllocs (s : State) (k : Nat) (c : Core) : (s.setCore k c).heldAllocs = s.heldAllocs := rfl
@[simp] theorem State.setCore_reports (s : State) (k : Nat) (c : Core) : (s.setCore k c).reports = s.reports := rfl

@[simp] theorem State.core_setCore_other (s : State) (c : Core) {k j : Nat} (h : j ≠ k) :
    (s.setCore k c).core j = s.core j := SMap.get_set_other _ _ _ h

/-- A core that is not the one at reset reads as it was put. -/
theorem State.core_setCore_self (s : State) (k : Nat) {c : Core} (h : c ≠ Core.reset) : (s.setCore k c).core k = c :=
  SMap.get_set_ne _ k h

/-- A core that is doing something is not the one at reset. -/
theorem Core.ne_reset {c : Core} (h : c.st ≠ .idle) : c ≠ Core.reset := by
  intro e; exact h (e ▸ rfl)

@[simp] theorem State.core_setCore_busy (s : State) (k : Nat) {c : Core} (h : c.st ≠ .idle) : (s.setCore k c).core k = c :=
  s.core_setCore_self k (Core.ne_reset h)

/-- Of two cores put at one number the later stands. -/
theorem State.setCore_setCore (s : State) (k : Nat) {c c' : Core} (h : c ≠ Core.reset) (h' : c' ≠ Core.reset) :
    (s.setCore k c).setCore k c' = s.setCore k c' := by
  simp [State.setCore, SMap.set, h, h', SMap.ins_ins]

/-! Control registers. -/

@[simp] theorem Core.setCreg_st (c : Core) (n : Nat) (v : Word) : (c.setCreg n v).st = c.st := (rfl)
@[simp] theorem Core.setCreg_sup (c : Core) (n : Nat) (v : Word) : (c.setCreg n v).sup = c.sup := rfl
@[simp] theorem Core.setCreg_jobSup (c : Core) (n : Nat) (v : Word) : (c.setCreg n v).jobSup = c.jobSup := rfl
@[simp] theorem Core.setCreg_sec (c : Core) (n : Nat) (v : Word) : (c.setCreg n v).sec = c.sec := rfl
@[simp] theorem Core.setCreg_slot (c : Core) (n : Nat) (v : Word) : (c.setCreg n v).slot = c.slot := rfl
@[simp] theorem Core.setCreg_node (c : Core) (n : Nat) (v : Word) : (c.setCreg n v).node = c.node := rfl
@[simp] theorem Core.setCreg_owner (c : Core) (n : Nat) (v : Word) : (c.setCreg n v).owner = c.owner := rfl
@[simp] theorem Core.setCreg_sC (c : Core) (n : Nat) (v : Word) : (c.setCreg n v).sC = c.sC := rfl
@[simp] theorem Core.setCreg_sA (c : Core) (n : Nat) (v : Word) : (c.setCreg n v).sA = c.sA := rfl
@[simp] theorem Core.setCreg_sV (c : Core) (n : Nat) (v : Word) : (c.setCreg n v).sV = c.sV := rfl
@[simp] theorem Core.setCreg_sM (c : Core) (n : Nat) (v : Word) : (c.setCreg n v).sM = c.sM := rfl
@[simp] theorem Core.setCreg_regC (c : Core) (n : Nat) (v : Word) : (c.setCreg n v).regC = c.regC := rfl
@[simp] theorem Core.setCreg_regA (c : Core) (n : Nat) (v : Word) : (c.setCreg n v).regA = c.regA := rfl
@[simp] theorem Core.setCreg_shadow (c : Core) (n : Nat) (v : Word) : (c.setCreg n v).shadow = c.shadow := rfl
@[simp] theorem Core.setCreg_trapBank (c : Core) (n : Nat) (v : Word) : (c.setCreg n v).trapBank = c.trapBank := rfl
@[simp] theorem Core.setCreg_cnt (c : Core) (n : Nat) (v : Word) : (c.setCreg n v).cnt = c.cnt := rfl
@[simp] theorem Core.setCreg_cntClk (c : Core) (n : Nat) (v : Word) : (c.setCreg n v).cntClk = c.cntClk := rfl
@[simp] theorem Core.setCreg_rdv (c : Core) (n : Nat) (v : Word) : (c.setCreg n v).rdv = c.rdv := rfl
@[simp] theorem Core.setCreg_q (c : Core) (n : Nat) (v : Word) : (c.setCreg n v).q = c.q := rfl
@[simp] theorem Core.setCreg_eq (c : Core) (n : Nat) (v : Word) : (c.setCreg n v).eq = c.eq := rfl
@[simp] theorem Core.setCreg_run (c : Core) (n : Nat) (v : Word) : (c.setCreg n v).run = c.run := rfl
@[simp] theorem Core.setCreg_staging (c : Core) (n : Nat) (v : Word) : (c.setCreg n v).staging = c.staging := rfl
@[simp] theorem Core.setCreg_uiTag (c : Core) (n : Nat) (v : Word) : (c.setCreg n v).uiTag = c.uiTag := rfl
@[simp] theorem Core.setCreg_genC (c : Core) (n : Nat) (v : Word) : (c.setCreg n v).genC = c.genC := rfl
@[simp] theorem Core.setCreg_genA (c : Core) (n : Nat) (v : Word) : (c.setCreg n v).genA = c.genA := rfl
@[simp] theorem Core.setCreg_genV (c : Core) (n : Nat) (v : Word) : (c.setCreg n v).genV = c.genV := rfl
@[simp] theorem Core.setCreg_icache (c : Core) (n : Nat) (v : Word) : (c.setCreg n v).icache = c.icache := rfl
@[simp] theorem Core.setCreg_k (c : Core) (n : Nat) (v : Word) : (c.setCreg n v).k = c.k := rfl
@[simp] theorem Core.setCreg_v (c : Core) (n : Nat) (v : Word) : (c.setCreg n v).v = c.v := rfl
@[simp] theorem Core.setCreg_p (c : Core) (n : Nat) (v : Word) : (c.setCreg n v).p = c.p := rfl
@[simp] theorem Core.setCreg_vw (c : Core) (n : Nat) (v : Word) : (c.setCreg n v).vw = c.vw := rfl
@[simp] theorem Core.setCreg_vmap (c : Core) (n : Nat) (v : Word) : (c.setCreg n v).vmap = c.vmap := rfl
@[simp] theorem Core.setCreg_slots (c : Core) (n : Nat) (v : Word) : (c.setCreg n v).slots = c.slots := rfl
@[simp] theorem Core.setCreg_plane (c : Core) (n : Nat) (v : Word) : (c.setCreg n v).plane = c.plane := rfl
@[simp] theorem Core.setCreg_shadowPlane (c : Core) (n : Nat) (v : Word) : (c.setCreg n v).shadowPlane = c.shadowPlane := rfl
@[simp] theorem Core.setCreg_nest (c : Core) (n : Nat) (v : Word) : (c.setCreg n v).nest = c.nest := rfl
@[simp] theorem Core.setCreg_nestPc (c : Core) (n : Nat) (v : Word) : (c.setCreg n v).nestPc = c.nestPc := rfl
@[simp] theorem Core.setCreg_wbuf (c : Core) (n : Nat) (v : Word) : (c.setCreg n v).wbuf = c.wbuf := rfl
@[simp] theorem Core.setCreg_cell (c : Core) (n : Nat) (v : Word) : (c.setCreg n v).cell = c.cell := rfl
@[simp] theorem Core.setCreg_heap (c : Core) (n : Nat) (v : Word) : (c.setCreg n v).heap = c.heap := rfl
@[simp] theorem Core.setCreg_drain (c : Core) (n : Nat) (v : Word) : (c.setCreg n v).drain = c.drain := rfl
@[simp] theorem Core.setCreg_bfmt (c : Core) (n : Nat) (v : Word) : (c.setCreg n v).bfmt = c.bfmt := rfl
@[simp] theorem Core.setCreg_smp (c : Core) (n : Nat) (v : Word) : (c.setCreg n v).smp = c.smp := rfl
@[simp] theorem Core.setCreg_replayC (c : Core) (n : Nat) (v : Word) : (c.setCreg n v).replayC = c.replayC := rfl
@[simp] theorem Core.setCreg_replayA (c : Core) (n : Nat) (v : Word) : (c.setCreg n v).replayA = c.replayA := rfl
@[simp] theorem Core.setCreg_held (c : Core) (n : Nat) (v : Word) : (c.setCreg n v).held = c.held := rfl
@[simp] theorem Core.setCreg_barNames (c : Core) (n : Nat) (v : Word) : (c.setCreg n v).barNames = c.barNames := rfl
@[simp] theorem Core.setCreg_failing (c : Core) (n : Nat) (v : Word) : (c.setCreg n v).failing = c.failing := rfl
@[simp] theorem Core.setCreg_pend (c : Core) (n : Nat) (v : Word) : (c.setCreg n v).pend = c.pend := rfl
@[simp] theorem Core.setCreg_horizon (c : Core) (n : Nat) (v : Word) : (c.setCreg n v).horizon = c.horizon := rfl
@[simp] theorem Core.setCreg_lastCause (c : Core) (n : Nat) (v : Word) : (c.setCreg n v).lastCause = c.lastCause := rfl
@[simp] theorem Core.setCreg_enRem (c : Core) (n : Nat) (v : Word) : (c.setCreg n v).enRem = c.enRem := rfl
@[simp] theorem Core.setCreg_phase (c : Core) (n : Nat) (v : Word) : (c.setCreg n v).phase = c.phase := rfl
@[simp] theorem Core.setCreg_arrived (c : Core) (n : Nat) (v : Word) : (c.setCreg n v).arrived = c.arrived := rfl
@[simp] theorem Core.setCreg_bspClk (c : Core) (n : Nat) (v : Word) : (c.setCreg n v).bspClk = c.bspClk := rfl
@[simp] theorem Core.setCreg_htree (c : Core) (n : Nat) (v : Word) : (c.setCreg n v).htree = c.htree := rfl
@[simp] theorem Core.setCreg_tlb (c : Core) (n : Nat) (v : Word) : (c.setCreg n v).tlb = c.tlb := rfl
@[simp] theorem Core.setCreg_tlbDue (c : Core) (n : Nat) (v : Word) : (c.setCreg n v).tlbDue = c.tlbDue := rfl
@[simp] theorem Core.setCreg_clb (c : Core) (n : Nat) (v : Word) : (c.setCreg n v).clb = c.clb := rfl
@[simp] theorem Core.setCreg_acq (c : Core) (n : Nat) (v : Word) : (c.setCreg n v).acq = c.acq := rfl
@[simp] theorem Core.setCreg_acqFloor (c : Core) (n : Nat) (v : Word) : (c.setCreg n v).acqFloor = c.acqFloor := rfl
@[simp] theorem Core.setCreg_spec (c : Core) (n : Nat) (v : Word) : (c.setCreg n v).spec = c.spec := rfl
@[simp] theorem Core.setCreg_elog (c : Core) (n : Nat) (v : Word) : (c.setCreg n v).elog = c.elog := rfl
@[simp] theorem Core.setCreg_einj (c : Core) (n : Nat) (v : Word) : (c.setCreg n v).einj = c.einj := rfl
@[simp] theorem Core.setCreg_step (c : Core) (n : Nat) (v : Word) : (c.setCreg n v).step = c.step := rfl
@[simp] theorem Core.setCreg_rhist (c : Core) (n : Nat) (v : Word) : (c.setCreg n v).rhist = c.rhist := rfl
@[simp] theorem Core.setCreg_flight (c : Core) (n : Nat) (v : Word) : (c.setCreg n v).flight = c.flight := rfl
@[simp] theorem Core.setCreg_resume (c : Core) (n : Nat) (v : Word) : (c.setCreg n v).resume = c.resume := rfl
@[simp] theorem Core.setCreg_nestNo (c : Core) (n : Nat) (v : Word) : (c.setCreg n v).nestNo = c.nestNo := rfl
@[simp] theorem Core.setCreg_doneClk (c : Core) (n : Nat) (v : Word) : (c.setCreg n v).doneClk = c.doneClk := rfl
@[simp] theorem Core.setCreg_horizonHeld (c : Core) (n : Nat) (v : Word) : (c.setCreg n v).horizonHeld = c.horizonHeld := rfl
@[simp] theorem Core.setCreg_cycRem (c : Core) (n : Nat) (v : Word) : (c.setCreg n v).cycRem = c.cycRem := rfl
@[simp] theorem Core.setCreg_uiClk (c : Core) (n : Nat) (v : Word) : (c.setCreg n v).uiClk = c.uiClk := rfl
@[simp] theorem Core.setCreg_invWait (c : Core) (n : Nat) (v : Word) : (c.setCreg n v).invWait = c.invWait := rfl
@[simp] theorem Core.setCreg_joinWait (c : Core) (n : Nat) (v : Word) : (c.setCreg n v).joinWait = c.joinWait := rfl
@[simp] theorem Core.setCreg_handlerJoined (c : Core) (n : Nat) (v : Word) : (c.setCreg n v).handlerJoined = c.handlerJoined := rfl
@[simp] theorem Core.setCreg_areaSize (c : Core) (n : Nat) (v : Word) : (c.setCreg n v).areaSize = c.areaSize := rfl

@[simp] theorem Core.creg_setCreg_other (c : Core) (v : Word) {n m : Nat} (h : m ≠ n) : (c.setCreg n v).creg m = c.creg m :=
  SMap.get_set_other _ _ _ h

theorem Core.creg_setCreg_self (c : Core) (n : Nat) (v : Word) {lo : Nat} (h : SMap.rising lo c.cr = true) :
    (c.setCreg n v).creg n = v := SMap.get_set_self _ _ _ n h

/-! Scalar registers. -/

@[simp] theorem Core.setSreg_st (c : Core) (st : Stream) (r : Nat) (v : Word) : (c.setSreg st r v).st = c.st := by
  unfold Core.setSreg; split <;> [rfl; cases st <;> rfl]
@[simp] theorem Core.setSreg_sup (c : Core) (st : Stream) (r : Nat) (v : Word) : (c.setSreg st r v).sup = c.sup := by
  unfold Core.setSreg; split <;> [rfl; cases st <;> rfl]
@[simp] theorem Core.setSreg_jobSup (c : Core) (st : Stream) (r : Nat) (v : Word) : (c.setSreg st r v).jobSup = c.jobSup := by
  unfold Core.setSreg; split <;> [rfl; cases st <;> rfl]
@[simp] theorem Core.setSreg_sec (c : Core) (st : Stream) (r : Nat) (v : Word) : (c.setSreg st r v).sec = c.sec := by
  unfold Core.setSreg; split <;> [rfl; cases st <;> rfl]
@[simp] theorem Core.setSreg_slot (c : Core) (st : Stream) (r : Nat) (v : Word) : (c.setSreg st r v).slot = c.slot := by
  unfold Core.setSreg; split <;> [rfl; cases st <;> rfl]
@[simp] theorem Core.setSreg_node (c : Core) (st : Stream) (r : Nat) (v : Word) : (c.setSreg st r v).node = c.node := by
  unfold Core.setSreg; split <;> [rfl; cases st <;> rfl]
@[simp] theorem Core.setSreg_owner (c : Core) (st : Stream) (r : Nat) (v : Word) : (c.setSreg st r v).owner = c.owner := by
  unfold Core.setSreg; split <;> [rfl; cases st <;> rfl]
@[simp] theorem Core.setSreg_sC (c : Core) (st : Stream) (r : Nat) (v : Word) : (c.setSreg st r v).sC = c.sC := by
  unfold Core.setSreg; split <;> [rfl; cases st <;> rfl]
@[simp] theorem Core.setSreg_sA (c : Core) (st : Stream) (r : Nat) (v : Word) : (c.setSreg st r v).sA = c.sA := by
  unfold Core.setSreg; split <;> [rfl; cases st <;> rfl]
@[simp] theorem Core.setSreg_sV (c : Core) (st : Stream) (r : Nat) (v : Word) : (c.setSreg st r v).sV = c.sV := by
  unfold Core.setSreg; split <;> [rfl; cases st <;> rfl]
@[simp] theorem Core.setSreg_sM (c : Core) (st : Stream) (r : Nat) (v : Word) : (c.setSreg st r v).sM = c.sM := by
  unfold Core.setSreg; split <;> [rfl; cases st <;> rfl]
@[simp] theorem Core.setSreg_shadow (c : Core) (st : Stream) (r : Nat) (v : Word) : (c.setSreg st r v).shadow = c.shadow := by
  unfold Core.setSreg; split <;> [rfl; cases st <;> rfl]
@[simp] theorem Core.setSreg_trapBank (c : Core) (st : Stream) (r : Nat) (v : Word) : (c.setSreg st r v).trapBank = c.trapBank := by
  unfold Core.setSreg; split <;> [rfl; cases st <;> rfl]
@[simp] theorem Core.setSreg_cnt (c : Core) (st : Stream) (r : Nat) (v : Word) : (c.setSreg st r v).cnt = c.cnt := by
  unfold Core.setSreg; split <;> [rfl; cases st <;> rfl]
@[simp] theorem Core.setSreg_cntClk (c : Core) (st : Stream) (r : Nat) (v : Word) : (c.setSreg st r v).cntClk = c.cntClk := by
  unfold Core.setSreg; split <;> [rfl; cases st <;> rfl]
@[simp] theorem Core.setSreg_rdv (c : Core) (st : Stream) (r : Nat) (v : Word) : (c.setSreg st r v).rdv = c.rdv := by
  unfold Core.setSreg; split <;> [rfl; cases st <;> rfl]
@[simp] theorem Core.setSreg_q (c : Core) (st : Stream) (r : Nat) (v : Word) : (c.setSreg st r v).q = c.q := by
  unfold Core.setSreg; split <;> [rfl; cases st <;> rfl]
@[simp] theorem Core.setSreg_eq (c : Core) (st : Stream) (r : Nat) (v : Word) : (c.setSreg st r v).eq = c.eq := by
  unfold Core.setSreg; split <;> [rfl; cases st <;> rfl]
@[simp] theorem Core.setSreg_run (c : Core) (st : Stream) (r : Nat) (v : Word) : (c.setSreg st r v).run = c.run := by
  unfold Core.setSreg; split <;> [rfl; cases st <;> rfl]
@[simp] theorem Core.setSreg_staging (c : Core) (st : Stream) (r : Nat) (v : Word) : (c.setSreg st r v).staging = c.staging := by
  unfold Core.setSreg; split <;> [rfl; cases st <;> rfl]
@[simp] theorem Core.setSreg_cr (c : Core) (st : Stream) (r : Nat) (v : Word) : (c.setSreg st r v).cr = c.cr := by
  unfold Core.setSreg; split <;> [rfl; cases st <;> rfl]
@[simp] theorem Core.setSreg_uiTag (c : Core) (st : Stream) (r : Nat) (v : Word) : (c.setSreg st r v).uiTag = c.uiTag := by
  unfold Core.setSreg; split <;> [rfl; cases st <;> rfl]
@[simp] theorem Core.setSreg_genC (c : Core) (st : Stream) (r : Nat) (v : Word) : (c.setSreg st r v).genC = c.genC := by
  unfold Core.setSreg; split <;> [rfl; cases st <;> rfl]
@[simp] theorem Core.setSreg_genA (c : Core) (st : Stream) (r : Nat) (v : Word) : (c.setSreg st r v).genA = c.genA := by
  unfold Core.setSreg; split <;> [rfl; cases st <;> rfl]
@[simp] theorem Core.setSreg_genV (c : Core) (st : Stream) (r : Nat) (v : Word) : (c.setSreg st r v).genV = c.genV := by
  unfold Core.setSreg; split <;> [rfl; cases st <;> rfl]
@[simp] theorem Core.setSreg_icache (c : Core) (st : Stream) (r : Nat) (v : Word) : (c.setSreg st r v).icache = c.icache := by
  unfold Core.setSreg; split <;> [rfl; cases st <;> rfl]
@[simp] theorem Core.setSreg_k (c : Core) (st : Stream) (r : Nat) (v : Word) : (c.setSreg st r v).k = c.k := by
  unfold Core.setSreg; split <;> [rfl; cases st <;> rfl]
@[simp] theorem Core.setSreg_v (c : Core) (st : Stream) (r : Nat) (v : Word) : (c.setSreg st r v).v = c.v := by
  unfold Core.setSreg; split <;> [rfl; cases st <;> rfl]
@[simp] theorem Core.setSreg_p (c : Core) (st : Stream) (r : Nat) (v : Word) : (c.setSreg st r v).p = c.p := by
  unfold Core.setSreg; split <;> [rfl; cases st <;> rfl]
@[simp] theorem Core.setSreg_vw (c : Core) (st : Stream) (r : Nat) (v : Word) : (c.setSreg st r v).vw = c.vw := by
  unfold Core.setSreg; split <;> [rfl; cases st <;> rfl]
@[simp] theorem Core.setSreg_vmap (c : Core) (st : Stream) (r : Nat) (v : Word) : (c.setSreg st r v).vmap = c.vmap := by
  unfold Core.setSreg; split <;> [rfl; cases st <;> rfl]
@[simp] theorem Core.setSreg_slots (c : Core) (st : Stream) (r : Nat) (v : Word) : (c.setSreg st r v).slots = c.slots := by
  unfold Core.setSreg; split <;> [rfl; cases st <;> rfl]
@[simp] theorem Core.setSreg_plane (c : Core) (st : Stream) (r : Nat) (v : Word) : (c.setSreg st r v).plane = c.plane := by
  unfold Core.setSreg; split <;> [rfl; cases st <;> rfl]
@[simp] theorem Core.setSreg_shadowPlane (c : Core) (st : Stream) (r : Nat) (v : Word) : (c.setSreg st r v).shadowPlane = c.shadowPlane := by
  unfold Core.setSreg; split <;> [rfl; cases st <;> rfl]
@[simp] theorem Core.setSreg_nest (c : Core) (st : Stream) (r : Nat) (v : Word) : (c.setSreg st r v).nest = c.nest := by
  unfold Core.setSreg; split <;> [rfl; cases st <;> rfl]
@[simp] theorem Core.setSreg_nestPc (c : Core) (st : Stream) (r : Nat) (v : Word) : (c.setSreg st r v).nestPc = c.nestPc := by
  unfold Core.setSreg; split <;> [rfl; cases st <;> rfl]
@[simp] theorem Core.setSreg_wbuf (c : Core) (st : Stream) (r : Nat) (v : Word) : (c.setSreg st r v).wbuf = c.wbuf := by
  unfold Core.setSreg; split <;> [rfl; cases st <;> rfl]
@[simp] theorem Core.setSreg_cell (c : Core) (st : Stream) (r : Nat) (v : Word) : (c.setSreg st r v).cell = c.cell := by
  unfold Core.setSreg; split <;> [rfl; cases st <;> rfl]
@[simp] theorem Core.setSreg_heap (c : Core) (st : Stream) (r : Nat) (v : Word) : (c.setSreg st r v).heap = c.heap := by
  unfold Core.setSreg; split <;> [rfl; cases st <;> rfl]
@[simp] theorem Core.setSreg_drain (c : Core) (st : Stream) (r : Nat) (v : Word) : (c.setSreg st r v).drain = c.drain := by
  unfold Core.setSreg; split <;> [rfl; cases st <;> rfl]
@[simp] theorem Core.setSreg_bfmt (c : Core) (st : Stream) (r : Nat) (v : Word) : (c.setSreg st r v).bfmt = c.bfmt := by
  unfold Core.setSreg; split <;> [rfl; cases st <;> rfl]
@[simp] theorem Core.setSreg_smp (c : Core) (st : Stream) (r : Nat) (v : Word) : (c.setSreg st r v).smp = c.smp := by
  unfold Core.setSreg; split <;> [rfl; cases st <;> rfl]
@[simp] theorem Core.setSreg_replayC (c : Core) (st : Stream) (r : Nat) (v : Word) : (c.setSreg st r v).replayC = c.replayC := by
  unfold Core.setSreg; split <;> [rfl; cases st <;> rfl]
@[simp] theorem Core.setSreg_replayA (c : Core) (st : Stream) (r : Nat) (v : Word) : (c.setSreg st r v).replayA = c.replayA := by
  unfold Core.setSreg; split <;> [rfl; cases st <;> rfl]
@[simp] theorem Core.setSreg_held (c : Core) (st : Stream) (r : Nat) (v : Word) : (c.setSreg st r v).held = c.held := by
  unfold Core.setSreg; split <;> [rfl; cases st <;> rfl]
@[simp] theorem Core.setSreg_barNames (c : Core) (st : Stream) (r : Nat) (v : Word) : (c.setSreg st r v).barNames = c.barNames := by
  unfold Core.setSreg; split <;> [rfl; cases st <;> rfl]
@[simp] theorem Core.setSreg_failing (c : Core) (st : Stream) (r : Nat) (v : Word) : (c.setSreg st r v).failing = c.failing := by
  unfold Core.setSreg; split <;> [rfl; cases st <;> rfl]
@[simp] theorem Core.setSreg_pend (c : Core) (st : Stream) (r : Nat) (v : Word) : (c.setSreg st r v).pend = c.pend := by
  unfold Core.setSreg; split <;> [rfl; cases st <;> rfl]
@[simp] theorem Core.setSreg_horizon (c : Core) (st : Stream) (r : Nat) (v : Word) : (c.setSreg st r v).horizon = c.horizon := by
  unfold Core.setSreg; split <;> [rfl; cases st <;> rfl]
@[simp] theorem Core.setSreg_lastCause (c : Core) (st : Stream) (r : Nat) (v : Word) : (c.setSreg st r v).lastCause = c.lastCause := by
  unfold Core.setSreg; split <;> [rfl; cases st <;> rfl]
@[simp] theorem Core.setSreg_enRem (c : Core) (st : Stream) (r : Nat) (v : Word) : (c.setSreg st r v).enRem = c.enRem := by
  unfold Core.setSreg; split <;> [rfl; cases st <;> rfl]
@[simp] theorem Core.setSreg_phase (c : Core) (st : Stream) (r : Nat) (v : Word) : (c.setSreg st r v).phase = c.phase := by
  unfold Core.setSreg; split <;> [rfl; cases st <;> rfl]
@[simp] theorem Core.setSreg_arrived (c : Core) (st : Stream) (r : Nat) (v : Word) : (c.setSreg st r v).arrived = c.arrived := by
  unfold Core.setSreg; split <;> [rfl; cases st <;> rfl]
@[simp] theorem Core.setSreg_bspClk (c : Core) (st : Stream) (r : Nat) (v : Word) : (c.setSreg st r v).bspClk = c.bspClk := by
  unfold Core.setSreg; split <;> [rfl; cases st <;> rfl]
@[simp] theorem Core.setSreg_htree (c : Core) (st : Stream) (r : Nat) (v : Word) : (c.setSreg st r v).htree = c.htree := by
  unfold Core.setSreg; split <;> [rfl; cases st <;> rfl]
@[simp] theorem Core.setSreg_tlb (c : Core) (st : Stream) (r : Nat) (v : Word) : (c.setSreg st r v).tlb = c.tlb := by
  unfold Core.setSreg; split <;> [rfl; cases st <;> rfl]
@[simp] theorem Core.setSreg_tlbDue (c : Core) (st : Stream) (r : Nat) (v : Word) : (c.setSreg st r v).tlbDue = c.tlbDue := by
  unfold Core.setSreg; split <;> [rfl; cases st <;> rfl]
@[simp] theorem Core.setSreg_clb (c : Core) (st : Stream) (r : Nat) (v : Word) : (c.setSreg st r v).clb = c.clb := by
  unfold Core.setSreg; split <;> [rfl; cases st <;> rfl]
@[simp] theorem Core.setSreg_acq (c : Core) (st : Stream) (r : Nat) (v : Word) : (c.setSreg st r v).acq = c.acq := by
  unfold Core.setSreg; split <;> [rfl; cases st <;> rfl]
@[simp] theorem Core.setSreg_acqFloor (c : Core) (st : Stream) (r : Nat) (v : Word) : (c.setSreg st r v).acqFloor = c.acqFloor := by
  unfold Core.setSreg; split <;> [rfl; cases st <;> rfl]
@[simp] theorem Core.setSreg_spec (c : Core) (st : Stream) (r : Nat) (v : Word) : (c.setSreg st r v).spec = c.spec := by
  unfold Core.setSreg; split <;> [rfl; cases st <;> rfl]
@[simp] theorem Core.setSreg_elog (c : Core) (st : Stream) (r : Nat) (v : Word) : (c.setSreg st r v).elog = c.elog := by
  unfold Core.setSreg; split <;> [rfl; cases st <;> rfl]
@[simp] theorem Core.setSreg_einj (c : Core) (st : Stream) (r : Nat) (v : Word) : (c.setSreg st r v).einj = c.einj := by
  unfold Core.setSreg; split <;> [rfl; cases st <;> rfl]
@[simp] theorem Core.setSreg_step (c : Core) (st : Stream) (r : Nat) (v : Word) : (c.setSreg st r v).step = c.step := by
  unfold Core.setSreg; split <;> [rfl; cases st <;> rfl]
@[simp] theorem Core.setSreg_rhist (c : Core) (st : Stream) (r : Nat) (v : Word) : (c.setSreg st r v).rhist = c.rhist := by
  unfold Core.setSreg; split <;> [rfl; cases st <;> rfl]
@[simp] theorem Core.setSreg_flight (c : Core) (st : Stream) (r : Nat) (v : Word) : (c.setSreg st r v).flight = c.flight := by
  unfold Core.setSreg; split <;> [rfl; cases st <;> rfl]
@[simp] theorem Core.setSreg_resume (c : Core) (st : Stream) (r : Nat) (v : Word) : (c.setSreg st r v).resume = c.resume := by
  unfold Core.setSreg; split <;> [rfl; cases st <;> rfl]
@[simp] theorem Core.setSreg_nestNo (c : Core) (st : Stream) (r : Nat) (v : Word) : (c.setSreg st r v).nestNo = c.nestNo := by
  unfold Core.setSreg; split <;> [rfl; cases st <;> rfl]
@[simp] theorem Core.setSreg_doneClk (c : Core) (st : Stream) (r : Nat) (v : Word) : (c.setSreg st r v).doneClk = c.doneClk := by
  unfold Core.setSreg; split <;> [rfl; cases st <;> rfl]
@[simp] theorem Core.setSreg_horizonHeld (c : Core) (st : Stream) (r : Nat) (v : Word) : (c.setSreg st r v).horizonHeld = c.horizonHeld := by
  unfold Core.setSreg; split <;> [rfl; cases st <;> rfl]
@[simp] theorem Core.setSreg_cycRem (c : Core) (st : Stream) (r : Nat) (v : Word) : (c.setSreg st r v).cycRem = c.cycRem := by
  unfold Core.setSreg; split <;> [rfl; cases st <;> rfl]
@[simp] theorem Core.setSreg_uiClk (c : Core) (st : Stream) (r : Nat) (v : Word) : (c.setSreg st r v).uiClk = c.uiClk := by
  unfold Core.setSreg; split <;> [rfl; cases st <;> rfl]
@[simp] theorem Core.setSreg_invWait (c : Core) (st : Stream) (r : Nat) (v : Word) : (c.setSreg st r v).invWait = c.invWait := by
  unfold Core.setSreg; split <;> [rfl; cases st <;> rfl]
@[simp] theorem Core.setSreg_joinWait (c : Core) (st : Stream) (r : Nat) (v : Word) : (c.setSreg st r v).joinWait = c.joinWait := by
  unfold Core.setSreg; split <;> [rfl; cases st <;> rfl]
@[simp] theorem Core.setSreg_handlerJoined (c : Core) (st : Stream) (r : Nat) (v : Word) : (c.setSreg st r v).handlerJoined = c.handlerJoined := by
  unfold Core.setSreg; split <;> [rfl; cases st <;> rfl]
@[simp] theorem Core.setSreg_areaSize (c : Core) (st : Stream) (r : Nat) (v : Word) : (c.setSreg st r v).areaSize = c.areaSize := by
  unfold Core.setSreg; split <;> [rfl; cases st <;> rfl]

/-- S0 reads zero (R90). -/
@[simp] theorem Core.sreg_zero (c : Core) (st : Stream) : c.sreg st 0 = 0 := rfl

/-- A write to S0 is discarded (R90). -/
@[simp] theorem Core.setSreg_zero (c : Core) (st : Stream) (v : Word) : c.setSreg st 0 v = c := rfl

@[simp] theorem Core.sreg_setSreg_other (c : Core) (st : Stream) (v : Word) {r q : Nat} (h : q ≠ r) :
    (c.setSreg st r v).sreg st q = c.sreg st q := by
  unfold Core.setSreg Core.sreg
  by_cases hr : r = 0
  · simp [hr]
  · cases st <;> simp [hr, h]

theorem Core.sreg_setSreg_self (c : Core) (st : Stream) (v : Word) {r lo : Nat} (hr : r ≠ 0)
    (hC : SMap.rising lo c.regC = true) (hA : SMap.rising lo c.regA = true) : (c.setSreg st r v).sreg st r = v := by
  unfold Core.setSreg Core.sreg
  cases st <;> simp [hr, SMap.get_set_self _ _ _ r hC, SMap.get_set_self _ _ _ r hA]

/-! Streams. -/

@[simp] theorem Core.setStream_st (c : Core) (st : Stream) (x : StreamSt) : (c.setStream st x).st = c.st := by
  cases st <;> rfl
@[simp] theorem Core.setStream_sup (c : Core) (st : Stream) (x : StreamSt) : (c.setStream st x).sup = c.sup := by
  cases st <;> rfl
@[simp] theorem Core.setStream_jobSup (c : Core) (st : Stream) (x : StreamSt) : (c.setStream st x).jobSup = c.jobSup := by
  cases st <;> rfl
@[simp] theorem Core.setStream_sec (c : Core) (st : Stream) (x : StreamSt) : (c.setStream st x).sec = c.sec := by
  cases st <;> rfl
@[simp] theorem Core.setStream_slot (c : Core) (st : Stream) (x : StreamSt) : (c.setStream st x).slot = c.slot := by
  cases st <;> rfl
@[simp] theorem Core.setStream_node (c : Core) (st : Stream) (x : StreamSt) : (c.setStream st x).node = c.node := by
  cases st <;> rfl
@[simp] theorem Core.setStream_owner (c : Core) (st : Stream) (x : StreamSt) : (c.setStream st x).owner = c.owner := by
  cases st <;> rfl
@[simp] theorem Core.setStream_regC (c : Core) (st : Stream) (x : StreamSt) : (c.setStream st x).regC = c.regC := by
  cases st <;> rfl
@[simp] theorem Core.setStream_regA (c : Core) (st : Stream) (x : StreamSt) : (c.setStream st x).regA = c.regA := by
  cases st <;> rfl
@[simp] theorem Core.setStream_shadow (c : Core) (st : Stream) (x : StreamSt) : (c.setStream st x).shadow = c.shadow := by
  cases st <;> rfl
@[simp] theorem Core.setStream_trapBank (c : Core) (st : Stream) (x : StreamSt) : (c.setStream st x).trapBank = c.trapBank := by
  cases st <;> rfl
@[simp] theorem Core.setStream_cnt (c : Core) (st : Stream) (x : StreamSt) : (c.setStream st x).cnt = c.cnt := by
  cases st <;> rfl
@[simp] theorem Core.setStream_cntClk (c : Core) (st : Stream) (x : StreamSt) : (c.setStream st x).cntClk = c.cntClk := by
  cases st <;> rfl
@[simp] theorem Core.setStream_rdv (c : Core) (st : Stream) (x : StreamSt) : (c.setStream st x).rdv = c.rdv := by
  cases st <;> rfl
@[simp] theorem Core.setStream_q (c : Core) (st : Stream) (x : StreamSt) : (c.setStream st x).q = c.q := by
  cases st <;> rfl
@[simp] theorem Core.setStream_eq (c : Core) (st : Stream) (x : StreamSt) : (c.setStream st x).eq = c.eq := by
  cases st <;> rfl
@[simp] theorem Core.setStream_run (c : Core) (st : Stream) (x : StreamSt) : (c.setStream st x).run = c.run := by
  cases st <;> rfl
@[simp] theorem Core.setStream_staging (c : Core) (st : Stream) (x : StreamSt) : (c.setStream st x).staging = c.staging := by
  cases st <;> rfl
@[simp] theorem Core.setStream_cr (c : Core) (st : Stream) (x : StreamSt) : (c.setStream st x).cr = c.cr := by
  cases st <;> rfl
@[simp] theorem Core.setStream_uiTag (c : Core) (st : Stream) (x : StreamSt) : (c.setStream st x).uiTag = c.uiTag := by
  cases st <;> rfl
@[simp] theorem Core.setStream_genC (c : Core) (st : Stream) (x : StreamSt) : (c.setStream st x).genC = c.genC := by
  cases st <;> rfl
@[simp] theorem Core.setStream_genA (c : Core) (st : Stream) (x : StreamSt) : (c.setStream st x).genA = c.genA := by
  cases st <;> rfl
@[simp] theorem Core.setStream_genV (c : Core) (st : Stream) (x : StreamSt) : (c.setStream st x).genV = c.genV := by
  cases st <;> rfl
@[simp] theorem Core.setStream_icache (c : Core) (st : Stream) (x : StreamSt) : (c.setStream st x).icache = c.icache := by
  cases st <;> rfl
@[simp] theorem Core.setStream_k (c : Core) (st : Stream) (x : StreamSt) : (c.setStream st x).k = c.k := by
  cases st <;> rfl
@[simp] theorem Core.setStream_v (c : Core) (st : Stream) (x : StreamSt) : (c.setStream st x).v = c.v := by
  cases st <;> rfl
@[simp] theorem Core.setStream_p (c : Core) (st : Stream) (x : StreamSt) : (c.setStream st x).p = c.p := by
  cases st <;> rfl
@[simp] theorem Core.setStream_vw (c : Core) (st : Stream) (x : StreamSt) : (c.setStream st x).vw = c.vw := by
  cases st <;> rfl
@[simp] theorem Core.setStream_vmap (c : Core) (st : Stream) (x : StreamSt) : (c.setStream st x).vmap = c.vmap := by
  cases st <;> rfl
@[simp] theorem Core.setStream_slots (c : Core) (st : Stream) (x : StreamSt) : (c.setStream st x).slots = c.slots := by
  cases st <;> rfl
@[simp] theorem Core.setStream_plane (c : Core) (st : Stream) (x : StreamSt) : (c.setStream st x).plane = c.plane := by
  cases st <;> rfl
@[simp] theorem Core.setStream_shadowPlane (c : Core) (st : Stream) (x : StreamSt) : (c.setStream st x).shadowPlane = c.shadowPlane := by
  cases st <;> rfl
@[simp] theorem Core.setStream_nest (c : Core) (st : Stream) (x : StreamSt) : (c.setStream st x).nest = c.nest := by
  cases st <;> rfl
@[simp] theorem Core.setStream_nestPc (c : Core) (st : Stream) (x : StreamSt) : (c.setStream st x).nestPc = c.nestPc := by
  cases st <;> rfl
@[simp] theorem Core.setStream_wbuf (c : Core) (st : Stream) (x : StreamSt) : (c.setStream st x).wbuf = c.wbuf := by
  cases st <;> rfl
@[simp] theorem Core.setStream_cell (c : Core) (st : Stream) (x : StreamSt) : (c.setStream st x).cell = c.cell := by
  cases st <;> rfl
@[simp] theorem Core.setStream_heap (c : Core) (st : Stream) (x : StreamSt) : (c.setStream st x).heap = c.heap := by
  cases st <;> rfl
@[simp] theorem Core.setStream_drain (c : Core) (st : Stream) (x : StreamSt) : (c.setStream st x).drain = c.drain := by
  cases st <;> rfl
@[simp] theorem Core.setStream_bfmt (c : Core) (st : Stream) (x : StreamSt) : (c.setStream st x).bfmt = c.bfmt := by
  cases st <;> rfl
@[simp] theorem Core.setStream_smp (c : Core) (st : Stream) (x : StreamSt) : (c.setStream st x).smp = c.smp := by
  cases st <;> rfl
@[simp] theorem Core.setStream_replayC (c : Core) (st : Stream) (x : StreamSt) : (c.setStream st x).replayC = c.replayC := by
  cases st <;> rfl
@[simp] theorem Core.setStream_replayA (c : Core) (st : Stream) (x : StreamSt) : (c.setStream st x).replayA = c.replayA := by
  cases st <;> rfl
@[simp] theorem Core.setStream_held (c : Core) (st : Stream) (x : StreamSt) : (c.setStream st x).held = c.held := by
  cases st <;> rfl
@[simp] theorem Core.setStream_barNames (c : Core) (st : Stream) (x : StreamSt) : (c.setStream st x).barNames = c.barNames := by
  cases st <;> rfl
@[simp] theorem Core.setStream_failing (c : Core) (st : Stream) (x : StreamSt) : (c.setStream st x).failing = c.failing := by
  cases st <;> rfl
@[simp] theorem Core.setStream_pend (c : Core) (st : Stream) (x : StreamSt) : (c.setStream st x).pend = c.pend := by
  cases st <;> rfl
@[simp] theorem Core.setStream_horizon (c : Core) (st : Stream) (x : StreamSt) : (c.setStream st x).horizon = c.horizon := by
  cases st <;> rfl
@[simp] theorem Core.setStream_lastCause (c : Core) (st : Stream) (x : StreamSt) : (c.setStream st x).lastCause = c.lastCause := by
  cases st <;> rfl
@[simp] theorem Core.setStream_enRem (c : Core) (st : Stream) (x : StreamSt) : (c.setStream st x).enRem = c.enRem := by
  cases st <;> rfl
@[simp] theorem Core.setStream_phase (c : Core) (st : Stream) (x : StreamSt) : (c.setStream st x).phase = c.phase := by
  cases st <;> rfl
@[simp] theorem Core.setStream_arrived (c : Core) (st : Stream) (x : StreamSt) : (c.setStream st x).arrived = c.arrived := by
  cases st <;> rfl
@[simp] theorem Core.setStream_bspClk (c : Core) (st : Stream) (x : StreamSt) : (c.setStream st x).bspClk = c.bspClk := by
  cases st <;> rfl
@[simp] theorem Core.setStream_htree (c : Core) (st : Stream) (x : StreamSt) : (c.setStream st x).htree = c.htree := by
  cases st <;> rfl
@[simp] theorem Core.setStream_tlb (c : Core) (st : Stream) (x : StreamSt) : (c.setStream st x).tlb = c.tlb := by
  cases st <;> rfl
@[simp] theorem Core.setStream_tlbDue (c : Core) (st : Stream) (x : StreamSt) : (c.setStream st x).tlbDue = c.tlbDue := by
  cases st <;> rfl
@[simp] theorem Core.setStream_clb (c : Core) (st : Stream) (x : StreamSt) : (c.setStream st x).clb = c.clb := by
  cases st <;> rfl
@[simp] theorem Core.setStream_acq (c : Core) (st : Stream) (x : StreamSt) : (c.setStream st x).acq = c.acq := by
  cases st <;> rfl
@[simp] theorem Core.setStream_acqFloor (c : Core) (st : Stream) (x : StreamSt) : (c.setStream st x).acqFloor = c.acqFloor := by
  cases st <;> rfl
@[simp] theorem Core.setStream_spec (c : Core) (st : Stream) (x : StreamSt) : (c.setStream st x).spec = c.spec := by
  cases st <;> rfl
@[simp] theorem Core.setStream_elog (c : Core) (st : Stream) (x : StreamSt) : (c.setStream st x).elog = c.elog := by
  cases st <;> rfl
@[simp] theorem Core.setStream_einj (c : Core) (st : Stream) (x : StreamSt) : (c.setStream st x).einj = c.einj := by
  cases st <;> rfl
@[simp] theorem Core.setStream_step (c : Core) (st : Stream) (x : StreamSt) : (c.setStream st x).step = c.step := by
  cases st <;> rfl
@[simp] theorem Core.setStream_rhist (c : Core) (st : Stream) (x : StreamSt) : (c.setStream st x).rhist = c.rhist := by
  cases st <;> rfl
@[simp] theorem Core.setStream_flight (c : Core) (st : Stream) (x : StreamSt) : (c.setStream st x).flight = c.flight := by
  cases st <;> rfl
@[simp] theorem Core.setStream_resume (c : Core) (st : Stream) (x : StreamSt) : (c.setStream st x).resume = c.resume := by
  cases st <;> rfl
@[simp] theorem Core.setStream_nestNo (c : Core) (st : Stream) (x : StreamSt) : (c.setStream st x).nestNo = c.nestNo := by
  cases st <;> rfl
@[simp] theorem Core.setStream_doneClk (c : Core) (st : Stream) (x : StreamSt) : (c.setStream st x).doneClk = c.doneClk := by
  cases st <;> rfl
@[simp] theorem Core.setStream_horizonHeld (c : Core) (st : Stream) (x : StreamSt) : (c.setStream st x).horizonHeld = c.horizonHeld := by
  cases st <;> rfl
@[simp] theorem Core.setStream_cycRem (c : Core) (st : Stream) (x : StreamSt) : (c.setStream st x).cycRem = c.cycRem := by
  cases st <;> rfl
@[simp] theorem Core.setStream_uiClk (c : Core) (st : Stream) (x : StreamSt) : (c.setStream st x).uiClk = c.uiClk := by
  cases st <;> rfl
@[simp] theorem Core.setStream_invWait (c : Core) (st : Stream) (x : StreamSt) : (c.setStream st x).invWait = c.invWait := by
  cases st <;> rfl
@[simp] theorem Core.setStream_joinWait (c : Core) (st : Stream) (x : StreamSt) : (c.setStream st x).joinWait = c.joinWait := by
  cases st <;> rfl
@[simp] theorem Core.setStream_handlerJoined (c : Core) (st : Stream) (x : StreamSt) : (c.setStream st x).handlerJoined = c.handlerJoined := by
  cases st <;> rfl
@[simp] theorem Core.setStream_areaSize (c : Core) (st : Stream) (x : StreamSt) : (c.setStream st x).areaSize = c.areaSize := by
  cases st <;> rfl

@[simp] theorem Core.stream_setStream_self (c : Core) (st : Stream) (x : StreamSt) : (c.setStream st x).stream st = x := by
  cases st <;> rfl

@[simp] theorem Core.stream_setStream_other (c : Core) {st u : Stream} (x : StreamSt) (h : u ≠ st) :
    (c.setStream st x).stream u = c.stream u := by
  cases st <;> cases u <;> first | rfl | exact absurd rfl h

@[simp] theorem Core.setStream_setStream (c : Core) (st : Stream) (x y : StreamSt) :
    (c.setStream st x).setStream st y = c.setStream st y := by
  cases st <;> rfl

@[simp] theorem Core.stream_setSreg (c : Core) (st u : Stream) (r : Nat) (v : Word) :
    (c.setSreg st r v).stream u = c.stream u := by cases u <;> simp [Core.stream]

@[simp] theorem Core.stream_setCreg (c : Core) (u : Stream) (n : Nat) (v : Word) :
    (c.setCreg n v).stream u = c.stream u := by cases u <;> rfl

@[simp] theorem Core.sreg_setStream (c : Core) (st u : Stream) (x : StreamSt) (r : Nat) :
    (c.setStream st x).sreg u r = c.sreg u r := by cases st <;> rfl

@[simp] theorem Core.creg_setStream (c : Core) (st : Stream) (x : StreamSt) (n : Nat) :
    (c.setStream st x).creg n = c.creg n := by cases st <;> rfl

@[simp] theorem Core.creg_setSreg (c : Core) (st : Stream) (r n : Nat) (v : Word) :
    (c.setSreg st r v).creg n = c.creg n := by simp [Core.creg]

/-! Queues. -/

@[simp] theorem Core.setQueue_st (c : Core) (n : Nat) (l : List QEnt) : (c.setQueue n l).st = c.st := (rfl)
@[simp] theorem Core.setQueue_sup (c : Core) (n : Nat) (l : List QEnt) : (c.setQueue n l).sup = c.sup := rfl
@[simp] theorem Core.setQueue_jobSup (c : Core) (n : Nat) (l : List QEnt) : (c.setQueue n l).jobSup = c.jobSup := rfl
@[simp] theorem Core.setQueue_sec (c : Core) (n : Nat) (l : List QEnt) : (c.setQueue n l).sec = c.sec := rfl
@[simp] theorem Core.setQueue_slot (c : Core) (n : Nat) (l : List QEnt) : (c.setQueue n l).slot = c.slot := rfl
@[simp] theorem Core.setQueue_node (c : Core) (n : Nat) (l : List QEnt) : (c.setQueue n l).node = c.node := rfl
@[simp] theorem Core.setQueue_owner (c : Core) (n : Nat) (l : List QEnt) : (c.setQueue n l).owner = c.owner := rfl
@[simp] theorem Core.setQueue_sC (c : Core) (n : Nat) (l : List QEnt) : (c.setQueue n l).sC = c.sC := rfl
@[simp] theorem Core.setQueue_sA (c : Core) (n : Nat) (l : List QEnt) : (c.setQueue n l).sA = c.sA := rfl
@[simp] theorem Core.setQueue_sV (c : Core) (n : Nat) (l : List QEnt) : (c.setQueue n l).sV = c.sV := rfl
@[simp] theorem Core.setQueue_sM (c : Core) (n : Nat) (l : List QEnt) : (c.setQueue n l).sM = c.sM := rfl
@[simp] theorem Core.setQueue_regC (c : Core) (n : Nat) (l : List QEnt) : (c.setQueue n l).regC = c.regC := rfl
@[simp] theorem Core.setQueue_regA (c : Core) (n : Nat) (l : List QEnt) : (c.setQueue n l).regA = c.regA := rfl
@[simp] theorem Core.setQueue_shadow (c : Core) (n : Nat) (l : List QEnt) : (c.setQueue n l).shadow = c.shadow := rfl
@[simp] theorem Core.setQueue_trapBank (c : Core) (n : Nat) (l : List QEnt) : (c.setQueue n l).trapBank = c.trapBank := rfl
@[simp] theorem Core.setQueue_cnt (c : Core) (n : Nat) (l : List QEnt) : (c.setQueue n l).cnt = c.cnt := rfl
@[simp] theorem Core.setQueue_cntClk (c : Core) (n : Nat) (l : List QEnt) : (c.setQueue n l).cntClk = c.cntClk := rfl
@[simp] theorem Core.setQueue_rdv (c : Core) (n : Nat) (l : List QEnt) : (c.setQueue n l).rdv = c.rdv := rfl
@[simp] theorem Core.setQueue_eq (c : Core) (n : Nat) (l : List QEnt) : (c.setQueue n l).eq = c.eq := rfl
@[simp] theorem Core.setQueue_run (c : Core) (n : Nat) (l : List QEnt) : (c.setQueue n l).run = c.run := rfl
@[simp] theorem Core.setQueue_staging (c : Core) (n : Nat) (l : List QEnt) : (c.setQueue n l).staging = c.staging := rfl
@[simp] theorem Core.setQueue_cr (c : Core) (n : Nat) (l : List QEnt) : (c.setQueue n l).cr = c.cr := rfl
@[simp] theorem Core.setQueue_uiTag (c : Core) (n : Nat) (l : List QEnt) : (c.setQueue n l).uiTag = c.uiTag := rfl
@[simp] theorem Core.setQueue_genC (c : Core) (n : Nat) (l : List QEnt) : (c.setQueue n l).genC = c.genC := rfl
@[simp] theorem Core.setQueue_genA (c : Core) (n : Nat) (l : List QEnt) : (c.setQueue n l).genA = c.genA := rfl
@[simp] theorem Core.setQueue_genV (c : Core) (n : Nat) (l : List QEnt) : (c.setQueue n l).genV = c.genV := rfl
@[simp] theorem Core.setQueue_icache (c : Core) (n : Nat) (l : List QEnt) : (c.setQueue n l).icache = c.icache := rfl
@[simp] theorem Core.setQueue_k (c : Core) (n : Nat) (l : List QEnt) : (c.setQueue n l).k = c.k := rfl
@[simp] theorem Core.setQueue_v (c : Core) (n : Nat) (l : List QEnt) : (c.setQueue n l).v = c.v := rfl
@[simp] theorem Core.setQueue_p (c : Core) (n : Nat) (l : List QEnt) : (c.setQueue n l).p = c.p := rfl
@[simp] theorem Core.setQueue_vw (c : Core) (n : Nat) (l : List QEnt) : (c.setQueue n l).vw = c.vw := rfl
@[simp] theorem Core.setQueue_vmap (c : Core) (n : Nat) (l : List QEnt) : (c.setQueue n l).vmap = c.vmap := rfl
@[simp] theorem Core.setQueue_slots (c : Core) (n : Nat) (l : List QEnt) : (c.setQueue n l).slots = c.slots := rfl
@[simp] theorem Core.setQueue_plane (c : Core) (n : Nat) (l : List QEnt) : (c.setQueue n l).plane = c.plane := rfl
@[simp] theorem Core.setQueue_shadowPlane (c : Core) (n : Nat) (l : List QEnt) : (c.setQueue n l).shadowPlane = c.shadowPlane := rfl
@[simp] theorem Core.setQueue_nest (c : Core) (n : Nat) (l : List QEnt) : (c.setQueue n l).nest = c.nest := rfl
@[simp] theorem Core.setQueue_nestPc (c : Core) (n : Nat) (l : List QEnt) : (c.setQueue n l).nestPc = c.nestPc := rfl
@[simp] theorem Core.setQueue_wbuf (c : Core) (n : Nat) (l : List QEnt) : (c.setQueue n l).wbuf = c.wbuf := rfl
@[simp] theorem Core.setQueue_cell (c : Core) (n : Nat) (l : List QEnt) : (c.setQueue n l).cell = c.cell := rfl
@[simp] theorem Core.setQueue_heap (c : Core) (n : Nat) (l : List QEnt) : (c.setQueue n l).heap = c.heap := rfl
@[simp] theorem Core.setQueue_drain (c : Core) (n : Nat) (l : List QEnt) : (c.setQueue n l).drain = c.drain := rfl
@[simp] theorem Core.setQueue_bfmt (c : Core) (n : Nat) (l : List QEnt) : (c.setQueue n l).bfmt = c.bfmt := rfl
@[simp] theorem Core.setQueue_smp (c : Core) (n : Nat) (l : List QEnt) : (c.setQueue n l).smp = c.smp := rfl
@[simp] theorem Core.setQueue_replayC (c : Core) (n : Nat) (l : List QEnt) : (c.setQueue n l).replayC = c.replayC := rfl
@[simp] theorem Core.setQueue_replayA (c : Core) (n : Nat) (l : List QEnt) : (c.setQueue n l).replayA = c.replayA := rfl
@[simp] theorem Core.setQueue_held (c : Core) (n : Nat) (l : List QEnt) : (c.setQueue n l).held = c.held := rfl
@[simp] theorem Core.setQueue_barNames (c : Core) (n : Nat) (l : List QEnt) : (c.setQueue n l).barNames = c.barNames := rfl
@[simp] theorem Core.setQueue_failing (c : Core) (n : Nat) (l : List QEnt) : (c.setQueue n l).failing = c.failing := rfl
@[simp] theorem Core.setQueue_pend (c : Core) (n : Nat) (l : List QEnt) : (c.setQueue n l).pend = c.pend := rfl
@[simp] theorem Core.setQueue_horizon (c : Core) (n : Nat) (l : List QEnt) : (c.setQueue n l).horizon = c.horizon := rfl
@[simp] theorem Core.setQueue_lastCause (c : Core) (n : Nat) (l : List QEnt) : (c.setQueue n l).lastCause = c.lastCause := rfl
@[simp] theorem Core.setQueue_enRem (c : Core) (n : Nat) (l : List QEnt) : (c.setQueue n l).enRem = c.enRem := rfl
@[simp] theorem Core.setQueue_phase (c : Core) (n : Nat) (l : List QEnt) : (c.setQueue n l).phase = c.phase := rfl
@[simp] theorem Core.setQueue_arrived (c : Core) (n : Nat) (l : List QEnt) : (c.setQueue n l).arrived = c.arrived := rfl
@[simp] theorem Core.setQueue_bspClk (c : Core) (n : Nat) (l : List QEnt) : (c.setQueue n l).bspClk = c.bspClk := rfl
@[simp] theorem Core.setQueue_htree (c : Core) (n : Nat) (l : List QEnt) : (c.setQueue n l).htree = c.htree := rfl
@[simp] theorem Core.setQueue_tlb (c : Core) (n : Nat) (l : List QEnt) : (c.setQueue n l).tlb = c.tlb := rfl
@[simp] theorem Core.setQueue_tlbDue (c : Core) (n : Nat) (l : List QEnt) : (c.setQueue n l).tlbDue = c.tlbDue := rfl
@[simp] theorem Core.setQueue_clb (c : Core) (n : Nat) (l : List QEnt) : (c.setQueue n l).clb = c.clb := rfl
@[simp] theorem Core.setQueue_acq (c : Core) (n : Nat) (l : List QEnt) : (c.setQueue n l).acq = c.acq := rfl
@[simp] theorem Core.setQueue_acqFloor (c : Core) (n : Nat) (l : List QEnt) : (c.setQueue n l).acqFloor = c.acqFloor := rfl
@[simp] theorem Core.setQueue_spec (c : Core) (n : Nat) (l : List QEnt) : (c.setQueue n l).spec = c.spec := rfl
@[simp] theorem Core.setQueue_elog (c : Core) (n : Nat) (l : List QEnt) : (c.setQueue n l).elog = c.elog := rfl
@[simp] theorem Core.setQueue_einj (c : Core) (n : Nat) (l : List QEnt) : (c.setQueue n l).einj = c.einj := rfl
@[simp] theorem Core.setQueue_step (c : Core) (n : Nat) (l : List QEnt) : (c.setQueue n l).step = c.step := rfl
@[simp] theorem Core.setQueue_rhist (c : Core) (n : Nat) (l : List QEnt) : (c.setQueue n l).rhist = c.rhist := rfl
@[simp] theorem Core.setQueue_flight (c : Core) (n : Nat) (l : List QEnt) : (c.setQueue n l).flight = c.flight := rfl
@[simp] theorem Core.setQueue_resume (c : Core) (n : Nat) (l : List QEnt) : (c.setQueue n l).resume = c.resume := rfl
@[simp] theorem Core.setQueue_nestNo (c : Core) (n : Nat) (l : List QEnt) : (c.setQueue n l).nestNo = c.nestNo := rfl
@[simp] theorem Core.setQueue_doneClk (c : Core) (n : Nat) (l : List QEnt) : (c.setQueue n l).doneClk = c.doneClk := rfl
@[simp] theorem Core.setQueue_horizonHeld (c : Core) (n : Nat) (l : List QEnt) : (c.setQueue n l).horizonHeld = c.horizonHeld := rfl
@[simp] theorem Core.setQueue_cycRem (c : Core) (n : Nat) (l : List QEnt) : (c.setQueue n l).cycRem = c.cycRem := rfl
@[simp] theorem Core.setQueue_uiClk (c : Core) (n : Nat) (l : List QEnt) : (c.setQueue n l).uiClk = c.uiClk := rfl
@[simp] theorem Core.setQueue_invWait (c : Core) (n : Nat) (l : List QEnt) : (c.setQueue n l).invWait = c.invWait := rfl
@[simp] theorem Core.setQueue_joinWait (c : Core) (n : Nat) (l : List QEnt) : (c.setQueue n l).joinWait = c.joinWait := rfl
@[simp] theorem Core.setQueue_handlerJoined (c : Core) (n : Nat) (l : List QEnt) : (c.setQueue n l).handlerJoined = c.handlerJoined := rfl
@[simp] theorem Core.setQueue_areaSize (c : Core) (n : Nat) (l : List QEnt) : (c.setQueue n l).areaSize = c.areaSize := rfl

@[simp] theorem Core.queue_setQueue_other (c : Core) (l : List QEnt) {n m : Nat} (h : m ≠ n) :
    (c.setQueue n l).queue m = c.queue m := SMap.get_set_other _ _ _ h

/-! Knowledge and events. -/

@[simp] theorem State.learn_cores (s : State) (a : Nat) (t : Clk) : (s.learn a t).cores = s.cores := rfl
@[simp] theorem State.learn_core (s : State) (a : Nat) (t : Clk) (k : Nat) : (s.learn a t).core k = s.core k := rfl
@[simp] theorem State.learn_mem (s : State) (a : Nat) (t : Clk) : (s.learn a t).mem = s.mem := rfl
@[simp] theorem State.learn_hist (s : State) (a : Nat) (t : Clk) : (s.learn a t).hist = s.hist := rfl
@[simp] theorem State.learn_curCore (s : State) (a : Nat) (t : Clk) : (s.learn a t).curCore = s.curCore := rfl
@[simp] theorem State.learn_curStream (s : State) (a : Nat) (t : Clk) : (s.learn a t).curStream = s.curStream := rfl

end Sys2Proof.Machine
end

