-- ==== Sys2Proof/Laws/Op.lean ====
section
/-! SUPPORT. How the shared operations run: what each answers and the state it leaves, so that a word's meaning is read
off without unfolding the monad. -/

namespace Sys2Proof.Machine

variable {α β : Type}

@[simp] theorem Op.run_bind (x : Op α) (f : α → Op β) (s : State) :
    (x >>= f).run s = (match x.run s with | .ok (a, t) => (f a).run t | .error e => .error e) := by
  show (StateT.bind x f) s = _
  unfold StateT.bind
  show Except.bind (x s) _ = _
  show _ = (match x s with | .ok (a, t) => f a t | .error e => .error e)
  cases x s <;> rfl

@[simp] theorem Op.pure_ok (a : α) : (pure a : Except Stop α) = .ok a := rfl
@[simp] theorem Op.throw_error (e : Stop) : (throw e : Except Stop α) = .error e := rfl
@[simp] theorem Op.run_pure (a : α) (s : State) : (pure a : Op α).run s = .ok (a, s) := rfl
@[simp] theorem Op.run_get (s : State) : (get : Op State).run s = .ok (s, s) := rfl
@[simp] theorem Op.run_set (t s : State) : (set t : Op PUnit).run s = .ok ((), t) := rfl
@[simp] theorem Op.run_modify (f : State → State) (s : State) : (modify f : Op PUnit).run s = .ok ((), f s) := rfl
@[simp] theorem Op.run_throw (e : Stop) (s : State) : (throw e : Op α).run s = .error e := rfl

/-- What the first part of an operation does, the second goes on from. -/
theorem Op.run_bind_ok {x : Op α} {f : α → Op β} {s t : State} {a : α} (h : x.run s = .ok (a, t)) :
    (x >>= f).run s = (f a).run t := by rw [Op.run_bind, h]

theorem Op.run_bind_error {x : Op α} {f : α → Op β} {s : State} {e : Stop} (h : x.run s = .error e) :
    (x >>= f).run s = .error e := by rw [Op.run_bind, h]

@[simp] theorem here_run (s : State) : here.run s = .ok (s.me, s) := rfl
@[simp] theorem putHere_run (c : Core) (s : State) : (putHere c).run s = .ok ((), s.withMe c) := rfl
@[simp] theorem modHere_run (f : Core → Core) (s : State) : (modHere f).run s = .ok ((), s.withMe (f s.me)) := rfl
@[simp] theorem modCore_run (k : Nat) (f : Core → Core) (s : State) :
    (modCore k f).run s = .ok ((), s.setCore k (f (s.core k))) := rfl
@[simp] theorem coreId_run (s : State) : coreId.run s = .ok (s.curCore, s) := rfl
@[simp] theorem streamOf_run (s : State) : streamOf.run s = .ok (s.curStream, s) := rfl
@[simp] theorem thisStream_run (s : State) :
    thisStream.run s = .ok (s.strm, s) := rfl
@[simp] theorem modStream_run (f : StreamSt → StreamSt) (s : State) : (modStream f).run s = .ok ((), s.modStrm f) := rfl
@[simp] theorem thisAgent_run (s : State) : thisAgent.run s = .ok (s.agent, s) := rfl
@[simp] theorem tokenHere_run (s : State) :
    tokenHere.run s = .ok (s.token (s.agent), s) := rfl
@[simp] theorem learnHere_run (t : Clk) (s : State) :
    (learnHere t).run s = .ok ((), s.learn (s.agent) t) := rfl
@[simp] theorem nextSeq_run (s : State) : nextSeq.run s = .ok (s.seq + 1, { s with seq := s.seq + 1 }) := rfl
@[simp] theorem draw_run (n : Nat) (s : State) :
    (draw n).run s = .ok (Config.pick s.draws % n, { s with draws := s.draws + 1 }) := rfl
@[simp] theorem block_run (s : State) : (block : Op α).run s = .error .block := rfl
@[simp] theorem hold_run (s : State) : (hold : Op α).run s = .error (.hold s) := rfl
@[simp] theorem fault_run (code : Nat) (s : State) :
    (fault code : Op α).run s = .error (.fault (.ofStream s.curStream code 0 0)) := rfl
@[simp] theorem faultAt_run (code : Nat) (a x : Word) (s : State) :
    (faultAt code a x : Op α).run s = .error (.fault (.ofStream s.curStream code a x)) := rfl
@[simp] theorem guardBlock_run (c : Bool) (s : State) :
    (guardBlock c).run s = if c then .ok ((), s) else .error .block := by cases c <;> rfl
@[simp] theorem guardFault_run (c : Bool) (code : Nat) (s : State) :
    (guardFault c code).run s = if c then .ok ((), s) else .error (.fault (.ofStream s.curStream code 0 0)) := by
  cases c <;> rfl
@[simp] theorem guardAddr_run (c : Bool) (code a : Nat) (s : State) :
    (guardAddr c code a).run s =
      if c then .ok ((), s) else .error (.fault (.ofStream s.curStream code (BitVec.ofNat 64 a) 0)) := by
  cases c <;> rfl

@[simp] theorem rdS_run (r : Nat) (s : State) :
    (rdS r).run s = .ok (s.sreg r, s) := rfl

@[simp] theorem wrS_run (r : Nat) (v : Word) (s : State) : (wrS r v).run s = .ok ((), s.setS r v) := rfl
@[simp] theorem rdPair_run (r : Nat) (s : State) :
    (rdPair r).run s =
      .ok ((s.sreg r, s.sreg (r + 1)), s) := rfl

/-- Where no write of the registers that an access reads is open, the accessor is as they stand. -/
theorem accHere_run (s : State) (h : s.me.accSettled = true) :
    accHere.run s = .ok (s.me.acc s.curCore s.curStream, s) := by
  show (ite (s.me.accSettled = true) (pure _) _ : Op Acc).run s = _
  rw [if_pos h]
  rfl

@[simp] theorem drainOwn_run (mask : Nat) (s : State) :
    (drainOwn mask).run s = .ok ((), s.performOwn (s.agent) mask) := rfl

/-- A word that SPECVIOL guards goes on outside a speculative iteration, and where it has waited since before it. -/
theorem noSpec_run (s : State) :
    noSpec.run s = if s.me.inIter && !s.strm.blocked then .error (.fault (.ofStream s.curStream fcSPECVIOL 0 0))
      else .ok ((), s) := by
  unfold noSpec
  simp only [Op.run_bind, here_run, thisStream_run]
  split <;> rfl

end Sys2Proof.Machine
end

