-- ==== Sys2Proof/Laws/Here.lean ====
section
/-! SUPPORT. The executing core and stream after an update: what stays, and what reads as written. A core that does
something is not the one at reset, so it reads as it was put. -/

namespace Sys2Proof.Machine

@[simp] theorem State.withMe_mem (s : State) (c : Core) : (s.withMe c).mem = s.mem := rfl
@[simp] theorem State.modStrm_mem (s : State) (f : StreamSt → StreamSt) : (s.modStrm f).mem = s.mem := rfl
@[simp] theorem State.setS_mem (s : State) (d : Nat) (v : Word) : (s.setS d v).mem = s.mem := rfl
@[simp] theorem State.withMe_hist (s : State) (c : Core) : (s.withMe c).hist = s.hist := rfl
@[simp] theorem State.modStrm_hist (s : State) (f : StreamSt → StreamSt) : (s.modStrm f).hist = s.hist := rfl
@[simp] theorem State.setS_hist (s : State) (d : Nat) (v : Word) : (s.setS d v).hist = s.hist := rfl
@[simp] theorem State.withMe_clk (s : State) (c : Core) : (s.withMe c).clk = s.clk := rfl
@[simp] theorem State.modStrm_clk (s : State) (f : StreamSt → StreamSt) : (s.modStrm f).clk = s.clk := rfl
@[simp] theorem State.setS_clk (s : State) (d : Nat) (v : Word) : (s.setS d v).clk = s.clk := rfl
@[simp] theorem State.withMe_seq (s : State) (c : Core) : (s.withMe c).seq = s.seq := rfl
@[simp] theorem State.modStrm_seq (s : State) (f : StreamSt → StreamSt) : (s.modStrm f).seq = s.seq := rfl
@[simp] theorem State.setS_seq (s : State) (d : Nat) (v : Word) : (s.setS d v).seq = s.seq := rfl
@[simp] theorem State.learn_seq (s : State) (a : Nat) (t : Clk) : (s.learn a t).seq = s.seq := rfl
@[simp] theorem State.withMe_cmdId (s : State) (c : Core) : (s.withMe c).cmdId = s.cmdId := rfl
@[simp] theorem State.modStrm_cmdId (s : State) (f : StreamSt → StreamSt) : (s.modStrm f).cmdId = s.cmdId := rfl
@[simp] theorem State.setS_cmdId (s : State) (d : Nat) (v : Word) : (s.setS d v).cmdId = s.cmdId := rfl
@[simp] theorem State.learn_cmdId (s : State) (a : Nat) (t : Clk) : (s.learn a t).cmdId = s.cmdId := rfl
@[simp] theorem State.withMe_draws (s : State) (c : Core) : (s.withMe c).draws = s.draws := rfl
@[simp] theorem State.modStrm_draws (s : State) (f : StreamSt → StreamSt) : (s.modStrm f).draws = s.draws := rfl
@[simp] theorem State.setS_draws (s : State) (d : Nat) (v : Word) : (s.setS d v).draws = s.draws := rfl
@[simp] theorem State.learn_draws (s : State) (a : Nat) (t : Clk) : (s.learn a t).draws = s.draws := rfl
@[simp] theorem State.withMe_rel (s : State) (c : Core) : (s.withMe c).rel = s.rel := rfl
@[simp] theorem State.modStrm_rel (s : State) (f : StreamSt → StreamSt) : (s.modStrm f).rel = s.rel := rfl
@[simp] theorem State.setS_rel (s : State) (d : Nat) (v : Word) : (s.setS d v).rel = s.rel := rfl
@[simp] theorem State.learn_rel (s : State) (a : Nat) (t : Clk) : (s.learn a t).rel = s.rel := rfl
@[simp] theorem State.withMe_relClk (s : State) (c : Core) : (s.withMe c).relClk = s.relClk := rfl
@[simp] theorem State.modStrm_relClk (s : State) (f : StreamSt → StreamSt) : (s.modStrm f).relClk = s.relClk := rfl
@[simp] theorem State.setS_relClk (s : State) (d : Nat) (v : Word) : (s.setS d v).relClk = s.relClk := rfl
@[simp] theorem State.learn_relClk (s : State) (a : Nat) (t : Clk) : (s.learn a t).relClk = s.relClk := rfl
@[simp] theorem State.withMe_barClk (s : State) (c : Core) : (s.withMe c).barClk = s.barClk := rfl
@[simp] theorem State.modStrm_barClk (s : State) (f : StreamSt → StreamSt) : (s.modStrm f).barClk = s.barClk := rfl
@[simp] theorem State.setS_barClk (s : State) (d : Nat) (v : Word) : (s.setS d v).barClk = s.barClk := rfl
@[simp] theorem State.learn_barClk (s : State) (a : Nat) (t : Clk) : (s.learn a t).barClk = s.barClk := rfl
@[simp] theorem State.withMe_flips (s : State) (c : Core) : (s.withMe c).flips = s.flips := rfl
@[simp] theorem State.modStrm_flips (s : State) (f : StreamSt → StreamSt) : (s.modStrm f).flips = s.flips := rfl
@[simp] theorem State.setS_flips (s : State) (d : Nat) (v : Word) : (s.setS d v).flips = s.flips := rfl
@[simp] theorem State.learn_flips (s : State) (a : Nat) (t : Clk) : (s.learn a t).flips = s.flips := rfl
@[simp] theorem State.withMe_poison (s : State) (c : Core) : (s.withMe c).poison = s.poison := rfl
@[simp] theorem State.modStrm_poison (s : State) (f : StreamSt → StreamSt) : (s.modStrm f).poison = s.poison := rfl
@[simp] theorem State.setS_poison (s : State) (d : Nat) (v : Word) : (s.setS d v).poison = s.poison := rfl
@[simp] theorem State.learn_poison (s : State) (a : Nat) (t : Clk) : (s.learn a t).poison = s.poison := rfl
@[simp] theorem State.withMe_curCore (s : State) (c : Core) : (s.withMe c).curCore = s.curCore := rfl
@[simp] theorem State.modStrm_curCore (s : State) (f : StreamSt → StreamSt) : (s.modStrm f).curCore = s.curCore := rfl
@[simp] theorem State.setS_curCore (s : State) (d : Nat) (v : Word) : (s.setS d v).curCore = s.curCore := rfl
@[simp] theorem State.withMe_curStream (s : State) (c : Core) : (s.withMe c).curStream = s.curStream := rfl
@[simp] theorem State.modStrm_curStream (s : State) (f : StreamSt → StreamSt) : (s.modStrm f).curStream = s.curStream := rfl
@[simp] theorem State.setS_curStream (s : State) (d : Nat) (v : Word) : (s.setS d v).curStream = s.curStream := rfl
@[simp] theorem State.withMe_agenda (s : State) (c : Core) : (s.withMe c).agenda = s.agenda := rfl
@[simp] theorem State.modStrm_agenda (s : State) (f : StreamSt → StreamSt) : (s.modStrm f).agenda = s.agenda := rfl
@[simp] theorem State.setS_agenda (s : State) (d : Nat) (v : Word) : (s.setS d v).agenda = s.agenda := rfl
@[simp] theorem State.learn_agenda (s : State) (a : Nat) (t : Clk) : (s.learn a t).agenda = s.agenda := rfl
@[simp] theorem State.withMe_rr (s : State) (c : Core) : (s.withMe c).rr = s.rr := rfl
@[simp] theorem State.modStrm_rr (s : State) (f : StreamSt → StreamSt) : (s.modStrm f).rr = s.rr := rfl
@[simp] theorem State.setS_rr (s : State) (d : Nat) (v : Word) : (s.setS d v).rr = s.rr := rfl
@[simp] theorem State.learn_rr (s : State) (a : Nat) (t : Clk) : (s.learn a t).rr = s.rr := rfl
@[simp] theorem State.withMe_now (s : State) (c : Core) : (s.withMe c).now = s.now := rfl
@[simp] theorem State.modStrm_now (s : State) (f : StreamSt → StreamSt) : (s.modStrm f).now = s.now := rfl
@[simp] theorem State.setS_now (s : State) (d : Nat) (v : Word) : (s.setS d v).now = s.now := rfl
@[simp] theorem State.learn_now (s : State) (a : Nat) (t : Clk) : (s.learn a t).now = s.now := rfl
@[simp] theorem State.withMe_graphs (s : State) (c : Core) : (s.withMe c).graphs = s.graphs := rfl
@[simp] theorem State.modStrm_graphs (s : State) (f : StreamSt → StreamSt) : (s.modStrm f).graphs = s.graphs := rfl
@[simp] theorem State.setS_graphs (s : State) (d : Nat) (v : Word) : (s.setS d v).graphs = s.graphs := rfl
@[simp] theorem State.learn_graphs (s : State) (a : Nat) (t : Clk) : (s.learn a t).graphs = s.graphs := rfl
@[simp] theorem State.withMe_serial (s : State) (c : Core) : (s.withMe c).serial = s.serial := rfl
@[simp] theorem State.modStrm_serial (s : State) (f : StreamSt → StreamSt) : (s.modStrm f).serial = s.serial := rfl
@[simp] theorem State.setS_serial (s : State) (d : Nat) (v : Word) : (s.setS d v).serial = s.serial := rfl
@[simp] theorem State.learn_serial (s : State) (a : Nat) (t : Clk) : (s.learn a t).serial = s.serial := rfl
@[simp] theorem State.withMe_urgent (s : State) (c : Core) : (s.withMe c).urgent = s.urgent := rfl
@[simp] theorem State.modStrm_urgent (s : State) (f : StreamSt → StreamSt) : (s.modStrm f).urgent = s.urgent := rfl
@[simp] theorem State.setS_urgent (s : State) (d : Nat) (v : Word) : (s.setS d v).urgent = s.urgent := rfl
@[simp] theorem State.learn_urgent (s : State) (a : Nat) (t : Clk) : (s.learn a t).urgent = s.urgent := rfl
@[simp] theorem State.withMe_savePool (s : State) (c : Core) : (s.withMe c).savePool = s.savePool := rfl
@[simp] theorem State.modStrm_savePool (s : State) (f : StreamSt → StreamSt) : (s.modStrm f).savePool = s.savePool := rfl
@[simp] theorem State.setS_savePool (s : State) (d : Nat) (v : Word) : (s.setS d v).savePool = s.savePool := rfl
@[simp] theorem State.learn_savePool (s : State) (a : Nat) (t : Clk) : (s.learn a t).savePool = s.savePool := rfl
@[simp] theorem State.withMe_tvec (s : State) (c : Core) : (s.withMe c).tvec = s.tvec := rfl
@[simp] theorem State.modStrm_tvec (s : State) (f : StreamSt → StreamSt) : (s.modStrm f).tvec = s.tvec := rfl
@[simp] theorem State.setS_tvec (s : State) (d : Nat) (v : Word) : (s.setS d v).tvec = s.tvec := rfl
@[simp] theorem State.learn_tvec (s : State) (a : Nat) (t : Clk) : (s.learn a t).tvec = s.tvec := rfl
@[simp] theorem State.withMe_fabRoot (s : State) (c : Core) : (s.withMe c).fabRoot = s.fabRoot := rfl
@[simp] theorem State.modStrm_fabRoot (s : State) (f : StreamSt → StreamSt) : (s.modStrm f).fabRoot = s.fabRoot := rfl
@[simp] theorem State.setS_fabRoot (s : State) (d : Nat) (v : Word) : (s.setS d v).fabRoot = s.fabRoot := rfl
@[simp] theorem State.learn_fabRoot (s : State) (a : Nat) (t : Clk) : (s.learn a t).fabRoot = s.fabRoot := rfl
@[simp] theorem State.withMe_sel (s : State) (c : Core) : (s.withMe c).sel = s.sel := rfl
@[simp] theorem State.modStrm_sel (s : State) (f : StreamSt → StreamSt) : (s.modStrm f).sel = s.sel := rfl
@[simp] theorem State.setS_sel (s : State) (d : Nat) (v : Word) : (s.setS d v).sel = s.sel := rfl
@[simp] theorem State.learn_sel (s : State) (a : Nat) (t : Clk) : (s.learn a t).sel = s.sel := rfl
@[simp] theorem State.withMe_red (s : State) (c : Core) : (s.withMe c).red = s.red := rfl
@[simp] theorem State.modStrm_red (s : State) (f : StreamSt → StreamSt) : (s.modStrm f).red = s.red := rfl
@[simp] theorem State.setS_red (s : State) (d : Nat) (v : Word) : (s.setS d v).red = s.red := rfl
@[simp] theorem State.learn_red (s : State) (a : Nat) (t : Clk) : (s.learn a t).red = s.red := rfl
@[simp] theorem State.withMe_launch (s : State) (c : Core) : (s.withMe c).launch = s.launch := rfl
@[simp] theorem State.modStrm_launch (s : State) (f : StreamSt → StreamSt) : (s.modStrm f).launch = s.launch := rfl
@[simp] theorem State.setS_launch (s : State) (d : Nat) (v : Word) : (s.setS d v).launch = s.launch := rfl
@[simp] theorem State.learn_launch (s : State) (a : Nat) (t : Clk) : (s.learn a t).launch = s.launch := rfl
@[simp] theorem State.withMe_hintst (s : State) (c : Core) : (s.withMe c).hintst = s.hintst := rfl
@[simp] theorem State.modStrm_hintst (s : State) (f : StreamSt → StreamSt) : (s.modStrm f).hintst = s.hintst := rfl
@[simp] theorem State.setS_hintst (s : State) (d : Nat) (v : Word) : (s.setS d v).hintst = s.hintst := rfl
@[simp] theorem State.learn_hintst (s : State) (a : Nat) (t : Clk) : (s.learn a t).hintst = s.hintst := rfl
@[simp] theorem State.withMe_herr (s : State) (c : Core) : (s.withMe c).herr = s.herr := rfl
@[simp] theorem State.modStrm_herr (s : State) (f : StreamSt → StreamSt) : (s.modStrm f).herr = s.herr := rfl
@[simp] theorem State.setS_herr (s : State) (d : Nat) (v : Word) : (s.setS d v).herr = s.herr := rfl
@[simp] theorem State.learn_herr (s : State) (a : Nat) (t : Clk) : (s.learn a t).herr = s.herr := rfl
@[simp] theorem State.withMe_callbacks (s : State) (c : Core) : (s.withMe c).callbacks = s.callbacks := rfl
@[simp] theorem State.modStrm_callbacks (s : State) (f : StreamSt → StreamSt) : (s.modStrm f).callbacks = s.callbacks := rfl
@[simp] theorem State.setS_callbacks (s : State) (d : Nat) (v : Word) : (s.setS d v).callbacks = s.callbacks := rfl
@[simp] theorem State.learn_callbacks (s : State) (a : Nat) (t : Clk) : (s.learn a t).callbacks = s.callbacks := rfl
@[simp] theorem State.withMe_msi (s : State) (c : Core) : (s.withMe c).msi = s.msi := rfl
@[simp] theorem State.modStrm_msi (s : State) (f : StreamSt → StreamSt) : (s.modStrm f).msi = s.msi := rfl
@[simp] theorem State.setS_msi (s : State) (d : Nat) (v : Word) : (s.setS d v).msi = s.msi := rfl
@[simp] theorem State.learn_msi (s : State) (a : Nat) (t : Clk) : (s.learn a t).msi = s.msi := rfl
@[simp] theorem State.withMe_hostReads (s : State) (c : Core) : (s.withMe c).hostReads = s.hostReads := rfl
@[simp] theorem State.modStrm_hostReads (s : State) (f : StreamSt → StreamSt) : (s.modStrm f).hostReads = s.hostReads := rfl
@[simp] theorem State.setS_hostReads (s : State) (d : Nat) (v : Word) : (s.setS d v).hostReads = s.hostReads := rfl
@[simp] theorem State.learn_hostReads (s : State) (a : Nat) (t : Clk) : (s.learn a t).hostReads = s.hostReads := rfl
@[simp] theorem State.withMe_linkUp (s : State) (c : Core) : (s.withMe c).linkUp = s.linkUp := rfl
@[simp] theorem State.modStrm_linkUp (s : State) (f : StreamSt → StreamSt) : (s.modStrm f).linkUp = s.linkUp := rfl
@[simp] theorem State.setS_linkUp (s : State) (d : Nat) (v : Word) : (s.setS d v).linkUp = s.linkUp := rfl
@[simp] theorem State.learn_linkUp (s : State) (a : Nat) (t : Clk) : (s.learn a t).linkUp = s.linkUp := rfl
@[simp] theorem State.withMe_islands (s : State) (c : Core) : (s.withMe c).islands = s.islands := rfl
@[simp] theorem State.modStrm_islands (s : State) (f : StreamSt → StreamSt) : (s.modStrm f).islands = s.islands := rfl
@[simp] theorem State.setS_islands (s : State) (d : Nat) (v : Word) : (s.setS d v).islands = s.islands := rfl
@[simp] theorem State.learn_islands (s : State) (a : Nat) (t : Clk) : (s.learn a t).islands = s.islands := rfl
@[simp] theorem State.withMe_grant (s : State) (c : Core) : (s.withMe c).grant = s.grant := rfl
@[simp] theorem State.modStrm_grant (s : State) (f : StreamSt → StreamSt) : (s.modStrm f).grant = s.grant := rfl
@[simp] theorem State.setS_grant (s : State) (d : Nat) (v : Word) : (s.setS d v).grant = s.grant := rfl
@[simp] theorem State.learn_grant (s : State) (a : Nat) (t : Clk) : (s.learn a t).grant = s.grant := rfl
@[simp] theorem State.withMe_ceil (s : State) (c : Core) : (s.withMe c).ceil = s.ceil := rfl
@[simp] theorem State.modStrm_ceil (s : State) (f : StreamSt → StreamSt) : (s.modStrm f).ceil = s.ceil := rfl
@[simp] theorem State.setS_ceil (s : State) (d : Nat) (v : Word) : (s.setS d v).ceil = s.ceil := rfl
@[simp] theorem State.learn_ceil (s : State) (a : Nat) (t : Clk) : (s.learn a t).ceil = s.ceil := rfl
@[simp] theorem State.withMe_pool (s : State) (c : Core) : (s.withMe c).pool = s.pool := rfl
@[simp] theorem State.modStrm_pool (s : State) (f : StreamSt → StreamSt) : (s.modStrm f).pool = s.pool := rfl
@[simp] theorem State.setS_pool (s : State) (d : Nat) (v : Word) : (s.setS d v).pool = s.pool := rfl
@[simp] theorem State.learn_pool (s : State) (a : Nat) (t : Clk) : (s.learn a t).pool = s.pool := rfl
@[simp] theorem State.withMe_clkStep (s : State) (c : Core) : (s.withMe c).clkStep = s.clkStep := rfl
@[simp] theorem State.modStrm_clkStep (s : State) (f : StreamSt → StreamSt) : (s.modStrm f).clkStep = s.clkStep := rfl
@[simp] theorem State.setS_clkStep (s : State) (d : Nat) (v : Word) : (s.setS d v).clkStep = s.clkStep := rfl
@[simp] theorem State.learn_clkStep (s : State) (a : Nat) (t : Clk) : (s.learn a t).clkStep = s.clkStep := rfl
@[simp] theorem State.withMe_poolAge (s : State) (c : Core) : (s.withMe c).poolAge = s.poolAge := rfl
@[simp] theorem State.modStrm_poolAge (s : State) (f : StreamSt → StreamSt) : (s.modStrm f).poolAge = s.poolAge := rfl
@[simp] theorem State.setS_poolAge (s : State) (d : Nat) (v : Word) : (s.setS d v).poolAge = s.poolAge := rfl
@[simp] theorem State.learn_poolAge (s : State) (a : Nat) (t : Clk) : (s.learn a t).poolAge = s.poolAge := rfl
@[simp] theorem State.withMe_energyMark (s : State) (c : Core) : (s.withMe c).energyMark = s.energyMark := rfl
@[simp] theorem State.modStrm_energyMark (s : State) (f : StreamSt → StreamSt) : (s.modStrm f).energyMark = s.energyMark := rfl
@[simp] theorem State.setS_energyMark (s : State) (d : Nat) (v : Word) : (s.setS d v).energyMark = s.energyMark := rfl
@[simp] theorem State.learn_energyMark (s : State) (a : Nat) (t : Clk) : (s.learn a t).energyMark = s.energyMark := rfl
@[simp] theorem State.withMe_cretire (s : State) (c : Core) : (s.withMe c).cretire = s.cretire := rfl
@[simp] theorem State.modStrm_cretire (s : State) (f : StreamSt → StreamSt) : (s.modStrm f).cretire = s.cretire := rfl
@[simp] theorem State.setS_cretire (s : State) (d : Nat) (v : Word) : (s.setS d v).cretire = s.cretire := rfl
@[simp] theorem State.learn_cretire (s : State) (a : Nat) (t : Clk) : (s.learn a t).cretire = s.cretire := rfl
@[simp] theorem State.withMe_regions (s : State) (c : Core) : (s.withMe c).regions = s.regions := rfl
@[simp] theorem State.modStrm_regions (s : State) (f : StreamSt → StreamSt) : (s.modStrm f).regions = s.regions := rfl
@[simp] theorem State.setS_regions (s : State) (d : Nat) (v : Word) : (s.setS d v).regions = s.regions := rfl
@[simp] theorem State.learn_regions (s : State) (a : Nat) (t : Clk) : (s.learn a t).regions = s.regions := rfl
@[simp] theorem State.withMe_elog (s : State) (c : Core) : (s.withMe c).elog = s.elog := rfl
@[simp] theorem State.modStrm_elog (s : State) (f : StreamSt → StreamSt) : (s.modStrm f).elog = s.elog := rfl
@[simp] theorem State.setS_elog (s : State) (d : Nat) (v : Word) : (s.setS d v).elog = s.elog := rfl
@[simp] theorem State.learn_elog (s : State) (a : Nat) (t : Clk) : (s.learn a t).elog = s.elog := rfl
@[simp] theorem State.withMe_pkgId (s : State) (c : Core) : (s.withMe c).pkgId = s.pkgId := rfl
@[simp] theorem State.modStrm_pkgId (s : State) (f : StreamSt → StreamSt) : (s.modStrm f).pkgId = s.pkgId := rfl
@[simp] theorem State.setS_pkgId (s : State) (d : Nat) (v : Word) : (s.setS d v).pkgId = s.pkgId := rfl
@[simp] theorem State.learn_pkgId (s : State) (a : Nat) (t : Clk) : (s.learn a t).pkgId = s.pkgId := rfl
@[simp] theorem State.withMe_peers (s : State) (c : Core) : (s.withMe c).peers = s.peers := rfl
@[simp] theorem State.modStrm_peers (s : State) (f : StreamSt → StreamSt) : (s.modStrm f).peers = s.peers := rfl
@[simp] theorem State.setS_peers (s : State) (d : Nat) (v : Word) : (s.setS d v).peers = s.peers := rfl
@[simp] theorem State.learn_peers (s : State) (a : Nat) (t : Clk) : (s.learn a t).peers = s.peers := rfl
@[simp] theorem State.withMe_fabNode (s : State) (c : Core) : (s.withMe c).fabNode = s.fabNode := rfl
@[simp] theorem State.modStrm_fabNode (s : State) (f : StreamSt → StreamSt) : (s.modStrm f).fabNode = s.fabNode := rfl
@[simp] theorem State.setS_fabNode (s : State) (d : Nat) (v : Word) : (s.setS d v).fabNode = s.fabNode := rfl
@[simp] theorem State.learn_fabNode (s : State) (a : Nat) (t : Clk) : (s.learn a t).fabNode = s.fabNode := rfl
@[simp] theorem State.withMe_fabTlb (s : State) (c : Core) : (s.withMe c).fabTlb = s.fabTlb := rfl
@[simp] theorem State.modStrm_fabTlb (s : State) (f : StreamSt → StreamSt) : (s.modStrm f).fabTlb = s.fabTlb := rfl
@[simp] theorem State.setS_fabTlb (s : State) (d : Nat) (v : Word) : (s.setS d v).fabTlb = s.fabTlb := rfl
@[simp] theorem State.learn_fabTlb (s : State) (a : Nat) (t : Clk) : (s.learn a t).fabTlb = s.fabTlb := rfl
@[simp] theorem State.withMe_frames (s : State) (c : Core) : (s.withMe c).frames = s.frames := rfl
@[simp] theorem State.modStrm_frames (s : State) (f : StreamSt → StreamSt) : (s.modStrm f).frames = s.frames := rfl
@[simp] theorem State.setS_frames (s : State) (d : Nat) (v : Word) : (s.setS d v).frames = s.frames := rfl
@[simp] theorem State.learn_frames (s : State) (a : Nat) (t : Clk) : (s.learn a t).frames = s.frames := rfl
@[simp] theorem State.withMe_smbus (s : State) (c : Core) : (s.withMe c).smbus = s.smbus := rfl
@[simp] theorem State.modStrm_smbus (s : State) (f : StreamSt → StreamSt) : (s.modStrm f).smbus = s.smbus := rfl
@[simp] theorem State.setS_smbus (s : State) (d : Nat) (v : Word) : (s.setS d v).smbus = s.smbus := rfl
@[simp] theorem State.learn_smbus (s : State) (a : Nat) (t : Clk) : (s.learn a t).smbus = s.smbus := rfl
@[simp] theorem State.withMe_boot (s : State) (c : Core) : (s.withMe c).boot = s.boot := rfl
@[simp] theorem State.modStrm_boot (s : State) (f : StreamSt → StreamSt) : (s.modStrm f).boot = s.boot := rfl
@[simp] theorem State.setS_boot (s : State) (d : Nat) (v : Word) : (s.setS d v).boot = s.boot := rfl
@[simp] theorem State.learn_boot (s : State) (a : Nat) (t : Clk) : (s.learn a t).boot = s.boot := rfl
@[simp] theorem State.withMe_thermStop (s : State) (c : Core) : (s.withMe c).thermStop = s.thermStop := rfl
@[simp] theorem State.modStrm_thermStop (s : State) (f : StreamSt → StreamSt) : (s.modStrm f).thermStop = s.thermStop := rfl
@[simp] theorem State.setS_thermStop (s : State) (d : Nat) (v : Word) : (s.setS d v).thermStop = s.thermStop := rfl
@[simp] theorem State.learn_thermStop (s : State) (a : Nat) (t : Clk) : (s.learn a t).thermStop = s.thermStop := rfl
@[simp] theorem State.withMe_bufs (s : State) (c : Core) : (s.withMe c).bufs = s.bufs := rfl
@[simp] theorem State.modStrm_bufs (s : State) (f : StreamSt → StreamSt) : (s.modStrm f).bufs = s.bufs := rfl
@[simp] theorem State.setS_bufs (s : State) (d : Nat) (v : Word) : (s.setS d v).bufs = s.bufs := rfl
@[simp] theorem State.learn_bufs (s : State) (a : Nat) (t : Clk) : (s.learn a t).bufs = s.bufs := rfl
@[simp] theorem State.withMe_heldAtomics (s : State) (c : Core) : (s.withMe c).heldAtomics = s.heldAtomics := rfl
@[simp] theorem State.modStrm_heldAtomics (s : State) (f : StreamSt → StreamSt) : (s.modStrm f).heldAtomics = s.heldAtomics := rfl
@[simp] theorem State.setS_heldAtomics (s : State) (d : Nat) (v : Word) : (s.setS d v).heldAtomics = s.heldAtomics := rfl
@[simp] theorem State.learn_heldAtomics (s : State) (a : Nat) (t : Clk) : (s.learn a t).heldAtomics = s.heldAtomics := rfl
@[simp] theorem State.withMe_heldAllocs (s : State) (c : Core) : (s.withMe c).heldAllocs = s.heldAllocs := rfl
@[simp] theorem State.modStrm_heldAllocs (s : State) (f : StreamSt → StreamSt) : (s.modStrm f).heldAllocs = s.heldAllocs := rfl
@[simp] theorem State.setS_heldAllocs (s : State) (d : Nat) (v : Word) : (s.setS d v).heldAllocs = s.heldAllocs := rfl
@[simp] theorem State.learn_heldAllocs (s : State) (a : Nat) (t : Clk) : (s.learn a t).heldAllocs = s.heldAllocs := rfl
@[simp] theorem State.withMe_reports (s : State) (c : Core) : (s.withMe c).reports = s.reports := rfl
@[simp] theorem State.modStrm_reports (s : State) (f : StreamSt → StreamSt) : (s.modStrm f).reports = s.reports := rfl
@[simp] theorem State.setS_reports (s : State) (d : Nat) (v : Word) : (s.setS d v).reports = s.reports := rfl
@[simp] theorem State.learn_reports (s : State) (a : Nat) (t : Clk) : (s.learn a t).reports = s.reports := rfl

@[simp] theorem State.withMe_agent (s : State) (c : Core) : (s.withMe c).agent = s.agent := rfl
@[simp] theorem State.modStrm_agent (s : State) (f : StreamSt → StreamSt) : (s.modStrm f).agent = s.agent := rfl
@[simp] theorem State.setS_agent (s : State) (d : Nat) (v : Word) : (s.setS d v).agent = s.agent := rfl
@[simp] theorem State.learn_agent (s : State) (a : Nat) (t : Clk) : (s.learn a t).agent = s.agent := rfl
@[simp] theorem State.learn_me (s : State) (a : Nat) (t : Clk) : (s.learn a t).me = s.me := rfl
@[simp] theorem State.learn_strm (s : State) (a : Nat) (t : Clk) : (s.learn a t).strm = s.strm := rfl
@[simp] theorem State.learn_sreg (s : State) (a : Nat) (t : Clk) (r : Nat) : (s.learn a t).sreg r = s.sreg r := rfl

@[simp] theorem State.core_withMe_other (s : State) (c : Core) {j : Nat} (h : j ≠ s.curCore) :
    (s.withMe c).core j = s.core j := s.core_setCore_other c h
@[simp] theorem State.core_modStrm_other (s : State) (f : StreamSt → StreamSt) {j : Nat} (h : j ≠ s.curCore) :
    (s.modStrm f).core j = s.core j := s.core_setCore_other _ h
@[simp] theorem State.core_setS_other (s : State) (d : Nat) (v : Word) {j : Nat} (h : j ≠ s.curCore) :
    (s.setS d v).core j = s.core j := s.core_setCore_other _ h

@[simp] theorem State.me_withMe (s : State) {c : Core} (h : c.st ≠ .idle) : (s.withMe c).me = c :=
  s.core_setCore_busy s.curCore h

@[simp] theorem State.strm_withMe (s : State) {c : Core} (h : c.st ≠ .idle) :
    (s.withMe c).strm = c.stream s.curStream := by simp [State.strm, h]

@[simp] theorem State.sreg_withMe (s : State) {c : Core} (h : c.st ≠ .idle) (r : Nat) :
    (s.withMe c).sreg r = c.sreg s.curStream r := by simp [State.sreg, h]

/-- Of two changes of the executing core the later stands. -/
@[simp] theorem State.withMe_withMe (s : State) {c c' : Core} (h : c.st ≠ .idle) (h' : c'.st ≠ .idle) :
    (s.withMe c).withMe c' = s.withMe c' :=
  s.setCore_setCore s.curCore (Core.ne_reset h) (Core.ne_reset h')

@[simp] theorem State.me_modStrm (s : State) (f : StreamSt → StreamSt) (h : s.me.st ≠ .idle) :
    (s.modStrm f).me = s.me.setStream s.curStream (f s.strm) := by simp [State.modStrm, h]

@[simp] theorem State.strm_modStrm (s : State) (f : StreamSt → StreamSt) (h : s.me.st ≠ .idle) :
    (s.modStrm f).strm = f s.strm := by simp [State.modStrm, h]

@[simp] theorem State.sreg_modStrm (s : State) (f : StreamSt → StreamSt) (h : s.me.st ≠ .idle) (r : Nat) :
    (s.modStrm f).sreg r = s.sreg r := by simp [State.sreg, h]

@[simp] theorem State.me_setS (s : State) (d : Nat) (v : Word) (h : s.me.st ≠ .idle) :
    (s.setS d v).me = s.me.setSreg s.curStream d v := by simp [State.setS, h]

@[simp] theorem State.strm_setS (s : State) (d : Nat) (v : Word) (h : s.me.st ≠ .idle) :
    (s.setS d v).strm = s.strm := by simp [State.strm, h]

/-- A write to S0 is discarded (R90). -/
theorem State.sreg_zero (s : State) : s.sreg 0 = 0 := rfl

end Sys2Proof.Machine
end

