-- ==== Sys2Proof/Laws/Keep.lean ====
section
/-! SUPPORT. The canonical form of memory is kept by every memory operation, and how an operation is shown to keep a
property of the state: of its end, and of the state that a stop carries. -/

namespace Sys2Proof.Machine

variable {α β : Type} {P : State → Prop}

/-! Operations that keep a property. -/

/-- The state that a stop carries has the property. -/
def Stop.Has (P : State → Prop) : Stop → Prop
  | .block | .fault _ => True
  | .hold t | .faultKeep _ t | .ended t => P t

/-- From every state with the property the operation ends, or stops, in one with it. -/
def Op.Keeps (P : State → Prop) (x : Op α) : Prop :=
  ∀ s, P s → match x.run s with
    | .ok (_, t) => P t
    | .error e => e.Has P

theorem Op.Keeps.pure (a : α) : Op.Keeps P (pure a : Op α) := fun _ h => h

theorem Op.Keeps.bind {x : Op α} {f : α → Op β} (hx : Op.Keeps P x) (hf : ∀ a, Op.Keeps P (f a)) :
    Op.Keeps P (x >>= f) := by
  intro s h
  have hs := hx s h
  rw [Op.run_bind]
  cases e : x.run s with
  | ok r => rw [e] at hs; exact hf r.1 r.2 hs
  | error e' => rw [e] at hs; exact hs

/-- A read of the whole state: what follows may use that the state has the property. -/
theorem Op.Keeps.bind_get {f : State → Op β} (hf : ∀ s, P s → Op.Keeps P (f s)) :
    Op.Keeps P ((get : Op State) >>= f) := fun s h => hf s h s h

theorem Op.Keeps.get : Op.Keeps P (get : Op State) := fun _ h => h

theorem Op.Keeps.set {t : State} (h : P t) : Op.Keeps P (set t : Op PUnit) := fun _ _ => h

theorem Op.Keeps.modify {f : State → State} (h : ∀ s, P s → P (f s)) : Op.Keeps P (modify f : Op PUnit) :=
  fun s hs => h s hs

theorem Op.Keeps.throw {e : Stop} (h : e.Has P) : Op.Keeps P (throw e : Op α) := fun _ _ => h

theorem Op.Keeps.map {f : α → β} {x : Op α} (hx : Op.Keeps P x) : Op.Keeps P (f <$> x) := by
  intro s h
  have hs := hx s h
  have e : (f <$> x).run s = (match x.run s with | .ok (a, t) => Except.ok (f a, t) | .error e => Except.error e) := by
    show Except.map _ (x s) = _
    show _ = (match x s with | .ok (a, t) => Except.ok (f a, t) | .error e => Except.error e)
    cases x s <;> rfl
  rw [e]
  cases e' : x.run s with
  | ok r => rw [e'] at hs; exact hs
  | error e'' => rw [e'] at hs; exact hs

theorem Op.Keeps.mapM {γ : Type} {f : γ → Op β} (hf : ∀ a, Op.Keeps P (f a)) (l : List γ) :
    Op.Keeps P (l.mapM f) := by
  induction l with
  | nil => exact Op.Keeps.pure _
  | cons a l ih =>
    rw [List.mapM_cons]
    exact (hf a).bind fun b => ih.bind fun bs => Op.Keeps.pure _

theorem Op.Keeps.forM {γ : Type} {f : γ → Op PUnit} (hf : ∀ a, Op.Keeps P (f a)) (l : List γ) :
    Op.Keeps P (l.forM f) := by
  induction l with
  | nil => exact Op.Keeps.pure _
  | cons a l ih => exact (hf a).bind fun _ => ih

theorem Op.Keeps.filterMapM {γ : Type} {f : γ → Op (Option β)} (hf : ∀ a, Op.Keeps P (f a)) (l : List γ) :
    Op.Keeps P (l.filterMapM f) := by
  have key : ∀ acc, Op.Keeps P (List.filterMapM.loop f l acc) := by
    induction l with
    | nil => exact fun acc => Op.Keeps.pure _
    | cons a l ih => exact fun acc => (hf a).bind fun o => by cases o <;> exact ih _
  exact key []

theorem Op.Keeps.foldlM {γ : Type} {f : β → γ → Op β} (hf : ∀ b a, Op.Keeps P (f b a)) (l : List γ)
    (b : β) :
    Op.Keeps P (l.foldlM f b) := by
  induction l generalizing b with
  | nil => exact Op.Keeps.pure _
  | cons a l ih => exact (hf b a).bind fun c => ih c

theorem Op.Keeps.ite {c : Prop} [Decidable c] {x y : Op α} (hx : c → Op.Keeps P x) (hy : ¬c → Op.Keeps P y) :
    Op.Keeps P (if c then x else y) := by
  by_cases h : c
  · rw [if_pos h]; exact hx h
  · rw [if_neg h]; exact hy h

/-- A fold of the state keeps what each of its steps keeps. -/
theorem State.foldl_keeps {γ : Type} {f : State → γ → State} (hf : ∀ s a, P s → P (f s a)) (l : List γ)
    (s : State) (h : P s) : P (l.foldl f s) := by
  induction l generalizing s with
  | nil => exact h
  | cons a l ih => exact ih _ (hf s a h)

/-! Memory stays in its canonical form. -/

/-- A change of anything but memory keeps its form. -/
theorem State.Inv.of_mem {s t : State} (h : s.Inv) (e : t.mem = s.mem) : t.Inv := by
  unfold State.Inv; rw [e]; exact h

theorem State.Inv.setByte {s : State} (h : s.Inv) (pa : Nat) (b : Byte) : (s.setByte pa b).Inv :=
  SMap.wf_set (0 : Byte) b s.mem pa h

theorem State.Inv.poke {s : State} (h : s.Inv) (pa : Nat) (l : List Byte) : (s.poke pa l).Inv := by
  induction l generalizing s pa with
  | nil => exact h
  | cons b l ih => unfold State.poke; apply ih; exact State.Inv.of_mem (h.setByte pa b) rfl

theorem State.Inv.setHist {s : State} (h : s.Inv) (pa : Nat) (x : Hist) : (s.setHist pa x).Inv := h

theorem State.Inv.markSeen {s : State} (h : s.Inv) (agent pa n : Nat) : (s.markSeen agent pa n).Inv := by
  unfold State.markSeen; split
  · exact h
  · exact h.setHist _ _

theorem State.Inv.placeUnit {s : State} (h : s.Inv) (a : Acc) (obj : Option Nat) (pa : Nat) (bytes : List Byte)
    (l : List Nat) : (s.placeUnit a obj pa bytes l).Inv := by
  refine State.foldl_keeps (P := State.Inv) (fun t p ht => ?_) _ _ (h.of_mem rfl)
  dsimp only; split
  · exact (ht.setByte _ _).setHist _ _
  · exact ht.setHist _ _

theorem State.Inv.putUnit {s : State} (h : s.Inv) (a : Acc) (obj : Option Nat) (pa : Nat) (bytes : List Byte) :
    (s.putUnit a obj pa bytes).Inv := h.placeUnit a obj pa bytes []

theorem State.Inv.mapWrites {s : State} (h : s.Inv) (f : WEnt → WEnt) : (s.mapWrites f).Inv := h

theorem State.Inv.interrupt {s : State} (h : s.Inv) (v : Nat) : (s.interrupt v).Inv := h

theorem State.logErr_mem (s : State) (key : Nat) (unc : Bool) (who : Option Nat) : (s.logErr key unc who).mem = s.mem := by
  unfold State.logErr; dsimp only; repeat' split
  all_goals rfl

theorem State.eccRead_mem (s : State) (key : Nat) (who : Option Nat) : (s.eccRead key who).1.mem = s.mem := by
  unfold State.eccRead
  split
  · rfl
  · split
    · rfl
    · dsimp only
      repeat' split
      all_goals first | rfl | exact State.logErr_mem _ _ _ _

theorem State.eccReadAll_mem (s : State) (ks : List Nat) (who : Option Nat) : (eccReadAll s ks who).1.mem = s.mem := by
  induction ks generalizing s with
  | nil => rfl
  | cons k ks ih =>
    unfold eccReadAll; dsimp only; split
    · rw [ih, State.eccRead_mem]
    · rfl

theorem State.eccWrite_mem (s : State) (key : Nat) : (s.eccWrite key).mem = s.mem := by
  unfold State.eccWrite; dsimp only; repeat' split
  all_goals rfl

theorem State.eccScan_mem (s : State) (pa len : Nat) (who : Option Nat) : (s.eccScan pa len who).1.mem = s.mem := by
  unfold State.eccScan; split
  · rfl
  · exact State.eccReadAll_mem _ _ _

theorem State.eccPart_mem (s : State) (pa len : Nat) (who : Option Nat) : (s.eccPart pa len who).1.mem = s.mem := by
  unfold State.eccPart; split
  · rfl
  · exact State.eccReadAll_mem _ _ _

theorem State.eccStore_mem (s : State) (pa len : Nat) (who : Option Nat) : (s.eccStore pa len who).1.mem = s.mem := by
  unfold State.eccStore
  have h := s.eccPart_mem pa len who
  split
  · rfl
  · split
    · rename_i e
      rw [e] at h
      refine (State.foldl_keeps (P := fun t => t.mem = s.mem) (fun t k ht => ?_) _ _ h)
      rw [State.eccWrite_mem]; exact ht
    · rename_i e
      rw [e] at h; exact h

theorem State.Inv.eccWrite {s : State} (h : s.Inv) (key : Nat) : (s.eccWrite key).Inv :=
  h.of_mem (s.eccWrite_mem key)

theorem State.Inv.eccRead {s : State} (h : s.Inv) (key : Nat) (who : Option Nat) : (s.eccRead key who).1.Inv :=
  h.of_mem (s.eccRead_mem key who)

/-- The state after a check of storage words by an access: of a read, of a write in part, or of a write. -/
theorem State.Inv.ecc {s t : State} {pa len : Nat} {who o : Option Nat} (h : s.Inv)
    (e : s.eccScan pa len who = (t, o) ∨ s.eccPart pa len who = (t, o) ∨ s.eccStore pa len who = (t, o)) : t.Inv := by
  have h1 := s.eccScan_mem pa len who
  have h2 := s.eccPart_mem pa len who
  have h3 := s.eccStore_mem pa len who
  rcases e with e | e | e
  · rw [e] at h1; exact h.of_mem h1
  · rw [e] at h2; exact h.of_mem h2
  · rw [e] at h3; exact h.of_mem h3

theorem State.Inv.pokeSafe {s : State} (h : s.Inv) (pa : Nat) (l : List Byte) (who : Option Nat) :
    (s.pokeSafe pa l who).1.Inv := by
  unfold State.pokeSafe; split
  · rename_i e
    exact (h.ecc (.inr (.inr e))).poke _ _
  · exact h.eccRead _ _

theorem State.Inv.ctlWrite {s : State} (h : s.Inv) (pa v : Nat) : (s.ctlWrite pa v).Inv := by
  unfold State.ctlWrite; dsimp only; repeat' split
  all_goals exact h

theorem State.Inv.ctlWriteBytes {s : State} (h : s.Inv) (l : List (Nat × Byte)) : (s.ctlWriteBytes l).Inv :=
  State.foldl_keeps (P := State.Inv) (fun _ _ hs => hs.ctlWrite _ _) _ _ h

/-- A region of memory that is cleared, as when a job's scratchpad is (Dispatcher.lean). -/
theorem State.Inv.filter {s t : State} (h : s.Inv) (f : Nat × Byte → Bool) (e : t.mem = s.mem.filter f) : t.Inv := by
  unfold State.Inv; rw [e]; exact SMap.wf_filter (0 : Byte) f s.mem h

theorem State.Inv.tlbSet {s : State} (h : s.Inv) (r : TlbRef) (l : List TlbEnt) : (s.tlbSet r l).Inv := by
  cases r <;> exact h

theorem State.reset_inv : State.reset.Inv := rfl


/-! The accesses of Memory.lean. -/

set_option linter.unusedTactic false
set_option linter.unreachableTactic false

theorem keeps_accFault (a : Acc) (code va : Nat) : Op.Keeps P (accFault a code va : Op α) := Op.Keeps.throw trivial

theorem keeps_xlFault (a : Acc) (code va lvl kind why : Nat) : Op.Keeps P (xlFault a code va lvl kind why : Op α) :=
  Op.Keeps.throw trivial

theorem keeps_eccFault (a : Acc) (va key : Nat) : Op.Keeps P (eccFault a va key : Op α) := Op.Keeps.throw trivial

theorem keeps_modCore (k : Nat) (f : Core → Core) : Op.Keeps State.Inv (modCore k f) := fun _ h => h

theorem keeps_hold : Op.Keeps P (hold : Op α) := fun _ h => h

theorem keeps_draw (n : Nat) :
    Op.Keeps State.Inv (draw n) := by
  unfold draw
  repeat' first
    | with_reducible exact Op.Keeps.pure _
    | with_reducible assumption
    | (with_reducible first
        | apply keeps_modCore | apply keeps_accFault | apply keeps_xlFault | apply keeps_eccFault
        | apply keeps_hold)
    | (with_reducible first
        | (refine Op.Keeps.bind_get fun _ _ => ?_) | (refine Op.Keeps.bind ?_ fun _ => ?_)
        | (refine Op.Keeps.mapM (fun _ => ?_) _) | (refine Op.Keeps.filterMapM (fun _ => ?_) _) | (refine Op.Keeps.forM (fun _ => ?_) _)
        | (refine Op.Keeps.foldlM (fun _ _ => ?_) _ _) | (refine Op.Keeps.modify fun _ _ => ?_)
        | (refine Op.Keeps.throw ?_) | (refine Op.Keeps.set ?_))
    | exact trivial
    | split
    | (exact State.Inv.of_mem (by assumption) rfl)
    | (with_reducible refine State.foldl_keeps (fun _ _ _ => ?_) _ _ ?_)
    | (with_reducible first
        | apply State.Inv.markSeen | apply State.Inv.tlbSet | apply State.Inv.poke | apply State.Inv.placeUnit
        | apply State.Inv.putUnit | apply State.Inv.eccRead | apply State.Inv.pokeSafe | apply State.Inv.ctlWriteBytes)
    | (exact State.Inv.ecc (by assumption) (by tauto))
    | dsimp only

theorem keeps_acqLevel (a : Acc) (k obj : Nat) :
    Op.Keeps State.Inv (acqLevel a k obj) := by
  unfold acqLevel
  repeat' first
    | with_reducible exact Op.Keeps.pure _
    | with_reducible assumption
    | (with_reducible first
        | apply keeps_modCore | apply keeps_accFault | apply keeps_xlFault | apply keeps_eccFault
        | apply keeps_hold | apply keeps_draw)
    | (with_reducible first
        | (refine Op.Keeps.bind_get fun _ _ => ?_) | (refine Op.Keeps.bind ?_ fun _ => ?_)
        | (refine Op.Keeps.mapM (fun _ => ?_) _) | (refine Op.Keeps.filterMapM (fun _ => ?_) _) | (refine Op.Keeps.forM (fun _ => ?_) _)
        | (refine Op.Keeps.foldlM (fun _ _ => ?_) _ _) | (refine Op.Keeps.modify fun _ _ => ?_)
        | (refine Op.Keeps.throw ?_) | (refine Op.Keeps.set ?_))
    | exact trivial
    | split
    | (exact State.Inv.of_mem (by assumption) rfl)
    | (with_reducible refine State.foldl_keeps (fun _ _ _ => ?_) _ _ ?_)
    | (with_reducible first
        | apply State.Inv.markSeen | apply State.Inv.tlbSet | apply State.Inv.poke | apply State.Inv.placeUnit
        | apply State.Inv.putUnit | apply State.Inv.eccRead | apply State.Inv.pokeSafe | apply State.Inv.ctlWriteBytes)
    | (exact State.Inv.ecc (by assumption) (by tauto))
    | dsimp only

theorem keeps_chooseSeen (rows : List (List Cand)) :
    Op.Keeps State.Inv (chooseSeen rows) := by
  unfold chooseSeen
  repeat' first
    | with_reducible exact Op.Keeps.pure _
    | with_reducible assumption
    | (with_reducible first
        | apply keeps_modCore | apply keeps_accFault | apply keeps_xlFault | apply keeps_eccFault
        | apply keeps_hold | apply keeps_draw)
    | (with_reducible first
        | (refine Op.Keeps.bind_get fun _ _ => ?_) | (refine Op.Keeps.bind ?_ fun _ => ?_)
        | (refine Op.Keeps.mapM (fun _ => ?_) _) | (refine Op.Keeps.filterMapM (fun _ => ?_) _) | (refine Op.Keeps.forM (fun _ => ?_) _)
        | (refine Op.Keeps.foldlM (fun _ _ => ?_) _ _) | (refine Op.Keeps.modify fun _ _ => ?_)
        | (refine Op.Keeps.throw ?_) | (refine Op.Keeps.set ?_))
    | exact trivial
    | split
    | (exact State.Inv.of_mem (by assumption) rfl)
    | (with_reducible refine State.foldl_keeps (fun _ _ _ => ?_) _ _ ?_)
    | (with_reducible first
        | apply State.Inv.markSeen | apply State.Inv.tlbSet | apply State.Inv.poke | apply State.Inv.placeUnit
        | apply State.Inv.putUnit | apply State.Inv.eccRead | apply State.Inv.pokeSafe | apply State.Inv.ctlWriteBytes)
    | (exact State.Inv.ecc (by assumption) (by tauto))
    | dsimp only

theorem keeps_flagLink (a : Acc) (toks : List Clk) :
    Op.Keeps State.Inv (flagLink a toks) := by
  unfold flagLink
  repeat' first
    | with_reducible exact Op.Keeps.pure _
    | with_reducible assumption
    | (with_reducible first
        | apply keeps_modCore | apply keeps_accFault | apply keeps_xlFault | apply keeps_eccFault
        | apply keeps_hold)
    | (with_reducible first
        | (refine Op.Keeps.bind_get fun _ _ => ?_) | (refine Op.Keeps.bind ?_ fun _ => ?_)
        | (refine Op.Keeps.mapM (fun _ => ?_) _) | (refine Op.Keeps.filterMapM (fun _ => ?_) _) | (refine Op.Keeps.forM (fun _ => ?_) _)
        | (refine Op.Keeps.foldlM (fun _ _ => ?_) _ _) | (refine Op.Keeps.modify fun _ _ => ?_)
        | (refine Op.Keeps.throw ?_) | (refine Op.Keeps.set ?_))
    | exact trivial
    | split
    | (exact State.Inv.of_mem (by assumption) rfl)
    | (with_reducible refine State.foldl_keeps (fun _ _ _ => ?_) _ _ ?_)
    | (with_reducible first
        | apply State.Inv.markSeen | apply State.Inv.tlbSet | apply State.Inv.poke | apply State.Inv.placeUnit
        | apply State.Inv.putUnit | apply State.Inv.eccRead | apply State.Inv.pokeSafe | apply State.Inv.ctlWriteBytes)
    | (exact State.Inv.ecc (by assumption) (by tauto))
    | dsimp only

theorem keeps_readMem (a : Acc) (obj : Option Nat) (pa len : Nat) :
    Op.Keeps State.Inv (readMem a obj pa len) := by
  unfold readMem
  repeat' first
    | with_reducible exact Op.Keeps.pure _
    | with_reducible assumption
    | (with_reducible first
        | apply keeps_modCore | apply keeps_accFault | apply keeps_xlFault | apply keeps_eccFault
        | apply keeps_hold | apply keeps_acqLevel | apply keeps_chooseSeen | apply keeps_flagLink)
    | (with_reducible first
        | (refine Op.Keeps.bind_get fun _ _ => ?_) | (refine Op.Keeps.bind ?_ fun _ => ?_)
        | (refine Op.Keeps.mapM (fun _ => ?_) _) | (refine Op.Keeps.filterMapM (fun _ => ?_) _) | (refine Op.Keeps.forM (fun _ => ?_) _)
        | (refine Op.Keeps.foldlM (fun _ _ => ?_) _ _) | (refine Op.Keeps.modify fun _ _ => ?_)
        | (refine Op.Keeps.throw ?_) | (refine Op.Keeps.set ?_))
    | exact trivial
    | split
    | (exact State.Inv.of_mem (by assumption) rfl)
    | (with_reducible refine State.foldl_keeps (fun _ _ _ => ?_) _ _ ?_)
    | (with_reducible first
        | apply State.Inv.markSeen | apply State.Inv.tlbSet | apply State.Inv.poke | apply State.Inv.placeUnit
        | apply State.Inv.putUnit | apply State.Inv.eccRead | apply State.Inv.pokeSafe | apply State.Inv.ctlWriteBytes)
    | (exact State.Inv.ecc (by assumption) (by tauto))
    | dsimp only

theorem keeps_readUnit (a : Acc) (obj : Option Nat) (pa len : Nat) :
    Op.Keeps State.Inv (readUnit a obj pa len) := by
  unfold readUnit
  repeat' first
    | with_reducible exact Op.Keeps.pure _
    | with_reducible assumption
    | (with_reducible first
        | apply keeps_modCore | apply keeps_accFault | apply keeps_xlFault | apply keeps_eccFault
        | apply keeps_hold | apply keeps_readMem)
    | (with_reducible first
        | (refine Op.Keeps.bind_get fun _ _ => ?_) | (refine Op.Keeps.bind ?_ fun _ => ?_)
        | (refine Op.Keeps.mapM (fun _ => ?_) _) | (refine Op.Keeps.filterMapM (fun _ => ?_) _) | (refine Op.Keeps.forM (fun _ => ?_) _)
        | (refine Op.Keeps.foldlM (fun _ _ => ?_) _ _) | (refine Op.Keeps.modify fun _ _ => ?_)
        | (refine Op.Keeps.throw ?_) | (refine Op.Keeps.set ?_))
    | exact trivial
    | split
    | (exact State.Inv.of_mem (by assumption) rfl)
    | (with_reducible refine State.foldl_keeps (fun _ _ _ => ?_) _ _ ?_)
    | (with_reducible first
        | apply State.Inv.markSeen | apply State.Inv.tlbSet | apply State.Inv.poke | apply State.Inv.placeUnit
        | apply State.Inv.putUnit | apply State.Inv.eccRead | apply State.Inv.pokeSafe | apply State.Inv.ctlWriteBytes)
    | (exact State.Inv.ecc (by assumption) (by tauto))
    | dsimp only

theorem keeps_readCode (a : Acc) (bars : WEnt → Bool) (pa : Nat) :
    Op.Keeps State.Inv (readCode a bars pa) := by
  unfold readCode
  repeat' first
    | with_reducible exact Op.Keeps.pure _
    | with_reducible assumption
    | (with_reducible first
        | apply keeps_modCore | apply keeps_accFault | apply keeps_xlFault | apply keeps_eccFault
        | apply keeps_hold | apply keeps_chooseSeen)
    | (with_reducible first
        | (refine Op.Keeps.bind_get fun _ _ => ?_) | (refine Op.Keeps.bind ?_ fun _ => ?_)
        | (refine Op.Keeps.mapM (fun _ => ?_) _) | (refine Op.Keeps.filterMapM (fun _ => ?_) _) | (refine Op.Keeps.forM (fun _ => ?_) _)
        | (refine Op.Keeps.foldlM (fun _ _ => ?_) _ _) | (refine Op.Keeps.modify fun _ _ => ?_)
        | (refine Op.Keeps.throw ?_) | (refine Op.Keeps.set ?_))
    | exact trivial
    | split
    | (exact State.Inv.of_mem (by assumption) rfl)
    | (with_reducible refine State.foldl_keeps (fun _ _ _ => ?_) _ _ ?_)
    | (with_reducible first
        | apply State.Inv.markSeen | apply State.Inv.tlbSet | apply State.Inv.poke | apply State.Inv.placeUnit
        | apply State.Inv.putUnit | apply State.Inv.eccRead | apply State.Inv.pokeSafe | apply State.Inv.ctlWriteBytes)
    | (exact State.Inv.ecc (by assumption) (by tauto))
    | dsimp only

theorem keeps_writeUnit (a : Acc) (obj : Option Nat) (pa : Nat) (bytes : List Byte) :
    Op.Keeps State.Inv (writeUnit a obj pa bytes) := by
  unfold writeUnit
  repeat' first
    | with_reducible exact Op.Keeps.pure _
    | with_reducible assumption
    | (with_reducible first
        | apply keeps_modCore | apply keeps_accFault | apply keeps_xlFault | apply keeps_eccFault
        | apply keeps_hold)
    | (with_reducible first
        | (refine Op.Keeps.bind_get fun _ _ => ?_) | (refine Op.Keeps.bind ?_ fun _ => ?_)
        | (refine Op.Keeps.mapM (fun _ => ?_) _) | (refine Op.Keeps.filterMapM (fun _ => ?_) _) | (refine Op.Keeps.forM (fun _ => ?_) _)
        | (refine Op.Keeps.foldlM (fun _ _ => ?_) _ _) | (refine Op.Keeps.modify fun _ _ => ?_)
        | (refine Op.Keeps.throw ?_) | (refine Op.Keeps.set ?_))
    | exact trivial
    | split
    | (exact State.Inv.of_mem (by assumption) rfl)
    | (with_reducible refine State.foldl_keeps (fun _ _ _ => ?_) _ _ ?_)
    | (with_reducible first
        | apply State.Inv.markSeen | apply State.Inv.tlbSet | apply State.Inv.poke | apply State.Inv.placeUnit
        | apply State.Inv.putUnit | apply State.Inv.eccRead | apply State.Inv.pokeSafe | apply State.Inv.ctlWriteBytes)
    | (exact State.Inv.ecc (by assumption) (by tauto))
    | dsimp only

theorem keeps_storeUnit (a : Acc) (obj : Option Nat) (pa : Nat) (bytes : List Byte) :
    Op.Keeps State.Inv (storeUnit a obj pa bytes) := by
  unfold storeUnit
  repeat' first
    | with_reducible exact Op.Keeps.pure _
    | with_reducible assumption
    | (with_reducible first
        | apply keeps_modCore | apply keeps_accFault | apply keeps_xlFault | apply keeps_eccFault
        | apply keeps_hold | apply keeps_writeUnit | apply keeps_draw)
    | (with_reducible first
        | (refine Op.Keeps.bind_get fun _ _ => ?_) | (refine Op.Keeps.bind ?_ fun _ => ?_)
        | (refine Op.Keeps.mapM (fun _ => ?_) _) | (refine Op.Keeps.filterMapM (fun _ => ?_) _) | (refine Op.Keeps.forM (fun _ => ?_) _)
        | (refine Op.Keeps.foldlM (fun _ _ => ?_) _ _) | (refine Op.Keeps.modify fun _ _ => ?_)
        | (refine Op.Keeps.throw ?_) | (refine Op.Keeps.set ?_))
    | exact trivial
    | split
    | (exact State.Inv.of_mem (by assumption) rfl)
    | (with_reducible refine State.foldl_keeps (fun _ _ _ => ?_) _ _ ?_)
    | (with_reducible first
        | apply State.Inv.markSeen | apply State.Inv.tlbSet | apply State.Inv.poke | apply State.Inv.placeUnit
        | apply State.Inv.putUnit | apply State.Inv.eccRead | apply State.Inv.pokeSafe | apply State.Inv.ctlWriteBytes)
    | (exact State.Inv.ecc (by assumption) (by tauto))
    | dsimp only

theorem keeps_eccCheckRead (a : Acc) (va pa len : Nat) :
    Op.Keeps State.Inv (eccCheckRead a va pa len) := by
  unfold eccCheckRead
  repeat' first
    | with_reducible exact Op.Keeps.pure _
    | with_reducible assumption
    | (with_reducible first
        | apply keeps_modCore | apply keeps_accFault | apply keeps_xlFault | apply keeps_eccFault
        | apply keeps_hold)
    | (with_reducible first
        | (refine Op.Keeps.bind_get fun _ _ => ?_) | (refine Op.Keeps.bind ?_ fun _ => ?_)
        | (refine Op.Keeps.mapM (fun _ => ?_) _) | (refine Op.Keeps.filterMapM (fun _ => ?_) _) | (refine Op.Keeps.forM (fun _ => ?_) _)
        | (refine Op.Keeps.foldlM (fun _ _ => ?_) _ _) | (refine Op.Keeps.modify fun _ _ => ?_)
        | (refine Op.Keeps.throw ?_) | (refine Op.Keeps.set ?_))
    | exact trivial
    | split
    | (exact State.Inv.of_mem (by assumption) rfl)
    | (with_reducible refine State.foldl_keeps (fun _ _ _ => ?_) _ _ ?_)
    | (with_reducible first
        | apply State.Inv.markSeen | apply State.Inv.tlbSet | apply State.Inv.poke | apply State.Inv.placeUnit
        | apply State.Inv.putUnit | apply State.Inv.eccRead | apply State.Inv.pokeSafe | apply State.Inv.ctlWriteBytes)
    | (exact State.Inv.ecc (by assumption) (by tauto))
    | dsimp only

theorem keeps_eccCheckWrite (a : Acc) (va pa len : Nat) :
    Op.Keeps State.Inv (eccCheckWrite a va pa len) := by
  unfold eccCheckWrite
  repeat' first
    | with_reducible exact Op.Keeps.pure _
    | with_reducible assumption
    | (with_reducible first
        | apply keeps_modCore | apply keeps_accFault | apply keeps_xlFault | apply keeps_eccFault
        | apply keeps_hold)
    | (with_reducible first
        | (refine Op.Keeps.bind_get fun _ _ => ?_) | (refine Op.Keeps.bind ?_ fun _ => ?_)
        | (refine Op.Keeps.mapM (fun _ => ?_) _) | (refine Op.Keeps.filterMapM (fun _ => ?_) _) | (refine Op.Keeps.forM (fun _ => ?_) _)
        | (refine Op.Keeps.foldlM (fun _ _ => ?_) _ _) | (refine Op.Keeps.modify fun _ _ => ?_)
        | (refine Op.Keeps.throw ?_) | (refine Op.Keeps.set ?_))
    | exact trivial
    | split
    | (exact State.Inv.of_mem (by assumption) rfl)
    | (with_reducible refine State.foldl_keeps (fun _ _ _ => ?_) _ _ ?_)
    | (with_reducible first
        | apply State.Inv.markSeen | apply State.Inv.tlbSet | apply State.Inv.poke | apply State.Inv.placeUnit
        | apply State.Inv.putUnit | apply State.Inv.eccRead | apply State.Inv.pokeSafe | apply State.Inv.ctlWriteBytes)
    | (exact State.Inv.ecc (by assumption) (by tauto))
    | dsimp only

theorem keeps_eccCheckPart (a : Acc) (va pa len : Nat) :
    Op.Keeps State.Inv (eccCheckPart a va pa len) := by
  unfold eccCheckPart
  repeat' first
    | with_reducible exact Op.Keeps.pure _
    | with_reducible assumption
    | (with_reducible first
        | apply keeps_modCore | apply keeps_accFault | apply keeps_xlFault | apply keeps_eccFault
        | apply keeps_hold)
    | (with_reducible first
        | (refine Op.Keeps.bind_get fun _ _ => ?_) | (refine Op.Keeps.bind ?_ fun _ => ?_)
        | (refine Op.Keeps.mapM (fun _ => ?_) _) | (refine Op.Keeps.filterMapM (fun _ => ?_) _) | (refine Op.Keeps.forM (fun _ => ?_) _)
        | (refine Op.Keeps.foldlM (fun _ _ => ?_) _ _) | (refine Op.Keeps.modify fun _ _ => ?_)
        | (refine Op.Keeps.throw ?_) | (refine Op.Keeps.set ?_))
    | exact trivial
    | split
    | (exact State.Inv.of_mem (by assumption) rfl)
    | (with_reducible refine State.foldl_keeps (fun _ _ _ => ?_) _ _ ?_)
    | (with_reducible first
        | apply State.Inv.markSeen | apply State.Inv.tlbSet | apply State.Inv.poke | apply State.Inv.placeUnit
        | apply State.Inv.putUnit | apply State.Inv.eccRead | apply State.Inv.pokeSafe | apply State.Inv.ctlWriteBytes)
    | (exact State.Inv.ecc (by assumption) (by tauto))
    | dsimp only

theorem keeps_tableEcc (a : Acc) (va lvl pa : Nat) :
    Op.Keeps State.Inv (tableEcc a va lvl pa) := by
  unfold tableEcc
  repeat' first
    | with_reducible exact Op.Keeps.pure _
    | with_reducible assumption
    | (with_reducible first
        | apply keeps_modCore | apply keeps_accFault | apply keeps_xlFault | apply keeps_eccFault
        | apply keeps_hold)
    | (with_reducible first
        | (refine Op.Keeps.bind_get fun _ _ => ?_) | (refine Op.Keeps.bind ?_ fun _ => ?_)
        | (refine Op.Keeps.mapM (fun _ => ?_) _) | (refine Op.Keeps.filterMapM (fun _ => ?_) _) | (refine Op.Keeps.forM (fun _ => ?_) _)
        | (refine Op.Keeps.foldlM (fun _ _ => ?_) _ _) | (refine Op.Keeps.modify fun _ _ => ?_)
        | (refine Op.Keeps.throw ?_) | (refine Op.Keeps.set ?_))
    | exact trivial
    | split
    | (exact State.Inv.of_mem (by assumption) rfl)
    | (with_reducible refine State.foldl_keeps (fun _ _ _ => ?_) _ _ ?_)
    | (with_reducible first
        | apply State.Inv.markSeen | apply State.Inv.tlbSet | apply State.Inv.poke | apply State.Inv.placeUnit
        | apply State.Inv.putUnit | apply State.Inv.eccRead | apply State.Inv.pokeSafe | apply State.Inv.ctlWriteBytes)
    | (exact State.Inv.ecc (by assumption) (by tauto))
    | dsimp only

theorem keeps_entryAt (a : Acc) (fresh : Bool) (pa : Nat) :
    Op.Keeps State.Inv (entryAt a fresh pa) := by
  unfold entryAt
  repeat' first
    | with_reducible exact Op.Keeps.pure _
    | with_reducible assumption
    | (with_reducible first
        | apply keeps_modCore | apply keeps_accFault | apply keeps_xlFault | apply keeps_eccFault
        | apply keeps_hold | apply keeps_readUnit)
    | (with_reducible first
        | (refine Op.Keeps.bind_get fun _ _ => ?_) | (refine Op.Keeps.bind ?_ fun _ => ?_)
        | (refine Op.Keeps.mapM (fun _ => ?_) _) | (refine Op.Keeps.filterMapM (fun _ => ?_) _) | (refine Op.Keeps.forM (fun _ => ?_) _)
        | (refine Op.Keeps.foldlM (fun _ _ => ?_) _ _) | (refine Op.Keeps.modify fun _ _ => ?_)
        | (refine Op.Keeps.throw ?_) | (refine Op.Keeps.set ?_))
    | exact trivial
    | split
    | (exact State.Inv.of_mem (by assumption) rfl)
    | (with_reducible refine State.foldl_keeps (fun _ _ _ => ?_) _ _ ?_)
    | (with_reducible first
        | apply State.Inv.markSeen | apply State.Inv.tlbSet | apply State.Inv.poke | apply State.Inv.placeUnit
        | apply State.Inv.putUnit | apply State.Inv.eccRead | apply State.Inv.pokeSafe | apply State.Inv.ctlWriteBytes)
    | (exact State.Inv.ecc (by assumption) (by tauto))
    | dsimp only

theorem keeps_readEntry (a : Acc) (va lvl : Nat) (fresh : Bool) (pa : Nat) :
    Op.Keeps State.Inv (readEntry a va lvl fresh pa) := by
  unfold readEntry
  repeat' first
    | with_reducible exact Op.Keeps.pure _
    | with_reducible assumption
    | (with_reducible first
        | apply keeps_modCore | apply keeps_accFault | apply keeps_xlFault | apply keeps_eccFault
        | apply keeps_hold | apply keeps_tableEcc | apply keeps_entryAt)
    | (with_reducible first
        | (refine Op.Keeps.bind_get fun _ _ => ?_) | (refine Op.Keeps.bind ?_ fun _ => ?_)
        | (refine Op.Keeps.mapM (fun _ => ?_) _) | (refine Op.Keeps.filterMapM (fun _ => ?_) _) | (refine Op.Keeps.forM (fun _ => ?_) _)
        | (refine Op.Keeps.foldlM (fun _ _ => ?_) _ _) | (refine Op.Keeps.modify fun _ _ => ?_)
        | (refine Op.Keeps.throw ?_) | (refine Op.Keeps.set ?_))
    | exact trivial
    | split
    | (exact State.Inv.of_mem (by assumption) rfl)
    | (with_reducible refine State.foldl_keeps (fun _ _ _ => ?_) _ _ ?_)
    | (with_reducible first
        | apply State.Inv.markSeen | apply State.Inv.tlbSet | apply State.Inv.poke | apply State.Inv.placeUnit
        | apply State.Inv.putUnit | apply State.Inv.eccRead | apply State.Inv.pokeSafe | apply State.Inv.ctlWriteBytes)
    | (exact State.Inv.ecc (by assumption) (by tauto))
    | dsimp only

theorem keeps_contiguousEntry (a : Acc) (l : Nat) (fresh : Bool) (pa e : Nat) :
    Op.Keeps State.Inv (contiguousEntry a l fresh pa e) := by
  unfold contiguousEntry
  repeat' first
    | with_reducible exact Op.Keeps.pure _
    | with_reducible assumption
    | (with_reducible first
        | apply keeps_modCore | apply keeps_accFault | apply keeps_xlFault | apply keeps_eccFault
        | apply keeps_hold | apply keeps_entryAt)
    | (with_reducible first
        | (refine Op.Keeps.bind_get fun _ _ => ?_) | (refine Op.Keeps.bind ?_ fun _ => ?_)
        | (refine Op.Keeps.mapM (fun _ => ?_) _) | (refine Op.Keeps.filterMapM (fun _ => ?_) _) | (refine Op.Keeps.forM (fun _ => ?_) _)
        | (refine Op.Keeps.foldlM (fun _ _ => ?_) _ _) | (refine Op.Keeps.modify fun _ _ => ?_)
        | (refine Op.Keeps.throw ?_) | (refine Op.Keeps.set ?_))
    | exact trivial
    | split
    | (exact State.Inv.of_mem (by assumption) rfl)
    | (with_reducible refine State.foldl_keeps (fun _ _ _ => ?_) _ _ ?_)
    | (with_reducible first
        | apply State.Inv.markSeen | apply State.Inv.tlbSet | apply State.Inv.poke | apply State.Inv.placeUnit
        | apply State.Inv.putUnit | apply State.Inv.eccRead | apply State.Inv.pokeSafe | apply State.Inv.ctlWriteBytes)
    | (exact State.Inv.ecc (by assumption) (by tauto))
    | dsimp only

theorem keeps_walkDown (a : Acc) (va : Nat) (kind : Kind) (fresh : Bool) (t l : Nat) :
    Op.Keeps State.Inv (walkDown a va kind fresh t l) := by
  induction l generalizing t with
  | zero => exact keeps_xlFault _ _ _ _ _ _
  | succ l ih =>
    unfold walkDown
    refine Op.Keeps.bind (keeps_readEntry _ _ _ _ _) fun e => ?_
    repeat' first
      | with_reducible exact Op.Keeps.pure _
      | exact keeps_xlFault _ _ _ _ _ _
      | exact ih _
      | split

theorem keeps_walkOnce (a : Acc) (va : Nat) (kind : Kind) (fresh ahead : Bool) :
    Op.Keeps State.Inv (walkOnce a va kind fresh ahead) := by
  unfold walkOnce
  repeat' first
    | with_reducible exact Op.Keeps.pure _
    | with_reducible assumption
    | (with_reducible first
        | apply keeps_modCore | apply keeps_accFault | apply keeps_xlFault | apply keeps_eccFault
        | apply keeps_hold | apply keeps_contiguousEntry | apply keeps_walkDown)
    | (with_reducible first
        | (refine Op.Keeps.bind_get fun _ _ => ?_) | (refine Op.Keeps.bind ?_ fun _ => ?_)
        | (refine Op.Keeps.mapM (fun _ => ?_) _) | (refine Op.Keeps.filterMapM (fun _ => ?_) _) | (refine Op.Keeps.forM (fun _ => ?_) _)
        | (refine Op.Keeps.foldlM (fun _ _ => ?_) _ _) | (refine Op.Keeps.modify fun _ _ => ?_)
        | (refine Op.Keeps.throw ?_) | (refine Op.Keeps.set ?_))
    | exact trivial
    | split
    | (exact State.Inv.of_mem (by assumption) rfl)
    | (with_reducible refine State.foldl_keeps (fun _ _ _ => ?_) _ _ ?_)
    | (with_reducible first
        | apply State.Inv.markSeen | apply State.Inv.tlbSet | apply State.Inv.poke | apply State.Inv.placeUnit
        | apply State.Inv.putUnit | apply State.Inv.eccRead | apply State.Inv.pokeSafe | apply State.Inv.ctlWriteBytes)
    | (exact State.Inv.ecc (by assumption) (by tauto))
    | dsimp only

theorem State.Inv.walkAhead {s : State} (h : s.Inv) (a : Acc) (kind : Kind) (va : Nat) : (s.walkAhead a kind va).Inv := by
  unfold State.walkAhead
  split
  · exact h
  · have hk := keeps_walkOnce a va kind false true s h
    cases e : (walkOnce a va kind false true).run s with
    | ok r => rw [e] at hk; exact hk
    | error _ => exact h

theorem keeps_reach (a : Acc) (kind : Kind) (va : Nat) :
    Op.Keeps State.Inv (reach a kind va) := by
  unfold reach
  repeat' first
    | with_reducible exact Op.Keeps.pure _
    | with_reducible assumption
    | (with_reducible first
        | apply keeps_modCore | apply keeps_accFault | apply keeps_xlFault | apply keeps_eccFault
        | apply keeps_hold | apply keeps_walkOnce)
    | (with_reducible first
        | (refine Op.Keeps.bind_get fun _ _ => ?_) | (refine Op.Keeps.bind ?_ fun _ => ?_)
        | (refine Op.Keeps.mapM (fun _ => ?_) _) | (refine Op.Keeps.filterMapM (fun _ => ?_) _) | (refine Op.Keeps.forM (fun _ => ?_) _)
        | (refine Op.Keeps.foldlM (fun _ _ => ?_) _ _) | (refine Op.Keeps.modify fun _ _ => ?_)
        | (refine Op.Keeps.throw ?_) | (refine Op.Keeps.set ?_))
    | exact trivial
    | split
    | (exact State.Inv.of_mem (by assumption) rfl)
    | (with_reducible refine State.foldl_keeps (fun _ _ _ => ?_) _ _ ?_)
    | (with_reducible first
        | apply State.Inv.markSeen | apply State.Inv.tlbSet | apply State.Inv.poke | apply State.Inv.placeUnit
        | apply State.Inv.putUnit | apply State.Inv.eccRead | apply State.Inv.pokeSafe | apply State.Inv.ctlWriteBytes)
    | (exact State.Inv.ecc (by assumption) (by tauto))
    | dsimp only

theorem keeps_hostGuard (a : Acc) (va pa : Nat) :
    Op.Keeps State.Inv (hostGuard a va pa) := by
  unfold hostGuard
  repeat' first
    | with_reducible exact Op.Keeps.pure _
    | with_reducible assumption
    | (with_reducible first
        | apply keeps_modCore | apply keeps_accFault | apply keeps_xlFault | apply keeps_eccFault
        | apply keeps_hold)
    | (with_reducible first
        | (refine Op.Keeps.bind_get fun _ _ => ?_) | (refine Op.Keeps.bind ?_ fun _ => ?_)
        | (refine Op.Keeps.mapM (fun _ => ?_) _) | (refine Op.Keeps.filterMapM (fun _ => ?_) _) | (refine Op.Keeps.forM (fun _ => ?_) _)
        | (refine Op.Keeps.foldlM (fun _ _ => ?_) _ _) | (refine Op.Keeps.modify fun _ _ => ?_)
        | (refine Op.Keeps.throw ?_) | (refine Op.Keeps.set ?_))
    | exact trivial
    | split
    | (exact State.Inv.of_mem (by assumption) rfl)
    | (with_reducible refine State.foldl_keeps (fun _ _ _ => ?_) _ _ ?_)
    | (with_reducible first
        | apply State.Inv.markSeen | apply State.Inv.tlbSet | apply State.Inv.poke | apply State.Inv.placeUnit
        | apply State.Inv.putUnit | apply State.Inv.eccRead | apply State.Inv.pokeSafe | apply State.Inv.ctlWriteBytes)
    | (exact State.Inv.ecc (by assumption) (by tauto))
    | dsimp only

theorem keeps_translate (a : Acc) (kind : Kind) (va : Nat) :
    Op.Keeps State.Inv (translate a kind va) := by
  unfold translate
  repeat' first
    | with_reducible exact Op.Keeps.pure _
    | with_reducible assumption
    | (with_reducible first
        | apply keeps_modCore | apply keeps_accFault | apply keeps_xlFault | apply keeps_eccFault
        | apply keeps_hold | apply keeps_reach | apply keeps_hostGuard)
    | (with_reducible first
        | (refine Op.Keeps.bind_get fun _ _ => ?_) | (refine Op.Keeps.bind ?_ fun _ => ?_)
        | (refine Op.Keeps.mapM (fun _ => ?_) _) | (refine Op.Keeps.filterMapM (fun _ => ?_) _) | (refine Op.Keeps.forM (fun _ => ?_) _)
        | (refine Op.Keeps.foldlM (fun _ _ => ?_) _ _) | (refine Op.Keeps.modify fun _ _ => ?_)
        | (refine Op.Keeps.throw ?_) | (refine Op.Keeps.set ?_))
    | exact trivial
    | split
    | (exact State.Inv.of_mem (by assumption) rfl)
    | (with_reducible refine State.foldl_keeps (fun _ _ _ => ?_) _ _ ?_)
    | (with_reducible first
        | apply State.Inv.markSeen | apply State.Inv.tlbSet | apply State.Inv.poke | apply State.Inv.placeUnit
        | apply State.Inv.putUnit | apply State.Inv.eccRead | apply State.Inv.pokeSafe | apply State.Inv.ctlWriteBytes)
    | (exact State.Inv.ecc (by assumption) (by tauto))
    | dsimp only

theorem keeps_chunks (a : Acc) (kind : Kind) (va len : Nat) :
    Op.Keeps State.Inv (chunks a kind va len) := by
  unfold chunks
  repeat' first
    | with_reducible exact Op.Keeps.pure _
    | with_reducible assumption
    | (with_reducible first
        | apply keeps_modCore | apply keeps_accFault | apply keeps_xlFault | apply keeps_eccFault
        | apply keeps_hold | apply keeps_translate)
    | (with_reducible first
        | (refine Op.Keeps.bind_get fun _ _ => ?_) | (refine Op.Keeps.bind ?_ fun _ => ?_)
        | (refine Op.Keeps.mapM (fun _ => ?_) _) | (refine Op.Keeps.filterMapM (fun _ => ?_) _) | (refine Op.Keeps.forM (fun _ => ?_) _)
        | (refine Op.Keeps.foldlM (fun _ _ => ?_) _ _) | (refine Op.Keeps.modify fun _ _ => ?_)
        | (refine Op.Keeps.throw ?_) | (refine Op.Keeps.set ?_))
    | exact trivial
    | split
    | (exact State.Inv.of_mem (by assumption) rfl)
    | (with_reducible refine State.foldl_keeps (fun _ _ _ => ?_) _ _ ?_)
    | (with_reducible first
        | apply State.Inv.markSeen | apply State.Inv.tlbSet | apply State.Inv.poke | apply State.Inv.placeUnit
        | apply State.Inv.putUnit | apply State.Inv.eccRead | apply State.Inv.pokeSafe | apply State.Inv.ctlWriteBytes)
    | (exact State.Inv.ecc (by assumption) (by tauto))
    | dsimp only

theorem keeps_readChunk (a : Acc) (one : Bool) (c : Chunk) :
    Op.Keeps State.Inv (readChunk a one c) := by
  unfold readChunk
  repeat' first
    | with_reducible exact Op.Keeps.pure _
    | with_reducible assumption
    | (with_reducible first
        | apply keeps_modCore | apply keeps_accFault | apply keeps_xlFault | apply keeps_eccFault
        | apply keeps_hold | apply keeps_eccCheckRead | apply keeps_readUnit)
    | (with_reducible first
        | (refine Op.Keeps.bind_get fun _ _ => ?_) | (refine Op.Keeps.bind ?_ fun _ => ?_)
        | (refine Op.Keeps.mapM (fun _ => ?_) _) | (refine Op.Keeps.filterMapM (fun _ => ?_) _) | (refine Op.Keeps.forM (fun _ => ?_) _)
        | (refine Op.Keeps.foldlM (fun _ _ => ?_) _ _) | (refine Op.Keeps.modify fun _ _ => ?_)
        | (refine Op.Keeps.throw ?_) | (refine Op.Keeps.set ?_))
    | exact trivial
    | split
    | (exact State.Inv.of_mem (by assumption) rfl)
    | (with_reducible refine State.foldl_keeps (fun _ _ _ => ?_) _ _ ?_)
    | (with_reducible first
        | apply State.Inv.markSeen | apply State.Inv.tlbSet | apply State.Inv.poke | apply State.Inv.placeUnit
        | apply State.Inv.putUnit | apply State.Inv.eccRead | apply State.Inv.pokeSafe | apply State.Inv.ctlWriteBytes)
    | (exact State.Inv.ecc (by assumption) (by tauto))
    | dsimp only

theorem keeps_readBytes (a : Acc) (one : Bool) (va len : Nat) :
    Op.Keeps State.Inv (readBytes a one va len) := by
  unfold readBytes
  repeat' first
    | with_reducible exact Op.Keeps.pure _
    | with_reducible assumption
    | (with_reducible first
        | apply keeps_modCore | apply keeps_accFault | apply keeps_xlFault | apply keeps_eccFault
        | apply keeps_hold | apply keeps_chunks | apply keeps_readChunk)
    | (with_reducible first
        | (refine Op.Keeps.bind_get fun _ _ => ?_) | (refine Op.Keeps.bind ?_ fun _ => ?_)
        | (refine Op.Keeps.mapM (fun _ => ?_) _) | (refine Op.Keeps.filterMapM (fun _ => ?_) _) | (refine Op.Keeps.forM (fun _ => ?_) _)
        | (refine Op.Keeps.foldlM (fun _ _ => ?_) _ _) | (refine Op.Keeps.modify fun _ _ => ?_)
        | (refine Op.Keeps.throw ?_) | (refine Op.Keeps.set ?_))
    | exact trivial
    | split
    | (exact State.Inv.of_mem (by assumption) rfl)
    | (with_reducible refine State.foldl_keeps (fun _ _ _ => ?_) _ _ ?_)
    | (with_reducible first
        | apply State.Inv.markSeen | apply State.Inv.tlbSet | apply State.Inv.poke | apply State.Inv.placeUnit
        | apply State.Inv.putUnit | apply State.Inv.eccRead | apply State.Inv.pokeSafe | apply State.Inv.ctlWriteBytes)
    | (exact State.Inv.ecc (by assumption) (by tauto))
    | dsimp only

theorem keeps_readNat (a : Acc) (one : Bool) (va len : Nat) :
    Op.Keeps State.Inv (readNat a one va len) := by
  unfold readNat
  repeat' first
    | with_reducible exact Op.Keeps.pure _
    | with_reducible assumption
    | (with_reducible first
        | apply keeps_modCore | apply keeps_accFault | apply keeps_xlFault | apply keeps_eccFault
        | apply keeps_hold | apply keeps_readBytes)
    | (with_reducible first
        | (refine Op.Keeps.bind_get fun _ _ => ?_) | (refine Op.Keeps.bind ?_ fun _ => ?_)
        | (refine Op.Keeps.mapM (fun _ => ?_) _) | (refine Op.Keeps.filterMapM (fun _ => ?_) _) | (refine Op.Keeps.forM (fun _ => ?_) _)
        | (refine Op.Keeps.foldlM (fun _ _ => ?_) _ _) | (refine Op.Keeps.modify fun _ _ => ?_)
        | (refine Op.Keeps.throw ?_) | (refine Op.Keeps.set ?_))
    | exact trivial
    | split
    | (exact State.Inv.of_mem (by assumption) rfl)
    | (with_reducible refine State.foldl_keeps (fun _ _ _ => ?_) _ _ ?_)
    | (with_reducible first
        | apply State.Inv.markSeen | apply State.Inv.tlbSet | apply State.Inv.poke | apply State.Inv.placeUnit
        | apply State.Inv.putUnit | apply State.Inv.eccRead | apply State.Inv.pokeSafe | apply State.Inv.ctlWriteBytes)
    | (exact State.Inv.ecc (by assumption) (by tauto))
    | dsimp only

theorem keeps_bufferRoom (a : Acc) (len : Nat) :
    Op.Keeps State.Inv (bufferRoom a len) := by
  unfold bufferRoom
  repeat' first
    | with_reducible exact Op.Keeps.pure _
    | with_reducible assumption
    | (with_reducible first
        | apply keeps_modCore | apply keeps_accFault | apply keeps_xlFault | apply keeps_eccFault
        | apply keeps_hold)
    | (with_reducible first
        | (refine Op.Keeps.bind_get fun _ _ => ?_) | (refine Op.Keeps.bind ?_ fun _ => ?_)
        | (refine Op.Keeps.mapM (fun _ => ?_) _) | (refine Op.Keeps.filterMapM (fun _ => ?_) _) | (refine Op.Keeps.forM (fun _ => ?_) _)
        | (refine Op.Keeps.foldlM (fun _ _ => ?_) _ _) | (refine Op.Keeps.modify fun _ _ => ?_)
        | (refine Op.Keeps.throw ?_) | (refine Op.Keeps.set ?_))
    | exact trivial
    | split
    | (exact State.Inv.of_mem (by assumption) rfl)
    | (with_reducible refine State.foldl_keeps (fun _ _ _ => ?_) _ _ ?_)
    | (with_reducible first
        | apply State.Inv.markSeen | apply State.Inv.tlbSet | apply State.Inv.poke | apply State.Inv.placeUnit
        | apply State.Inv.putUnit | apply State.Inv.eccRead | apply State.Inv.pokeSafe | apply State.Inv.ctlWriteBytes)
    | (exact State.Inv.ecc (by assumption) (by tauto))
    | dsimp only

theorem keeps_writeChunk (a : Acc) (one : Bool) (c : Chunk) (bytes : List Byte) :
    Op.Keeps State.Inv (writeChunk a one c bytes) := by
  unfold writeChunk
  repeat' first
    | with_reducible exact Op.Keeps.pure _
    | with_reducible assumption
    | (with_reducible first
        | apply keeps_modCore | apply keeps_accFault | apply keeps_xlFault | apply keeps_eccFault
        | apply keeps_hold | apply keeps_writeUnit | apply keeps_eccCheckWrite | apply keeps_eccCheckPart
        | apply keeps_storeUnit)
    | (with_reducible first
        | (refine Op.Keeps.bind_get fun _ _ => ?_) | (refine Op.Keeps.bind ?_ fun _ => ?_)
        | (refine Op.Keeps.mapM (fun _ => ?_) _) | (refine Op.Keeps.filterMapM (fun _ => ?_) _) | (refine Op.Keeps.forM (fun _ => ?_) _)
        | (refine Op.Keeps.foldlM (fun _ _ => ?_) _ _) | (refine Op.Keeps.modify fun _ _ => ?_)
        | (refine Op.Keeps.throw ?_) | (refine Op.Keeps.set ?_))
    | exact trivial
    | split
    | (exact State.Inv.of_mem (by assumption) rfl)
    | (with_reducible refine State.foldl_keeps (fun _ _ _ => ?_) _ _ ?_)
    | (with_reducible first
        | apply State.Inv.markSeen | apply State.Inv.tlbSet | apply State.Inv.poke | apply State.Inv.placeUnit
        | apply State.Inv.putUnit | apply State.Inv.eccRead | apply State.Inv.pokeSafe | apply State.Inv.ctlWriteBytes)
    | (exact State.Inv.ecc (by assumption) (by tauto))
    | dsimp only

theorem keeps_writePieces (a : Acc) (one : Bool) (cs : List Chunk) (b : List Byte) :
    Op.Keeps State.Inv (writePieces a one cs b) := by
  induction cs generalizing b with
  | nil => exact Op.Keeps.pure _
  | cons c cs ih => exact (keeps_writeChunk _ _ _ _).bind fun _ => ih _

theorem keeps_writeChunks (a : Acc) (one : Bool) (cs : List Chunk) (b : List Byte) :
    Op.Keeps State.Inv (writeChunks a one cs b) := by
  unfold writeChunks
  repeat' first
    | with_reducible exact Op.Keeps.pure _
    | with_reducible assumption
    | (with_reducible first
        | apply keeps_modCore | apply keeps_accFault | apply keeps_xlFault | apply keeps_eccFault
        | apply keeps_hold | apply keeps_writePieces)
    | (with_reducible first
        | (refine Op.Keeps.bind_get fun _ _ => ?_) | (refine Op.Keeps.bind ?_ fun _ => ?_)
        | (refine Op.Keeps.mapM (fun _ => ?_) _) | (refine Op.Keeps.filterMapM (fun _ => ?_) _) | (refine Op.Keeps.forM (fun _ => ?_) _)
        | (refine Op.Keeps.foldlM (fun _ _ => ?_) _ _) | (refine Op.Keeps.modify fun _ _ => ?_)
        | (refine Op.Keeps.throw ?_) | (refine Op.Keeps.set ?_))
    | exact trivial
    | split
    | (exact State.Inv.of_mem (by assumption) rfl)
    | (with_reducible refine State.foldl_keeps (fun _ _ _ => ?_) _ _ ?_)
    | (with_reducible first
        | apply State.Inv.markSeen | apply State.Inv.tlbSet | apply State.Inv.poke | apply State.Inv.placeUnit
        | apply State.Inv.putUnit | apply State.Inv.eccRead | apply State.Inv.pokeSafe | apply State.Inv.ctlWriteBytes)
    | (exact State.Inv.ecc (by assumption) (by tauto))
    | dsimp only

theorem keeps_writeBytes (a : Acc) (one : Bool) (va : Nat) (bytes : List Byte) :
    Op.Keeps State.Inv (writeBytes a one va bytes) := by
  unfold writeBytes
  repeat' first
    | with_reducible exact Op.Keeps.pure _
    | with_reducible assumption
    | (with_reducible first
        | apply keeps_modCore | apply keeps_accFault | apply keeps_xlFault | apply keeps_eccFault
        | apply keeps_hold | apply keeps_chunks | apply keeps_bufferRoom | apply keeps_writeChunks)
    | (with_reducible first
        | (refine Op.Keeps.bind_get fun _ _ => ?_) | (refine Op.Keeps.bind ?_ fun _ => ?_)
        | (refine Op.Keeps.mapM (fun _ => ?_) _) | (refine Op.Keeps.filterMapM (fun _ => ?_) _) | (refine Op.Keeps.forM (fun _ => ?_) _)
        | (refine Op.Keeps.foldlM (fun _ _ => ?_) _ _) | (refine Op.Keeps.modify fun _ _ => ?_)
        | (refine Op.Keeps.throw ?_) | (refine Op.Keeps.set ?_))
    | exact trivial
    | split
    | (exact State.Inv.of_mem (by assumption) rfl)
    | (with_reducible refine State.foldl_keeps (fun _ _ _ => ?_) _ _ ?_)
    | (with_reducible first
        | apply State.Inv.markSeen | apply State.Inv.tlbSet | apply State.Inv.poke | apply State.Inv.placeUnit
        | apply State.Inv.putUnit | apply State.Inv.eccRead | apply State.Inv.pokeSafe | apply State.Inv.ctlWriteBytes)
    | (exact State.Inv.ecc (by assumption) (by tauto))
    | dsimp only

theorem keeps_bankTarget (a : Acc) (kind : Kind) (va size : Nat) :
    Op.Keeps State.Inv (bankTarget a kind va size) := by
  unfold bankTarget
  repeat' first
    | with_reducible exact Op.Keeps.pure _
    | with_reducible assumption
    | (with_reducible first
        | apply keeps_modCore | apply keeps_accFault | apply keeps_xlFault | apply keeps_eccFault
        | apply keeps_hold | apply keeps_reach)
    | (with_reducible first
        | (refine Op.Keeps.bind_get fun _ _ => ?_) | (refine Op.Keeps.bind ?_ fun _ => ?_)
        | (refine Op.Keeps.mapM (fun _ => ?_) _) | (refine Op.Keeps.filterMapM (fun _ => ?_) _) | (refine Op.Keeps.forM (fun _ => ?_) _)
        | (refine Op.Keeps.foldlM (fun _ _ => ?_) _ _) | (refine Op.Keeps.modify fun _ _ => ?_)
        | (refine Op.Keeps.throw ?_) | (refine Op.Keeps.set ?_))
    | exact trivial
    | split
    | (exact State.Inv.of_mem (by assumption) rfl)
    | (with_reducible refine State.foldl_keeps (fun _ _ _ => ?_) _ _ ?_)
    | (with_reducible first
        | apply State.Inv.markSeen | apply State.Inv.tlbSet | apply State.Inv.poke | apply State.Inv.placeUnit
        | apply State.Inv.putUnit | apply State.Inv.eccRead | apply State.Inv.pokeSafe | apply State.Inv.ctlWriteBytes)
    | (exact State.Inv.ecc (by assumption) (by tauto))
    | dsimp only

theorem keeps_bankRead (a : Acc) (va pa len : Nat) :
    Op.Keeps State.Inv (bankRead a va pa len) := by
  unfold bankRead
  repeat' first
    | with_reducible exact Op.Keeps.pure _
    | with_reducible assumption
    | (with_reducible first
        | apply keeps_modCore | apply keeps_accFault | apply keeps_xlFault | apply keeps_eccFault
        | apply keeps_hold | apply keeps_eccCheckRead | apply keeps_flagLink)
    | (with_reducible first
        | (refine Op.Keeps.bind_get fun _ _ => ?_) | (refine Op.Keeps.bind ?_ fun _ => ?_)
        | (refine Op.Keeps.mapM (fun _ => ?_) _) | (refine Op.Keeps.filterMapM (fun _ => ?_) _) | (refine Op.Keeps.forM (fun _ => ?_) _)
        | (refine Op.Keeps.foldlM (fun _ _ => ?_) _ _) | (refine Op.Keeps.modify fun _ _ => ?_)
        | (refine Op.Keeps.throw ?_) | (refine Op.Keeps.set ?_))
    | exact trivial
    | split
    | (exact State.Inv.of_mem (by assumption) rfl)
    | (with_reducible refine State.foldl_keeps (fun _ _ _ => ?_) _ _ ?_)
    | (with_reducible first
        | apply State.Inv.markSeen | apply State.Inv.tlbSet | apply State.Inv.poke | apply State.Inv.placeUnit
        | apply State.Inv.putUnit | apply State.Inv.eccRead | apply State.Inv.pokeSafe | apply State.Inv.ctlWriteBytes)
    | (exact State.Inv.ecc (by assumption) (by tauto))
    | dsimp only

theorem keeps_bankWrite (a : Acc) (va pa : Nat) (bytes : List Byte) :
    Op.Keeps State.Inv (bankWrite a va pa bytes) := by
  unfold bankWrite
  repeat' first
    | with_reducible exact Op.Keeps.pure _
    | with_reducible assumption
    | (with_reducible first
        | apply keeps_modCore | apply keeps_accFault | apply keeps_xlFault | apply keeps_eccFault
        | apply keeps_hold | apply keeps_eccCheckWrite | apply keeps_eccCheckPart | apply keeps_writeUnit)
    | (with_reducible first
        | (refine Op.Keeps.bind_get fun _ _ => ?_) | (refine Op.Keeps.bind ?_ fun _ => ?_)
        | (refine Op.Keeps.mapM (fun _ => ?_) _) | (refine Op.Keeps.filterMapM (fun _ => ?_) _) | (refine Op.Keeps.forM (fun _ => ?_) _)
        | (refine Op.Keeps.foldlM (fun _ _ => ?_) _ _) | (refine Op.Keeps.modify fun _ _ => ?_)
        | (refine Op.Keeps.throw ?_) | (refine Op.Keeps.set ?_))
    | exact trivial
    | split
    | (exact State.Inv.of_mem (by assumption) rfl)
    | (with_reducible refine State.foldl_keeps (fun _ _ _ => ?_) _ _ ?_)
    | (with_reducible first
        | apply State.Inv.markSeen | apply State.Inv.tlbSet | apply State.Inv.poke | apply State.Inv.placeUnit
        | apply State.Inv.putUnit | apply State.Inv.eccRead | apply State.Inv.pokeSafe | apply State.Inv.ctlWriteBytes)
    | (exact State.Inv.ecc (by assumption) (by tauto))
    | dsimp only

end Sys2Proof.Machine
end

