-- ==== Sys2Proof/Laws/PerInstr.lean ====
section
/-! SUPPORT. Per-instruction law FieldsFit: the fields of a well-formed instruction fit the 38 bits below its opcode, and
its opcode the 8 bits of its field (R27), so that no field of its word reaches into another part. -/

namespace Sys2Proof.Laws.FieldsFit

set_option Elab.async false

/-- A well-formed instruction's opcode and placed fields fit their parts of the word. -/
def Statement (i : Instr) : Prop := i.wf = true → i.opF.1 < 2 ^ 8 ∧ place i.opF.2 < 2 ^ 38

theorem ty_code_le (x : Ty) : x.code ≤ 7 := by cases x <;> decide
theorem rnd_code_le (x : Rnd) : x.code ≤ 3 := by cases x <;> decide
theorem iter_code_le (x : Iter) : x.code ≤ 3 := by cases x <;> decide
theorem fTy_code_le (x : FTy) : x.code ≤ 1 := by cases x <;> decide
theorem vFTy_code_le (x : VFTy) : x.code ≤ 3 := by cases x <;> decide
theorem mFmt_code_le (x : MFmt) : x.code ≤ 6 := by cases x <;> decide
theorem mxW_code_le (x : MxW) : x.code ≤ 2 := by cases x <;> decide
theorem mulhKind_code_le (x : MulhKind) : x.code ≤ 2 := by cases x <;> decide
theorem cond_code_le (x : Cond) : x.code ≤ 9 := by cases x <;> decide
theorem extKind_code_le (x : ExtKind) : x.code ≤ 6 := by cases x <;> decide
theorem litKind_code_le (x : LitKind) : x.code ≤ 3 := by cases x <;> decide
theorem fCond_code_le (x : FCond) : x.code ≤ 7 := by cases x <;> decide
theorem cvtTy_code_le (x : CvtTy) : x.code ≤ 5 := by cases x <;> decide
theorem brCond_code_le (x : BrCond) : x.code ≤ 15 := by cases x <;> decide
theorem ldKind_code_le (x : LdKind) : x.code ≤ 7 := by cases x <;> decide
theorem stKind_code_le (x : StKind) : x.code ≤ 7 := by cases x <;> decide
theorem at_code_le (x : At) : x.code ≤ 2 := by cases x <;> decide
theorem amoOp_code_le (x : AmoOp) : x.code ≤ 9 := by cases x <;> decide
theorem wD_code_le (x : WD) : x.code ≤ 1 := by cases x <;> decide
theorem casSz_code_le (x : CasSz) : x.code ≤ 2 := by cases x <;> decide
theorem diffScope_code_le (x : DiffScope) : x.code ≤ 2 := by cases x <;> decide
theorem invScope_code_le (x : InvScope) : x.code ≤ 1 := by cases x <;> decide
theorem tlbSub_code_le (x : TlbSub) : x.code ≤ 2 := by cases x <;> decide
theorem clbSub_code_le (x : ClbSub) : x.code ≤ 2 := by cases x <;> decide
theorem genSel_code_le (x : GenSel) : x.code ≤ 2 := by cases x <;> decide
theorem spRule_code_le (x : SpRule) : x.code ≤ 2 := by cases x <;> decide
theorem drawKind_code_le (x : DrawKind) : x.code ≤ 2 := by cases x <;> decide
theorem vCond_code_le (x : VCond) : x.code ≤ 11 := by cases x <;> decide
theorem redOp_code_le (x : RedOp) : x.code ≤ 6 := by cases x <;> decide
theorem mapqSub_code_le (x : MapqSub) : x.code ≤ 2 := by cases x <;> decide
theorem lsetSrc_code_le (x : LsetSrc) : x.code ≤ 2 := by cases x <;> decide
theorem pat_code_le (x : Pat) : x.code ≤ 2 := by cases x <;> decide
theorem seg_code_le (x : Seg) : x.code ≤ 1 := by cases x <;> decide
theorem tokSub_code_le (x : TokSub) : x.code ≤ 3 := by cases x <;> decide
theorem fields {i : Instr} {h : Hdr} (hw : i.wf = true) (hh : i.hdr = some h) : i.fieldsOk = true := by
  simp only [Instr.wf, hh, Bool.and_eq_true] at hw; exact hw.2

theorem fits {i : Instr} {n : Nat} {l : List (Nat × Nat)} (h : i.opF = (n, l)) (hn : n < 2 ^ 8) (hl : place l < 2 ^ 38) :
    i.opF.1 < 2 ^ 8 ∧ place i.opF.2 < 2 ^ 38 := by rw [h]; exact ⟨hn, hl⟩

theorem boolNat_le (x : Bool) : x.toNat ≤ 1 := by cases x <;> decide

theorem regCode_lt {c : Nat} (h : regCode c = true) : c < 1024 := by simp [regCode] at h; omega
theorem parCode_lt {c : Nat} (h : parCode c = true) : c < 1024 := by simp [parCode] at h; omega
theorem dstCode_lt {c : Nat} (h : dstCode c = true) : c < 1024 := by simp [dstCode] at h; omega
theorem srcCode_lt {c : Nat} (h : srcCode c = true) : c < 1024 := by simp [srcCode] at h; omega

theorem v3ok_lt {t : Bool} {p d a b : Nat} (h : v3ok t p d a b = true) : p < 8 ∧ d < 1024 ∧ a < 1024 ∧ b < 1024 := by
  simp only [v3ok, Bool.and_eq_true, decide_eq_true_eq] at h
  exact ⟨h.1.1.1.2, dstCode_lt h.1.1.2, srcCode_lt h.1.2, srcCode_lt h.2⟩

theorem v3ok1_t {t : Bool} {p d a : Nat} (h : v3ok1 t p d a = true) : t = true := by
  simp only [v3ok1, Bool.and_eq_true] at h; exact h.1.1.1

theorem v3ok1_lt {t : Bool} {p d a : Nat} (h : v3ok1 t p d a = true) : p < 8 ∧ d < 1024 ∧ a < 1024 := by
  simp only [v3ok1, Bool.and_eq_true, decide_eq_true_eq] at h
  exact ⟨h.1.1.2, dstCode_lt h.1.2, srcCode_lt h.2⟩

theorem nop (h_ : Hdr) : Statement (.nop h_) := by
  intro hw
  replace hw := fields hw rfl
  simp [Instr.fieldsOk] at hw
  refine fits rfl (by omega) ?_
  simp only [place]; omega

theorem hint (h_ : Hdr) (n_ : Nat) : Statement (.hint h_ n_) := by
  intro hw
  replace hw := fields hw rfl
  simp [Instr.fieldsOk] at hw
  refine fits rfl (by omega) ?_
  simp only [place]; omega

theorem join (h_ : Hdr) : Statement (.join h_) := by
  intro hw
  replace hw := fields hw rfl
  simp [Instr.fieldsOk] at hw
  refine fits rfl (by omega) ?_
  simp only [place]; omega

theorem signal (h_ : Hdr) (n_ : Nat) (cpl_ : Bool) (c_ : Nat) : Statement (.signal h_ n_ cpl_ c_) := by
  intro hw
  replace hw := fields hw rfl
  have := boolNat_le cpl_
  simp [Instr.fieldsOk] at hw
  refine fits rfl (by omega) ?_
  simp only [place]; omega

theorem mark (h_ : Hdr) (j_ : Nat) (e_ : Nat) : Statement (.mark h_ j_ e_) := by
  intro hw
  replace hw := fields hw rfl
  simp [Instr.fieldsOk] at hw
  refine fits rfl (by omega) ?_
  simp only [place]; omega

theorem halt (h_ : Hdr) (a_ : Nat) : Statement (.halt h_ a_) := by
  intro hw
  replace hw := fields hw rfl
  simp [Instr.fieldsOk, sreg] at hw
  refine fits rfl (by omega) ?_
  simp only [place]; omega

theorem jwait (h_ : Hdr) (d_ : Nat) (any_ : Bool) (mask_ : Nat) : Statement (.jwait h_ d_ any_ mask_) := by
  intro hw
  replace hw := fields hw rfl
  have := boolNat_le any_
  simp [Instr.fieldsOk, sreg] at hw
  refine fits rfl (by omega) ?_
  simp only [place]; omega

theorem trap (h_ : Hdr) (a_ : Nat) (code_ : Nat) : Statement (.trap h_ a_ code_) := by
  intro hw
  replace hw := fields hw rfl
  simp [Instr.fieldsOk, sreg] at hw
  refine fits rfl (by omega) ?_
  simp only [place]; omega

theorem fence (h_ : Hdr) (mask_ : Nat) : Statement (.fence h_ mask_) := by
  intro hw
  replace hw := fields hw rfl
  simp [Instr.fieldsOk] at hw
  refine fits rfl (by omega) ?_
  simp only [place]; omega

theorem stamp (h_ : Hdr) (a_ : Nat) (abs_ : Bool) (cyc_ : Nat) : Statement (.stamp h_ a_ abs_ cyc_) := by
  intro hw
  replace hw := fields hw rfl
  have := boolNat_le abs_
  simp [Instr.fieldsOk, sreg] at hw
  refine fits rfl (by omega) ?_
  simp only [place]; omega

theorem ppoint (h_ : Hdr) (a_ : Nat) (b_ : Nat) : Statement (.ppoint h_ a_ b_) := by
  intro hw
  replace hw := fields hw rfl
  simp [Instr.fieldsOk, sreg] at hw
  refine fits rfl (by omega) ?_
  simp only [place]; omega

theorem eret (h_ : Hdr) : Statement (.eret h_) := by
  intro hw
  replace hw := fields hw rfl
  simp [Instr.fieldsOk] at hw
  refine fits rfl (by omega) ?_
  simp only [place]; omega

theorem ctxsave (h_ : Hdr) (d_ : Nat) (a_ : Nat) (yield_ : Bool) : Statement (.ctxsave h_ d_ a_ yield_) := by
  intro hw
  replace hw := fields hw rfl
  have := boolNat_le yield_
  simp [Instr.fieldsOk, sreg] at hw
  refine fits rfl (by omega) ?_
  simp only [place]; omega

theorem ctxload (h_ : Hdr) (d_ : Nat) (a_ : Nat) : Statement (.ctxload h_ d_ a_) := by
  intro hw
  replace hw := fields hw rfl
  simp [Instr.fieldsOk, sreg] at hw
  refine fits rfl (by omega) ?_
  simp only [place]; omega

theorem crd (h_ : Hdr) (d_ : Nat) (n_ : Nat) : Statement (.crd h_ d_ n_) := by
  intro hw
  replace hw := fields hw rfl
  simp [Instr.fieldsOk, sreg] at hw
  refine fits rfl (by omega) ?_
  simp only [place]; omega

theorem cwr (h_ : Hdr) (a_ : Nat) (n_ : Nat) : Statement (.cwr h_ a_ n_) := by
  intro hw
  replace hw := fields hw rfl
  simp [Instr.fieldsOk, sreg] at hw
  refine fits rfl (by omega) ?_
  simp only [place]; omega

theorem htreeStart (h_ : Hdr) (a_ : Nat) : Statement (.htreeStart h_ a_) := by
  intro hw
  replace hw := fields hw rfl
  simp [Instr.fieldsOk, sreg] at hw
  refine fits rfl (by omega) ?_
  simp only [place]; omega

theorem htreeStop (h_ : Hdr) : Statement (.htreeStop h_) := by
  intro hw
  replace hw := fields hw rfl
  simp [Instr.fieldsOk] at hw
  refine fits rfl (by omega) ?_
  simp only [place]; omega

theorem htreeWait (h_ : Hdr) (d_ : Nat) (b_ : Nat) : Statement (.htreeWait h_ d_ b_) := by
  intro hw
  replace hw := fields hw rfl
  simp [Instr.fieldsOk, sreg] at hw
  refine fits rfl (by omega) ?_
  simp only [place]; omega

theorem add (h_ : Hdr) (d_ : Nat) (a_ : Nat) (b_ : Nat) : Statement (.add h_ d_ a_ b_) := by
  intro hw
  replace hw := fields hw rfl
  simp [Instr.fieldsOk, sreg] at hw
  refine fits rfl (by omega) ?_
  simp only [place]; omega

theorem sub (h_ : Hdr) (d_ : Nat) (a_ : Nat) (b_ : Nat) : Statement (.sub h_ d_ a_ b_) := by
  intro hw
  replace hw := fields hw rfl
  simp [Instr.fieldsOk, sreg] at hw
  refine fits rfl (by omega) ?_
  simp only [place]; omega

theorem mul (h_ : Hdr) (d_ : Nat) (a_ : Nat) (b_ : Nat) : Statement (.mul h_ d_ a_ b_) := by
  intro hw
  replace hw := fields hw rfl
  simp [Instr.fieldsOk, sreg] at hw
  refine fits rfl (by omega) ?_
  simp only [place]; omega

theorem mulh (h_ : Hdr) (k_ : MulhKind) (d_ : Nat) (a_ : Nat) (b_ : Nat) : Statement (.mulh h_ k_ d_ a_ b_) := by
  intro hw
  replace hw := fields hw rfl
  have := mulhKind_code_le k_
  simp [Instr.fieldsOk, sreg] at hw
  refine fits rfl (by omega) ?_
  simp only [place]; omega

theorem div (h_ : Hdr) (u_ : Bool) (d_ : Nat) (a_ : Nat) (b_ : Nat) : Statement (.div h_ u_ d_ a_ b_) := by
  intro hw
  replace hw := fields hw rfl
  have := boolNat_le u_
  simp [Instr.fieldsOk, sreg] at hw
  refine fits rfl (by omega) ?_
  simp only [place]; omega

theorem rem (h_ : Hdr) (u_ : Bool) (d_ : Nat) (a_ : Nat) (b_ : Nat) : Statement (.rem h_ u_ d_ a_ b_) := by
  intro hw
  replace hw := fields hw rfl
  have := boolNat_le u_
  simp [Instr.fieldsOk, sreg] at hw
  refine fits rfl (by omega) ?_
  simp only [place]; omega

theorem and (h_ : Hdr) (d_ : Nat) (a_ : Nat) (b_ : Nat) : Statement (.and h_ d_ a_ b_) := by
  intro hw
  replace hw := fields hw rfl
  simp [Instr.fieldsOk, sreg] at hw
  refine fits rfl (by omega) ?_
  simp only [place]; omega

theorem or (h_ : Hdr) (d_ : Nat) (a_ : Nat) (b_ : Nat) : Statement (.or h_ d_ a_ b_) := by
  intro hw
  replace hw := fields hw rfl
  simp [Instr.fieldsOk, sreg] at hw
  refine fits rfl (by omega) ?_
  simp only [place]; omega

theorem xor (h_ : Hdr) (d_ : Nat) (a_ : Nat) (b_ : Nat) : Statement (.xor h_ d_ a_ b_) := by
  intro hw
  replace hw := fields hw rfl
  simp [Instr.fieldsOk, sreg] at hw
  refine fits rfl (by omega) ?_
  simp only [place]; omega

theorem shl (h_ : Hdr) (d_ : Nat) (a_ : Nat) (b_ : Nat) : Statement (.shl h_ d_ a_ b_) := by
  intro hw
  replace hw := fields hw rfl
  simp [Instr.fieldsOk, sreg] at hw
  refine fits rfl (by omega) ?_
  simp only [place]; omega

theorem shr (h_ : Hdr) (d_ : Nat) (a_ : Nat) (b_ : Nat) : Statement (.shr h_ d_ a_ b_) := by
  intro hw
  replace hw := fields hw rfl
  simp [Instr.fieldsOk, sreg] at hw
  refine fits rfl (by omega) ?_
  simp only [place]; omega

theorem sar (h_ : Hdr) (d_ : Nat) (a_ : Nat) (b_ : Nat) : Statement (.sar h_ d_ a_ b_) := by
  intro hw
  replace hw := fields hw rfl
  simp [Instr.fieldsOk, sreg] at hw
  refine fits rfl (by omega) ?_
  simp only [place]; omega

theorem clz (h_ : Hdr) (d_ : Nat) (a_ : Nat) : Statement (.clz h_ d_ a_) := by
  intro hw
  replace hw := fields hw rfl
  simp [Instr.fieldsOk, sreg] at hw
  refine fits rfl (by omega) ?_
  simp only [place]; omega

theorem popc (h_ : Hdr) (d_ : Nat) (a_ : Nat) : Statement (.popc h_ d_ a_) := by
  intro hw
  replace hw := fields hw rfl
  simp [Instr.fieldsOk, sreg] at hw
  refine fits rfl (by omega) ?_
  simp only [place]; omega

theorem min (h_ : Hdr) (u_ : Bool) (d_ : Nat) (a_ : Nat) (b_ : Nat) : Statement (.min h_ u_ d_ a_ b_) := by
  intro hw
  replace hw := fields hw rfl
  have := boolNat_le u_
  simp [Instr.fieldsOk, sreg] at hw
  refine fits rfl (by omega) ?_
  simp only [place]; omega

theorem max (h_ : Hdr) (u_ : Bool) (d_ : Nat) (a_ : Nat) (b_ : Nat) : Statement (.max h_ u_ d_ a_ b_) := by
  intro hw
  replace hw := fields hw rfl
  have := boolNat_le u_
  simp [Instr.fieldsOk, sreg] at hw
  refine fits rfl (by omega) ?_
  simp only [place]; omega

theorem cmp (h_ : Hdr) (k_ : Cond) (d_ : Nat) (a_ : Nat) (b_ : Nat) : Statement (.cmp h_ k_ d_ a_ b_) := by
  intro hw
  replace hw := fields hw rfl
  have := cond_code_le k_
  simp [Instr.fieldsOk, sreg] at hw
  refine fits rfl (by omega) ?_
  simp only [place]; omega

theorem sel (h_ : Hdr) (d_ : Nat) (c_ : Nat) (a_ : Nat) (b_ : Nat) : Statement (.sel h_ d_ c_ a_ b_) := by
  intro hw
  replace hw := fields hw rfl
  simp [Instr.fieldsOk, sreg] at hw
  refine fits rfl (by omega) ?_
  simp only [place]; omega

theorem movi (h_ : Hdr) (d_ : Nat) (imm_ : Nat) : Statement (.movi h_ d_ imm_) := by
  intro hw
  replace hw := fields hw rfl
  simp [Instr.fieldsOk, sreg] at hw
  refine fits rfl (by omega) ?_
  simp only [place]; omega

theorem sext (h_ : Hdr) (k_ : ExtKind) (d_ : Nat) (a_ : Nat) : Statement (.sext h_ k_ d_ a_) := by
  intro hw
  replace hw := fields hw rfl
  have := extKind_code_le k_
  simp [Instr.fieldsOk, sreg] at hw
  refine fits rfl (by omega) ?_
  simp only [place]; omega

theorem movl (h_ : Hdr) (k_ : LitKind) (d_ : Nat) (lit_ : Nat) : Statement (.movl h_ k_ d_ lit_) := by
  intro hw
  replace hw := fields hw rfl
  have := litKind_code_le k_
  simp [Instr.fieldsOk, sreg] at hw
  refine fits rfl (by omega) ?_
  simp only [place]; omega

theorem addi (h_ : Hdr) (d_ : Nat) (a_ : Nat) (imm_ : Nat) : Statement (.addi h_ d_ a_ imm_) := by
  intro hw
  replace hw := fields hw rfl
  simp [Instr.fieldsOk, sreg] at hw
  refine fits rfl (by omega) ?_
  simp only [place]; omega

theorem fadd (h_ : Hdr) (t_ : FTy) (m_ : Rnd) (d_ : Nat) (a_ : Nat) (b_ : Nat) : Statement (.fadd h_ t_ m_ d_ a_ b_) := by
  intro hw
  replace hw := fields hw rfl
  have := fTy_code_le t_
  have := rnd_code_le m_
  simp [Instr.fieldsOk, sreg] at hw
  refine fits rfl (by omega) ?_
  simp only [place]; omega

theorem fsub (h_ : Hdr) (t_ : FTy) (m_ : Rnd) (d_ : Nat) (a_ : Nat) (b_ : Nat) : Statement (.fsub h_ t_ m_ d_ a_ b_) := by
  intro hw
  replace hw := fields hw rfl
  have := fTy_code_le t_
  have := rnd_code_le m_
  simp [Instr.fieldsOk, sreg] at hw
  refine fits rfl (by omega) ?_
  simp only [place]; omega

theorem fmul (h_ : Hdr) (t_ : FTy) (m_ : Rnd) (d_ : Nat) (a_ : Nat) (b_ : Nat) : Statement (.fmul h_ t_ m_ d_ a_ b_) := by
  intro hw
  replace hw := fields hw rfl
  have := fTy_code_le t_
  have := rnd_code_le m_
  simp [Instr.fieldsOk, sreg] at hw
  refine fits rfl (by omega) ?_
  simp only [place]; omega

theorem fdiv (h_ : Hdr) (t_ : FTy) (m_ : Rnd) (d_ : Nat) (a_ : Nat) (b_ : Nat) : Statement (.fdiv h_ t_ m_ d_ a_ b_) := by
  intro hw
  replace hw := fields hw rfl
  have := fTy_code_le t_
  have := rnd_code_le m_
  simp [Instr.fieldsOk, sreg] at hw
  refine fits rfl (by omega) ?_
  simp only [place]; omega

theorem fsqrt (h_ : Hdr) (t_ : FTy) (m_ : Rnd) (d_ : Nat) (a_ : Nat) : Statement (.fsqrt h_ t_ m_ d_ a_) := by
  intro hw
  replace hw := fields hw rfl
  have := fTy_code_le t_
  have := rnd_code_le m_
  simp [Instr.fieldsOk, sreg] at hw
  refine fits rfl (by omega) ?_
  simp only [place]; omega

theorem fma (h_ : Hdr) (t_ : FTy) (m_ : Rnd) (d_ : Nat) (a_ : Nat) (b_ : Nat) (c_ : Nat) : Statement (.fma h_ t_ m_ d_ a_ b_ c_) := by
  intro hw
  replace hw := fields hw rfl
  have := fTy_code_le t_
  have := rnd_code_le m_
  simp [Instr.fieldsOk, sreg] at hw
  refine fits rfl (by omega) ?_
  simp only [place]; omega

theorem fmin (h_ : Hdr) (t_ : FTy) (d_ : Nat) (a_ : Nat) (b_ : Nat) : Statement (.fmin h_ t_ d_ a_ b_) := by
  intro hw
  replace hw := fields hw rfl
  have := fTy_code_le t_
  simp [Instr.fieldsOk, sreg] at hw
  refine fits rfl (by omega) ?_
  simp only [place]; omega

theorem fmax (h_ : Hdr) (t_ : FTy) (d_ : Nat) (a_ : Nat) (b_ : Nat) : Statement (.fmax h_ t_ d_ a_ b_) := by
  intro hw
  replace hw := fields hw rfl
  have := fTy_code_le t_
  simp [Instr.fieldsOk, sreg] at hw
  refine fits rfl (by omega) ?_
  simp only [place]; omega

theorem fcmp (h_ : Hdr) (k_ : FCond) (t_ : FTy) (d_ : Nat) (a_ : Nat) (b_ : Nat) : Statement (.fcmp h_ k_ t_ d_ a_ b_) := by
  intro hw
  replace hw := fields hw rfl
  have := fCond_code_le k_
  have := fTy_code_le t_
  simp [Instr.fieldsOk, sreg] at hw
  refine fits rfl (by omega) ?_
  simp only [place]; omega

theorem fcvt (h_ : Hdr) (s_ : CvtTy) (t_ : CvtTy) (m_ : Rnd) (d_ : Nat) (a_ : Nat) : Statement (.fcvt h_ s_ t_ m_ d_ a_) := by
  intro hw
  replace hw := fields hw rfl
  have := cvtTy_code_le s_
  have := cvtTy_code_le t_
  have := rnd_code_le m_
  simp [Instr.fieldsOk, sreg] at hw
  refine fits rfl (by omega) ?_
  simp only [place]; omega

theorem fmai (h_ : Hdr) (t_ : FTy) (m_ : Rnd) (d_ : Nat) (b_ : Nat) (imm_ : Nat) : Statement (.fmai h_ t_ m_ d_ b_ imm_) := by
  intro hw
  replace hw := fields hw rfl
  have := fTy_code_le t_
  have := rnd_code_le m_
  simp [Instr.fieldsOk, sreg] at hw
  refine fits rfl (by omega) ?_
  simp only [place]; omega

theorem fmal (h_ : Hdr) (t_ : FTy) (m_ : Rnd) (d_ : Nat) (a_ : Nat) (b_ : Nat) (lit_ : Nat) : Statement (.fmal h_ t_ m_ d_ a_ b_ lit_) := by
  intro hw
  replace hw := fields hw rfl
  have := fTy_code_le t_
  have := rnd_code_le m_
  simp [Instr.fieldsOk, sreg] at hw
  refine fits rfl (by omega) ?_
  simp only [place]; omega

theorem fmak (h_ : Hdr) (t_ : FTy) (m_ : Rnd) (d_ : Nat) (a_ : Nat) (b_ : Nat) (n_ : Nat) : Statement (.fmak h_ t_ m_ d_ a_ b_ n_) := by
  intro hw
  replace hw := fields hw rfl
  have := fTy_code_le t_
  have := rnd_code_le m_
  simp [Instr.fieldsOk, sreg] at hw
  refine fits rfl (by omega) ?_
  simp only [place]; omega

theorem br (h_ : Hdr) (k_ : BrCond) (c_ : Nat) (off_ : Nat) : Statement (.br h_ k_ c_ off_) := by
  intro hw
  replace hw := fields hw rfl
  have := brCond_code_le k_
  simp [Instr.fieldsOk, sreg] at hw
  refine fits rfl (by omega) ?_
  simp only [place]; omega

theorem jmp (h_ : Hdr) (a_ : Nat) (off_ : Nat) : Statement (.jmp h_ a_ off_) := by
  intro hw
  replace hw := fields hw rfl
  simp [Instr.fieldsOk, sreg] at hw
  refine fits rfl (by omega) ?_
  simp only [place]; omega

theorem call (h_ : Hdr) (c_ : Nat) (off_ : Nat) : Statement (.call h_ c_ off_) := by
  intro hw
  replace hw := fields hw rfl
  simp [Instr.fieldsOk, sreg] at hw
  refine fits rfl (by omega) ?_
  simp only [place]; omega

theorem ret (h_ : Hdr) (a_ : Nat) : Statement (.ret h_ a_) := by
  intro hw
  replace hw := fields hw rfl
  simp [Instr.fieldsOk, sreg] at hw
  refine fits rfl (by omega) ?_
  simp only [place]; omega

theorem uiret (h_ : Hdr) : Statement (.uiret h_) := by
  intro hw
  replace hw := fields hw rfl
  simp [Instr.fieldsOk] at hw
  refine fits rfl (by omega) ?_
  simp only [place]; omega

theorem btok (h_ : Hdr) (q_ : Nat) (d_ : Nat) (l_ : Nat) (off_ : Nat) : Statement (.btok h_ q_ d_ l_ off_) := by
  intro hw
  replace hw := fields hw rfl
  simp [Instr.fieldsOk, sreg] at hw
  refine fits rfl (by omega) ?_
  simp only [place]; omega

theorem ld (h_ : Hdr) (k_ : LdKind) (at__ : At) (d_ : Nat) (a_ : Nat) (off_ : Nat) : Statement (.ld h_ k_ at__ d_ a_ off_) := by
  intro hw
  replace hw := fields hw rfl
  have := ldKind_code_le k_
  have := at_code_le at__
  simp [Instr.fieldsOk, sreg] at hw
  refine fits rfl (by omega) ?_
  simp only [place]; omega

theorem st (h_ : Hdr) (k_ : StKind) (at__ : At) (d_ : Nat) (a_ : Nat) (off_ : Nat) : Statement (.st h_ k_ at__ d_ a_ off_) := by
  intro hw
  replace hw := fields hw rfl
  have := stKind_code_le k_
  have := at_code_le at__
  simp [Instr.fieldsOk, sreg] at hw
  refine fits rfl (by omega) ?_
  simp only [place]; omega

theorem amo (h_ : Hdr) (op_ : AmoOp) (sz_ : WD) (d_ : Nat) (a_ : Nat) (b_ : Nat) (off_ : Nat) : Statement (.amo h_ op_ sz_ d_ a_ b_ off_) := by
  intro hw
  replace hw := fields hw rfl
  have := amoOp_code_le op_
  have := wD_code_le sz_
  simp [Instr.fieldsOk, sreg] at hw
  refine fits rfl (by omega) ?_
  simp only [place]; omega

theorem cas (h_ : Hdr) (sz_ : CasSz) (d_ : Nat) (a_ : Nat) (b_ : Nat) (off_ : Nat) : Statement (.cas h_ sz_ d_ a_ b_ off_) := by
  intro hw
  replace hw := fields hw rfl
  have := casSz_code_le sz_
  simp [Instr.fieldsOk, sreg] at hw
  refine fits rfl (by omega) ?_
  simp only [place]; omega

theorem barm (h_ : Hdr) (d_ : Nat) (a_ : Nat) (b_ : Nat) (off_ : Nat) : Statement (.barm h_ d_ a_ b_ off_) := by
  intro hw
  replace hw := fields hw rfl
  simp [Instr.fieldsOk, sreg] at hw
  refine fits rfl (by omega) ?_
  simp only [place]; omega

theorem acq (h_ : Hdr) (ge_ : Bool) (d_ : Nat) (a_ : Nat) (b_ : Nat) (off_ : Nat) : Statement (.acq h_ ge_ d_ a_ b_ off_) := by
  intro hw
  replace hw := fields hw rfl
  have := boolNat_le ge_
  simp [Instr.fieldsOk, sreg] at hw
  refine fits rfl (by omega) ?_
  simp only [place]; omega

theorem rel (h_ : Hdr) (d_ : Nat) (a_ : Nat) (off_ : Nat) : Statement (.rel h_ d_ a_ off_) := by
  intro hw
  replace hw := fields hw rfl
  simp [Instr.fieldsOk, sreg] at hw
  refine fits rfl (by omega) ?_
  simp only [place]; omega

theorem kldLd (h_ : Hdr) (a_ : Nat) (n_ : Nat) (cnt_ : Nat) : Statement (.kldLd h_ a_ n_ cnt_) := by
  intro hw
  replace hw := fields hw rfl
  simp [Instr.fieldsOk, sreg] at hw
  refine fits rfl (by omega) ?_
  simp only [place]; omega

theorem kldRd (h_ : Hdr) (d_ : Nat) (n_ : Nat) : Statement (.kldRd h_ d_ n_) := by
  intro hw
  replace hw := fields hw rfl
  simp [Instr.fieldsOk, sreg] at hw
  refine fits rfl (by omega) ?_
  simp only [place]; omega

theorem ldq (h_ : Hdr) (q_ : Nat) (d_ : Nat) (off_ : Nat) : Statement (.ldq h_ q_ d_ off_) := by
  intro hw
  replace hw := fields hw rfl
  simp [Instr.fieldsOk, sreg] at hw
  refine fits rfl (by omega) ?_
  simp only [place]; omega

theorem stq (h_ : Hdr) (d_ : Nat) (off_ : Nat) : Statement (.stq h_ d_ off_) := by
  intro hw
  replace hw := fields hw rfl
  simp [Instr.fieldsOk, sreg] at hw
  refine fits rfl (by omega) ?_
  simp only [place]; omega

theorem bwait (h_ : Hdr) (f_ : BwaitForm) : Statement (.bwait h_ f_) := by
  intro hw
  replace hw := fields hw rfl
  cases f_
  all_goals simp [Instr.fieldsOk, sreg] at hw
  all_goals refine fits rfl (by omega) ?_
  all_goals simp only [place]
  · omega
  · have := parCode_lt hw; omega

theorem qpush (h_ : Hdr) (q_ : Nat) (d_ : Nat) : Statement (.qpush h_ q_ d_) := by
  intro hw
  replace hw := fields hw rfl
  simp [Instr.fieldsOk, sreg] at hw
  refine fits rfl (by omega) ?_
  simp only [place]; omega

theorem qpop (h_ : Hdr) (q_ : Nat) (d_ : Nat) : Statement (.qpop h_ q_ d_) := by
  intro hw
  replace hw := fields hw rfl
  simp [Instr.fieldsOk, sreg] at hw
  refine fits rfl (by omega) ?_
  simp only [place]; omega

theorem qtryPop (h_ : Hdr) (q_ : Nat) (d_ : Nat) (f_ : Nat) : Statement (.qtryPop h_ q_ d_ f_) := by
  intro hw
  replace hw := fields hw rfl
  simp [Instr.fieldsOk, sreg] at hw
  refine fits rfl (by omega) ?_
  simp only [place]; omega

theorem qtryPush (h_ : Hdr) (q_ : Nat) (d_ : Nat) (f_ : Nat) : Statement (.qtryPush h_ q_ d_ f_) := by
  intro hw
  replace hw := fields hw rfl
  simp [Instr.fieldsOk, sreg] at hw
  refine fits rfl (by omega) ?_
  simp only [place]; omega

theorem qlen (h_ : Hdr) (free_ : Bool) (q_ : Nat) (d_ : Nat) : Statement (.qlen h_ free_ q_ d_) := by
  intro hw
  replace hw := fields hw rfl
  have := boolNat_le free_
  simp [Instr.fieldsOk, sreg] at hw
  refine fits rfl (by omega) ?_
  simp only [place]; omega

theorem ecut (h_ : Hdr) (d_ : Nat) (j_ : Nat) (e_ : Nat) : Statement (.ecut h_ d_ j_ e_) := by
  intro hw
  replace hw := fields hw rfl
  simp [Instr.fieldsOk, sreg] at hw
  refine fits rfl (by omega) ?_
  simp only [place]; omega

theorem mbsend (h_ : Hdr) (d_ : Nat) (c_ : Nat) : Statement (.mbsend h_ d_ c_) := by
  intro hw
  replace hw := fields hw rfl
  simp [Instr.fieldsOk, sreg] at hw
  refine fits rfl (by omega) ?_
  simp only [place]; omega

theorem mbrecv (h_ : Hdr) (d_ : Nat) : Statement (.mbrecv h_ d_) := by
  intro hw
  replace hw := fields hw rfl
  simp [Instr.fieldsOk, sreg] at hw
  refine fits rfl (by omega) ?_
  simp only [place]; omega

theorem cdiff (h_ : Hdr) (sc_ : DiffScope) (d_ : Nat) (a_ : Nat) : Statement (.cdiff h_ sc_ d_ a_) := by
  intro hw
  replace hw := fields hw rfl
  have := diffScope_code_le sc_
  simp [Instr.fieldsOk, sreg] at hw
  refine fits rfl (by omega) ?_
  simp only [place]; omega

theorem cgo (h_ : Hdr) (try__ : Bool) (d_ : Nat) : Statement (.cgo h_ try__ d_) := by
  intro hw
  replace hw := fields hw rfl
  have := boolNat_le try__
  simp [Instr.fieldsOk, sreg] at hw
  refine fits rfl (by omega) ?_
  simp only [place]; omega

theorem glaunch (h_ : Hdr) (d_ : Nat) (a_ : Nat) : Statement (.glaunch h_ d_ a_) := by
  intro hw
  replace hw := fields hw rfl
  simp [Instr.fieldsOk, sreg] at hw
  refine fits rfl (by omega) ?_
  simp only [place]; omega

theorem bsp (h_ : Hdr) (lv_ : Nat) (d_ : Nat) : Statement (.bsp h_ lv_ d_) := by
  intro hw
  replace hw := fields hw rfl
  simp [Instr.fieldsOk, sreg] at hw
  refine fits rfl (by omega) ?_
  simp only [place]; omega

theorem rseed (h_ : Hdr) (g_ : GenSel) (a_ : Nat) (b_ : Nat) : Statement (.rseed h_ g_ a_ b_) := by
  intro hw
  replace hw := fields hw rfl
  have := genSel_code_le g_
  simp [Instr.fieldsOk, sreg] at hw
  refine fits rfl (by omega) ?_
  simp only [place]; omega

theorem rjump (h_ : Hdr) (g_ : GenSel) (a_ : Nat) (sh_ : Nat) : Statement (.rjump h_ g_ a_ sh_) := by
  intro hw
  replace hw := fields hw rfl
  have := genSel_code_le g_
  simp [Instr.fieldsOk, sreg] at hw
  refine fits rfl (by omega) ?_
  simp only [place]; omega

theorem rnext (h_ : Hdr) (d_ : Nat) : Statement (.rnext h_ d_) := by
  intro hw
  replace hw := fields hw rfl
  simp [Instr.fieldsOk, sreg] at hw
  refine fits rfl (by omega) ?_
  simp only [place]; omega

theorem tlbinv (h_ : Hdr) (k_ : TlbSub) (sc_ : InvScope) (a_ : Nat) (b_ : Nat) : Statement (.tlbinv h_ k_ sc_ a_ b_) := by
  intro hw
  replace hw := fields hw rfl
  have := tlbSub_code_le k_
  have := invScope_code_le sc_
  simp [Instr.fieldsOk, sreg] at hw
  refine fits rfl (by omega) ?_
  simp only [place]; omega

theorem clbinv (h_ : Hdr) (k_ : ClbSub) (sc_ : InvScope) (a_ : Nat) (b_ : Nat) : Statement (.clbinv h_ k_ sc_ a_ b_) := by
  intro hw
  replace hw := fields hw rfl
  have := clbSub_code_le k_
  have := invScope_code_le sc_
  simp [Instr.fieldsOk, sreg] at hw
  refine fits rfl (by omega) ?_
  simp only [place]; omega

theorem spbegin (h_ : Hdr) (d_ : Nat) (a_ : Nat) : Statement (.spbegin h_ d_ a_) := by
  intro hw
  replace hw := fields hw rfl
  simp [Instr.fieldsOk, sreg] at hw
  refine fits rfl (by omega) ?_
  simp only [place]; omega

theorem spcmp (h_ : Hdr) (k_ : SpRule) (ct_ : Bool) (d_ : Nat) (a_ : Nat) (b_ : Nat) (t_ : Nat) (nc_ : Nat) : Statement (.spcmp h_ k_ ct_ d_ a_ b_ t_ nc_) := by
  intro hw
  replace hw := fields hw rfl
  have := spRule_code_le k_
  have := boolNat_le ct_
  simp [Instr.fieldsOk, sreg] at hw
  refine fits rfl (by omega) ?_
  simp only [place]; omega

theorem spacc (h_ : Hdr) (d_ : Nat) (a_ : Nat) (b_ : Nat) (l_ : Nat) : Statement (.spacc h_ d_ a_ b_ l_) := by
  intro hw
  replace hw := fields hw rfl
  simp [Instr.fieldsOk, sreg] at hw
  refine fits rfl (by omega) ?_
  simp only [place]; omega

theorem spapp (h_ : Hdr) (sz_ : WD) (d_ : Nat) (a_ : Nat) (r_ : Nat) : Statement (.spapp h_ sz_ d_ a_ r_) := by
  intro hw
  replace hw := fields hw rfl
  have := wD_code_le sz_
  simp [Instr.fieldsOk, sreg] at hw
  refine fits rfl (by omega) ?_
  simp only [place]; omega

theorem spendG (h_ : Hdr) : Statement (.spendG h_) := by
  intro hw
  replace hw := fields hw rfl
  simp [Instr.fieldsOk] at hw
  refine fits rfl (by omega) ?_
  simp only [place]; omega

theorem spendB (h_ : Hdr) (a_ : Nat) : Statement (.spendB h_ a_) := by
  intro hw
  replace hw := fields hw rfl
  simp [Instr.fieldsOk, sreg] at hw
  refine fits rfl (by omega) ?_
  simp only [place]; omega

theorem spendSrv (h_ : Hdr) : Statement (.spendSrv h_) := by
  intro hw
  replace hw := fields hw rfl
  simp [Instr.fieldsOk] at hw
  refine fits rfl (by omega) ?_
  simp only [place]; omega

theorem smp (h_ : Hdr) (k_ : DrawKind) (d_ : Nat) (a_ : Nat) (b_ : Nat) (slot_ : Nat) (n_ : Nat) : Statement (.smp h_ k_ d_ a_ b_ slot_ n_) := by
  intro hw
  replace hw := fields hw rfl
  have := drawKind_code_le k_
  simp [Instr.fieldsOk, sreg] at hw
  refine fits rfl (by omega) ?_
  simp only [place]; omega

theorem stopset (h_ : Hdr) (d_ : Nat) (a_ : Nat) (b_ : Nat) (slot_ : Nat) (cnt_ : Nat) : Statement (.stopset h_ d_ a_ b_ slot_ cnt_) := by
  intro hw
  replace hw := fields hw rfl
  simp [Instr.fieldsOk, sreg] at hw
  refine fits rfl (by omega) ?_
  simp only [place]; omega

theorem vadd (h_ : Hdr) (t_ : Ty) (p_ : Nat) (m_ : Rnd) (d_ : Nat) (a_ : Nat) (b_ : Nat) : Statement (.vadd h_ t_ p_ m_ d_ a_ b_) := by
  intro hw
  replace hw := fields hw rfl
  have := ty_code_le t_
  have := rnd_code_le m_
  simp [Instr.fieldsOk] at hw
  have := v3ok_lt hw
  refine fits rfl (by omega) ?_
  simp only [place]; omega

theorem vsub (h_ : Hdr) (t_ : Ty) (p_ : Nat) (m_ : Rnd) (d_ : Nat) (a_ : Nat) (b_ : Nat) : Statement (.vsub h_ t_ p_ m_ d_ a_ b_) := by
  intro hw
  replace hw := fields hw rfl
  have := ty_code_le t_
  have := rnd_code_le m_
  simp [Instr.fieldsOk] at hw
  have := v3ok_lt hw
  refine fits rfl (by omega) ?_
  simp only [place]; omega

theorem vmul (h_ : Hdr) (t_ : Ty) (p_ : Nat) (m_ : Rnd) (d_ : Nat) (a_ : Nat) (b_ : Nat) : Statement (.vmul h_ t_ p_ m_ d_ a_ b_) := by
  intro hw
  replace hw := fields hw rfl
  have := ty_code_le t_
  have := rnd_code_le m_
  simp [Instr.fieldsOk] at hw
  have := v3ok_lt hw
  refine fits rfl (by omega) ?_
  simp only [place]; omega

theorem vfma (h_ : Hdr) (t_ : Ty) (p_ : Nat) (m_ : Rnd) (d_ : Nat) (a_ : Nat) (b_ : Nat) : Statement (.vfma h_ t_ p_ m_ d_ a_ b_) := by
  intro hw
  replace hw := fields hw rfl
  have := ty_code_le t_
  have := rnd_code_le m_
  simp [Instr.fieldsOk] at hw
  have := v3ok_lt hw
  refine fits rfl (by omega) ?_
  simp only [place]; omega

theorem vdiv (h_ : Hdr) (t_ : Ty) (p_ : Nat) (m_ : Rnd) (d_ : Nat) (a_ : Nat) (b_ : Nat) : Statement (.vdiv h_ t_ p_ m_ d_ a_ b_) := by
  intro hw
  replace hw := fields hw rfl
  have := ty_code_le t_
  have := rnd_code_le m_
  simp [Instr.fieldsOk] at hw
  have := v3ok_lt hw
  refine fits rfl (by omega) ?_
  simp only [place]; omega

theorem vsqrt (h_ : Hdr) (t_ : Ty) (p_ : Nat) (m_ : Rnd) (d_ : Nat) (a_ : Nat) : Statement (.vsqrt h_ t_ p_ m_ d_ a_) := by
  intro hw
  replace hw := fields hw rfl
  have := ty_code_le t_
  have := rnd_code_le m_
  simp [Instr.fieldsOk] at hw
  have := v3ok1_lt hw
  refine fits rfl (by omega) ?_
  simp only [place]; omega

theorem vexp2 (h_ : Hdr) (t_ : Ty) (p_ : Nat) (m_ : Rnd) (d_ : Nat) (a_ : Nat) : Statement (.vexp2 h_ t_ p_ m_ d_ a_) := by
  intro hw
  replace hw := fields hw rfl
  have := ty_code_le t_
  have := rnd_code_le m_
  simp [Instr.fieldsOk] at hw
  have := v3ok1_lt hw
  refine fits rfl (by omega) ?_
  simp only [place]; omega

theorem vlog2 (h_ : Hdr) (t_ : Ty) (p_ : Nat) (m_ : Rnd) (d_ : Nat) (a_ : Nat) : Statement (.vlog2 h_ t_ p_ m_ d_ a_) := by
  intro hw
  replace hw := fields hw rfl
  have := ty_code_le t_
  have := rnd_code_le m_
  simp [Instr.fieldsOk] at hw
  have := v3ok1_lt hw
  refine fits rfl (by omega) ?_
  simp only [place]; omega

theorem vmin (h_ : Hdr) (t_ : Ty) (p_ : Nat) (m_ : Rnd) (d_ : Nat) (a_ : Nat) (b_ : Nat) : Statement (.vmin h_ t_ p_ m_ d_ a_ b_) := by
  intro hw
  replace hw := fields hw rfl
  have := ty_code_le t_
  have := rnd_code_le m_
  simp [Instr.fieldsOk] at hw
  have := v3ok_lt hw
  refine fits rfl (by omega) ?_
  simp only [place]; omega

theorem vmax (h_ : Hdr) (t_ : Ty) (p_ : Nat) (m_ : Rnd) (d_ : Nat) (a_ : Nat) (b_ : Nat) : Statement (.vmax h_ t_ p_ m_ d_ a_ b_) := by
  intro hw
  replace hw := fields hw rfl
  have := ty_code_le t_
  have := rnd_code_le m_
  simp [Instr.fieldsOk] at hw
  have := v3ok_lt hw
  refine fits rfl (by omega) ?_
  simp only [place]; omega

theorem vabs (h_ : Hdr) (t_ : Ty) (p_ : Nat) (m_ : Rnd) (d_ : Nat) (a_ : Nat) : Statement (.vabs h_ t_ p_ m_ d_ a_) := by
  intro hw
  replace hw := fields hw rfl
  have := ty_code_le t_
  have := rnd_code_le m_
  simp [Instr.fieldsOk] at hw
  have := v3ok1_lt hw
  refine fits rfl (by omega) ?_
  simp only [place]; omega

theorem vneg (h_ : Hdr) (t_ : Ty) (p_ : Nat) (m_ : Rnd) (d_ : Nat) (a_ : Nat) : Statement (.vneg h_ t_ p_ m_ d_ a_) := by
  intro hw
  replace hw := fields hw rfl
  have := ty_code_le t_
  have := rnd_code_le m_
  simp [Instr.fieldsOk] at hw
  have := v3ok1_lt hw
  refine fits rfl (by omega) ?_
  simp only [place]; omega

theorem vand (h_ : Hdr) (t_ : Ty) (p_ : Nat) (m_ : Rnd) (d_ : Nat) (a_ : Nat) (b_ : Nat) : Statement (.vand h_ t_ p_ m_ d_ a_ b_) := by
  intro hw
  replace hw := fields hw rfl
  have := ty_code_le t_
  have := rnd_code_le m_
  simp [Instr.fieldsOk] at hw
  have := v3ok_lt hw
  refine fits rfl (by omega) ?_
  simp only [place]; omega

theorem vor (h_ : Hdr) (t_ : Ty) (p_ : Nat) (m_ : Rnd) (d_ : Nat) (a_ : Nat) (b_ : Nat) : Statement (.vor h_ t_ p_ m_ d_ a_ b_) := by
  intro hw
  replace hw := fields hw rfl
  have := ty_code_le t_
  have := rnd_code_le m_
  simp [Instr.fieldsOk] at hw
  have := v3ok_lt hw
  refine fits rfl (by omega) ?_
  simp only [place]; omega

theorem vxor (h_ : Hdr) (t_ : Ty) (p_ : Nat) (m_ : Rnd) (d_ : Nat) (a_ : Nat) (b_ : Nat) : Statement (.vxor h_ t_ p_ m_ d_ a_ b_) := by
  intro hw
  replace hw := fields hw rfl
  have := ty_code_le t_
  have := rnd_code_le m_
  simp [Instr.fieldsOk] at hw
  have := v3ok_lt hw
  refine fits rfl (by omega) ?_
  simp only [place]; omega

theorem vshl (h_ : Hdr) (t_ : Ty) (p_ : Nat) (m_ : Rnd) (d_ : Nat) (a_ : Nat) (b_ : Nat) : Statement (.vshl h_ t_ p_ m_ d_ a_ b_) := by
  intro hw
  replace hw := fields hw rfl
  have := ty_code_le t_
  have := rnd_code_le m_
  simp [Instr.fieldsOk] at hw
  have := v3ok_lt hw
  refine fits rfl (by omega) ?_
  simp only [place]; omega

theorem vshr (h_ : Hdr) (t_ : Ty) (p_ : Nat) (m_ : Rnd) (d_ : Nat) (a_ : Nat) (b_ : Nat) : Statement (.vshr h_ t_ p_ m_ d_ a_ b_) := by
  intro hw
  replace hw := fields hw rfl
  have := ty_code_le t_
  have := rnd_code_le m_
  simp [Instr.fieldsOk] at hw
  have := v3ok_lt hw
  refine fits rfl (by omega) ?_
  simp only [place]; omega

theorem vsar (h_ : Hdr) (t_ : Ty) (p_ : Nat) (m_ : Rnd) (d_ : Nat) (a_ : Nat) (b_ : Nat) : Statement (.vsar h_ t_ p_ m_ d_ a_ b_) := by
  intro hw
  replace hw := fields hw rfl
  have := ty_code_le t_
  have := rnd_code_le m_
  simp [Instr.fieldsOk] at hw
  have := v3ok_lt hw
  refine fits rfl (by omega) ?_
  simp only [place]; omega

theorem vaddi (h_ : Hdr) (d_ : Nat) (a_ : Nat) (imm_ : Nat) : Statement (.vaddi h_ d_ a_ imm_) := by
  intro hw
  replace hw := fields hw rfl
  simp [Instr.fieldsOk] at hw
  refine fits rfl (by omega) ?_
  simp only [place]; omega

theorem vmuli (h_ : Hdr) (d_ : Nat) (a_ : Nat) (imm_ : Nat) : Statement (.vmuli h_ d_ a_ imm_) := by
  intro hw
  replace hw := fields hw rfl
  simp [Instr.fieldsOk] at hw
  refine fits rfl (by omega) ?_
  simp only [place]; omega

theorem vfmai (h_ : Hdr) (d_ : Nat) (a_ : Nat) (imm_ : Nat) : Statement (.vfmai h_ d_ a_ imm_) := by
  intro hw
  replace hw := fields hw rfl
  simp [Instr.fieldsOk] at hw
  refine fits rfl (by omega) ?_
  simp only [place]; omega

theorem vfmal (h_ : Hdr) (t_ : Ty) (p_ : Nat) (m_ : Rnd) (d_ : Nat) (a_ : Nat) (b_ : Nat) (lit_ : Nat) : Statement (.vfmal h_ t_ p_ m_ d_ a_ b_ lit_) := by
  intro hw
  replace hw := fields hw rfl
  have := ty_code_le t_
  have := rnd_code_le m_
  simp [Instr.fieldsOk] at hw
  have := v3ok_lt hw.1
  refine fits rfl (by omega) ?_
  simp only [place]; omega

theorem vcmp (h_ : Hdr) (k_ : VCond) (t_ : Ty) (p_ : Nat) (pd_ : Nat) (a_ : Nat) (b_ : Nat) : Statement (.vcmp h_ k_ t_ p_ pd_ a_ b_) := by
  intro hw
  replace hw := fields hw rfl
  have := vCond_code_le k_
  have := ty_code_le t_
  simp [Instr.fieldsOk] at hw
  have := srcCode_lt (c := a_) (by simp only [hw])
  have := srcCode_lt (c := b_) (by simp only [hw])
  refine fits rfl (by omega) ?_
  simp only [place]; omega

theorem vsel (h_ : Hdr) (t_ : Ty) (p_ : Nat) (d_ : Nat) (a_ : Nat) (b_ : Nat) : Statement (.vsel h_ t_ p_ d_ a_ b_) := by
  intro hw
  replace hw := fields hw rfl
  have := ty_code_le t_
  simp [Instr.fieldsOk] at hw
  have := v3ok_lt hw
  refine fits rfl (by omega) ?_
  simp only [place]; omega

theorem vcvt (h_ : Hdr) (s_ : Ty) (j_ : Nat) (sat_ : Bool) (t_ : Ty) (p_ : Nat) (m_ : Rnd) (d_ : Nat) (a_ : Nat) : Statement (.vcvt h_ s_ j_ sat_ t_ p_ m_ d_ a_) := by
  intro hw
  replace hw := fields hw rfl
  have := ty_code_le s_
  have := boolNat_le sat_
  have := ty_code_le t_
  have := rnd_code_le m_
  simp [Instr.fieldsOk] at hw
  have := v3ok1_lt hw
  have ht := v3ok1_t hw
  simp at ht
  refine fits rfl (by omega) ?_
  simp only [place]; omega

theorem vqmx (h_ : Hdr) (w_ : MxW) (t_ : VFTy) (p_ : Nat) (d_ : Nat) (a_ : Nat) (slot_ : Nat) : Statement (.vqmx h_ w_ t_ p_ d_ a_ slot_) := by
  intro hw
  replace hw := fields hw rfl
  have := mxW_code_le w_
  have := vFTy_code_le t_
  simp [Instr.fieldsOk] at hw
  have := v3ok1_lt hw
  have ht := v3ok1_t hw
  simp at ht
  refine fits rfl (by omega) ?_
  simp only [place]; omega

theorem vdqmx (h_ : Hdr) (w_ : MxW) (t_ : VFTy) (p_ : Nat) (m_ : Rnd) (d_ : Nat) (a_ : Nat) (slot_ : Nat) : Statement (.vdqmx h_ w_ t_ p_ m_ d_ a_ slot_) := by
  intro hw
  replace hw := fields hw rfl
  have := mxW_code_le w_
  have := vFTy_code_le t_
  have := rnd_code_le m_
  simp [Instr.fieldsOk] at hw
  have := v3ok1_lt hw
  have ht := v3ok1_t hw
  simp at ht
  refine fits rfl (by omega) ?_
  simp only [place]; omega

theorem vred (h_ : Hdr) (op_ : RedOp) (sg_ : Seg) (t_ : Ty) (p_ : Nat) (m_ : Rnd) (d_ : Nat) (a_ : Nat) : Statement (.vred h_ op_ sg_ t_ p_ m_ d_ a_) := by
  intro hw
  replace hw := fields hw rfl
  have := redOp_code_le op_
  have := seg_code_le sg_
  have := ty_code_le t_
  have := rnd_code_le m_
  simp [Instr.fieldsOk] at hw
  have := v3ok1_lt hw
  refine fits rfl (by omega) ?_
  simp only [place]; omega

theorem vscan (h_ : Hdr) (op_ : RedOp) (sg_ : Seg) (t_ : Ty) (p_ : Nat) (m_ : Rnd) (d_ : Nat) (a_ : Nat) : Statement (.vscan h_ op_ sg_ t_ p_ m_ d_ a_) := by
  intro hw
  replace hw := fields hw rfl
  have := redOp_code_le op_
  have := seg_code_le sg_
  have := ty_code_le t_
  have := rnd_code_le m_
  simp [Instr.fieldsOk] at hw
  have := v3ok1_lt hw
  refine fits rfl (by omega) ?_
  simp only [place]; omega

theorem vperm (h_ : Hdr) (pm_ : Bool) (t_ : Ty) (p_ : Nat) (d_ : Nat) (a_ : Nat) (b_ : Nat) : Statement (.vperm h_ pm_ t_ p_ d_ a_ b_) := by
  intro hw
  replace hw := fields hw rfl
  have := boolNat_le pm_
  have := ty_code_le t_
  simp [Instr.fieldsOk] at hw
  have := v3ok_lt hw
  refine fits rfl (by omega) ?_
  simp only [place]; omega

theorem vcomp (h_ : Hdr) (t_ : Ty) (p_ : Nat) (d_ : Nat) (a_ : Nat) : Statement (.vcomp h_ t_ p_ d_ a_) := by
  intro hw
  replace hw := fields hw rfl
  have := ty_code_le t_
  simp [Instr.fieldsOk] at hw
  have := v3ok1_lt hw
  refine fits rfl (by omega) ?_
  simp only [place]; omega

theorem vpart (h_ : Hdr) (four_ : Bool) (q4_ : Bool) (t_ : Ty) (p_ : Nat) (d_ : Nat) (a_ : Nat) : Statement (.vpart h_ four_ q4_ t_ p_ d_ a_) := by
  intro hw
  replace hw := fields hw rfl
  have := boolNat_le four_
  have := boolNat_le q4_
  have := ty_code_le t_
  simp [Instr.fieldsOk] at hw
  have := v3ok1_lt hw
  refine fits rfl (by omega) ?_
  simp only [place]; omega

theorem plogic (h_ : Hdr) (fn_ : Nat) (t_ : Ty) (p_ : Nat) (pd_ : Nat) (pa_ : Nat) (pb_ : Nat) : Statement (.plogic h_ fn_ t_ p_ pd_ pa_ pb_) := by
  intro hw
  replace hw := fields hw rfl
  have := ty_code_le t_
  simp [Instr.fieldsOk] at hw
  refine fits rfl (by omega) ?_
  simp only [place]; omega

theorem pcnt (h_ : Hdr) (pre_ : Bool) (t_ : Ty) (p_ : Nat) (d_ : Nat) (pa_ : Nat) : Statement (.pcnt h_ pre_ t_ p_ d_ pa_) := by
  intro hw
  replace hw := fields hw rfl
  have := boolNat_le pre_
  have := ty_code_le t_
  simp [Instr.fieldsOk] at hw
  have := dstCode_lt (c := d_) (by simp only [hw])
  refine fits rfl (by omega) ?_
  simp only [place]; omega

theorem rpt (h_ : Hdr) (n_ : Nat) (sd_ : Nat) (sa_ : Nat) (sb_ : Nat) : Statement (.rpt h_ n_ sd_ sa_ sb_) := by
  intro hw
  replace hw := fields hw rfl
  simp [Instr.fieldsOk] at hw
  refine fits rfl (by omega) ?_
  simp only [place]; omega

theorem vmov (h_ : Hdr) (t_ : Ty) (p_ : Nat) (d_ : Nat) (a_ : Nat) : Statement (.vmov h_ t_ p_ d_ a_) := by
  intro hw
  replace hw := fields hw rfl
  have := ty_code_le t_
  simp [Instr.fieldsOk] at hw
  have := v3ok1_lt hw
  refine fits rfl (by omega) ?_
  simp only [place]; omega

theorem vld (h_ : Hdr) (at__ : At) (t_ : Ty) (p_ : Nat) (m_ : Rnd) (d_ : Nat) (vw_ : Nat) (o_ : Nat) : Statement (.vld h_ at__ t_ p_ m_ d_ vw_ o_) := by
  intro hw
  replace hw := fields hw rfl
  have := at_code_le at__
  have := ty_code_le t_
  have := rnd_code_le m_
  simp [Instr.fieldsOk] at hw
  have := dstCode_lt (c := d_) (by simp only [hw])
  refine fits rfl (by omega) ?_
  simp only [place]; omega

theorem vst (h_ : Hdr) (at__ : At) (t_ : Ty) (p_ : Nat) (m_ : Rnd) (d_ : Nat) (vw_ : Nat) (o_ : Nat) : Statement (.vst h_ at__ t_ p_ m_ d_ vw_ o_) := by
  intro hw
  replace hw := fields hw rfl
  have := at_code_le at__
  have := ty_code_le t_
  have := rnd_code_le m_
  simp [Instr.fieldsOk] at hw
  have := srcCode_lt (c := d_) (by simp only [hw])
  refine fits rfl (by omega) ?_
  simp only [place]; omega

theorem vldc (h_ : Hdr) (p_ : Nat) (d_ : Nat) (a_ : Nat) (vw_ : Nat) (o0_ : Nat) (o1_ : Nat) (o2_ : Nat) : Statement (.vldc h_ p_ d_ a_ vw_ o0_ o1_ o2_) := by
  intro hw
  replace hw := fields hw rfl
  simp [Instr.fieldsOk] at hw
  have := dstCode_lt (c := d_) (by simp only [hw])
  have := regCode_lt (c := a_) (by simp only [hw])
  refine fits rfl (by omega) ?_
  simp only [place]; omega

theorem vstc (h_ : Hdr) (p_ : Nat) (d_ : Nat) (a_ : Nat) (vw_ : Nat) (o0_ : Nat) (o1_ : Nat) (o2_ : Nat) : Statement (.vstc h_ p_ d_ a_ vw_ o0_ o1_ o2_) := by
  intro hw
  replace hw := fields hw rfl
  simp [Instr.fieldsOk] at hw
  have := srcCode_lt (c := d_) (by simp only [hw])
  have := regCode_lt (c := a_) (by simp only [hw])
  refine fits rfl (by omega) ?_
  simp only [place]; omega

theorem vmapSet (h_ : Hdr) (d_ : Nat) (b_ : Nat) : Statement (.vmapSet h_ d_ b_) := by
  intro hw
  replace hw := fields hw rfl
  simp [Instr.fieldsOk] at hw
  have := regCode_lt (c := d_) (by simp only [hw])
  refine fits rfl (by omega) ?_
  simp only [place]; omega

theorem vmapSlice (h_ : Hdr) (k_ : Nat) (d_ : Nat) (a_ : Nat) (b_ : Nat) : Statement (.vmapSlice h_ k_ d_ a_ b_) := by
  intro hw
  replace hw := fields hw rfl
  simp [Instr.fieldsOk] at hw
  have := regCode_lt (c := d_) (by simp only [hw])
  have := regCode_lt (c := a_) (by simp only [hw])
  have := parCode_lt (c := b_) (by simp only [hw])
  refine fits rfl (by omega) ?_
  simp only [place]; omega

theorem vmapPerm (h_ : Hdr) (d_ : Nat) (a_ : Nat) (b_ : Nat) : Statement (.vmapPerm h_ d_ a_ b_) := by
  intro hw
  replace hw := fields hw rfl
  simp [Instr.fieldsOk] at hw
  have := regCode_lt (c := d_) (by simp only [hw])
  have := regCode_lt (c := a_) (by simp only [hw])
  have := parCode_lt (c := b_) (by simp only [hw])
  refine fits rfl (by omega) ?_
  simp only [place]; omega

theorem vmapShift (h_ : Hdr) (k_ : Nat) (d_ : Nat) (a_ : Nat) (b_ : Nat) : Statement (.vmapShift h_ k_ d_ a_ b_) := by
  intro hw
  replace hw := fields hw rfl
  simp [Instr.fieldsOk] at hw
  have := regCode_lt (c := d_) (by simp only [hw])
  have := regCode_lt (c := a_) (by simp only [hw])
  have := parCode_lt (c := b_) (by simp only [hw])
  refine fits rfl (by omega) ?_
  simp only [place]; omega

theorem vmapq (h_ : Hdr) (k_ : MapqSub) (q4_ : Bool) (a_ : Nat) (b_ : Nat) : Statement (.vmapq h_ k_ q4_ a_ b_) := by
  intro hw
  replace hw := fields hw rfl
  have := mapqSub_code_le k_
  have := boolNat_le q4_
  simp [Instr.fieldsOk] at hw
  have hb : b_ < 512 := by cases k_ <;> simp_all <;> omega
  have := regCode_lt (c := a_) (by simp only [hw])
  refine fits rfl (by omega) ?_
  simp only [place]; omega

theorem vrndKey (h_ : Hdr) (t_ : Ty) (p_ : Nat) (d_ : Nat) (b_ : Nat) : Statement (.vrndKey h_ t_ p_ d_ b_) := by
  intro hw
  replace hw := fields hw rfl
  have := ty_code_le t_
  simp [Instr.fieldsOk] at hw
  have := dstCode_lt (c := d_) (by simp only [hw])
  have := parCode_lt (c := b_) (by simp only [hw])
  refine fits rfl (by omega) ?_
  simp only [place]; omega

theorem vrndStr (h_ : Hdr) (t_ : Ty) (p_ : Nat) (d_ : Nat) : Statement (.vrndStr h_ t_ p_ d_) := by
  intro hw
  replace hw := fields hw rfl
  have := ty_code_le t_
  simp [Instr.fieldsOk] at hw
  have := dstCode_lt (c := d_) (by simp only [hw])
  refine fits rfl (by omega) ?_
  simp only [place]; omega

theorem vtok (h_ : Hdr) (k_ : TokSub) (q4_ : Bool) (t_ : Ty) (p_ : Nat) (a_ : Nat) (b_ : Nat) : Statement (.vtok h_ k_ q4_ t_ p_ a_ b_) := by
  intro hw
  replace hw := fields hw rfl
  have := tokSub_code_le k_
  have := boolNat_le q4_
  have := ty_code_le t_
  simp [Instr.fieldsOk] at hw
  have hb : b_ < 512 := by cases k_ <;> cases t_ <;> simp_all [Ty.count] <;> omega
  have := srcCode_lt (c := a_) (by simp only [hw])
  refine fits rfl (by omega) ?_
  simp only [place]; omega

theorem lsetLoop (h_ : Hdr) (src_ : LsetSrc) (len_ : Nat) (val_ : Nat) : Statement (.lsetLoop h_ src_ len_ val_) := by
  intro hw
  replace hw := fields hw rfl
  have := lsetSrc_code_le src_
  simp [Instr.fieldsOk] at hw
  refine fits rfl (by omega) ?_
  simp only [place]; omega

theorem lsetView (h_ : Hdr) (src_ : LsetSrc) (vw_ : Nat) (fld_ : Nat) (val_ : Nat) : Statement (.lsetView h_ src_ vw_ fld_ val_) := by
  intro hw
  replace hw := fields hw rfl
  have := lsetSrc_code_le src_
  simp [Instr.fieldsOk] at hw
  refine fits rfl (by omega) ?_
  simp only [place]; omega

theorem vsal (h_ : Hdr) (pat_ : Pat) (t_ : VFTy) (p_ : Nat) (d_ : Nat) (a_ : Nat) (b_ : Nat) : Statement (.vsal h_ pat_ t_ p_ d_ a_ b_) := by
  intro hw
  replace hw := fields hw rfl
  have := pat_code_le pat_
  have := vFTy_code_le t_
  simp [Instr.fieldsOk] at hw
  have := v3ok_lt hw
  refine fits rfl (by omega) ?_
  simp only [place]; omega

theorem mma (h_ : Hdr) (tr_ : Bool) (z_ : Bool) (f_ : MFmt) (t_ : Nat) (vw_ : Nat) (wb_ : Nat) (k_ : Nat) : Statement (.mma h_ tr_ z_ f_ t_ vw_ wb_ k_) := by
  intro hw
  replace hw := fields hw rfl
  have := boolNat_le tr_
  have := boolNat_le z_
  have := mFmt_code_le f_
  simp [Instr.fieldsOk] at hw
  refine fits rfl (by omega) ?_
  simp only [place]; omega

theorem msma (h_ : Hdr) (tr_ : Bool) (z_ : Bool) (f_ : MFmt) (t_ : Nat) (vw_ : Nat) (wb_ : Nat) (k_ : Nat) : Statement (.msma h_ tr_ z_ f_ t_ vw_ wb_ k_) := by
  intro hw
  replace hw := fields hw rfl
  have := boolNat_le tr_
  have := boolNat_le z_
  have := mFmt_code_le f_
  simp [Instr.fieldsOk] at hw
  refine fits rfl (by omega) ?_
  simp only [place]; omega

theorem mgrp (h_ : Hdr) (z_ : Bool) (f_ : MFmt) (t_ : Nat) (vw_ : Nat) (wb_ : Nat) (k_ : Nat) : Statement (.mgrp h_ z_ f_ t_ vw_ wb_ k_) := by
  intro hw
  replace hw := fields hw rfl
  have := boolNat_le z_
  have := mFmt_code_le f_
  simp [Instr.fieldsOk] at hw
  refine fits rfl (by omega) ?_
  simp only [place]; omega

theorem mldw (h_ : Hdr) (f_ : MFmt) (t_ : Nat) (vw_ : Nat) (wb_ : Nat) (k_ : Nat) : Statement (.mldw h_ f_ t_ vw_ wb_ k_) := by
  intro hw
  replace hw := fields hw rfl
  have := mFmt_code_le f_
  simp [Instr.fieldsOk] at hw
  refine fits rfl (by omega) ?_
  simp only [place]; omega

theorem mzero (h_ : Hdr) (t_ : Nat) : Statement (.mzero h_ t_) := by
  intro hw
  replace hw := fields hw rfl
  simp [Instr.fieldsOk] at hw
  refine fits rfl (by omega) ?_
  simp only [place]; omega

theorem mdrain (h_ : Hdr) (tr_ : Bool) (z_ : Bool) (ins_ : Bool) (fl_ : Bool) (nost_ : Bool) (t_ : Nat) (vw_ : Nat) : Statement (.mdrain h_ tr_ z_ ins_ fl_ nost_ t_ vw_) := by
  intro hw
  replace hw := fields hw rfl
  have := boolNat_le tr_
  have := boolNat_le z_
  have := boolNat_le ins_
  have := boolNat_le fl_
  have := boolNat_le nost_
  simp [Instr.fieldsOk] at hw
  refine fits rfl (by omega) ?_
  simp only [place]; omega

theorem acopy (h_ : Hdr) (tr_ : Bool) (acc_ : Bool) (ts_ : Nat) (td_ : Nat) : Statement (.acopy h_ tr_ acc_ ts_ td_) := by
  intro hw
  replace hw := fields hw rfl
  have := boolNat_le tr_
  have := boolNat_le acc_
  simp [Instr.fieldsOk] at hw
  refine fits rfl (by omega) ?_
  simp only [place]; omega

theorem copyLin (core_ : Nat) (n_ : Nat) : Statement (.copyLin core_ n_) := nofun

theorem copyRect (core_ : Nat) (n_ : Nat) : Statement (.copyRect core_ n_) := nofun

theorem copyFill (core_ : Nat) (n_ : Nat) : Statement (.copyFill core_ n_) := nofun

theorem indexGat (core_ : Nat) (n_ : Nat) : Statement (.indexGat core_ n_) := nofun

theorem indexSct (core_ : Nat) (n_ : Nat) : Statement (.indexSct core_ n_) := nofun

theorem selPred (stack_ : Nat) (n_ : Nat) : Statement (.selPred stack_ n_) := nofun

theorem selTopk (stack_ : Nat) (n_ : Nat) : Statement (.selTopk stack_ n_) := nofun

theorem selHist (stack_ : Nat) (n_ : Nat) : Statement (.selHist stack_ n_) := nofun

theorem selFilt (stack_ : Nat) (n_ : Nat) : Statement (.selFilt stack_ n_) := nofun

theorem reduceCommand (stack_ : Nat) (n_ : Nat) : Statement (.reduceCommand stack_ n_) := nofun

theorem samplerTmp (core_ : Nat) : Statement (.samplerTmp core_) := nofun

theorem samplerProb (core_ : Nat) : Statement (.samplerProb core_) := nofun

theorem samplerRes (core_ : Nat) : Statement (.samplerRes core_) := nofun

theorem engineReplyPush (core_ : Nat) (e_ : Nat) : Statement (.engineReplyPush core_ e_) := nofun

theorem markerRetire (core_ : Nat) (e_ : Nat) : Statement (.markerRetire core_ e_) := nofun

theorem coupledSignalArrival (core_ : Nat) : Statement (.coupledSignalArrival core_) := nofun

theorem mailboxTransfer (core_ : Nat) : Statement (.mailboxTransfer core_) := nofun

theorem ldqDataArrival (core_ : Nat) (q_ : Nat) : Statement (.ldqDataArrival core_ q_) := nofun

theorem userInterruptEntry (core_ : Nat) : Statement (.userInterruptEntry core_) := nofun

theorem coreStop (core_ : Nat) : Statement (.coreStop core_) := nofun

theorem preemptHorizon (core_ : Nat) : Statement (.preemptHorizon core_) := nofun

theorem enusedUpdate (core_ : Nat) : Statement (.enusedUpdate core_) := nofun

theorem poolInterval  : Statement (.poolInterval ) := nofun

theorem quantumBoundary (slot_ : Nat) (node_ : Nat) : Statement (.quantumBoundary slot_ node_) := nofun

theorem htreeUpdate (core_ : Nat) : Statement (.htreeUpdate core_) := nofun

theorem coreJobStart (core_ : Nat) : Statement (.coreJobStart core_) := nofun

theorem coreJobEnd (core_ : Nat) : Statement (.coreJobEnd core_) := nofun

theorem dispatchDecision  : Statement (.dispatchDecision ) := nofun

theorem nodeCompletion (slot_ : Nat) (node_ : Nat) : Statement (.nodeCompletion slot_ node_) := nofun

theorem graphEnd (slot_ : Nat) : Statement (.graphEnd slot_) := nofun

theorem virgaIterationDispatch (lead_ : Nat) : Statement (.virgaIterationDispatch lead_) := nofun

theorem virgaRoundCommit (lead_ : Nat) : Statement (.virgaRoundCommit lead_) := nofun

theorem fabricPut (slot_ : Nat) (node_ : Nat) : Statement (.fabricPut slot_ node_) := nofun

theorem fabricGet (slot_ : Nat) (node_ : Nat) : Statement (.fabricGet slot_ node_) := nofun

theorem fabricRadd (slot_ : Nat) (node_ : Nat) : Statement (.fabricRadd slot_ node_) := nofun

theorem putData (f_ : Frame) : Statement (.putData f_) := nofun

theorem getRequest (f_ : Frame) : Statement (.getRequest f_) := nofun

theorem getData (f_ : Frame) : Statement (.getData f_) := nofun

theorem raddData (f_ : Frame) : Statement (.raddData f_) := nofun

theorem fabricAck (f_ : Frame) : Statement (.fabricAck f_) := nofun

theorem fabricNak (f_ : Frame) : Statement (.fabricNak f_) := nofun

theorem fabricRetransmitTimeout (peer_ : Nat) : Statement (.fabricRetransmitTimeout peer_) := nofun

theorem fabricFailureTimeout (peer_ : Nat) : Statement (.fabricFailureTimeout peer_) := nofun

theorem hostMemoryRead (addr_ : Nat) (n_ : Nat) : Statement (.hostMemoryRead addr_ n_) := nofun

theorem hostMemoryWrite (addr_ : Nat) (data_ : List Byte) : Statement (.hostMemoryWrite addr_ data_) := nofun

theorem launchStore (i_ : Nat) (form8_ : Bool) (addr_ : Word) : Statement (.launchStore i_ form8_ addr_) := nofun

theorem cbpopStore  : Statement (.cbpopStore ) := nofun

theorem cbdoneStore (v_ : Word) : Statement (.cbdoneStore v_) := nofun

theorem hintstClear (mask_ : Word) : Statement (.hintstClear mask_) := nofun

theorem herrClear  : Statement (.herrClear ) := nofun

theorem smpposWrite (core_ : Nat) (v_ : Word) : Statement (.smpposWrite core_ v_) := nofun

theorem smpstWrite (core_ : Nat) (v_ : Word) : Statement (.smpstWrite core_ v_) := nofun

theorem gdataWrite (core_ : Nat) (v_ : Word) : Statement (.gdataWrite core_ v_) := nofun

theorem elogsClear (core_ : Nat) : Statement (.elogsClear core_) := nofun

theorem einjWrite (core_ : Nat) (v_ : Word) : Statement (.einjWrite core_ v_) := nofun

theorem cretireWrite (sup_ : Bool) (host_ : Bool) (k_ : Nat) (v_ : Word) : Statement (.cretireWrite sup_ host_ k_ v_) := nofun

theorem regionTableWrite (sec_ : Bool) (k_ : Nat) (v_ : Word) : Statement (.regionTableWrite sec_ k_ v_) := nofun

theorem thermWrite (v_ : Nat) : Statement (.thermWrite v_) := nofun

theorem registerWrite (core_ : Nat) (n_ : Nat) (v_ : Word) : Statement (.registerWrite core_ n_ v_) := nofun

theorem thermalStopBegin  : Statement (.thermalStopBegin ) := nofun

theorem thermalStopEnd  : Statement (.thermalStopEnd ) := nofun

theorem powerOnReset (pileusOk_ : Bool) (overcastOk_ : Bool) : Statement (.powerOnReset pileusOk_ overcastOk_) := nofun

theorem attestationRequest (nonce_ : List Byte) : Statement (.attestationRequest nonce_) := nofun

theorem launchDecision (i_ : Nat) : Statement (.launchDecision i_) := nofun

theorem softError (arr_ : Nat) (core_ : Nat) (idx_ : Nat) (bits_ : List Nat) : Statement (.softError arr_ core_ idx_ bits_) := nofun

theorem swiverLinkFailure : Statement .swiverLinkFailure := nofun

theorem fabricFrameDropped (f_ : Frame) : Statement (.fabricFrameDropped f_) := nofun

end Sys2Proof.Laws.FieldsFit
end

