-- ==== Sys2Proof/Laws/Word.lean ====
section
/-! SUPPORT. A ready word's turn runs its effects in the state after its wait, and what the wait changes. -/

namespace Sys2Proof.Machine

theorem seenValues_own {clk : Clk} {a cur n : Nat} {old : Nat} {l : RegHist} {b : Nat}
    (hs : b = a ∨ knows clk b n = true) : seenValues clk a cur ((b, n, old) :: l) = [cur] := by
  unfold seenValues; rw [if_pos (by simpa using hs)]

/-- Of a history whose newest write an agent knows, it sees the value that stands. -/
theorem pickSeen_own {clk : Clk} {a cur n : Nat} {old : Nat} {l : RegHist} {b : Nat} {s : State}
    (hs : b = a ∨ knows clk b n = true) : (pickSeen clk a cur ((b, n, old) :: l)).run s = .ok (cur, s) := by
  unfold pickSeen
  rw [seenValues_own hs]
  rfl

/-- A settled register reads as it stands, with no draw. -/
theorem rdWeak_settled {s : State} {key : Nat} (cur : Nat) (hs : s.settled key = true) :
    (rdWeak key cur).run s = .ok (cur, s) := by
  unfold rdWeak
  simp only [Op.run_bind, Op.run_get]
  unfold State.settled at hs
  change (StateT.run (match SMap.get [] s.me.rhist key with | [] => _ | h => _) s) = _
  revert hs
  generalize SMap.get [] s.me.rhist key = l
  rcases l with _ | ⟨⟨b, n, old⟩, l⟩
  · intro _; rfl
  · intro hs
    simp only [Bool.and_eq_true, decide_eq_true_eq, Bool.or_eq_true] at hs
    obtain ⟨hk, hn⟩ := hs
    have e : (if (s.strm.issued && decide (s.curStream ≠ .c)) = true then asOf s.strm.issuedAt cur ((b, n, old) :: l)
        else (cur, (b, n, old) :: l)) = (cur, (b, n, old) :: l) := by
      split
      · rename_i hi
        simp only [Bool.and_eq_true] at hi
        unfold asOf
        rw [State.readsAt, if_pos hi.1] at hn
        rw [if_neg (by omega)]
      · rfl
    have e' : (s.core s.curCore).stream s.curStream = s.strm := rfl
    simp only [e', e]
    exact pickSeen_own hk

theorem preCheck_run {s : State} {i : Instr} {h : Hdr} (ha : s.accepts i h = true) :
    (preCheck i h).run s = .ok ((), s) := by
  simp only [State.accepts, Bool.and_eq_true, Bool.or_eq_true, Bool.not_eq_true', decide_eq_true_eq] at ha
  obtain ⟨⟨⟨⟨⟨h1, h2⟩, h3⟩, h4⟩, h5⟩, h6⟩ := ha
  unfold preCheck
  simp only [Op.run_bind, streamOf_run, here_run]
  rw [if_neg (by simpa using h1), if_neg (by rcases h2 with h2 | h2 <;> simp [h2]), if_neg (by simp [h3, h4])]
  have hc : (guardFault (!(needsCoupled i h && s.me.coupled.isNone)) fcQSTATE).run s = .ok ((), s) := by
    rw [guardFault_run, if_pos (by rcases h6 with h6 | h6 <;> simp_all [Option.isSome_iff_ne_none])]
  by_cases hv : s.curStream = .v
  · obtain ⟨h5, h7⟩ := h5.resolve_left (fun h => h hv)
    have hg : (guardFault ((vregs i).all fun r => (s.me.creg crVALLOT).toNat.testBit (r / 64)) fcREGALLOT).run s =
        .ok ((), s) := by rw [guardFault_run]; exact if_pos h7
    split
    · simp only [Op.run_bind, rdWeak_settled _ h5, hg, hc]
    · exact hc
  · rw [if_neg (by simp [hv])]; exact hc

theorem takeWait_run {s : State} {h : Hdr} (hw : s.strm.issued = false) (hf : s.firstPass = true)
    (hw : s.waitOpen h = true) :
    (takeWait h.w).run s = .ok ((),
      if 0x01 ≤ h.w && h.w ≤ 0x3F then s.takeCounter h.w
      else if 0x40 ≤ h.w && h.w ≤ 0x4F then s.learn s.agent (SMap.get Rdv.reset s.me.rdv (h.w - 0x40)).clk
      else s) := by
  rename_i hi
  simp only [State.waitOpen, hi, hf, Bool.not_true, Bool.false_or] at hw
  unfold takeWait
  simp only [Op.run_bind, here_run]
  by_cases h1 : (decide (0x01 ≤ h.w) && decide (h.w ≤ 0x3F)) = true
  · rw [if_pos h1] at hw
    rw [if_pos h1, if_pos h1, Op.run_bind_ok (Op.run_get s), if_neg (by simpa using hw)]
    rfl
  · rw [if_neg h1] at hw ⊢
    rw [if_neg h1]
    by_cases h2 : (decide (0x40 ≤ h.w) && decide (h.w ≤ 0x4F)) = true
    · rw [if_pos h2] at hw ⊢
      rw [if_pos h2, if_pos hw]; rfl
    · rw [if_neg h2] at hw ⊢
      rw [if_neg h2]
      by_cases h3 : (decide (0x50 ≤ h.w) && decide (h.w ≤ 0x5F)) = true
      · rw [if_pos h3] at hw ⊢
        simp only [guardBlock_run, hw, if_true]
      · rw [if_neg h3] at hw ⊢
        by_cases h4 : (decide (0x60 ≤ h.w) && decide (h.w ≤ 0x6F)) = true
        · rw [if_pos h4] at hw ⊢
          simp only [guardBlock_run, hw, if_true]
        · rw [if_neg h4]; rfl

theorem replayHold_run {s : State} {i : Instr} {h : Hdr} (hr : s.replayRule i h ≠ .wait) :
    (replayHold i h).run s = .ok ((), s.replayed i h) := by
  revert hr
  unfold replayHold State.replayed State.replayRule
  have hx : s.me.stream s.curStream = s.strm := rfl
  simp only [Op.run_bind, streamOf_run, here_run, hx]
  by_cases hi : s.strm.issued = true
  · simp [hi]
  simp only [hi, if_false, Bool.false_eq_true]
  cases hc : s.me.replay s.curStream with
  | none =>
    cases i <;> first
      | (intro _; rfl)
      | (simp only [guardBlock_run, ne_eq, ite_eq_left_iff, Bool.not_eq_true, reduceCtorEq, not_forall, exists_prop]
         intro hr
         simp [hr])
  | some r =>
    simp only
    by_cases h1 : r.at_.isSome = true
    · simp [h1]
    · simp only [h1]
      by_cases h2 : replaySafe i h s.me s.curStream = true
      · simp only [h2]
        by_cases h3 : (isListed i s.me s.curStream && decide (r.list.length ≥ 64)) = true
        · by_cases h4 : s.me.notStarted s.curStream = true
          · simp [h3, h4]
          · simp [h3, h4]
        · simp [h3]
      · simp only [h2]
        by_cases h4 : s.me.notStarted s.curStream = true
        · cases i <;> simp [h4]
        · cases i <;> simp [h4]

theorem stampHold_run {s : State} (hd : s.stampDue = true) (hst : s.curStream = .c ∨ s.curStream = .a) :
    stampHold.run s =
      .ok ((), if s.strm.stamp.isSome then s.modStrm fun x => { x with stamp := none } else s) := by
  unfold stampHold
  simp only [State.stampDue] at hd
  simp only [Op.run_bind, thisStream_run, here_run]
  cases hx : s.strm.stamp with
  | none => simp
  | some p =>
    obtain ⟨f, y⟩ := p
    have hs : (decide (s.curStream ≠ Stream.c) && decide (s.curStream ≠ Stream.a)) = false := by
      rcases hst with h | h <;> simp [h]
    rw [hs, hx] at hd
    simp only [Bool.false_or, Bool.and_eq_true, decide_eq_true_eq, Bool.not_eq_true'] at hd
    obtain ⟨⟨rfl, rfl⟩, hc⟩ := hd
    have e : (decide (s.curStream = .a) && s.me.stampFirst && s.mayIssue s.curCore .c) = false := by rw [hc]; rfl
    dsimp only
    rw [if_neg (by simp), if_pos (by simp), Op.run_bind_ok (streamOf_run s), Op.run_bind_ok (Op.run_get s)]
    show StateT.run (if (decide (s.curStream = .a) && s.me.stampFirst && s.mayIssue s.curCore .c) = true then _ else _) s = _
    rw [e]; simp

theorem State.ready_running {s : State} {i : Instr} {h : Hdr} (hr : s.ready i h = true) : s.me.st = .running := by
  simp only [State.ready, State.atWord, State.mayIssue, Bool.and_eq_true] at hr
  have h0 := hr.1.1.1.1.1.1.1.1.2.1.1.1.1.1
  simpa [State.me] using h0

@[simp] theorem Core.setReplay_st (c : Core) (st : Stream) (r : Option Replay) : (c.setReplay st r).st = c.st := by
  cases st <;> rfl

@[simp] theorem Core.setReplay_stream (c : Core) (st u : Stream) (r : Option Replay) :
    (c.setReplay st r).stream u = c.stream u := by cases st <;> cases u <;> rfl

@[simp] theorem Core.setReplay_count (c : Core) (st : Stream) (r : Option Replay) (n : Nat) :
    (c.setReplay st r).count n = c.count n := by cases st <;> rfl

@[simp] theorem Core.setReplay_rdv (c : Core) (st : Stream) (r : Option Replay) : (c.setReplay st r).rdv = c.rdv := by
  cases st <;> rfl

@[simp] theorem Core.setReplay_q (c : Core) (st : Stream) (r : Option Replay) : (c.setReplay st r).q = c.q := by
  cases st <;> rfl

@[simp] theorem Core.setReplay_cr (c : Core) (st : Stream) (r : Option Replay) : (c.setReplay st r).cr = c.cr := by
  cases st <;> rfl

@[simp] theorem Core.setReplay_sreg (c : Core) (st u : Stream) (r : Option Replay) (n : Nat) :
    (c.setReplay st r).sreg u n = c.sreg u n := by cases st <;> rfl

@[simp] theorem Core.takeCount_st (c : Core) (n : Nat) : (c.takeCount n).1.st = c.st := (rfl)
@[simp] theorem Core.takeCount_stream (c : Core) (n : Nat) (u : Stream) :
    (c.takeCount n).1.stream u = c.stream u := by cases u <;> rfl
@[simp] theorem Core.takeCount_sreg (c : Core) (n : Nat) (u : Stream) (r : Nat) :
    (c.takeCount n).1.sreg u r = c.sreg u r := rfl

/-- A dropped replay list holds no cohort back. -/
theorem State.cohortHeld_setReplay (s : State) (hs : s.me.st ≠ .idle) (u : Stream) (r : Option Replay) :
    (s.withMe (s.me.setReplay u r)).cohortHeld s.curCore = s.cohortHeld s.curCore := by
  have e : (s.withMe (s.me.setReplay u r)).core s.curCore = s.me.setReplay u r := s.me_withMe (by simpa using hs)
  have ef : (s.me.setReplay u r).frame = s.me.frame := by cases u <;> rfl
  have ea : (s.me.setReplay u r).act = s.me.act := by cases u <;> rfl
  have en : (s.withMe (s.me.setReplay u r)).nodeOf (s.me.setReplay u r).slot (s.me.setReplay u r).node =
      s.nodeOf s.me.slot s.me.node := by cases u <;> rfl
  unfold State.cohortHeld
  rw [e]
  simp only
  rw [ef, ea, en]
  show _ = (s.me.frame && !s.me.act && match s.nodeOf s.me.slot s.me.node with | some n => _ | none => false)
  cases s.nodeOf s.me.slot s.me.node with
  | none => rfl
  | some n =>
    simp only
    congr 3; funext j
    by_cases hne : j = s.curCore
    · simp [hne]
    · rw [State.core_withMe_other _ _ hne]

/-- A dropped replay list holds no stream back. -/
theorem State.mayIssue_setReplay (s : State) (hs : s.me.st ≠ .idle) (u : Stream) (r : Option Replay) (t : Stream) :
    (s.withMe (s.me.setReplay u r)).mayIssue s.curCore t = s.mayIssue s.curCore t := by
  have e : (s.withMe (s.me.setReplay u r)).core s.curCore = s.me.setReplay u r := s.me_withMe (by simpa using hs)
  unfold State.mayIssue
  rw [State.cohortHeld_setReplay s hs, e]
  cases u <;> rfl

/-! What the wait leaves alone. -/

section
variable {s : State} {i : Instr} {h : Hdr}

@[simp] theorem State.replayed_curCore : (s.replayed i h).curCore = s.curCore := by
  unfold State.replayed; split <;> rfl
@[simp] theorem State.replayed_curStream : (s.replayed i h).curStream = s.curStream := by
  unfold State.replayed; split <;> rfl
@[simp] theorem State.replayed_st (hs : s.me.st ≠ .idle) : (s.replayed i h).me.st = s.me.st := by
  unfold State.replayed; split <;> simp [hs]
@[simp] theorem State.replayed_strm (hs : s.me.st ≠ .idle) : (s.replayed i h).strm = s.strm := by
  unfold State.replayed; split <;> simp [hs, State.strm]
@[simp] theorem State.replayed_firstPass (hs : s.me.st ≠ .idle) : (s.replayed i h).firstPass = s.firstPass := by
  simp [State.firstPass, hs]
@[simp] theorem State.replayed_count (hs : s.me.st ≠ .idle) (n : Nat) :
    (s.replayed i h).me.count n = s.me.count n := by unfold State.replayed; split <;> simp [hs]
@[simp] theorem State.replayed_rdv (hs : s.me.st ≠ .idle) : (s.replayed i h).me.rdv = s.me.rdv := by
  unfold State.replayed; split <;> simp [hs]
@[simp] theorem State.replayed_q (hs : s.me.st ≠ .idle) : (s.replayed i h).me.q = s.me.q := by
  unfold State.replayed; split <;> simp [hs]
@[simp] theorem State.replayed_waitOpen (hs : s.me.st ≠ .idle) : (s.replayed i h).waitOpen h = s.waitOpen h := by
  have h1 : ∀ n, (s.replayed i h).me.qReady n = s.me.qReady n := fun n => by
    unfold Core.qReady Core.queue; rw [State.replayed_q hs]
  have h2 : ∀ n, (s.replayed i h).me.qHasSpace n = s.me.qHasSpace n := fun n => by
    unfold Core.qHasSpace Core.queue; rw [State.replayed_q hs]
  have h3 : (s.replayed i h).outranked h.w = s.outranked h.w := by
    unfold State.replayed; split
    · unfold State.outranked
      congr 1; funext t
      have e : (s.withMe (s.me.setReplay s.curStream none)).core s.curCore = _ := s.me_withMe (by simpa using hs)
      rw [State.withMe_curCore, State.mayIssue_setReplay s hs, e, Core.setReplay_stream]; rfl
    · rfl
  unfold State.waitOpen
  rw [h3, State.replayed_strm hs, State.replayed_firstPass hs, State.replayed_count hs, State.replayed_rdv hs, h1, h2]

/-- The executing core after a wait. -/
theorem State.takeWait_me (hs : s.me.st ≠ .idle) : (s.takeWait h).me =
    (if 0x01 ≤ h.w && h.w ≤ 0x3F then (s.me.takeCount h.w).1 else s.me).setStream s.curStream
      { s.strm with
        issued := true
        issuedAt := s.seq
        blocked := false
        taken := if 0x01 ≤ h.w && h.w ≤ 0x3F then some (h.w, (s.me.takeCount h.w).2) else s.strm.taken
        waitOn := if 0x01 ≤ h.w && h.w ≤ 0x3F then 0 else s.strm.waitOn } := by
  unfold State.takeWait
  by_cases h1 : (decide (0x01 ≤ h.w) && decide (h.w ≤ 0x3F)) = true
  · simp only [if_pos h1]
    have e1 : (s.withMe (s.me.takeCount h.w).1).me = (s.me.takeCount h.w).1 := by simp [hs]
    have e2 : ((s.withMe (s.me.takeCount h.w).1).learn s.agent (s.me.takeCount h.w).2).me.st ≠ .idle := by
      rw [State.learn_me, e1]; exact hs
    have e3 : (s.takeCounter h.w).me = (s.me.takeCount h.w).1.setStream s.curStream
        { s.strm with taken := some (h.w, (s.me.takeCount h.w).2), waitOn := 0 } := by
      unfold State.takeCounter
      rw [State.me_modStrm _ _ e2, State.learn_me, e1, State.learn_strm]
      simp [State.strm, hs]
    unfold State.issue
    rw [State.me_modStrm _ _ (by rw [e3]; simpa using hs)]
    have e5 : (s.takeCounter h.w).seq = s.seq := rfl
    have e4 : (s.takeCounter h.w).curStream = s.curStream := rfl
    rw [State.strm, e3, e4, e5]
    simp
  · simp only [if_neg h1]
    unfold State.issue
    split
    · rw [State.me_modStrm _ _ (by simpa using hs)]; rfl
    · rw [State.me_modStrm _ _ hs]

theorem State.takeWait_cores_other (h' : Hdr) {j : Nat} (hj : j ≠ s.curCore) : (s.takeWait h').core j = s.core j := by
  unfold State.takeWait State.issue
  split
  · rw [State.core_modStrm_other _ _ (by exact hj)]
    unfold State.takeCounter
    rw [State.core_modStrm_other _ _ (by exact hj), State.learn_core, State.core_withMe_other _ _ hj]
  · split
    · rw [State.core_modStrm_other _ _ (by exact hj)]; rfl
    · rw [State.core_modStrm_other _ _ hj]

@[simp] theorem State.takeWait_curCore : (s.takeWait h).curCore = s.curCore := by
  unfold State.takeWait; split <;> [rfl; (split <;> rfl)]
@[simp] theorem State.takeWait_curStream : (s.takeWait h).curStream = s.curStream := by
  unfold State.takeWait; split <;> [rfl; (split <;> rfl)]
@[simp] theorem State.takeWait_mem : (s.takeWait h).mem = s.mem := by
  unfold State.takeWait; split <;> [rfl; (split <;> rfl)]
@[simp] theorem State.takeWait_hist : (s.takeWait h).hist = s.hist := by
  unfold State.takeWait; split <;> [rfl; (split <;> rfl)]
@[simp] theorem State.takeWait_seq : (s.takeWait h).seq = s.seq := by
  unfold State.takeWait; split <;> [rfl; (split <;> rfl)]

@[simp] theorem State.takeWait_st (hs : s.me.st ≠ .idle) : (s.takeWait h).me.st = s.me.st := by
  rw [State.takeWait_me hs, Core.setStream_st]; split <;> simp

@[simp] theorem State.takeWait_cr (hs : s.me.st ≠ .idle) : (s.takeWait h).me.cr = s.me.cr := by
  rw [State.takeWait_me hs, Core.setStream_cr]; split <;> rfl

@[simp] theorem State.takeWait_stamp (hs : s.me.st ≠ .idle) : (s.takeWait h).strm.stamp = s.strm.stamp := by
  rw [State.strm, State.takeWait_me hs, State.takeWait_curStream, Core.stream_setStream_self]

theorem waitOnce_run (hs : s.me.st ≠ .idle) (hopen : s.waitOpen h = true) :
    (waitOnce s.strm s.curStream h.w).run (s.replayed i h) = .ok ((),
        if s.strm.issued then s.replayed i h
      else if !s.firstPass then (s.replayed i h).issue else (s.replayed i h).takeWait h) := by
  unfold waitOnce
  by_cases hi : s.strm.issued = true
  · rw [if_pos hi, if_pos hi]; rfl
  · rw [if_neg hi, if_neg hi]
    by_cases hf : s.firstPass = true
    · have hf' : s.strm.firstPass s.curStream = true := hf
      simp only [hf, hf', Bool.not_true, Bool.false_eq_true, if_false]
      rw [Op.run_bind, takeWait_run (by rw [State.replayed_strm hs]; simpa using hi)
        (by rw [State.replayed_firstPass hs]; exact hf) (by rw [State.replayed_waitOpen hs]; exact hopen)]
      rfl
    · have hf' : ¬ s.strm.firstPass s.curStream = true := hf
      simp only [Bool.not_eq_true] at hf hf'
      simp only [hf, hf', Bool.not_false, if_true]
      rfl

end

/-- A wait of A leaves C's sequencing alone. -/
theorem State.takeWait_sC {s : State} {h : Hdr} (hs : s.me.st ≠ .idle) (ha : s.curStream = .a) :
    (s.takeWait h).me.sC = s.me.sC := by
  rw [State.takeWait_me hs, ha]; split <;> rfl

theorem stampStep_run {s t : State} (hd : s.stampDue = true) (h1 : t.curStream = s.curStream)
    (h2 : t.strm.stamp = s.strm.stamp) (h3 : t.me.cr = s.me.cr) (h4 : s.curStream = .a → t.me.sC = s.me.sC) :
    (stampStep s.curStream).run t = .ok ((),
      if (s.curStream = .c || s.curStream = .a) && s.strm.stamp.isSome then t.modStrm fun x => { x with stamp := none }
      else t) := by
  unfold stampStep
  by_cases hc : (decide (s.curStream = .c) || decide (s.curStream = .a)) = true
  · rw [if_pos hc, stampHold_run]
    · rw [h2, hc, Bool.true_and]
    · have e : (decide (s.curStream = .a) && t.me.stampFirst) = (decide (s.curStream = .a) && s.me.stampFirst) := by
        by_cases ha : s.curStream = .a
        · unfold Core.stampFirst Core.frameNow Core.creg; rw [h3, h4 ha]
        · simp [ha]
      unfold State.stampDue at hd ⊢
      rw [h1, h2, e]
      unfold Core.frameNow Core.creg at hd ⊢
      rw [h3]; exact hd
    · rw [h1]; simpa using hc
  · rw [if_neg hc]
    simp only [Bool.not_eq_true] at hc
    rw [hc, Bool.false_and]; rfl

/-- A ready word passes its checks and its wait, and its effects take place in the state after the wait. -/
theorem front_run {s : State} {i : Instr} {h : Hdr} (hr : s.ready i h = true) :
    (front i h).run s = .ok (.run, s.waited i h) := by
  have hrun := State.ready_running hr
  have hs : s.me.st ≠ .idle := by rw [hrun]; decide
  simp only [State.ready, Bool.and_eq_true, Bool.not_eq_true', decide_eq_true_eq] at hr
  obtain ⟨⟨⟨⟨⟨⟨⟨hw, hacc⟩, hskip⟩, hrs⟩, hrule⟩, hopen⟩, hdue⟩, hrpt⟩ := hr
  have hs1 : (s.replayed i h).me.st ≠ .idle := by rw [State.replayed_st hs]; exact hs
  have hcr : (s.replayed i h).me.cr = s.me.cr := by
    unfold State.replayed; split
    · rw [State.me_withMe _ (by simpa using hs), Core.setReplay_cr]
    · rfl
  unfold front
  rw [Op.run_bind_ok (preCheck_run hacc), Op.run_bind_ok (streamOf_run s), Op.run_bind_ok (here_run s)]
  have hx : s.me.stream s.curStream = s.strm := rfl
  simp only [hx]
  have e1 : ((s.strm.firstPass s.curStream) && s.me.skipped s.curStream h) = false := hskip
  rw [e1, hrs]
  simp only [Bool.false_eq_true, if_false]
  have hsC : (s.replayed i h).me.sC = s.me.sC := by
    unfold State.replayed; split
    · rw [State.me_withMe _ (by simpa using hs)]; cases s.curStream <;> rfl
    · rfl
  have hx1 : (s.replayed i h).strm = s.strm := State.replayed_strm hs
  rw [Op.run_bind_ok (replayHold_run hrule), Op.run_bind_ok (waitOnce_run hs hopen), Op.run_bind_ok (stampStep_run hdue
    ?h1 ?h2 ?h3 ?h4), hrpt]
  · rfl
  case h1 => split <;> [skip; split] <;> simp [State.issue]
  case h2 => split <;> [skip; split] <;> simp [State.issue, hs1, hx1]
  case h3 => split <;> [skip; split] <;> simp [State.issue, hs1, hcr]
  case h4 =>
    intro ha
    have ha1 : (s.replayed i h).curStream = .a := by simpa using ha
    split <;> [skip; split]
    · exact hsC
    · rw [State.issue, State.me_modStrm _ _ hs1, ha1]; exact hsC
    · rw [State.takeWait_sC hs1 ha1]; exact hsC

/-- A ready word's turn: its effects run in the state after its wait, and it retires, or ends as they end. -/
theorem State.word_ready {s : State} {i : Instr} {h : Hdr} (body : Op Fin) (hr : s.ready i h = true) :
    s.word i h body = (match body.run (s.waited i h) with
      | .ok (f, t) => t.retire i h f
      | .error e => (s.waited i h).settle i e) := by
  have h0 := hr
  simp only [State.ready, State.atWord, Bool.and_eq_true, Bool.not_eq_true'] at h0
  obtain ⟨⟨⟨⟨⟨⟨⟨⟨⟨h1, h2⟩, h3⟩, -⟩, -⟩, -⟩, -⟩, -⟩, -⟩, -⟩ := h0
  unfold State.word
  simp only [h1, h2, Bool.false_eq_true, Bool.not_true, if_false]
  rw [if_neg (by rw [h3]; simp), front_run hr]
  all_goals (simp only; cases body.run (s.waited i h) <;> rfl)

theorem runWord_ready {s : State} {i : Instr} {h : Hdr} {body : Op Fin} {f : Fin} {t : State} (hr : s.ready i h = true)
    (hb : body.run (s.waited i h) = .ok (f, t)) : runWord i h body s = .next (t.retire i h f) := by
  unfold runWord
  rw [State.word_ready body hr, hb]

theorem runOp_ready {s : State} {i : Instr} {h : Hdr} {body : Op Unit} {t : State} (hr : s.ready i h = true)
    (hb : body.run (s.waited i h) = .ok ((), t)) : runOp i h body s = .next (t.retire i h fall) :=
  runWord_ready hr (by rw [Op.run_bind_ok hb]; rfl)

/-- A ready word whose effects fault takes the fault. -/
theorem runWord_fault {s : State} {i : Instr} {h : Hdr} {body : Op Fin} {f : FaultInfo} (hr : s.ready i h = true)
    (hb : body.run (s.waited i h) = .error (.fault f)) : runWord i h body s =
      .next ((s.waited i h).takeFault (s.waited i h).curCore f (deferrable i (s.waited i h).curStream f)) := by
  unfold runWord
  rw [State.word_ready body hr, hb]
  rfl

theorem runOp_fault {s : State} {i : Instr} {h : Hdr} {body : Op Unit} {f : FaultInfo} (hr : s.ready i h = true)
    (hb : body.run (s.waited i h) = .error (.fault f)) : runOp i h body s =
      .next ((s.waited i h).takeFault (s.waited i h).curCore f (deferrable i (s.waited i h).curStream f)) :=
  runWord_fault hr (by rw [Op.run_bind_error hb])

end Sys2Proof.Machine
end

