-- ==== Sys2Proof/Laws/Waited.lean ====
section
/-! SUPPORT. What a word's wait leaves alone (R28, R75): all but the count it takes, what the stream learns and the
stream's own sequencing. -/

namespace Sys2Proof.Machine

variable {s : State} {i : Instr} {h : Hdr}

/-- What the parts of a wait keep of the executing core. -/
theorem State.takeWait_keep {α : Type} (g : Core → α) (hs : s.me.st ≠ .idle)
    (h1 : ∀ (c : Core) (st : Stream) (x : StreamSt), g (c.setStream st x) = g c)
    (h2 : ∀ (c : Core) (n : Nat), g (c.takeCount n).1 = g c) : g (s.takeWait h).me = g s.me := by
  rw [State.takeWait_me hs, h1]; split
  · rw [h2]
  · rfl

theorem State.replayed_keep {α : Type} (g : Core → α) (hs : s.me.st ≠ .idle)
    (h1 : ∀ (c : Core) (st : Stream) (r : Option Replay), g (c.setReplay st r) = g c) :
    g (s.replayed i h).me = g s.me := by
  unfold State.replayed; split
  · rw [State.me_withMe _ (by simpa using hs), h1]
  · rfl

/-- What setting a stream, taking a count and dropping a replay list keep of a core, the wait keeps. -/
theorem State.waited_keep {α : Type} (g : Core → α) (hs : s.me.st ≠ .idle)
    (h1 : ∀ (c : Core) (st : Stream) (x : StreamSt), g (c.setStream st x) = g c)
    (h2 : ∀ (c : Core) (n : Nat), g (c.takeCount n).1 = g c)
    (h3 : ∀ (c : Core) (st : Stream) (r : Option Replay), g (c.setReplay st r) = g c) :
    g (s.waited i h).me = g s.me := by
  have hs1 : (s.replayed i h).me.st ≠ .idle := by rw [State.replayed_st hs]; exact hs
  have e : ∀ t : State, t = (if s.strm.issued then s.replayed i h else if !s.firstPass then (s.replayed i h).issue
      else (s.replayed i h).takeWait h) → g t.me = g s.me ∧ t.me.st ≠ .idle := by
    intro t ht; subst ht
    split <;> [skip; split]
    · exact ⟨State.replayed_keep g hs h3, hs1⟩
    · unfold State.issue
      rw [State.me_modStrm _ _ hs1]
      exact ⟨(h1 _ _ _).trans (State.replayed_keep g hs h3), by simpa using hs1⟩
    · exact ⟨(State.takeWait_keep g hs1 h1 h2).trans (State.replayed_keep g hs h3), by rw [State.takeWait_st hs1]; exact hs1⟩
  unfold State.waited
  simp only
  obtain ⟨e1, e2⟩ := e _ rfl
  split
  · rw [State.me_modStrm _ _ e2, h1, e1]
  · exact e1

/-- What holds of the state after dropping a replay list, learning and changing the executing core, holds after the
wait. -/
theorem State.waited_pack {α : Type} (g : State → α) (h1 : ∀ (s : State) (c : Core), g (s.withMe c) = g s)
    (h2 : ∀ (s : State) (a : Nat) (t : Clk), g (s.learn a t) = g s) : g (s.waited i h) = g s := by
  have hm : ∀ (s : State) f, g (s.modStrm f) = g s := fun s f => h1 _ _
  have e0 : g (s.replayed i h) = g s := by unfold State.replayed; split <;> simp [h1]
  have e1 : ∀ t : State, g (t.takeWait h) = g t := by
    intro t; unfold State.takeWait State.issue
    rw [hm]; split
    · unfold State.takeCounter; rw [hm, h2, h1]
    · split <;> simp [h2]
  have e2 : ∀ t : State, g t.issue = g t := fun t => hm _ _
  unfold State.waited
  simp only
  split
  · rw [hm]; split <;> [skip; split] <;> simp [e0, e1, e2]
  · split <;> [skip; split] <;> simp [e0, e1, e2]

@[simp] theorem State.waited_curCore : (s.waited i h).curCore = s.curCore :=
  State.waited_pack State.curCore (fun _ _ => rfl) fun _ _ _ => rfl
@[simp] theorem State.waited_curStream : (s.waited i h).curStream = s.curStream :=
  State.waited_pack State.curStream (fun _ _ => rfl) fun _ _ _ => rfl
@[simp] theorem State.waited_mem : (s.waited i h).mem = s.mem :=
  State.waited_pack State.mem (fun _ _ => rfl) fun _ _ _ => rfl
@[simp] theorem State.waited_seq : (s.waited i h).seq = s.seq :=
  State.waited_pack State.seq (fun _ _ => rfl) fun _ _ _ => rfl
@[simp] theorem State.waited_graphs : (s.waited i h).graphs = s.graphs :=
  State.waited_pack State.graphs (fun _ _ => rfl) fun _ _ _ => rfl
@[simp] theorem State.waited_draws : (s.waited i h).draws = s.draws :=
  State.waited_pack State.draws (fun _ _ => rfl) fun _ _ _ => rfl
@[simp] theorem State.waited_apart : (s.waited i h).apart = s.apart :=
  State.waited_pack State.apart (fun _ _ => rfl) fun _ _ _ => rfl
@[simp] theorem State.waited_agent : (s.waited i h).agent = s.agent := by simp [State.agent]
@[simp] theorem State.waited_eccQuiet : (s.waited i h).eccQuiet = s.eccQuiet :=
  State.waited_pack State.eccQuiet (fun _ _ => rfl) fun _ _ _ => rfl

theorem State.waited_core_other {j : Nat} (hj : j ≠ s.curCore) : (s.waited i h).core j = s.core j := by
  have e := State.waited_pack (s := s) (i := i) (h := h)
    (fun t => (t.curCore, if j = t.curCore then Core.reset else t.core j))
    (fun t c => by
      simp only [State.withMe_curCore, Prod.mk.injEq, true_and]
      by_cases hne : j = t.curCore
      · simp [hne]
      · simp [hne])
    fun _ _ _ => rfl
  simp only [Prod.mk.injEq, State.waited_curCore, if_neg hj] at e
  exact e.2

@[simp] theorem State.waited_st (hs : s.me.st ≠ .idle) : (s.waited i h).me.st = s.me.st :=
  State.waited_keep Core.st hs (fun c st x => by simp) (fun c n => by simp) fun c st r => by simp
@[simp] theorem State.waited_cr (hs : s.me.st ≠ .idle) : (s.waited i h).me.cr = s.me.cr :=
  State.waited_keep Core.cr hs (fun c st x => by simp) (fun _ _ => rfl) fun c st r => by simp
@[simp] theorem State.waited_me_apart (hs : s.me.st ≠ .idle) : (s.waited i h).me.apart = s.me.apart :=
  State.waited_keep Core.apart hs (fun c st x => by cases st <;> rfl) (fun _ _ => rfl) fun c st r => by cases st <;> rfl
@[simp] theorem State.waited_sreg (hs : s.me.st ≠ .idle) (r : Nat) : (s.waited i h).sreg r = s.sreg r := by
  unfold State.sreg
  rw [State.waited_curStream]
  exact State.waited_keep (fun c => c.sreg s.curStream r) hs (fun c st x => by simp) (fun _ _ => rfl) fun c st x => by simp

/-- The stream's sequencing as its wait leaves it, but for the marks of the issue. -/
theorem State.waited_strm (hs : s.me.st ≠ .idle) : ∃ iss at_ blk tk stp w, (s.waited i h).strm =
    { s.strm with issued := iss, issuedAt := at_, blocked := blk, taken := tk, stamp := stp, waitOn := w } := by
  have hs1 : (s.replayed i h).me.st ≠ .idle := by rw [State.replayed_st hs]; exact hs
  have e : ∀ t : State, t = (if s.strm.issued then s.replayed i h else if !s.firstPass then (s.replayed i h).issue
      else (s.replayed i h).takeWait h) →
      (∃ iss at_ blk tk w, t.strm = { s.strm with issued := iss, issuedAt := at_, blocked := blk, taken := tk, waitOn := w }) ∧
        t.me.st ≠ .idle := by
    intro t ht; subst ht
    split <;> [skip; split]
    · exact ⟨⟨_, _, _, _, _, State.replayed_strm hs⟩, hs1⟩
    · refine ⟨?_, by unfold State.issue; rw [State.me_modStrm _ _ hs1]; simpa using hs1⟩
      unfold State.issue
      rw [State.strm_modStrm _ _ hs1, State.replayed_strm hs]
      exact ⟨true, _, _, _, _, rfl⟩
    · refine ⟨?_, by rw [State.takeWait_st hs1]; exact hs1⟩
      rw [State.strm, State.takeWait_me hs1, State.takeWait_curStream, Core.stream_setStream_self, State.replayed_strm hs]
      exact ⟨true, _, _, _, _, rfl⟩
  unfold State.waited
  simp only
  obtain ⟨⟨iss, n, b, tk, w, e1⟩, e2⟩ := e _ rfl
  split
  · exact ⟨iss, n, b, tk, none, w, by rw [State.strm_modStrm _ _ e2, e1]⟩
  · exact ⟨iss, n, b, tk, s.strm.stamp, w, e1⟩

@[simp] theorem State.waited_pc (hs : s.me.st ≠ .idle) : (s.waited i h).strm.pc = s.strm.pc := by
  obtain ⟨a, n, b, c, d, e, hw⟩ := State.waited_strm (i := i) (h := h) hs; rw [hw]

/-- Addresses in the stream's code are formed as before. -/
@[simp] theorem State.waited_plus (hs : s.me.st ≠ .idle) (pc : Word) (n : Int) :
    (s.waited i h).strm.plus pc n = s.strm.plus pc n := by
  obtain ⟨a, n, b, c, d, e, hw⟩ := State.waited_strm (i := i) (h := h) hs; rw [hw]; rfl

theorem State.ready_busy (hr : s.ready i h = true) : s.me.st ≠ .idle := by
  rw [State.ready_running hr]; decide

/-- A ready word is well formed, and its stream accepts it. -/
theorem State.ready_accepts (hr : s.ready i h = true) : s.accepts i h = true := by
  simp only [State.ready, Bool.and_eq_true] at hr
  exact hr.1.1.1.1.1.1.2

end Sys2Proof.Machine
end

