-- ==== Sys2Proof/Tests/Slice0.lean ====
section
/-! SUPPORT. Tests: words that the manual prints decode as it prints them, ill-formed instructions are refused, one step
of a small state does what the manual's examples and arithmetic say, and for every statement with hypotheses a state and
operands that meet them: wit_X meets those of the statement X, and a statement that joins several has one for each. -/

namespace Sys2Proof.Tests

open Sys2Proof.Machine

set_option maxRecDepth 100000
set_option Elab.async false

/-! A small state: one core that runs its four streams in supervisor mode. -/

def strm0 : StreamSt := { StreamSt.reset with pc := 0x1000, started := true, winBase := 0x1000, winSize := 0x8000 }

def core0 : Core :=
  { Core.reset with st := .running, sup := true, jobSup := true, sC := { strm0 with winBase := 0, winSize := 0 },
                    sA := strm0, sV := strm0, sM := strm0, cr := [(0x21, 0x10000), (0x50, 0x3FF), (0x51, 0xFFFF)] }

/-- The small state with the turn of a stream of core 0, and something changed in that core. -/
def stOf (st : Stream) (f : Core → Core) : State := { State.reset with cores := [(0, f core0)], curStream := st }

def sC (f : Core → Core) : State := stOf .c f
def sA (f : Core → Core) : State := stOf .a f
def sV (f : Core → Core) : State := stOf .v f
def sM (f : Core → Core) : State := stOf .m f

/-- The header of a word with no wait and no signal. -/
def h0 : Hdr := ⟨0, 0, .always⟩

/-- S registers of C. -/
def regs (l : SMap Word) (c : Core) : Core := { c with regC := l }

/-- The next state of an outcome. -/
def next (o : Host.Outcome State Fault Refusal) : State :=
  match o with
  | .next t => t
  | _ => State.reset

/-- S[3] after one word of C on the small state with registers 4, 5 and 6. -/
def res (i : Instr) (a b c : Word) : Word := (next (exec i (sC (regs [(4, a), (5, b), (6, c)])))).sreg 3

/-- A command of C of core 0 with address tag 8. -/
def ecmd (e : Nat) (w0 w1 w2 w3 : Word) : Cmd :=
  ⟨.go, w0, w1, w2, w3, 8, e, 0, 0, 1, none, none, [], [], false, none⟩

/-- A running node of one core, and a graph of that node. -/
def node0 : Node :=
  { kind := 0, cls := 0, fm := false, du := false, cpl := false, f := 0, csize := 1, est := 0, npred := 0, deadline := 0,
    depth := 0, energy := 0, span := 0, horizon := 0, image := 0, succ := [], sync := 0, ops := [], job := [],
    st := .running, readyAt := 0, startAt := 0, late := false, therm := false, fault := 0, code := 0, flags := 0,
    cores := [0], ended := [], yielded := [], charged := none, used := 0, cmds := [] }

def graph0 : Graph :=
  { serial := 1, nodes := [node0], statusVa := 0, doneVa := 0, donePa := 0, sv := false, sec := true, hirq := false,
    lsup := true, lsec := true, xroot := 0, ownCore := none, launchAt := 0, failed := false, fnode := 0, report := false }

/-! Words that the manual prints, with the assembly that it prints beside them. -/

/-- crd s5, fpmode; add s5, s6, s7; movi s7, 63; fma.f32.rne s5, s6, s7, s8; movl.h48 s3, 2.5; addi s7, s7, -1. -/
theorem test_decode_scalar :
    decodeTableWord 64 0x000002C500000000 = some (.crd h0 5 0) ∧
    decodeTableWord 64 0x0000040518700000 = some (.add h0 5 6 7) ∧
    decodeTableWord 64 0x000008870000003F = some (.movi h0 7 63) ∧
    decodeTableWord 64 0x00000B4518700209 = some (.fma h0 .f32 .rne 5 6 7 8) ∧
    decodeTableWord 128 (0xFF01400400000000 * 2^64 + 0x000008C300000003) = some (.movl h0 .h48 3 70385924046848) ∧
    decodeTableWord 64 0x000009071C0FFFFF = some (.addi h0 7 7 1048575) := by decide

/-- q0? nop.nfirst !c9; hint 3; c2? hint 0. -/
theorem test_decode_header :
    decodeTableWord 64 0x5009C00000000000 = some (.nop ⟨80, 9, .nfirst⟩) ∧
    decodeTableWord 64 0x00003CC000000000 = some (.hint h0 3) ∧
    decodeTableWord 64 0x02003C0000000000 = some (.hint ⟨2, 0, .always⟩ 0) := by decide

/-- stamp.cur 4096; htree.start [s4]; fence v, c; fence c, host; ppoint s10,s11; ctxsave.yield s49,[s48]; ctxload s49,[s48]. -/
theorem test_decode_system :
    decodeTableWord 64 0x0000020000001000 = some (.stamp h0 0 false 4096) ∧
    decodeTableWord 64 0x000003C010000000 = some (.htreeStart h0 4) ∧
    decodeTableWord 64 0x000001C000000005 = some (.fence h0 5) ∧
    decodeTableWord 64 0x000001C000000401 = some (.fence h0 1025) ∧
    decodeTableWord 64 0x0000024028B00000 = some (.ppoint h0 10 11) ∧
    decodeTableWord 64 0x00000371C0000001 = some (.ctxsave h0 49 48 true) ∧
    decodeTableWord 64 0x000003B1C0000000 = some (.ctxload h0 49 48) := by decide

/-- amo.add.w s5, [s6 + 16], s7; amo.fadd.d s4, [s9], s10; cas.q s8, [s2], s10; acq.ge s4, [s6 + 32], s7; rel s0, [s6 + 32]; barm s5, [s6], s7; bwait s4, [s6]. -/
theorem test_decode_memory :
    decodeTableWord 64 0x0000108518700010 = some (.amo h0 .add .w 5 6 7 16) ∧
    decodeTableWord 64 0x0000108424A94000 = some (.amo h0 .fadd .d 4 9 10 0) ∧
    decodeTableWord 64 0x000010C808A08000 = some (.cas h0 .q 8 2 10 0) ∧
    decodeTableWord 64 0x0000110418710020 = some (.acq h0 true 4 6 7 32) ∧
    decodeTableWord 64 0x0000114018000020 = some (.rel h0 0 6 32) ∧
    decodeTableWord 64 0x0000128518700000 = some (.barm h0 5 6 7 0) ∧
    decodeTableWord 64 0x0000124418000000 = some (.bwait h0 (.scalar 4 6 0)) := by decide

/-- qpush q5, s9; qpop s4, q6; qtry.pop s4, s5, q3; qlen.free s6, q7; ldq q0, [s4 + 512]; stq q2, [s5 - 64]; mbsend s10, c12; mbrecv s11; ecut s8, j2, eng.copy|eng.index. -/
theorem test_decode_queues :
    decodeTableWord 64 0x0000141490000000 = some (.qpush h0 5 9) ∧
    decodeTableWord 64 0x0000145840000000 = some (.qpop h0 6 4) ∧
    decodeTableWord 64 0x0000148C40000005 = some (.qtryPop h0 3 4 5) ∧
    decodeTableWord 64 0x000014DC60000001 = some (.qlen h0 true 7 6) ∧
    decodeTableWord 64 0x000011C040000200 = some (.ldq h0 0 4 512) ∧
    decodeTableWord 64 0x0000120850FFFFC0 = some (.stq h0 5 16777152) ∧
    decodeTableWord 64 0x00001540A000000C = some (.mbsend h0 10 12) ∧
    decodeTableWord 64 0x00001580B0000000 = some (.mbrecv h0 11) ∧
    decodeTableWord 64 0x0000150800020003 = some (.ecut h0 8 2 3) := by decide

/-- cdiff.coh s5, [s6]; cgo.wait s0; cgo.try s7; glaunch s5, [s6]; bsp.l2 s5; rseed.v s4, s5; rjump.c s6, 96; rnext s9; tlbinv.va.pkg s4, s5; tlbinv.all.core; clbinv.vol.pkg s4. -/
theorem test_decode_package :
    decodeTableWord 64 0x0000160518080000 = some (.cdiff h0 .coh 5 6) ∧
    decodeTableWord 64 0x0000164000000000 = some (.cgo h0 false 0) ∧
    decodeTableWord 64 0x0000164700000001 = some (.cgo h0 true 7) ∧
    decodeTableWord 64 0x0000168518000000 = some (.glaunch h0 5 6) ∧
    decodeTableWord 64 0x000016C500000002 = some (.bsp h0 2 5) ∧
    decodeTableWord 64 0x0000170010500002 = some (.rseed h0 .v 4 5) ∧
    decodeTableWord 64 0x0000174018000060 = some (.rjump h0 .c 6 96) ∧
    decodeTableWord 64 0x0000178900000000 = some (.rnext h0 9) ∧
    decodeTableWord 64 0x000017C010500004 = some (.tlbinv h0 .va .pkg 4 5) ∧
    decodeTableWord 64 0x000017C000000002 = some (.tlbinv h0 .all .core 0 0) ∧
    decodeTableWord 64 0x0000180010000005 = some (.clbinv h0 .vol .pkg 4 0) := by decide

/-- smp.tmp s5,[s6],s7,3,64; smp.prob s5,[s6],s0,0,4; stopset s0,[s4],s5,3,2. -/
theorem test_decode_sampler :
    decodeTableWord 64 0x00001A451870DF80 = some (.smp h0 .tmp 5 6 7 3 63) ∧
    decodeTableWord 64 0x00001A45180001A0 = some (.smp h0 .prob 5 6 0 0 3) ∧
    decodeTableWord 64 0x00001A801050C200 = some (.stopset h0 0 4 5 3 2) := by decide

/-- vfma.f32 v12, v3, v4; vaddi v5, v6, 1.5; vcmp.lt.f32 p9, v20, v21; vcvt.f32.h1.f64 v10, v4; vpart.four.q3.i32 v40, v30; vmov.f32 v5, v9; plogic.xor.i32 p9, p3, p4; pcnt.pre.i32 v40, p6; vrnd.key.i32 v6, k3; vtok.any.i32.p1 q3, v20; vsal.2of4.bf16 p3, v20, v10, v11. -/
theorem test_decode_vector :
    decodeTableWord 64 0x000020C0C00C0420 = some (.vfma h0 .f32 0 .dyn 12 3 4) ∧
    decodeTableWord 64 0x00002480A063FC00 = some (.vaddi h0 5 6 261120) ∧
    decodeTableWord 64 0x0000258890501520 = some (.vcmp h0 .lt .f32 0 9 20 21) ∧
    decodeTableWord 64 0x00002600A0100900 = some (.vcvt h0 .f32 1 false .f64 0 .dyn 10 4) ∧
    decodeTableWord 64 0x000027C2807802A0 = some (.vpart h0 true false .i32 0 40 30) ∧
    decodeTableWord 64 0x00002B4050240020 = some (.vmov h0 .f32 0 5 9) ∧
    decodeTableWord 64 0x00002800934600A0 = some (.plogic h0 6 .i32 0 9 3 4) ∧
    decodeTableWord 64 0x00002842801801A0 = some (.pcnt h0 true .i32 0 40 6) ∧
    decodeTableWord 64 0x00002A00600303A0 = some (.vrndKey h0 .i32 0 6 771) ∧
    decodeTableWord 64 0x00002A8D005000A4 = some (.vtok h0 .any false .i32 1 20 0) ∧
    decodeTableWord 64 0x00002B0140280B4C = some (.vsal h0 .p2of4 .bf16 3 20 10 11) := by decide

/-- vld.f32 v7, vw3+16; vst.a8.f64 v40, vw5-8; vmapq.elt q4, v3, 5; vldc v10, v3, vw4, 1,0,0; vstc.p1 v20, v3, vw4,0,0,0. -/
theorem test_decode_vector_memory :
    decodeTableWord 64 0x0000288071801020 = some (.vld h0 .dflt .f32 0 .dyn 7 3 16) ∧
    decodeTableWord 64 0x000028C282BFF800 = some (.vst h0 .a8 .f64 0 .dyn 40 5 8184) ∧
    decodeTableWord 64 0x000029D2000C0500 = some (.vmapq h0 .elt true 3 5) ∧
    decodeTableWord 64 0x00002900A00C8010 = some (.vldc h0 0 10 3 4 1 0 0) ∧
    decodeTableWord 64 0x00002941400C8002 = some (.vstc h0 1 20 3 4 0 0 0) := by decide

/-- lset.loop.imm 6, 3; lset.view.reg vw3.base, s9; rpt 4,1,1,0. -/
theorem test_decode_sequencer :
    decodeTableWord 64 0x00002AC000300006 = some (.lsetLoop h0 .imm 3 6) ∧
    decodeTableWord 64 0x00002AD830000009 = some (.lsetView h0 .reg 3 0 9) ∧
    decodeTableWord 64 0x00002A4010210000 = some (.rpt h0 4 1 1 0) := by decide

/-- mma.bf16 t0, vw2, 0, 4; mdrain.ins.fl.nost.last t2, vw0; acopy.acc t3, t1. -/
theorem test_decode_matrix :
    decodeTableWord 64 0x0000300040000108 = some (.mma h0 false false .bf16 0 2 0 4) ∧
    decodeTableWord 64 0x0000B148000001C0 = some (.mdrain ⟨0, 0, .last⟩ false false true true true 2 0) ∧
    decodeTableWord 64 0x000031840000C001 = some (.acopy h0 false true 1 3) := by decide

/-- OP 0x70; lit. -/
theorem test_decode_no_word :
    decodeTableWord 64 0x00001C0000000000 = none ∧
    decodeTableWord 64 0xFF0000003F800000 = none := by decide

/-- bwait k12, in V. -/
theorem test_decode_bwait_vector : decode .v 0x0000124000030C00 0 = .ok (.bwait h0 (.vector 780)) := by decide

/-! Terms that are no instruction, one for each check of decode step 5; an event is no word. -/

theorem test_illformed_header : (Instr.nop ⟨255, 0, .always⟩).wf = false ∧ (Instr.nop ⟨0, 256, .always⟩).wf = false := by decide
theorem test_illformed_no_register : (Instr.add h0 64 0 0).wf = false ∧ (Instr.sel h0 0 0 0 64).wf = false ∧ (Instr.crd h0 64 0).wf = false ∧ (Instr.fma h0 .f64 .rne 0 64 0 0).wf = false ∧ (Instr.qpop h0 5 64).wf = false := by decide
theorem test_illformed_no_field : (Instr.hint h0 15).wf = false ∧ (Instr.signal h0 0 false 0).wf = false ∧ (Instr.signal h0 4096 false 1).wf = false ∧ (Instr.mark h0 16 1).wf = false ∧ (Instr.jwait h0 0 false 65536).wf = false ∧ (Instr.trap h0 0 0x100000).wf = false ∧ (Instr.fence h0 2048).wf = false ∧ (Instr.stamp h0 0 false 65536).wf = false ∧ (Instr.crd h0 0 4096).wf = false ∧ (Instr.movi h0 0 0x100000000).wf = false ∧ (Instr.br h0 .z 0 0x10000000).wf = false ∧ (Instr.btok h0 16 0 1 0).wf = false ∧ (Instr.ldq h0 2 0 0).wf = false ∧ (Instr.bsp h0 4 0).wf = false ∧ (Instr.rjump h0 .c 0 128).wf = false ∧ (Instr.smp h0 .tmp 0 0 0 64 0).wf = false ∧ (Instr.stopset h0 0 0 0 0 17).wf = false ∧ (Instr.mbsend h0 0 64).wf = false := by decide
theorem test_illformed_literal : (Instr.movl h0 .z32 0 0x100000000).wf = false ∧ (Instr.fmal h0 .f32 .rne 0 0 0 0x100000000).wf = false := by decide
theorem test_illformed_odd_pair : (Instr.ld h0 .x128 .dflt 3 0 0).wf = false ∧ (Instr.st h0 .b128 .dflt 3 0 0).wf = false ∧ (Instr.cas h0 .q 3 0 0 0).wf = false ∧ (Instr.cas h0 .q 2 0 1 0).wf = false := by decide
theorem test_illformed_atomicity : (Instr.ld h0 .u32 .a8 3 0 0).wf = false ∧ (Instr.st h0 .b64 .a16 3 0 0).wf = false := by decide
theorem test_illformed_constant_range : (Instr.kldLd h0 0 255 1).wf = false := by decide
theorem test_illformed_conversion_of_integers : (Instr.fcvt h0 .i64 .i32 .rne 0 0).wf = false := by decide
theorem test_illformed_element_type : (Instr.vdiv h0 .i64 0 .dyn 1 2 3).wf = false ∧ (Instr.vshl h0 .f32 0 .dyn 1 2 3).wf = false ∧ (Instr.vcmp h0 .ltu .f64 0 1 2 3).wf = false ∧ (Instr.vcmp h0 .un .i8 0 1 2 3).wf = false ∧ (Instr.vred h0 .xor .all .f32 0 .dyn 1 2).wf = false ∧ (Instr.pcnt h0 true .f32 0 1 2).wf = false ∧ (Instr.vpart h0 false false .i8 0 1 2).wf = false := by decide
theorem test_illformed_operand_code : (Instr.vadd h0 .i64 0 .dyn 640 1 2).wf = false ∧ (Instr.vadd h0 .i64 0 .dyn 1 650 2).wf = false ∧ (Instr.vadd h0 .i64 8 .dyn 1 1 2).wf = false ∧ (Instr.vmapSet h0 640 768).wf = false ∧ (Instr.vmapSet h0 1 1015).wf = false ∧ (Instr.vrndKey h0 .i32 0 1 5).wf = false ∧ (Instr.vaddi h0 512 0 0).wf = false := by decide
theorem test_illformed_part : (Instr.vcvt h0 .f32 2 false .f64 0 .dyn 1 2).wf = false ∧ (Instr.vqmx h0 .mx8 .f64 0 1 2 25).wf = false ∧ (Instr.vpart h0 true false .i32 0 637 2).wf = false := by decide
theorem test_illformed_matrix : (Instr.mma h0 true false .mx8 0 0 0 1).wf = false ∧ (Instr.mzero h0 16).wf = false ∧ (Instr.mldw h0 .f64 0 32 0 1).wf = false := by decide
theorem test_illformed_event : (Instr.herrClear).wf = false := by decide

/-- A word of another stream: RPT in C, QPUSH in V, MZERO in A (R47). -/
theorem test_stream_of_word : decodeFirst .c 0x00002A4010210000 = .error .illop ∧ decodeFirst .v 0x0000141490000000 = .error .illop ∧
    (Instr.mzero h0 0).streams.contains .a = false := by decide
/-! Examples that the manual works out. -/

/-- Out(1), and Keyed(0, 2) with a seed of zero. -/
theorem test_example_generator : genOut 1 = 0x800 ∧ keyed ⟨0, 1, 0⟩ 0 2 = 0x62CFF4ECFFB753DD := by decide +kernel
/-- Token 9 by `smp.prob`, and token 2 with U = 0xC000_0000. -/
theorem test_example_draw_prob :
    let l := [0x000000113F000000, 0x000000043E800000, 0x000000093E000000, 0x000000023E000000]
    drawToken .prob 0 0xFFB753DD l [] = some 9 ∧ drawToken .prob 0 0xC0000000 l [] = some 2 := by decide +kernel
/-- `smp.tmp` with T = +0 and 2^-130 is greedy; T = +inf gives index 3; T = -1.0 is SAMPLE. -/
theorem test_example_draw_tmp :
    let l := [0x000000113F000000, 0x000000043E800000, 0x000000093E000000, 0x000000023E000000]
    drawToken .tmp 0 0xFFB753DD l [] = some 17 ∧ drawToken .tmp 0x00080000 0xFFB753DD l [] = some 17 ∧
    drawToken .tmp 0x7F800000 0xFFB753DD l [] = some 9 ∧ drawToken .tmp 0xBF800000 0xFFB753DD l [] = none := by decide +kernel
/-- The pairs (0.25, 0.5), (0.125, 0.5), (0.75, 0.25): m = 3 for u = 0x500000, and 1 for 0x666666. -/
theorem test_example_spacc :
    let l := [(0x3E800000, 0x3F000000), (0x3E000000, 0x3F000000), (0x3F400000, 0x3E800000)]
    (blkLength 0x500000 l).map Prod.fst = some 3 ∧ (blkLength 0x666666 l).map Prod.fst = some 1 := by decide +kernel
/-- Sixteen f32 values quantized to MXINT4: the block's bytes, and Inexact alone. -/
theorem test_example_mxint4 :
    let r := mxQuantize .mx4 ([0x40400000, 0xC0200000, 0x3E800000, 0x3E000000, 0x3F800000, 0x3F000000, 0xBFE00000, 0x3FC00000,
      0x40000000, 0, 0x3E99999A, 0xBE99999A, 0, 0, 0x4059999A, 0x3DCCCCCD].map fmt32.unpack)
    leBytes 10 r.1 = [0x80, 0x04, 0xB6, 0x00, 0x24, 0x69, 0x04, 0xF1, 0x00, 0x07] ∧ r.2 = fInexact := by decide +kernel
/-- VPART of 2, 0, 1, 3, 1, 0, 2, 1 over the two low bits: the token of q3. -/
theorem test_example_vpart :
    let s := sV fun c => { c with v := [(30, imageOf 32 [2, 0, 1, 3, 1, 0, 2, 1])],
                                  vmap := [(30, .affine { AffMap.dflt with ext := [8, 1, 1, 1] })] }
    let t := (next (exec (.vpart h0 true false .i32 0 40 30) s)).me
    (t.queue 3).map (fun e => lo64 e.img) = [0x001002003002000F] ∧ SMap.get 0 t.v 40 = imageOf 16 [1, 5] ∧
      SMap.get 0 t.v 41 = imageOf 16 [2, 4, 7] ∧ SMap.get 0 t.v 42 = imageOf 16 [0, 6] ∧ SMap.get 0 t.v 43 = imageOf 16 [3] := by
  decide +kernel
/-! Integer words. -/

/-- Expected values by hand from R102 to R108. -/
theorem test_add_wraps : res (.add h0 3 4 5) 0xFFFFFFFFFFFFFFFF 2 0 = 1 := by decide
theorem test_sub_wraps : res (.sub h0 3 4 5) 1 2 0 = 0xFFFFFFFFFFFFFFFF := by decide
theorem test_mul_low : res (.mul h0 3 4 5) 0x100000000 0x100000001 0 = 0x100000000 := by decide
theorem test_mulh_ss : res (.mulh h0 .ss 3 4 5) 0xFFFFFFFFFFFFFFFF 2 0 = 0xFFFFFFFFFFFFFFFF := by decide
theorem test_mulh_uu : res (.mulh h0 .uu 3 4 5) 0xFFFFFFFFFFFFFFFF 2 0 = 1 := by decide
theorem test_div_truncates : res (.div h0 false 3 4 5) (-7) 2 0 = -3 := by decide
theorem test_div_overflow : res (.div h0 false 3 4 5) 0x8000000000000000 (-1) 0 = 0x8000000000000000 := by decide
theorem test_rem_sign : res (.rem h0 false 3 4 5) (-7) 2 0 = -1 := by decide
theorem test_rem_unsigned : res (.rem h0 true 3 4 5) 7 4 0 = 3 := by decide
theorem test_and : res (.and h0 3 4 5) 0b1100 0b1010 0 = 0b1000 := by decide
theorem test_or : res (.or h0 3 4 5) 0b1100 0b1010 0 = 0b1110 := by decide
theorem test_xor : res (.xor h0 3 4 5) 0b1100 0b1010 0 = 0b0110 := by decide
theorem test_shl_63 : res (.shl h0 3 4 5) 3 63 0 = 0x8000000000000000 := by decide
theorem test_shl_64 : res (.shl h0 3 4 5) 3 64 0 = 0 := by decide
theorem test_shr_64 : res (.shr h0 3 4 5) 0xFFFFFFFFFFFFFFFF 64 0 = 0 := by decide
theorem test_sar_64 : res (.sar h0 3 4 5) 0x8000000000000000 64 0 = 0xFFFFFFFFFFFFFFFF := by decide
theorem test_clz_zero : res (.clz h0 3 4) 0 0 0 = 64 := by decide
theorem test_popc : res (.popc h0 3 4) 0x8000000000000003 0 0 = 3 := by decide
theorem test_min_signed : res (.min h0 false 3 4 5) 1 (-1) 0 = -1 := by decide
theorem test_min_unsigned : res (.min h0 true 3 4 5) 1 (-1) 0 = 1 := by decide
theorem test_max_signed : res (.max h0 false 3 4 5) 1 (-1) 0 = 1 := by decide
theorem test_cmp_lt : res (.cmp h0 .lt 3 4 5) (-1) 0 0 = 1 := by decide
theorem test_cmp_ltu : res (.cmp h0 .ltu 3 4 5) (-1) 0 0 = 0 := by decide
theorem test_sel : res (.sel h0 3 4 5 6) 0 7 9 = 9 := by decide
theorem test_movi : res (.movi h0 3 0x80000000) 0 0 0 = 0xFFFFFFFF80000000 := by decide
theorem test_sext_s8 : res (.sext h0 .s8 3 4) 0x180 0 0 = 0xFFFFFFFFFFFFFF80 := by decide
theorem test_sext_z32 : res (.sext h0 .z32 3 4) 0xFFFFFFFF00000001 0 0 = 1 := by decide
theorem test_movl_h48 : res (.movl h0 .h48 3 0x800000000001) 0 0 0 = 0x8000000000010000 := by decide
theorem test_movl_s48 : res (.movl h0 .s48 3 0x800000000000) 0 0 0 = 0xFFFF800000000000 := by decide
theorem test_addi : res (.addi h0 3 4 0xFFFFF) 0 0 0 = 0xFFFFFFFFFFFFFFFF := by decide
theorem test_write_to_s0_is_discarded : (next (exec (.movi h0 0 7) (sC id))).sreg 0 = 0 := by decide

theorem wit_IntegerWordWritesResultAndRetires : let s := sC (regs [(4, 3), (5, 64)])
    (Instr.shl h0 3 4 5).hdr = some h0 ∧ intResult s.sreg (.shl h0 3 4 5) = some (3, 0) ∧
    s.ready (.shl h0 3 4 5) h0 = true := by decide

theorem wit_DivideWritesQuotientOrRemainder : let s := sC (regs [(4, 0x8000000000000000), (5, -1)])
    (Instr.div h0 false 3 4 5).hdr = some h0 ∧
    divResult s.sreg (.div h0 false 3 4 5) = some (5, 3, 0x8000000000000000) ∧ s.sreg 5 ≠ 0 ∧
    s.ready (.div h0 false 3 4 5) h0 = true := by decide

theorem wit_DivideByZeroFaults : let s := sC (regs [(4, 7)])
    (Instr.rem h0 true 0 4 5).hdr = some h0 ∧ divisorOf (.rem h0 true 0 4 5) = some 5 ∧ s.sreg 5 = 0 ∧
    s.ready (.rem h0 true 0 4 5) h0 = true := by decide

/-! Control flow and streams. -/

/-- The PC of the stream after its word. -/
def pcAfter (s : State) (i : Instr) : Word := (next (exec i s)).strm.pc

theorem test_nop_moves_on : pcAfter (sC id) (.nop h0) = 0x1008 := by decide
theorem test_literal_word_spans_two : pcAfter (sC id) (.movl h0 .s32 3 0) = 0x1010 := by decide
theorem test_br_taken : pcAfter (sC id) (.br h0 .z 3 2) = 0x1010 := by decide
theorem test_br_backward : pcAfter (sC id) (.br h0 .al 0 0xFFFFFFE) = 0xFF0 := by decide
theorem test_br_not_taken : pcAfter (sC (regs [(3, 1)])) (.br h0 .z 3 2) = 0x1008 := by decide
theorem test_jmp : pcAfter (sC (regs [(3, 0x2000)])) (.jmp h0 3 1) = 0x2008 := by decide
theorem test_call_links : (next (exec (.call h0 60 4) (sC id))).sreg 60 = 0x1008 := by decide
theorem test_ret : pcAfter (sC (regs [(60, 0x3000)])) (.ret h0 60) = 0x3000 := by decide
theorem test_window_wraps : (next (exec (.nop h0) (sA fun c =>
    { c with sA := { strm0 with pc := 0x8FF8 } }))).strm.pc = 0x1000 := by decide
theorem test_signal_adds : (next (exec (.signal h0 5 false 9) (sC id))).me.count 9 = 5 := by decide
theorem test_g_raises : (next (exec (.nop ⟨0, 9, .always⟩) (sC id))).me.count 9 = 1 := by decide
theorem test_wait_takes_one : (next (exec (.nop ⟨9, 0, .always⟩) (sC fun c => { c with cnt := [(9, 3)] }))).me.count 9 = 2 := by
  decide
theorem test_wait_blocks : (next (exec (.nop ⟨9, 0, .always⟩) (sC id))).strm.pc = 0x1000 := by decide
theorem test_join_ends : (next (exec (.join h0) (sV id))).strm.joined = true := by decide
theorem test_mark_of_none_has_fired :
    (SMap.get Rdv.reset (next (exec (.mark h0 3 0) (sC id))).me.rdv 3).gen = 1 := by decide
theorem test_jwait_mask : (next (exec (.jwait h0 3 true 0x8005) (sC id))).sreg 3 = 0x8005 := by decide

theorem wit_FallThroughRetirementMovesPcAndRaisesG : let s := sC fun c => { c with cnt := [(9, 65534)] }
    s.me.st = .running ∧ s.signalsFit ⟨0, 9, .always⟩ [] (s.raisesG (.nop ⟨0, 9, .always⟩)) = true ∧
    (s.curStream ≠ .m ∨ s.me.nest = none) ∧ s.strm.rpt = none ∧ s.strm.seqr = [] := by decide

theorem wit_TakenTransferSetsPc : let s := sA fun c =>
      { c with sA := { strm0 with seqr := [⟨3, 0, 0x1008, 2⟩] } }
    s.me.st = .running ∧ s.signalsFit h0 [] (s.raisesG (.jmp h0 3 0)) = true ∧ s.strm.seqr ≠ [] := by decide

theorem wit_CounterOverflowKeepsCountAndFaults : let s := sC fun c => { c with cnt := [(63, 65535)] }
    s.me.st = .running ∧ s.raisesG (.nop ⟨0, 63, .always⟩) = true ∧ s.me.count 63 = 65535 := by decide

theorem wit_NopHintAndSignalOnlyRetire : (sM id).ready (.nop h0) h0 = true ∧ (sV id).ready (.hint h0 14) h0 = true ∧
    (sC id).ready (.signal h0 4095 false 63) h0 = true ∧ (sC id).me.count 63 + 4095 ≤ 65535 := by decide

theorem wit_BranchFollowsItsCondition : (sC (regs [(3, -1)])).ready (.br h0 .lt 3 0x8000000) h0 = true ∧
    branchHolds .lt ((sC (regs [(3, -1)])).sreg 3) ∧ ¬ branchHolds .gt ((sC (regs [(3, -1)])).sreg 3) := by
  refine ⟨by decide, ?_, ?_⟩ <;> unfold branchHolds <;> decide

theorem wit_JumpCallAndReturnTargets : let s := sC (regs [(3, 0x2000), (4, 0x2001)])
    s.ready (.jmp h0 3 0x7FFFF) h0 = true ∧ (s.sreg 3).toNat % 8 = 0 ∧ s.ready (.jmp h0 4 0) h0 = true ∧
    (s.sreg 4).toNat % 8 ≠ 0 ∧ s.ready (.ret h0 3) h0 = true ∧ s.ready (.ret h0 4) h0 = true ∧
    s.ready (.call h0 60 0) h0 = true := by decide

theorem wit_PassesRepetitionsAndNestsAdvance :
    (∀ pc ∈ [(0x1000 : Word), 0x1008], ∀ idx ∈ [3, 4],
      let l : Level := ⟨5, idx, 0x1000, 2⟩
      let s := sA fun c => { c with sA := { c.sA with seqr := [l], pc := pc } }
      s.me.st = .running ∧ s.signalsFit h0 [] (s.raisesG (.nop h0)) = true ∧ s.curStream = .a ∧ s.strm.rpt = none ∧
        s.strm.seqr = l :: [] ∧ s.strm.dist l.body (s.strm.plus l.body (8 * l.len)) = 8 * l.len ∧
        (pc = 0x1000 → s.strm.dist l.body s.strm.pc + 8 * spanOf (.nop h0) < 8 * l.len) ∧
        (pc = 0x1008 → s.strm.dist l.body s.strm.pc + 8 * spanOf (.nop h0) = 8 * l.len) ∧
        (idx = 3 → l.idx + 1 < l.count) ∧ (idx = 4 → l.count ≤ l.idx + 1)) ∧
    (∀ r ∈ [0, 1],
      let s := sV fun c => { c with sV := { c.sV with rpt := some (r, 2) } }
      s.me.st = .running ∧ s.signalsFit h0 [] (s.raisesG (.vmov h0 .i64 0 1 2)) = true ∧ s.curStream = .v ∧
        s.strm.rpt = some (r, 2) ∧ s.strm.seqr = []) ∧
    (∀ w ∈ [0, 1], ∀ e ∈ [1, 2],
      let s := sM fun c => { c with nest := some ([e, 0, 0, 0, 0, 0], w), plane := [(2, 2), (0x10, 3)] }
      s.me.st = .running ∧ s.signalsFit h0 [] (s.raisesG (.mzero h0 0)) = true ∧ s.curStream = .m ∧
        s.me.nest = some ([e, 0, 0, 0, 0, 0], w) ∧ (SMap.get 0 s.me.plane 2).toNat = 2 ∧
        (e + 1 < (SMap.get 0 s.me.plane 0x10).toNat ↔ e = 1) ∧ ∀ l < 6, 0 < l → (SMap.get 0 s.me.plane (0x10 + 8 * l)).toNat ≤ 1) := by
  refine ⟨fun pc hp idx hi => ?_, by decide, by decide +kernel⟩
  simp only [List.mem_cons, List.not_mem_nil, or_false] at hp hi
  rcases hp with rfl | rfl <;> rcases hi with rfl | rfl <;> refine ⟨?_, ?_, ?_, ?_, ?_, ?_, ?_, ?_, ?_, ?_⟩ <;> decide

theorem wit_JoinEndsTheStream :
    ((sA id).ready (.join h0) h0 = true ∧ (sA id).me.joinWait = none ∧ (sA id).me.inIter = false ∧
      (sA id).me.accessesDone .a = true ∧ (sA id).signalsFit h0 [] ((sA id).raisesG (.join h0)) = true ∧ (sA id).me.act = false) ∧
    (let s := sM fun c => { c with sC := { c.sC with joined := true } }
     s.ready (.join h0) h0 = true ∧ s.me.sC.joined = true ∧ s.me.nest = none) ∧
    ((sM id).ready (.join h0) h0 = true ∧ ¬ ((sM id).me.sC.joined = true ∧ (sM id).me.nest = none)) ∧
    (let s := sA fun c => { c with q := [(0, [⟨0, false, [], 0⟩])] }
     s.ready (.join h0) h0 = true ∧ s.me.joinWait = none ∧ s.me.inIter = false ∧ s.me.accessesDone s.curStream = false ∧
      s.curStream ≠ .v) ∧
    (let s := sC fun c => { c with spec := { c.spec with role := 3 } }
     s.ready (.join h0) h0 = true ∧ s.me.inIter = true ∧ s.strm.issued = false) := by decide

theorem wit_MarkPlacesOneMarkerInEachQueue : (sC id).ready (.mark h0 15 0x3F) h0 = true ∧
    SMap.rising 0 (sC id).me.rdv = true ∧ (∀ n < 5, Nat.testBit 0x3F n = true → (sC id).cmdFill 0 n < 16) ∧
    (sC id).signalsFit h0 [] true = true := by decide

theorem wit_JwaitReportsFiredRegisters :
    (let s := sC fun c => { c with rdv := [(0, { Rdv.reset with fired := false })] }
     s.ready (.jwait h0 3 true 3) h0 = true ∧
      ∃ n < 16, Nat.testBit 3 n = true ∧ (SMap.get Rdv.reset s.me.rdv n).fired = true) ∧
    ((sC id).ready (.jwait h0 3 false 0xFFFF) h0 = true ∧
      ∀ n < 16, Nat.testBit 0xFFFF n = true → (SMap.get Rdv.reset (sC id).me.rdv n).fired = true) ∧
    ((sA id).ready (.jwait h0 3 true 0) h0 = true ∧ ∀ n < 16, Nat.testBit 0 n = false) := by decide

theorem wit_HaltStopsTheCohort :
    (let s := { sC id with graphs := [(0, { graph0 with nodes := [node0] })] }
     s.ready (.halt h0 3) h0 = true ∧ s.me.inIter = false ∧ s.me.framed = false ∧
      s.nodeOf s.me.slot s.me.node = some node0 ∧ node0.st = .running) ∧
    (let s := { sC (fun c => c.setCreg 0x60 1) with graphs := [(0, { graph0 with nodes := [node0] })] }
     s.ready (.halt h0 3) h0 = true ∧ s.me.framed = true) := by decide

/-! System words. -/

/-- The small state in its trap handler, entered from supervisor mode at 0x2000 with cause TRAP. -/
def inTrap (c : Core) : Core :=
  { c with cr := [(0x10, 0x8000), (0x11, 0x2000801C), (0x19, 0x2000), (0x1A, 0x1008), (0x1B, 0x1010), (0x1C, 0x1018),
                  (0x21, 0x10000), (0x50, 0x3FF), (0x51, 0xFFFF)],
           lastCause := 0x1C, trapBank := [(48, 5)] }

def user (c : Core) : Core := { c with sup := false, jobSup := false }

/-- A fault of C's word. -/
def fault0 : FaultInfo := .ofStream .c 0x08 0x1234 0

theorem test_crd_core : (next (exec (.crd h0 3 0x020) { sC id with curCore := 7, cores := [(7, core0)] })).sreg 3 = 7 := by
  decide
theorem test_cwr_fpmode : (next (exec (.cwr h0 3 0) (sC (regs [(3, 0xFFFF)])))).me.creg 0 = 7 := by decide
theorem test_priv : wfld ((next (exec (.eret h0) (sC user))).me.creg 0x011) 0 5 = 0x02 := by decide
theorem test_trap_code : (next (exec (.trap h0 4 77) (sC (regs [(4, 9)])))).me.creg 0x013 = 77 := by decide
theorem test_trap_register : (next (exec (.trap h0 4 77) (sC (regs [(4, 9)])))).me.creg 0x012 = 9 := by decide
theorem test_trap_swaps_bank : (next (exec (.trap h0 4 77) (sC fun c =>
    { c with regC := [(50, 1)], trapBank := [(50, 2)] }))).sreg 50 = 2 := by decide
theorem test_fence_stamps_nothing : pcAfter (sV id) (.fence h0 0x7FF) = 0x1008 := by decide
theorem test_stamp_free_mode : pcAfter (sC id) (.stamp h0 0 false 9) = 0x1008 := by decide
theorem test_ppoint_no_request : pcAfter (sC id) (.ppoint h0 0 0) = 0x1008 := by decide
theorem test_eret_returns : pcAfter (sC inTrap) (.eret h0) = 0x2000 := by decide
theorem test_eret_outside : wfld ((next (exec (.eret h0) (sC id))).me.creg 0x011) 0 5 = 0x01 := by decide
theorem test_uiret : pcAfter (sC fun c => { c with cr := [(0x16, 0x5000), (0x18, 0x8000000000000000)] }) (.uiret h0) = 0x5000 := by
  decide
theorem test_ctxload_of_zeros_is_ctxgeom :
    wfld ((next (exec (.ctxload h0 3 4) (sC fun c => { inTrap c with regC := [(4, 0x10000)] }))).me.creg 0x011) 24 5 = 0x18 := by
  decide

theorem wit_ControlRegisterReadsAndWrites : (sC id).ready (.crd h0 3 0x020) h0 = true ∧
    (0x051 ∉ [0x011, 0x020, 0x022, 0x064, 0x079, 0x07A, 0x091, 0x092, 0x093, 0x094, 0x098]) ∧
    (sC (regs [(4, 1)])).ready (.cwr h0 4 0x010) h0 = true ∧ SMap.rising 0 (sC (regs [(4, 1)])).me.cr = true ∧
    0x010 ∉ [0x064, 0x079, 0x07A, 0x092, 0x098] := by decide

theorem wit_PrivilegedWordInUserModeFaults : let s := sC user
    (Instr.cwr h0 4 0x80).hdr = some h0 ∧ s.atWord = true ∧ s.curStream = .c ∧ s.me.sup = false ∧ 0x80 ≤ 0x80 ∧
    (Instr.eret h0).hdr = some h0 ∧ (Instr.cwr h0 4 0x01F).hdr = some h0 := by decide

theorem wit_TrapRecordsRegisterAndCode : (sA id).ready (.trap h0 63 0xFFFFF) h0 = true := by decide

theorem wit_FencePerformsOwnWrites : ((sM id).ready (.fence h0 0x7FF) h0 = true ∧ (sM id).me.framed = false) ∧
    (let s := sC fun c => c.setCreg 0x60 1
     s.ready (.fence h0 1) h0 = true ∧ s.me.framed = true) := by decide

theorem wit_StampNamesTheNextWordsCycle : ((sC id).ready (.stamp h0 3 true 65535) h0 = true ∧ (sC id).me.frame = false) ∧
    (let s := sA fun c => c.setCreg 0x60 0xA0001
     s.ready (.stamp h0 3 true 1023) h0 = true ∧ s.me.frame = true ∧ 1023 < 2 ^ wfld (s.me.creg 0x060) 16 5 ∧
      s.ready (.stamp h0 3 true 1024) h0 = true ∧ 2 ^ wfld (s.me.creg 0x060) 16 5 ≤ 1024) := by decide

theorem wit_PpointStopsOnlyForARequest :
    ((sC id).ready (.ppoint h0 3 4) h0 = true ∧ (sC id).me.horizon = none) ∧
    (let s := sC fun c => { c with horizon := some 100 }
     s.ready (.ppoint h0 3 4) h0 = true ∧ s.me.horizon ≠ none ∧ s.me.act = false ∧ s.me.frame = false ∧
      s.me.atRetirement = true) := by decide

theorem wit_FaultEntersTheHandler : let s := sC id
    s.me.st = .running ∧ s.me.act = false ∧ s.me.frame = false ∧ s.me.spec.role = 0 ∧ s.me.pend = none ∧
    fault0.cmd = none ∧ fault0.ecc = none ∧ fault0.path < 16 ∧ fault0.stream < 4 ∧ fault0.code < 32 ∧ s.me.nest = none ∧
    s.me.replayC = none ∧ s.me.replayA = none ∧ SMap.rising 0 s.me.cr = true ∧ s.me.coupled = none ∧
    (∀ e < 5, s.me.runOf e = none) ∧ (∀ x < 4, (SMap.get NearEng.reset s.sel x).runOf s.curCore = none) ∧
    (∀ x < 4, (SMap.get NearEng.reset s.red x).runOf s.curCore = none) ∧ (∀ p ∈ s.me.trapBank, 48 ≤ p.1) ∧
    (∀ q < 2, ∀ e ∈ s.me.queue q, e.ready = true) ∧ (∀ st, ∀ p ∈ (s.me.stream st).popped, p.2.ready = true) := by
  dsimp only
  repeat' refine And.intro ?_ ?_
  all_goals first
    | decide
    | exact fun st => by cases st <;> decide

theorem wit_FaultInHandlerIsDoubleFault : let s := sC inTrap
    s.me.st = .running ∧ s.me.act = true ∧ s.me.spec.role ≠ 3 ∧ fault0.ecc = none ∧ fault0.code < 32 ∧
    s.me.lastCause < 32 ∧ SMap.rising 0 s.me.cr = true := by decide

theorem wit_EretLeavesTheHandler : ((sC id).ready (.eret h0) h0 = true ∧ (sC id).me.act = false) ∧
    (let s := sC inTrap
     s.ready (.eret h0) h0 = true ∧ s.me.act = true ∧ s.me.held = [] ∧ s.me.failing = none ∧ s.me.nestPc = none ∧
      s.signalsFit h0 [] true = true ∧ SMap.rising 0 s.me.cr = true ∧ (∀ p ∈ s.me.trapBank, 48 ≤ p.1)) := by decide

theorem wit_UiretLeavesTheInterrupt :
    ((sC id).ready (.uiret h0) h0 = true ∧ ((sC id).me.creg 0x018).getLsbD 63 = false) ∧
    (let s := sC fun c => { c.setCreg 0x018 0x8000000000000000 with shadow := [(56, 1)] }
     s.ready (.uiret h0) h0 = true ∧ (s.me.creg 0x018).getLsbD 63 = true ∧ s.signalsFit h0 [] true = true ∧
      SMap.rising 0 s.me.cr = true ∧ (∀ p ∈ s.me.shadow, 56 ≤ p.1)) := by decide

/-- Every byte of the scratchpad of a core with all banks lies in a granted bank. -/
theorem allBanks {s : State} {va n : Nat} (h1 : s.curCore < 512 ∧ s.me.accSettled = true) (h2 : s.me.spec.role = 0)
    (h3 : s.me.creg 0x051 = 0xFFFF) (h : va + n ≤ 0x400000) : s.ownScratch va n := by
  refine ⟨h1.1, h, h2, h1.2, fun o ho => ?_⟩
  have : (va + o) / 0x40000 < 16 := by omega
  rw [h3]
  revert this; generalize (va + o) / 0x40000 = x; intro hx
  interval_cases x <;> decide

theorem settled0 {s : State} {pa n : Nat} (h : s.hist = []) : s.settledBytes pa n :=
  fun i _ => by unfold State.byteHist; rw [h]; rfl

theorem wit_ContextSaveWritesTheImage : let s := sC (fun c => { inTrap c with regC := [(4, 0x10000)] })
    ((sC id).ready (.ctxsave h0 3 4 true) h0 = true ∧ (sC id).me.act = false) ∧
    (let u := sC (fun c => { inTrap c with regC := [(4, 0x10000)], flight := [(1, 1, 0, [])] })
     u.ready (.ctxsave h0 3 4 true) h0 = true ∧ u.me.act = true ∧ (u.sreg 4).toNat % 64 = 0 ∧ u.me.flight ≠ []) ∧
    s.ready (.ctxsave h0 3 4 true) h0 = true ∧ s.me.act = true ∧ (s.sreg 4).toNat % 64 = 0 ∧ s.me.flight = [] ∧
    s.ownScratch (s.sreg 4).toNat 0x10000 ∧ s.arraysQuiet ∧ s.settledBytes (scratchPa s.curCore (s.sreg 4).toNat) 0x10000 ∧ s.Inv :=
  ⟨by decide, by decide, by decide, by decide, by decide, rfl, allBanks (by decide) (by decide) (by decide) (by decide),
    ⟨by decide, by decide⟩, settled0 rfl, by show _ = _; decide⟩

theorem wit_SaveImageHasTheLayout : ∀ idx w, ({ core0 with nest := some ([0, 1, 2, 3, 4, 5], 6) } : Core).nest = some (idx, w) →
    idx.length = 6 := by
  intro idx w h; cases h; rfl

/-- A header of a save image that the small core accepts. -/
def hdr1 : List Byte := headerBytes core0 0 (core0.live 0 0)

def sLoad (m : List Byte) : State := (sC fun c => { inTrap c with regC := [(4, 0x10000)] }).poke (scratchPa 0 0x10000) m

theorem wit_ContextLoadRestoresTheImage :
    (let s := sLoad hdr1
     let hd := s.peek (scratchPa 0 0x10000) 256
     s.ready (.ctxload h0 3 4) h0 = true ∧ s.me.act = true ∧ (s.sreg 4).toNat % 64 = 0 ∧
      s.eccQuiet = true ∧ s.me.einj.getLsbD 63 = false ∧ s.hist = [] ∧
      (s.me.live (imgNat hd 24 8) (imgNat hd 32 8)).size = 0xE000 ∧ ctxOk s.me hd = true ∧ imgNat hd 57 1 % 128 = 0 ∧
      SMap.rising 0 s.me.cr = true) ∧
    (ctxOk (sLoad []).me ((sLoad []).peek (scratchPa 0 0x10000) 256) = false) ∧
    ((sC id).ready (.ctxload h0 3 4) h0 = true ∧ (sC id).me.act = false) := by decide

/-! Loads, stores, bank operations. -/

theorem canRead0 {s : State} {va n : Nat} (h1 : s.curCore < 512 ∧ s.me.accSettled = true) (h2 : s.me.spec.role = 0)
    (h3 : s.me.creg 0x051 = 0xFFFF) (h : va + n ≤ 0x400000) (h4 : s.eccQuiet = true) (h5 : s.hist = [])
    (h6 : s.bufs = []) : s.canRead va n :=
  ⟨allBanks h1 h2 h3 h, h4, fun i _ => by unfold State.byteHist; rw [h5]; rfl, h6⟩

theorem canAlu0 {s : State} {va n : Nat} (h1 : s.curCore < 512 ∧ s.me.accSettled = true) (h2 : s.me.spec.role = 0)
    (h3 : s.me.creg 0x051 = 0xFFFF) (h : va + n ≤ 0x400000) (h4 : s.eccQuiet = true)
    (h5 : s.me.einj.getLsbD 63 = false) (h6 : s.bufs = []) (h7 : s.Inv) : s.canAlu va n :=
  ⟨allBanks h1 h2 h3 h, ⟨h4, h5⟩, h6, h7⟩

theorem canWrite0 {s : State} {va n : Nat} (h1 : s.curCore < 512 ∧ s.me.accSettled = true) (h2 : s.me.spec.role = 0)
    (h3 : s.me.creg 0x051 = 0xFFFF) (h : va + n ≤ 0x400000) (h4 : s.eccQuiet = true)
    (h5 : s.me.einj.getLsbD 63 = false) (h6 : s.me.framed = false ∧ s.hist = []) (h7 : s.Inv) : s.canWrite va n :=
  ⟨allBanks h1 h2 h3 h, ⟨h4, h5⟩, settled0 h6.2, h6.1, h7⟩

/-- The small state with registers of C and bytes at 0x100 of its scratchpad. -/
def memSt (l : SMap Word) (b : List Byte) : State := (sC (regs l)).poke (scratchPa 0 0x100) b

def memAfter (s : State) (i : Instr) (va n : Nat) : List Byte := (next (exec i s)).peek (scratchPa 0 va) n

theorem test_ld_s8 : (next (exec (.ld h0 .s8 .dflt 3 4 1) (memSt [(4, 0xFF)] [0x80]))).sreg 3 = 0xFFFFFFFFFFFFFF80 := by decide
theorem test_ld_little_endian :
    (next (exec (.ld h0 .u32 .dflt 3 4 0) (memSt [(4, 0x100)] [1, 2, 3, 0x84]))).sreg 3 = 0x84030201 := by decide
theorem test_ld_misaligned : wfld ((next (exec (.ld h0 .x64 .a8 3 4 0) (memSt [(4, 0x101)] []))).me.creg 0x011) 0 5 = 0x05 := by
  decide
theorem test_st_low_bytes : memAfter (memSt [(3, 0x11223344), (4, 0x100)] [9, 9, 9]) (.st h0 .b16 .dflt 3 4 0) 0x100 3 =
    [0x44, 0x33, 9] := by decide
theorem test_st_pair : memAfter (memSt [(4, 1), (5, 2), (6, 0x100)] []) (.st h0 .b128 .dflt 4 6 0) 0x100 16 =
    [1, 0, 0, 0, 0, 0, 0, 0, 2, 0, 0, 0, 0, 0, 0, 0] := by decide
theorem test_amo_add : memAfter (memSt [(4, 0x100), (5, 1)] [0xFF, 0xFF, 0xFF, 0xFF]) (.amo h0 .add .w 3 4 5 0) 0x100 5 =
    [0, 0, 0, 0, 0] := by decide
theorem test_amo_old : (next (exec (.amo h0 .swap .d 3 4 5 0) (memSt [(4, 0x100), (5, 7)] [6]))).sreg 3 = 6 := by decide
theorem test_cas_match : memAfter (memSt [(3, 6), (4, 0x100), (5, 7)] [6]) (.cas h0 .d 3 4 5 0) 0x100 1 = [7] := by decide
theorem test_cas_miss : memAfter (memSt [(3, 5), (4, 0x100), (5, 7)] [6]) (.cas h0 .d 3 4 5 0) 0x100 1 = [6] := by decide
theorem test_kld_entry : (next (exec (.kldRd h0 3 200) (sC fun c => { c with k := [(200, 77)] }))).sreg 3 = 77 := by decide
theorem test_kld_memory : SMap.get 0 (next (exec (.kldLd h0 4 10 1) (memSt [(4, 0x100)] [0, 0, 0, 0, 0, 0, 0, 0, 5]))).me.k 11 = 5 := by
  decide
theorem test_rel_counts : (next (exec (.rel h0 3 4 0) (memSt [(4, 0x100)] [41]))).sreg 3 = 42 := by decide
theorem test_acq_version : (next (exec (.acq h0 false 3 4 5 0) (memSt [(4, 0x100)] [41]))).sreg 3 = 41 := by decide
theorem test_bwait_blocks : pcAfter (memSt [(4, 0x100)] (barBytes 2 1 1)) (.bwait h0 (.scalar 3 4 0)) = 0x1000 := by decide
theorem test_bwait_goes : (next (exec (.bwait h0 (.scalar 3 4 0)) (memSt [(4, 0x100)] (barBytes 2 1 2)))).sreg 3 = 2 := by decide
theorem test_barm_phase : (next (exec (.barm h0 3 4 5 0) (memSt [(4, 0x100), (5, 9)] (barBytes 2 65535 2)))).sreg 3 = 0 := by decide
theorem test_stq_waits_for_an_entry : pcAfter (sA fun c => { c with regA := [(4, 0x200)] }) (.stq h0 4 0) = 0x1000 := by decide
theorem test_stq_fault_keeps_the_entry : let t := next (exec (.stq h0 4 0) (sA fun c =>
      { c with regA := [(4, 0x200000000000000)], q := [(2, [⟨5, true, [], 0⟩])] }))
    t.sreg 4 = 0x200000000000000 ∧ t.strm.pc = 0x1000 ∧ (t.me.queue 2).length = 1 := by decide +kernel

theorem wit_LoadWritesTheBytesOfMemory : let s := memSt [(4, 0x100)] [1, 2, 3]
    s.ready (.ld h0 .x128 .a16 62 4 0x3F00) h0 = true ∧ s.eaddr 4 14 0x3F00 % atUnit .a16 = 0 ∧
    s.canRead (s.eaddr 4 14 0x3F00) (ldLen .x128) :=
  ⟨by decide, by decide, canRead0 (by decide) (by decide) (by decide) (by decide) (by decide) (by decide) (by decide)⟩

/-- A page at 0x410000 whose tables and frame lie in near DRAM: the leaf's entry at 0x10000004080 has r, w and u, and names
the frame 0x10000005000; address space 5. -/
def pageSt (l : SMap Word) (f : Core → Core) : State :=
  ((((((sC fun c => f { (regs l c).setCreg 0x080 0x10000000005 with sec := true }).poke 0x10000000000 (leBytes 8 0x10000001001)).poke
    0x10000001000 (leBytes 8 0x10000002001)).poke 0x10000002000 (leBytes 8 0x10000003001)).poke
    0x10000003010 (leBytes 8 0x10000004001)).poke 0x10000004080 (leBytes 8 0x100000050B1)).poke 0x10000005008 [7, 1]

/-- The TLB entry of that page. -/
def pageEnt (r d : Bool) : TlbEnt := ⟨0x410000, 4096, 0x10000005000, 5, false, r, true, false, true, d, false⟩

def pageIn (r d : Bool) (c : Core) : Core := { c with tlb := [(0, [pageEnt r d])] }

theorem test_ld_translated : let t := next (exec (.ld h0 .u16 .dflt 3 4 0) (pageSt [(4, 0x410008)] id))
    t.sreg 3 = 0x107 ∧ t.peek 0x10000004080 2 = [0xB1, 0x51] := by decide +kernel
theorem test_ld_not_readable : let t := next (exec (.ld h0 .u16 .dflt 3 4 0) (pageSt [(4, 0x410008)] (pageIn false true)))
    wfld (t.me.creg 0x011) 0 5 = 0x07 ∧ t.me.creg 0x081 = 3 := by decide +kernel
theorem test_st_translated_sets_dirty : let t := next (exec (.st h0 .b8 .dflt 3 4 0) (pageSt [(3, 9), (4, 0x410008)] (pageIn true false)))
    t.peek 0x10000005008 2 = [9, 1] ∧ t.peek 0x10000004080 2 = [0xB1, 0x53] := by decide +kernel

theorem page_walks {s : State} (hs : s.hist = []) (hr : s.rootTable = 0x10000000000)
    (h : [(0x10000000000, 0x10000001001), (0x10000001000, 0x10000002001), (0x10000002000, 0x10000003001),
      (0x10000003010, 0x10000004001), (0x10000004080, 0x100000050B1)].all (fun p => leNat (s.peek p.1 8) == p.2) = true) :
    s.walksTo 0x410008 5 s.rootTable (0, 0x10000004080, 0x100000050B1) := by
  simp only [List.all_cons, List.all_nil, Bool.and_true, Bool.and_eq_true, beq_iff_eq] at h
  obtain ⟨h4, h3, h2, h1, h0⟩ := h
  rw [hr]
  have e4 : 0x10000000000 + 8 * (0x410008 / 2 ^ (12 + 9 * 4) % 512) = 0x10000000000 := by decide
  have e3 : 0x10000001000 + 8 * (0x410008 / 2 ^ (12 + 9 * 3) % 512) = 0x10000001000 := by decide
  have e2 : 0x10000002000 + 8 * (0x410008 / 2 ^ (12 + 9 * 2) % 512) = 0x10000002000 := by decide
  have e1 : 0x10000003000 + 8 * (0x410008 / 2 ^ (12 + 9 * 1) % 512) = 0x10000003010 := by decide
  have e0 : 0x10000004000 + 8 * (0x410008 / 2 ^ (12 + 9 * 0) % 512) = 0x10000004080 := by decide
  unfold State.walksTo; dsimp only; rw [e4, h4]
  refine ⟨by decide, settled0 hs, by decide, ?_⟩
  rw [if_neg (by decide), show 0x10000001001 / 4096 % 2 ^ 40 * 4096 = 0x10000001000 by decide]
  unfold State.walksTo; dsimp only; rw [e3, h3]
  refine ⟨by decide, settled0 hs, by decide, ?_⟩
  rw [if_neg (by decide), show 0x10000002001 / 4096 % 2 ^ 40 * 4096 = 0x10000002000 by decide]
  unfold State.walksTo; dsimp only; rw [e2, h2]
  refine ⟨by decide, settled0 hs, by decide, ?_⟩
  rw [if_neg (by decide), show 0x10000003001 / 4096 % 2 ^ 40 * 4096 = 0x10000003000 by decide]
  unfold State.walksTo; dsimp only; rw [e1, h1]
  refine ⟨by decide, settled0 hs, by decide, ?_⟩
  rw [if_neg (by decide), show 0x10000004001 / 4096 % 2 ^ 40 * 4096 = 0x10000004000 by decide]
  unfold State.walksTo; dsimp only; rw [e0, h0]
  refine ⟨by decide, settled0 hs, by decide, ?_⟩
  rw [if_pos (by decide)]
  exact ⟨by decide, rfl⟩

theorem wit_TranslatedLoadsReadTheFrame :
    (∀ r, let s := pageSt [(4, 0x410008)] (pageIn r true)
      s.ready (.ld h0 .u16 .dflt 3 4 0) h0 = true ∧ s.eaddr 4 14 0 = 0x410008 ∧ s.translates 0x410008 (ldLen .u16) ∧
      s.tlbHit 0x410008 = some (pageEnt r true) ∧ s.opens true false 0x10000005008 (ldLen .u16) ∧ s.curStream = .c) ∧
    (let s := pageSt [(4, 0x410008)] id
     s.ready (.ld h0 .u16 .dflt 3 4 0) h0 = true ∧ s.translates 0x410008 (ldLen .u16) ∧ s.tlbHit 0x410008 = none ∧
      s.walksTo 0x410008 5 s.rootTable (0, 0x10000004080, 0x100000050B1) ∧ Nat.testBit 0x100000050B1 11 = false ∧
      Nat.testBit 0x100000050B1 4 = true ∧ leafFrame 0x410008 (0, 0x10000004080, 0x100000050B1) = 0x10000005008 ∧
      s.opens true false 0x10000005008 (ldLen .u16) ∧ s.Inv) ∧
    (let s := sC fun c => (regs [(4, 0x410008)] c).setCreg 0x080 0x10000000005
     s.ready (.ld h0 .u16 .dflt 3 4 0) h0 = true ∧ s.translates 0x410008 (ldLen .u16) ∧ s.tlbHit 0x410008 = none ∧
      tierOf (s.rootTable + 8 * (0x410008 / 2 ^ 48 % 512)) = some .dram ∧
      s.settledBytes (s.rootTable + 8 * (0x410008 / 2 ^ 48 % 512)) 8 ∧
      leNat (s.peek (s.rootTable + 8 * (0x410008 / 2 ^ 48 % 512)) 8) % 2 = 0) ∧
    (let s := sC (regs [(4, 0x200000000000000)])
     s.ready (.ld h0 .u16 .dflt 3 4 0) h0 = true ∧ 2 ^ 57 ≤ s.eaddr 4 14 0 ∧ s.me.accSettled = true) ∧
    (let s := sC fun c => (regs [(4, 0x100)] c).setCreg 0x051 0
     s.ready (.ld h0 .u16 .dflt 3 4 0) h0 = true ∧ s.eaddr 4 14 0 + ldLen .u16 ≤ 0x400000 ∧ s.me.accSettled = true ∧
      (s.me.creg 0x051).getLsbD (s.eaddr 4 14 0 / 0x40000) = false) := by
  refine ⟨fun r => ?_, ⟨by decide, by unfold State.translates; decide, by decide, page_walks rfl (by decide) (by decide +kernel), by decide, by decide,
    by decide, ⟨by decide, by decide, by decide, settled0 rfl⟩, by show _ = _; decide⟩,
    ⟨by decide, by unfold State.translates; decide, by decide, by decide, settled0 rfl, by decide⟩, by decide, by decide⟩
  cases r <;> exact ⟨by decide, by decide, by unfold State.translates; decide, by decide, ⟨by decide, by decide, by decide, settled0 rfl⟩, by decide⟩

theorem wit_TranslatedStoresWriteTheFrame :
    (let s := pageSt [(3, 9), (4, 0x410008)] (pageIn true true)
     s.ready (.st h0 .b64 .dflt 3 4 0) h0 = true ∧ s.eaddr 4 14 0 = 0x410008 ∧ s.translates 0x410008 (stLen .b64) ∧
      s.me.framed = false ∧ s.Inv ∧ s.tlbHit 0x410008 = some (pageEnt true true) ∧
      s.opens true false 0x10000005008 (stLen .b64)) ∧
    (let s := pageSt [(3, 9), (4, 0x410008)] (pageIn true false)
     s.tlbHit 0x410008 = some (pageEnt true false) ∧ s.walksTo 0x410008 5 s.rootTable (0, 0x10000004080, 0x100000050B1) ∧
      Nat.testBit 0x100000050B1 5 = true) :=
  ⟨⟨by decide, by decide, by unfold State.translates; decide, by decide, by show _ = _; decide, by decide,
      ⟨by decide, by decide, by decide, settled0 rfl⟩⟩,
    by decide, page_walks rfl (by decide) (by decide +kernel), by decide⟩

theorem wit_AtomicsAreHeldInFrameMode : let s := sC fun c => (regs [(4, 0x100)] c).setCreg 0x60 1
    (s.ready (.amo h0 .fadd .d 3 4 5 8) h0 = true ∧ s.ready (.cas h0 .q 2 4 6 0) h0 = true ∧ s.eaddr 4 14 0 % casLen .q = 0 ∧
      s.eaddr 4 14 8 % wdLen .d = 0) ∧ s.ownScratch (s.eaddr 4 14 0) (casLen .q) ∧ s.ownScratch (s.eaddr 4 14 8) (wdLen .d) ∧
    s.me.framed = true ∧ s.heldAtomics = [] :=
  ⟨by decide, allBanks (by decide) (by decide) (by decide) (by decide), allBanks (by decide) (by decide) (by decide) (by decide),
    by decide, by decide⟩

theorem wit_StoreWritesOnlyItsBytes : let s := memSt [(4, 0x3FFFF0)] []
    s.ready (.st h0 .b128 .dflt 62 4 0) h0 = true ∧ atUnit .dflt = 0 ∧ s.canWrite (s.eaddr 4 14 0) (stLen .b128) :=
  ⟨by decide, by decide, canWrite0 (by decide) (by decide) (by decide) (by decide) (by decide) (by decide) (by decide)
    (by show _ = _; decide)⟩

theorem wit_FrameModeStoreIsBuffered : let s := sC fun c => (regs [(4, 0x0FF0)] c).setCreg 0x60 1
    s.ready (.st h0 .b128 .dflt 62 4 0) h0 = true ∧ atUnit .dflt = 0 ∧ s.eaddr 4 14 0 % 4096 + stLen .b128 ≤ 4096 ∧
    s.ownScratch (s.eaddr 4 14 0) (stLen .b128) ∧ s.arraysQuiet ∧ s.me.framed = true ∧
    (∀ o < stLen .b128, s.boundTo (s.me.acc s.curCore s.curStream) (s.eaddr 4 14 0 + o) = none) ∧
    s.bufs.length + 16 ≤ 65536 :=
  ⟨by decide, by decide, by decide, allBanks (by decide) (by decide) (by decide) (by decide), ⟨by decide, by decide⟩,
    by decide, by decide, by decide⟩

theorem wit_MisalignedAccessFaults : let s := sA fun c => { c with regA := [(4, 0x101), (5, 0x40FFF8)] }
    (s.ready (.ld h0 .x64 .a8 3 4 0) h0 = true ∧ ¬ (atUnit .a8 = 0 ∨ s.eaddr 4 14 0 % atUnit .a8 = 0)) ∧
    (s.ready (.st h0 .b32 .dflt 3 5 4) h0 = true ∧ s.eaddr 5 14 4 < 0x410000 ∧ 0x400000 < s.eaddr 5 14 4 + stLen .b32) := by
  decide

theorem wit_StoreToGoPlacesTheCommand :
    (let s := sC fun c => { regs [(3, 7), (4, 0x400020)] c with staging := [(1, 64), (2, 128)] }
     let m := (s.waited (.st h0 .b64 .dflt 3 4 0) h0).me.goCmd s.curCore s.curStream 0 (s.cmdId + 1)
      ((s.waited (.st h0 .b64 .dflt 3 4 0) h0).token s.agent)
     s.ready (.st h0 .b64 .dflt 3 4 0) h0 = true ∧ s.eaddr 4 14 0 = 0x400000 + 64 * 0 + 32 ∧ s.me.inIter = false ∧
      m.wordsOk = true ∧ m.barVa = none ∧ m.w3.getLsbD 58 = false ∧ s.cmdFill s.curCore 0 < 16) ∧
    (let s := sC fun c => { regs [(3, 7), (4, 0x400120)] c with staging := [(16, 0xFFFFFFFFFFFFFFFF)] }
     s.ready (.st h0 .b64 .dflt 3 4 0) h0 = true ∧ s.eaddr 4 14 0 = 0x400000 + 64 * 4 + 32 ∧
      ((s.waited (.st h0 .b64 .dflt 3 4 0) h0).me.goCmd s.curCore s.curStream 4 (s.cmdId + 1)
        ((s.waited (.st h0 .b64 .dflt 3 4 0) h0).token s.agent)).wordsOk = false) := by decide

theorem wit_AmoCombinesAndReturnsTheOldValue : let s := memSt [(4, 0x100), (5, 1)] [1]
    s.ready (.amo h0 .fadd .d 3 4 5 8) h0 = true ∧ s.eaddr 4 14 8 % wdLen .d = 0 ∧ s.canAlu (s.eaddr 4 14 8) (wdLen .d) ∧
    s.me.framed = false :=
  ⟨by decide, by decide, canAlu0 (by decide) (by decide) (by decide) (by decide) (by decide) (by decide) (by decide)
    (by show _ = _; decide), by decide⟩

theorem wit_CasStoresOnlyOnMatch : let s := memSt [(2, 6), (4, 0x100)] [6]
    s.ready (.cas h0 .q 2 4 6 0) h0 = true ∧ s.eaddr 4 14 0 % casLen .q = 0 ∧
    s.canAlu (s.eaddr 4 14 0) (casLen .q) ∧ s.me.framed = false ∧ s.ownNat (s.eaddr 4 14 0) 16 = 6 ∧ (s.sreg 2).toNat + 2 ^ 64 * (s.sreg 3).toNat = 6 ∧
    s.ready (.cas h0 .d 5 4 6 0) h0 = true ∧ s.ownNat (s.eaddr 4 14 0) 8 ≠ (s.sreg 5).toNat :=
  ⟨by decide, by decide, canAlu0 (by decide) (by decide) (by decide) (by decide) (by decide) (by decide) (by decide)
    (by show _ = _; decide), by decide, by decide, by decide, by decide, by decide⟩

theorem wit_BarrierAndSyncWords : let s := memSt [(4, 0x100), (5, 41), (6, 42)] [41]
    s.eaddr 4 14 0 % 16 = 0 ∧ s.canAlu (s.eaddr 4 14 0) 16 ∧
    s.ready (.barm h0 3 4 5 0) h0 = true ∧ s.ready (.rel h0 3 4 0) h0 = true ∧ s.ready (.acq h0 true 3 4 5 0) h0 = true ∧
    (s.sreg 5).toNat ≤ leNat ((s.peek (scratchPa s.curCore (s.eaddr 4 14 0)) 16).take 8) ∧
    s.ready (.acq h0 true 3 4 6 0) h0 = true ∧
    leNat ((s.peek (scratchPa s.curCore (s.eaddr 4 14 0)) 16).take 8) < (s.sreg 6).toNat :=
  ⟨by decide, canAlu0 (by decide) (by decide) (by decide) (by decide) (by decide) (by decide) (by decide)
      (by show _ = _; decide), by decide, by decide, by decide, by decide, by decide, by decide⟩

theorem wit_BwaitWaitsForArrivals :
    (let s := memSt [(4, 0x100)] (barBytes 2 1 2)
     s.ready (.bwait h0 (.scalar 3 4 0)) h0 = true ∧ s.eaddr 4 14 0 % 16 = 0 ∧ s.ownScratch (s.eaddr 4 14 0) 16 ∧
      s.eccQuiet = true ∧ s.bufs = [] ∧ barExpected (s.peek (scratchPa s.curCore (s.eaddr 4 14 0)) 16) ≤
        barArrived (s.peek (scratchPa s.curCore (s.eaddr 4 14 0)) 16)) ∧
    (let s := memSt [(4, 0x100)] (barBytes 2 1 1)
     s.ready (.bwait h0 (.scalar 3 4 0)) h0 = true ∧ barArrived (s.peek (scratchPa s.curCore (s.eaddr 4 14 0)) 16) <
        barExpected (s.peek (scratchPa s.curCore (s.eaddr 4 14 0)) 16)) ∧
    (let s := sV fun c => { c with q := [(7, [⟨0x100, true, [], 0⟩])] }
     s.ready (.bwait h0 (.vector 655)) h0 = true ∧ s.strm.bwaitAt = none ∧ s.me.queue 7 = ⟨0x100, true, [], 0⟩ :: [] ∧
      SMap.rising 0 s.me.q = true ∧ (lo64 (0x100 : Image)).toNat % 16 = 0 ∧ s.ownScratch (lo64 (0x100 : Image)).toNat 16 ∧
      s.eccQuiet = true ∧ s.bufs = [] ∧ barExpected (s.peek (scratchPa s.curCore 0x100) 16) ≤
        barArrived (s.peek (scratchPa s.curCore 0x100) 16)) :=
  ⟨⟨by decide, by decide, allBanks (by decide) (by decide) (by decide) (by decide), by decide, by decide, by decide⟩,
    ⟨by decide, by decide⟩,
    ⟨by decide, by decide, by decide, by decide, by decide, allBanks (by decide) (by decide) (by decide) (by decide), by decide,
      by decide, by decide⟩⟩

theorem wit_ConstantBankLoads : let s := memSt [(4, 0x100)] [1]
    s.arraysQuiet ∧ SMap.rising 0 s.me.k = true ∧ s.ready (.kldLd h0 4 0 255) h0 = true ∧ (s.sreg 4).toNat % 8 = 0 ∧
    s.canRead (s.sreg 4).toNat (8 * (255 + 1)) ∧ s.ready (.kldRd h0 3 255) h0 = true ∧
    (s.waited (.kldRd h0 3 255) h0).settled (0x1000 + 255) = true :=
  ⟨⟨by decide, by decide⟩, by decide, by decide, by decide,
    canRead0 (by decide) (by decide) (by decide) (by decide) (by decide) (by decide) (by decide), by decide, by decide⟩

theorem wit_QueueLoadsAndStores :
    (let s := sA fun c => { c with regA := [(4, 0x3FFE00)] }
     s.ready (.ldq h0 0 4 0) h0 = true ∧ s.me.qHasSpace 0 = true ∧ s.canRead (s.eaddr 4 24 0) 512) ∧
    (let s := sA fun c => { c with regA := [(4, 0x100)], q := [(2, [⟨5, true, [], 0⟩])] }
     s.ready (.stq h0 4 0xFFFF00) h0 = true ∧ s.me.queue 2 = ⟨5, true, [], 0⟩ :: [] ∧ SMap.rising 0 s.me.q = true ∧
      s.canWrite (s.eaddr 4 24 0xFFFF00) 512) :=
  ⟨⟨by decide, by decide, canRead0 (by decide) (by decide) (by decide) (by decide) (by decide) (by decide) (by decide)⟩,
    ⟨by decide, by decide, by decide, canWrite0 (by decide) (by decide) (by decide) (by decide) (by decide) (by decide)
      (by decide) (by show _ = _; decide)⟩⟩

/-! Queues, mailboxes and cuts. -/

/-- A queue entry whose bytes have arrived. -/
def ent (x : Image) : QEnt := ⟨x, true, [], 0⟩

def full (n : Nat) : List QEnt := List.replicate n (ent 1)

theorem test_qpop : (next (exec (.qpop h0 4 3) (sC fun c => { c with q := [(4, [ent 9, ent 8])] }))).sreg 3 = 9 := by decide
theorem test_qpop_not_its_queue : wfld ((next (exec (.qpop h0 5 3) (sC id))).me.creg 0x011) 0 5 = 0x0C := by decide
theorem test_qpush : ((next (exec (.qpush h0 5 4) (sC (regs [(4, 6)])))).me.queue 5).map QEnt.img = [6] := by decide
theorem test_qtry_pop_empty : (next (exec (.qtryPop h0 4 3 5) (sC (regs [(3, 9), (5, 1)])))).sreg 5 = 0 := by decide
theorem test_qtry_push : (next (exec (.qtryPush h0 5 3 6) (sC id))).sreg 6 = 1 := by decide
theorem test_qlen_free : (next (exec (.qlen h0 true 4 3) (sC fun c => { c with q := [(4, full 3)] }))).sreg 3 = 13 := by decide
theorem test_btok_target : pcAfter (sA fun c => { c with q := [(3, [ent 0x50002])] }) (.btok h0 3 4 3 1) = 0x1018 := by decide
theorem test_btok_route_too_large :
    wfld ((next (exec (.btok h0 3 4 3 1) (sA fun c => { c with q := [(3, [ent 3])] }))).me.creg 0x011) 0 5 = 0x0C := by decide
theorem test_mbsend_uncoupled : wfld ((next (exec (.mbsend h0 3 0) (sC id))).me.creg 0x011) 0 5 = 0x0C := by decide
theorem test_mbrecv : (next (exec (.mbrecv h0 3) (sC fun c =>
    { c.setCreg 0x21 0x20100010000 with q := [(13, [ent 4])] }))).sreg 3 = 4 := by decide
theorem test_ecut_nothing : (next (exec (.ecut h0 3 0 0) (sC (regs [(3, 9)])))).sreg 3 = 0 := by decide

theorem wit_QpushAppendsOrWaits :
    (let s := sC fun c => { c with q := [(5, full 15)] }
     s.ready (.qpush h0 5 3) h0 = true ∧ pushesQueue s.curStream 5 ∧ (s.me.queue 5).length < qDepth 5) ∧
    (let s := sA fun c => { c with q := [(6, full 16)] }
     s.ready (.qpush h0 6 3) h0 = true ∧ pushesQueue s.curStream 6 ∧ qDepth 6 ≤ (s.me.queue 6).length) ∧
    ((sC id).ready (.qpush h0 6 3) h0 = true ∧ ¬ pushesQueue (sC id).curStream 6) :=
  ⟨⟨by decide, .inl rfl, by decide⟩, ⟨by decide, rfl, by decide⟩, ⟨by decide, by show ¬ (6 = 5 ∨ 6 = 7); decide⟩⟩

theorem wit_QpopTakesTheHeadOrWaits :
    (let s := sC fun c => { c with q := [(12, [ent 1, ent 2])] }
     s.ready (.qpop h0 12 3) h0 = true ∧ popsQueue s.curStream (s.replyMask s.curCore) 12 ∧ s.me.queue 12 = ent 1 :: [ent 2] ∧
      (ent 1).ready = true) ∧
    ((sC id).ready (.qpop h0 4 3) h0 = true ∧ popsQueue .c ((sC id).replyMask 0) 4 ∧ (sC id).me.qReady 4 = false) ∧
    ((sA id).ready (.qpop h0 8 3) h0 = true ∧ ¬ popsQueue .a ((sA id).replyMask 0) 8) := by
  refine ⟨⟨by decide, .inr (.inr (.inr ⟨by decide, by decide, by decide⟩)), by decide, by decide⟩,
    ⟨by decide, .inl rfl, by decide⟩, ⟨by decide, ?_⟩⟩
  show ¬ (8 = 3 ∨ 8 = 5 ∨ (8 ≤ 8 ∧ 8 ≤ 12 ∧ Nat.testBit ((sA id).replyMask 0) (8 - 8) = true))
  decide

theorem wit_QtryAndQlenNeverWait :
    (let s := sC fun c => { c with q := [(4, [ent 1]), (5, full 15)] }
     s.ready (.qtryPop h0 4 3 6) h0 = true ∧ popsQueue s.curStream (s.replyMask s.curCore) 4 ∧ s.me.queue 4 = ent 1 :: [] ∧
      s.ready (.qtryPop h0 15 3 6) h0 = true ∧ popsQueue s.curStream (s.replyMask s.curCore) 15 ∧ s.me.qReady 15 = false ∧
      s.ready (.qtryPush h0 5 3 6) h0 = true ∧ pushesQueue s.curStream 5 ∧ (s.me.queue 5).length < qDepth 5 ∧
      s.ready (.qlen h0 true 15 3) h0 = true) ∧
    (let s := sC fun c => { c with q := [(7, full 16)] }
     s.ready (.qtryPush h0 7 3 6) h0 = true ∧ pushesQueue s.curStream 7 ∧ qDepth 7 ≤ (s.me.queue 7).length) := by
  refine ⟨⟨by decide, .inl rfl, by decide, by decide, .inr (.inr (.inl rfl)), by decide, by decide, .inl rfl, by decide,
    by decide⟩, by decide, .inr rfl, by decide⟩

theorem wit_BtokBranchesByRoute : let s := sA fun c => { c with q := [(3, [ent 255]), (5, [ent 256])] }
    s.ready (.btok h0 3 4 0 1) h0 = true ∧ popsQueue s.curStream (s.replyMask s.curCore) 3 ∧ s.me.queue 3 = ent 255 :: [] ∧
    (ent 255).img.toNat % 2 ^ 16 < 256 ∧ s.ready (.btok h0 5 4 0 1) h0 = true ∧
    popsQueue s.curStream (s.replyMask s.curCore) 5 ∧ s.me.queue 5 = ent 256 :: [] ∧ 256 ≤ (ent 256).img.toNat % 2 ^ 16 :=
  ⟨by decide, .inl rfl, by decide, by decide, by decide, .inr (.inl rfl), by decide, by decide⟩

theorem wit_MailboxSendAndReceive :
    (let s := sC fun c => { c.setCreg 0x21 0x20100010000 with q := [(13, [ent 4]), (14, full 7)] }
     s.ready (.mbsend h0 3 63) h0 = true ∧ s.me.coupled ≠ none ∧ (s.me.queue 14).length < qDepth 14 ∧
      s.ready (.mbrecv h0 3) h0 = true ∧ s.me.queue 13 = ent 4 :: []) ∧
    ((sC id).ready (.mbsend h0 3 0) h0 = true ∧ (sC id).me.coupled = none ∧ (sC id).ready (.mbrecv h0 3) h0 = true) := by
  decide

theorem wit_EcutDiscardsBehindTheMarker : let s := sC fun c => { c with rdv := [(2, { Rdv.reset with set_ := 0x1F })] }
    let r := SMap.get Rdv.reset s.me.rdv 2
    let named := fun n => n < 5 ∧ Nat.testBit 0x1F n = true ∧ r.set_.testBit n = true
    s.ready (.ecut h0 3 2 0x1F) h0 = true ∧ SMap.rising 0 s.me.eq = true ∧
    (∀ n < 6, (named n → ∀ m ∈ (cutQueue 2 r.gen (s.me.equeue n)).1, m.st ≠ 0) ∧ (¬ named n → ∀ m ∈ s.me.equeue n, m.st ≠ 0)) ∧
    (let u := sC fun c => { c with eq := [(4, [ecmd 4 0 0 0 0])] }
     u.ready (.ecut h0 3 2 1) h0 = true ∧ SMap.rising 0 u.me.eq = true ∧ ∃ m ∈ u.me.equeue 4, m.st = 0 ∧ Nat.testBit 1 4 = false) := by
  refine ⟨by decide, by decide, fun n hn => ⟨fun _ m hm => absurd hm ?_, fun _ m hm => absurd hm ?_⟩, by decide, by decide,
    ecmd 4 0 0 0 0, by decide, by decide, by decide⟩ <;>
    interval_cases n <;> decide +revert

/-! Planes, launches, domains, generators, look-aside buffers, hash trees. -/

/-- A packet of one pair that sets field 2 of an empty plane to 5, with its checksum; and one with another checksum. -/
def pair1 : Nat := 2 * 2 ^ 48 + 5
def pkt1 : List Byte := leBytes 8 (1 + 2 ^ 32 * planeSum (applyPairs [] [pair1])) ++ leBytes 8 pair1
def pkt2 : List Byte := leBytes 8 1 ++ leBytes 8 pair1

/-- CRC-32C of "123456789", its published check value. -/
theorem test_crc32c : crc32c [0x31, 0x32, 0x33, 0x34, 0x35, 0x36, 0x37, 0x38, 0x39] = 0xE3069283 := by decide
theorem test_cdiff_wrong_sum : wfld ((next (exec (.cdiff h0 .core 3 4) (memSt [(4, 0x100)] pkt2))).me.creg 0x011) 0 5 = 0x0D := by
  decide +kernel
theorem test_cgo_starts : (next (exec (.cgo h0 false 3) (sC fun c => { c with shadowPlane := [(2, 1)] }))).me.nest =
    some ([0, 0, 0, 0, 0, 0], 0) := by decide
theorem test_cgo_try : (next (exec (.cgo h0 true 3) (sC fun c => { regs [(3, 9)] c with nest := some ([0], 0) }))).sreg 3 = 0 := by
  decide
theorem test_glaunch_misaligned : wfld ((next (exec (.glaunch h0 3 4) (sC (regs [(4, 8)])))).me.creg 0x011) 0 5 = 0x05 := by decide
theorem test_bsp_alone : (next (exec (.bsp h0 0 3) (sC id))).sreg 3 = 1 := by decide
/-- The increment is odd. -/
theorem test_rseed : (next (exec (.rseed h0 .c 4 5) (sC id))).me.genC.c = 1 := by decide
theorem test_rjump_one : (next (exec (.rjump h0 .c 4 0) (sC (regs [(4, 1)])))).me.genC.x = 1 := by decide
theorem test_rnext_steps : (next (exec (.rnext h0 3) (sC id))).me.genC.x = 1 := by decide
theorem test_clbinv_all : (next (exec (.clbinv h0 .all .core 0 0) (sC id))).me.clb = [] := by decide
theorem test_tlbinv_all : (next (exec (.tlbinv h0 .all .core 0 0) (sC fun c =>
    { c with tlb := [(0, [⟨0, 4096, 0, 0, false, true, true, true, true, true, true⟩])] }))).me.tlb = [] := by decide
theorem test_htree_wait_none : (next (exec (.htreeWait h0 3 0) (sC (regs [(3, 5)])))).sreg 3 = 0 := by decide
theorem test_htree_start_free_mode : wfld ((next (exec (.htreeStart h0 4) (sC id))).me.creg 0x011) 0 5 = 0x1E := by decide
theorem test_htree_stop : (next (exec (.htreeStop h0) (sC id))).strm.pc = 0x1008 := by decide

theorem wit_PlaneDiffAppliesToItsDomain :
    (let s := memSt [(4, 0x100)] pkt1
     s.ready (.cdiff h0 .core 3 4) h0 = true ∧ (s.sreg 4).toNat % 8 = 0 ∧
      s.canRead (s.sreg 4).toNat (8 + 8 * (s.ownNat (s.sreg 4).toNat 8 % 65536)) ∧
      s.ownNat (s.sreg 4).toNat 8 % 65536 ≤ 1024 ∧
      (∀ w ∈ s.packet (s.sreg 4).toNat, (planeWidth (fld w 48 16)).isSome = true) ∧
      s.domain s.curCore (diffLevel .core) = some [0] ∧ s.starting [0] = false ∧
      SMap.rising 0 s.cores = true ∧ (∀ j ∈ [0], planeSum (applyPairs (s.core j).shadowPlane (s.packet (s.sreg 4).toNat)) =
        fld (s.ownNat (s.sreg 4).toNat 8) 32 32)) ∧
    (let s := memSt [(4, 0x100)] pkt2
     s.ready (.cdiff h0 .core 3 4) h0 = true ∧ s.domain s.curCore (diffLevel .core) = some [s.curCore] ∧
      planeSum (applyPairs s.me.shadowPlane (s.packet (s.sreg 4).toNat)) ≠ fld (s.ownNat (s.sreg 4).toNat 8) 32 32) ∧
    (let s := { memSt [(4, 0x100)] pkt1 with
                graphs := [(0, { graph0 with nodes := [{ node0 with csize := 2, cores := [0, 1], ended := [1] }] })] }
     s.ready (.cdiff h0 .coh 3 4) h0 = true ∧ s.domain s.curCore (diffLevel .coh) = none) :=
  ⟨⟨by decide, by decide, canRead0 (by decide) (by decide) (by decide) (by decide +kernel) (by decide) (by decide)
      (by decide), by decide +kernel, by decide +kernel, by decide, by decide, by decide +kernel, by decide +kernel⟩,
    ⟨by decide, by decide, by decide +kernel⟩, ⟨by decide +kernel, by decide +kernel⟩⟩

/-- A core whose C runs an iteration of a Virga loop. -/
def iterating (c : Core) : Core := { c with spec := { c.spec with role := 3 } }

theorem test_cdiff_bad_id : wfld ((next (exec (.cdiff h0 .core 3 4)
    (memSt [(4, 0x100)] (leBytes 8 1 ++ leBytes 8 (0xFFFF * 2 ^ 48))))).me.creg 0x011) 0 5 = 0x1E := by decide +kernel

theorem wit_PlaneDiffRefusesBadPackets :
    (let s := sC iterating
     s.ready (.cdiff h0 .coh 3 4) h0 = true ∧ s.me.inIter = true) ∧
    (let s := sC (regs [(4, 0x104)])
     s.ready (.cdiff h0 .coh 3 4) h0 = true ∧ s.me.inIter = false ∧ (s.sreg 4).toNat % 8 ≠ 0) ∧
    (let s := memSt [(4, 0x100)] (leBytes 8 1025)
     s.ready (.cdiff h0 .core 3 4) h0 = true ∧ (s.sreg 4).toNat % 8 = 0 ∧ s.canRead (s.sreg 4).toNat 8 ∧
      1024 < s.ownNat (s.sreg 4).toNat 8 % 65536) ∧
    (let s := memSt [(4, 0x100)] (leBytes 8 1 ++ leBytes 8 (0xFFFF * 2 ^ 48))
     s.ready (.cdiff h0 .core 3 4) h0 = true ∧ (s.sreg 4).toNat % 8 = 0 ∧
      s.canRead (s.sreg 4).toNat (8 + 8 * (s.ownNat (s.sreg 4).toNat 8 % 65536)) ∧
      s.ownNat (s.sreg 4).toNat 8 % 65536 ≤ 1024 ∧
      ∃ w ∈ s.packet (s.sreg 4).toNat, (planeWidth (fld w 48 16)).isSome = false) :=
  ⟨by decide, by decide,
    ⟨by decide, by decide, canRead0 (by decide) (by decide) (by decide) (by decide) (by decide) (by decide) (by decide),
      by decide +kernel⟩,
    ⟨by decide, by decide, canRead0 (by decide) (by decide) (by decide) (by decide +kernel) (by decide) (by decide)
      (by decide), by decide +kernel, by decide +kernel⟩⟩

theorem wit_CgoStartsTheNest :
    (let s := sC fun c => { c with shadowPlane := [(2, 64)] }
     s.ready (.cgo h0 true 3) h0 = true ∧ s.me.inIter = false ∧ s.me.sM.started = true ∧ s.me.nest = none ∧
      s.me.sM.issued = false ∧ s.planeOk s.curCore s.me.shadowPlane = true) ∧
    (let s := sC fun c => { c with nest := some ([0, 0, 0, 0, 0, 0], 0) }
     s.ready (.cgo h0 true 3) h0 = true ∧ s.ready (.cgo h0 false 3) h0 = true ∧ s.me.inIter = false ∧
      s.me.sM.started = true ∧ s.me.nest ≠ none) ∧
    (let s := sC fun c => { c with sM := { c.sM with issued := true } }
     s.ready (.cgo h0 true 3) h0 = true ∧ s.me.sM.started = true ∧ s.me.sM.issued = true) ∧
    ((sC iterating).ready (.cgo h0 true 3) h0 = true ∧ (sC iterating).me.inIter = true ∧ (sC iterating).strm.issued = false) ∧
    (let s := sC id
     s.ready (.cgo h0 true 3) h0 = true ∧ s.me.sM.started = true ∧ s.me.nest = none ∧ s.me.sM.issued = false ∧
      s.planeOk s.curCore s.me.shadowPlane = false) ∧
    (let s := sC fun c => { c with sM := .reset }
     s.ready (.cgo h0 false 3) h0 = true ∧ s.me.sM.started = false) := by decide

theorem wit_GlaunchReportsAndPlacesTheGraph : let s := sC (regs [(4, 0x1000), (5, 0x1020)])
    s.ready (.glaunch h0 3 4) h0 = true ∧ s.me.inIter = false ∧ s.me.accSettled = true ∧ (s.sreg 4).toNat % 64 = 0 ∧ s.me.framed = false ∧
    s.ready (.glaunch h0 3 5) h0 = true ∧ (s.sreg 5).toNat % 64 ≠ 0 := by decide

/-- Two cores of one node, the second with an arrival at level 2 where b holds. -/
def two (b : Bool) : State :=
  { sC id with cores := [(0, core0), (1, { core0 with arrived := if b then [(2, true)] else [] })],
               graphs := [(0, { graph0 with nodes := [{ node0 with csize := 2, cores := [0, 1] }] })] }

theorem wit_BspReleasesTheDomainTogether :
    (∀ b, (two b).ready (.bsp h0 2 3) h0 = true ∧ (two b).me.inIter = false ∧ SMap.rising 0 (two b).me.arrived = true ∧
      SMap.rising 0 (two b).me.phase = true ∧ (two b).me.flag (4 + 2) = false ∧ (two b).me.flag 2 = false ∧
      (two b).me.flag (8 + 2) = false ∧ (two b).me.framed = false ∧ (two b).domain 0 2 = some [0, 1] ∧
      [0, 1].Nodup ∧ (two b).starting [0, 1] = false ∧
      ((two b).core 1).hasArrived 2 ((two b).me.phaseOf 2) = b ∧ ((two b).core 1).phaseOf 2 = (two b).me.phaseOf 2) ∧
    ((sC id).domain 0 3 = none ∧ (sC id).ready (.bsp h0 3 4) h0 = true ∧ (sC id).me.flag (4 + 3) = false) ∧
    ((sC fun c => { c with arrived := [(6, true)] }).me.flag (4 + 2) = true) := by decide

theorem wit_GeneratorWords : (sC id).ready (.rseed h0 .v 4 5) h0 = true ∧ (sC id).me.inIter = false ∧
    (sC id).ready (.rjump h0 .a 4 63) h0 = true ∧ (sC id).ready (.rnext h0 0) h0 = true := by decide

theorem wit_JumpIsRepeatedStep : 2 ^ 128 - 1 < 2 ^ 128 := by decide

theorem core_sC {j : Nat} (h : j ≠ 0) : (sC id).core j = Core.reset := by simp [State.core, sC, stOf, SMap.get, h]

theorem unbuffered_sC : (sC id).unbuffered := by
  refine ⟨by decide, fun j h => by rw [core_sC h]; decide, fun j d h => ?_⟩
  by_cases hj : j = 0
  · subst hj; cases h
  · rw [core_sC hj] at h; cases h

theorem wit_TlbinvRemovesExactlyTheNamedEntries : let s := sC id
    s.ready (.tlbinv h0 .va .pkg 4 5) h0 = true ∧ s.strm.bwaitAt = none ∧
    (∀ j, (s.core j).framed = false ∧ SMap.rising 0 (s.core j).tlb = true) ∧ SMap.rising 0 s.cores = true ∧ s.unbuffered := by
  refine ⟨by decide, by decide, fun j => ?_, by decide, unbuffered_sC⟩
  by_cases h : j = 0
  · subst h; decide
  · rw [core_sC h]; decide

theorem wit_ClbinvRemovesExactlyTheNamedEntries : let s := sC id
    s.ready (.clbinv h0 .vol .pkg 0 0) h0 = true ∧ s.strm.bwaitAt = none ∧ s.me.framed = false ∧ SMap.rising 0 s.cores = true ∧
    s.unbuffered := ⟨by decide, by decide, by decide, by decide, unbuffered_sC⟩

/-- A block of HTREE: region 0x10000 of one page, interval 1, area 0x20000. -/
def blk : List Byte := leBytes 8 0x10000 ++ leBytes 8 0 ++ leBytes 8 1 ++ leBytes 8 0x20000

theorem wit_HashTreeWords :
    (let s := (sC fun c => (regs [(4, 0x100)] c).setCreg 0x60 0xE0001).poke (scratchPa 0 0x100) blk
     s.ready (.htreeStart h0 4) h0 = true ∧ (s.sreg 4).toNat % 8 = 0 ∧ s.me.frame = true ∧ s.canRead (s.sreg 4).toNat 32 ∧
      s.arraysQuiet ∧ s.ownNat ((s.sreg 4).toNat + 16) 8 % 65536 ≠ 0 ∧
      (s.ownNat ((s.sreg 4).toNat + 8) 8 % 2 ^ 20 + 1) * 640 + 10000 ≤ 2 ^ wfld (s.me.creg 0x060) 16 5 ∧
      s.me.htree = none ∧ s.ownScratch (s.ownNat (s.sreg 4).toNat 8 / 4096 * 4096) (4096 * 1) ∧
      s.ownScratch (s.ownNat ((s.sreg 4).toNat + 24) 8 / 64 * 64) (areaBytes 1)) ∧
    ((sC id).ready (.htreeStart h0 4) h0 = true ∧ (sC id).me.frame = false ∧ (sC id).ready (.htreeStop h0) h0 = true ∧
      (sC id).ready (.htreeWait h0 3 0) h0 = true ∧ ((sC id).sreg 0).toNat ≤ 0 ∧
      (sC (regs [(5, 1)])).ready (.htreeWait h0 3 5) h0 = true ∧ 0 < ((sC (regs [(5, 1)])).sreg 5).toNat) :=
  ⟨⟨by decide, by decide, by decide, canRead0 (by decide) (by decide) (by decide) (by decide) (by decide) (by decide)
      (by decide), ⟨by decide, by decide⟩, by decide, by decide, by decide,
      allBanks (by decide) (by decide) (by decide) (by decide), allBanks (by decide) (by decide) (by decide) (by decide)⟩,
    by decide⟩

/-! Floating words. Patterns by hand from IEEE 754. -/

theorem test_fadd : res (.fadd h0 .f64 .rne 3 4 5) 0x3FF0000000000000 0x3FF0000000000000 0 = 0x4000000000000000 := by decide
theorem test_fadd_tie_to_even : res (.fadd h0 .f64 .rne 3 4 5) 0x4340000000000000 0x3FF0000000000000 0 = 0x4340000000000000 := by
  decide
theorem test_fsub_zero_sign : res (.fsub h0 .f32 .rne 3 4 5) 0x3F800000 0x3F800000 0 = 0 := by decide
theorem test_fmul : res (.fmul h0 .f32 .rne 3 4 5) 0x40000000 0xC0400000 0 = 0xC0C00000 := by decide
theorem test_fdiv : res (.fdiv h0 .f32 .rne 3 4 5) 0x3F800000 0x40400000 0 = 0x3EAAAAAB := by decide
theorem test_fdiv_rtz : res (.fdiv h0 .f32 .rtz 3 4 5) 0x40000000 0x40400000 0 = 0x3F2AAAAA := by decide
theorem test_fdiv_by_zero_flag : (next (exec (.fdiv h0 .f64 .rne 3 4 5) (sC (regs [(4, 0x3FF0000000000000)])))).me.creg 1 = 0x2 := by
  decide
theorem test_fsqrt : res (.fsqrt h0 .f64 .rne 3 4) 0x4010000000000000 0 0 = 0x4000000000000000 := by decide
theorem test_fma_once : res (.fma h0 .f32 .rne 3 4 5 6) 0x40000000 0x40400000 0x3F800000 = 0x40E00000 := by decide
theorem test_fmin : res (.fmin h0 .f64 3 4 5) 0x8000000000000000 0 0 = 0x8000000000000000 := by decide
theorem test_fmax : res (.fmax h0 .f64 3 4 5) 0x8000000000000000 0 0 = 0 := by decide
theorem test_fcmp_lt : res (.fcmp h0 .lt .f64 3 4 5) 0xBFF0000000000000 0 0 = 1 := by decide
theorem test_fcvt_f64_i32 : res (.fcvt h0 .f64 .i32 .rtz 3 4) 0xC004000000000000 0 0 = 0xFFFFFFFFFFFFFFFE := by decide
theorem test_fcvt_i64_f64 : res (.fcvt h0 .i64 .f64 .rne 3 4) (-1) 0 0 = 0xBFF0000000000000 := by decide
theorem test_fmai : res (.fmai h0 .f64 .rne 3 4 0x3FF00) 0x4000000000000000 0 0 = 0x3FF0000000000000 := by decide
theorem test_fmal : res (.fmal h0 .f32 .rne 3 4 5 0x3F800000) 0x40000000 0x40400000 0 = 0x40E00000 := by decide
theorem test_fmak : (next (exec (.fmak h0 .f64 .rne 3 4 5 9) (sC fun c =>
    { regs [(4, 0x4000000000000000), (5, 0x3FF0000000000000)] c with k := [(9, 0x3FF0000000000000)] }))).sreg 3 =
    0x4008000000000000 := by decide

theorem wit_FloatingWordsRoundOnceAndRaiseFlags :
    (let s := sC fun c => { regs [(4, 1), (5, 2)] c with k := [(9, 3)], cr := (0, 6) :: c.cr }
     let i := Instr.fmak h0 .f64 .dyn 3 4 5 9
     i.hdr = some h0 ∧ (floatWord s.sreg (fun n => SMap.get 0 s.me.k n) i).isSome = true ∧ s.ready i h0 = true ∧
      (s.waited i h0).settled 0x000 = true ∧ (s.waited i h0).settled 0x4000 = true ∧ s.eccQuiet = true ∧
      (s.waited i h0).settled (0x1000 + 9) = true) ∧
    (floatWord (sC id).sreg (fun _ => 0) (.fcvt h0 .f64 .i32 .srk 3 4)).isSome = true ∧
    (sC id).ready (.fcvt h0 .f64 .i32 .srk 3 4) h0 = true := by decide

/-! Virga loops and the sampler. -/

/-- Two cores of one node, core 0 with registers and bytes at 0x100 of its scratchpad. -/
def twoMem (l : SMap Word) (b : List Byte) : State :=
  ({ sC id with cores := [(0, { core0 with regC := l, cr := [(0x21, 0x20000), (0x50, 0x3FF), (0x51, 0xFFFF)] }), (1, core0)],
                graphs := [(0, { graph0 with nodes := [{ node0 with csize := 2, cores := [0, 1] }] })] } : State).poke
    (scratchPa 0 0x100) b

/-- A control block of two cores whose words else are 0. -/
def cb1 : List Byte := leBytes 8 0 ++ leBytes 8 0 ++ leBytes 8 (2 * 2 ^ 27)

def iter (f : Spec → Spec) : State := sC fun c => { c with spec := f { c.spec with role := 3, cb := [0, 0, 2 ^ 17] } }

/-- A slot that is active with stop token 7, and one candidate of id 7 and logit 1. -/
def smpSt : State :=
  (sC fun c => { regs [(4, 0x100), (5, 0x3F800000)] c with smp := [(5, ⟨65536, 0, 1, [7]⟩)] }).poke (scratchPa 0 0x100)
    (leBytes 8 (7 * 2 ^ 32 + 0x3F800000))

theorem test_spcmp_equal : (next (exec (.spcmp h0 .exact true 3 4 5 6 0) (memSt [(4, 0x100), (5, 0x108)] [1, 0, 0, 0, 0, 0, 0, 0, 1]))).sreg 3 =
    1 := by decide
theorem test_spapp_adds : (next (exec (.spapp h0 .d 3 4 0) (iter id))).me.spec.app = [⟨0, 8, 0⟩] := by decide
theorem test_spend_srv : (next (exec (.spendSrv h0) (sC id))).me.spec.role = 2 := by decide
theorem test_spend_b : (next (exec (.spendB h0 4) (iter id))).me.spec.ended = true := by decide
theorem test_spbegin_leads : (next (exec (.spbegin h0 3 4) (twoMem [(4, 0x100)] cb1))).me.spec.role = 1 := by decide
theorem test_draw_one_candidate : drawToken .tmp 0x3F800000 5 [7 * 2 ^ 32 + 0x3F800000] [] = some 7 := by decide +kernel
/-- Equal weights: half of the range for each of two candidates, the smaller id first (R407). -/
theorem test_draw_prob_second : drawToken .prob 0 0x80000000 [9 * 2 ^ 32 + 0x3F000000, 8 * 2 ^ 32 + 0x3F000000] [] = some 9 := by
  decide +kernel
/-- The result shows outcome, slot, the low 16 bits of the position, and the token (R410). -/
theorem test_draw_result : drawResult 1 5 0x10002 7 = 0x4500000200000007 := by decide
theorem test_stopset : (SMap.get Slot.reset (next (exec (.stopset h0 3 4 5 9 1) smpSt)).me.smp 9).ids = [0x3F800000] := by decide

theorem wit_SpeculationCompares :
    (let s := memSt [(4, 0x100), (5, 0x108)] [1, 0, 0, 0, 0, 0, 0, 0, 1]
     s.ready (.spcmp h0 .exact true 3 4 5 6 15) h0 = true ∧ (s.sreg 4).toNat % 8 = 0 ∧ (s.sreg 5).toNat % 8 = 0 ∧
      s.canRead (s.sreg 4).toNat (8 * (15 + 1)) ∧ s.canRead (s.sreg 5).toNat (8 * (15 + 1))) ∧
    (let s := memSt [(4, 0x100)] (leBytes 8 0x3F8000003F800000)
     let u := keyed s.me.genC (s.sreg 5).toInt (wfld (s.me.creg 0x062) 32 20) / 2 ^ 40
     s.ready (.spacc h0 3 4 5 0) h0 = true ∧ (s.sreg 4).toNat % 8 = 0 ∧ s.canRead (s.sreg 4).toNat (8 * (0 + 1)) ∧
      blkLength u ((s.ownWords (s.sreg 4).toNat 1).map fun w => (w % 2 ^ 32, fld w 32 32)) = some (1, 0)) ∧
    (let s := memSt [(4, 0x100)] []
     s.ready (.spacc h0 3 4 5 0) h0 = true ∧ blkLength 0 ((s.ownWords (s.sreg 4).toNat 1).map fun w =>
      (w % 2 ^ 32, fld w 32 32)) = none) :=
  ⟨⟨by decide, by decide, by decide, canRead0 (by decide) (by decide) (by decide) (by decide) (by decide) (by decide)
      (by decide), canRead0 (by decide) (by decide) (by decide) (by decide) (by decide) (by decide) (by decide)⟩,
    ⟨by decide, by decide, canRead0 (by decide) (by decide) (by decide) (by decide) (by decide) (by decide) (by decide),
      by decide +kernel⟩, ⟨by decide, by decide⟩⟩

theorem wit_SpeculationWords :
    (let s := twoMem [(4, 0x100)] cb1
     let cb := s.ownWords (s.sreg 4).toNat 16
     let w2 := cb.getD 2 0
     s.ready (.spbegin h0 3 4) h0 = true ∧ s.me.spec.role = 0 ∧ (s.sreg 4).toNat % 64 = 0 ∧
      s.canRead (s.sreg 4).toNat 128 ∧ cb.getD 0 0 % 8 = 0 ∧ cb.getD 1 0 % 8 = 0 ∧ cb.getD 6 0 % 8 = 0 ∧
      2 ≤ fld w2 27 5 ∧ fld w2 27 5 ≤ 16 ∧ wfld (s.me.creg 0x021) 0 10 + fld w2 27 5 ≤ wfld (s.me.creg 0x021) 16 10 ∧
      fld w2 17 3 ≤ 4 ∧ (∀ r < fld w2 17 3, cb.getD (8 + 2 * r) 0 % 8 = 0) ∧
      s.starting (s.window s.curCore (fld w2 27 5)) = false ∧
      (∀ j ∈ s.window s.curCore (fld w2 27 5), s.windowGone s.curCore j = false ∧ ((s.core j).creg 0x051).getLsbD 15 = true)) ∧
    ((sC id).ready (.spendSrv h0) h0 = true ∧ (sC id).me.spec.role = 0) ∧
    (let s := iter id
     s.ready (.spapp h0 .d 3 4 0) h0 = true ∧ s.me.spec.role = 3 ∧ s.me.spec.ended = false ∧ 0 < s.me.spec.nap ∧
      s.me.spec.appended 0 + wdLen .d ≤ 4096 ∧ s.ready (.spendB h0 4) h0 = true ∧
      ∀ e < 2, s.me.runOf e = none ∧ s.me.equeue e = []) ∧
    (let s := iter fun x => { x with app := List.replicate 512 ⟨0, 8, 0⟩ }
     s.ready (.spapp h0 .w 3 4 0) h0 = true ∧ 4096 < s.me.spec.appended 0 + wdLen .w) ∧
    (let s := sC fun c => { c with spec := { c.spec with role := 4 } }
     s.ready (.spendG h0) h0 = true ∧ s.me.spec.role = 4) :=
  ⟨⟨by decide, by decide, by decide, canRead0 (by decide) (by decide) (by decide) (by decide) (by decide) (by decide)
      (by decide), by decide, by decide, by decide, by decide, by decide, by decide, by decide, by decide, by decide⟩,
    by decide, by decide, by decide, by decide⟩

theorem wit_SamplerWords :
    (let s := smpSt
     let x := SMap.get Slot.reset s.me.smp 5
     s.me.inIter = false ∧ s.thermStop = false ∧ s.me.equeue 4 = [] ∧ s.me.runOf 4 = none ∧ SMap.rising 0 s.me.smp = true ∧
      SMap.rising 0 s.me.eq = true ∧ s.ready (.smp h0 .tmp 3 4 5 5 0) h0 = true ∧ (s.sreg 4).toNat % 8 = 0 ∧ x.st = 1 ∧
      s.canRead (s.sreg 4).toNat (8 * (0 + 1)) ∧
      drawToken .tmp ((s.sreg 5).toNat % 2 ^ 32) (keyed s.me.genC (5 * 2 ^ 32 + x.pos : Nat)
        (wfld (s.me.creg 0x062) 32 20) % 2 ^ 32) (s.ownWords (s.sreg 4).toNat (0 + 1)) [] = some 7 ∧
      s.ready (.smp h0 .tmp 3 4 5 63 0) h0 = true ∧ (SMap.get Slot.reset s.me.smp 63).st ≠ 1 ∧
      s.ready (.stopset h0 3 4 5 63 16) h0 = true ∧ (s.sreg 4).toNat % 4 = 0 ∧ s.canRead (s.sreg 4).toNat (4 * 16)) :=
  ⟨by decide, by decide, by decide, by decide, by decide, by decide, by decide, by decide, by decide,
    canRead0 (by decide) (by decide) (by decide) (by decide) (by decide) (by decide) (by decide), by decide +kernel,
    by decide, by decide, by decide, by decide,
    canRead0 (by decide) (by decide) (by decide) (by decide) (by decide) (by decide) (by decide)⟩

/-! Words of V. -/

/-- The same as vReady, as a check. -/
def vCheck (s : State) (i : Instr) (h : Hdr) (codes : List Nat) (d : Nat) : Bool :=
  i.hdr == some h && s.ready i h && s.eccQuiet && !s.me.einj.getLsbD 63 && s.strm.popped.isEmpty &&
  [0x000, 0x004, 0x062, 0x4002].all (fun key => (s.waited i h).settled key) &&
  codes.all (fun c => c < 768 || (s.waited i h).settled (0x1000 + (c - 768))) &&
  codes.all (fun c => match srcQueue c with | some q => s.me.qReady q | none => true) &&
  (d ≠ 650 || (s.me.queue 2).length < 8) && SMap.rising 0 s.me.v && SMap.rising 0 s.me.vmap && SMap.rising 0 s.me.q &&
  SMap.rising 0 s.me.cr && SMap.rising 0 s.me.p

theorem vReady_of {s : State} {i : Instr} {h : Hdr} {codes : List Nat} {d : Nat} (c : vCheck s i h codes d = true) :
    s.vReady i h codes d := by
  simp only [vCheck, Bool.and_eq_true, List.all_eq_true, List.isEmpty_iff, beq_iff_eq, Bool.not_eq_eq_eq_not,
    Bool.not_true, Bool.or_eq_true, decide_eq_true_eq] at c
  obtain ⟨⟨⟨⟨⟨⟨⟨⟨⟨⟨⟨⟨⟨a, b⟩, c1⟩, c2⟩, e⟩, f⟩, g⟩, k⟩, l⟩, m⟩, n⟩, o⟩, p⟩, q⟩ := c
  refine ⟨a, b, ⟨c1, c2⟩, e, f, fun x hx h7 => (g x hx).resolve_left (by omega), fun x hx y hy => ?_, fun hd => ?_,
    m, n, o, p, q⟩
  · have := k x hx; rw [hy] at this; exact this
  · exact l.resolve_left (by simp [hd])

/-- V state with V1 holding `a`, V2 holding `b`, P1 with the bits `p`, V3 all ones. -/
def vst (w : Nat) (a b : List Nat) (p : Nat) : State :=
  sV fun c => { c with v := [(1, imageOf w a), (2, imageOf w b), (3, BitVec.allOnes 4096)], p := [(1, BitVec.ofNat 512 p)],
                       k := [(5, 3)] }

/-- The first n elements of V3 after a word. -/
def vres (w n : Nat) (s : State) (i : Instr) : List Nat :=
  (List.range n).map fun e => elemOf w (SMap.get 0 (next (exec i s)).me.v 3).toNat e

/-- Masked elements keep their bytes. -/
theorem test_vadd_i64 : vres 64 2 (vst 64 [5, 6] [7, 8] 1) (.vadd h0 .i64 1 .dyn 3 1 2) = [12, 0xFFFFFFFFFFFFFFFF] := by decide +kernel
theorem test_vsub_wraps : vres 8 1 (vst 8 [5] [7] 1) (.vsub h0 .i8 1 .dyn 3 1 2) = [254] := by decide +kernel
theorem test_vmul_const : vres 64 1 (vst 64 [5] [] 1) (.vmul h0 .i64 1 .dyn 3 1 773) = [15] := by decide +kernel
theorem test_vfma : vres 32 1 (vst 32 [0x40000000] [0x40400000] 1) (.vfma h0 .f32 1 .dyn 647 1 2) = [0xFFFFFFFF] := by decide +kernel
theorem test_vdiv : vres 32 1 (vst 32 [0x3F800000] [0x40400000] 1) (.vdiv h0 .f32 1 .rtz 3 1 2) = [0x3EAAAAAA] := by decide +kernel
theorem test_vsqrt : vres 64 1 (vst 64 [0x4010000000000000] [] 1) (.vsqrt h0 .f64 1 .dyn 3 1) = [0x4000000000000000] := by decide +kernel
theorem test_vexp2 : vres 32 1 (vst 32 [0x40400000] [] 1) (.vexp2 h0 .f32 1 .dyn 3 1) = [0x41000000] := by decide +kernel
theorem test_vlog2 : vres 32 1 (vst 32 [0x41000000] [] 1) (.vlog2 h0 .f32 1 .dyn 3 1) = [0x40400000] := by decide +kernel
theorem test_vmin_signed : vres 8 1 (vst 8 [0x80] [1] 1) (.vmin h0 .i8 1 .dyn 3 1 2) = [0x80] := by decide +kernel
theorem test_vmax_signed : vres 8 1 (vst 8 [0x80] [1] 1) (.vmax h0 .i8 1 .dyn 3 1 2) = [1] := by decide +kernel
theorem test_vabs : vres 16 1 (vst 16 [0xFFFE] [] 1) (.vabs h0 .i16 1 .dyn 3 1) = [2] := by decide +kernel
theorem test_vneg : vres 64 1 (vst 64 [0] [] 1) (.vneg h0 .f64 1 .dyn 3 1) = [0x8000000000000000] := by decide +kernel
theorem test_vand : vres 64 1 (vst 64 [12] [10] 1) (.vand h0 .i64 1 .dyn 3 1 2) = [8] := by decide +kernel
theorem test_vor : vres 64 1 (vst 64 [12] [10] 1) (.vor h0 .i64 1 .dyn 3 1 2) = [14] := by decide +kernel
theorem test_vxor : vres 64 1 (vst 64 [12] [10] 1) (.vxor h0 .i64 1 .dyn 3 1 2) = [6] := by decide +kernel
theorem test_vshl_width : vres 32 1 (vst 32 [1] [32] 1) (.vshl h0 .i32 1 .dyn 3 1 2) = [0] := by decide +kernel
theorem test_vshr : vres 32 1 (vst 32 [0x80000000] [31] 1) (.vshr h0 .i32 1 .dyn 3 1 2) = [1] := by decide +kernel
theorem test_vsar_past_width : vres 32 1 (vst 32 [0x80000000] [99] 1) (.vsar h0 .i32 1 .dyn 3 1 2) = [0xFFFFFFFF] := by decide +kernel
theorem test_vmov_lane : vres 64 2 (vst 64 [] [] 3) (.vmov h0 .i64 1 3 644) = [0, 1] := by decide +kernel
theorem test_vfmal : vres 64 1 (vst 64 [5] [7] 1) (.vfmal h0 .i64 1 .dyn 3 1 2 0xFFFFFFFFFFFF) = [34] := by decide +kernel
theorem test_vaddi_f64 : vres 64 1 (vst 64 [0x3FF0000000000000] [] 1) (.vaddi h0 3 1 0x3FF00) = [0x4000000000000000] := by decide +kernel
theorem test_vmuli_i64 : vres 64 1 { vst 64 [5] [] 1 with cores := [(0, ((vst 64 [5] [] 1).core 0).setCreg 4 8)] }
    (.vmuli h0 3 1 0xFFFFF) = [0xFFFFFFFFFFFFFFFB] := by decide +kernel
theorem test_vfmai_f64 : vres 64 1 (sV fun c => { c with v := [(1, imageOf 64 [0x4000000000000000]), (3, 0)] })
    (.vfmai h0 3 1 0x3FF00) = [0x3FF0000000000000] := by decide +kernel

theorem wit_ElementWordsComputeEachElement : let s := vst 64 [5, 6] [7, 8] 1
    (vform (s.me.creg 0x004).toNat (.vfma h0 .i64 1 .dyn 3 1 773)).isSome = true ∧
    s.vReady (.vfma h0 .i64 1 .dyn 3 1 773) h0 [1, 773] 3 ∧ (s.vview (s.me.refMap (regsOf [1, 773, 3]) 3) 1).chk = false ∧
    s.vReady (.vadd h0 .i64 0 .dyn 650 646 647) h0 [646, 647] 650 ∧ s.vReady (.vaddi h0 511 1 5) h0 [1, 647] 511 :=
  ⟨by decide, vReady_of (by decide +kernel), by decide +kernel, vReady_of (by decide +kernel), vReady_of (by decide +kernel)⟩

/-! Selections, rearrangements, reductions, conversions. -/

theorem test_vcmp_lt : ((next (exec (.vcmp h0 .lt .i64 0 2 1 2) (vst 64 [1, 9] [2, 8] 0))).me.pred 2) % 4 = 1 := by decide +kernel
theorem test_vsel : vres 64 2 (vst 64 [1, 2] [7, 8] 1) (.vsel h0 .i64 1 3 1 2) = [1, 8] := by decide +kernel
/-- fn 6 is exclusive or: bit 2a + b of fn. -/
theorem test_plogic : ((next (exec (.plogic h0 6 .i64 0 2 1 1) (vst 64 [] [] 5))).me.pred 2) % 8 = 0 := by decide +kernel
theorem test_pcnt : vres 64 1 (vst 64 [] [] 0x15) (.pcnt h0 false .i64 0 3 1) = [3] := by decide +kernel
theorem test_vperm : vres 64 2 (vst 64 [5, 6, 7] [2, 64] 0) (.vperm h0 false .i64 0 3 1 2) = [7, 0] := by decide +kernel
theorem test_vcomp : vres 64 3 (vst 64 [5, 6, 7] [] 6) (.vcomp h0 .i64 1 3 1) = [6, 7, 0] := by decide +kernel
theorem test_vpart : ((next (exec (.vpart h0 false false .i64 1 3 1) (vst 64 [0, 6, 7] [] 7))).me.queue 3).map (fun e => lo64 e.img) =
    [BitVec.ofNat 64 (2 * 2 ^ 28 + 1 * 2 ^ 16 + 3)] := by decide +kernel
theorem test_vtok_any : ((next (exec (.vtok h0 .any false .i64 0 1 0) (vst 64 [5, 6] [] 0))).me.queue 3).map (fun e => lo64 e.img) =
    [0x20001] := by decide +kernel
theorem test_vred_add : vres 64 2 (vst 64 [5, 6, 7] [] 7) (.vred h0 .add .all .i64 1 .dyn 3 1) = [18, 0] := by decide +kernel
theorem test_vscan_max : vres 64 3 (vst 64 [5, 9, 7] [] 7) (.vscan h0 .max .all .i64 1 .dyn 3 1) = [5, 9, 9] := by decide +kernel
theorem test_vcvt : vres 64 2 (vst 32 [0x3F800000, 0x40000000] [] 3) (.vcvt h0 .f32 0 false .f64 1 .dyn 3 1) =
    [0x3FF0000000000000, 0x4000000000000000] := by decide +kernel
theorem test_vrnd_keyed_mask : vres 64 2 (vst 64 [] [] 0) (.vrndKey h0 .i64 1 3 773) = [0xFFFFFFFFFFFFFFFF, 0xFFFFFFFFFFFFFFFF] := by
  decide +kernel
theorem test_vrnd_str_steps : (next (exec (.vrndStr h0 .i64 1 3) (vst 64 [] [] 5))).me.genV = Gen.stepped^[2] Gen.reset := by decide +kernel
theorem test_vqmx_zero : vres 64 1 (vst 64 [] [] 0) (.vqmx h0 .mx8 .f64 1 3 1 0) ≠ [0xFFFFFFFFFFFFFFFF] := by decide +kernel
theorem test_vdqmx_zero : vres 64 1 (vst 64 [] [] 1) (.vdqmx h0 .mx8 .f64 1 .dyn 3 2 0) = [0] := by decide +kernel

theorem wit_SelectionAndPredicateWords : let s := vst 64 [5, 6] [7, 8] 1
    (s.me.creg 0x004).getLsbD 0 = false ∧
    s.vReady (.vcmp h0 .geu .i8 1 15 1 773) h0 [1, 773] 0 ∧ s.vReady (.vsel h0 .f64 1 650 1 2) h0 [1, 2] 650 ∧
    s.vReady (.plogic h0 15 .i8 1 15 1 0) h0 [] 0 ∧ s.vReady (.pcnt h0 true .i8 7 639 15) h0 [] 639 :=
  ⟨by decide, vReady_of (by decide +kernel), vReady_of (by decide +kernel), vReady_of (by decide +kernel),
    vReady_of (by decide +kernel)⟩

theorem wit_RearrangingWordsMoveElements : let s := vst 64 [5, 6] [7, 8] 1
    s.vReady (.vperm h0 true .i8 1 3 1 2) h0 [1, 2] 3 ∧ s.vReady (.vcomp h0 .f64 1 650 1) h0 [1] 650 ∧
    s.vReady (.vpart h0 true true .i64 1 4 1) h0 [1] 0 ∧ (s.me.queue 4).length < 16 ∧
    s.vReady (.vtok h0 .elt false .i64 1 1 63) h0 [1] 0 ∧ (s.me.queue 3).length < 16 ∧
    (s.vview (s.me.mapOf 1) 1).chk = false :=
  ⟨vReady_of (by decide +kernel), vReady_of (by decide +kernel), vReady_of (by decide +kernel), by decide,
    vReady_of (by decide +kernel), by decide, by decide⟩

theorem wit_ReductionsAndScansCombineByTree : let s := vst 64 [5, 6] [7, 8] 1
    dim0Ok (s.me.mapOf 1) = true ∧ (s.vview (s.me.mapOf 1) 1).chk = false ∧ redRounds .min .f64 = false ∧
    s.vReady (.vred h0 .add .dim0 .f64 1 .rtz 3 1) h0 [1] 3 ∧ s.vReady (.vscan h0 .xor .all .i8 1 .dyn 650 1) h0 [1] 650 :=
  ⟨by decide, by decide, by decide, vReady_of (by decide +kernel), vReady_of (by decide +kernel)⟩

theorem wit_ConversionsBlocksAndRandomWords : let s := vst 64 [5, 6] [7, 8] 1
    s.vReady (.vcvt h0 .i8 7 true .f64 1 .srk 3 1) h0 [1] 3 ∧ s.vReady (.vqmx h0 .mx4 .f16 1 3 1 35) h0 [1] 3 ∧
    s.vReady (.vdqmx h0 .mx8 .f64 1 .dyn 650 1 24) h0 [1] 650 ∧ s.vReady (.vrndKey h0 .i16 1 3 773) h0 [773] 3 ∧
    s.vReady (.vrndStr h0 .i16 1 3) h0 [] 3 ∧ (s.vview (s.me.mapOf 1) 1).chk = false :=
  ⟨vReady_of (by decide +kernel), vReady_of (by decide +kernel), vReady_of (by decide +kernel),
    vReady_of (by decide +kernel), vReady_of (by decide +kernel), by decide⟩

/-! V's memory words, maps and sequencers. -/

/-- View 2 of format raw and rank 1 over 64 elements of 8 bytes at 0x1000, view 3 over a volume's descriptor at 0x100;
P1 selects element 0. -/
def viewSt : State :=
  (sV fun c => { c with
    v := [(1, imageOf 64 [5, 6]), (3, BitVec.allOnes 4096)], p := [(1, 1)],
    vw := [(2, BitVec.ofNat 1024 (0x1000 + 1 * 2 ^ 72 + 64 * 2 ^ 128 + 8 * 2 ^ 256)), (3, 0x100)] }).poke
  (scratchPa 0 0x1000) [0x99]

/-- The same with the descriptor, one node and one tile of a volume of 8 by 8 by 8 elements of f64. -/
def volSt : State :=
  ((viewSt.poke (scratchPa 0 0x100) ([3, 1, 0, 1, 0, 0, 0, 0] ++ leBytes 8 7 ++ leBytes 4 8 ++ leBytes 4 8 ++ leBytes 4 8 ++
    leBytes 4 1 ++ leBytes 16 0 ++ leBytes 8 0x2000 ++ leBytes 8 0x3000)).poke (scratchPa 0 0x2000)
    (leBytes 8 0x4001)).poke (scratchPa 0 0x4000) [0x77]

theorem test_vld : vres 64 2 viewSt (.vld h0 .dflt .i64 1 .dyn 3 2 0) = [0x99, 0xFFFFFFFFFFFFFFFF] := by decide +kernel
theorem test_vst : (next (exec (.vst h0 .dflt .i64 1 .dyn 1 2 1) viewSt)).peek (scratchPa 0 0x1000) 9 =
    [0x99, 0, 0, 0, 0, 0, 0, 0, 5] := by decide +kernel
theorem test_vldc : vres 64 1 volSt (.vldc h0 1 3 1 3 0 0 0) = [0x77] := by decide +kernel
/-- Outside the volume a place reads as the background. -/
theorem test_vldc_outside : vres 64 1 volSt (.vldc h0 1 3 1 3 7 0 0) = [7] := by decide +kernel
theorem test_vstc : (next (exec (.vstc h0 1 1 1 3 0 0 0) volSt)).peek (scratchPa 0 0x4000) 1 = [5] := by decide +kernel
theorem test_vmap_set_rank_zero : wfld ((next (exec (.vmapSet h0 1 768) (sV id))).me.creg 0x011) 0 5 = 0x01 := by decide +kernel
theorem test_vmap_shift : (match (next (exec (.vmapShift h0 0 3 1 773) (vst 64 [] [] 0))).me.mapOf 3 with
    | .affine m => m.org.getD 0 0 | _ => 0) = 3 := by decide +kernel
theorem test_vmap_perm_identity : (next (exec (.vmapPerm h0 3 1 768) (sV fun c => { c with k := [(0, 0xE4)] }))).me.mapOf 3 =
    .affine .dflt := by decide +kernel
theorem test_vmap_slice_past : wfld ((next (exec (.vmapSlice h0 0 3 1 768) (sV fun c => { c with k := [(0, 0xFFFFFFFF00000001)] }))).me.creg
    0x011) 0 5 = 0x08 := by decide +kernel
theorem test_vmapq_kind : ((next (exec (.vmapq h0 .kind false 1 0) (sV id))).me.queue 3).length = 1 := by decide +kernel
theorem test_lset_loop : (next (exec (.lsetLoop h0 .imm 2 5) (sV id))).strm.seqr = [⟨5, 0, 0x1008, 2⟩] := by decide
theorem test_lset_loop_zero : pcAfter (sV id) (.lsetLoop h0 .imm 2 0) = 0x1018 := by decide
theorem test_lset_view : (next (exec (.lsetView h0 .imm 2 0 0xFFFFF) viewSt)).me.viewFld 2 0 = 0xFFFFFFFFFFFFFFFF := by decide +kernel
theorem test_rpt_waits_at_its_word : pcAfter ((sV id).poke (scratchPa 0 0x1008) (leBytes 8 0x0000200010040800)) (.rpt h0 3 0 0 0) =
    0x1000 := by decide

theorem viewSt_reads {s : State} (h : s = viewSt ∨ s = volSt) (va n : Nat) (hn : va + n ≤ 0x400000) : s.canRead va n := by
  rcases h with rfl | rfl <;>
    exact canRead0 (by decide) (by decide) (by decide) hn (by decide) (by decide) (by decide)

theorem viewSt_writes {s : State} (h : s = viewSt ∨ s = volSt) (va n : Nat) (hn : va + n ≤ 0x400000) : s.canWrite va n := by
  rcases h with rfl | rfl <;>
    exact canWrite0 (by decide) (by decide) (by decide) hn (by decide) (by decide) (by decide) (by show _ = _; decide)

theorem wit_VectorLoadsAndStoresFollowTheView : let s := viewSt
    let v := s.viewOf 2
    let vmap := VMap.affine (v.map (sval 13 0) (memWidth .i64 (s.fmtAt v v.base)))
    s.viewFits v ∧ s.vReady (.vld h0 .a8 .i64 1 .dyn 3 2 0) h0 [] 3 ∧
    (s.waited (.vld h0 .a8 .i64 1 .dyn 3 2 0) h0).viewSettled 2 ∧
    (∀ e < 64, (s.vview vmap 1).active e = true → s.fmtAt v ((v.addr (sval 13 0) e).getD 0) < 9 ∧
      s.canRead ((v.addr (sval 13 0) e).getD 0) (memWidth .i64 (s.fmtAt v ((v.addr (sval 13 0) e).getD 0)))) ∧
    atomicFits .a8 .i64 v (s.fmtAt v) (fun e => if (s.vview vmap 1).active e then some ((v.addr (sval 13 0) e).getD 0) else none) ∧
    (s.vview vmap 1).chk = false ∧
    s.vReady (.vst h0 .dflt .i64 1 .dyn 1 2 0) h0 [1] 0 ∧ (s.waited (.vst h0 .dflt .i64 1 .dyn 1 2 0) h0).viewSettled 2 ∧
    (∀ e < 64, ((s.vview (s.me.mapOf 1) 1).active e && (v.addr (sval 13 0) e).isSome) = true →
      s.fmtAt v ((v.addr (sval 13 0) e).getD 0) < 9 ∧
      s.canWrite ((v.addr (sval 13 0) e).getD 0) (memWidth .i64 (s.fmtAt v ((v.addr (sval 13 0) e).getD 0)))) := by
  have one : ∀ e < 64, (viewSt.vview (VMap.affine ((viewSt.viewOf 2).map (sval 13 0)
      (memWidth .i64 (viewSt.fmtAt (viewSt.viewOf 2) (viewSt.viewOf 2).base)))) 1).active e = true → e = 0 := by decide +kernel
  have one' : ∀ e < 64, ((viewSt.vview (viewSt.me.mapOf 1) 1).active e && ((viewSt.viewOf 2).addr (sval 13 0) e).isSome) = true →
      e = 0 := by decide +kernel
  refine ⟨⟨by decide, by decide, .inl (by decide)⟩, vReady_of (by decide +kernel), ⟨by decide +kernel, by decide +kernel⟩,
    fun e he ha => ?_, ⟨by decide +kernel, fun e he q hq => ?_⟩, by decide, vReady_of (by decide +kernel), ⟨by decide +kernel, by decide +kernel⟩,
    fun e he ha => ?_⟩
  · obtain rfl := one e he ha
    exact ⟨by decide +kernel, viewSt_reads (.inl rfl) _ _ (by decide +kernel)⟩
  · dsimp only at hq
    split at hq
    · rename_i ha
      obtain rfl := one e he ha
      cases hq; exact ⟨by decide +kernel, by decide +kernel⟩
    · cases hq
  · obtain rfl := one' e he ha
    exact ⟨by decide +kernel, viewSt_writes (.inl rfl) _ _ (by decide +kernel)⟩

theorem wit_SparseVolumeLoadsAndStores : let s := volSt
    let view := s.viewOf 3
    let v := s.volAt view.base
    let x := s.vview (s.me.mapOf 1) 1
    let place := fun e => v.locate (volCoord x view v (volOffs 0 0 0) e).1
    s.canRead view.base 64 ∧ v.ok = true ∧
    (∀ e < v.ty.count, x.active e = true → ∀ tl q, place e = some (tl, q) → s.tileIs v tl (some 0x4000)) ∧
    s.vReady (.vldc h0 1 3 1 3 0 0 0) h0 [] 3 ∧ (s.waited (.vldc h0 1 3 1 3 0 0 0) h0).viewSettled 3 ∧ x.chk = false ∧
    s.vReady (.vstc h0 1 1 1 3 0 0 0) h0 [1] 0 ∧ (s.waited (.vstc h0 1 1 1 3 0 0 0) h0).viewSettled 3 ∧
    s.me.spec.role = 0 ∧ v.pool % 16 = 0 ∧ s.ownScratch v.pool 16 ∧ place 0 = some (0, 0) ∧
    s.canRead (0x4000 + 0 * 8) 8 ∧ s.canWrite (0x4000 + 0 * 8) 8 := by
  have one : ∀ e < (volSt.volAt (volSt.viewOf 3).base).ty.count, (volSt.vview (volSt.me.mapOf 1) 1).active e = true → e = 0 := by
    decide +kernel
  refine ⟨viewSt_reads (.inr rfl) _ _ (by decide +kernel), by decide +kernel, fun e he ha tl q hp => ?_,
    vReady_of (by decide +kernel), ⟨by decide +kernel, by decide +kernel⟩, by decide, vReady_of (by decide +kernel),
    ⟨by decide +kernel, by decide +kernel⟩, by decide, by decide +kernel, (viewSt_reads (.inr rfl) _ _ (by decide +kernel)).1,
    by decide +kernel, viewSt_reads (.inr rfl) _ _ (by decide), viewSt_writes (.inr rfl) _ _ (by decide)⟩
  obtain rfl := one e he ha
  have e0 : (volSt.volAt (volSt.viewOf 3).base).locate (volCoord (volSt.vview (volSt.me.mapOf 1) 1) (volSt.viewOf 3)
    (volSt.volAt (volSt.viewOf 3).base) (volOffs 0 0 0) 0).1 = some (0, 0) := by decide +kernel
  have hp := e0.symm.trans hp
  cases hp
  refine ⟨?_, fun a hc => by revert hc; have : volSt.me.clbFind (volSt.volAt (volSt.viewOf 3).base).desc 0 = none := by decide +kernel
                             rw [this]; exact fun h => nomatch h⟩
  have hd : (volSt.volAt (volSt.viewOf 3).base).depth = 0 + 1 := by decide +kernel
  have hr : (volSt.volAt (volSt.viewOf 3).base).root = 0x2000 := by decide +kernel
  rw [hd, hr]
  refine ⟨(viewSt_reads (.inr rfl) _ _ (by decide)).1, viewSt_reads (.inr rfl) _ _ (by decide), ?_⟩
  have ht : volSt.ownNat (0x2000 + 8 * (0 / 64 ^ 0 % 64)) 8 = 0x4001 := by decide +kernel
  rw [ht]
  exact ⟨(viewSt_reads (.inr rfl) _ _ (by decide)).1, rfl⟩

/-- A descriptor of rank 4 in the constant bank at k0, an affine map of rank 2 on V1, and an explicit one on V2. -/
def mapSt : State := sV fun c =>
  { c with k := [(0, 4), (5, 0x0000000200000001)], q := [(7, [ent 0x0000000100000000])],
           vmap := [(1, .affine { AffMap.dflt with rank := 2, ext := [4, 4, 1, 1] }), (4, .opaque 4)] }

theorem wit_MapWordsGiveRegistersMaps : let s := mapSt
    s.vReady (.vmapSet h0 3 768) h0 ((List.range 10).map (768 + ·)) 0 ∧
    (1 ≤ (AffMap.ofWords ((List.range 10).map fun n => (SMap.get 0 s.me.k (768 - 768 + n)).toNat)).rank) ∧
    ((AffMap.ofWords ((List.range 10).map fun n => (SMap.get 0 s.me.k (768 - 768 + n)).toNat)).rank ≤ 4) ∧
    s.vReady (.vmapSet h0 3 1014) h0 ((List.range 10).map (1014 + ·)) 0 ∧
    (AffMap.ofWords ((List.range 10).map fun n => (SMap.get 0 s.me.k (1014 - 768 + n)).toNat)).rank = 0 ∧
    s.vReady (.vmapPerm h0 3 1 655) h0 [655] 0 ∧ s.vReady (.vmapShift h0 3 3 1 773) h0 [773] 0 ∧
    s.vReady (.vmapSlice h0 1 3 1 773) h0 [773] 0 ∧ s.me.mapOf 4 = .opaque 4 ∧
    (s.me.mapOf 1).parent = some { AffMap.dflt with rank := 2, ext := [4, 4, 1, 1] } ∧ 0 ≤ sval 32 (s.vpar 773) ∧
    sval 32 (s.vpar 773) + fld (s.vpar 773) 32 32 ≤
      (AffMap.extent { AffMap.dflt with rank := 2, ext := [4, 4, 1, 1] } 1 : Int) ∧
    s.vReady (.vmapSlice h0 2 3 1 773) h0 [773] 0 ∧ s.vReady (.vmapSlice h0 0 3 1 655) h0 [655] 0 :=
  ⟨vReady_of (by decide +kernel), by decide +kernel, by decide +kernel, vReady_of (by decide +kernel), by decide +kernel,
    vReady_of (by decide +kernel), vReady_of (by decide +kernel), vReady_of (by decide +kernel), by decide +kernel,
    by decide +kernel, by decide +kernel, by decide +kernel, vReady_of (by decide +kernel), vReady_of (by decide +kernel)⟩

theorem wit_VmapqReportsTheMap : let s := mapSt
    s.vReady (.vmapq h0 .elt false 1 511) h0 [] 0 ∧ s.vReady (.vmapq h0 .desc true 4 0) h0 [] 0 ∧
    (s.me.queue 3).length + 10 ≤ 16 ∧ (s.me.creg 0x004).getLsbD 0 = false ∧ (s.me.mapOf 4).parent = none ∧
    s.vReady (.vmapq h0 .kind false 1 0) h0 [] 0 ∧ ∃ p, s.me.mapOf 1 = .affine p :=
  ⟨vReady_of (by decide +kernel), vReady_of (by decide +kernel), by decide, by decide, by decide, vReady_of (by decide +kernel),
    _, rfl⟩

theorem wit_SequencerWords :
    ((sA id).lsetReady (.lsetLoop h0 .imm 255 0xFFFFF) h0 .imm 0xFFFFF ∧ loopOk (sA id).strm 255 = true) ∧
    ((sA id).lsetReady (.lsetLoop h0 .reg 1 5) h0 .reg 5 ∧ (sA id).lsetVal .reg 5 % 2 ^ 32 = 0) ∧
    (let s := sV fun c => { c with sV := { strm0 with seqr := List.replicate 6 ⟨2, 0, 0x1000, 9⟩ } }
     s.lsetReady (.lsetLoop h0 .imm 1 1) h0 .imm 1 ∧ 6 ≤ s.strm.seqr.length) ∧
    mapSt.lsetReady (.lsetView h0 .q 31 21 0) h0 .q 0 ∧
    (let s := (sV id).poke (scratchPa 0 0x1008) (leBytes 8 0x0000200010040800)
     s.ready (.rpt h0 255 0 0 0) h0 = true ∧ s.strm.seqr = [] ∧
      s.settledBytes (scratchPa s.curCore (s.strm.plus s.strm.pc 8).toNat) 8 ∧ s.bufs = [] ∧ s.me.inIter = false ∧
      rptTarget (s.ownNat (s.strm.plus s.strm.pc 8).toNat 8) = true) ∧
    rptTarget ((sV id).ownNat ((sV id).strm.plus (sV id).strm.pc 8).toNat 8) = false ∧
    (let s := sV fun c => { c with sV := { strm0 with seqr := [⟨2, 0, 0x1000, 1⟩] } }
     s.ready (.rpt h0 2 0 0 0) h0 = true ∧ ∃ l ∈ s.strm.seqr.head?, l.holds s.strm s.strm.pc = true ∧
      s.strm.dist l.body s.strm.pc + 8 = 8 * l.len) := by
  refine ⟨⟨⟨by decide, by decide, by decide, trivial⟩, by decide⟩, ⟨⟨by decide, by decide, by decide, .inl rfl⟩, by decide⟩,
    ⟨⟨by decide, by decide, by decide, trivial⟩, by decide⟩, ⟨by decide, by decide +kernel, by decide, by decide⟩,
    ⟨by decide, by decide, settled0 rfl, by decide, by decide, by decide⟩, by decide, by decide, ⟨⟨2, 0, 0x1000, 1⟩, by decide⟩⟩

/-! Words of M. -/

/-- Tile 0 is the first 2 rows and columns of f64 cells, tile 1 the next two rows; compression comp; view 2 is a matrix
of 8 by 8 f64 at 0x1000 that holds 3, view 3 at 0x2000 the table of one group; the weight buffer holds 2. -/
def mst (comp : Nat) : State :=
  ((sM fun c => { c with
    plane := (if comp = 0 then ([] : SMap (BitVec 48)) else [(3, BitVec.ofNat 48 comp)]) ++
      ([(tileField 0 2, 1), (tileField 0 3, 1), (tileField 1 0, 2), (tileField 1 2, 1), (tileField 1 3, 1)] : SMap (BitVec 48)),
    cell := [(0, 0x3FF0000000000000)], wbuf := [(0, 0x4000000000000000), (1, 0x4000000000000000)],
    vw := [(2, BitVec.ofNat 1024 (0x1000 + 1 * 2 ^ 64 + 2 * 2 ^ 72 + 8 * 2 ^ 128 + 8 * 2 ^ 160 + 8 * 2 ^ 256 + 64 * 2 ^ 320)),
           (3, 0x2000)] }).poke (scratchPa 0 0x1000) (leBytes 8 0x4008000000000000)).poke (scratchPa 0 0x2000)
    (leBytes 8 1 ++ leBytes 8 0x10001)

theorem mst_reads {s : State} (h : s = mst 0 ∨ s = mst 1) (va n : Nat) (hn : va + n ≤ 0x400000) : s.canRead va n := by
  rcases h with rfl | rfl <;> exact canRead0 (by decide) (by decide) (by decide) hn (by decide) (by decide) (by decide)

theorem mst_writes {s : State} (h : s = mst 0 ∨ s = mst 1) (va n : Nat) (hn : va + n ≤ 0x400000) : s.canWrite va n := by
  rcases h with rfl | rfl <;>
    exact canWrite0 (by decide) (by decide) (by decide) hn (by decide) (by decide) (by decide) (by show _ = _; decide)

def mcell (i : Instr) (s : State) (k : Nat) : Word := SMap.get 0 (next (exec i s)).me.cell k

/-- 1 + 3 * 2 = 7. -/
theorem test_mma : mcell (.mma h0 false false .f64 0 2 0 1) (mst 0) 0 = 0x401C000000000000 := by decide +kernel
theorem test_mma_zero : mcell (.mma h0 false true .f64 0 2 0 1) (mst 0) 0 = 0x4018000000000000 := by decide +kernel
theorem test_msma_needs_compression : wfld ((next (exec (.msma h0 false false .f64 0 2 0 4) (mst 0))).me.creg 0x011) 0 5 = 1 := by
  decide +kernel
/-- The table gives the first row block 1. -/
theorem test_mgrp : mcell (.mgrp h0 false .f64 0 2 1 1) ((mst 0)) 0 = 0x3FF0000000000000 := by decide +kernel
theorem test_mzero : mcell (.mzero h0 0) (mst 0) 0 = 0 := by decide +kernel
theorem test_mldw : SMap.get 0 (next (exec (.mldw h0 .f64 0 2 5 1) (mst 0))).me.wbuf 5 = 0x4008000000000000 := by decide +kernel
theorem test_acopy_add : mcell (.acopy h0 false true 0 1) (mst 0) 256 = 0x3FF0000000000000 := by decide +kernel
theorem test_mdrain : (next (exec (.mdrain h0 false true false false false 0 2) (mst 0))).peek (scratchPa 0 0x1000) 8 =
    [0, 0, 0, 0, 0, 0, 0xF0, 0x3F] := by decide +kernel
theorem test_mdrain_transposed : (next (exec (.mdrain h0 true true false false false 0 2)
    ({ mst 0 with cores := [(0, { (mst 0).me with cell := [(1, 0x3FF0000000000000)] })] }))).peek (scratchPa 0 0x1046) 2 =
    [0xF0, 0x3F] := by decide +kernel
theorem test_vsal : (SMap.get 0 (next (exec (.vsal h0 .p2of4 .f64 2 3 1 2)
    (vst 64 [0x3FF0000000000000, 0x4000000000000000, 0, 0] [0x3FF0000000000000, 0x3FF0000000000000, 0, 0] 0))).me.p 2).toNat % 16 = 3 := by
  decide +kernel

theorem mst_aFits {s : State} (hs : s = mst 0 ∨ s = mst 1) {v : ViewVal} {f : MFmt} {tr : Bool} {K n : Nat}
    (hp : ∀ r < n, ∀ q ∈ aPlaces v f tr K r, q.1 + q.2 ≤ 0x400000 ∧ (s.fmtAt v q.1 = 0 ∨ s.fmtAt v q.1 = mfmtBank f)) :
    ∀ r < n, s.aFits v f tr K r := fun r hr q hq => ⟨mst_reads hs _ _ (hp r hr q hq).1, (hp r hr q hq).2⟩

theorem mst_fits : (mst 0).tileFits 0 ∧ (mst 0).tileFits 1 ∧ (mst 1).tileFits 0 := by
  unfold State.tileFits; dsimp only; decide
theorem mst_blocks : (mst 0).blockFits 0 2 0 ∧ (mst 0).blockFits 1 2 1 ∧ (mst 0).blockFits 5 2 0 ∧ (mst 1).blockFits 0 2 0 ∧ (mst 0).blockFits 1 0 0 := by
  unfold State.blockFits; dsimp only; decide

theorem wit_ProductWordsAccumulate : let s := mst 0
    s.tileFits 0 ∧ accOk .f64 (s.tileAt 0) = true ∧ s.me.wbFmt.1 = mfmtCode .f64 ∧ s.me.wbFmt.2 = 0 ∧ (s.viewM 2).rank = 2 ∧
    s.mReady (.mma h0 false true .f64 0 2 0 1) h0 ∧ (s.waited (.mma h0 false true .f64 0 2 0 1) h0).viewSettled 2 ∧
    s.blockFits 0 2 0 ∧ (∀ r < 2, s.aFits (s.viewM 2) .f64 false 1 r) ∧
    s.mReady (.mgrp h0 false .f64 0 2 1 1) h0 ∧ (s.waited (.mgrp h0 false .f64 0 2 1 1) h0).viewSettled 2 ∧
    (s.waited (.mgrp h0 false .f64 0 2 1 1) h0).viewSettled 3 ∧ (s.viewM 3).base % 8 = 0 ∧
    s.ownNat (s.viewM 3).base 8 % 128 = 1 ∧ s.canRead (s.viewM 3).base 16 ∧ s.blockFits 1 0 0 ∧ s.blockFits 1 2 1 ∧
    (mst 1).mReady (.msma h0 true false .f64 0 2 0 4) h0 ∧ (mst 1).me.wbFmt = (0, 1) ∧ (mst 1).tileFits 0 ∧
    (mst 1).blockFits 0 2 0 ∧ (∀ r < 2, (mst 1).aFits ((mst 1).viewM 2) .f64 true 4 r) :=
  ⟨mst_fits.1, by decide, by decide, by decide, by decide +kernel,
    ⟨by decide, by decide, by decide, ⟨by decide, by decide⟩, by decide, by decide⟩, ⟨by decide +kernel, by decide +kernel⟩,
    mst_blocks.1, mst_aFits (.inl rfl) (by decide +kernel),
    ⟨by decide, by decide, by decide, ⟨by decide, by decide⟩, by decide, by decide⟩, ⟨by decide +kernel, by decide +kernel⟩,
    ⟨by decide +kernel, by decide +kernel⟩, by decide +kernel, by decide +kernel, mst_reads (.inl rfl) _ _ (by decide +kernel), mst_blocks.2.2.2.2, mst_blocks.2.1,
    ⟨by decide, by decide, by decide, ⟨by decide, by decide⟩, by decide, by decide⟩, by decide, mst_fits.2.2, mst_blocks.2.2.2.1,
    mst_aFits (.inr rfl) (by decide +kernel)⟩

theorem wit_TileWordsLoadClearAndCopy : let s := mst 0
    s.mReady (.mzero h0 0) h0 ∧ s.tileFits 0 ∧ s.tileFits 1 ∧ s.mReady (.mldw h0 .f64 0 2 5 1) h0 ∧
    (s.waited (.mldw h0 .f64 0 2 5 1) h0).viewSettled 2 ∧ s.me.wbFmt = (mfmtCode .f64, 0) ∧ s.blockFits 5 2 0 ∧
    SMap.rising 0 s.me.wbuf = true ∧
    (∀ j < 2, s.canRead (strideAt (s.viewM 2).base j ((s.viewM 2).str.getD 1 0) 0 0) 8 ∧
      imageOk .f64 0 1 (s.ownNat (strideAt (s.viewM 2).base j ((s.viewM 2).str.getD 1 0) 0 0) 8) = true) ∧
    s.mReady (.acopy h0 true true 0 1) h0 ∧ SMap.rising 0 s.me.plane = true ∧
    (s.tileAt 1).rows = (s.tileAt 0).cols ∧ (s.tileAt 1).cols = (s.tileAt 0).rows := by
  have far : ∀ j < 2, strideAt ((mst 0).viewM 2).base j (((mst 0).viewM 2).str.getD 1 0) 0 0 + 8 ≤ 0x400000 := by decide +kernel
  exact ⟨⟨by decide, by decide, by decide, ⟨by decide, by decide⟩, by decide, by decide⟩, mst_fits.1, mst_fits.2.1,
    ⟨by decide, by decide, by decide, ⟨by decide, by decide⟩, by decide, by decide⟩, ⟨by decide +kernel, by decide +kernel⟩,
    by decide, mst_blocks.2.2.1, by decide, fun j hj => ⟨mst_reads (.inl rfl) _ _ (far j hj), rfl⟩,
    ⟨by decide, by decide, by decide, ⟨by decide, by decide⟩, by decide, by decide⟩, by decide, by decide, by decide⟩

theorem wit_MdrainStoresTheTile : let s := mst 0
    s.mReady (.mdrain h0 false true true true false 0 2) h0 ∧ (s.waited (.mdrain h0 false true true true false 0 2) h0).viewSettled 2 ∧
    s.me.drain = none ∧ s.tileFits 0 ∧ SMap.rising 0 s.me.q = true ∧ (s.viewM 2).rank = 2 ∧ (s.tileAt 0).cols ≤ (s.viewM 2).ext.getD 0 0 ∧
    (s.viewM 2).fmt < 12 ∧ s.fmtAt (s.viewM 2) (s.viewM 2).base = 1 ∧
    (∀ q ∈ s.drained (s.tileAt 0) (s.viewM 2) false, s.fmtAt (s.viewM 2) q.1 < 9) ∧ s.me.pf 0x403 ≤ 64 ∧
    s.me.pf 0x404 % 8 = 0 ∧ s.ownScratch (s.me.pf 0x404) (128 * s.me.pf 0x403) ∧ (s.me.queue 15).length < 16 ∧
    s.me.pf 0x406 = 0 ∧ (∀ q ∈ s.drained (s.tileAt 0) (s.viewM 2) false, s.canWrite q.1 q.2.length) ∧
    (s.me.pf 0x400).testBit 1 = false := by
  have far : ∀ q ∈ (mst 0).drained ((mst 0).tileAt 0) ((mst 0).viewM 2) false, q.1 + q.2.length ≤ 0x400000 := by decide +kernel
  exact ⟨⟨by decide, by decide, by decide, ⟨by decide, by decide⟩, by decide, by decide⟩, ⟨by decide +kernel, by decide +kernel⟩,
    by decide, mst_fits.1, by decide, by decide +kernel, by decide +kernel, by decide +kernel, by decide +kernel, by decide +kernel, by decide,
    by decide, allBanks (by decide) (by decide) (by decide) (by decide), by decide, by decide,
    fun q hq => mst_writes (.inl rfl) _ _ (far q hq), by decide⟩

theorem wit_VsalKeepsTheMostSalient : let s := vst 64 [1] [2] 0
    s.vReady (.vsal h0 .p2of4 .f64 2 3 1 2) h0 [1, 2] 0 ∧ (s.vview (s.me.refMap (regsOf [1, 2]) 3) 0).chk = false :=
  ⟨vReady_of (by decide +kernel), by decide +kernel⟩
/-! Engines. -/

/-- Core 0 with a command in the queue of engine e, and bytes at 0x100. -/
def engSt (e : Nat) (m : Cmd) (b : List Byte) : State :=
  (sC fun c => { c with eq := [(e, [m])] }).poke (scratchPa 0 0x100) b

def evMem (i : Instr) (s : State) (va n : Nat) : List Byte := (next (exec i s)).peek (scratchPa 0 va) n

def evReply (i : Instr) (s : State) (q : Nat) : List Word := ((next (exec i s)).me.queue q).map fun e => lo64 e.img

/-- Four bytes from 0x100 to 0x1FE: two beats, since the destination crosses a 256-byte boundary; a reply is asked for. -/
def linSt : State := engSt 0 (ecmd 0 4 0x100 0x1FE 0x1000000000000000) [1, 2, 3, 4]

theorem test_copyLin_first_beat : evMem (.copyLin 0 1) linSt 0x1FE 4 = [1, 2, 0, 0] := by decide +kernel
theorem test_copyLin_reply : evReply (.copyLin 0 9) linSt 8 = [0x40001] := by decide +kernel
/-- Two rows of 2 bytes, strides of 0 and of 2 units of 64 bytes. -/
theorem test_copyRect : evMem (.copyRect 0 9)
    (engSt 0 (ecmd 0 (1 * 2 ^ 61 + 1 * 2 ^ 48 + 2 * 2 ^ 14 + 1) 0x100 0x200 0) [5, 6])
    0x280 3 = [5, 6, 0] := by decide +kernel
theorem test_copyFill : evMem (.copyFill 0 9) (engSt 0 (ecmd 0 (2 * 2 ^ 61 + 3) 0x030201 0x200 0) []) 0x200 4 = [1, 2, 3, 0] := by decide +kernel

/-- Two elements of one byte: indices 3 and 9 of four at 0x1A0; chain block at 0x100, index array at 0x180. -/
def idxSt (op : Nat) : State :=
  ((engSt 1 (ecmd 1 (BitVec.ofNat 64 (op * 2 ^ 62 + 1 * 2 ^ 60 + 2)) 0x100 0x180 (BitVec.ofNat 64 (1 * 2 ^ 58 + 0x300)))
    (leBytes 8 0x1A0 ++ leBytes 8 4)).poke (scratchPa 0 0x180) [3, 0, 0, 0, 9, 0, 0, 0]).poke (scratchPa 0 0x1A0) [10, 11, 12, 13]

theorem test_indexGat : evMem (.indexGat 0 9) ((idxSt 0).poke (scratchPa 0 0x301) [7]) 0x300 2 = [13, 0] := by decide +kernel
theorem test_indexGat_reply : evReply (.indexGat 0 9) (idxSt 0) 9 = [0x200000001] := by decide +kernel
theorem test_indexSct : evMem (.indexSct 0 9) ((idxSt 1).poke (scratchPa 0 0x300) [7, 8]) 0x1A0 4 = [10, 11, 12, 7] := by decide +kernel

/-- A selection of mode n over two i32 elements 5 and -2 at 0x100, to 0x200; condition and digit or capacity. -/
def selSt (n cond dig cap : Nat) (opnd : Word) : State :=
  engSt 2 (ecmd 2 (BitVec.ofNat 64 (n * 2 ^ 62 + 5 * 2 ^ 59 + cond * 2 ^ 56 + dig * 2 ^ 52 + cap * 2 ^ 32 + 2)) 0x100 0x200 opnd)
    (leBytes 4 5 ++ leBytes 4 0xFFFFFFFE)

/-- x < 0: the second element, with its index. -/
theorem test_selPred : evMem (.selPred 0 9) (selSt 0 2 0 0 0) 0x200 8 = [0xFE, 0xFF, 0xFF, 0xFF, 1, 0, 0, 0] := by decide +kernel
theorem test_selTopk_max : evMem (.selTopk 0 9) (selSt 1 0 0 1 0) 0x200 8 = [5, 0, 0, 0, 0, 0, 0, 0] := by decide +kernel
theorem test_selFilt_reply : evReply (.selFilt 0 9) (selSt 3 5 7 1 0) 10 = [0x100010001] := by decide +kernel
/-- Top digits of the keys: 8 of 5 and 7 of -2. -/
theorem test_selHist : evMem (.selHist 0 9) (selSt 2 0 7 0 0) 0x21C 8 = [1, 0, 0, 0, 1, 0, 0, 0] := by decide +kernel

/-- A sum of two buffers of one i32 at 0x180 and 0x184 to 0x190. -/
def redSt : State :=
  (engSt 3 (ecmd 3 0x100 0x10 0 0) (leBytes 8 (5 * 2 ^ 58 + 1 * 2 ^ 48 + 1) ++ leBytes 8 0x190 ++ leBytes 48 0 ++
    leBytes 8 0x180 ++ leBytes 8 0x184)).poke (scratchPa 0 0x180) (leBytes 4 0xFFFFFFFF ++ leBytes 4 3)

theorem test_reduceCommand : evMem (.reduceCommand 0 9) redSt 0x190 4 = [2, 0, 0, 0] := by decide +kernel
theorem test_reduceCommand_reply : evReply (.reduceCommand 0 9) redSt 11 = [0x100000001] := by decide +kernel

theorem wit_CopyEngineLandsItsBytes :
    (let s := linSt
     let m := ecmd 0 4 0x100 0x1FE 0x1000000000000000
     m.copyKind = 0 ∧ s.engineTakes 0 0 (.ofCmd m) ∧ m.converts = false ∧ SMap.rising 0 (s.core 0).run = true ∧
      SMap.rising 0 (s.core 0).eq = true ∧ SMap.rising 0 (s.core 0).q = true ∧ SMap.rising 0 s.cores = true ∧ (s.core 0).st ≠ .idle ∧
      (s.seenBy 0).canRead 0x100 2 ∧ (s.seenBy 0).canWrite 0x1FE 2) ∧
    (let m := ecmd 0 (2 * 2 ^ 61) 0 0x200 0x1000000000000000
     let s := engSt 0 m []
     m.copyKind = 2 ∧ s.engineTakes 0 0 (.ofCmd m) ∧ m.rows * m.rowLen ≤ 0 ∧ (s.core 0).qHasSpace 8 = true) :=
  ⟨⟨by decide, ⟨by decide, by decide, by decide, by decide, by decide, by decide, by decide⟩, by decide, by decide, by decide,
    by decide, by decide, by decide,
    canRead0 (by decide) (by decide) (by decide) (by decide) (by decide) (by decide) (by decide),
    canWrite0 (by decide) (by decide) (by decide) (by decide) (by decide) (by decide) (by decide) (by show _ = _; decide)⟩,
   by decide, ⟨by decide, by decide, by decide, by decide, by decide, by decide, by decide⟩, by decide, by decide⟩

theorem idx_reads {op va n : Nat} (ho : op = 0 ∨ op = 1) (h : va + n ≤ 0x400000) : ((idxSt op).seenBy 0).canRead va n := by
  rcases ho with rfl | rfl <;>
    exact canRead0 (by decide) (by decide) (by decide) h (by decide) (by decide) (by decide)

theorem wit_IndexEngineMovesElements : let s := idxSt 0
    let m := ecmd 1 (BitVec.ofNat 64 (0 * 2 ^ 62 + 1 * 2 ^ 60 + 2)) 0x100 0x180 (BitVec.ofNat 64 (1 * 2 ^ 58 + 0x300))
    let chain := (s.seenBy 0).ownWords 0x100 6
    m.idxOp = 0 ∧ s.engineTakes 0 1 (.ofCmd m) ∧ (s.seenBy 0).canRead 0x100 48 ∧ SMap.rising 0 (s.core 0).run = true ∧
    SMap.rising 0 (s.core 0).eq = true ∧ SMap.rising 0 (s.core 0).q = true ∧ SMap.rising 0 s.cores = true ∧
    (s.core 0).st ≠ .idle ∧ 0 < m.idxN ∧ (s.seenBy 0).canRead 0x180 4 ∧
    (s.seenBy 0).idxFinds m chain 3 1 ((s.seenBy 0).ownNat 0x180 4) false (3, false, false) ∧
    (s.seenBy 0).canRead 0x1A3 1 ∧ (s.seenBy 0).canWrite 0x300 1 ∧
    -- an index outside its bound
    (s.seenBy 0).idxFinds m chain 3 1 ((s.seenBy 0).ownNat 0x184 4) false (9, true, false) ∧
    -- all elements done
    (let t := sC fun c => { c with run := [(1, some ⟨m, 2, 1, [1, 3, 0, 0, 0, 0x1A0, 4, 0, 0, 0, 0], 0, none⟩)] }
     t.engineTakes 0 1 ⟨m, 2, 1, [1, 3, 0, 0, 0, 0x1A0, 4, 0, 0, 0, 0], 0, none⟩ ∧ m.idxN ≤ 2 ∧ (t.core 0).qHasSpace 9 = true) :=
  ⟨by decide, ⟨by decide, by decide, by decide, by decide, by decide, by decide, by decide⟩, idx_reads (.inl rfl) (by decide),
    by decide, by decide, by decide, by decide, by decide, by decide, idx_reads (.inl rfl) (by decide),
    by unfold State.idxFinds; dsimp only; rw [if_neg (by decide), if_neg (by decide), if_neg (by decide)]; decide, idx_reads (.inl rfl) (by decide),
    canWrite0 (by decide) (by decide) (by decide) (by decide) (by decide) (by decide) (by decide) (by show _ = _; decide),
    by unfold State.idxFinds; dsimp only; rw [if_neg (by decide), if_pos (by decide)]; decide,
    ⟨by decide, by decide, by decide, by decide, by decide, by decide, by decide⟩, by decide, by decide⟩

/-- The selection engine of stack 0 holds a run of core 0. -/
def selBusy (r : Run) : State := { selSt 0 2 0 0 0 with sel := [(0, ⟨some (0, r), 0, [], none⟩)] }

theorem wit_SelectionEngineScansAndReplies :
    (let s := selSt 0 2 0 0 0
     let m := ecmd 2 (BitVec.ofNat 64 (0 * 2 ^ 62 + 5 * 2 ^ 59 + 2 * 2 ^ 56 + 2)) 0x100 0x200 0
     s.nearTakes 2 0 (.ofCmd m) ∧ SMap.rising 0 s.cores = true ∧ SMap.rising 0 s.sel = true ∧ SMap.rising 0 (s.core 0).q = true ∧
      (s.core 0).st ≠ .idle ∧ m.w1.toNat % (m.selTy.width / 8) = 0 ∧
      meets m.w1.toNat (m.selN * (m.selTy.width / 8)) m.selDst m.selSize = false ∧ (s.seenBy 0).ownScratch m.selDst m.selSize ∧
      (let r : Run := ⟨m, 0, 0, [1, 0, 0], 0, none⟩
       (selBusy r).nearTakes 2 0 r ∧ ¬ (256 - (m.selDst + 0) % 256 ≤ 0) ∧ 0 < m.selN ∧ ((selBusy r).seenBy 0).canRead 0x100 4) ∧
      (let r : Run := ⟨m, 2, 0, [1, 1, 0, 1, 0, 0, 0, 0, 0, 0, 0], 0, none⟩
       (selBusy r).nearTakes 2 0 r ∧ m.selN ≤ r.pos) ∧
      (let r : Run := ⟨m, 2, 0, [2, 1, 0, 1, 0, 0, 0, 0, 0, 0, 0], 0, none⟩
       (selBusy r).nearTakes 2 0 r ∧ ((selBusy r).seenBy 0).canWrite m.selDst 8) ∧
      (let r : Run := ⟨m, 2, 8, [2, 1, 0], 0, none⟩
       (selBusy r).nearTakes 2 0 r) ∧
      (let r : Run := ⟨m, 2, 16, [3, 1, 0], 0, none⟩
       (selBusy r).nearTakes 2 0 r ∧ ((selBusy r).core 0).qHasSpace 10 = true)) :=
  ⟨⟨by decide, by decide, by decide, by decide, by decide, .inr ⟨by decide, by decide, by decide⟩⟩, by decide, by decide, by decide,
    by decide, by decide, by decide, allBanks (by decide) (by decide) (by decide) (by decide),
    ⟨⟨by decide, by decide, by decide, by decide, by decide, .inl ⟨by decide, by decide⟩⟩, by decide, by decide,
      canRead0 (by decide) (by decide) (by decide) (by decide) (by decide) (by decide) (by decide)⟩,
    ⟨⟨by decide, by decide, by decide, by decide, by decide, .inl ⟨by decide, by decide⟩⟩, by decide⟩,
    ⟨⟨by decide, by decide, by decide, by decide, by decide, .inl ⟨by decide, by decide⟩⟩,
      canWrite0 (by decide) (by decide) (by decide) (by decide) (by decide) (by decide) (by decide) (by show _ = _; decide)⟩,
    ⟨by decide, by decide, by decide, by decide, by decide, .inl ⟨by decide, by decide⟩⟩,
    ⟨by decide, by decide, by decide, by decide, by decide, .inl ⟨by decide, by decide⟩⟩, by decide⟩

/-- The reduction engine of stack 0 holds a run of core 0. -/
def redBusy (r : Run) : State := { redSt with red := [(0, ⟨some (0, r), 0, [], none⟩)] }

/-- A draw of slot 5 with two candidates at 0x100. -/
def drawSt : State :=
  { smpSt with cores := [(0, { smpSt.me with eq := [(4, [{ ecmd 4 (5 * 2 ^ 56) 0x100 0 0 with key := some (smpSt.me.genC, 0) }])] })] }

theorem wit_ReductionEngineAndSamplerCommands :
    (let s := redSt
     let m := ecmd 3 0x100 0x10 0 0
     let c := s.seenBy 0
     let b := c.ownWords 0x100 10
     s.nearTakes 3 0 (.ofCmd m) ∧ SMap.rising 0 s.cores = true ∧ SMap.rising 0 s.red = true ∧ (s.core 0).st ≠ .idle ∧
      fld (c.ownNat 0x100 8) 48 4 + 1 = 2 ∧ c.canRead 0x100 80 ∧ redOp_ b < 3 ∧ redFmt b < 6 ∧
      b.getD 1 0 % 4 = 0 ∧ (∀ p ∈ redBufs b, p % 4 = 0) ∧ b.getD 2 0 % 8 = 0 ∧ b.getD 4 0 = 0 ∧
      (∀ p ∈ redBufs b, meets (b.getD 1 0) (redN b * 4) p (redN b * 4) = false) ∧
      (let r : Run := ⟨m, 0, 0, b, 0, none⟩
       (redBusy r).nearTakes 3 0 r ∧ r.pos < redN b ∧ (∀ p ∈ redBufs b, ((redBusy r).seenBy 0).canRead p 4) ∧
        ((redBusy r).seenBy 0).canWrite (b.getD 1 0) 4) ∧
      (let r : Run := ⟨m, 1, 0, b, 0, none⟩
       (redBusy r).nearTakes 3 0 r ∧ redN b ≤ r.pos ∧ ((redBusy r).seenBy 0).me.framed = false ∧
        ((redBusy r).core 0).qHasSpace 11 = true)) ∧
    (let s := drawSt
     let m := { ecmd 4 (5 * 2 ^ 56) 0x100 0 0 with key := some (smpSt.me.genC, 0) }
     let x := SMap.get Slot.reset (s.core 0).smp 5
     s.engineTakes 0 4 (.ofCmd m) ∧ s.thermStop = false ∧ (s.core 0).st ≠ .idle ∧ SMap.rising 0 s.cores = true ∧
      SMap.rising 0 (s.core 0).smp = true ∧ x.st = 1 ∧ (s.seenBy 0).canRead 0x100 8 ∧
      drawToken .tmp 0 (keyed smpSt.me.genC (5 * 2 ^ 32 + x.pos : Nat) 0 % 2 ^ 32) ((s.seenBy 0).ownWords 0x100 1) [] = some 7 ∧
      (s.core 0).qHasSpace 12 = true) := by
  have two : ∀ p ∈ redBufs ((redSt.seenBy 0).ownWords 0x100 10), p + 4 ≤ 0x400000 := by decide
  refine ⟨⟨⟨by decide, by decide, by decide, by decide, by decide, .inr ⟨by decide, by decide, by decide⟩⟩, by decide, by decide,
    by decide, by decide, canRead0 (by decide) (by decide) (by decide) (by decide) (by decide) (by decide) (by decide),
    by decide, by decide, by decide, by decide, by decide, by decide, by decide,
    ⟨⟨by decide, by decide, by decide, by decide, by decide, .inl ⟨by decide, by decide⟩⟩, by decide, fun p hp =>
      canRead0 (by decide) (by decide) (by decide) (two p hp) (by decide) (by decide) (by decide),
      canWrite0 (by decide) (by decide) (by decide) (by decide) (by decide) (by decide) (by decide) (by show _ = _; decide)⟩,
    ⟨by decide, by decide, by decide, by decide, by decide, .inl ⟨by decide, by decide⟩⟩, by decide, by decide, by decide⟩,
   ⟨by decide, by decide, by decide, by decide, by decide, by decide, by decide⟩, by decide, by decide, by decide, by decide, by decide,
    canRead0 (by decide) (by decide) (by decide) (by decide) (by decide) (by decide) (by decide), by decide +kernel, by decide⟩
/-! Events of cores. -/

/-- A run of engine e whose reply waits. -/
def waits (e : Nat) : Run := ⟨ecmd e 0 0 0 0, 0, 0, [], 0, some (ent 9)⟩

def mark (j gen : Nat) : Cmd := { ecmd 2 0 0 0 0 with kind := .marker j gen }

def replySt (f : Core → Core) : State := sC fun c => f { c with
  run := [(1, some (waits 1))], eq := [(2, [mark 3 6])], rdv := [(3, ⟨false, 4, 6, [], 4⟩), (5, ⟨false, 4, 1, [], 4⟩)] }

theorem test_engineReplyPush : evReply (.engineReplyPush 0 1) (replySt id) 9 = [9] := by decide +kernel
theorem test_engineReplyPush_full : ((next (exec (.engineReplyPush 0 1) (replySt fun c =>
    { c with q := [(9, full 16)] }))).me.runOf 1).isSome = true := by decide +kernel
theorem test_markerRetire : (SMap.get Rdv.reset (next (exec (.markerRetire 0 2) (replySt id))).me.rdv 3).fired = true := by decide
theorem test_markerRetire_other_generation : (SMap.get Rdv.reset (next (exec (.markerRetire 0 2) (replySt fun c =>
    { c with eq := [(2, [mark 3 5])] }))).me.rdv 3).fired = false := by decide

theorem wit_HeldRepliesArePushedAndMarkersRetire : let s := replySt id
    (s.core 0).goesOn = true ∧ s.cohortHeld 0 = false ∧ (s.core 0).orderly ∧ (s.core 0).qHasSpace 9 = true ∧
    (s.core 0).runOf 1 = some (waits 1) ∧ s.nothingAhead 0 2 (mark 3 6) = true ∧ (s.core 0).equeue 2 = mark 3 6 :: [] :=
  ⟨by decide, by decide, ⟨by decide, by decide, by decide, by decide, by decide, by decide⟩, by decide, by decide, by decide, by decide⟩

/-- Core 0 coupled to core 1, with something changed in core 0. -/
def pairSt (f : Core → Core) : State :=
  { sC id with cores := [(0, f (core0.setCreg 0x21 0x20100010000)), (1, core0)] }

theorem test_coupledSignalArrival : ((next (exec (.coupledSignalArrival 0) (pairSt fun c =>
    { c with flight := [(7, 1, 0, [])] }))).core 1).count 7 = 1 := by decide
theorem test_mailboxTransfer : (((next (exec (.mailboxTransfer 0) (pairSt fun c =>
    { c with q := [(14, [ent 6])] }))).core 1).queue 13).map QEnt.img = [6] := by decide
theorem test_ldqDataArrival : (((next (exec (.ldqDataArrival 0 1) (sC fun c =>
    { c with q := [(1, [ent 1, ⟨2, false, [], 5⟩])] }))).me.queue 1).map QEnt.ready) = [true, true] := by decide

theorem wit_SignalsMailAndQueueDataArrive :
    (let s := pairSt fun c => { c with flight := [(7, 65535, 0, [])] }
     (s.core 0).orderly ∧ (s.core 1).orderly ∧ SMap.rising 0 s.cores = true ∧ s.mate 0 = .there 1 ∧
      (s.core 0).flight = (7, 65535, 0, []) :: [] ∧ (s.core 1).count 7 + 65535 ≤ 65535) ∧
    (let s := pairSt fun c => { c with q := [(14, [⟨6, true, [], 63⟩])] }
     (s.core 0).orderly ∧ s.mate 0 = .there 1 ∧ (s.core 0).queue 14 = ⟨6, true, [], 63⟩ :: [] ∧ (s.core 1).qHasSpace 13 = true ∧ (s.core 1).count 63 < 65535) ∧
    (let s := sC fun c => { c with q := [(1, [ent 1, ⟨2, false, [], 63⟩])] }
     (s.core 0).orderly ∧ (s.core 0).queue 1 = [ent 1] ++ ⟨2, false, [], 63⟩ :: [] ∧ (s.core 0).count 63 < 65535 ∧ (s.core 0).st ≠ .idle) :=
  ⟨⟨⟨by decide, by decide, by decide, by decide, by decide, by decide⟩, ⟨by decide, by decide, by decide, by decide, by decide, by decide⟩,
      by decide, by decide, by decide, by decide⟩,
   ⟨⟨by decide, by decide, by decide, by decide, by decide, by decide⟩, by decide, by decide, by decide, by decide⟩,
   ⟨⟨by decide, by decide, by decide, by decide, by decide, by decide⟩, by decide, by decide, by decide⟩⟩

/-- Engines 1 and 3 have an interrupt pending, and 3 and 1 are enabled. -/
def uiSt : State := sC fun c => { ((c.setCreg 0x15 0x2000).setCreg 0x17 0x0A).setCreg 0x18 (BitVec.ofNat 64 (2 ^ 59 + 2 ^ 61)) with
  uiTag := [(1, 0x48)], shadow := [(56, 5)] }

theorem test_userInterruptEntry_lowest : wfld ((next (exec (.userInterruptEntry 0) uiSt)).me.creg 0x18) 55 3 = 1 := by decide
theorem test_coreStop_waits : (next (exec (.coreStop 0) (sC id))).me.st = .running := by decide
theorem test_preemptHorizon_enters : (next (exec (.preemptHorizon 0) (sC fun c =>
    { (c.setCreg 0x10 0x4000) with horizon := some 0 }))).strm.pc = 0x4040 := by decide

theorem wit_InterruptsAndStopsAreTakenBetweenWords :
    (let s := uiSt
     (s.core 0).orderly ∧ (s.core 0).st ≠ .idle ∧ s.stopDue 0 = false ∧ s.uiReady 0 = true ∧ (s.core 0).uiEngine = some 1 ∧
      (s.core 0).sC.popped = [] ∧ (s.core 0).sC.taken = none ∧ (s.core 0).betweenWords = true ∧
      (∀ p ∈ (s.core 0).shadow, 56 ≤ p.1)) ∧
    (let s := sC fun c => { c with pend := some ⟨none, 2, false, none, none⟩ }
     s.stopDue 0 = true ∧ (s.core 0).st ≠ .idle) ∧
    (let s := sC fun c => { c with horizon := some 0 }
     (s.core 0).st = .running ∧ (s.core 0).act = false ∧ (s.core 0).horizon = some 0 ∧ (s.core 0).pend = none ∧
      (s.core 0).frame = false ∧ (s.core 0).atRetirement = true) ∧
    (let s := sC fun c => { c.setCreg 0x60 1 with horizon := some 0 }
     (s.core 0).frame = true ∧ (s.core 0).act = false ∧ (s.core 0).horizon = some 0 ∧ (s.core 0).pend = none) :=
  ⟨⟨⟨by decide, by decide, by decide, by decide, by decide, by decide⟩, by decide⟩, by decide, by decide, by decide⟩

/-- R463: 3,000,000 nJ over 1 ms is 3 W. -/
theorem test_power_of_an_interval :
    { State.reset with islands := [(0, 5000000)], energyMark := 2000000 }.power = 3 := by decide

theorem test_poolInterval_ceiling : SMap.get 0 (next (exec .poolInterval { State.reset with
    poolAge := 1700000, pool := [(2, 7)], grant := [(2, 9)], ceil := [(2, 10)] })).pool 2 = 10 := by decide

theorem wit_EnergyIsCountedAndPoolsAreFilled :
    (let s := sC fun c => (c.setCreg 0x30 5).setCreg 0x31 7
     (s.core 0).goesOn = true ∧ SMap.rising 0 (s.core 0).cr = true ∧ SMap.rising 0 s.islands = true ∧ (s.core 0).creg 0x30 ≠ 0 ∧
      (s.core 0).st = .running ∧ (s.core 0).act = false ∧ (s.core 0).frame = false) ∧
    (let s := { State.reset with poolAge := 1700000 }
     SMap.rising 0 s.pool = true ∧ 1700000 ≤ s.poolAge) ∧ State.reset.poolAge < 1700000 := by decide
/-! Boundaries, jobs, nodes and graphs. -/

/-- The small state whose core 0 runs the one node of graph 0, in frame mode; something changed in the core and the node. -/
def jobSt (f : Core → Core) (n : Node → Node) : State :=
  { sC f with graphs := [(0, { graph0 with nodes := [n node0], ownCore := some 0, statusVa := 0x100, doneVa := 0x200 })] }

def frameCore (c : Core) : Core := (c.setCreg 0x60 1).setCreg 0x61 0x40000

/-- Two writers have stored to one byte. -/
def boundSt : State := { jobSt frameCore id with
  bufs := [⟨1, scratchPa 0 0x300, 8⟩, ⟨0, scratchPa 0 0x300, 7⟩, ⟨0, scratchPa 0 0x301, 6⟩] }

theorem test_quantumBoundary_highest_writer : (next (exec (.quantumBoundary 0 0) boundSt)).peek (scratchPa 0 0x300) 2 = [8, 6] := by
  decide +kernel
theorem test_quantumBoundary_next_frame : (next (exec (.quantumBoundary 0 0) boundSt)).me.frameNow = (5, 0) := by decide +kernel

/-- A tree of one page whose update waits. -/
def tree0 : HTree := ⟨0, 1, 1, 0x4000, 6, none, [0, 0x4000], false⟩
def leaf0 : List Byte := (jobSt frameCore id).leafHash tree0 0
def tree1 : HTree := { tree0 with pending := some (4, [leaf0]) }

theorem test_htreeUpdate_none : (next (exec (.htreeUpdate 0) (jobSt frameCore id))).bufs = [] := by decide

/-- A leaf's hash rests on memory and on the tree's frames alone. -/
theorem leafHash_congr {s t : State} {x y : HTree} (i : Nat) (h : s.mem = t.mem) (hx : x.xlat = y.xlat) :
    s.leafHash x i = t.leafHash y i := by
  have hp : ∀ n a, s.peek a n = t.peek a n := fun n => by
    induction n with
    | zero => exact fun a => rfl
    | succ n ih => intro a; simp only [State.peek, State.memByte, h, ih]
  unfold State.leafHash; rw [hp, hx]

/-- The state of tree1, whose waiting leaf is its own page's. -/
def treeSt : State := jobSt (fun c => { frameCore c with htree := some tree1 }) id

theorem treeSt_leaf : treeSt.leafHash tree1 0 = leaf0 := leafHash_congr 0 rfl rfl

theorem treeSt_tree : (treeSt.core 0).htree = some tree1 ∧ (treeSt.core 0).framed = true := ⟨rfl, by decide⟩

theorem wit_BoundaryCommitsStoresAndTreeUpdates :
    (let s := boundSt
     let cores := s.liveCores 0 0
     s.boundaryDue 0 0 = true ∧ (∀ k ∈ cores, (s.core k).htree = none ∧ (s.core k).spec.role = 0 ∧ (s.core k).tlbDue = [] ∧
        (s.core k).pend = none ∧ SMap.rising 0 (s.core k).cr = true) ∧ s.heldAllocs = [] ∧ s.heldAtomics = [] ∧
      s.thermStop = false ∧ SMap.rising 0 s.cores = true ∧ s.Inv ∧ cores.Nodup ∧ s.eccQuiet = true ∧
      (∀ b ∈ s.bufs, tierOf b.pa ≠ some .ctl ∧ s.armed b.pa = false ∧ (tierOf b.pa = some .host → s.linkUp = true)) ∧
      s.bufs = [] ++ ⟨1, scratchPa 0 0x300, 8⟩ :: [⟨0, scratchPa 0 0x300, 7⟩, ⟨0, scratchPa 0 0x301, 6⟩] ∧
      BufSt.of cores ⟨1, scratchPa 0 0x300, 8⟩ = true) ∧
    (sC id).boundaryDue 0 0 = false ∧
    ((treeSt.core 0).htree = some tree1 ∧ tree1.pending = some (4, [leaf0]) ∧ (treeSt.core 0).framed = true ∧
      treeSt.eccQuiet = true ∧
      ∀ i < [leaf0].length, [leaf0][i]? = some (treeSt.leafHash tree1 i)) := by
  refine ⟨⟨by decide, by decide, by decide, by decide, by decide, by decide, by show _ = _; decide, by decide, by decide, by decide,
    by decide, by decide⟩, by decide, treeSt_tree.1, rfl, treeSt_tree.2, rfl, fun i hi => ?_⟩
  obtain rfl : i = 0 := by simp at hi; exact hi
  rw [treeSt_leaf]; rfl

/-- A core that the dispatcher has placed; its node starts C at 0x1000 and no other stream. -/
def placed (f : Core → Core) : State :=
  jobSt (fun c => f { c with st := .placed, sC := .reset, sA := .reset, sV := .reset, sM := .reset }) fun n =>
    { n with job := [0x1000, -1, -1, -1, 0, 0, 0, 0, 0x700, 0, 0, 0, 3, 0, 0, 0] }

theorem test_coreJobStart_pc : (next (exec (.coreJobStart 0) (placed id))).me.sC.pc = 0x1000 := by decide +kernel
theorem test_coreJobStart_launch_block : (next (exec (.coreJobStart 0) (placed id))).me.sreg .a 1 = 0x700 := by decide +kernel
theorem test_coreJobEnd_frees : (next (exec (.coreJobEnd 0) (jobSt (fun c => { c with
    sC := .reset, sA := .reset, sV := .reset, sM := .reset }) id))).me.st = .idle := by decide +kernel

theorem wit_CoreJobsStartAndEnd :
    (let s := placed id
     let n := { node0 with job := [0x1000, -1, -1, -1, 0, 0, 0, 0, 0x700, 0, 0, 0, 3, 0, 0, 0] }
     SMap.rising 0 s.cores = true ∧ (s.core 0).st = .placed ∧ s.nodeOf (s.core 0).slot (s.core 0).node = some n ∧ n.fm = false ∧
      (s.core 0).resume = false) ∧
    (let s := placed fun c => { c with resume := true }
     (s.core 0).st = .placed ∧ (s.core 0).resume = true ∧ SMap.rising 0 (s.core 0).cr = true) ∧ (sC id).me.st ≠ .placed ∧
    (let s := jobSt (fun c => { c with sC := .reset, sA := .reset, sV := .reset, sM := .reset }) id
     s.nodeOf 0 0 = some node0 ∧ (s.core 0).st = .running ∧ s.jobDone 0 = true) ∧
    (let s := jobSt id id
     (s.core 0).st = .running ∧ s.jobDone 0 = false) ∧
    (let s := jobSt (fun c => { c with st := .halting }) fun n => { n with st := .halted }
     (s.core 0).st = .halting ∧ s.haltDone 0 = true) ∧
    (let s := jobSt (fun c => { c with st := .dead }) id
     (s.core 0).st = .dead ∧ (s.core 0).slot = 0 ∧ (s.core 0).node = 0) := by decide +kernel

theorem test_nodeCompletion : ((next (exec (.nodeCompletion 0 0) (jobSt id fun n => { n with ended := [0] }))).nodeOf 0 0).map Node.st =
    some .complete := by decide +kernel
theorem test_nodeCompletion_faulted : ((next (exec (.nodeCompletion 0 0) (jobSt id fun n =>
    { n with ended := [0], fault := 7 }))).nodeOf 0 0).map Node.st = some .faulted := by decide +kernel
theorem test_graphEnd_word : (next (exec (.graphEnd 0) (jobSt id fun n => { n with st := .complete, cores := [] }))).peek
    (scratchPa 0 0x100) 1 = [1] := by decide +kernel

theorem wit_NodesCompleteAndGraphsEnd :
    (let s := jobSt id fun n => { n with ended := [0] }
     let g := { graph0 with nodes := [{ node0 with ended := [0] }], ownCore := some 0, statusVa := 0x100, doneVa := 0x200 }
     s.graph 0 = some g ∧ g.nodes[0]? = some { node0 with ended := [0] } ∧ s.statusLies g 0 ∧ s.Inv ∧
      Node.over { node0 with ended := [0] } = true) ∧ node0.over = false ∧
    (let s := jobSt id fun n => { n with st := .complete, cores := [] }
     let g := { graph0 with nodes := [{ node0 with st := .complete, cores := [] }], ownCore := some 0, statusVa := 0x100, doneVa := 0x200 }
     s.graph 0 = some g ∧ s.statusLies g 0 ∧ s.Inv ∧ (∀ m ∈ g.nodes, m.terminal = true) ∧ g.doneVa.toNat % 16 = 0 ∧
      g.doneVa.toNat + 16 ≤ 0x400000 ∧ g.statusVa.toNat + 8 ≤ g.doneVa.toNat) :=
  ⟨⟨by decide, by decide, ⟨by decide, by decide, by decide, by decide, ⟨by decide, by decide⟩⟩, by show _ = _; decide, by decide⟩, by decide,
    by decide, ⟨by decide, by decide, by decide, by decide, ⟨by decide, by decide⟩⟩, by show _ = _; decide, by decide, by decide, by decide,
    by decide⟩

/-- A node that is ready, of class 1 and energy 3, with 5 in the class's pool. -/
def readySt (n : Node → Node) : State :=
  { jobSt (fun c => { c with st := .idle }) fun x => n { x with st := .ready, cls := 1, energy := 3, cores := [] } with pool := [(1, 5)], ceil := [(1, 5)] }

theorem ready_one (s : State) (g : Graph) (n : Node) (h : s.graphs = [(0, g)]) (hn : g.nodes = [n]) (hf : g.failed = false)
    (hr : n.st = .ready) : s.readyNodes = [(0, 0)] := by
  simp [State.readyNodes, h, hn, hf, hr, sortBy, insertBy]

theorem wit_DispatchStartsReadyNodesInOrder :
    (let s := readySt fun n => { n with kind := 4 }
     s.urgent = none ∧ SMap.rising 0 s.graphs = true ∧ s.thermStop = false ∧ s.bootFailed = false ∧ s.readyNodes = [(0, 0)] ∧
      (∀ n, s.nodeOf 0 0 = some n → s.canStart n false = true ∧ n.charged = none ∧ n.yielded = [] ∧ n.kind = 4) ∧
      SMap.rising 0 s.pool = true ∧ SMap.rising 0 s.cores = true ∧ s.Inv ∧
      ∀ g, s.graph 0 = some g → s.statusLies g 0) ∧
    (let s := readySt fun n => { n with kind := 1, est := 3 }
     s.readyNodes = [(0, 0)] ∧ ∀ n, s.nodeOf 0 0 = some n → s.canStart n false = true) ∧
    (let s := readySt id
     s.readyNodes = [(0, 0)] ∧ ∀ n, s.nodeOf 0 0 = some n → s.canStart n false = true ∧ n.kind = 0 ∧
      fld (n.job.getD 8 0).toNat 32 13 = 0 ∧ n.job.getD 9 0 = 0 ∧ n.job.getD 10 0 = 0) := by
  refine ⟨⟨rfl, by decide, rfl, rfl, ready_one _ _ _ rfl rfl rfl rfl, fun n h => ?_, by decide, by decide, by show _ = _; decide, fun g h => ?_⟩,
    ⟨ready_one _ _ _ rfl rfl rfl rfl, fun n h => ?_⟩, ⟨ready_one _ _ _ rfl rfl rfl rfl, fun n h => ?_⟩⟩
  · cases h; decide +kernel
  · cases h; exact ⟨by decide, by decide, by decide, by decide, ⟨by decide, by decide⟩⟩
  · cases h; decide +kernel
  · cases h; decide +kernel
/-! Loops. -/

/-- Core 0 leads and core 1 is the other member of a window of 2 over 9 iterations of one carry word: guess body at 0x1000,
loop body at 0x2000, carry at 0x500, control block at 0x400. -/
def loopSt (lead mem : Spec → Spec) : State :=
  let sp : Spec := { Spec.reset with lead := 0, cb := [0x1000, 0x2000, 9 * 2 ^ 32 + 2 * 2 ^ 27, 0, 0, 0, 0x500], cbVa := 0x400, pc := 0x3000 }
  { twoMem [] cb1 with cores := [
    (0, { core0 with cr := [(0x21, 0x20000), (0x50, 0x3FF), (0x51, 0xFFFF)], spec := lead sp }),
    (1, { core0 with cr := [(0x21, 0x20001), (0x50, 0x3FF), (0x51, 0xFFFF)], spec := mem { Spec.reset with lead := 1, role := 2, pc := 0x3008 } })] }

def ranOk (p : Nat) (x : Spec) : Spec := { x with role := 3, lead := 0, pos := p, ended := true }

theorem test_virga_reads_the_carry : ((next (exec (.virgaIterationDispatch 0) ((loopSt (fun x => { x with role := 1 }) id).poke
    (scratchPa 0 0x500) [7]))).core 0).spec.carry = [7] := by decide +kernel
theorem test_virga_guess_run : ((next (exec (.virgaIterationDispatch 0) (loopSt (fun x => { x with role := 1, carry := [7] }) id))).core 0).sC.pc =
    0x1000 := by decide +kernel
/-- The guess at 0x3C0100 is the carry-out at 0x3C0080: both iterations are accepted. -/
theorem test_virga_commit_both : ((next (exec (.virgaRoundCommit 0) (loopSt (fun x => { ranOk 0 x with handed := 1 }) (ranOk 1)))).core 0).spec.done =
    2 := by decide +kernel
theorem test_virga_commit_one : ((next (exec (.virgaRoundCommit 0) ((loopSt (fun x => { ranOk 0 x with handed := 1 }) (ranOk 1)).poke
    (scratchPa 0 0x3C0100) [1]))).core 0).spec.done = 1 := by decide +kernel

theorem wit_VirgaUnitDispatches :
    (let s := loopSt (fun x => { x with role := 1, done := 9, g := 0x3F }) fun x => { x with role := 0 }
     SMap.rising 0 s.cores = true ∧ s.Inv ∧ s.eccQuiet = true ∧ SMap.rising 0 (s.core 0).regC = true ∧ s.virgaOn 0 = true ∧
      (∀ j ∈ s.window 0 2, s.windowGone 0 j = false) ∧ (s.core 0).spec.n ≤ (s.core 0).spec.done ∧
      (∀ j ∈ s.window 0 2, j ≠ 0 → (s.core j).spec.role ≠ 2) ∧ (s.core 0).count 0x3F < 65535 ∧ SMap.rising 0 (s.core 0).cnt = true ∧
      (s.core 0).sC.seqr = []) ∧
    (let s := loopSt (fun x => { x with role := 1, carry := [7] }) id
     s.virgaOn 0 = true ∧ (∀ j ∈ s.window 0 2, s.windowGone 0 j = false) ∧ (s.core 0).spec.guessed ≤ (s.core 0).spec.handed ∧
      (s.core 0).spec.carry ≠ [] ∧ (s.core 0).spec.guessed + 1 < (s.core 0).spec.w) ∧
    (let s := loopSt (fun x => { x with role := 1, carry := [7], guessed := 1 }) fun x => { x with role := 0 }
     s.virgaOn 0 = true ∧ (s.core 0).spec.carry ≠ [] ∧ (s.core 0).spec.w ≤ (s.core 0).spec.guessed + 1 ∧
      (∀ w ∈ (s.core 0).spec.carry, w < 2 ^ 64) ∧ (s.core ((s.window 0 2).getD 1 512)).spec.role ≠ 2) ∧
    (let s := loopSt (fun x => { x with role := 3, guessed := 1 }) id
     s.virgaOn 0 = true ∧ (∀ j ∈ s.window 0 2, s.windowGone 0 j = false) ∧ (s.core 0).spec.handed < (s.core 0).spec.guessed ∧
      (s.window 0 2).getD 1 512 = 1 ∧ (s.core 1).spec.role = 2 ∧ (s.core 1).spec.lead = 1 ∧ s.guessStands 0 = true ∧ (s.core 1).st ≠ .idle) ∧
    (sC id).virgaOn 0 = false :=
  ⟨⟨by decide, by show _ = _; decide, by decide⟩, by decide, by decide, by decide, by decide⟩

theorem wit_VirgaRoundCommits :
    (let s := loopSt (fun x => { ranOk 0 x with handed := 1 }) (ranOk 1)
     let sp := (s.core 0).spec
     let win := s.window 0 sp.w
     SMap.rising 0 s.cores = true ∧ s.Inv ∧ (s.core 0).frame = false ∧ s.roundDone 0 = true ∧ win.length = sp.w ∧ win.Nodup ∧
      sp.rule = 0 ∧ sp.nap = 0 ∧ sp.done + sp.w < sp.n ∧ 2 ≤ sp.w ∧ s.loopFree 0 (sp.word 6) (8 * sp.nc) ∧
      s.loopFree 0 (sp.cbVa + 40) 8 ∧ (s.seenBy 0).arraysQuiet ∧
      (∀ j ∈ win, (s.core j).spec.bad = false ∧ (s.core j).spec.stop = false ∧ (s.core j).spec.buf = [] ∧ (s.core j).st ≠ .idle)) ∧
    (loopSt (ranOk 0) id).roundDone 0 = false :=
  ⟨⟨by decide, by show _ = _; decide, by decide, by decide, by decide, by decide, by decide, by decide, by decide, by decide,
    ⟨by decide, by decide⟩, ⟨by decide, by decide⟩, ⟨by decide, by decide⟩, by decide⟩, by decide⟩
/-! The fabric. -/

/-- The package is non-secure throughout; peer 2 stands as x; node 0 of graph 0 is a fabric node whose engine is n; the
fabric's TLB maps the page at 0x1000000 to the first of memory. -/
def fabSt (x : Peer) (n : Option FabNode) : State :=
  { jobSt id fun m => { m with kind := 3 } with
    regions := [(0, 0xC000000000000000), (1, 0x000FFFFFFFFFF000)], peers := [(2, x)], fabNode := n,
    fabTlb := [⟨0x1000000, 4096, 0, 0, false, true, true, true, true, true, true⟩] }

def peer0 : Peer := { Peer.reset with expect := 5 }

/-- A frame of peer 2 in its turn. -/
def frame0 (op : Nat) (data : List Byte) : Frame := ⟨1, op, 2, 0, false, false, false, 0, 5, 9, 0x1000300, data.length, 0, 0, data⟩

/-- The node's operation: 16 bytes here at 0x1000100, there at 0x800. -/
def fnode (op : Nat) : FabNode := ⟨0, 0, op, 0, 2, 16, 0x1000100, 0x800, 0, 9, 0, none, false, 0⟩

def frameOps (s : State) : List (Nat × Nat × Nat × Bool) := s.frames.map fun f => (f.op, f.off, f.len, f.last)

theorem test_fabricPut : frameOps (next (exec (.fabricPut 0 0) (fabSt peer0 (some (fnode 0))))) = [(0, 0x800, 16, true)] := by decide +kernel
theorem test_fabricGet : frameOps (next (exec (.fabricGet 0 0) (fabSt peer0 (some (fnode 1))))) = [(1, 0x800, 16, true)] := by decide +kernel
theorem test_fabricRadd : frameOps (next (exec (.fabricRadd 0 0) (fabSt peer0 (some (fnode 2))))) = [(3, 0x800, 16, true)] := by decide +kernel
theorem test_putData : (next (exec (.putData (frame0 0 [1, 2])) (fabSt peer0 none))).peek 0x300 2 = [1, 2] := by decide +kernel
theorem test_getRequest : frameOps (next (exec (.getRequest (frame0 1 [1, 2, 3])) (fabSt peer0 none))) = [(4, 0, 0, false), (2, 0, 3, true)] := by
  decide +kernel
theorem test_getData_ends_the_node : ((next (exec (.getData { frame0 2 [1, 2] with last := true, off := 0 })
    (fabSt peer0 (some (fnode 1))))).nodeOf 0 0).map Node.ended = some [0] := by decide +kernel
/-- 1 + 1 = 2 in f64. -/
theorem test_raddData : (next (exec (.raddData (frame0 3 (leBytes 8 0x3FF0000000000000)))
    ((fabSt peer0 none).poke 0x300 (leBytes 8 0x3FF0000000000000)))).peek 0x300 8 = leBytes 8 0x4000000000000000 := by decide +kernel
theorem test_frame_ahead_is_nak : frameOps (next (exec (.putData { frame0 0 [] with seq := 6 }) (fabSt peer0 none))) = [(5, 0, 0, false)] := by
  decide +kernel
theorem test_fabricAck : ((next (exec (.fabricAck { frame0 4 [] with ack := 6 })
    (fabSt { peer0 with unacked := [frame0 0 [], { frame0 0 [] with seq := 6 }] } none))).peer 2).unacked.map Frame.seq = [6] := by decide +kernel
theorem test_fabricNak : frameOps (next (exec (.fabricNak { frame0 5 [] with ack := 6 })
    (fabSt { peer0 with unacked := [frame0 0 [], { frame0 0 [] with seq := 6, off := 9 }] } none))) = [(0, 9, 0, false)] := by decide +kernel
theorem test_fabricRetransmitTimeout : frameOps (next (exec (.fabricRetransmitTimeout 2)
    (fabSt { peer0 with unacked := [frame0 0 []], quiet := 170000 } none))) = [(0, 0x1000300, 0, false)] := by decide +kernel
theorem test_fabricFailureTimeout : ((next (exec (.fabricFailureTimeout 2) (fabSt { peer0 with unacked := [frame0 0 []], stalled := 17000000 }
    (some (fnode 0))))).nodeOf 0 0).map Node.fault = some 0x1F := by decide +kernel
theorem test_fabricFrameDropped : (next (exec (.fabricFrameDropped (frame0 6 [])) (fabSt peer0 none))).frames = [] := by decide

/-- An operation comes through. -/
def okRun {α : Type} (op : Op α) (s : State) : Bool := match op.run s with | .ok _ => true | .error _ => false

theorem wit_FabricNodesSendTheirFrames : let s := fun op => fabSt peer0 (some (fnode op))
    let full := fabSt { peer0 with unacked := List.replicate 4096 (frame0 0 []) } (some (fnode 1))
    (∀ op < 3, (s op).fabNode = some (fnode op) ∧ ((s op).graph 0).isSome = true ∧ SMap.rising 0 (s op).peers = true ∧
      ((s op).peer 2).unacked.length < 4096) ∧
    (∀ g, (s 0).graph 0 = some g → okRun (readBytes (g.nodeAcc 9 9 .fab) false 0x1000100 16) (s 0) = true) ∧
    4096 ≤ (full.peer 2).unacked.length := by
  refine ⟨by decide, fun g h => ?_, by decide +kernel⟩
  cases h; decide +kernel

theorem wit_FabricFramesLandInTurn : let s := fabSt peer0 none
    let t := s.setPeer 2 { peer0 with expect := 6 }
    SMap.rising 0 s.peers = true ∧ s.inTurn (frame0 0 [1, 2]) ∧ (frame0 0 [1, 2]).last = false ∧
    okRun (writeBytes s.remoteAcc false 0x1000300 [1, 2]) t = true ∧ s.inTurn (frame0 3 [1, 2]) ∧ (frame0 3 [1, 2]).op ≠ 0 ∧
    okRun (readBytes s.remoteAcc false 0x1000300 8) t = true ∧ s.inTurn (frame0 1 [1, 2, 3]) ∧ (s.peer 2).answers = [] ∧
    okRun (readBytes s.remoteAcc false 0x1000300 3) (t.sendControl 2 4 0 false) = true ∧
    (frame0 0 []).dst = s.pkgId ∧ ({ frame0 0 [] with seq := 6 } : Frame).seq ≠ (s.peer 2).expect ∧
    ({ frame0 0 [] with dst := 7 } : Frame).dst ≠ s.pkgId ∧
    (let u := fabSt peer0 (some (fnode 1))
     u.inTurn (frame0 2 [1, 2]) ∧ (fnode 1).mid % 2 ^ 32 = (frame0 2 [1, 2]).mid ∧ (fnode 1).peer = (frame0 2 []).src ∧
      ∀ g, u.graph 0 = some g → okRun (writeBytes (g.nodeAcc 9 9 .fab) false 0x1000400 [1, 2])
        ((u.setPeer 2 { peer0 with expect := 6 }).sendControl 2 4 0 false) = true) := by
  refine ⟨by decide, ⟨by decide, by decide, by decide⟩, by decide, by decide +kernel, ⟨by decide, by decide, by decide⟩, by decide,
    by decide +kernel, ⟨by decide, by decide, by decide⟩, by decide, by decide +kernel, by decide, by decide, by decide,
    ⟨by decide, by decide, by decide⟩, by decide, by decide, fun g h => ?_⟩
  cases h; decide +kernel

theorem wit_FabricAcksNaksAndTimeouts :
    (let s := fabSt { peer0 with unacked := [frame0 0 []] } none
     SMap.rising 0 s.peers = true ∧ (frame0 4 []).ver = 1 ∧ (frame0 4 []).dst = s.pkgId ∧ (s.peer 2).answers = [] ∧ s.fabNode = none) ∧
    (let n : FabNode := { fnode 0 with last := some 5 }
     let s := fabSt { peer0 with unacked := [frame0 0 []] } (some n)
     s.fabNode = some n ∧ n.op ≠ 1 ∧ n.peer = 2 ∧ covered 6 5 = true ∧ n.bad = false) ∧
    (let n : FabNode := { fnode 1 with last := some 5, quiet := 17000000 }
     let s := fabSt peer0 (some n)
     s.fabNode = some n ∧ n.op = 1 ∧ n.peer = 2 ∧ n.last.isSome = true ∧ 17000000 ≤ n.quiet) ∧
    (let s := fabSt { peer0 with unacked := [frame0 0 []], quiet := 170000, stalled := 17000000 } (some (fnode 0))
     (s.peer 2).unacked ≠ [] ∧ 170000 ≤ (s.peer 2).quiet ∧ 17000000 ≤ (s.peer 2).stalled ∧ (fnode 0).peer = 2) ∧
    (let s := fabSt { peer0 with unacked := [frame0 0 []], quiet := 169999, stalled := 16999999 } none
     (s.peer 2).quiet < 170000 ∧ (s.peer 2).stalled < 17000000) := by decide
/-! The host, registers and the package. -/

/-- The small state whose whole memory is non-secure. -/
def openSt (f : Core → Core) : State := { sC f with regions := [(0, 0xC000000000000000), (1, 0x000FFFFFFFFFF000)] }

theorem test_hostMemoryRead : (next (exec (.hostMemoryRead 0x300 2) ((openSt id).poke 0x300 [5, 6]))).hostReads = [[5, 6]] := by decide +kernel
theorem test_hostMemoryRead_secure : (next (exec (.hostMemoryRead 0x300 2) ((sC id).poke 0x300 [5, 6]))).hostReads = [[0xFF, 0xFF]] := by
  decide +kernel
theorem test_hostMemoryWrite : (next (exec (.hostMemoryWrite 0x307 [5, 6]) (openSt id))).peek 0x307 2 = [5, 6] := by decide +kernel
theorem test_launchStore : (SMap.get Launch.reset (next (exec (.launchStore 15 true 0x40) State.reset)).launch 15).busy = true := by decide
theorem test_launchStore_form : (next (exec (.launchStore 0 false 0) State.reset)).msi = [66] := by decide
theorem test_launchDecision_refused : (SMap.get Launch.reset (next (exec (.launchDecision 0)
    { State.reset with launch := [(0, ⟨true, 8, 0, 0⟩)] })).launch 0).busy = false := by decide +kernel
theorem test_cbpopStore : (next (exec .cbpopStore { State.reset with callbacks := [(0, 1, 7), (0, 2, 8)] })).cbHead.2 = 8 := by decide
theorem test_cbdoneStore_no_node : wfld (next (exec (.cbdoneStore 0) State.reset)).herr 62 2 = 3 := by decide
theorem test_hintstClear : (next (exec (.hintstClear 6) { State.reset with hintst := 3 })).hintst = 1 := by decide
theorem test_herrClear : (next (exec .herrClear { State.reset with herr := 3 })).herr = 0 := by decide
theorem test_swiverLinkFailure : (next (exec .swiverLinkFailure State.reset)).linkUp = false := by decide
theorem test_registerWrite_reserved : ((next (exec (.registerWrite 0 0x051 0xFFFFF) (sC id))).me.creg 0x051) = 0xFFFF := by decide
theorem test_smpposWrite : (SMap.get Slot.reset (next (exec (.smpposWrite 0 0x100000002) (sC id))).me.smp 0).pos = 2 := by decide
theorem test_smpstWrite : (SMap.get Slot.reset (next (exec (.smpstWrite 0 7) (sC id))).me.smp 0).st = 3 := by decide
/-- Word 2 of a generator holds the low half of its increment. -/
theorem test_gdataWrite_odd : ((next (exec (.gdataWrite 0 4) (sC fun c => c.setCreg 0x63 2))).me.genC).c = 5 := by decide
theorem test_elogsClear : SMap.get ELog.zero (next (exec (.elogsClear 0) (sC fun c =>
    { c.setCreg 0x90 3 with elog := [(3, { ELog.zero with count := 9 })] }))).me.elog 3 = ELog.zero := by decide
theorem test_einjWrite : (next (exec (.einjWrite 0 0xFFFFFFFFFFFFFFFF) (sC id))).me.einj = 0xFFFFFFFF000000FF := by decide
theorem test_cretireWrite_host : (next (exec (.cretireWrite true true 0 1) State.reset)).cretire = 0 := by decide +kernel
theorem test_cretireWrite : (next (exec (.cretireWrite true false 1 1) State.reset)).cretire = 2 ^ 64 := by decide +kernel
theorem test_regionTableWrite : SMap.get 0 (next (exec (.regionTableWrite true 1 0xFFFFFFFFFFFFFFFF) State.reset)).regions 1 =
    0x000FFFFFFFFFF000 := by decide +kernel
theorem test_thermWrite : (next (exec (.thermWrite 0) { State.reset with smbus := [(0x22, 2)] })).smbusRead 0x22 = 0 := by decide
theorem test_thermalStopBegin (h : diesHot 0 = true) : (next (exec .thermalStopBegin State.reset)).smbusRead 0x22 = 3 := by
  have e : State.reset.thermalBegin = _ := if_neg (by show ¬ (false || !diesHot 0) = true; rw [h]; decide)
  show State.reset.thermalBegin.smbusRead 0x22 = 3
  rw [e]; decide
/-- 10 ms have not passed. -/
theorem test_thermalStopEnd_early : (next (exec .thermalStopEnd { State.reset with thermStop := true })).msi = [] := by decide
theorem test_powerOnReset_boot : (next (exec (.powerOnReset true false) State.reset)).boot = 0x81 := by decide
theorem test_attestationRequest_stage_zero : (next (exec (.attestationRequest []) State.reset)).reports = [] := by decide
theorem test_softError_twice : (next (exec (.softError 0 0 0 [3]) (next (exec (.softError 0 0 0 [3, 4]) State.reset)))).flips.map Prod.snd =
    [[4]] := by decide

theorem wit_HostReadsAndWritesMemory :
    (let s := openSt id
     s.hostOk 0x3FFFFE 4 = true ∧ s.eccQuiet = true ∧ s.settledBytes 0x3FFFFE 4 ∧ (∀ k, (s.core k).einj.getLsbD 63 = false) ∧ s.Inv) ∧
    (openSt id).hostOk 0x02FFFFFFFFFF 2 = false ∧ (sC id).hostOk 0 1 = false := by
  refine ⟨⟨by decide +kernel, by decide, fun i _ => rfl, fun k => ?_, by show _ = _; decide⟩, by decide +kernel, by decide +kernel⟩
  unfold State.core
  show (SMap.get Core.reset [(0, core0)] k).einj.getLsbD 63 = false
  simp only [SMap.get]
  split <;> decide

theorem wit_LaunchAndCallbackRegisters :
    (let s := { State.reset with launch := [(15, ⟨true, 0x40, 0, 0⟩)] }
     (SMap.get Launch.reset s.launch 15).busy = true ∧ s.bootFailed = false ∧ SMap.rising 0 s.launch = true ∧
      (SMap.get Launch.reset s.launch 0).busy = false ∧ ({ s with boot := 0x81 } : State).bootFailed = true) ∧
    (let s := jobSt id fun n => { n with kind := 4 }
     ∃ n, s.nodeOf (wfld 0 12 6) (wfld 0 0 12) = some n ∧ n.kind = 4 ∧ n.st = .running ∧ n.ended = []) :=
  ⟨by decide, _, rfl, rfl, rfl, rfl⟩

theorem wit_RegisterWritesOfACore :
    (let s := sC id
     SMap.rising 0 s.cores = true ∧ SMap.rising 0 (s.core 0).cr = true ∧ SMap.rising 0 (s.core 0).smp = true ∧
      SMap.rising 0 (s.core 0).elog = true ∧ SMap.rising 0 (s.core 0).bfmt = true ∧ SMap.rising 0 (s.core 0).staging = true ∧
      (s.core 0).smpBusy = false ∧ (0x3FF : Nat) < 0x400 ∧ 0x3FF ∉ [0x064, 0x079, 0x07A, 0x092, 0x098] ∧
      mmioAt 0x401078 = .bfmt 15 ∧ mmioAt 0x400118 = .staging 4 3) ∧
    (sC fun c => { c with eq := [(4, [ecmd 4 0 0 0 0])] }).me.smpBusy = true := by decide

theorem wit_PackageRegisterWrites : let s := State.reset
    SMap.rising 0 s.regions = true ∧ SMap.rising 0 s.grant = true ∧ SMap.rising 0 s.ceil = true ∧ SMap.rising 0 s.clkStep = true ∧
    SMap.rising 0 s.smbus = true ∧ (127 : Nat) < 128 ∧ (7 : Nat) < 8 ∧ (256 : Nat) % 256 = 0 ∧ (1 : Nat) % 256 ≠ 0 := by decide

theorem wit_PackageEvents :
    (let s := jobSt (fun c => c.setCreg 0x11 0) id
     s.thermStop = false ∧ SMap.rising 0 s.smbus = true ∧ SMap.rising 0 s.flips = true ∧ s.boot % 8 = 0) ∧
    (State.reset.thermStop = false ∧ (∀ p ∈ State.reset.runningCohorts, State.reset.savable p.1 p.2 = true)) ∧
    ({ State.reset with thermStop := true, boot := 3 }.thermStop = true ∧ (3 : Nat) % 8 ≠ 0) ∧
    (511 : Nat) < 512 ∧ (0x3FFFF8 : Nat) < 0x400000 ∧ 0x3FFFF8 % 8 = 0 ∧ [3, 71].Nodup := by decide
/-! Steps. -/

/-- C's TLB maps the page at 0x1000000 to the start of near DRAM. -/
def codeEnt : TlbEnt := ⟨0x1000000, 4096, 0x10000000000, 0, false, true, true, true, true, true, true⟩

/-- Core 0's stream st has the next turn; words stand at 0x1000 of its scratchpad and where C's TLB maps its PC. -/
def turnSt (st : Stream) (ws : List Nat) (f : Core → Core) : State :=
  let b := ws.flatMap (leBytes 8)
  { ((stOf st fun c => f { c with sec := true, tlb := [(0, [codeEnt])], sC := { c.sC with pc := 0x1000000 } }).poke
    (scratchPa 0 0x1000) b).poke 0x10000000000 b with agenda := [.stream 0 st] }

/-- S5 := S6 + S7. -/
theorem test_step_add : (next (step (turnSt .c [0x0000040518700000] fun c => { c with regC := [(6, 3), (7, 4)] }))).sreg 5 = 7 := by decide
theorem test_step_no_word : wfld ((next (step (turnSt .c [0x00001C0000000000] id))).me.creg 0x011) 0 5 = 1 := by decide
theorem test_step_event : (next (step { State.reset with agenda := [.event .herrClear], herr := 5 })).herr = 0 := by decide
theorem test_step_nothing : step State.reset = .next State.reset := rfl

/-- C's word at pc of the mapped page, not fetched before. -/
theorem fetchC0 {s : State} {pc : Word} {w : Nat} (h : s.curStream = .c) (h0 : 0x410000 ≤ pc.toNat ∧ pc.toNat < 2 ^ 57)
    (h1 : pc.toNat % 4096 + 8 ≤ 4096) (h2 : s.eccQuiet = true ∧ s.bufs = [] ∧ s.me.spec.role = 0 ∧ s.me.accSettled = true)
    (h3 : s.tlbHit pc.toNat = some codeEnt ∧ s.me.sec = true) (h4 : tierOf (0x10000000000 + pc.toNat % 4096) = some .dram)
    (h5 : s.hist = []) (hi : s.me.icache = []) (hw : w = leNat (s.peek (0x10000000000 + pc.toNat % 4096) 8)) : s.fetches pc w := by
  unfold State.fetches
  rw [if_pos h, hi]
  exact ⟨⟨h0.1, h0.2, h1, h2.1, h2.2.1, h2.2.2.1, h2.2.2.2⟩, codeEnt, h3.1, rfl,
    ⟨.inr rfl, .inl h3.2, h4, fun i _ => by unfold State.byteHist; rw [h5]; rfl⟩, hw⟩

theorem wit_StepRunsTheDecodedInstruction :
    (let s := turnSt .c [0x0000040518700000] id
     let z := s.turnOf 0 .c []
     s.agenda = .stream 0 .c :: [] ∧ z.atWord = true ∧ z.plainPc ∧ z.fetches z.strm.pc 0x0000040518700000 ∧
      decode .c 0x0000040518700000 0 = .ok (.add h0 5 6 7) ∧ (Instr.add h0 5 6 7).litKind = none ∧
      z.accepts (.add h0 5 6 7) (hdrOf 0x0000040518700000) = true) ∧
    (let s := turnSt .a [0x000008C300000003, 0xFF01400400000000] id
     let z := s.turnOf 0 .a []
     z.atWord = true ∧ z.plainPc ∧ z.fetches z.strm.pc 0x000008C300000003 ∧ z.fetches (z.strm.plus z.strm.pc 8) 0xFF01400400000000 ∧
      decode .a 0x000008C300000003 0xFF01400400000000 = .ok (.movl h0 .h48 3 0x400400000000) ∧
      z.accepts (.movl h0 .h48 3 0x400400000000) (hdrOf 0x000008C300000003) = true) ∧
    (let s := turnSt .c [] fun c => { c with st := .idle }
     s.agenda = .stream 0 .c :: [] ∧ (s.turnOf 0 .c []).stopDue 0 = false ∧ (s.turnOf 0 .c []).mayIssue 0 .c = false) := by
  refine ⟨⟨by decide, by decide, ⟨by decide, by decide⟩, fetchC0 rfl (by decide) (by decide) (by decide) (by decide) (by decide) rfl rfl (by decide +kernel), by decide, by decide, by decide⟩, ⟨by decide, ⟨by decide, by decide⟩,
    ⟨canRead0 (by decide) (by decide) (by decide) (by decide) (by decide) (by decide)
      (by decide), by decide +kernel, by decide⟩,
    ⟨canRead0 (by decide) (by decide) (by decide) (by decide +kernel) (by decide) (by decide)
      (by decide), by decide +kernel, by decide⟩, by decide, by decide⟩, by decide⟩

theorem wit_WordsThatDoNotDecodeFault :
    (let s := turnSt .c [0x00001C0000000000] id
     let z := s.turnOf 0 .c []
     s.agenda = .stream 0 .c :: [] ∧ z.atWord = true ∧ z.plainPc ∧ z.fetches z.strm.pc 0x00001C0000000000 ∧
      decodeFirst .c 0x00001C0000000000 = .error .illop) ∧
    (let s := turnSt .c [0xFF00000000000000] id
     let z := s.turnOf 0 .c []
     z.atWord = true ∧ z.plainPc ∧ z.fetches z.strm.pc 0xFF00000000000000 ∧ decodeFirst .c 0xFF00000000000000 = .error .litx) ∧
    (let s := turnSt .c [0x000008C300000003, 0xFF00400400000000] id
     let z := s.turnOf 0 .c []
     z.atWord = true ∧ z.plainPc ∧ z.fetches z.strm.pc 0x000008C300000003 ∧ z.fetches (z.strm.plus z.strm.pc 8) 0xFF00400400000000 ∧
      decodeFirst .c 0x000008C300000003 = .ok (.movl h0 .h48 3 0) ∧ z.accepts (.movl h0 .h48 3 0) (hdrOf 0x000008C300000003) = true ∧
      takeLit (.movl h0 .h48 3 0) 0xFF00400400000000 = .error .litm) ∧
    (let s := sV fun c => c.setCreg 0x50 1
     let i : Instr := .vadd h0 .i64 0 .dyn 63 64 1
     i.hdr = some h0 ∧ s.atWord = true ∧ s.curStream = .v ∧ i.streams.contains .v = true ∧ isPrivileged i = false ∧
      i.acceptedBy .v = true ∧ i.wf = true ∧ ∃ r ∈ vregs i, (s.me.creg 0x050).getLsbD (r / 64) = false) := by
  refine ⟨⟨by decide, by decide, ⟨by decide, by decide⟩, fetchC0 rfl (by decide) (by decide) (by decide) (by decide) (by decide) rfl rfl (by decide +kernel), by decide⟩,
    ⟨by decide, ⟨by decide, by decide⟩, fetchC0 rfl (by decide) (by decide) (by decide) (by decide) (by decide) rfl rfl (by decide +kernel), by decide⟩,
    ⟨by decide, ⟨by decide, by decide⟩, fetchC0 rfl (by decide) (by decide) (by decide) (by decide) (by decide) rfl rfl (by decide +kernel),
      fetchC0 rfl (by decide) (by decide) (by decide) (by decide) (by decide) rfl rfl (by decide +kernel), by decide, by decide, by decide⟩, by decide⟩

theorem wit_WaitingWordsBlock : let s := sC id
    let h : Hdr := ⟨0x3F, 0, .always⟩
    s.atWord = true ∧ s.accepts (.add h 3 4 5) h = true ∧ s.firstPass = true ∧ s.me.skipped s.curStream h = false ∧
    isListed (.add h 3 4 5) s.me s.curStream = false ∧ s.replayRule (.add h 3 4 5) h ≠ .wait ∧ s.waitOpen h = false ∧
    s.curStream ≠ .v := by decide

theorem wit_IterationKindsSkip :
    (let c := { core0 with sV := { strm0 with seqr := [⟨5, 4, 0x1000, 2⟩] } }
     let l : Level := ⟨5, 4, 0x1000, 2⟩
     (c.stream .v).seqr = [] ++ l :: [] ∧ l.holds (c.stream .v) (c.stream .v).pc = true ∧ leftOut .first l.idx l.count) ∧
    (let c := { core0 with nest := some ([0, 3], 0), plane := [(0x10, 2), (0x18, 4)] }
     c.nest = some ([0, 3], 0) ∧ SMap.get 0 c.plane (0x10 + 8 * 1) ≠ 0 ∧ (∀ m < 6, 1 < m → SMap.get 0 c.plane (0x10 + 8 * m) = 0)) ∧
    (let s := sV id
     let h : Hdr := ⟨0x3F, 0x3F, .nfirst⟩
     let i : Instr := .vmov h .i64 0 1 2
     i.hdr = some h ∧ s.atWord = true ∧ s.accepts i h = true ∧ s.firstPass = true ∧ s.me.skipped s.curStream h = true ∧
      plainSkip i = true ∧ s.me.nest = none ∧ s.strm.rpt = none ∧ s.strm.seqr = []) ∧
    (let h : Hdr := ⟨0x3F, 0x3F, .nfirst⟩
     (let s := sA id
      let i : Instr := .lsetLoop h .imm 2 5
      i.hdr = some h ∧ s.atWord = true ∧ s.accepts i h = true ∧ s.firstPass = true ∧ s.me.skipped s.curStream h = true ∧
       s.me.nest = none ∧ s.strm.rpt = none ∧ s.strm.seqr = []) ∧
     (let s := sV id
      let i : Instr := .rpt h 3 0 0 0
      i.hdr = some h ∧ s.atWord = true ∧ s.accepts i h = true ∧ s.firstPass = true ∧ s.me.skipped s.curStream h = true ∧
       s.me.nest = none ∧ s.strm.rpt = none ∧ s.strm.seqr = [] ∧
       s.settledBytes (scratchPa s.curCore (s.strm.plus s.strm.pc 8).toNat) 8 ∧ s.bufs = [] ∧ s.me.inIter = false)) := by
  exact ⟨⟨by decide, by decide, by show (4 : Nat) ≠ 0; decide⟩, ⟨by decide, by decide, by decide⟩, by decide, by decide,
    by decide, by decide, by decide, by decide, by decide, by decide, by decide, by decide, settled0 rfl, rfl, by decide⟩

theorem wit_EveryStepKeepsMemoryCanonical : State.reset.Inv ∧ step State.reset = .next State.reset := ⟨by show _ = _; decide, rfl⟩

theorem wit_DecodeReadsWhatEncodeWrites : (Instr.add h0 63 0 63).wf = true ∧ (Instr.add h0 63 0 63).acceptedBy .c = true := by decide

end Sys2Proof.Tests
end

section
/-! Decoding the encoded bytes of a well-formed instruction gives it back (O58). The idea: bits read from a sum of
fields that fit side by side are those of the field put there (`Fits.fld_place`), so the decoder, which looks at the word
through its fields alone, finds every field at its value (`decFields_opF`). The rest carries that over the header, the
literal word and the bytes. -/

namespace Sys2Proof

/-! ### Codes of the small fields -/

open Laws.FieldsFit in
/-- Bounds of the codes of each enumeration; `n` may be more, as a field may be wider than its codes. -/
theorem code_lt {n : Nat} :
    (∀ k : Ty, 7 < n → k.code < n) ∧ (∀ k : Rnd, 3 < n → k.code < n) ∧ (∀ k : Iter, 3 < n → k.code < n) ∧
    (∀ k : FTy, 1 < n → k.code < n) ∧ (∀ k : VFTy, 3 < n → k.code < n) ∧ (∀ k : MFmt, 6 < n → k.code < n) ∧
    (∀ k : MxW, 2 < n → k.code < n) ∧ (∀ k : MulhKind, 2 < n → k.code < n) ∧ (∀ k : Cond, 9 < n → k.code < n) ∧
    (∀ k : ExtKind, 6 < n → k.code < n) ∧ (∀ k : LitKind, 3 < n → k.code < n) ∧ (∀ k : FCond, 7 < n → k.code < n) ∧
    (∀ k : CvtTy, 5 < n → k.code < n) ∧ (∀ k : BrCond, 15 < n → k.code < n) ∧ (∀ k : LdKind, 7 < n → k.code < n) ∧
    (∀ k : StKind, 7 < n → k.code < n) ∧ (∀ k : At, 2 < n → k.code < n) ∧ (∀ k : AmoOp, 9 < n → k.code < n) ∧
    (∀ k : WD, 1 < n → k.code < n) ∧ (∀ k : CasSz, 2 < n → k.code < n) ∧ (∀ k : DiffScope, 2 < n → k.code < n) ∧
    (∀ k : InvScope, 1 < n → k.code < n) ∧ (∀ k : TlbSub, 2 < n → k.code < n) ∧ (∀ k : ClbSub, 2 < n → k.code < n) ∧
    (∀ k : GenSel, 2 < n → k.code < n) ∧ (∀ k : SpRule, 2 < n → k.code < n) ∧ (∀ k : DrawKind, 2 < n → k.code < n) ∧
    (∀ k : VCond, 11 < n → k.code < n) ∧ (∀ k : RedOp, 6 < n → k.code < n) ∧ (∀ k : MapqSub, 2 < n → k.code < n) ∧
    (∀ k : LsetSrc, 2 < n → k.code < n) ∧ (∀ k : Pat, 2 < n → k.code < n) ∧ (∀ k : Seg, 1 < n → k.code < n) ∧
    (∀ k : TokSub, 3 < n → k.code < n) ∧ (∀ b : Bool, 1 < n → b.toNat < n) :=
  ⟨fun k => (ty_code_le k).trans_lt, fun k => (rnd_code_le k).trans_lt, fun k => (iter_code_le k).trans_lt,
    fun k => (fTy_code_le k).trans_lt, fun k => (vFTy_code_le k).trans_lt, fun k => (mFmt_code_le k).trans_lt,
    fun k => (mxW_code_le k).trans_lt, fun k => (mulhKind_code_le k).trans_lt, fun k => (cond_code_le k).trans_lt,
    fun k => (extKind_code_le k).trans_lt, fun k => (litKind_code_le k).trans_lt,
    fun k => (fCond_code_le k).trans_lt, fun k => (cvtTy_code_le k).trans_lt, fun k => (brCond_code_le k).trans_lt,
    fun k => (ldKind_code_le k).trans_lt, fun k => (stKind_code_le k).trans_lt, fun k => (at_code_le k).trans_lt,
    fun k => (amoOp_code_le k).trans_lt, fun k => (wD_code_le k).trans_lt, fun k => (casSz_code_le k).trans_lt,
    fun k => (diffScope_code_le k).trans_lt, fun k => (invScope_code_le k).trans_lt,
    fun k => (tlbSub_code_le k).trans_lt, fun k => (clbSub_code_le k).trans_lt, fun k => (genSel_code_le k).trans_lt,
    fun k => (spRule_code_le k).trans_lt, fun k => (drawKind_code_le k).trans_lt,
    fun k => (vCond_code_le k).trans_lt, fun k => (redOp_code_le k).trans_lt, fun k => (mapqSub_code_le k).trans_lt,
    fun k => (lsetSrc_code_le k).trans_lt, fun k => (pat_code_le k).trans_lt, fun k => (seg_code_le k).trans_lt,
    fun k => (tokSub_code_le k).trans_lt, fun b => (boolNat_le b).trans_lt⟩

/-- Every code is read back as the value it stands for. -/
theorem ofCode_code :
    (∀ k : Ty, Ty.ofCode k.code = k) ∧ (∀ k : Rnd, Rnd.ofCode k.code = k) ∧ (∀ k : Iter, Iter.ofCode k.code = k) ∧
    (∀ k : FTy, FTy.ofCode k.code = some k) ∧ (∀ k : VFTy, VFTy.ofCode k.code = some k) ∧
    (∀ k : MFmt, MFmt.ofCode k.code = some k) ∧ (∀ k : MxW, MxW.ofCode k.code = some k) ∧
    (∀ k : MulhKind, MulhKind.ofCode k.code = some k) ∧ (∀ k : Cond, Cond.ofCode k.code = some k) ∧
    (∀ k : ExtKind, ExtKind.ofCode k.code = some k) ∧ (∀ k : LitKind, LitKind.ofCode k.code = some k) ∧
    (∀ k : FCond, FCond.ofCode k.code = some k) ∧ (∀ k : CvtTy, CvtTy.ofCode k.code = some k) ∧
    (∀ k : BrCond, BrCond.ofCode k.code = some k) ∧ (∀ k : LdKind, LdKind.ofCode k.code = some k) ∧
    (∀ k : StKind, StKind.ofCode k.code = some k) ∧ (∀ k : At, At.ofCode k.code = some k) ∧
    (∀ k : AmoOp, AmoOp.ofCode k.code = some k) ∧ (∀ k : WD, WD.ofCode k.code = some k) ∧
    (∀ k : CasSz, CasSz.ofCode k.code = some k) ∧ (∀ k : DiffScope, DiffScope.ofCode k.code = some k) ∧
    (∀ k : InvScope, InvScope.ofCode k.code = some k) ∧ (∀ k : TlbSub, TlbSub.ofCode k.code = some k) ∧
    (∀ k : ClbSub, ClbSub.ofCode k.code = some k) ∧ (∀ k : GenSel, GenSel.ofCode k.code = some k) ∧
    (∀ k : SpRule, SpRule.ofCode k.code = some k) ∧ (∀ k : DrawKind, DrawKind.ofCode k.code = some k) ∧
    (∀ k : VCond, VCond.ofCode k.code = some k) ∧ (∀ k : RedOp, RedOp.ofCode k.code = some k) ∧
    (∀ k : MapqSub, MapqSub.ofCode k.code = some k) ∧ (∀ k : LsetSrc, LsetSrc.ofCode k.code = some k) ∧
    (∀ k : Pat, Pat.ofCode k.code = some k) ∧ (∀ k : Seg, Seg.ofCode k.code = k) ∧
    (∀ k : TokSub, TokSub.ofCode k.code = k) := by
  and_intros <;> intro k <;> cases k <;> rfl

theorem plainOrPm_toNat (b : Bool) : plainOrPm b.toNat = some b := by cases b <;> rfl

theorem srcCode_lt_of_le {c n : Nat} (hn : 1024 ≤ n) (hc : srcCode c = true) : c < n :=
  (Laws.FieldsFit.srcCode_lt hc).trans_le hn

theorem dstCode_lt_of_le {c n : Nat} (hn : 1024 ≤ n) (hc : dstCode c = true) : c < n :=
  (Laws.FieldsFit.dstCode_lt hc).trans_le hn

theorem regCode_lt_of_le {c n : Nat} (hn : 1024 ≤ n) (hc : regCode c = true) : c < n :=
  (Laws.FieldsFit.regCode_lt hc).trans_le hn

theorem parCode_lt_of_le {c n : Nat} (hn : 1024 ≤ n) (hc : parCode c = true) : c < n :=
  (Laws.FieldsFit.parCode_lt hc).trans_le hn

theorem Ty.count_le (t : Ty) : t.count ≤ 512 := by cases t <;> decide

/-! ### Fields side by side -/

/-- The fields lie from the highest down, each below the one before it and the first below bit `n`. -/
def Fits : Nat → List (Nat × Nat) → Prop
  | _, [] => True
  | n, (v, lo) :: l => lo ≤ n ∧ v < 2 ^ (n - lo) ∧ Fits lo l

theorem Fits.place_lt {n : Nat} {l : List (Nat × Nat)} (hl : Fits n l) : place l < 2 ^ n := by
  induction l generalizing n with
  | nil => exact Nat.two_pow_pos n
  | cons x l ih =>
    obtain ⟨v, lo⟩ := x
    obtain ⟨hlo, hv, hl⟩ := hl
    have hlt := ih hl
    calc v * 2 ^ lo + place l < v * 2 ^ lo + 2 ^ lo := by omega
      _ = (v + 1) * 2 ^ lo := by ring
      _ ≤ 2 ^ (n - lo) * 2 ^ lo := Nat.mul_le_mul_right _ hv
      _ = 2 ^ n := by rw [← pow_add, Nat.sub_add_cancel hlo]

theorem fld_zero_of_lt {v w : Nat} (hv : v < 2 ^ w) : fld v 0 w = v := by
  rw [fld, pow_zero, Nat.div_one, Nat.mod_eq_of_lt hv]

theorem fld_of_lt {v lo w : Nat} (hv : v < 2 ^ lo) : fld v lo w = 0 := by
  rw [fld, Nat.div_eq_of_lt hv, Nat.zero_mod]

/-- A field that starts above the bits read adds nothing to them. -/
theorem fld_place_above {v p lo w : Nat} {l : List (Nat × Nat)} (hp : lo + w ≤ p) :
    fld (place ((v, p) :: l)) lo w = fld (place l) lo w := by
  obtain ⟨c, rfl⟩ := Nat.exists_eq_add_of_le hp
  have hsplit : v * 2 ^ (lo + w + c) = 2 ^ w * (v * 2 ^ c) * 2 ^ lo := by ring
  rw [fld, fld, place, hsplit, Nat.add_comm, Nat.add_mul_div_right _ _ (Nat.two_pow_pos lo), Nat.add_mul_mod_self_left]

/-- Bits read from where a field starts, or above, are the field's own: what lies below it is too small to count. -/
theorem fld_place_below {v p lo w : Nat} {l : List (Nat × Nat)} (hl : Fits p l) (hp : p ≤ lo) :
    fld (place ((v, p) :: l)) lo w = fld v (lo - p) w := by
  obtain ⟨c, rfl⟩ := Nat.exists_eq_add_of_le hp
  rw [fld, fld, place, pow_add, ← Nat.div_div_eq_div_mul, Nat.add_comm, Nat.add_mul_div_right _ _ (Nat.two_pow_pos p),
    Nat.div_eq_of_lt hl.place_lt, Nat.zero_add, Nat.add_sub_cancel_left]

/-- Bits [lo+w-1:lo] of fields side by side, by the places of the fields; only where a field starts within those bits
does it take the sum. -/
def readBack (lo w : Nat) : List (Nat × Nat) → Nat
  | [] => 0
  | (v, p) :: l =>
    if lo + w ≤ p then readBack lo w l else if p ≤ lo then fld v (lo - p) w else fld (place ((v, p) :: l)) lo w

theorem Fits.fld_place {n lo w : Nat} {l : List (Nat × Nat)} (hl : Fits n l) :
    fld (place l) lo w = readBack lo w l := by
  induction l generalizing n with
  | nil => exact fld_of_lt (Nat.two_pow_pos lo)
  | cons x l ih =>
    obtain ⟨v, p⟩ := x
    obtain ⟨-, -, hl⟩ := hl
    rw [readBack]
    split_ifs with habove hbelow
    · rw [fld_place_above habove, ih hl]
    · exact fld_place_below hl hbelow
    · rfl

/-! ### Operand fields -/

/-- The opcode and the fields of a well-formed instruction fit under its header. -/
theorem opF_fits {i : Instr} (hf : i.fieldsOk = true) : Fits 46 ((i.opF.1, 38) :: i.opF.2) := by
  cases i
  case' bwait h g => cases g
  case' vtok h k q4 t p a b => have hb := t.count_le; cases k <;> cases q4
  case' vmapq h k q4 a b => cases k <;> cases q4
  all_goals
    simp only [Instr.fieldsOk, v3ok, v3ok1, sreg, Bool.and_eq_true, decide_eq_true_eq, Bool.false_eq_true] at hf
  all_goals
    simp only [Instr.opF, Fits, hf, code_lt, srcCode_lt_of_le, dstCode_lt_of_le, regCode_lt_of_le, parCode_lt_of_le,
      Bool.toNat_true, Bool.toNat_false, Nat.reduceAdd, Nat.reduceSub, Nat.reducePow, Nat.reduceLT, Nat.reduceLeDiff,
      le_refl, and_self, true_and, and_true]
  -- Fields with unused bits above them.
  all_goals omega

theorem decFields_hint {st : Stream} {h : Hdr} {f n : Nat} (hn : n < 15) :
    decFields st h (0xF0 + n) f = some (.hint h n) := by
  have hop : 0xF0 ≤ 0xF0 + n ∧ 0xF0 + n < 0xFF := by omega
  simp (disch := omega) only [decFields, if_neg]
  rw [if_pos hop, Nat.add_sub_cancel_left]

theorem acceptedBy_bwait_vector {h : Hdr} {b : Nat} {st : Stream}
    (ha : (Instr.bwait h (.vector b)).acceptedBy st = true) : st = .v := by
  simpa [Instr.acceptedBy, Instr.streams] using ha

theorem acceptedBy_bwait_scalar {h : Hdr} {d a off : Nat} {st : Stream}
    (ha : (Instr.bwait h (.scalar d a off)).acceptedBy st = true) : st ≠ .v := by
  rintro rfl
  simp [Instr.acceptedBy, Instr.streams] at ha

/-- The decoders of opcodes below 0x80 see the word through its operand fields. BWAIT has the form of the stream that
carries it. -/
theorem decFields_of_op_lt {i : Instr} {st : Stream} {h : Hdr} {f : Nat}
    (hr : ∀ lo w, fld f lo w = readBack lo w i.opF.2) (hf : i.fieldsOk = true) (hh : i.hdr = some h)
    (ha : i.acceptedBy st = true) (hop : i.opF.1 < 0x80) : decFields st h i.opF.1 f = some (i.withLit 0) := by
  cases i
  case hint g n => have : 0xF0 + n < 0x80 := hop; omega
  case' bwait g => rcases g with ⟨d, a, off⟩ | b
  case' bwait.scalar => have hst := acceptedBy_bwait_scalar ha
  case' bwait.vector => obtain rfl := acceptedBy_bwait_vector ha
  -- Events have no header; words of the other opcodes contradict `hop`.
  all_goals cases hh
  all_goals simp only [Instr.opF, Nat.reduceLT] at hop
  all_goals
    simp only [Instr.fieldsOk, sreg, Bool.and_eq_true, decide_eq_true_eq] at hf
    simp only [Instr.opF] at hr
    simp only [Instr.opF, Instr.withLit, decFields, Nat.reduceLT, ↓reduceIte, decSystem, decInt, decFloat, decControl,
      decMem, decQueue, decSched]
  case' bwait.scalar.refl => rw [if_neg hst]
  -- The decoder's reads are the fields' values, and each value fits the bits it is read with.
  all_goals
    simp only [bitAt, hr, readBack, hf, fld_zero_of_lt, fld_of_lt, code_lt, ofCode_code,
      Bool.toNat_beq_one, parCode_lt_of_le, Option.bind_eq_bind, Option.bind_some, Option.pure_def, Nat.reduceAdd,
      Nat.reduceSub, Nat.reducePow, Nat.reduceLT, Nat.reduceLeDiff, le_refl, ↓reduceIte]
  -- Fields whose values end before their bits do.
  all_goals simp (disch := omega) only [fld_zero_of_lt]

/-- The decoders of the other opcodes see the word through its operand fields. VTOK and VMAPQ have field b under one
sub-op alone. -/
theorem decFields_of_le_op {i : Instr} {st : Stream} {h : Hdr} {f : Nat}
    (hr : ∀ lo w, fld f lo w = readBack lo w i.opF.2) (hf : i.fieldsOk = true) (hh : i.hdr = some h)
    (hop : 0x80 ≤ i.opF.1) : decFields st h i.opF.1 f = some (i.withLit 0) := by
  cases i
  case hint g n => cases hh; exact decFields_hint (by simpa [Instr.fieldsOk] using hf)
  case' bwait h g => cases g
  case' vtok k q4 t p a b => have hb := t.count_le; cases k <;> cases q4
  case' vmapq k q4 a b => cases k <;> cases q4
  -- Events have no header; words of the other opcodes contradict `hop`.
  all_goals cases hh
  all_goals simp only [Instr.opF, Nat.reduceLeDiff] at hop
  all_goals
    simp only [Instr.fieldsOk, v3ok, v3ok1, Bool.and_eq_true, decide_eq_true_eq, Nat.lt_one_iff] at hf
    simp only [Instr.opF, Bool.toNat_true, Bool.toNat_false, Nat.reduceAdd] at hr
    simp only [Instr.opF, Instr.withLit, decFields, Nat.reduceLT, ↓reduceIte, decVec, decVecMem, decMat]
  -- The decoder's reads are the fields' values, and each value fits the bits it is read with.
  all_goals
    simp only [bitAt, tokQueue, vT, vP, hr, readBack, hf, fld_zero_of_lt, fld_of_lt, code_lt, ofCode_code,
      Bool.toNat_beq_one, plainOrPm_toNat, srcCode_lt_of_le, dstCode_lt_of_le, regCode_lt_of_le, parCode_lt_of_le,
      Option.bind_eq_bind, Option.bind_some, Option.pure_def, Nat.reduceAdd, Nat.reduceSub, Nat.reducePow, Nat.reduceLT,
      Nat.reduceLeDiff, Nat.reduceEqDiff, le_refl, reduceCtorEq, ↓reduceIte]
  -- Fields whose values end before their bits do.
  all_goals simp (disch := omega) only [fld_zero_of_lt, fld_of_lt]

/-- Steps 2 and 5 of R32: an opcode with its operand fields decodes to their instruction, its literal still 0. -/
theorem decFields_opF {i : Instr} {st : Stream} {h : Hdr} (hf : i.fieldsOk = true) (hh : i.hdr = some h)
    (ha : i.acceptedBy st = true) : decFields st h i.opF.1 (place i.opF.2) = some (i.withLit 0) := by
  obtain ⟨-, -, hfits⟩ := opF_fits hf
  have hr : ∀ lo w, fld (place i.opF.2) lo w = readBack lo w i.opF.2 := fun _ _ => hfits.fld_place
  rcases Nat.lt_or_ge i.opF.1 0x80 with hop | hop
  · exact decFields_of_op_lt hr hf hh ha hop
  · exact decFields_of_le_op hr hf hh hop

/-! ### The literal -/

theorem acceptedBy_withLit (i : Instr) (l : Nat) (st : Stream) : (i.withLit l).acceptedBy st = i.acceptedBy st := by
  unfold Instr.withLit; split <;> rfl

theorem litKind_withLit (i : Instr) (l : Nat) : (i.withLit l).litKind = i.litKind := by
  unfold Instr.withLit; split <;> rfl

theorem withLit_withLit_lit (i : Instr) (l : Nat) : (i.withLit l).withLit i.lit = i := by
  cases i <;> rfl

theorem withLit_of_litKind_none {i : Instr} (l : Nat) (hk : i.litKind = none) : i.withLit l = i := by
  unfold Instr.withLit
  split
  case h_4 => rfl
  all_goals cases hk

theorem Instr.wf_iff {i : Instr} : i.wf = true ↔ ∃ h, i.hdr = some h ∧ h.wf = true ∧ i.fieldsOk = true := by
  unfold Instr.wf
  cases i.hdr <;> simp

theorem wf_withLit_zero {i : Instr} (hw : i.wf = true) : (i.withLit 0).wf = true := by
  unfold Instr.withLit
  split
  case h_1 h k d l => cases k <;> simp_all [Instr.wf, Instr.hdr, Instr.fieldsOk]
  case h_2 h t m d a b l => cases t <;> simp_all [Instr.wf, Instr.hdr, Instr.fieldsOk]
  case h_3 h t p m d a b l => cases t <;> simp_all [Instr.wf, Instr.hdr, Instr.fieldsOk]
  case h_4 => exact hw

/-- A literal fits its kind: 32 bits of kind 0, 48 of kind 1 (R34). -/
theorem lit_lt {i : Instr} {k : Nat} (hf : i.fieldsOk = true) (hk : i.litKind = some k) :
    k < 2 ∧ i.lit < 2 ^ (if k = 0 then 32 else 48) := by
  unfold Instr.litKind at hk
  split at hk
  case h_1 h j d l => cases j <;> cases hk <;> simp_all [Instr.fieldsOk, Instr.lit]
  case h_2 h t m d a b l => cases t <;> cases hk <;> simp_all [Instr.fieldsOk, Instr.lit]
  case h_3 h t p m d a b l => cases t <;> cases hk <;> simp_all [Instr.fieldsOk, Instr.lit]
  case h_4 => cases hk

/-- The fields of the literal word of kind `k` (R34). -/
def litFields (i : Instr) (k : Nat) : List (Nat × Nat) := [(0xFF00 + k, 48), (i.lit, 0)]

theorem litFields_fits {i : Instr} {k : Nat} (hf : i.fieldsOk = true) (hk : i.litKind = some k) :
    Fits 64 (litFields i k) := by
  obtain ⟨hk2, hl⟩ := lit_lt hf hk
  have hl48 : i.lit < 2 ^ 48 := hl.trans_le (Nat.pow_le_pow_right (by decide) (by split <;> decide))
  exact ⟨by decide, by omega, by decide, hl48, trivial⟩

theorem takeLit_litFields {i : Instr} {k : Nat} (hf : i.fieldsOk = true) (hk : i.litKind = some k) :
    takeLit (i.withLit 0) (place (litFields i k)) = .ok i := by
  obtain ⟨hk2, hl⟩ := lit_lt hf hk
  have hcode : fld (place (litFields i k)) 48 16 = 0xFF00 + k :=
    (litFields_fits hf hk).fld_place.trans (fld_zero_of_lt (by omega))
  have hlit : fld (place (litFields i k)) 0 (if k = 0 then 32 else 48) = i.lit := by
    rw [litFields, fld_place_above (by split <;> decide), fld_place_below (l := []) trivial le_rfl]
    exact fld_zero_of_lt hl
  simp only [takeLit, litKind_withLit, hk, hcode, hlit, withLit_withLit_lit, if_true]

theorem takeLit_of_litKind_none {i : Instr} (next : Nat) (hk : i.litKind = none) :
    takeLit (i.withLit 0) next = .ok i := by
  simp only [takeLit, hk, withLit_of_litKind_none 0 hk]

/-! ### The word -/

/-- All fields of the instruction's word, header first (R27). -/
def wordFields (h : Hdr) (i : Instr) : List (Nat × Nat) :=
  (h.w, 56) :: (h.g, 48) :: (h.it.code, 46) :: (i.opF.1, 38) :: i.opF.2

theorem encode_eq {i : Instr} {h : Hdr} (hh : i.hdr = some h) :
    encode i = place (wordFields h i) :: (i.litKind.map fun k => place (litFields i k)).toList := by
  unfold encode
  rw [hh]
  cases i.litKind <;> simp [wordFields, litFields, place, Nat.add_assoc]

theorem wordFields_fits {i : Instr} {h : Hdr} (hw : h.wf = true) (hf : i.fieldsOk = true) :
    Fits 64 (wordFields h i) := by
  simp only [Hdr.wf, Bool.and_eq_true, decide_eq_true_eq] at hw
  obtain ⟨hlt, hg⟩ := hw
  have hit : h.it.code < 2 ^ 2 := (Laws.FieldsFit.iter_code_le h.it).trans_lt (by decide)
  exact ⟨by decide, by omega, by decide, hg, by decide, hit, opF_fits hf⟩

theorem hdrOf_wordFields {i : Instr} {h : Hdr} (hL : Fits 64 (wordFields h i)) :
    hdrOf (place (wordFields h i)) = h := by
  obtain ⟨-, hw, -, hg, -, hit, -⟩ := id hL
  have hwait : fld (place (wordFields h i)) 56 8 = h.w := hL.fld_place.trans (fld_zero_of_lt hw)
  have hsig : fld (place (wordFields h i)) 48 8 = h.g := hL.fld_place.trans (fld_zero_of_lt hg)
  have hiter : fld (place (wordFields h i)) 46 2 = h.it.code := hL.fld_place.trans (fld_zero_of_lt hit)
  simp only [hdrOf, hwait, hsig, hiter, ofCode_code]

theorem opOf_wordFields {i : Instr} {h : Hdr} (hL : Fits 64 (wordFields h i)) :
    opOf (place (wordFields h i)) = i.opF.1 := by
  obtain ⟨-, -, -, -, -, -, -, hop, -⟩ := id hL
  exact hL.fld_place.trans (fld_zero_of_lt hop)

theorem operands_wordFields {i : Instr} {h : Hdr} (hL : Fits 64 (wordFields h i)) :
    fld (place (wordFields h i)) 0 38 = place i.opF.2 := by
  obtain ⟨-, -, -, -, -, -, -, -, hfits⟩ := hL
  simp only [wordFields, fld_place_above, Nat.reduceLeDiff, Nat.reduceAdd, le_refl]
  exact fld_zero_of_lt hfits.place_lt

/-- Steps 1, 2, 3 and 5 of R32 on the word of a well-formed instruction. -/
theorem decodeFirst_wordFields {i : Instr} {h : Hdr} {st : Stream} (hh : i.hdr = some h) (hwf : h.wf = true)
    (hf : i.fieldsOk = true) (ha : i.acceptedBy st = true) :
    decodeFirst st (place (wordFields h i)) = .ok (i.withLit 0) := by
  have hL := wordFields_fits hwf hf
  have hwait : fld (place (wordFields h i)) 56 8 = h.w := congrArg Hdr.w (hdrOf_wordFields hL)
  have hnolit : h.w ≠ 255 := by
    simp only [Hdr.wf, Bool.and_eq_true, decide_eq_true_eq] at hwf
    omega
  rw [decodeFirst, hwait, if_neg hnolit, hdrOf_wordFields hL, opOf_wordFields hL, operands_wordFields hL,
    decFields_opF hf hh ha]
  simp only [acceptedBy_withLit, ha, wf_withLit_zero (Instr.wf_iff.mpr ⟨h, hh, hwf, hf⟩), Bool.and_self, if_true]

/-! ### The bytes -/

theorem length_bytesOfWord (n w : Nat) : (bytesOfWord n w).length = n := by
  induction n generalizing w with
  | zero => rfl
  | succ n ih => rw [bytesOfWord, List.length_cons, ih]

theorem wordOfBytes_bytesOfWord (n w : Nat) : wordOfBytes (bytesOfWord n w) = w % 256 ^ n := by
  induction n generalizing w with
  | zero => rw [pow_zero, Nat.mod_one]; rfl
  | succ n ih => rw [bytesOfWord, wordOfBytes, ih, BitVec.toNat_ofNat, pow_succ' 256 n, Nat.mod_mul]

/-- The eight bytes of a word, read back from the head of a list. -/
theorem wordOfBytes_take {w : Nat} (hw : w < 2 ^ 64) (bs : List Byte) :
    wordOfBytes ((bytesOfWord 8 w ++ bs).take 8) = w := by
  rw [List.take_left' (length_bytesOfWord 8 w), wordOfBytes_bytesOfWord]
  exact Nat.mod_eq_of_lt hw

theorem drop_bytesOfWord (w : Nat) (bs : List Byte) : (bytesOfWord 8 w ++ bs).drop 8 = bs :=
  List.drop_left' (length_bytesOfWord 8 w)

theorem one_le_words (i : Instr) : 1 ≤ i.words := by
  unfold Instr.words; split <;> decide

/-- The decoder on bytes that begin with a word: it decodes the word with the next eight bytes, and leaves what follows
the words of the instruction. -/
theorem decodeBytes_append {st : Stream} {i : Instr} {w : Nat} {bs : List Byte} (hw : w < 2 ^ 64)
    (hd : decode st w (wordOfBytes (bs.take 8)) = .ok i) :
    decodeBytes st (bytesOfWord 8 w ++ bs) = .ok (i, bs.drop (8 * (i.words - 1))) := by
  have hdrop : (bytesOfWord 8 w ++ bs).drop (8 * i.words) = bs.drop (8 * (i.words - 1)) := by
    obtain ⟨n, hn⟩ := Nat.exists_eq_add_of_le (one_le_words i)
    rw [hn, Nat.mul_add, Nat.add_sub_cancel_left, Nat.mul_one, ← List.drop_drop, drop_bytesOfWord]
  rw [decodeBytes, wordOfBytes_take hw, drop_bytesOfWord, hd]
  simp only [hdrop]

/-- Settles O58: the word's fields decode by `decodeFirst_wordFields`, the literal word by `takeLit_litFields`, and the
bytes of both read back as they were written. -/
theorem decodeReadsWhatEncodeWrites : Obligations.DecodeReadsWhatEncodeWrites := by
  intro i st rest hw ha
  obtain ⟨h, hh, hwf, hf⟩ := Instr.wf_iff.mp hw
  have hfirst := decodeFirst_wordFields hh hwf hf ha
  have hlt := (wordFields_fits hwf hf).place_lt
  rw [encodeBytes, encode_eq hh, List.flatMap_cons, List.append_assoc]
  cases hk : i.litKind with
  | none =>
    have hd (next : Nat) : decode st (place (wordFields h i)) next = .ok i := by
      rw [decode, hfirst]
      exact takeLit_of_litKind_none next hk
    rw [decodeBytes_append hlt (hd _)]
    simp [Instr.words, hk]
  | some k =>
    have hd : decode st (place (wordFields h i)) (place (litFields i k)) = .ok i := by
      rw [decode, hfirst]
      exact takeLit_litFields hf hk
    have hlit : (Option.map (fun k => place (litFields i k)) (some k)).toList.flatMap (bytesOfWord 8) ++ rest =
        bytesOfWord 8 (place (litFields i k)) ++ rest := by simp
    rw [hlit, decodeBytes_append hlt (by rw [wordOfBytes_take (litFields_fits hf hk).place_lt]; exact hd)]
    simp [Instr.words, hk, drop_bytesOfWord]

end Sys2Proof
end

section
/-! The words of the random generators (O22). A jump is repeated stepping because `jumpCoef` holds, by the bits of n,
the coefficients of the affine map that n steps are (`jumpCoef_eq_iterate`). RSEED and RJUMP are one write of a generator in
the state after the wait (`runOp_wrGen`), and RNEXT is such a write and one of a register. -/

namespace Sys2Proof.Machine

/-! ### Jump -/

theorem natCast_genStep (x c : Nat) : (genStep x c : ZMod (2 ^ 128)) = genA * x + c := by
  rw [genStep, ZMod.natCast_mod, Nat.cast_add, Nat.cast_mul]

theorem genStep_lt (x c : Nat) : genStep x c < 2 ^ 128 := Nat.mod_lt _ (by decide)

theorem iterate_genStep_lt {x : Nat} (c n : Nat) (hx : x < 2 ^ 128) : (fun y => genStep y c)^[n] x < 2 ^ 128 := by
  cases n with
  | zero => exact hx
  | succ n => rw [Function.iterate_succ_apply']; exact genStep_lt _ c

theorem jumpCoef_zero (fuel : Nat) : jumpCoef 0 fuel = (1, 0) := by cases fuel <;> rfl

/-- Twice as many steps: the affine map after itself. -/
theorem jumpCoef_two_mul {m : Nat} (fuel : Nat) (hm : m ≠ 0) :
    jumpCoef (2 * m) (fuel + 1) = ((jumpCoef m fuel).1 * (jumpCoef m fuel).1 % 2 ^ 128,
      ((jumpCoef m fuel).2 + (jumpCoef m fuel).1 * (jumpCoef m fuel).2) % 2 ^ 128) := by
  have hhalf : 2 * m / 2 = m := by omega
  have hodd : 2 * m % 2 = 0 := by omega
  simp only [jumpCoef, hhalf, hodd, if_pos, if_neg (show ¬ 2 * m = 0 by omega)]

/-- One step more before them. -/
theorem jumpCoef_two_mul_add_one (m fuel : Nat) :
    jumpCoef (2 * m + 1) (fuel + 1) =
      ((jumpCoef m fuel).1 * (jumpCoef m fuel).1 % 2 ^ 128 * genA % 2 ^ 128,
      (((jumpCoef m fuel).2 + (jumpCoef m fuel).1 * (jumpCoef m fuel).2) % 2 ^ 128 +
        (jumpCoef m fuel).1 * (jumpCoef m fuel).1 % 2 ^ 128) % 2 ^ 128) := by
  have hhalf : (2 * m + 1) / 2 = m := by omega
  have hodd : (2 * m + 1) % 2 = 1 := by omega
  simp only [jumpCoef, hhalf, hodd, if_neg (show ¬ 2 * m + 1 = 0 by omega), if_neg (show ¬ 1 = 0 by decide)]

/-- n steps are the affine map of the coefficients, modulo 2^128. -/
theorem jumpCoef_eq_iterate (c : Nat) : ∀ (fuel n x : Nat), n < 2 ^ fuel →
    ((jumpCoef n fuel).1 * x + c * (jumpCoef n fuel).2 : ZMod (2 ^ 128)) = ((fun y => genStep y c)^[n] x : Nat) := by
  intro fuel
  induction fuel with
  | zero =>
    intro n x hn
    obtain rfl : n = 0 := by simpa using hn
    simp [jumpCoef_zero]
  | succ fuel ih =>
    intro n x hn
    rw [pow_succ'] at hn
    obtain ⟨m, rfl | rfl⟩ := Nat.even_or_odd' n
    · by_cases hm : m = 0
      · subst hm; simp [jumpCoef_zero]
      rw [jumpCoef_two_mul fuel hm, two_mul, Function.iterate_add_apply, ← ih m _ (by omega), ← ih m x (by omega)]
      simp only [ZMod.natCast_mod, Nat.cast_add, Nat.cast_mul]
      ring
    · rw [jumpCoef_two_mul_add_one, Function.iterate_succ_apply, two_mul, Function.iterate_add_apply,
        ← ih m _ (by omega), ← ih m _ (by omega), natCast_genStep]
      simp only [ZMod.natCast_mod, Nat.cast_add, Nat.cast_mul]
      ring

/-- The coefficients of 128 bits serve every n below 2^128, and both sides are below 2^128. -/
theorem jumpIsRepeatedStep : JumpIsRepeatedStep := by
  intro x c n hx hn
  have hcast := jumpCoef_eq_iterate c 128 n x hn
  have hmod := (ZMod.natCast_eq_natCast_iff' ((jumpCoef n 128).1 * x + c * (jumpCoef n 128).2) _ _).mp
    (by rw [← hcast]; simp only [Nat.cast_add, Nat.cast_mul])
  rw [Nat.mod_eq_of_lt (iterate_genStep_lt c n hx)] at hmod
  rw [genJump, Nat.mod_eq_of_lt hn]
  exact hmod

/-! ### A generator written -/

@[simp] theorem Core.setGen_st (c : Core) (st : Stream) (g : Gen) : (c.setGen st g).st = c.st := by cases st <;> rfl

@[simp] theorem Core.setGen_sreg (c : Core) (st u : Stream) (g : Gen) (r : Nat) :
    (c.setGen st g).sreg u r = c.sreg u r := by cases st <;> rfl

@[simp] theorem Core.gen_setGen_self (c : Core) (st : Stream) (g : Gen) : (c.setGen st g).gen st = g := by
  cases st <;> rfl

/-- M has no generator (R313). -/
theorem Core.gen_setGen_other (c : Core) {st u : Stream} (g : Gen) (hst : st ≠ .m) (hu : u ≠ .m) (h : u ≠ st) :
    (c.setGen st g).gen u = c.gen u := by
  cases st <;> cases u <;> simp_all [Core.gen, Core.setGen]

theorem Core.apart_setGen (c : Core) (st : Stream) (g : Gen) : (c.setGen st g).apart = c.apart.setGen st g := by
  cases st <;> rfl

theorem Core.apart_setSreg (c : Core) (st : Stream) (r : Nat) (v : Word) :
    (c.setSreg st r v).apart = c.apart.setSreg st r v := by
  unfold Core.setSreg
  split
  · rfl
  · cases st <;> rfl

theorem Core.gen_of_apart_eq {c c' : Core} (h : c.apart = c'.apart) (st : Stream) : c.gen st = c'.gen st := by
  have hgen (c : Core) : c.apart.gen st = c.gen st := by cases st <;> rfl
  rw [← hgen c, h, hgen c']

theorem Core.inIter_of_apart_eq {c c' : Core} (h : c.apart = c'.apart) : c.inIter = c'.inIter := by
  show c.apart.inIter = c'.apart.inIter
  rw [h]

theorem genStream_ne_m (g : GenSel) : genStream g ≠ .m := by cases g <;> decide

/-- Noting an old value changes the history of the executing core's registers, and may number an event. -/
theorem noteOld_run {s : State} (hs : s.me.st ≠ .idle) (key old new : Nat) :
    ∃ t l, (noteOld key old new).run s = .ok ((), t) ∧ t.me = { s.me with rhist := l } ∧ t.mem = s.mem ∧
      t.curStream = s.curStream := by
  unfold noteOld
  split
  · exact ⟨s, s.me.rhist, rfl, rfl, rfl, rfl⟩
  · exact ⟨_, _, rfl, State.me_withMe { s with seq := s.seq + 1 } hs, rfl, rfl⟩

/-- A write of a generator changes the executing core's generator and the history of its writes. -/
theorem wrGen_run {s : State} (hs : s.me.st ≠ .idle) (st : Stream) (g : Gen) :
    ∃ t l, (wrGen st g).run s = .ok ((), t) ∧ t.me = ({ s.me with rhist := l } : Core).setGen st g ∧ t.mem = s.mem ∧
      t.curStream = s.curStream := by
  obtain ⟨t, l, hrun, hme, hmem, hst⟩ := noteOld_run hs (keyGen st.num) (s.me.gen st).nat g.nat
  refine ⟨t.withMe (t.me.setGen st g), l, ?_, ?_, hmem, hst⟩
  · rw [wrGen, Op.run_bind_ok (here_run s), Op.run_bind_ok hrun, modHere_run]
  · rw [State.me_withMe _ (by rw [Core.setGen_st, hme]; exact hs), hme]

/-- C's own generator, or any of them outside a speculative iteration, may be written. -/
theorem ownGen_run {s : State} {g : GenSel} (h : s.me.inIter = false ∨ g = .c) : (ownGen g).run s = .ok ((), s) := by
  unfold ownGen
  split
  · rfl
  next hg =>
    have hin : s.me.inIter = false := h.resolve_right (by rintro rfl; exact hg rfl)
    rw [noSpec_run, hin]
    rfl

/-! ### The words -/

section
variable {s : State} {i : Instr} {h : Hdr}

theorem State.waited_gen (hs : s.me.st ≠ .idle) (st : Stream) : (s.waited i h).me.gen st = s.me.gen st :=
  Core.gen_of_apart_eq (State.waited_me_apart hs) st

theorem State.waited_inIter (hs : s.me.st ≠ .idle) : (s.waited i h).me.inIter = s.me.inIter :=
  Core.inIter_of_apart_eq (State.waited_me_apart hs)

/-- A ready word stands in a stream that carries it. -/
theorem State.curStream_mem_of_ready (hr : s.ready i h = true) : s.curStream ∈ i.streams := by
  have hacc := State.ready_accepts hr
  simp only [State.accepts, Bool.and_eq_true] at hacc
  obtain ⟨⟨⟨⟨⟨hstream, -⟩, -⟩, -⟩, -⟩, -⟩ := hacc
  simpa using hstream

/-- A ready word that writes one generator changes no other, no memory and no register. -/
theorem runOp_wrGen {body : Op Unit} {g : GenSel} {x : Gen} (hr : s.ready i h = true)
    (hb : body.run (s.waited i h) = (wrGen (genStream g) x).run (s.waited i h)) :
    ∃ t : State, runOp i h body s = .next (t.retire i h fall) ∧ t.me.gen (genStream g) = x ∧
      (∀ st, st ≠ .m → st ≠ genStream g → t.me.gen st = s.me.gen st) ∧ t.mem = s.mem ∧ ∀ r, t.sreg r = s.sreg r := by
  have hs := State.ready_busy hr
  obtain ⟨t, l, hrun, hme, hmem, hst⟩ := wrGen_run (s := s.waited i h) (by rwa [State.waited_st hs]) (genStream g) x
  refine ⟨t, runOp_ready hr (hb.trans hrun), ?_, ?_, ?_, ?_⟩
  · rw [hme, Core.gen_setGen_self]
  · intro st hm hne
    rw [hme, Core.gen_setGen_other _ _ (genStream_ne_m g) hm hne, ← State.waited_gen (i := i) (h := h) hs]
    cases st <;> rfl
  · rw [hmem, State.waited_mem]
  · intro r
    rw [State.sreg, hme, hst, Core.setGen_sreg, ← State.waited_sreg (i := i) (h := h) hs]
    rfl

end

/-- The state that RSEED takes from a register pair, high half first. -/
theorem ofNat_pair_eq_append (hi lo : Word) : BitVec.ofNat 128 (hi.toNat * 2 ^ 64 + lo.toNat) = hi ++ lo := by
  apply BitVec.eq_of_toNat_eq
  rw [BitVec.toNat_ofNat, BitVec.toNat_append, ← Nat.shiftLeft_add_eq_or_of_lt lo.isLt, Nat.shiftLeft_eq]
  exact Nat.mod_eq_of_lt (by omega)

/-- The increment that RSEED makes of it, with bit 0 set in place of the low half's last bit. -/
theorem ofNat_double_or_one (hi lo : Word) :
    BitVec.ofNat 128 (hi.toNat * 2) ||| (1 : BitVec 128) = ((hi ++ lo : BitVec 128) >>> 63) ||| 1 := by
  have hdouble : BitVec.ofNat 128 (hi.toNat * 2) = hi.setWidth 128 <<< 1 := by
    apply BitVec.eq_of_toNat_eq
    have hlt : hi.toNat < 2 ^ 128 := by omega
    rw [BitVec.toNat_ofNat, BitVec.toNat_shiftLeft, BitVec.toNat_setWidth, Nat.mod_eq_of_lt hlt, Nat.shiftLeft_eq,
      pow_one]
  rw [hdouble]
  ext n hn
  cases n with
  | zero => simp
  | succ n =>
    have habove : ¬ 63 + (n + 1) < 64 := by omega
    have hindex : 63 + (n + 1) - 64 = n := by omega
    have hhigh : (hi ++ lo).getLsbD (63 + (n + 1)) = hi.getLsbD n := by
      rw [BitVec.getLsbD_append, if_neg habove, hindex]
    simpa using hhigh.symm

theorem rseedOp_run {s : State} {g : GenSel} (a b : Nat) (ho : s.me.inIter = false ∨ g = .c) :
    (rseedOp g a b).run s = (wrGen (genStream g) ⟨s.sreg b ++ s.sreg a,
      ((s.sreg b ++ s.sreg a : BitVec 128) >>> 63) ||| 1, s.sreg b ++ s.sreg a⟩).run s := by
  rw [rseedOp, Op.run_bind_ok (ownGen_run ho), Op.run_bind_ok (rdS_run a s), Op.run_bind_ok (rdS_run b s),
    ofNat_pair_eq_append, ofNat_double_or_one _ (s.sreg a)]

theorem rjumpOp_run {s : State} {g : GenSel} (a sh : Nat) (ho : s.me.inIter = false ∨ g = .c) :
    (rjumpOp g a sh).run s = (wrGen (genStream g) { s.me.gen (genStream g) with
      x := BitVec.ofNat 128 (genJump (s.me.gen (genStream g)).x.toNat (s.me.gen (genStream g)).c.toNat
        ((s.sreg a).toNat * 2 ^ sh)) }).run s := by
  rw [rjumpOp, Op.run_bind_ok (ownGen_run ho), Op.run_bind_ok (rdS_run a s), Op.run_bind_ok (here_run s)]

/-- RNEXT changes C's generator and its register d alone. -/
theorem exec_rnext_of_ready {s : State} {h : Hdr} {d : Nat} (hr : s.ready (.rnext h d) h = true) :
    ∃ t : State, exec (.rnext h d) s = .next (t.retire (.rnext h d) h fall) ∧
      s.OnlyMe t ((s.me.setGen .c s.me.genC.stepped).setSreg .c d
        (BitVec.ofNat 64 (genOut s.me.genC.stepped.x.toNat))) := by
  have hs := State.ready_busy hr
  have hc : s.curStream = .c := List.mem_singleton.mp (State.curStream_mem_of_ready hr)
  let w := s.waited (.rnext h d) h
  have hw : w.me.st ≠ .idle := by rwa [State.waited_st hs]
  have hgen : w.me.genC = s.me.genC := State.waited_gen hs .c
  let u := w.withMe (w.me.setGen .c s.me.genC.stepped)
  have hu : u.me = w.me.setGen .c s.me.genC.stepped := State.me_withMe w (by rwa [Core.setGen_st])
  refine ⟨u.setS d (BitVec.ofNat 64 (genOut s.me.genC.stepped.x.toNat)), runOp_ready hr ?_, ?_, ?_, ?_⟩
  · rw [Op.run_bind_ok (here_run _), hgen]
    rfl
  · exact State.waited_apart
  · intro j hj
    have hjw : j ≠ w.curCore := by rwa [State.waited_curCore]
    rw [State.core_setS_other u _ _ hjw, State.core_withMe_other w _ hjw, State.waited_core_other hj]
  · have huc : u.curStream = .c := State.waited_curStream.trans hc
    rw [State.me_setS _ _ _ (by rw [hu, Core.setGen_st]; exact hw), hu, huc, Core.apart_setSreg, Core.apart_setGen,
      State.waited_me_apart hs, ← Core.apart_setGen, ← Core.apart_setSreg]

theorem generatorWords : GeneratorWords := by
  intro s h
  refine ⟨fun g a b hr ho => ?_, fun g a sh hr ho => ?_, fun d hr => exec_rnext_of_ready hr⟩
  · have hs := State.ready_busy hr
    refine runOp_wrGen (body := rseedOp g a b) hr ?_
    rw [rseedOp_run a b (by rwa [State.waited_inIter hs]), State.waited_sreg hs, State.waited_sreg hs]
  · have hs := State.ready_busy hr
    refine runOp_wrGen (body := rjumpOp g a sh) hr ?_
    rw [rjumpOp_run a sh (by rwa [State.waited_inIter hs]), State.waited_sreg hs, State.waited_gen hs]

/-- Settles O22: each word is one write of a generator after its wait, and RNEXT writes a register beside it; a jump is
repeated stepping by `jumpCoef_eq_iterate`. -/
theorem generatorsStepAndJump : Obligations.GeneratorsStepAndJump :=
  ⟨generatorWords, jumpIsRepeatedStep⟩

end Sys2Proof.Machine
end

section
/-! Every step goes on (O56). -/

namespace Sys2Proof.Machine

/-- The meaning of every word and of every event answers a state: a word's checks, waits and faults are all within
`State.word`, and an event takes place or leaves the package as it is. -/
theorem exec_eq_next (i : Instr) (s : State) : ∃ t : State, exec i s = .next t := by
  cases i <;> exact ⟨_, rfl⟩

theorem turn_eq_next (u : Turn) (s : State) : ∃ t : State, turn u s = .next t := by
  cases u with
  | stream k st =>
    rw [turn]
    cases s.issueSlot k st with
    | inl t => exact ⟨t, rfl⟩
    | inr p => exact exec_eq_next p.1 p.2
  | event i => exact exec_eq_next i s
  | tick n => exact ⟨s.tick n, rfl⟩
  | prefetch k n kind va => exact ⟨s.prefetch k n kind va, rfl⟩

/-- Settles O56, by what the turn that comes next does; a package in which none comes stays where it is. -/
theorem everyStepGoesOn : Obligations.EveryStepGoesOn := by
  intro s
  rw [step]
  rcases s.nextTurn with ⟨_ | u, t⟩
  · exact ⟨t, rfl⟩
  · exact turn_eq_next u t

end Sys2Proof.Machine
end

section

/-!
Words between the turn and their effects: a wait that is not satisfied, and the states that refute what is said of
retirement, waiting words, words that are left out, and the word that a step runs.
-/

namespace Sys2Proof.Machine

/-! ### How a turn at a word ends -/

theorem State.atWord_iff {s : State} : s.atWord = true ↔ s.stopDue s.curCore = false ∧
    s.mayIssue s.curCore s.curStream = true ∧ (s.curStream = .c → s.uiReady s.curCore = false) := by
  simp [State.atWord, and_assoc, imp_iff_not_or]

/-- A stream that may issue is one of a running core. -/
theorem State.running_of_atWord {s : State} (hw : s.atWord = true) : s.me.st = .running := by
  have hissue := (State.atWord_iff.mp hw).2.1
  simp only [State.mayIssue, Bool.and_eq_true] at hissue
  exact eq_of_beq hissue.1.1.1.1.1

theorem State.busy_of_atWord {s : State} (hw : s.atWord = true) : s.me.st ≠ .idle := by
  rw [State.running_of_atWord hw]; decide

/-- A word that does not pass its checks and its wait ends as they end. -/
theorem runWord_front_error {s : State} {i : Instr} {h : Hdr} {e : Stop} (body : Op Fin) (hw : s.atWord = true)
    (he : (front i h).run s = .error e) : runWord i h body s = .next (s.settle i e) := by
  obtain ⟨hstop, hissue, hui⟩ := State.atWord_iff.mp hw
  unfold runWord State.word
  simp only [hstop, hissue, Bool.false_eq_true, if_false, Bool.not_true]
  rw [if_neg (by simpa using fun hc hr => absurd hr (by simp [hui hc])), he]

/-! ### A wait that is not satisfied -/

/-- What a wait that is not satisfied leaves (R28, R75): the stream blocked, and at a counter in line for it (R77). -/
def State.waitingAt (s : State) (i : Instr) (h : Hdr) : State :=
  if 0x01 ≤ h.w ∧ h.w ≤ 0x3F then ((s.replayed i h).modStrm fun x => { x with waitOn := h.w }).setBlocked
  else s.setBlocked

theorem takeWait_run_closed {s : State} {h : Hdr} (ho : s.waitOpen h = false) :
    (takeWait h.w).run s = .error
      (if 0x01 ≤ h.w ∧ h.w ≤ 0x3F then .hold (s.modStrm fun x => { x with waitOn := h.w }) else .block) := by
  simp only [State.waitOpen, Bool.or_eq_false_iff] at ho
  obtain ⟨-, ho⟩ := ho
  unfold takeWait
  rw [Op.run_bind_ok (here_run s)]
  simp only [Bool.and_eq_true, decide_eq_true_eq] at ho ⊢
  by_cases hcnt : 0x01 ≤ h.w ∧ h.w ≤ 0x3F
  · rw [if_pos hcnt] at ho
    have hshut : (decide (s.me.count h.w = 0) || s.outranked h.w) = true := by
      cases hout : s.outranked h.w <;> simp_all
    rw [if_pos hcnt, if_pos hcnt, Op.run_bind_ok (Op.run_get s)]
    simp only [hshut, if_true]
    rfl
  rw [if_neg hcnt] at ho ⊢
  rw [if_neg hcnt]
  by_cases hrdv : 0x40 ≤ h.w ∧ h.w ≤ 0x4F
  · rw [if_pos hrdv] at ho ⊢
    simp only [ho, Bool.false_eq_true, if_false, block_run]
  rw [if_neg hrdv] at ho ⊢
  split_ifs at ho ⊢
  all_goals rw [guardBlock_run, ho]; rfl

theorem front_run_closed {s : State} {i : Instr} {h : Hdr} (hw : s.atWord = true)
    (ha : s.accepts i h = true) (hf : s.firstPass = true) (hskip : s.me.skipped s.curStream h = false)
    (hl : isListed i s.me s.curStream = false) (hr : s.replayRule i h ≠ .wait) (ho : s.waitOpen h = false) :
    (front i h).run s = .error (if 0x01 ≤ h.w ∧ h.w ≤ 0x3F then
      .hold ((s.replayed i h).modStrm fun x => { x with waitOn := h.w }) else .block) := by
  have hclosed : (s.replayed i h).waitOpen h = false := (State.replayed_waitOpen (State.busy_of_atWord hw)).trans ho
  have hiss : s.strm.issued = false := by
    simp only [State.waitOpen, Bool.or_eq_false_iff] at ho
    exact ho.1.1
  have hx : s.me.stream s.curStream = s.strm := rfl
  have hf' : s.strm.firstPass s.curStream = true := hf
  unfold front
  rw [Op.run_bind_ok (preCheck_run ha), Op.run_bind_ok (streamOf_run s), Op.run_bind_ok (here_run s)]
  simp only [hx, hf', hskip, hl, Bool.and_false, Bool.false_and, Bool.false_eq_true, if_false]
  rw [Op.run_bind_ok (replayHold_run hr)]
  refine Op.run_bind_error ?_
  simp only [waitOnce, hiss, hf', Bool.false_eq_true, if_false, Bool.not_true]
  exact Op.run_bind_error (takeWait_run_closed hclosed)

/-- Only V's block lets a stop of A's fault go on (R379). -/
theorem State.vBlocks_of_no_pending {s : State} (hv : s.curStream ≠ .v ∨ s.me.pend = none) : s.vBlocks = s := by
  have hme : s.core s.curCore = s.me := rfl
  unfold State.vBlocks
  rcases hv with hv | hv <;> simp [hme, hv]

theorem State.setBlocked_vBlocks {s : State} (hs : s.me.st ≠ .idle) (hv : s.curStream ≠ .v ∨ s.me.pend = none) :
    s.setBlocked.vBlocks = s.setBlocked := by
  have hblk : s.setBlocked = s.modStrm fun x => { x with blocked := true } := rfl
  refine State.vBlocks_of_no_pending (hv.imp id fun hp => ?_)
  rw [hblk, State.me_modStrm _ _ hs, Core.setStream_pend, hp]

/-- A word whose wait is not satisfied only blocks. -/
theorem runWord_waiting {s : State} {i : Instr} {h : Hdr} (body : Op Fin) (hw : s.atWord = true)
    (ha : s.accepts i h = true) (hf : s.firstPass = true) (hskip : s.me.skipped s.curStream h = false)
    (hl : isListed i s.me s.curStream = false) (hr : s.replayRule i h ≠ .wait) (ho : s.waitOpen h = false)
    (hv : s.curStream ≠ .v ∨ s.me.pend = none) : runWord i h body s = .next (s.waitingAt i h) := by
  have hs := State.busy_of_atWord hw
  rw [runWord_front_error body hw (front_run_closed hw ha hf hskip hl hr ho), State.waitingAt]
  split_ifs
  · have hrs : (s.replayed i h).me.st ≠ .idle := by rwa [State.replayed_st hs]
    have hpend : (s.replayed i h).me.pend = s.me.pend :=
      State.replayed_keep Core.pend hs fun c st r => by cases st <;> rfl
    refine congrArg _ (State.setBlocked_vBlocks ?_ ?_)
    · rw [State.me_modStrm _ _ hrs, Core.setStream_st]; exact hrs
    · rw [State.me_modStrm _ _ hrs, Core.setStream_pend, hpend, State.modStrm_curStream, State.replayed_curStream]
      exact hv
  · exact congrArg _ (State.setBlocked_vBlocks hs hv)

/-! ### What refutes a statement about words -/

/-- Core 0 after a step, or at reset where there is none. -/
def coreAfter (o : Res) : Core :=
  match o with
  | .next t => t.core 0
  | _ => Core.reset

/-- Core 0 at reset runs M, in its window's first words; f sets what else it holds. -/
def stateOfM (f : Core → Core) : State :=
  { State.reset with
    curStream := .m
    cores := [(0, f { Core.reset with
      st := .running, sM := { StreamSt.reset with started := true, winSize := 0x1000 } })] }

/-- M is parked at a JOIN whose wait was taken, and the last other stream, C, has joined since. -/
def parkedJoin : State :=
  stateOfM fun c => { c with joinWait := some none, sC := { c.sC with joined := true } }

/-- M's nest is in its last word, and its end hands nothing to key 5, which the map of markers holds twice. -/
def endingNest : State :=
  stateOfM fun c => { c with
    nest := some ([], 0)
    eq := [(5, []), (5, [⟨.marker 0 0, 0, 0, 0, 0, 0, 5, 0, 0, 0, none, none, [(0, 1)], [], false, none⟩])] }

theorem not_fallThroughRetirementMovesPcAndRaisesG : ¬ FallThroughRetirementMovesPcAndRaisesG := by
  intro h
  obtain ⟨honly, -⟩ := h endingNest (.nop ⟨0, 0, .always⟩) ⟨0, 0, .always⟩ (by decide) (by decide)
  exact absurd (congrArg Core.eq honly.mine) (by decide)

/-- Refutes O3: the end of a nest writes an empty queue back, which deletes the first entry of its key and uncovers the
second, so more changes of the core than its sequencing. -/
theorem not_retirementMovesPcAndRaisesSignals : ¬ Obligations.RetirementMovesPcAndRaisesSignals := by
  rintro ⟨h, -⟩
  exact not_fallThroughRetirementMovesPcAndRaisesG h

theorem not_waitingWordsBlock : ¬ WaitingWordsBlock := by
  intro h
  have hexec := h parkedJoin (.join ⟨0x3F, 0, .always⟩) ⟨0x3F, 0, .always⟩ rfl (by decide) (by decide) (by decide)
    (by decide) (by decide) (by decide) (by decide) (by decide)
  exact absurd (congrArg (fun o => (coreAfter o).sM.joined) hexec) (by decide)

/-- Refutes O54: a JOIN parked after its wait takes no second wait; it is woken and joins, where the statement blocks it. -/
theorem not_undecodableAndWaitingWords : ¬ Obligations.UndecodableAndWaitingWords := by
  rintro ⟨-, h⟩
  exact not_waitingWordsBlock h

/-- Refutes O55: a parked JOIN that is left out is woken first, so the core's record that it was parked changes too. -/
theorem not_iterationKindsSkip : ¬ Obligations.IterationKindsSkip := by
  rintro ⟨-, h⟩
  obtain ⟨hexec, -⟩ := h parkedJoin (.join ⟨0, 0, .nfirst⟩) ⟨0, 0, .nfirst⟩ rfl (by decide) (by decide) (by decide)
    (by decide)
  exact absurd (congrArg (fun o => (coreAfter o).joinWait) hexec) (by decide)

/-! ### A literal on a page that two TLB entries map -/

/-- A page of two that C's TLB maps for it to run. -/
def codePage (va size pa : Nat) : TlbEnt := ⟨va, size, pa, 0, true, true, true, true, true, true, true⟩

/-- `j0? movl.h48 s3` is the last word of one page, and its literal the first of the next. The TLB's first entry maps only
the literal's page, its second both, elsewhere. -/
def twoMappings : State :=
  { State.reset with
    agenda := [.stream 0 .c]
    mem := [(0x10000000004, 0x04), (0x10000000005, 0x40), (0x10000000006, 0x01), (0x10000000007, 0xFF),
      (0x10000210FF8, 0x03), (0x10000210FFC, 0xC3), (0x10000210FFD, 0x08), (0x10000210FFF, 0x40)]
    cores := [(0, { Core.reset with
      st := .running, sup := true, sec := true, cr := [(0x51, 0xFFFF)], rdv := [(0, ⟨false, 0, 0, [], 0⟩)]
      tlb := [(0, [codePage 0x411000 0x1000 0x10000000000, codePage 0x400000 0x200000 0x10000200000])]
      sC := { StreamSt.reset with started := true, pc := 0x410FF8 } })] }

/-- A word of C that its page's entry maps, not fetched before in the job. -/
theorem State.fetches_of_tlbHit {s : State} {pc : Word} {w : Nat} {e : TlbEnt} (hc : s.curStream = .c)
    (ht : s.translates pc.toNat 8) (he : s.tlbHit pc.toNat = some e) (hx : e.x = true)
    (ho : s.opens e.u e.ns (e.pa + pc.toNat % e.size) 8) (hi : s.me.icache = [])
    (hw : leNat (s.peek (e.pa + pc.toNat % e.size) 8) = w) : s.fetches pc w := by
  unfold State.fetches
  rw [if_pos hc, hi]
  exact ⟨ht, e, he, hx, ho, hw.symm⟩

/-- `j0? movl.h48 s3` with the literal that the first entry's page holds. -/
def waitingMovl : Instr := .movl ⟨0x40, 0, .always⟩ .h48 3 0x400400000000

/-- The core of `twoMappings` after a fetch: what C has fetched, and the order of the TLB's entries, are left open. -/
def fetchingCore (words : List (Nat × Nat)) (tlb : SMap (List TlbEnt)) (x : StreamSt) : Core :=
  { twoMappings.core 0 with icache := words, tlb := tlb, sC := { StreamSt.reset with
      started := true, pc := 0x410FF8, fetched := x.fetched, fetchLeft := x.fetchLeft, code := x.code } }

theorem me_of_fetched {u : State} (hu : (twoMappings.turnOf 0 .c []).fetched u) :
    u.me = fetchingCore u.me.icache u.me.tlb u.strm :=
  hu.2.2.2.2.1

theorem fetchingCore_act (words : List (Nat × Nat)) (tlb : SMap (List TlbEnt)) (x : StreamSt) :
    (fetchingCore words tlb x).act = false :=
  show (twoMappings.core 0).act = false by decide

theorem fetchingCore_frame (words : List (Nat × Nat)) (tlb : SMap (List TlbEnt)) (x : StreamSt) :
    (fetchingCore words tlb x).frame = false :=
  show (twoMappings.core 0).frame = false by decide

theorem fetchingCore_uiEngine (words : List (Nat × Nat)) (tlb : SMap (List TlbEnt)) (x : StreamSt) :
    (fetchingCore words tlb x).uiEngine = none :=
  show (twoMappings.core 0).uiEngine = none by decide

/-- The word waits for a rendezvous that is not met, so its execution after a fetch is no fault. -/
theorem exec_waitingMovl {u : State} (hu : (twoMappings.turnOf 0 .c []).fetched u) :
    exec waitingMovl u = .next u.setBlocked := by
  have hstream : u.curStream = .c := hu.2.2.1
  have hme := me_of_fetched hu
  generalize u.me.icache = words, u.me.tlb = tlb, u.strm = y at hme
  have hcur : u.core u.curCore = fetchingCore words tlb y := hme
  have hstrm : u.strm = (fetchingCore words tlb y).sC := by rw [State.strm, hme, hstream]; rfl
  have hact := fetchingCore_act words tlb y
  have hissue : u.mayIssue u.curCore u.curStream = true := by
    simp only [State.mayIssue, State.cohortHeld, hcur, hstream, hact, fetchingCore_frame]
    rfl
  refine (runWord_waiting _ (State.atWord_iff.mpr ⟨?_, hissue, fun _ => ?_⟩) ?_ ?_ ?_ ?_ ?_ ?_ ?_).trans rfl
  · unfold State.stopDue; rw [hcur]; rfl
  · simp [State.uiReady, hcur, fetchingCore_uiEngine]
  · unfold State.accepts; rw [hme, hstream]; rfl
  · rw [State.firstPass, hstrm]; rfl
  · rw [hme, hstream]; rfl
  · rfl
  · have hkeep : u.replayRule waitingMovl ⟨0x40, 0, .always⟩ = .keep := by
      have hreplay : (fetchingCore words tlb y).replay .c = none := by simp only [Core.replay, hact]; rfl
      have hstarted : (fetchingCore words tlb y).notStarted .c = false := rfl
      have hissued : (fetchingCore words tlb y).sC.issued = false := rfl
      simp only [State.replayRule, hstrm, hme, hstream, hreplay, hstarted, hissued, waitingMovl]
      rfl
    exact fun hwait => absurd (hkeep.symm.trans hwait) (by decide)
  · rw [State.waitOpen, State.firstPass, hstrm, hme]; rfl
  · exact .inr (by rw [hme]; rfl)

/-- Refutes O53: the fetch of the first word moves the entry it went through to the front, so the literal is read through
that one, and is no literal (LITM), where the entry in front before led to one. -/
theorem not_stepRunsTheDecodedInstruction : ¬ Obligations.StepRunsTheDecodedInstruction := by
  intro h
  have hword : (twoMappings.turnOf 0 .c []).fetches 0x410FF8 0x400008C300000003 :=
    State.fetches_of_tlbHit rfl ⟨by decide, by decide, by decide, by decide, rfl, rfl, by decide⟩
      (e := codePage 0x400000 0x200000 0x10000200000) (by decide) rfl
      ⟨.inl (by decide), .inl (by decide), by decide, fun i _ => rfl⟩ (by decide) (by decide)
  have hlit : (twoMappings.turnOf 0 .c []).fetches 0x411000 0xFF01400400000000 :=
    State.fetches_of_tlbHit rfl ⟨by decide, by decide, by decide, by decide, rfl, rfl, by decide⟩
      (e := codePage 0x411000 0x1000 0x10000000000) (by decide) rfl
      ⟨.inl (by decide), .inl (by decide), by decide, fun i _ => rfl⟩ (by decide) (by decide)
  obtain ⟨u, hu, hstep⟩ := (h twoMappings []).1 0 .c 0x400008C300000003 0xFF01400400000000 waitingMovl rfl
    (by decide) ⟨(by decide), (by decide)⟩ hword (fun _ => hlit)
    (by decide) (by decide)
  rw [exec_waitingMovl hu] at hstep
  have hact : (coreAfter (step twoMappings)).act = true := by decide
  have hact' : (u.modStrm fun x => { x with blocked := true }).me.act = false := by
    rw [State.me_modStrm _ _ (by rw [me_of_fetched hu]; nofun), Core.act, Core.creg_setStream, me_of_fetched hu]
    exact fetchingCore_act ..
  have hcur : u.curCore = 0 := hu.2.1
  rw [State.me, State.modStrm_curCore, hcur] at hact'
  rw [hstep] at hact
  exact absurd (hact.symm.trans hact') (by decide)

end Sys2Proof.Machine
end

section

/-!
CRD, CWR, privileged words in user mode, and TRAP (O7).
-/

namespace Sys2Proof.Machine

/-! ### CRD and CWR -/

theorem Core.crdVal_of_apart_eq {c c' : Core} (h : c.apart = c'.apart) (k n : Nat) : c.crdVal k n = c'.crdVal k n := by
  show c.apart.crdVal k n = c'.apart.crdVal k n
  rw [h]

/-- A register that CRD computes is one of eleven; the others are held as they stand. -/
theorem Core.crdVal_held (c : Core) (k : Nat) {n : Nat}
    (hn : n ∉ [0x011, 0x020, 0x022, 0x064, 0x079, 0x07A, 0x091, 0x092, 0x093, 0x094, 0x098]) :
    c.crdVal k n = c.creg n := by
  simp only [List.mem_cons, List.not_mem_nil, or_false, not_or] at hn
  obtain ⟨(h011 : ¬ n = crTREC0), (h020 : ¬ n = crCORE), (h022 : ¬ n = crDMEM), (h064 : ¬ n = crGDATA),
    (h079 : ¬ n = crSMPPOS), (h07A : ¬ n = crSMPST), h091, h092, h093, h094, (h098 : ¬ n = crEINJ)⟩ := hn
  rw [Core.crdVal, if_neg h020, if_neg h022, if_neg h011, if_neg h064, if_neg h079, if_neg h07A, if_neg h091, if_neg h092,
    if_neg h093, if_neg h094, if_neg h098]

@[simp] theorem Core.setCreg_sreg (c : Core) (n : Nat) (v : Word) (st : Stream) (r : Nat) :
    (c.setCreg n v).sreg st r = c.sreg st r := by cases st <;> rfl

theorem exec_crd_of_ready {s : State} {h : Hdr} {d n : Nat} (hr : s.ready (.crd h d n) h = true) :
    exec (.crd h d n) s =
      .next (((s.waited (.crd h d n) h).setS d (s.me.crdVal s.curCore n)).retire (.crd h d n) h fall) := by
  have hval : (s.waited (.crd h d n) h).me.crdVal s.curCore n = s.me.crdVal s.curCore n :=
    Core.crdVal_of_apart_eq (State.waited_me_apart (State.ready_busy hr)) _ _
  refine runOp_ready hr ?_
  rw [Op.run_bind_ok (here_run _), Op.run_bind_ok (coreId_run _), wrS_run, State.waited_curCore, hval]

/-- CWR of a register that is held as it stands sets it, and may note its old value for other streams. -/
theorem cwr_run_held {s : State} (hs : s.me.st ≠ .idle) {n : Nat} (v : Word)
    (hn : n ∉ [0x064, 0x079, 0x07A, 0x092, 0x098]) :
    ∃ t l, (cwr n v).run s = .ok ((), t) ∧
      t.me = ({ s.me with rhist := l } : Core).setCreg n (maskWrite (s.me.creg n) (cregMask n) v) ∧ t.mem = s.mem ∧
      t.curStream = s.curStream := by
  simp only [List.mem_cons, List.not_mem_nil, or_false, not_or] at hn
  obtain ⟨(h064 : ¬ n = crGDATA), (h079 : ¬ n = crSMPPOS), (h07A : ¬ n = crSMPST), h092, (h098 : ¬ n = crEINJ)⟩ := hn
  obtain ⟨t, l, hnote, hme, hmem, hst⟩ : ∃ t l, (if isWeakReg n then noteOld n (s.me.creg n).toNat
      (maskWrite (s.me.creg n) (cregMask n) v).toNat else pure ()).run s = .ok ((), t) ∧
      t.me = { s.me with rhist := l } ∧ t.mem = s.mem ∧ t.curStream = s.curStream := by
    split
    · exact noteOld_run hs ..
    · exact ⟨s, s.me.rhist, rfl, rfl, rfl, rfl⟩
  refine ⟨t.withMe (t.me.setCreg n (maskWrite (s.me.creg n) (cregMask n) v)), l, ?_, ?_, hmem, hst⟩
  · rw [cwr, Op.run_bind_ok (here_run s), if_neg h064, if_neg (by simpa using ⟨h079, h07A⟩), if_neg h092, if_neg h098]
    split at hnote
    next hweak => simp only [hweak, if_true]; rw [Op.run_bind_ok hnote, modHere_run]
    next hweak =>
      obtain rfl : s = t := congrArg Prod.snd (Except.ok.inj hnote)
      simp only [hweak, Bool.false_eq_true, if_false, modHere_run]
  · rw [State.me_withMe, hme]
    show t.me.st ≠ .idle
    rw [hme]
    exact hs

theorem exec_cwr_of_ready {s : State} {h : Hdr} {a n : Nat} (hr : s.ready (.cwr h a n) h = true)
    (hcr : SMap.rising 0 s.me.cr = true) (hn : n ∉ [0x064, 0x079, 0x07A, 0x092, 0x098]) :
    ∃ t : State, exec (.cwr h a n) s = .next (t.retire (.cwr h a n) h fall) ∧
      t.me.creg n = maskWrite (s.me.creg n) (cregMask n) (s.sreg a) ∧
      (∀ m, m ≠ n → t.me.creg m = s.me.creg m) ∧ t.mem = s.mem ∧ ∀ r, t.sreg r = s.sreg r := by
  have hs := State.ready_busy hr
  let w := s.waited (.cwr h a n) h
  have hw : w.me.st ≠ .idle := by rwa [State.waited_st hs]
  have hcreg (m : Nat) : w.me.creg m = s.me.creg m := by rw [Core.creg, State.waited_cr hs, Core.creg]
  obtain ⟨t, l, hrun, hme, hmem, hst⟩ := cwr_run_held hw (s.sreg a) hn
  rw [hcreg] at hme
  have hset : t.me.cr = SMap.set 0 s.me.cr n (maskWrite (s.me.creg n) (cregMask n) (s.sreg a)) := by
    rw [hme, ← State.waited_cr (i := .cwr h a n) (h := h) hs]; rfl
  refine ⟨t, runOp_ready hr ?_, ?_, fun m hm => ?_, ?_, fun r => ?_⟩
  · rw [Op.run_bind_ok (rdS_run a _), State.waited_sreg hs, hrun]
  · rw [Core.creg, hset, SMap.get_set_self _ _ _ _ hcr]
  · rw [Core.creg, hset, SMap.get_set_other _ _ _ hm, Core.creg]
  · rw [hmem, State.waited_mem]
  · rw [State.sreg, hst, hme, Core.setCreg_sreg, ← State.waited_sreg (i := .cwr h a n) (h := h) hs]
    rfl

theorem controlRegisterReadsAndWrites : ControlRegisterReadsAndWrites := by
  intro s h n
  refine ⟨fun d hr => ⟨exec_crd_of_ready hr, ?_, fun hn => Core.crdVal_held _ _ hn⟩,
    fun a hr hcr hn => exec_cwr_of_ready hr hcr hn⟩
  rintro rfl
  rfl

/-! ### PRIV and TRAP -/

/-- A privileged word of the stream in user mode is PRIV before any other check of it. -/
theorem front_run_priv {s : State} {i : Instr} {h : Hdr} (hst : s.curStream ∈ i.streams) (hp : isPrivileged i = true)
    (hu : s.me.sup = false) : (front i h).run s = .error (.fault (.ofStream s.curStream fcPRIV 0 0)) := by
  refine Op.run_bind_error ?_
  rw [preCheck, Op.run_bind_ok (streamOf_run s), Op.run_bind_ok (here_run s), if_neg (by simpa using hst),
    if_pos (by simp [hp, hu]), fault_run]

theorem runWord_priv {s : State} {i : Instr} {h : Hdr} (body : Op Fin) (hw : s.atWord = true) (hc : s.curStream = .c)
    (hst : .c ∈ i.streams) (hp : isPrivileged i = true) (hu : s.me.sup = false) :
    runWord i h body s = .next (s.takeFault s.curCore (.ofStream .c 0x02 0 0) false) := by
  rw [runWord_front_error body hw (front_run_priv (hc ▸ hst) hp hu), hc]
  simp only [State.settle, hc, deferrable]
  rfl

theorem privilegedWordInUserModeFaults : PrivilegedWordInUserModeFaults := by
  intro s i h hi hw hc hu hp
  cases i
  case eret | ctxsave | ctxload | tlbinv =>
    obtain rfl := Option.some.inj hi
    exact runWord_priv _ hw hc (List.mem_cons_self ..) rfl hu
  case crd =>
    obtain rfl := Option.some.inj hi
    exact runWord_priv _ hw hc (List.mem_cons_self ..) (by simpa [isPrivileged] using hp) hu
  case cwr =>
    obtain rfl := Option.some.inj hi
    refine runWord_priv _ hw hc (List.mem_cons_self ..) ?_ hu
    simp only [isPrivileged, supWrite, Bool.or_eq_true, Bool.and_eq_true, decide_eq_true_eq, beq_iff_eq, crTVEC, crTREC0,
      crTREC1, crTREC2, crTREC3, crENBUDGET, crVALLOT, crBANKALLOT]
    dsimp only at hp
    omega
  all_goals exact absurd hp id

theorem trapRecordsRegisterAndCode : TrapRecordsRegisterAndCode := by
  intro s h a code hr
  have hs := State.ready_busy hr
  have hbody : (do let x ← rdS a; faultAt fcTRAP x (BitVec.ofNat 64 code) : Op Unit).run
      (s.waited (.trap h a code) h) = .error (.fault (.ofStream s.curStream fcTRAP (s.sreg a) (BitVec.ofNat 64 code))) := by
    rw [Op.run_bind_ok (rdS_run a _), faultAt_run, State.waited_sreg hs, State.waited_curStream]
  have hdefer : deferrable (.trap h a code) s.curStream
      (.ofStream s.curStream fcTRAP (s.sreg a) (BitVec.ofNat 64 code)) = false := by
    simp only [deferrable, Bool.and_false]
  have hexec := runOp_fault hr hbody
  rw [State.waited_curStream, State.waited_curCore, hdefer] at hexec
  exact hexec

/-- Settles O7: CRD writes what it reads after its wait, CWR of a register held as it stands is one `setCreg` after a note
of the old value, and the checks of decoding put PRIV before all others. -/
theorem controlRegisterPrivilegeAndTrap : Obligations.ControlRegisterPrivilegeAndTrap :=
  ⟨controlRegisterReadsAndWrites, privilegedWordInUserModeFaults, trapRecordsRegisterAndCode⟩

end Sys2Proof.Machine
end

section

/-!
NOP, the hints, SIGNAL, FENCE, STAMP and PPOINT (O8).
-/

namespace Sys2Proof.Machine

/-! ### What a wait leaves alone -/

section
variable {s : State} {i : Instr} {h : Hdr}

theorem State.waited_creg (hs : s.me.st ≠ .idle) (n : Nat) : (s.waited i h).me.creg n = s.me.creg n := by
  rw [Core.creg, State.waited_cr hs, Core.creg]

theorem State.waited_frame (hs : s.me.st ≠ .idle) : (s.waited i h).me.frame = s.me.frame := by
  rw [Core.frame, State.waited_creg hs, Core.frame]

theorem State.waited_act (hs : s.me.st ≠ .idle) : (s.waited i h).me.act = s.me.act := by
  rw [Core.act, State.waited_creg hs, Core.act]

theorem State.waited_framed (hs : s.me.st ≠ .idle) : (s.waited i h).me.framed = s.me.framed := by
  rw [Core.framed, State.waited_frame hs, State.waited_act hs, Core.framed]

theorem State.waited_frameNow (hs : s.me.st ≠ .idle) : (s.waited i h).me.frameNow = s.me.frameNow := by
  rw [Core.frameNow, State.waited_creg hs, Core.frameNow]

theorem State.waited_horizon (hs : s.me.st ≠ .idle) : (s.waited i h).me.horizon = s.me.horizon :=
  State.waited_keep Core.horizon hs (fun c st x => by cases st <;> rfl) (fun _ _ => rfl) fun c st r => by cases st <;> rfl

theorem State.waited_atRetirement (hs : s.me.st ≠ .idle) : (s.waited i h).me.atRetirement = s.me.atRetirement :=
  State.waited_keep Core.atRetirement hs (fun c st x => by cases st <;> rfl) (fun _ _ => rfl)
    fun c st r => by cases st <;> rfl

theorem State.waited_thermStop : (s.waited i h).thermStop = s.thermStop :=
  State.waited_pack State.thermStop (fun _ _ => rfl) fun _ _ _ => rfl

/-- A wait that names no counter takes no count. -/
theorem State.takeWait_cnt (hs : s.me.st ≠ .idle) (hw : h.w = 0) : (s.takeWait h).me.cnt = s.me.cnt := by
  rw [State.takeWait_me hs, Core.setStream_cnt, if_neg (by simp [hw])]

theorem State.waited_cnt (hs : s.me.st ≠ .idle) (hw : h.w = 0) : (s.waited i h).me.cnt = s.me.cnt := by
  have hmod {t : State} (f : StreamSt → StreamSt) (ht : t.me.st ≠ .idle) : (t.modStrm f).me.cnt = t.me.cnt := by
    rw [State.me_modStrm t f ht, Core.setStream_cnt]
  have hs1 : (s.replayed i h).me.st ≠ .idle := by rwa [State.replayed_st hs]
  have hcnt1 : (s.replayed i h).me.cnt = s.me.cnt := State.replayed_keep Core.cnt hs fun c st r => by cases st <;> rfl
  obtain ⟨t, ht, hst, hcnt⟩ : ∃ t, (if s.strm.issued then s.replayed i h else if !s.firstPass then
      (s.replayed i h).issue else (s.replayed i h).takeWait h) = t ∧ t.me.st ≠ .idle ∧ t.me.cnt = s.me.cnt := by
    refine ⟨_, rfl, ?_⟩
    split <;> [skip; split]
    · exact ⟨hs1, hcnt1⟩
    · exact ⟨by rw [State.issue, State.me_modStrm _ _ hs1, Core.setStream_st]; exact hs1, (hmod _ hs1).trans hcnt1⟩
    · exact ⟨by rwa [State.takeWait_st hs1], (State.takeWait_cnt hs1 hw).trans hcnt1⟩
  simp only [State.waited, ht]
  split
  · exact (hmod _ hst).trans hcnt
  · exact hcnt

/-! ### The end of a word -/

@[simp] theorem State.learnPopped_core (s : State) (k : Nat) (st : Stream) (j : Nat) :
    (s.learnPopped k st).core j = s.core j := by
  unfold State.learnPopped
  generalize ((s.core k).stream st).popped = l
  induction l generalizing s with
  | nil => rfl
  | cons p l ih => rw [List.foldl_cons, ih, State.learn_core]

@[simp] theorem Core.nestStep_cnt (c : Core) : c.nestStep.cnt = c.cnt := by
  unfold Core.nestStep
  split <;> [rfl; (split <;> rfl)]

@[simp] theorem Core.nestStep_st (c : Core) : c.nestStep.st = c.st := by
  unfold Core.nestStep
  split <;> [rfl; (split <;> rfl)]

/-- Whatever a word goes on to, its end sets streams or takes the nest on, which keeps the core's state and counters. -/
theorem Core.leave_keeps (c : Core) (st : Stream) (n : Nat) (go : After) :
    (c.leave st n go).st = c.st ∧ (c.leave st n go).cnt = c.cnt := by
  unfold Core.leave
  cases go with
  | join | jump | seq | fall =>
    cases st <;> grind [Core.setStream_st, Core.setStream_cnt, Core.nestStep_st, Core.nestStep_cnt]

@[simp] theorem Core.leave_st (c : Core) (st : Stream) (n : Nat) (go : After) : (c.leave st n go).st = c.st :=
  (c.leave_keeps st n go).1

@[simp] theorem Core.leave_cnt (c : Core) (st : Stream) (n : Nat) (go : After) : (c.leave st n go).cnt = c.cnt :=
  (c.leave_keeps st n go).2

theorem State.nestEnded_count {k : Nat} (hs : (s.core k).st ≠ .idle) (n : Nat) :
    ((s.nestEnded k).core k).count n = (s.core k).count n := by
  unfold State.nestEnded
  refine (congrArg (Core.count · n) (State.core_setCore_busy s k ?_)).trans rfl
  exact hs

@[simp] theorem Core.leave_count (c : Core) (st : Stream) (m : Nat) (go : After) (n : Nat) :
    (c.leave st m go).count n = c.count n := by rw [Core.count, Core.leave_cnt, Core.count]

@[simp] theorem State.learnPopped_curCore (s : State) (k : Nat) (st : Stream) :
    (s.learnPopped k st).curCore = s.curCore := by
  unfold State.learnPopped
  generalize ((s.core k).stream st).popped = l
  induction l generalizing s with
  | nil => rfl
  | cons p l ih => rw [List.foldl_cons, ih, State.learn_curCore]

@[simp] theorem State.putAfter_curCore (s : State) (k : Nat) (c : Core) : (s.putAfter k c).curCore = s.curCore := by
  simp only [State.putAfter, State.nestEnded]
  split <;> rfl

/-- The core that a word leaves keeps its counters when it is put, at the end of a nest too. -/
theorem State.putAfter_count (s : State) (k : Nat) {c : Core} (hc : c.st ≠ .idle) (n : Nat) :
    ((s.putAfter k c).core k).count n = c.count n := by
  have hput : (s.setCore k c).core k = c := State.core_setCore_busy s k hc
  simp only [State.putAfter]
  split
  · rw [State.nestEnded_count (by rwa [hput]), hput]
  · rw [hput]

@[simp] theorem Core.addCount_st (c : Core) (n m : Nat) (tok : Clk) : (c.addCount n m tok).st = c.st := by
  unfold Core.addCount
  split <;> rfl

theorem Core.count_addCount (c : Core) {n m : Nat} (hm : m ≠ 0) (tok : Clk) :
    (c.addCount n m tok).count n = c.count n + m := by
  rw [Core.addCount, if_neg hm]
  exact SMap.get_set_ne _ _ (by omega)

/-- What SIGNAL raises: its count, unless that is 0 (R84). -/
def signalRaise (cpl : Bool) (n m : Nat) : List (Bool × Nat × Nat) := if m = 0 then [] else [(cpl, n, m)]

/-- A count that fits its counter on the own core. -/
theorem State.applyRaises_signal {k n m : Nat} (hs : (s.core k).st ≠ .idle) (st : Nat) (tok : Clk)
    (hfit : (s.core k).count n + m ≤ 65535) :
    ∃ t : State, s.applyRaises k st (signalRaise false n m) tok = (t, false) ∧ t.curCore = s.curCore ∧
      (t.core k).st ≠ .idle ∧ (t.core k).count n = (s.core k).count n + m := by
  by_cases hm : m = 0
  · have hcore : (s.setCore k { s.core k with flight := (s.core k).flight ++ [] }).core k =
        { s.core k with flight := (s.core k).flight ++ [] } := State.core_setCore_busy s k hs
    exact ⟨s.setCore k { s.core k with flight := (s.core k).flight ++ [] },
      by rw [signalRaise, if_pos hm]; rfl, rfl, ne_of_eq_of_ne (congrArg Core.st hcore) hs,
      (congrArg (Core.count · n) hcore).trans (by rw [hm]; rfl)⟩
  have hsum : localSum [(false, n, m)] n = m := by simp [localSum]
  have hput : (s.setCore k ((s.core k).addCount n m tok)).core k = (s.core k).addCount n m tok :=
    State.core_setCore_busy s k (by rwa [Core.addCount_st])
  have hone : [n].eraseDups = [n] := rfl
  let c := (s.core k).addCount n m tok
  have hc : c.st ≠ .idle := by rwa [Core.addCount_st]
  let u := (s.setCore k c).setCore k { c with flight := c.flight ++ [] }
  have hcore : u.core k = { c with flight := c.flight ++ [] } := State.core_setCore_busy _ k hc
  refine ⟨u, ?_, rfl, ne_of_eq_of_ne (congrArg Core.st hcore) hc,
    (congrArg (Core.count · n) hcore).trans (Core.count_addCount _ hm tok)⟩
  rw [signalRaise, if_neg hm]
  simp only [State.applyRaises, List.filterMap_cons, List.filterMap_nil, Bool.false_eq_true, if_false, hone,
    List.foldl_cons, List.foldl_nil, hsum, if_pos hfit]
  rw [hput]
  rfl

/-- SIGNAL's count stands on its own core's counter after its retirement. -/
theorem State.retire_signal {n m : Nat} (hs : s.me.st ≠ .idle) (hg : h.g = 0) (hfit : s.me.count n + m ≤ 65535) :
    (s.retire i h ⟨.fall, signalRaise false n m⟩).me.count n = s.me.count n + m := by
  have hraises (g : Bool) : raises h ⟨.fall, signalRaise false n m⟩ g = signalRaise false n m := by simp [raises, hg]
  have hcore : (s.learnPopped s.curCore s.curStream).core s.curCore = s.me := State.learnPopped_core ..
  obtain ⟨t, hraise, hcur, ht, hcount⟩ := State.applyRaises_signal (s := s.learnPopped s.curCore s.curStream)
    (k := s.curCore) (by rwa [hcore]) s.curStream.num
    ((s.learnPopped s.curCore s.curStream).token (agentOf s.curCore s.curStream)) (by rwa [hcore])
  have hleft : ((t.core s.curCore).leave s.curStream (spanOf i) .fall).st ≠ .idle := by rwa [Core.leave_st]
  have hput := State.putAfter_count { t with seq := t.seq + 1 } s.curCore hleft n
  rw [Core.leave_count, hcount, hcore] at hput
  rw [State.learnPopped_curCore] at hcur
  simp only [State.retire, hraises, hraise, Bool.false_eq_true, if_false]
  refine Eq.trans ?_ hput
  exact congrArg (fun k => (State.core _ k).count n) ((State.putAfter_curCore ..).trans hcur)

end

theorem nopHintAndSignalOnlyRetire : NopHintAndSignalOnlyRetire := by
  intro s h
  refine ⟨fun hr => runOp_ready hr rfl, fun n hr => runOp_ready hr rfl, fun n cpl c hr => ?_⟩
  refine ⟨_, runWord_ready hr rfl, rfl, ?_⟩
  rintro rfl hg hw hfit
  have hs := State.ready_busy hr
  have hwait : (s.waited (.signal h n false c) h).me.count c = s.me.count c := by
    rw [Core.count, State.waited_cnt hs hw, Core.count]
  have hsw : (s.waited (.signal h n false c) h).me.st ≠ .idle := by rwa [State.waited_st hs]
  exact (State.retire_signal hsw hg (by rwa [hwait])).trans (by rw [hwait])

/-! ### FENCE -/

/-- The writes that stay open are some of those there were. -/
theorem Hist.norm_wr_subset (h : Hist) : h.norm.wr ⊆ h.wr := by
  unfold Hist.norm
  split
  · exact List.takeWhile_subset _
  · exact List.Subset.refl _

/-- An open write after a change of them all is an open write changed. -/
theorem State.exists_of_mem_mapWrites {s : State} {f : WEnt → WEnt} {p : Nat × Hist} {e : WEnt}
    (hp : p ∈ (s.mapWrites f).hist) (he : e ∈ p.2.wr) : ∃ q ∈ s.hist, ∃ x ∈ q.2.wr, e = f x := by
  obtain ⟨q, hq, hpq⟩ := List.mem_filterMap.mp hp
  simp only at hpq
  split at hpq
  · exact absurd hpq nofun
  obtain rfl := Option.some.inj hpq
  obtain ⟨x, hx, rfl⟩ := List.mem_map.mp (Hist.norm_wr_subset _ he)
  exact ⟨q, hq, x, hx, rfl⟩

/-- Every open write of the agent is performed for the paths of the mask. -/
def State.ownPerformed (s : State) (agent mask : Nat) : Prop :=
  ∀ p ∈ s.hist, ∀ e ∈ p.2.wr, e.agent = agent → ∀ n, mask.testBit n = true → e.perf.testBit n = true

theorem State.ownPerformed_performOwn (s : State) (agent mask : Nat) :
    (s.performOwn agent mask).ownPerformed agent mask := by
  intro p hp e he ha n hn
  obtain ⟨-, -, x, -, rfl⟩ := State.exists_of_mem_mapWrites hp he
  by_cases hx : x.agent = agent
  · rw [if_pos hx, Nat.testBit_or, hn, Bool.or_true]
  · rw [if_neg hx] at ha
    exact absurd ha hx

/-- Performing more writes takes none back. -/
theorem State.ownPerformed.performKnown {s : State} {agent mask : Nat} (h : s.ownPerformed agent mask) (clk : Clk)
    (m bits : Nat) : (s.performKnown clk m bits).ownPerformed agent mask := by
  intro p hp e he ha n hn
  obtain ⟨q, hq, x, hx, rfl⟩ := State.exists_of_mem_mapWrites hp he
  by_cases hk : (m.testBit x.path && knows clk x.agent x.seq) = true
  · rw [if_pos hk] at ha ⊢
    rw [Nat.testBit_or, h q hq x hx ha n hn, Bool.true_or]
  · rw [if_neg hk] at ha ⊢
    exact h q hq x hx ha n hn

theorem Core.apart_setStream (c : Core) (st : Stream) (x : StreamSt) : (c.setStream st x).apart = c.apart := by
  cases st <;> rfl

/-- What a FENCE leaves outside frame mode. -/
theorem fenceOp_run {s : State} (hs : s.me.st ≠ .idle) (hf : s.me.framed = false) (mask : Nat) :
    ∃ t : State, (fenceOp mask).run s = .ok ((), t) ∧ t.mem = s.mem ∧ t.me.apart = s.me.apart ∧
      (∀ j, j ≠ s.curCore → t.core j = s.core j) ∧ t.ownPerformed s.agent mask := by
  let u := (s.performOwn s.agent mask).performKnown (SMap.get [] s.clk s.agent) mask (2 ^ s.curStream.num)
  let f : StreamSt → StreamSt := fun x => { x with
    vis := ((List.range 9).filter fun p => (4 ≤ p || p = s.curStream.num) && mask.testBit p).foldl
      (fun v p => addVis v p mask (SMap.get [] s.clk s.agent)) x.vis }
  refine ⟨u.modStrm f, ?_, rfl, ?_, fun j hj => State.core_withMe_other u _ hj, ?_⟩
  · rw [fenceOp, Op.run_bind_ok (here_run s), Op.run_bind_ok (thisAgent_run s), Op.run_bind_ok (streamOf_run s),
      if_neg (by simp [hf]), Op.run_bind_ok (drainOwn_run mask s), Op.run_bind_ok (Op.run_get _)]
    exact (Op.run_bind_ok (Op.run_set ..)).trans (modStream_run ..)
  · rw [State.me_modStrm u f hs]
    exact Core.apart_setStream ..
  · exact State.ownPerformed.performKnown (State.ownPerformed_performOwn s s.agent mask) _ _ _

theorem fencePerformsOwnWrites : FencePerformsOwnWrites := by
  intro s h mask hr
  have hs := State.ready_busy hr
  let w := s.waited (.fence h mask) h
  have hw : w.me.st ≠ .idle := by rwa [State.waited_st hs]
  have hframed : w.me.framed = s.me.framed := State.waited_framed hs
  refine ⟨fun hf => ?_, fun hf => ?_⟩
  · obtain ⟨t, hrun, hmem, hme, hother, hperf⟩ := fenceOp_run hw (hframed.trans hf) mask
    refine ⟨t, runOp_ready hr hrun, hmem.trans State.waited_mem, hme.trans (State.waited_me_apart hs),
      fun j hj => ?_, ?_⟩
    · rw [hother j (by rwa [State.waited_curCore]), State.waited_core_other hj]
    · rwa [State.waited_agent] at hperf
  · refine runOp_ready hr ?_
    rw [fenceOp, Op.run_bind_ok (here_run _), Op.run_bind_ok (thisAgent_run _), Op.run_bind_ok (streamOf_run _),
      if_pos (hframed.trans hf), Op.run_pure]

/-! ### STAMP and PPOINT -/

section
variable {s : State} {i : Instr} {h : Hdr}

/-- A ready word whose effects put an end to more than itself leaves the state they leave. -/
theorem runOp_ended {body : Op Unit} {t : State} (hr : s.ready i h = true)
    (hb : body.run (s.waited i h) = .error (.ended t)) : runOp i h body s = .next t := by
  unfold runOp runWord
  rw [State.word_ready _ hr, Op.run_bind_error hb]
  rfl

end

theorem stampNamesTheNextWordsCycle : StampNamesTheNextWordsCycle := by
  intro s h a abs cyc hr
  have hs := State.ready_busy hr
  have hfr := State.waited_frame (i := .stamp h a abs cyc) (h := h) hs
  have hq : (s.waited (.stamp h a abs cyc) h).me.creg crFRAMECFG = s.me.creg 0x060 := State.waited_creg hs _
  refine ⟨fun hf => runOp_ready hr ?_, fun hf hcyc => runOp_ready hr ?_, fun hf hcyc => ?_⟩
  · rw [stampOp, Op.run_bind_ok (here_run _), Op.run_bind_ok (rdS_run ..), if_pos (by rw [hfr, hf]; rfl), Op.run_pure]
  · rw [stampOp, Op.run_bind_ok (here_run _), Op.run_bind_ok (rdS_run ..), if_neg (by simp [hfr, hf]), hq,
      Op.run_bind_ok ((guardFault_run ..).trans (if_pos (decide_eq_true hcyc))), modStream_run,
      State.waited_frameNow hs, State.waited_sreg hs]
  · have hfault : (stampOp a abs cyc).run (s.waited (.stamp h a abs cyc) h) =
        .error (.fault (.ofStream s.curStream fcILLOP 0 0)) := by
      have hpast : ¬ decide (cyc < 2 ^ wfld (s.me.creg 0x060) 16 5) = true := by
        simpa only [decide_eq_true_eq, Nat.not_lt] using hcyc
      rw [stampOp, Op.run_bind_ok (here_run _), Op.run_bind_ok (rdS_run ..), if_neg (by simp [hfr, hf]), hq,
        Op.run_bind_error ((guardFault_run ..).trans (if_neg hpast)), State.waited_curStream]
    have hdefer : deferrable (.stamp h a abs cyc) s.curStream (.ofStream s.curStream fcILLOP 0 0) = false := by
      simp only [deferrable, Bool.and_false]
    have hexec := runOp_fault hr hfault
    rw [State.waited_curStream, State.waited_curCore, hdefer] at hexec
    exact hexec

/-- The live masks recorded at a PPOINT (R425). -/
def Core.liveMasks (c : Core) (x y : Word) : Core :=
  (c.setCreg 0x01E x).setCreg 0x01F (y &&& BitVec.ofNat 64 (2 ^ 42 - 1))

/-- A request in free mode, M at a retirement point: PPOINT records the masks and stops the core. -/
theorem ppointOp_run_stop {s : State} (hs : s.me.st ≠ .idle) {a b : Nat} (hh : s.me.horizon ≠ none)
    (hact : s.me.act = false) (hf : s.me.frame = false) (hret : s.me.atRetirement = true) :
    (ppointOp a b).run s = .error (.ended ((s.withMe (s.me.liveMasks (s.sreg a) (s.sreg b))).coreStop s.curCore none 1
      s.thermStop)) := by
  let u := s.withMe (s.me.setCreg crTLIVE0 (s.sreg a))
  have hu : u.me = s.me.setCreg crTLIVE0 (s.sreg a) := State.me_withMe s hs
  have hmasks : u.withMe (u.me.setCreg crTLIVE1 (s.sreg b &&& BitVec.ofNat 64 (2 ^ 42 - 1))) =
      s.withMe (s.me.liveMasks (s.sreg a) (s.sreg b)) := by
    rw [hu]; exact State.withMe_withMe s hs hs
  have hret' : ((s.withMe (s.me.liveMasks (s.sreg a) (s.sreg b))).core s.curCore).atRetirement = true :=
    (congrArg Core.atRetirement (State.me_withMe s (c := s.me.liveMasks ..) hs)).trans hret
  have hreq : ¬ (s.me.horizon.isNone || s.me.act) = true := by simpa [hact] using hh
  rw [ppointOp, Op.run_bind_ok (rdS_run ..), Op.run_bind_ok (rdS_run ..), Op.run_bind_ok (here_run _), if_neg hreq,
    Op.run_bind_ok (modHere_run ..), Op.run_bind_ok (modHere_run ..), Op.run_bind_ok (Op.run_get _), hmasks,
    if_neg (by simp [hf])]
  simp only [State.withMe_curCore, hret', if_true]
  rfl

theorem ppointStopsOnlyForARequest : PpointStopsOnlyForARequest := by
  intro s h a b hr
  have hs := State.ready_busy hr
  let w := s.waited (.ppoint h a b) h
  have hw : w.me.st ≠ .idle := by rwa [State.waited_st hs]
  refine ⟨fun hreq => runOp_ready hr ?_, fun hreq hact hf hret => ?_⟩
  · have hnone : (w.me.horizon.isNone || w.me.act) = true := by
      rw [State.waited_horizon hs, State.waited_act hs]
      rcases hreq with hreq | hreq <;> simp [hreq]
    rw [ppointOp, Op.run_bind_ok (rdS_run ..), Op.run_bind_ok (rdS_run ..), Op.run_bind_ok (here_run _), if_pos hnone,
      Op.run_pure]
  · refine ⟨w.withMe (w.me.liveMasks (s.sreg a) (s.sreg b)), runOp_ended hr ?_, rfl⟩
    have hstop := ppointOp_run_stop (a := a) (b := b) hw (by rwa [State.waited_horizon hs]) (by rwa [State.waited_act hs])
      (by rwa [State.waited_frame hs]) (by rwa [State.waited_atRetirement hs])
    rw [State.waited_sreg hs, State.waited_sreg hs, State.waited_curCore, State.waited_thermStop] at hstop
    exact hstop

/-- Settles O8: each of the words runs in the state after its wait; a fence only ever adds to what a write is performed
for. -/
theorem hintsFenceStampAndPpoint : Obligations.HintsFenceStampAndPpoint :=
  ⟨nopHintAndSignalOnlyRetire, fencePerformsOwnWrites, stampNamesTheNextWordsCycle, ppointStopsOnlyForARequest⟩

end Sys2Proof.Machine
end

section

/-!
What a read of the own scratchpad gives: its translation, its pieces and units, and its bytes.
-/

namespace Sys2Proof.Machine

/-! ### Operations over a list that leave the state -/

/-- Operations that each leave the state give their values in turn. -/
theorem Op.run_mapM_pure {α β : Type} {f : α → Op β} {g : α → β} {s : State} {l : List α}
    (h : ∀ a ∈ l, (f a).run s = .ok (g a, s)) : (l.mapM f).run s = .ok (l.map g, s) := by
  induction l with
  | nil => rfl
  | cons a l ih =>
    rw [List.mapM_cons, Op.run_bind_ok (h a (List.mem_cons_self ..)),
      Op.run_bind_ok (ih fun b hb => h b (List.mem_cons_of_mem _ hb))]
    rfl

/-! ### Bytes of memory -/

theorem State.peek_add (s : State) (pa m n : Nat) : s.peek pa (m + n) = s.peek pa m ++ s.peek (pa + m) n := by
  induction m generalizing pa with
  | zero => rw [Nat.zero_add]; rfl
  | succ m ih =>
    rw [Nat.add_right_comm]
    show _ :: s.peek (pa + 1) (m + n) = _ :: (s.peek (pa + 1) m ++ _)
    rw [ih, Nat.add_right_comm, Nat.add_assoc pa]

theorem flatMap_peek_unitsOf (s : State) (pa n : Nat) :
    ((unitsOf pa n).flatMap fun u => s.peek u.1 u.2) = s.peek pa n := by
  induction pa, n using unitsOf.induct with
  | case1 => rfl
  | case2 => rfl
  | case3 => rfl
  | case4 => rfl
  | case5 pa n h ih =>
    rw [unitsOf, if_pos h, List.flatMap_cons, ih, ← State.peek_add]
    exact congrArg (s.peek pa) (Nat.add_comm 4 n)
  | case6 pa n h ih =>
    rw [unitsOf, if_neg h, List.flatMap_cons, ih, ← State.peek_add, Nat.add_comm 1]

theorem flatMap_peek_units (s : State) (one : Bool) (pa n : Nat) :
    ((units one pa n).flatMap fun u => s.peek u.1 u.2) = s.peek pa n := by
  cases one with
  | false => exact flatMap_peek_unitsOf s pa n
  | true => exact List.append_nil _

/-- The units of an access lie in it. -/
theorem mem_unitsOf {pa n : Nat} {u : Nat × Nat} (hu : u ∈ unitsOf pa n) : pa ≤ u.1 ∧ u.1 + u.2 ≤ pa + n := by
  induction pa, n using unitsOf.induct with
  | case1 => exact absurd hu List.not_mem_nil
  | case2 | case3 | case4 => simp only [unitsOf, List.mem_cons, List.not_mem_nil, or_false] at hu; grind
  | case5 pa n h ih =>
    rw [unitsOf, if_pos h] at hu
    rcases List.mem_cons.mp hu with rfl | hu
    · omega
    · have := ih hu; omega
  | case6 pa n h ih =>
    rw [unitsOf, if_neg h] at hu
    rcases List.mem_cons.mp hu with rfl | hu
    · omega
    · have := ih hu; omega

theorem mem_units {one : Bool} {pa n : Nat} {u : Nat × Nat} (hu : u ∈ units one pa n) :
    pa ≤ u.1 ∧ u.1 + u.2 ≤ pa + n := by
  cases one with
  | false => exact mem_unitsOf hu
  | true =>
    obtain rfl := List.mem_singleton.mp hu
    exact ⟨Nat.le_refl _, Nat.le_refl _⟩

/-- In the own window no address wraps. -/
theorem pieces_own {va len : Nat} (fuel : Nat) (hend : va + len ≤ 0x400000) (hpos : 0 < len) : pieces va (fuel + 1) len =
    (va, min len (4096 - va % 4096)) ::
      pieces (va + min len (4096 - va % 4096)) fuel (len - min len (4096 - va % 4096)) := by
  obtain ⟨len, rfl⟩ := Nat.exists_eq_add_one.mpr hpos
  have hwrap : (va + min (len + 1) (4096 - va % 4096)) % 2 ^ 64 = va + min (len + 1) (4096 - va % 4096) :=
    Nat.mod_eq_of_lt (by omega)
  rw [← hwrap]
  rfl

theorem pieces_len_zero (va fuel : Nat) : pieces va fuel 0 = [] := by cases fuel <;> rfl

/-- The pieces of an access to the own window lie in it. -/
theorem mem_pieces {p : Nat × Nat} : ∀ {fuel va len : Nat}, va + len ≤ 0x400000 → p ∈ pieces va fuel len →
    va ≤ p.1 ∧ 0 < p.2 ∧ p.1 + p.2 ≤ va + len := by
  intro fuel
  induction fuel with
  | zero => intro va len _ hp; exact absurd hp List.not_mem_nil
  | succ fuel ih =>
    intro va len hend hp
    rcases Nat.eq_zero_or_pos len with rfl | hpos
    · exact absurd hp (by rw [pieces_len_zero]; exact List.not_mem_nil)
    rw [pieces_own fuel hend hpos] at hp
    rcases List.mem_cons.mp hp with rfl | hp
    · dsimp only; omega
    · have := ih (by omega) hp
      omega

/-- With a piece for every page they make up the access. -/
theorem flatMap_peek_pieces (s : State) (k : Nat) : ∀ {fuel va len : Nat}, va + len ≤ 0x400000 →
    (len = 0 ∨ len + va % 4096 ≤ 4096 * fuel) →
    ((pieces va fuel len).flatMap fun p => s.peek (scratchPa k p.1) p.2) = s.peek (scratchPa k va) len := by
  intro fuel
  induction fuel with
  | zero =>
    intro va len _ hf
    obtain rfl : len = 0 := by omega
    rfl
  | succ fuel ih =>
    intro va len hend hf
    rcases Nat.eq_zero_or_pos len with rfl | hpos
    · rw [pieces_len_zero]; rfl
    have hn : min len (4096 - va % 4096) ≤ len := Nat.min_le_left ..
    have hnext : scratchPa k (va + min len (4096 - va % 4096)) = scratchPa k va + min len (4096 - va % 4096) :=
      (Nat.add_assoc ..).symm
    have hrest : len - min len (4096 - va % 4096) = 0 ∨
        len - min len (4096 - va % 4096) + (va + min len (4096 - va % 4096)) % 4096 ≤ 4096 * fuel := by
      rcases Nat.le_total len (4096 - va % 4096) with hlen | hlen
      · exact .inl (by rw [Nat.min_eq_left hlen, Nat.sub_self])
      · rw [Nat.min_eq_right hlen]; omega
    rw [pieces_own fuel hend hpos, List.flatMap_cons, ih (by omega) hrest, hnext, ← State.peek_add,
      Nat.add_sub_cancel' hn]

/-! ### The own scratchpad -/

section
variable {s : State} {va len : Nat}

/-- A range within a range that the executing stream may use. -/
theorem State.ownScratch.mono {va' len' : Nat} (h : s.ownScratch va len) (hlo : va ≤ va') (hhi : va' + len' ≤ va + len) :
    s.ownScratch va' len' := by
  obtain ⟨hk, hlen, hrole, hset, hbank⟩ := h
  refine ⟨hk, by omega, hrole, hset, fun o ho => ?_⟩
  have := hbank (va' - va + o) (by omega)
  rwa [show va + (va' - va + o) = va' + o by omega] at this

theorem State.settledBytes.mono {pa pa' len' : Nat} (h : s.settledBytes pa len) (hlo : pa ≤ pa')
    (hhi : pa' + len' ≤ pa + len) : s.settledBytes pa' len' := by
  intro i hi
  have := h (pa' - pa + i) (by omega)
  rwa [show pa + (pa' - pa + i) = pa' + i by omega] at this

theorem State.canRead.mono {va' len' : Nat} (h : s.canRead va len) (hlo : va ≤ va') (hhi : va' + len' ≤ va + len) :
    s.canRead va' len' := by
  obtain ⟨hown, hecc, hset, hbufs⟩ := h
  refine ⟨hown.mono hlo hhi, hecc, hset.mono ?_ ?_, hbufs⟩ <;> simp only [scratchPa] <;> omega

theorem tierOf_scratchPa {k : Nat} (hk : k < 512) (hva : va < 0x400000) : tierOf (scratchPa k va) = some .scratch := by
  rw [tierOf, if_pos (by simp only [scratchPa]; omega)]

/-- The executing stream's accessor (R71), where no write of the registers that it reads is open. -/
def State.ownAcc (s : State) : Acc := s.me.acc s.curCore s.curStream

theorem specBank_of_role_zero {sp : Spec} (h : sp.role = 0) (off : Nat) : specBank sp off = true := by
  simp only [specBank, h, decide_true, Bool.true_or]

/-- A granted bank of the own scratchpad, outside a Virga loop (R219, R393). -/
theorem bankOk_of_granted {a : Acc} {pa k : Nat} (hown : a.own = some k) (htier : tierOf pa = some .scratch)
    (hgrant : ((a.sees (s.core k)).creg crBANKALLOT).getLsbD (pa % 0x400000 / 0x40000) = true)
    (hspec : (s.core (pa / 0x400000)).spec.role = 0) : bankOk s a pa = true := by
  simp only [bankOk, hown, htier, hgrant, specBank_of_role_zero hspec, Bool.or_true, Bool.and_self]

theorem bankOk_ownAcc (h : s.ownScratch va len) (hlen : 0 < len) : bankOk s s.ownAcc (scratchPa s.curCore va) = true := by
  obtain ⟨hk, hend, hrole, -, hbank⟩ := h
  have hva : va < 0x400000 := by omega
  have hcore : scratchPa s.curCore va / 0x400000 = s.curCore := by rw [scratchPa]; omega
  have hoff : scratchPa s.curCore va % 0x400000 = va := by rw [scratchPa]; omega
  have hgrant := hbank 0 hlen
  rw [Nat.add_zero] at hgrant
  refine bankOk_of_granted (k := s.curCore) rfl (tierOf_scratchPa hk hva) ?_ ?_
  · rw [hoff]; exact hgrant
  · rw [hcore]; exact hrole

theorem reach_ownAcc (h : s.ownScratch va len) (hlen : 0 < len) (kind : Kind) :
    (reach s.ownAcc kind va).run s = .ok (scratchPa s.curCore va, s) := by
  have hva : va < 0x400000 := by have := h.2.1; omega
  have hown : s.ownAcc.own = some s.curCore := rfl
  rw [reach, Op.run_bind_ok (Op.run_get s), if_neg (by omega), if_pos hva, hown]
  simp only
  rw [if_pos (bankOk_ownAcc h hlen), Op.run_pure]

theorem translate_ownAcc (h : s.ownScratch va len) (hlen : 0 < len) (kind : Kind) :
    (translate s.ownAcc kind va).run s = .ok (scratchPa s.curCore va, s) := by
  have hva : va < 0x400000 := by have := h.2.1; omega
  have hguard : (hostGuard s.ownAcc va (scratchPa s.curCore va)).run s = .ok ((), s) := by
    rw [hostGuard, Op.run_bind_ok (Op.run_get s), tierOf_scratchPa h.1 hva]
    rfl
  rw [translate, Op.run_bind_ok (reach_ownAcc h hlen kind), Op.run_bind_ok hguard, Op.run_pure]

theorem chunks_ownAcc (h : s.ownScratch va len) (kind : Kind) : (chunks s.ownAcc kind va len).run s =
    .ok ((pieces va (len / 4096 + 2) len).map fun p => ⟨p.1, scratchPa s.curCore p.1, p.2⟩, s) := by
  refine Op.run_mapM_pure fun p hp => ?_
  obtain ⟨hlo, hpos, hhi⟩ := mem_pieces h.2.1 hp
  rw [Op.run_bind_ok (translate_ownAcc (h.mono hlo hhi) hpos kind), Op.run_pure]

/-- Bytes with no open write read as memory holds them, with nothing buffered. -/
theorem readMem_settled (a : Acc) (obj : Option Nat) {pa : Nat} (hset : s.settledBytes pa len) (hbufs : s.bufs = []) :
    (readMem a obj pa len).run s = .ok (s.peek pa len, s) := by
  have hover (w : Nat) : s.overFrame w pa (s.peek pa len) = s.peek pa len := by rw [State.overFrame, hbufs]; rfl
  have hclosed : ∀ x ∈ (List.range len).map fun i => s.byteHist (pa + i), x.wr.isEmpty = true ∧ x.tok.isEmpty = true := by
    intro x hx
    obtain ⟨i, hi, rfl⟩ := List.mem_map.mp hx
    exact (Bool.and_eq_true ..).mp (hset i (List.mem_range.mp hi))
  have hwr : (((List.range len).map fun i => s.byteHist (pa + i)).all fun h => h.wr.isEmpty) = true :=
    List.all_eq_true.mpr fun x hx => (hclosed x hx).1
  have htok : (flagLink a (((List.range len).map fun i => s.byteHist (pa + i)).map Hist.tok)).run s = .ok ((), s) := by
    rw [flagLink, if_pos, Op.run_pure]
    refine List.all_eq_true.mpr fun t ht => ?_
    obtain ⟨x, hx, rfl⟩ := List.mem_map.mp ht
    exact (hclosed x hx).2
  rw [readMem, Op.run_bind_ok (Op.run_get s)]
  dsimp only
  split
  · rw [Op.run_pure, hover]
  · rw [if_pos hwr, Op.run_bind_ok htok, Op.run_pure]

theorem inIter_of_role_zero {a : Acc} (hown : a.own = some s.curCore) (hrole : s.me.spec.role = 0) : s.inIter a = false := by
  have hrole' : (s.core s.curCore).spec.role = 0 := hrole
  simp only [State.inIter, hown, Core.inIter, hrole']
  simp

theorem readUnit_settled {a : Acc} (obj : Option Nat) {pa : Nat} (hset : s.settledBytes pa len) (hbufs : s.bufs = [])
    (hown : a.own = some s.curCore) (hrole : s.me.spec.role = 0) :
    (readUnit a obj pa len).run s = .ok (s.peek pa len, s) := by
  rw [readUnit, Op.run_bind_ok (readMem_settled a obj hset hbufs), Op.run_bind_ok (Op.run_get s),
    if_neg (by rw [inIter_of_role_zero hown hrole]; decide), Op.run_pure]

theorem eccCheckRead_quiet (a : Acc) (va pa len : Nat) (hecc : s.eccQuiet = true) :
    (eccCheckRead a va pa len).run s = .ok ((), s) := by
  rw [eccCheckRead, Op.run_bind_ok (Op.run_get s)]
  simp only [State.eccScan, hecc, if_true]
  rfl

/-- A piece of scratchpad. -/
theorem readChunk_settled {a : Acc} (one : Bool) {c : Chunk} (htier : tierOf c.pa = some .scratch) (hecc : s.eccQuiet = true)
    (hset : s.settledBytes c.pa c.len) (hbufs : s.bufs = []) (hown : a.own = some s.curCore) (hrole : s.me.spec.role = 0) :
    (readChunk a one c).run s = .ok (s.peek c.pa c.len, s) := by
  have hunits : ((units one c.pa c.len).mapM fun u => readUnit a (s.boundTo a c.va) u.1 u.2).run s =
      .ok ((units one c.pa c.len).map fun u => s.peek u.1 u.2, s) :=
    Op.run_mapM_pure fun u hu => by
      obtain ⟨hlo, hhi⟩ := mem_units hu
      exact readUnit_settled _ (hset.mono hlo hhi) hbufs hown hrole
  rw [readChunk, Op.run_bind_ok (Op.run_get s), htier, if_neg (by decide),
    Op.run_bind_ok (eccCheckRead_quiet a c.va c.pa c.len hecc)]
  dsimp only
  rw [Op.run_bind_ok hunits, Op.run_pure, ← List.flatMap_def, flatMap_peek_units]

theorem readBytes_ownAcc (one : Bool) (h : s.canRead va len) :
    (readBytes s.ownAcc one va len).run s = .ok (s.peek (scratchPa s.curCore va) len, s) := by
  obtain ⟨hown, hecc, hset, hbufs⟩ := h
  have hread : (((pieces va (len / 4096 + 2) len).map fun p => (⟨p.1, scratchPa s.curCore p.1, p.2⟩ : Chunk)).mapM
      (readChunk s.ownAcc one)).run s = .ok (((pieces va (len / 4096 + 2) len).map fun p =>
        (⟨p.1, scratchPa s.curCore p.1, p.2⟩ : Chunk)).map fun c => s.peek c.pa c.len, s) := by
    refine Op.run_mapM_pure fun c hc => ?_
    obtain ⟨p, hp, rfl⟩ := List.mem_map.mp hc
    obtain ⟨hlo, hpos, hhi⟩ := mem_pieces hown.2.1 hp
    refine readChunk_settled one (tierOf_scratchPa hown.1 (by have := hown.2.1; omega)) hecc ?_ hbufs rfl hown.2.2.1
    exact hset.mono (Nat.add_le_add_left hlo _) (by simp only [scratchPa]; omega)
  rw [readBytes, Op.run_bind_ok (chunks_ownAcc hown .read), Op.run_bind_ok hread, Op.run_pure, List.map_map,
    ← List.flatMap_def]
  exact congrArg (fun b => Except.ok (b, s)) (flatMap_peek_pieces s s.curCore hown.2.1 (.inr (by omega)))

/-- What a read of the own scratchpad gives. -/
theorem readNat_ownAcc (one : Bool) (h : s.canRead va len) :
    (readNat s.ownAcc one va len).run s = .ok (s.ownNat va len, s) := by
  rw [readNat, Op.run_bind_ok (readBytes_ownAcc one h), Op.run_pure, State.ownNat]

end

end Sys2Proof.Machine
end

section

/-!
M's operands and cells: what the reads of tiles, views, blocks and rows of A give, and what the writes of cells leave.
-/

namespace Sys2Proof.Machine

section
variable {s : State}

/-! ### The operands of M's words -/

theorem tile_run {n : Nat} (h : s.tileFits n) : (tile n).run s = .ok (s.tileAt n, s) := by
  obtain ⟨h1, h2, h3, h4⟩ := h
  rw [tile, Op.run_bind_ok (here_run s)]
  dsimp only
  rw [Op.run_bind_ok ((guardFault_run ..).trans (if_pos ?_)), Op.run_pure]
  · rfl
  · simp only [Bool.and_eq_true, decide_eq_true_eq]
    exact ⟨⟨⟨h1, h2⟩, by exact_mod_cast h3⟩, by exact_mod_cast h4⟩

theorem rdViewFld_run {vw f : Nat} (h : s.viewSettled vw) (hf : f < 22) :
    (rdViewFld vw f).run s = .ok (s.me.viewFld vw f, s) := by
  rw [rdViewFld, Op.run_bind_ok (here_run s)]
  exact rdWeak_settled _ (h.1 f hf)

/-- Four fields of a view that follow each other. -/
theorem rdViewFlds_run {vw f : Nat} (h : s.viewSettled vw) (hf : f + 4 ≤ 22) :
    ((List.range 4).mapM fun i => rdViewFld vw (f + i)).run s =
      .ok ((List.range 4).map fun i => s.me.viewFld vw (f + i), s) :=
  Op.run_mapM_pure fun i hi => rdViewFld_run h (by have := List.mem_range.mp hi; omega)

theorem rdViewM_run {vw : Nat} (h : s.viewSettled vw) : (rdViewM vw).run s = .ok (s.viewM vw, s) := by
  have hview : (rdView vw).run s = .ok (⟨s.me.viewFld vw 0, s.me.viewFld vw 1, s.me.viewFld vw 2, s.me.viewFld vw 3,
      (List.range 4).map fun i => s.me.viewFld vw (4 + i),
      ((List.range 4).map fun i => s.me.viewFld vw (8 + i)).map fun x => sval 64 x,
      ((List.range 4).map fun i => s.me.viewFld vw (12 + i)).map fun x => sval 32 x⟩, s) := by
    rw [rdView, Op.run_bind_ok (rdViewFld_run h (by decide)), Op.run_bind_ok (rdViewFld_run h (by decide)),
      Op.run_bind_ok (rdViewFld_run h (by decide)), Op.run_bind_ok (rdViewFld_run h (by decide)),
      Op.run_bind_ok (rdViewFlds_run h (by decide)), Op.run_bind_ok (rdViewFlds_run h (by decide)),
      Op.run_bind_ok (rdViewFlds_run h (by decide)), Op.run_pure]
  rw [rdViewM, Op.run_bind_ok hview, Op.run_bind_ok (here_run s), Op.run_pure]
  rfl

theorem wbEff_run {wb len off : Nat} (h : s.blockFits wb len off) : (wbEff wb).run s = .ok (s.blockAt wb 0, s) := by
  obtain ⟨h1, h2, h3, -⟩ := h
  rw [wbEff, Op.run_bind_ok (here_run s)]
  dsimp only
  rw [Op.run_bind_ok ((guardFault_run ..).trans (if_pos ?_)), Op.run_pure]
  · simp [State.blockAt]
  · simp only [Bool.and_eq_true, decide_eq_true_eq]
    exact ⟨⟨h1, h2⟩, by omega⟩

/-- A block of the weight buffer at an offset from the word's. -/
theorem wbBlock_run {wb len off : Nat} (h : s.blockFits wb len off) :
    (wbBlock (s.blockAt wb 0 + off) len).run s = .ok (s.blockAt wb off, s) := by
  obtain ⟨-, h2, h3, h4⟩ := h
  have hat : s.blockAt wb 0 + off = s.blockAt wb off := by simp only [State.blockAt]; omega
  have hfit : (decide (s.blockAt wb off ≤ 16383) && decide (s.blockAt wb off + len ≤ 16384)) = true := by
    refine (Bool.and_eq_true ..).mpr ⟨decide_eq_true ?_, decide_eq_true ?_⟩ <;> simp only [State.blockAt] <;> omega
  rw [hat, wbBlock, Op.run_bind_ok ((guardFault_run ..).trans (if_pos hfit)), Op.run_pure]

theorem arrayRead_quiet (h : s.eccQuiet = true) (arr idx n : Nat) : (arrayRead arr idx n).run s = .ok ((), s) := by
  rw [arrayRead, Op.run_bind_ok (Op.run_get s), if_pos h, Op.run_pure]

theorem arrayWrite_quiet (h : s.arraysQuiet) (arr idx n : Nat) : (arrayWrite arr idx n).run s = .ok ((), s) := by
  obtain ⟨hecc, hinj⟩ := h
  have hinj' : (s.core s.curCore).einj.getLsbD 63 = false := hinj
  rw [arrayWrite, Op.run_bind_ok (Op.run_get s), if_pos (by rw [hecc, hinj']; rfl), Op.run_pure]

theorem rdUnits_run (h : s.eccQuiet = true) (u cu : Nat) : (rdUnits u cu).run s = .ok (s.unitsAt u cu, s) := by
  rw [rdUnits, Op.run_bind_ok (arrayRead_quiet h ..), Op.run_bind_ok (here_run s), Op.run_pure]
  rfl

theorem rdCell_run (h : s.eccQuiet = true) (t : Tile) (i j : Nat) : (rdCell t i j).run s = .ok (s.cellAt t i j, s) := by
  rw [rdCell, Op.run_bind_ok (arrayRead_quiet h ..), Op.run_bind_ok (here_run s), Op.run_pure]
  rfl

/-! ### A -/

theorem ownWindow_run {va len : Nat} (h : s.ownScratch va len) : (ownWindow s.ownAcc va len).run s = .ok ((), s) := by
  rw [ownWindow, if_neg (by have := h.2.1; omega), Op.run_bind_ok (chunks_ownAcc h .read), Op.run_pure]

/-- The format fields of the banks are settled, as a word that reads A without a format of its own needs (R223). -/
def State.bankFmtsSettled (s : State) : Prop := ∀ b < 16, s.settled (0x3000 + b) = true

/-- The format of an element of a view without a format of its own is that of its bank (R43, R194). -/
theorem bankFmt_run {va : Nat} (hk : s.curCore < 512) (hva : va < 0x400000)
    (hset : s.bankFmtsSettled) {bits : Nat}
    (hbits : (SMap.get 0 s.me.bfmt (va / 0x40000)).toNat = bits) :
    (bankFmt s.ownAcc (scratchPa s.curCore va)).run s =
      .ok ((if bits % 16 < 12 then bits % 16 else 0, rndCode (bits / 16 % 8)), s) := by
  have htier := tierOf_scratchPa hk hva
  have hcore : scratchPa s.curCore va / 0x400000 = s.curCore := by rw [scratchPa]; omega
  have hoff : scratchPa s.curCore va % 0x400000 = va := by rw [scratchPa]; omega
  generalize scratchPa s.curCore va = pa at *
  have hbits' : (SMap.get 0 (s.core s.curCore).bfmt (va / 0x40000)).toNat = bits := hbits
  have hweak : (rdWeak (keyBfmt (va / 0x40000)) bits).run s = .ok (bits, s) := rdWeak_settled _ (hset _ (by omega))
  have hown : (decide (s.curCore = s.curCore) && decide (s.ownAcc.agent = agentOf s.curCore s.curStream)) = true :=
    (Bool.and_eq_true ..).mpr ⟨decide_eq_true rfl, decide_eq_true rfl⟩
  rw [bankFmt, htier]
  dsimp only
  rw [Op.run_bind_ok (Op.run_get s), hcore, hoff, hbits', if_pos hown, Op.run_bind_ok hweak, Op.run_pure]

theorem rdA_run {v : ViewVal} {f : MFmt} {va len : Nat} (hpos : 0 < len) (hread : s.canRead va len)
    (hset : s.bankFmtsSettled) (hfmt : s.fmtAt v va = 0 ∨ s.fmtAt v va = mfmtBank f) :
    (rdA s.ownAcc v f va len).run s = .ok (s.ownNat va len, s) := by
  have hva : va < 0x400000 := by have := hread.1.2.1; omega
  have hbytes (code : Nat) (hc : code = 0 ∨ code = mfmtBank f) :
      (do guardFault (code = 0 || code = mfmtBank f) fcILLOP; readNat s.ownAcc false va len : Op Nat).run s =
        .ok (s.ownNat va len, s) := by
    rw [Op.run_bind_ok ((guardFault_run ..).trans (if_pos (by simpa using hc))), readNat_ownAcc false hread]
  rw [rdA, Op.run_bind_ok (ownWindow_run hread.1)]
  dsimp only
  unfold State.fmtAt at hfmt
  by_cases hv : v.fmt < 12
  · rw [if_pos hv] at hfmt ⊢
    exact hbytes _ hfmt
  · rw [if_neg hv] at hfmt ⊢
    rw [Op.run_bind_ok (translate_ownAcc hread.1 hpos .read), Op.run_bind_ok (bankFmt_run hread.1.1 hva hset rfl)]
    exact hbytes _ hfmt

theorem mfmtMx_size_pos (f : MFmt) : 0 < (mfmtMx f).size := by cases f <;> decide
theorem mfmtTy_bytes_pos (f : MFmt) : 0 < (mfmtTy f).width / 8 := by cases f <;> decide

theorem rowA_run {v : ViewVal} {f : MFmt} {tr : Bool} {K i : Nat} (hfit : s.aFits v f tr K i)
    (hset : s.bankFmtsSettled) : (rowA s.ownAcc v f tr K i).run s = .ok (s.aRow v f tr K i, s) := by
  by_cases hmx : f.isMx = true
  · let va := fun b => strideAt v.base i (v.str.getD 1 0) b (mfmtMx f).size
    have hplaces : aPlaces v f tr K i = (List.range (K / 16)).map fun b => (va b, (mfmtMx f).size) := by
      rw [aPlaces, if_pos hmx]
    have hblocks : ((List.range (K / 16)).mapM fun b => rdA s.ownAcc v f (va b) (mfmtMx f).size).run s =
        .ok ((List.range (K / 16)).map fun b => s.ownNat (va b) (mfmtMx f).size, s) := by
      refine Op.run_mapM_pure fun b hb => ?_
      obtain ⟨hread, hfmt⟩ := hfit _ (hplaces ▸ List.mem_map_of_mem hb)
      exact rdA_run (mfmtMx_size_pos f) hread hset hfmt
    rw [rowA]
    dsimp only
    rw [if_pos hmx, Op.run_bind_ok hblocks, Op.run_pure, State.aRow, hplaces, List.flatMap_map, List.flatMap_map]
    simp only [hmx, if_true]
  · let va := fun k => if tr then strideAt v.base i (v.str.getD 0 0) k (v.str.getD 1 0)
      else strideAt v.base k (v.str.getD 0 0) i (v.str.getD 1 0)
    have hplaces : aPlaces v f tr K i = (List.range K).map fun k => (va k, (mfmtTy f).width / 8) := by
      rw [aPlaces, if_neg hmx]
    rw [rowA]
    dsimp only
    rw [if_neg hmx, Op.run_mapM_pure (g := fun k => tyVal (mfmtTy f) (s.ownNat (va k) ((mfmtTy f).width / 8))) ?_,
      State.aRow, hplaces, List.flatMap_map]
    · simp only [hmx, Bool.false_eq_true, if_false]
      exact congrArg (fun l => Except.ok (l, s)) List.map_eq_flatMap
    · intro k hk
      obtain ⟨hread, hfmt⟩ := hfit _ (hplaces ▸ List.mem_map_of_mem hk)
      rw [Op.run_bind_ok (rdA_run (mfmtTy_bytes_pos f) hread hset hfmt), Op.run_pure]

/-! ### Products -/

theorem getD_map_range {α : Type} (g : Nat → α) (d : α) {n i : Nat} (hi : i < n) :
    ((List.range n).map g).getD i d = g i := by
  simp [List.getD, hi]

theorem mem_pairs {rows cols : Nat} {p : Nat × Nat} : p ∈ pairs rows cols ↔ p.1 < rows ∧ p.2 < cols := by
  simp only [pairs, List.mem_flatMap, List.mem_range, List.mem_map]
  constructor
  · rintro ⟨i, hi, j, hj, rfl⟩; exact ⟨hi, hj⟩
  · rintro ⟨hi, hj⟩; exact ⟨p.1, hi, p.2, hj, rfl⟩

/-- The OR of flags of a list's members. -/
def orFlags {α : Type} (l : List α) (f : α → Flags) : Flags := l.foldl (fun y p => y ||| f p) 0

/-- What is to be written to the rows from r0 of a tile, with the block at u. -/
def State.productCells (s : State) (x : Tile) (v : ViewVal) (f : MFmt) (tr z : Bool) (kk u r0 rows : Nat) :
    List (Nat × Nat × Nat) :=
  (pairs rows x.cols).map fun p => (r0 + p.1, p.2, (s.product x v f tr z kk u (r0 + p.1) p.2).1)

theorem productRows_run {x : Tile} {v : ViewVal} {f : MFmt} {tr : Bool} (z : Bool) {kk r0 rows : Nat} (u : Nat)
    (hecc : s.eccQuiet = true) (hset : s.bankFmtsSettled)
    (hfit : ∀ r, r0 ≤ r → r < r0 + rows → s.aFits v f tr (kk * groupSize f) r) :
    (productRows x s.ownAcc v f tr z s.me.wbFmt.2 kk u r0 rows).run s = .ok ((s.productCells x v f tr z kk u r0 rows,
      orFlags (pairs rows x.cols) fun p => (s.product x v f tr z kk u (r0 + p.1) p.2).2), s) := by
  let cu := colUnits f s.me.wbFmt.2 (kk * groupSize f)
  have hrows : ((List.range rows).mapM fun i => rowA s.ownAcc v f tr (kk * groupSize f) (r0 + i)).run s =
      .ok ((List.range rows).map fun i => s.aRow v f tr (kk * groupSize f) (r0 + i), s) :=
    Op.run_mapM_pure fun i hi => rowA_run (hfit _ (by omega) (by have := List.mem_range.mp hi; omega)) hset
  have himgs : ((List.range x.cols).mapM fun j => rdUnits (u + j * cu) cu).run s =
      .ok ((List.range x.cols).map fun j => s.unitsAt (u + j * cu) cu, s) :=
    Op.run_mapM_pure fun j _ => rdUnits_run hecc ..
  rw [productRows]
  dsimp only
  rw [Op.run_bind_ok hrows, Op.run_bind_ok himgs, Op.run_bind_ok (Op.run_mapM_pure (g := fun p =>
    ((r0 + p.1, p.2, (s.product x v f tr z kk u (r0 + p.1) p.2).1), (s.product x v f tr z kk u (r0 + p.1) p.2).2)) ?_),
    Op.run_pure]
  · rw [List.map_map, List.foldl_map]
    rfl
  · intro p hp
    obtain ⟨hi, hj⟩ := mem_pairs.mp hp
    have hrow : ((List.range rows).map fun i => s.aRow v f tr (kk * groupSize f) (r0 + i)).getD p.1 [] =
        s.aRow v f tr (kk * groupSize f) (r0 + p.1) := getD_map_range _ _ hi
    have himg : ((List.range x.cols).map fun j => s.unitsAt (u + j * cu) cu).getD p.2 0 = s.unitsAt (u + p.2 * cu) cu :=
      getD_map_range _ _ hj
    rw [hrow, himg]
    cases z with
    | true => rfl
    | false =>
      simp only [Bool.false_eq_true, if_false]
      rw [Op.run_bind_ok (rdCell_run hecc ..)]
      rfl

end

section
variable {s : State}

/-! ### Cells written -/

/-- Only the executing core changed, and is c. -/
structure State.MovedMe (s t : State) (c : Core) : Prop where
  package : t.apart = s.apart
  others : ∀ j, j ≠ s.curCore → t.core j = s.core j
  mine : t.me = c

theorem State.MovedMe.curCore {t : State} {c : Core} (h : s.MovedMe t c) : t.curCore = s.curCore := by
  show t.apart.curCore = s.apart.curCore
  rw [h.package]

theorem State.MovedMe.curStream {t : State} {c : Core} (h : s.MovedMe t c) : t.curStream = s.curStream := by
  show t.apart.curStream = s.apart.curStream
  rw [h.package]

theorem State.MovedMe.eccQuiet {t : State} {c : Core} (h : s.MovedMe t c) : t.eccQuiet = s.eccQuiet := by
  show t.apart.eccQuiet = s.apart.eccQuiet
  rw [h.package]

theorem State.movedMe_self (s : State) : s.MovedMe s s.me := ⟨rfl, fun _ _ => rfl, rfl⟩

theorem State.movedMe_withMe {c : Core} (hc : c.st ≠ .idle) : s.MovedMe (s.withMe c) c :=
  ⟨rfl, fun _ hj => State.core_withMe_other s c hj, State.me_withMe s hc⟩

theorem State.MovedMe.trans {t u : State} {c d : Core} (h : s.MovedMe t c) (h' : t.MovedMe u d) : s.MovedMe u d :=
  ⟨h'.package.trans h.package, fun j hj => (h'.others j (by rwa [h.curCore])).trans (h.others j hj), h'.mine⟩

/-- Cells of a tile after writes of rows, columns and values in turn. -/
def cellsAfter (t : Tile) (cells : SMap Word) (l : List (Nat × Nat × Nat)) : SMap Word :=
  l.foldl (fun m p => SMap.set 0 m (cellKey (t.row0 + p.1) (t.col0 + p.2.1)) (BitVec.ofNat 64 (p.2.2 % 2 ^ t.fmt.bits)))
    cells

theorem wrCell_run {t : Tile} (hq : s.arraysQuiet) (p : Nat × Nat × Nat) :
    (wrCell t p.1 p.2.1 p.2.2).run s = .ok ((), s.withMe { s.me with cell := cellsAfter t s.me.cell [p] }) := by
  rw [wrCell, Op.run_bind_ok (arrayWrite_quiet hq ..), modHere_run]
  rfl

theorem wrCells_run (t : Tile) (l : List (Nat × Nat × Nat)) : ∀ {s : State}, s.me.st ≠ .idle → s.arraysQuiet →
    ∃ u, (l.forM fun p => wrCell t p.1 p.2.1 p.2.2).run s = .ok ((), u) ∧
      s.MovedMe u { s.me with cell := cellsAfter t s.me.cell l } := by
  induction l with
  | nil => exact fun _ _ => ⟨_, rfl, State.movedMe_self _⟩
  | cons p l ih =>
    intro s hs hq
    have hmoved : s.MovedMe (s.withMe { s.me with cell := cellsAfter t s.me.cell [p] })
        { s.me with cell := cellsAfter t s.me.cell [p] } := State.movedMe_withMe hs
    obtain ⟨u, hrun, hu⟩ := ih (s := s.withMe { s.me with cell := cellsAfter t s.me.cell [p] })
      (by rw [hmoved.mine]; exact hs) ⟨hmoved.eccQuiet.trans hq.1, by rw [hmoved.mine]; exact hq.2⟩
    rw [hmoved.mine] at hu
    exact ⟨u, (Op.run_bind_ok (wrCell_run hq p)).trans hrun, hmoved.trans hu⟩

theorem SMap.rising_set {α : Type} [DecidableEq α] (d v : α) {m : SMap α} (k : Nat) (h : SMap.rising 0 m = true) :
    SMap.rising 0 (SMap.set d m k v) = true := by
  unfold SMap.set
  split
  · exact SMap.rising_del m k h
  · exact SMap.rising_ins m k v h (Nat.zero_le k)

section
variable {α β : Type} [DecidableEq α] {d v : α} {key : β → Nat} {val : β → α} {k : Nat} {l : List β}

/-- A key that no write of the list has reads as before them. -/
theorem SMap.get_foldl_set_other (h : ∀ p ∈ l, key p ≠ k) :
    ∀ m, SMap.get d (l.foldl (fun m p => SMap.set d m (key p) (val p)) m) k = SMap.get d m k := by
  induction l with
  | nil => exact fun m => rfl
  | cons p l ih =>
    intro m
    rw [List.foldl_cons, ih fun q hq => h q (List.mem_cons_of_mem _ hq),
      SMap.get_set_other _ _ _ (h p (List.mem_cons_self ..)).symm]

/-- A key reads as the value that all writes of it have, where it has that value or one of them is in the list. -/
theorem SMap.get_foldl_set_of_forall (h : ∀ p ∈ l, key p = k → val p = v) : ∀ {m : SMap α}, SMap.rising 0 m = true →
    (SMap.get d m k = v ∨ ∃ p ∈ l, key p = k) →
    SMap.get d (l.foldl (fun m p => SMap.set d m (key p) (val p)) m) k = v := by
  induction l with
  | nil =>
    rintro m - (hm | ⟨p, hp, -⟩)
    · exact hm
    · exact absurd hp List.not_mem_nil
  | cons p l ih =>
    intro m hrise hm
    rw [List.foldl_cons]
    refine ih (fun q hq => h q (List.mem_cons_of_mem _ hq)) (SMap.rising_set d _ _ hrise) ?_
    by_cases hp : key p = k
    · exact .inl (by rw [hp, SMap.get_set_self _ _ _ _ hrise, h p (List.mem_cons_self ..) hp])
    · rcases hm with hm | ⟨q, hq, hqk⟩
      · exact .inl (by rw [SMap.get_set_other _ _ _ (Ne.symm hp), hm])
      · rcases List.mem_cons.mp hq with rfl | hq
        · exact absurd hqk hp
        · exact .inr ⟨q, hq, hqk⟩

end

/-- Cells of one tile stand apart in the store. -/
theorem cellKey_inj {r r' c c' : Nat} (hc : c < 128) (hc' : c' < 128) (h : cellKey r c = cellKey r' c') :
    r = r' ∧ c = c' := by
  simp only [cellKey] at h
  omega

theorem fmt_bits_le (t : Tile) : t.fmt.bits ≤ 64 := by
  unfold Tile.fmt
  cases t.f32 <;> decide

/-- The pattern of a cell after writes that all have one value for it. -/
theorem cellsAfter_get {t : Tile} {cells : SMap Word} {l : List (Nat × Nat × Nat)} {i j x : Nat}
    (hrise : SMap.rising 0 cells = true) (hcols : t.col0 + t.cols ≤ 128) (hl : ∀ p ∈ l, p.2.1 < t.cols) (hj : j < t.cols)
    (hx : ∀ p ∈ l, p.1 = i → p.2.1 = j → p.2.2 = x) (hmem : ∃ p ∈ l, p.1 = i ∧ p.2.1 = j) :
    (SMap.get 0 (cellsAfter t cells l) (cellKey (t.row0 + i) (t.col0 + j))).toNat % 2 ^ t.fmt.bits =
      x % 2 ^ t.fmt.bits := by
  have hget : SMap.get 0 (cellsAfter t cells l) (cellKey (t.row0 + i) (t.col0 + j)) =
      BitVec.ofNat 64 (x % 2 ^ t.fmt.bits) := by
    refine SMap.get_foldl_set_of_forall (fun p hp hk => ?_) hrise (.inr ?_)
    · obtain ⟨hr, hc⟩ := cellKey_inj (by have := hl p hp; omega) (by omega) hk
      rw [hx p hp (by omega) (by omega)]
    · obtain ⟨p, hp, rfl, rfl⟩ := hmem
      exact ⟨p, hp, rfl⟩
  have hbits := Nat.pow_le_pow_right (n := 2) (by decide) (fmt_bits_le t)
  have hlt := Nat.mod_lt x (Nat.two_pow_pos t.fmt.bits)
  rw [hget, BitVec.toNat_ofNat, Nat.mod_eq_of_lt (lt_of_lt_of_le hlt hbits), Nat.mod_mod]

/-- A cell that none of the writes names. -/
theorem cellsAfter_get_other {t : Tile} (cells : SMap Word) {l : List (Nat × Nat × Nat)} {r c : Nat}
    (hcols : t.col0 + t.cols ≤ 128) (hl : ∀ p ∈ l, p.2.1 < t.cols) (hc : c < 128)
    (hne : ∀ p ∈ l, t.row0 + p.1 = r → t.col0 + p.2.1 ≠ c) :
    SMap.get 0 (cellsAfter t cells l) (cellKey r c) = SMap.get 0 cells (cellKey r c) :=
  SMap.get_foldl_set_other (fun p hp hk => by
    obtain ⟨hr, hc⟩ := cellKey_inj (by have := hl p hp; omega) hc hk
    exact hne p hp hr hc) cells

/-! ### Flags -/

/-- M's flags raised: MFLAGS takes them in, and no other register changes (R61). -/
theorem raiseFlags_run (hs : s.me.st ≠ .idle) (hm : s.curStream = .m) (hrise : SMap.rising 0 s.me.cr = true) (f : Flags) :
    ∃ t cr, (raiseFlags f).run s = .ok ((), t) ∧ s.MovedMe t { s.me with cr := cr } ∧
      SMap.get 0 cr 0x003 = s.me.creg 0x003 ||| f.setWidth 64 ∧ ∀ n, n ≠ 0x003 → SMap.get 0 cr n = s.me.creg n := by
  by_cases hf : f = 0
  · refine ⟨s, s.me.cr, ?_, s.movedMe_self, ?_, fun _ _ => rfl⟩
    · rw [raiseFlags, Op.run_bind_ok (streamOf_run s), if_pos hf, Op.run_pure]
    · rw [hf]; simp [Core.creg]
  · refine ⟨_, SMap.set 0 s.me.cr 0x003 (raise (s.me.creg 0x003) f), ?_, State.movedMe_withMe hs, ?_, fun n hn => ?_⟩
    · rw [raiseFlags, Op.run_bind_ok (streamOf_run s), if_neg hf, hm]
      rfl
    · rw [SMap.get_set_self _ _ _ _ hrise, raise]
    · rw [SMap.get_set_other _ _ _ hn, Core.creg]

/-- What M's words leave that write cells and raise flags. -/
theorem writeCells_run (t : Tile) (hs : s.me.st ≠ .idle) (hq : s.arraysQuiet) (hm : s.curStream = .m)
    (hrise : SMap.rising 0 s.me.cr = true) (l : List (Nat × Nat × Nat)) (f : Flags) :
    ∃ u cr, (writeCells t l f).run s = .ok ((), u) ∧
      s.MovedMe u { s.me with cell := cellsAfter t s.me.cell l, cr := cr } ∧
      SMap.get 0 cr 0x003 = s.me.creg 0x003 ||| f.setWidth 64 ∧ ∀ n, n ≠ 0x003 → SMap.get 0 cr n = s.me.creg n := by
  obtain ⟨u, hcells, hu⟩ := wrCells_run t l hs hq
  obtain ⟨w, cr, hflags, hw, hset, hother⟩ := raiseFlags_run (s := u) (by rw [hu.mine]; exact hs) (hu.curStream.trans hm)
    (by rw [hu.mine]; exact hrise) f
  rw [hu.mine] at hw hset hother
  exact ⟨w, cr, by rw [writeCells, Op.run_bind_ok hcells, hflags], hu.trans hw, hset, hother⟩

end

/-! ### M's operands after a wait -/

section
variable {s : State} {i : Instr} {h : Hdr}

theorem State.peek_congr {t : State} (hmem : t.mem = s.mem) (pa n : Nat) : t.peek pa n = s.peek pa n := by
  induction n generalizing pa with
  | zero => rfl
  | succ n ih => rw [State.peek, State.peek, ih, State.memByte, hmem, State.memByte]

theorem State.waited_ownNat (va len : Nat) : (s.waited i h).ownNat va len = s.ownNat va len := by
  rw [State.ownNat, State.peek_congr State.waited_mem, State.waited_curCore, State.ownNat]

theorem State.waited_settledBytes (pa len : Nat) : (s.waited i h).settledBytes pa len ↔ s.settledBytes pa len := by
  have hhist : (s.waited i h).hist = s.hist := State.waited_pack State.hist (fun _ _ => rfl) fun _ _ _ => rfl
  simp only [State.settledBytes, State.byteHist, State.memByte, hhist, State.waited_mem]

variable (hs : s.me.st ≠ .idle)
include hs

/-- What the issue of no word changes of a core, the wait leaves. -/
theorem State.waited_field {α : Type} (g : Core → α) (hg : ∀ c : Core, g c.apart = g c) :
    g (s.waited i h).me = g s.me := by
  rw [← hg, State.waited_me_apart hs, hg]

theorem State.waited_nest : (s.waited i h).me.nest = s.me.nest :=
  State.waited_keep Core.nest hs (fun c st x => by cases st <;> rfl) (fun _ _ => rfl) fun c st r => by cases st <;> rfl

theorem State.waited_pf (id : Nat) : (s.waited i h).me.pf id = s.me.pf id := by
  have hplane : (s.waited i h).me.plane = s.me.plane := State.waited_field hs Core.plane fun _ => rfl
  rw [Core.pf, hplane, Core.pf]

theorem State.waited_nestSum (f b : Nat) : (s.waited i h).me.nestSum f b = s.me.nestSum f b := by
  simp only [Core.nestSum, State.waited_nest hs, State.waited_pf hs]

theorem State.waited_tileAt (n : Nat) : (s.waited i h).tileAt n = s.tileAt n := by
  simp only [State.tileAt, Core.tileMap, State.waited_nestSum hs, State.waited_pf hs]

theorem State.waited_tileFits (n : Nat) : (s.waited i h).tileFits n ↔ s.tileFits n := by
  simp only [State.tileFits, State.waited_nestSum hs, State.waited_pf hs]

theorem State.waited_wbFmt : (s.waited i h).me.wbFmt = s.me.wbFmt := by
  simp only [Core.wbFmt, State.waited_pf hs]

theorem State.waited_viewM (vw : Nat) : (s.waited i h).viewM vw = s.viewM vw := by
  have hvw : (s.waited i h).me.vw = s.me.vw := State.waited_field hs Core.vw fun _ => rfl
  simp only [State.viewM, Core.viewFld, hvw, State.waited_nestSum hs]

theorem State.waited_blockFits (wb len off : Nat) : (s.waited i h).blockFits wb len off ↔ s.blockFits wb len off := by
  simp only [State.blockFits, State.waited_nestSum hs]

theorem State.waited_blockAt (wb off : Nat) : (s.waited i h).blockAt wb off = s.blockAt wb off := by
  simp only [State.blockAt, State.waited_nestSum hs]

theorem State.waited_cell : (s.waited i h).me.cell = s.me.cell := State.waited_field hs Core.cell fun _ => rfl

theorem State.waited_cellAt (t : Tile) (r c : Nat) : (s.waited i h).cellAt t r c = s.cellAt t r c := by
  simp only [State.cellAt, State.waited_cell hs]

theorem State.waited_unitsAt (u cu : Nat) : (s.waited i h).unitsAt u cu = s.unitsAt u cu := by
  have hwbuf : (s.waited i h).me.wbuf = s.me.wbuf := State.waited_field hs Core.wbuf fun _ => rfl
  simp only [State.unitsAt, hwbuf]

theorem State.waited_ownScratch (va len : Nat) : (s.waited i h).ownScratch va len ↔ s.ownScratch va len := by
  have hspec : (s.waited i h).me.spec = s.me.spec := State.waited_field hs Core.spec fun _ => rfl
  have hrhist : (s.waited i h).me.rhist = s.me.rhist := State.waited_field hs Core.rhist fun _ => rfl
  simp only [State.ownScratch, State.waited_curCore, hspec, Core.accSettled, hrhist, State.waited_creg hs]

theorem State.waited_canRead (va len : Nat) : (s.waited i h).canRead va len ↔ s.canRead va len := by
  have hbufs : (s.waited i h).bufs = s.bufs := State.waited_pack State.bufs (fun _ _ => rfl) fun _ _ _ => rfl
  simp only [State.canRead, State.waited_ownScratch hs, State.waited_eccQuiet, State.waited_settledBytes,
    State.waited_curCore, hbufs]

theorem State.waited_aFits (v : ViewVal) (f : MFmt) (tr : Bool) (K r : Nat) :
    (s.waited i h).aFits v f tr K r ↔ s.aFits v f tr K r := by
  have hbfmt : (s.waited i h).me.bfmt = s.me.bfmt := State.waited_field hs Core.bfmt fun _ => rfl
  simp only [State.aFits, State.waited_canRead hs, State.fmtAt, hbfmt]

theorem State.waited_product (x : Tile) (v : ViewVal) (f : MFmt) (tr z : Bool) (kk u r c : Nat) :
    (s.waited i h).product x v f tr z kk u r c = s.product x v f tr z kk u r c := by
  simp only [State.product, State.aRow, State.waited_wbFmt hs, State.waited_unitsAt hs, State.waited_cellAt hs,
    State.waited_ownNat]

theorem State.waited_arraysQuiet (hq : s.arraysQuiet) : (s.waited i h).arraysQuiet := by
  have heinj : (s.waited i h).me.einj = s.me.einj := State.waited_field hs Core.einj fun _ => rfl
  obtain ⟨hecc, hinj⟩ := hq
  exact ⟨State.waited_eccQuiet.trans hecc, by rw [heinj, hinj]⟩

end

end Sys2Proof.Machine
end

section

/-!
The words of products (O37). Each reads all its operands before it writes a cell, so what is to be written and the flags
are functions of the state before it (`productRows_run`, `groupRows_run`); the groups of a table are runs of rows
(`groupBlock`), whose flags make up the region's (`regionFlags_eq_groupFlags`).
-/

namespace Sys2Proof.Machine

/-! ### Flags of a region -/

section
variable {α β : Type}

theorem orFlags_from (f : α → Flags) (l : List α) : ∀ y : Flags, l.foldl (fun y p => y ||| f p) y = y ||| orFlags l f := by
  induction l with
  | nil => exact fun y => (BitVec.or_zero ..).symm
  | cons p l ih =>
    intro y
    have hfirst : (0 : Flags) ||| f p = f p := BitVec.zero_or
    rw [orFlags, List.foldl_cons, List.foldl_cons, ih, ih (0 ||| f p), BitVec.or_assoc, hfirst]

theorem orFlags_append (l l' : List α) (f : α → Flags) : orFlags (l ++ l') f = orFlags l f ||| orFlags l' f := by
  rw [orFlags, List.foldl_append, orFlags_from]
  rfl

theorem orFlags_map (g : β → α) (l : List β) (f : α → Flags) : orFlags (l.map g) f = orFlags l fun b => f (g b) :=
  List.foldl_map ..

theorem orFlags_congr {l : List α} {f g : α → Flags} (h : ∀ p ∈ l, f p = g p) : orFlags l f = orFlags l g :=
  List.foldl_ext _ _ _ fun y p hp => by rw [h p hp]

theorem orFlags_eq_zero {l : List α} {f : α → Flags} (h : ∀ p ∈ l, f p = 0) : orFlags l f = 0 := by
  rw [orFlags_congr h]
  induction l with
  | nil => rfl
  | cons p l ih =>
    rw [orFlags, List.foldl_cons, orFlags_from, ih fun q hq => h q (List.mem_cons_of_mem _ hq)]
    rfl

end

theorem pairs_add (m n cols : Nat) :
    pairs (m + n) cols = pairs m cols ++ (pairs n cols).map fun p => (m + p.1, p.2) := by
  simp only [pairs, List.range_add, List.flatMap_append, List.flatMap_map, List.map_flatMap, List.map_map]
  rfl

/-! ### Groups of rows -/

/-- Rows of all groups. -/
def groupedRows (gs : List (Nat × Nat)) : Nat := (gs.map Prod.fst).sum

theorem groupedRows_cons (n u : Nat) (gs : List (Nat × Nat)) : groupedRows ((n, u) :: gs) = n + groupedRows gs := by
  simp [groupedRows]

theorem groupBlock_zero (u : Nat) (gs : List (Nat × Nat)) (i : Nat) : groupBlock ((0, u) :: gs) i = groupBlock gs i := rfl

theorem groupBlock_first {n i : Nat} (u : Nat) (gs : List (Nat × Nat)) (hi : i < n) :
    groupBlock ((n, u) :: gs) i = some u := if_pos hi

theorem groupBlock_later (n u : Nat) (gs : List (Nat × Nat)) (i : Nat) :
    groupBlock ((n, u) :: gs) (n + i) = groupBlock gs i := by
  rw [groupBlock, if_neg (by omega), Nat.add_sub_cancel_left]

/-- The rows that a group takes are those below the groups' sum. -/
theorem groupBlock_eq_none : ∀ {gs : List (Nat × Nat)} {i : Nat}, groupedRows gs ≤ i → groupBlock gs i = none
  | [], _, _ => rfl
  | (n, u) :: gs, i, h => by
    rw [groupedRows_cons] at h
    rw [groupBlock, if_neg (by omega)]
    exact groupBlock_eq_none (by omega)

/-- A group's rows keep it when the blocks of the table are placed, whatever stands for groups of no rows. -/
theorem groupBlock_map (place : Nat → Nat) : ∀ (gs : List (Nat × Nat)) (i : Nat),
    groupBlock (gs.map fun g => if g.1 = 0 then (0, 0) else (g.1, place g.2)) i = (groupBlock gs i).map place
  | [], _ => rfl
  | (0, u) :: gs, i => by
    rw [groupBlock_zero, ← groupBlock_map place gs i]
    exact groupBlock_zero 0 _ i
  | (n + 1, u) :: gs, i => by
    rw [List.map_cons, if_neg (Nat.succ_ne_zero n), groupBlock, groupBlock, groupBlock_map place gs]
    split <;> rfl

theorem groupedRows_map (place : Nat → Nat) (gs : List (Nat × Nat)) :
    groupedRows (gs.map fun g => if g.1 = 0 then (0, 0) else (g.1, place g.2)) = groupedRows gs := by
  rw [groupedRows, groupedRows, List.map_map]
  refine congrArg List.sum (List.map_congr_left fun g _ => ?_)
  by_cases hg : g.1 = 0 <;> simp [hg]

section
variable {s : State} {x : Tile} {v : ViewVal} {f : MFmt} {z : Bool} {kk : Nat}

/-- The flags of the groups' products at a row and a column from tile row r. -/
def State.groupFlags (s : State) (x : Tile) (v : ViewVal) (f : MFmt) (z : Bool) (kk : Nat) (gs : List (Nat × Nat)) (r : Nat)
    (p : Nat × Nat) : Flags :=
  (groupBlock gs p.1).elim 0 fun u => (s.product x v f false z kk u (r + p.1) p.2).2

theorem mem_productCells {tr : Bool} {u r n : Nat} {p : Nat × Nat × Nat} : p ∈ s.productCells x v f tr z kk u r n ↔
    ∃ i j, i < n ∧ j < x.cols ∧ p = (r + i, j, (s.product x v f tr z kk u (r + i) j).1) := by
  simp only [State.productCells, List.mem_map]
  constructor
  · rintro ⟨q, hq, rfl⟩
    obtain ⟨hi, hj⟩ := mem_pairs.mp hq
    exact ⟨q.1, q.2, hi, hj, rfl⟩
  · rintro ⟨i, j, hi, hj, rfl⟩
    exact ⟨(i, j), mem_pairs.mpr ⟨hi, hj⟩, rfl⟩

/-- The cells that groups of rows write, and the flags, from tile row r on. -/
theorem groupRows_run (hecc : s.eccQuiet = true) (hset : s.bankFmtsSettled) : ∀ (gs : List (Nat × Nat)) (r : Nat),
    (∀ i < groupedRows gs, s.aFits v f false (kk * groupSize f) (r + i)) →
    ∃ l, (groupRows x s.ownAcc v f z s.me.wbFmt.2 kk gs r).run s =
        .ok ((l, orFlags (pairs (groupedRows gs) x.cols) (s.groupFlags x v f z kk gs r)), s) ∧
      ∀ p, p ∈ l ↔ ∃ i u j, groupBlock gs i = some u ∧ j < x.cols ∧
        p = (r + i, j, (s.product x v f false z kk u (r + i) j).1)
  | [], r, _ => ⟨[], rfl, fun p => ⟨fun hp => absurd hp List.not_mem_nil, nofun⟩⟩
  | (0, u) :: gs, r, hfit => by
    rw [groupedRows_cons, Nat.zero_add] at hfit ⊢
    exact groupRows_run hecc hset gs r hfit
  | (n + 1, u) :: gs, r, hfit => by
    rw [groupedRows_cons] at hfit ⊢
    obtain ⟨l, hrun, hl⟩ := groupRows_run hecc hset gs (r + (n + 1)) fun i hi => by
      rw [Nat.add_assoc]; exact hfit _ (by omega)
    have hfirst := productRows_run (x := x) (r0 := r) (rows := n + 1) z u hecc hset fun q hlo hhi => by
      have := hfit (q - r) (by omega)
      rwa [show r + (q - r) = q by omega] at this
    refine ⟨s.productCells x v f false z kk u r (n + 1) ++ l, ?_, fun p => ?_⟩
    · have hhead : orFlags (pairs (n + 1) x.cols) (s.groupFlags x v f z kk ((n + 1, u) :: gs) r) =
          orFlags (pairs (n + 1) x.cols) fun p => (s.product x v f false z kk u (r + p.1) p.2).2 :=
        orFlags_congr fun p hp => by rw [State.groupFlags, groupBlock_first u gs (mem_pairs.mp hp).1]; rfl
      have htail : (orFlags (pairs (groupedRows gs) x.cols) fun p =>
          s.groupFlags x v f z kk ((n + 1, u) :: gs) r (n + 1 + p.1, p.2)) =
          orFlags (pairs (groupedRows gs) x.cols) (s.groupFlags x v f z kk gs (r + (n + 1))) :=
        orFlags_congr fun p _ => by
          simp only [State.groupFlags, groupBlock_later]
          rw [Nat.add_assoc r (n + 1)]
      rw [groupRows, Op.run_bind_ok hfirst]
      dsimp only
      rw [Nat.add_assoc r n 1, Op.run_bind_ok hrun, Op.run_pure, pairs_add (n + 1), orFlags_append, orFlags_map, hhead,
        htail]
    · rw [List.mem_append, hl, mem_productCells]
      constructor
      · rintro (⟨i, j, hi, hj, rfl⟩ | ⟨i, w, j, hw, hj, rfl⟩)
        · exact ⟨i, u, j, groupBlock_first u gs hi, hj, rfl⟩
        · exact ⟨n + 1 + i, w, j, (groupBlock_later ..).trans hw, hj, by rw [Nat.add_assoc r (n + 1)]⟩
      · rintro ⟨i, w, j, hw, hj, rfl⟩
        rcases Nat.lt_or_ge i (n + 1) with hi | hi
        · obtain rfl := Option.some.inj ((groupBlock_first u gs hi).symm.trans hw)
          exact .inl ⟨i, j, hi, hj, rfl⟩
        · obtain ⟨i, rfl⟩ := Nat.exists_eq_add_of_le hi
          exact .inr ⟨i, w, j, (groupBlock_later ..).symm.trans hw, hj, by rw [Nat.add_assoc r (n + 1)]⟩

/-- The region's flags are those of the grouped rows. -/
theorem regionFlags_eq_groupFlags {gs : List (Nat × Nat)} (hsum : groupedRows gs ≤ x.rows) {g : Nat → Nat → Flags}
    (hg : ∀ r c, g r c = s.groupFlags x v f z kk gs 0 (r, c)) :
    regionFlags x g = orFlags (pairs (groupedRows gs) x.cols) (s.groupFlags x v f z kk gs 0) := by
  have hrows : x.rows = groupedRows gs + (x.rows - groupedRows gs) := by omega
  have hrest : (orFlags (pairs (x.rows - groupedRows gs) x.cols) fun p =>
      s.groupFlags x v f z kk gs 0 (groupedRows gs + p.1, p.2)) = 0 :=
    orFlags_eq_zero fun p _ => by
      simp only [State.groupFlags, groupBlock_eq_none (Nat.le_add_right (groupedRows gs) p.1), Option.elim_none]
  have hsplit : orFlags (pairs x.rows x.cols) (s.groupFlags x v f z kk gs 0) =
      orFlags (pairs (groupedRows gs) x.cols) (s.groupFlags x v f z kk gs 0) := by
    rw [hrows, pairs_add, orFlags_append, orFlags_map, hrest]
    exact BitVec.or_zero
  rw [← hsplit]
  exact orFlags_congr fun p _ => hg p.1 p.2

end

/-! ### What the words leave -/

section
variable {s u : State} {x : Tile} {cr : SMap Word} {l : List (Nat × Nat × Nat)}

/-- Cells written as a function of row and column says, and no others. -/
theorem State.cellsOut_of_cellsAfter {cell : Nat → Nat → Option Nat} (hrise : SMap.rising 0 s.me.cell = true)
    (hcols : x.col0 + x.cols ≤ 128) (hu : u.me.cell = cellsAfter x s.me.cell l)
    (hl : ∀ p, p ∈ l ↔ p.1 < x.rows ∧ p.2.1 < x.cols ∧ cell p.1 p.2.1 = some p.2.2) : s.cellsOut u x cell := by
  have hlcols : ∀ p ∈ l, p.2.1 < x.cols := fun p hp => ((hl p).mp hp).2.1
  refine ⟨fun i hi j hj => ?_, fun r _ c hc hout => ?_⟩
  · rw [State.cellAt, hu]
    cases hcell : cell i j with
    | some y =>
      refine cellsAfter_get hrise hcols hlcols hj ?_ ⟨(i, j, y), (hl _).mpr ⟨hi, hj, hcell⟩, rfl, rfl⟩
      rintro ⟨i', j', y'⟩ hp rfl rfl
      exact Option.some.inj (((hl _).mp hp).2.2.symm.trans hcell)
    | none =>
      have hkeep := cellsAfter_get_other (r := x.row0 + i) (c := x.col0 + j) s.me.cell hcols hlcols (by omega)
        fun p hp hr hc => by
          obtain ⟨-, -, hsome⟩ := (hl p).mp hp
          rw [show p.1 = i by omega, show p.2.1 = j by omega, hcell] at hsome
          exact absurd hsome nofun
      rw [show 128 * (x.row0 + i) + (x.col0 + j) = cellKey (x.row0 + i) (x.col0 + j) from rfl, hkeep, Option.getD_none,
        State.cellAt, Nat.mod_mod]
      rfl
  · rw [hu]
    refine cellsAfter_get_other s.me.cell hcols hlcols hc fun p hp hr hc => ?_
    obtain ⟨hi, hj, -⟩ := (hl p).mp hp
    omega

/-- What is written in the state after a wait has changed cells and MFLAGS only. -/
theorem State.mOnly_of_moved {i : Instr} {h : Hdr} {cells : SMap Word} {f : Flags} (hs : s.me.st ≠ .idle)
    (hu : (s.waited i h).MovedMe u { (s.waited i h).me with cell := cells, cr := cr })
    (hflags : SMap.get 0 cr 0x003 = (s.waited i h).me.creg 0x003 ||| f.setWidth 64)
    (hcregs : ∀ n, n ≠ 0x003 → SMap.get 0 cr n = (s.waited i h).me.creg n) : s.MOnly u f := by
  have hcr : u.me.cr = cr := by rw [hu.mine]
  refine ⟨⟨hu.package.trans State.waited_apart, fun j hj => ?_, ?_⟩, ?_, fun n hn => ?_⟩
  · rw [hu.others j (by rwa [State.waited_curCore]), State.waited_core_other hj]
  · rw [hu.mine]
    show { (s.waited i h).me.apart with cell := cells, cr := cr } = { s.me.apart with cell := cells, cr := cr }
    rw [State.waited_me_apart hs]
  · rw [Core.creg, hcr, hflags, State.waited_creg hs]
  · rw [Core.creg, hcr, hcregs n hn, State.waited_creg hs]

end

/-! ### What the words need of their operands -/

section
variable {s : State} {f : MFmt} {n vw wb k : Nat} {tr : Bool}

/-- The tile lies in the store and agrees with f, and the weight buffer holds f. -/
structure State.TileTakes (s : State) (f : MFmt) (n : Nat) : Prop where
  fits : s.tileFits n
  acc : accOk f (s.tileAt n) = true
  fmt : s.me.wbFmt.1 = mfmtCode f
  comp : s.me.wbFmt.2 < 4

/-- A state in which M's word may read operands, write cells and raise flags. -/
structure State.Accumulates (s : State) : Prop where
  busy : s.me.st ≠ .idle
  stream : s.curStream = .m
  quiet : s.arraysQuiet
  cregs : SMap.rising 0 s.me.cr = true

/-- A's view has the rows and the K products (R273). -/
def ViewVal.holdsA (v : ViewVal) (tr : Bool) (K rows : Nat) : Prop :=
  if tr then rows ≤ v.ext.getD 0 0 ∧ K ≤ v.ext.getD 1 0 else K ≤ v.ext.getD 0 0 ∧ rows ≤ v.ext.getD 1 0

/-- Units of a tile's block of weight columns. -/
def State.blockLen (s : State) (f : MFmt) (n k : Nat) : Nat :=
  (s.tileAt n).cols * colUnits f s.me.wbFmt.2 (kSteps k * groupSize f)

/-- A view and a block for all rows of a tile (R273, R275). -/
structure State.OperandsFit (s : State) (tr : Bool) (f : MFmt) (n vw wb k : Nat) : Prop where
  rank : (s.viewM vw).rank = 2
  block : s.blockFits wb (s.blockLen f n k) 0
  ext : (s.viewM vw).holdsA tr (kSteps k * groupSize f) (s.tileAt n).rows
  rows : ∀ r < (s.tileAt n).rows, s.aFits (s.viewM vw) f tr (kSteps k * groupSize f) r

/-- The groups that the table at tb names: rows and block offset (R278). -/
def State.groupTable (s : State) (tb : Nat) : List (Nat × Nat) :=
  (List.range (s.ownNat tb 8 % 128)).map fun q =>
    (fld (s.ownNat (tb + 8 * (q + 1)) 8) 0 16, fld (s.ownNat (tb + 8 * (q + 1)) 8) 16 15)

/-- A table of groups, with a view and blocks for the rows that they take (R278). -/
structure State.TableFits (s : State) (f : MFmt) (n vw wb k tb : Nat) : Prop where
  base : (s.viewM ((vw + 1) % 32)).base = tb
  align : tb % 8 = 0
  count : s.ownNat tb 8 % 128 ≤ 64
  read : s.canRead tb (8 * (s.ownNat tb 8 % 128 + 1))
  offset : s.blockFits wb 0 0
  blocks : ∀ g ∈ s.groupTable tb, g.1 ≠ 0 → s.blockFits wb (s.blockLen f n k) g.2
  sum : groupedRows (s.groupTable tb) ≤ (s.tileAt n).rows
  rank : (s.viewM vw).rank = 2
  ext0 : kSteps k * groupSize f ≤ (s.viewM vw).ext.getD 0 0
  ext1 : groupedRows (s.groupTable tb) ≤ (s.viewM vw).ext.getD 1 0
  rows : ∀ r < groupedRows (s.groupTable tb), s.aFits (s.viewM vw) f false (kSteps k * groupSize f) r

/-- The groups with their blocks placed in the weight buffer. -/
def State.placedGroups (s : State) (wb : Nat) (gs : List (Nat × Nat)) : List (Nat × Nat) :=
  gs.map fun g => if g.1 = 0 then (0, 0) else (g.1, s.blockAt wb g.2)

/-! A wait leaves all of it. -/

section
variable {i : Instr} {h : Hdr}

theorem State.mReady.accumulates (hm : s.mReady i h) : (s.waited i h).Accumulates := by
  obtain ⟨-, hr, hst, hq, -, hcr⟩ := hm
  have hs := State.ready_busy hr
  exact ⟨by rwa [State.waited_st hs], State.waited_curStream.trans hst, State.waited_arraysQuiet hs hq,
    by rwa [State.waited_cr hs]⟩

theorem State.waited_groupTable (tb : Nat) : (s.waited i h).groupTable tb = s.groupTable tb := by
  simp only [State.groupTable, State.waited_ownNat]

variable (hs : s.me.st ≠ .idle)
include hs

theorem State.waited_blockLen : (s.waited i h).blockLen f n k = s.blockLen f n k := by
  simp only [State.blockLen, State.waited_tileAt hs, State.waited_wbFmt hs]

theorem State.waited_placedGroups (gs : List (Nat × Nat)) :
    (s.waited i h).placedGroups wb gs = s.placedGroups wb gs := by
  simp only [State.placedGroups, State.waited_blockAt hs]

theorem State.waited_groupFlags (x : Tile) (v : ViewVal) (z : Bool) (kk : Nat) (gs : List (Nat × Nat)) (r : Nat) :
    (s.waited i h).groupFlags x v f z kk gs r = s.groupFlags x v f z kk gs r := by
  funext p
  simp only [State.groupFlags, State.waited_product hs]

theorem State.TileTakes.waited (ht : s.TileTakes f n) : (s.waited i h).TileTakes f n :=
  ⟨(State.waited_tileFits hs n).mpr ht.fits, by rw [State.waited_tileAt hs, ht.acc],
    by rw [State.waited_wbFmt hs, ht.fmt], by rw [State.waited_wbFmt hs]; exact ht.comp⟩

theorem State.OperandsFit.waited (ho : s.OperandsFit tr f n vw wb k) : (s.waited i h).OperandsFit tr f n vw wb k where
  rank := by rw [State.waited_viewM hs]; exact ho.rank
  block := by rw [State.waited_blockFits hs, State.waited_blockLen hs]; exact ho.block
  ext := by rw [State.waited_viewM hs, State.waited_tileAt hs]; exact ho.ext
  rows r hr := by
    rw [State.waited_tileAt hs] at hr
    rw [State.waited_viewM hs, State.waited_aFits hs]
    exact ho.rows r hr

theorem State.TableFits.waited {tb : Nat} (ho : s.TableFits f n vw wb k tb) :
    (s.waited i h).TableFits f n vw wb k tb where
  base := by rw [State.waited_viewM hs]; exact ho.base
  align := ho.align
  count := by rw [State.waited_ownNat]; exact ho.count
  read := by rw [State.waited_ownNat, State.waited_canRead hs]; exact ho.read
  offset := by rw [State.waited_blockFits hs]; exact ho.offset
  blocks g hg hne := by
    rw [State.waited_groupTable] at hg
    rw [State.waited_blockFits hs, State.waited_blockLen hs]
    exact ho.blocks g hg hne
  sum := by rw [State.waited_groupTable, State.waited_tileAt hs]; exact ho.sum
  rank := by rw [State.waited_viewM hs]; exact ho.rank
  ext0 := by rw [State.waited_viewM hs]; exact ho.ext0
  ext1 := by rw [State.waited_groupTable, State.waited_viewM hs]; exact ho.ext1
  rows r hr := by
    rw [State.waited_groupTable] at hr
    rw [State.waited_viewM hs, State.waited_aFits hs]
    exact ho.rows r hr

end

/-! ### The words' operations -/

theorem kSteps_pos (k : Nat) : 0 < kSteps k := by unfold kSteps; split <;> omega

theorem groupSize_pos (f : MFmt) : 0 < groupSize f := by cases f <;> decide

/-- A row of A that can be read has an element. -/
theorem State.aFits.accSettled {v : ViewVal} {kk r : Nat} (hk : 0 < kk) (h : s.aFits v f tr (kk * groupSize f) r) :
    s.me.accSettled = true := by
  obtain ⟨q, hq⟩ : ∃ q, q ∈ aPlaces v f tr (kk * groupSize f) r := by
    by_cases hmx : f.isMx = true
    · have hsize : groupSize f = 64 := by revert hmx; cases f <;> decide
      rw [aPlaces, if_pos hmx, hsize]
      exact ⟨_, List.mem_map_of_mem (List.mem_range.mpr (show 0 < kk * 64 / 16 by omega))⟩
    · rw [aPlaces, if_neg hmx]
      exact ⟨_, List.mem_map_of_mem (List.mem_range.mpr (Nat.mul_pos hk (groupSize_pos f)))⟩
  obtain ⟨⟨⟨-, -, -, hset, -⟩, -⟩, -⟩ := h q hq
  exact hset

theorem checkA_run {v : ViewVal} {K rows : Nat} (hrank : v.rank = 2) (hext : v.holdsA tr K rows) :
    (checkA v tr K rows).run s = .ok ((), s) := by
  rw [checkA, Op.run_bind_ok ((guardFault_run ..).trans (if_pos (decide_eq_true hrank))), guardFault_run, if_pos]
  cases tr <;> simpa [ViewVal.holdsA] using hext

/-- MMA and MSMA read every operand, then write the region's cells. -/
theorem productOp_run {sparse z : Bool} (hrun : s.Accumulates) (ht : s.TileTakes f n) (hset : s.viewSettled vw)
    (hsparse : sparse = (s.me.wbFmt.2 != 0)) (ho : s.OperandsFit tr f n vw wb k) :
    (productOp sparse tr z f n vw wb k).run s =
      (writeCells (s.tileAt n)
        (s.productCells (s.tileAt n) (s.viewM vw) f tr z (kSteps k) (s.blockAt wb 0) 0 (s.tileAt n).rows)
        (regionFlags (s.tileAt n) fun r c =>
          (s.product (s.tileAt n) (s.viewM vw) f tr z (kSteps k) (s.blockAt wb 0) r c).2)).run s := by
  have hguard : (accOk f (s.tileAt n) && s.me.wbFmt.1 == mfmtCode f && decide (s.me.wbFmt.2 < 4) &&
      (sparse == (s.me.wbFmt.2 != 0))) = true := by
    simp [ht.acc, ht.fmt, ht.comp, hsparse]
  have hacc : accHere.run s = .ok (s.ownAcc, s) :=
    accHere_run s ((ho.rows 0 (Nat.succ_pos _)).accSettled (kSteps_pos k))
  have hblock : (wbBlock (s.blockAt wb 0) (s.blockLen f n k)).run s = .ok (s.blockAt wb 0, s) := wbBlock_run ho.block
  have hproducts := productRows_run (x := s.tileAt n) (r0 := 0) (rows := (s.tileAt n).rows) z (s.blockAt wb 0) hrun.quiet.1
    hset.2 fun r _ hr => ho.rows r (by omega)
  rw [State.blockLen] at hblock
  rw [productOp, Op.run_bind_ok (tile_run ht.fits), Op.run_bind_ok (here_run s)]
  dsimp only
  rw [Op.run_bind_ok ((guardFault_run ..).trans (if_pos hguard)), Op.run_bind_ok (wbEff_run ho.block),
    Op.run_bind_ok hblock, Op.run_bind_ok (rdViewM_run hset), Op.run_bind_ok (checkA_run ho.rank ho.ext),
    Op.run_bind_ok hacc, Op.run_bind_ok hproducts]
  simp only [Nat.zero_add]
  rfl

theorem readGroups_run {tb : Nat} (halign : tb % 8 = 0) (hm : s.ownNat tb 8 % 128 ≤ 64)
    (hread : s.canRead tb (8 * (s.ownNat tb 8 % 128 + 1))) :
    (readGroups s.ownAcc tb).run s = .ok (s.groupTable tb, s) := by
  have hentry (q : Nat) (hq : q ≤ s.ownNat tb 8 % 128) : s.canRead (tb + 8 * q) 8 := hread.mono (by omega) (by omega)
  have hhead := hentry 0 (Nat.zero_le _)
  rw [Nat.mul_zero, Nat.add_zero] at hhead
  rw [readGroups, Op.run_bind_ok ((guardAddr_run ..).trans (if_pos (decide_eq_true halign))),
    Op.run_bind_ok (ownWindow_run hhead.1), Op.run_bind_ok (readNat_ownAcc true hhead)]
  dsimp only
  rw [Op.run_bind_ok ((guardFault_run ..).trans (if_pos (decide_eq_true hm)))]
  refine Op.run_mapM_pure fun q hq => ?_
  have hq' := hentry (q + 1) (List.mem_range.mp hq)
  rw [Op.run_bind_ok (ownWindow_run hq'.1), Op.run_bind_ok (readNat_ownAcc true hq'), Op.run_pure]

theorem foldl_rows (gs : List (Nat × Nat)) : gs.foldl (fun x g => x + g.1) 0 = groupedRows gs := by
  rw [groupedRows, List.sum_eq_foldl, List.foldl_map]

/-- MGRP reads the table and every group's operands, then writes the region's cells. -/
theorem mgrpOp_run {z : Bool} {tb : Nat} (hrun : s.Accumulates) (ht : s.TileTakes f n) (hset : s.viewSettled vw)
    (hset' : s.viewSettled ((vw + 1) % 32)) (ho : s.TableFits f n vw wb k tb) :
    ∃ l, (mgrpOp z f n vw wb k).run s = (writeCells (s.tileAt n) l
        (orFlags (pairs (groupedRows (s.groupTable tb)) (s.tileAt n).cols)
          (s.groupFlags (s.tileAt n) (s.viewM vw) f z (kSteps k) (s.placedGroups wb (s.groupTable tb)) 0))).run s ∧
      ∀ p, p ∈ l ↔ ∃ i u j, groupBlock (s.placedGroups wb (s.groupTable tb)) i = some u ∧ j < (s.tileAt n).cols ∧
        p = (0 + i, j, (s.product (s.tileAt n) (s.viewM vw) f false z (kSteps k) u (0 + i) j).1) := by
  have hguard : (accOk f (s.tileAt n) && s.me.wbFmt.1 == mfmtCode f && decide (s.me.wbFmt.2 < 4)) = true := by
    simp [ht.acc, ht.fmt, ht.comp]
  have hacc : accHere.run s = .ok (s.ownAcc, s) := accHere_run s ho.read.1.2.2.2.1
  have hsum : (decide (groupedRows (s.groupTable tb) ≤ (s.tileAt n).rows) &&
      decide (groupedRows (s.groupTable tb) ≤ (s.viewM vw).ext.getD 1 0)) = true :=
    (Bool.and_eq_true ..).mpr ⟨decide_eq_true ho.sum, decide_eq_true ho.ext1⟩
  have hplaced : groupedRows (s.placedGroups wb (s.groupTable tb)) = groupedRows (s.groupTable tb) := groupedRows_map ..
  obtain ⟨l, hgroups, hl⟩ := groupRows_run (x := s.tileAt n) (v := s.viewM vw) (f := f) (z := z) (kk := kSteps k)
    hrun.quiet.1 hset.2 (s.placedGroups wb (s.groupTable tb)) 0 fun i hi => by
      rw [hplaced] at hi; rw [Nat.zero_add]; exact ho.rows i hi
  rw [hplaced] at hgroups
  refine ⟨l, ?_, hl⟩
  rw [mgrpOp, Op.run_bind_ok (tile_run ht.fits), Op.run_bind_ok (here_run s)]
  dsimp only
  rw [Op.run_bind_ok ((guardFault_run ..).trans (if_pos hguard)), Op.run_bind_ok (wbEff_run ho.offset),
    Op.run_bind_ok (rdViewM_run hset), Op.run_bind_ok (rdViewM_run hset'), Op.run_bind_ok hacc, ho.base,
    Op.run_bind_ok (readGroups_run ho.align ho.count ho.read), foldl_rows,
    Op.run_bind_ok ((guardFault_run ..).trans (if_pos hsum)),
    Op.run_bind_ok (Op.run_mapM_pure (g := fun g => if g.1 = 0 then (0, 0) else (g.1, s.blockAt wb g.2)) ?_)]
  · rw [State.placedGroups] at hgroups
    rw [Op.run_bind_ok hgroups, State.placedGroups]
  · intro g hg
    split
    · rfl
    next hne =>
      have hblock := wbBlock_run (ho.blocks g hg hne)
      rw [State.blockLen] at hblock
      rw [Op.run_bind_ok ((guardFault_run ..).trans (if_pos (decide_eq_true ho.rank))),
        Op.run_bind_ok ((guardFault_run ..).trans (if_pos (decide_eq_true ho.ext0))), Op.run_bind_ok hblock, Op.run_pure]

/-! ### The words -/

theorem State.tileFits.cols (h : s.tileFits n) : (s.tileAt n).col0 + (s.tileAt n).cols ≤ 128 := by
  obtain ⟨-, h2, -, h4⟩ := h
  simp only [State.tileAt]
  omega

/-- A ready word whose operation is to write cells and raise flags in the state after its wait. -/
theorem runOp_writeCells {i : Instr} {h : Hdr} {body : Op Unit} {l : List (Nat × Nat × Nat)} {fl : Flags}
    {cell : Nat → Nat → Option Nat} (hm : s.mReady i h) (ht : s.tileFits n)
    (hbody : body.run (s.waited i h) = (writeCells (s.tileAt n) l fl).run (s.waited i h))
    (hl : ∀ p, p ∈ l ↔ p.1 < (s.tileAt n).rows ∧ p.2.1 < (s.tileAt n).cols ∧ cell p.1 p.2.1 = some p.2.2) :
    ∃ t : State, runOp i h body s = .next (t.retire i h fall) ∧ s.MOnly t fl ∧ s.cellsOut t (s.tileAt n) cell := by
  have hw := hm.accumulates
  obtain ⟨-, hr, -, -, hcells, -⟩ := hm
  have hs := State.ready_busy hr
  obtain ⟨t, cr, hrun, hu, hflags, hcregs⟩ := writeCells_run (s.tileAt n) hw.busy hw.quiet hw.stream hw.cregs l fl
  refine ⟨t, runOp_ready hr (hbody.trans hrun), State.mOnly_of_moved hs hu hflags hcregs,
    State.cellsOut_of_cellsAfter hcells ht.cols ?_ hl⟩
  rw [hu.mine, ← State.waited_cell (i := i) (h := h) hs]

/-- MMA and MSMA. -/
theorem exec_product {i : Instr} {h : Hdr} {sparse z : Bool}
    (hi : exec i s = runOp i h (productOp sparse tr z f n vw wb k) s) (hm : s.mReady i h) (ht : s.TileTakes f n)
    (hset : (s.waited i h).viewSettled vw) (hsparse : sparse = (s.me.wbFmt.2 != 0)) (ho : s.OperandsFit tr f n vw wb k) :
    ∃ t : State, exec i s = .next (t.retire i h fall) ∧
      s.MOnly t (regionFlags (s.tileAt n) fun r c =>
        (s.product (s.tileAt n) (s.viewM vw) f tr z (kSteps k) (s.blockAt wb 0) r c).2) ∧
      s.cellsOut t (s.tileAt n) fun r c =>
        some (s.product (s.tileAt n) (s.viewM vw) f tr z (kSteps k) (s.blockAt wb 0) r c).1 := by
  have hs := State.ready_busy hm.2.1
  have hbody := productOp_run (sparse := sparse) (z := z) hm.accumulates (ht.waited hs) hset
    (by rwa [State.waited_wbFmt hs]) (ho.waited hs)
  simp only [State.waited_viewM hs, State.waited_tileAt hs, State.waited_blockAt hs, State.waited_product hs] at hbody
  rw [hi]
  refine runOp_writeCells hm ht.fits hbody fun p => ?_
  rw [mem_productCells]
  constructor
  · rintro ⟨r, c, hr, hc, rfl⟩
    rw [Nat.zero_add]
    exact ⟨hr, hc, by rw [State.waited_product hs]⟩
  · rintro ⟨hr, hc, hx⟩
    refine ⟨p.1, p.2.1, hr, hc, ?_⟩
    rw [Nat.zero_add, State.waited_product hs, Option.some.inj hx]

theorem exec_mgrp {h : Hdr} {z : Bool} {tb : Nat} (hm : s.mReady (.mgrp h z f n vw wb k) h) (ht : s.TileTakes f n)
    (hset : (s.waited (.mgrp h z f n vw wb k) h).viewSettled vw)
    (hset' : (s.waited (.mgrp h z f n vw wb k) h).viewSettled ((vw + 1) % 32)) (ho : s.TableFits f n vw wb k tb)
    {block : Nat → Option Nat} (hblock : ∀ r, block r = (groupBlock (s.groupTable tb) r).map (s.blockAt wb)) :
    ∃ t : State, exec (.mgrp h z f n vw wb k) s = .next (t.retire (.mgrp h z f n vw wb k) h fall) ∧
      s.MOnly t (regionFlags (s.tileAt n) fun r c =>
        (block r).elim 0 fun u => (s.product (s.tileAt n) (s.viewM vw) f false z (kSteps k) u r c).2) ∧
      s.cellsOut t (s.tileAt n) fun r c =>
        (block r).map fun u => (s.product (s.tileAt n) (s.viewM vw) f false z (kSteps k) u r c).1 := by
  have hs := State.ready_busy hm.2.1
  obtain ⟨l, hbody, hl⟩ := mgrpOp_run (z := z) hm.accumulates (ht.waited hs) hset hset' (ho.waited hs)
  simp only [State.waited_viewM hs, State.waited_groupTable, State.waited_tileAt hs, State.waited_placedGroups hs,
    State.waited_groupFlags hs, State.waited_product hs, Nat.zero_add] at hbody hl
  have hplaced (r : Nat) : groupBlock (s.placedGroups wb (s.groupTable tb)) r = block r :=
    (groupBlock_map ..).trans (hblock r).symm
  have hsum : groupedRows (s.placedGroups wb (s.groupTable tb)) = groupedRows (s.groupTable tb) := groupedRows_map ..
  rw [← hsum, ← regionFlags_eq_groupFlags (hsum.trans_le ho.sum) (g := fun r c =>
    (block r).elim 0 fun u => (s.product (s.tileAt n) (s.viewM vw) f false z (kSteps k) u r c).2) fun r c => by
      simp only [State.groupFlags, hplaced, Nat.zero_add]] at hbody
  refine runOp_writeCells hm ht.fits hbody fun p => ?_
  rw [hl]
  constructor
  · rintro ⟨r, u, c, hu, hc, rfl⟩
    rw [hplaced] at hu
    refine ⟨Nat.lt_of_not_le fun hr => ?_, hc, by rw [hu, Option.map_some]⟩
    rw [← hplaced, groupBlock_eq_none ((hsum.trans_le ho.sum).trans hr)] at hu
    exact absurd hu nofun
  · rintro ⟨-, hc, hx⟩
    obtain ⟨u, hu, hx⟩ := Option.map_eq_some_iff.mp hx
    exact ⟨p.1, u, p.2.1, (hplaced _).trans hu, hc, by rw [hx]⟩

theorem State.MOnly.congr {t : State} {x : Tile} {g g' : Nat → Nat → Flags} (h : ∀ r c, g r c = g' r c)
    (hm : s.MOnly t (regionFlags x g)) : s.MOnly t (regionFlags x g') := by
  rwa [← funext₂ h]

end

/-- Settles O37: the words read every operand before they write a cell, so the region's cells and flags are those of the
products over the old state. -/
theorem productWordsAccumulate : Obligations.ProductWordsAccumulate := by
  intro s h z f n vw wb k
  dsimp only
  intro htile hacc hfmt hcomp hrank
  have ht : s.TileTakes f n := ⟨htile, hacc, hfmt, hcomp⟩
  constructor
  · intro i tr hi hm hset hblock hext hfit
    have ho : s.OperandsFit tr f n vw wb k := ⟨hrank, hblock, hext, hfit⟩
    rcases hi with ⟨rfl, hzero⟩ | ⟨rfl, hne⟩
    · exact exec_product (sparse := false) rfl hm ht hset (by rw [hzero]; rfl) ho
    · exact exec_product (sparse := true) rfl hm ht hset (bne_iff_ne.mpr hne).symm ho
  · intro hm hset hset' hext hoff halign hcount hread hsum hext1 hblocks hfit
    obtain ⟨t, hexec, honly, hcells⟩ := exec_mgrp hm ht hset hset'
      ⟨rfl, halign, hcount, hread, hoff, hblocks, hsum, hrank, hext, hext1, hfit⟩ fun _ => rfl
    refine ⟨t, hexec, State.MOnly.congr (fun r c => ?_) honly, hcells⟩
    rw [← State.groupTable]
    generalize (groupBlock (s.groupTable (s.viewM ((vw + 1) % 32)).base) r).map (s.blockAt wb) = block
    cases block with
    | none => rfl
    | some u => rfl

end Sys2Proof.Machine
end
section

/-!
Integer words and division (O1, O2): each word's value is what the statement gives, and a word that only writes S[d] is
one write in the state after its wait.
-/

namespace Sys2Proof.Machine

/-! ### Fields and values -/

/-- The low w bits of a number read as signed, whatever stands above them. -/
theorem toInt_ofNat_eq_sx (w n : Nat) : (BitVec.ofNat (w + 1) n).toInt = sx (w + 1) n := by
  have hlt : n % 2 ^ (w + 1) < 2 ^ (w + 1) := Nat.mod_lt _ (by positivity)
  have htwo : 2 ^ (w + 1) = 2 * 2 ^ w := by rw [pow_succ']
  simp only [BitVec.toInt, BitVec.toNat_ofNat, sx, sval, Nat.add_sub_cancel]
  split_ifs <;> omega

/-- A sign-extended field. -/
theorem ofInt_sx (w n : Nat) : BitVec.ofInt 64 (sx (w + 1) n) = (BitVec.ofNat (w + 1) n).signExtend 64 := by
  rw [BitVec.signExtend, toInt_ofNat_eq_sx]

/-- An address in the statements' form (R118, R151). -/
theorem addOff_eq (x : Word) (w off : Nat) :
    addOff x (w + 1) off = x + (BitVec.ofNat (w + 1) off).signExtend 64 := by
  rw [addOff, ofInt_sx]

theorem ofNat_mod_two_pow (w n : Nat) :
    BitVec.ofNat 64 (n % 2 ^ w) = (BitVec.ofNat w n).setWidth 64 := by
  apply BitVec.eq_of_toNat_eq
  rw [BitVec.toNat_setWidth, BitVec.toNat_ofNat, BitVec.toNat_ofNat]

theorem ofNat_mod_mul_two_pow (w m n : Nat) :
    BitVec.ofNat 64 (n % 2 ^ w * 2 ^ m) = (BitVec.ofNat w n).setWidth 64 <<< m := by
  rw [← ofNat_mod_two_pow]
  apply BitVec.eq_of_toNat_eq
  rw [BitVec.toNat_shiftLeft, BitVec.toNat_ofNat, BitVec.toNat_ofNat, Nat.shiftLeft_eq, Nat.mod_mul_mod]

theorem popCount_eq_countP (n x : Nat) : popCount x n = (List.range n).countP fun k => x.testBit k := by
  induction n generalizing x with
  | zero => rfl
  | succ n ih =>
    rw [popCount, ih, List.range_succ_eq_map, List.countP_cons, List.countP_map]
    have hrest : ((fun k => x.testBit k) ∘ Nat.succ) = fun k => (x / 2).testBit k := by
      funext k
      exact Nat.testBit_succ ..
    have hlow : x % 2 = if x.testBit 0 = true then 1 else 0 := by
      rw [Nat.testBit_zero]
      split_ifs with h <;> simp at h <;> omega
    rw [hrest, hlow, Nat.add_comm]

theorem popcVal_eq (x : Word) :
    popcVal x = BitVec.ofNat 64 ((List.range 64).countP fun n => x.getLsbD n) := by
  rw [popcVal, popCount_eq_countP]
  rfl

theorem clzVal_eq (x : Word) : clzVal x = x.clz := by
  unfold clzVal
  split_ifs with hx
  · rw [hx]
    rfl
  · have hne : x.toNat ≠ 0 := fun h => hx (BitVec.eq_of_toNat_eq h)
    have hlow : 2 ^ (64 - 1 - x.clz.toNat) ≤ x.toNat :=
      BitVec.two_pow_sub_clz_le_toNat_of_ne_zero (by decide) hx
    have hlt : x.clz.toNat < 64 := BitVec.clz_lt_iff_ne_zero.mpr hx
    have hhigh : x.toNat < 2 ^ (64 - 1 - x.clz.toNat + 1) := by
      rw [show 64 - 1 - x.clz.toNat + 1 = 64 - x.clz.toNat by omega]
      exact BitVec.toNat_lt_two_pow_sub_clz
    have hlog : x.toNat.log2 = 64 - 1 - x.clz.toNat := (Nat.log2_eq_iff hne).mpr ⟨hlow, hhigh⟩
    rw [hlog, show 63 - (64 - 1 - x.clz.toNat) = x.clz.toNat by omega, BitVec.ofNat_toNat, BitVec.setWidth_eq]

/-- A shift by 64 or more fills with the sign (R105). -/
theorem sarVal_eq (x y : Word) : sarVal x y = x.sshiftRight (min y.toNat 64) := by
  unfold sarVal
  split_ifs with hy hmsb
  · rw [Nat.min_eq_left hy.le]
  all_goals
    rw [Nat.min_eq_right (by omega)]
    ext n hn
    rw [BitVec.getElem_sshiftRight, dif_neg (by omega)]
  · rw [BitVec.getElem_allOnes, hmsb]
  · rw [Bool.eq_false_of_not_eq_true hmsb]
    exact BitVec.getElem_zero hn

theorem minVal_true (x y : Word) : minVal true x y = if y.ult x then y else x := by
  simp only [minVal, BitVec.ult_iff_toNat_lt, if_true]

theorem minVal_false (x y : Word) : minVal false x y = if y.slt x then y else x := by
  simp only [minVal, BitVec.slt_iff_toInt_lt, Bool.false_eq_true, if_false]

theorem maxVal_true (x y : Word) : maxVal true x y = if x.ult y then y else x := by
  simp only [maxVal, BitVec.ult_iff_toNat_lt, if_true]

theorem maxVal_false (x y : Word) : maxVal false x y = if x.slt y then y else x := by
  simp only [maxVal, BitVec.slt_iff_toInt_lt, Bool.false_eq_true, if_false]

/-- What CMP writes, in the statement's form of its ten conditions. -/
theorem boolWord_condHolds (k : Cond) (x y : Word) : boolWord (condHolds k x y) = if (match k with
      | .eq => x = y | .ne => x ≠ y
      | .lt => x.toInt < y.toInt | .ge => x.toInt ≥ y.toInt
      | .ltu => x.toNat < y.toNat | .geu => x.toNat ≥ y.toNat
      | .le => x.toInt ≤ y.toInt | .gt => x.toInt > y.toInt
      | .leu => x.toNat ≤ y.toNat | .gtu => x.toNat > y.toNat : Bool) then 1 else 0 := by
  cases k with
  | ne => by_cases hxy : x = y <;> simp [boolWord, condHolds, hxy]
  | _ => rfl

/-! ### Words that only write S[d] -/

section
variable {s : State} {i : Instr} {h : Hdr}

theorem runOp_alu1 {f : Word → Word} {d a : Nat} {v : Word} (hr : s.ready i h = true) (hv : f (s.sreg a) = v) :
    runOp i h (alu1 f d a) s = .next (((s.waited i h).setS d v).retire i h fall) := by
  refine runOp_ready hr ?_
  rw [alu1, Op.run_bind_ok (rdS_run a _), wrS_run, State.waited_sreg (State.ready_busy hr), hv]

theorem runOp_alu2 {f : Word → Word → Word} {d a b : Nat} {v : Word} (hr : s.ready i h = true)
    (hv : f (s.sreg a) (s.sreg b) = v) :
    runOp i h (alu2 f d a b) s = .next (((s.waited i h).setS d v).retire i h fall) := by
  have hs := State.ready_busy hr
  refine runOp_ready hr ?_
  rw [alu2, Op.run_bind_ok (rdS_run a _), Op.run_bind_ok (rdS_run b _), wrS_run, State.waited_sreg hs,
    State.waited_sreg hs, hv]

theorem runOp_wrS {d : Nat} {v u : Word} (hr : s.ready i h = true) (hv : v = u) :
    runOp i h (wrS d v) s = .next (((s.waited i h).setS d u).retire i h fall) :=
  runOp_ready hr (by rw [wrS_run, hv])

theorem runOp_aluDiv {f : Word → Word → Word} {d a b : Nat} {v : Word} (hr : s.ready i h = true) (hb : s.sreg b ≠ 0)
    (hv : f (s.sreg a) (s.sreg b) = v) :
    runOp i h (aluDiv f d a b) s = .next (((s.waited i h).setS d v).retire i h fall) := by
  have hs := State.ready_busy hr
  refine runOp_ready hr ?_
  rw [aluDiv, Op.run_bind_ok (rdS_run a _), Op.run_bind_ok (rdS_run b _), State.waited_sreg hs, State.waited_sreg hs,
    Op.run_bind_ok ((guardFault_run ..).trans (if_pos (decide_eq_true hb))), wrS_run, hv]

/-- Only XLATE and PROT can wait for V (R379). -/
theorem deferrable_ofStream {code : Nat} (hx : code ≠ fcXLATE) (hp : code ≠ fcPROT) (i : Instr) (st : Stream)
    (addr stat : Word) : deferrable i st (.ofStream st code addr stat) = false := by
  simp [deferrable, FaultInfo.ofStream, hx, hp]

/-- A ready word whose effects raise a fault of its stream that does not wait for V. -/
theorem runWord_fault_ofStream {body : Op Fin} {code : Nat} {addr stat : Word} (hr : s.ready i h = true)
    (hb : body.run (s.waited i h) = .error (.fault (.ofStream s.curStream code addr stat)))
    (hd : deferrable i s.curStream (.ofStream s.curStream code addr stat) = false) :
    runWord i h body s = .next ((s.waited i h).takeFault s.curCore (.ofStream s.curStream code addr stat) false) := by
  have hexec := runWord_fault hr hb
  rwa [State.waited_curStream, State.waited_curCore, hd] at hexec

theorem runOp_fault_ofStream {body : Op Unit} {code : Nat} {addr stat : Word} (hr : s.ready i h = true)
    (hb : body.run (s.waited i h) = .error (.fault (.ofStream s.curStream code addr stat)))
    (hd : deferrable i s.curStream (.ofStream s.curStream code addr stat) = false) :
    runOp i h body s = .next ((s.waited i h).takeFault s.curCore (.ofStream s.curStream code addr stat) false) :=
  runWord_fault_ofStream hr (by rw [Op.run_bind_error hb]) hd

theorem runOp_aluDiv_zero {f : Word → Word → Word} {d a b : Nat} (hr : s.ready i h = true) (hb : s.sreg b = 0) :
    runOp i h (aluDiv f d a b) s =
      .next ((s.waited i h).takeFault s.curCore (.ofStream s.curStream 0x1A 0 0) false) := by
  refine runOp_fault_ofStream hr ?_ (deferrable_ofStream (by decide) (by decide) ..)
  rw [aluDiv, Op.run_bind_ok (rdS_run a _), Op.run_bind_ok (rdS_run b _), State.waited_sreg (State.ready_busy hr), hb,
    Op.run_bind_error ((guardFault_run ..).trans (if_neg (by decide))), State.waited_curStream]
  rfl

theorem exec_sel_of_ready {d c a b : Nat} (hr : s.ready (.sel h d c a b) h = true) :
    exec (.sel h d c a b) s = .next (((s.waited (.sel h d c a b) h).setS d
      (if s.sreg c ≠ 0 then s.sreg a else s.sreg b)).retire (.sel h d c a b) h fall) := by
  have hs := State.ready_busy hr
  refine runOp_ready hr ?_
  rw [Op.run_bind_ok (rdS_run c _), Op.run_bind_ok (rdS_run a _), Op.run_bind_ok (rdS_run b _), wrS_run,
    State.waited_sreg hs, State.waited_sreg hs, State.waited_sreg hs]

end

/-- Settles O1: each word is one write of S[d] in the state after its wait, of the value that its lemma above gives. -/
theorem integerWordWritesResultAndRetires : Obligations.IntegerWordWritesResultAndRetires := by
  intro s i h d v hi hv hr
  cases i with
  | add | sub | mul | and | or | xor | shl | shr =>
    cases hv
    cases hi
    exact runOp_alu2 hr rfl
  | mulh g k d' a b =>
    cases hi
    cases k with
    | ss | uu | su =>
      cases hv
      exact runOp_alu2 hr rfl
  | sar =>
    cases hv
    cases hi
    exact runOp_alu2 hr (sarVal_eq ..)
  | clz =>
    cases hv
    cases hi
    exact runOp_alu1 hr (clzVal_eq _)
  | popc =>
    cases hv
    cases hi
    exact runOp_alu1 hr (popcVal_eq _)
  | min g u d' a b =>
    cases hi
    cases u with
    | true =>
      cases hv
      exact runOp_alu2 hr (minVal_true ..)
    | false =>
      cases hv
      exact runOp_alu2 hr (minVal_false ..)
  | max g u d' a b =>
    cases hi
    cases u with
    | true =>
      cases hv
      exact runOp_alu2 hr (maxVal_true ..)
    | false =>
      cases hv
      exact runOp_alu2 hr (maxVal_false ..)
  | cmp g k d' a b =>
    cases hv
    cases hi
    exact runOp_alu2 hr (boolWord_condHolds ..)
  | sel =>
    cases hv
    cases hi
    exact exec_sel_of_ready hr
  | movi =>
    cases hv
    cases hi
    exact runOp_wrS hr (ofInt_sx ..)
  | sext g k d' a =>
    cases hi
    cases k with
    | s8 | s16 | s32 =>
      cases hv
      exact runOp_alu1 hr (ofInt_sx ..)
    | z8 | z16 | z32 =>
      cases hv
      exact runOp_alu1 hr (ofNat_mod_two_pow ..)
  | movl g k d' lit =>
    cases hi
    cases k with
    | s32 | s48 =>
      cases hv
      exact runOp_wrS hr (ofInt_sx ..)
    | z32 =>
      cases hv
      exact runOp_wrS hr (ofNat_mod_two_pow ..)
    | h48 =>
      cases hv
      exact runOp_wrS hr (ofNat_mod_mul_two_pow ..)
  | addi =>
    cases hv
    cases hi
    exact runOp_alu1 hr (addOff_eq ..)
  | _ => cases hv

/-! ### Division -/

theorem divVal_true (x y : Word) : divVal true x y = x / y := by
  apply BitVec.eq_of_toNat_eq
  rw [divVal, if_pos rfl, BitVec.toNat_ofNat, BitVec.toNat_udiv]
  exact Nat.mod_eq_of_lt ((Nat.div_le_self ..).trans_lt x.isLt)

theorem remVal_true (x y : Word) : remVal true x y = x % y := by
  apply BitVec.eq_of_toNat_eq
  rw [remVal, if_pos rfl, BitVec.toNat_ofNat, BitVec.toNat_umod]
  exact Nat.mod_eq_of_lt ((Nat.mod_le ..).trans_lt x.isLt)

theorem remVal_false (x y : Word) : remVal false x y = BitVec.ofInt 64 (x.toInt.tmod y.toInt) := by
  rw [remVal, if_neg (by decide), Int.tmod_def]

theorem divideWritesQuotientOrRemainder : DivideWritesQuotientOrRemainder := by
  intro s i h b d v hi hv hb hr
  cases i with
  | div g u d' a b' =>
    cases hi
    cases u with
    | true =>
      cases hv
      exact runOp_aluDiv hr hb (divVal_true ..)
    | false =>
      cases hv
      exact runOp_aluDiv hr hb rfl
  | rem g u d' a b' =>
    cases hi
    cases u with
    | true =>
      cases hv
      exact runOp_aluDiv hr hb (remVal_true ..)
    | false =>
      cases hv
      exact runOp_aluDiv hr hb (remVal_false ..)
  | _ => cases hv

theorem divideByZeroFaults : DivideByZeroFaults := by
  intro s i h b hi hb hzero hr
  cases i with
  | div | rem =>
    cases hi
    cases hb
    exact runOp_aluDiv_zero hr hzero
  | _ => cases hb

/-- Settles O2: DIV and REM test their divisor before they write, and the signed remainder is what truncated division
leaves. -/
theorem divisionTruncatesAndFaultsOnZero : Obligations.DivisionTruncatesAndFaultsOnZero :=
  ⟨divideWritesQuotientOrRemainder, divideByZeroFaults⟩

end Sys2Proof.Machine
end

section

/-!
Taken transfers, BR, JMP, CALL and RET (O4).
-/

namespace Sys2Proof.Machine

/-! ### Counts that fit -/

theorem nodup_eraseDups : ∀ l : List Nat, l.eraseDups.Nodup
  | [] => by rw [List.eraseDups_nil]; exact .nil
  | a :: l => by
    rw [List.eraseDups_cons]
    refine List.nodup_cons.mpr ⟨fun ha => ?_, nodup_eraseDups _⟩
    simpa using List.of_mem_filter (List.mem_eraseDups.mp ha)
termination_by l => l.length
decreasing_by exact Nat.lt_succ_of_le (List.length_filter_le ..)

/-- Of the package only counts of the executing core and its signals in flight have changed. -/
structure State.RaisesOnly (s t : State) : Prop where
  package : t.apart = s.apart
  others : ∀ j, j ≠ s.curCore → t.core j = s.core j
  mine : ∃ a b l, t.me = { s.me with cnt := a, cntClk := b, flight := l }

section
variable {s t : State}

theorem State.curCore_of_apart_eq (h : t.apart = s.apart) : t.curCore = s.curCore :=
  (congrArg State.curCore h : t.apart.curCore = s.apart.curCore)

theorem State.curStream_of_apart_eq (h : t.apart = s.apart) : t.curStream = s.curStream :=
  (congrArg State.curStream h : t.apart.curStream = s.apart.curStream)

theorem State.RaisesOnly.refl (s : State) : s.RaisesOnly s := ⟨rfl, fun _ _ => rfl, _, _, _, rfl⟩

/-- Of a running core more counts and signals may change. -/
theorem State.RaisesOnly.setCore (hs : s.me.st ≠ .idle) (h : s.RaisesOnly t) {c : Core} {a b l}
    (hc : c = { t.me with cnt := a, cntClk := b, flight := l }) : s.RaisesOnly (t.setCore s.curCore c) := by
  obtain ⟨hp, ho, a', b', l', hm⟩ := h
  have hcur := State.curCore_of_apart_eq hp
  refine ⟨hp, fun j hj => (State.core_setCore_other t c hj).trans (ho j hj), a, b, l, ?_⟩
  rw [hm] at hc
  rw [State.me, State.setCore_curCore, hcur, State.core_setCore_busy t _ (by rw [hc]; exact hs), hc]

theorem State.RaisesOnly.core_curCore (h : s.RaisesOnly t) : t.core s.curCore = t.me := by
  rw [State.me, State.curCore_of_apart_eq h.package]

theorem Core.addCount_eq (c : Core) (n m : Nat) (tok : Clk) :
    ∃ a b, c.addCount n m tok = { c with cnt := a, cntClk := b } := by
  unfold Core.addCount
  split <;> exact ⟨_, _, rfl⟩

theorem Core.count_addCount_other (c : Core) {n m : Nat} (k : Nat) (tok : Clk) (h : m ≠ n) :
    (c.addCount n k tok).count m = c.count m := by
  unfold Core.addCount
  split
  · rfl
  · exact SMap.get_set_other _ _ _ h

/-- Adding the counts of a list, counter by counter, passes no counter's bound where each fits. -/
theorem State.foldl_addCount_fits (hs : s.me.st ≠ .idle) (l : List (Bool × Nat × Nat)) (tok : Clk) (ns : List Nat)
    (hnd : ns.Nodup) (h : s.RaisesOnly t) (hfit : ∀ n ∈ ns, t.me.count n + localSum l n ≤ 65535) :
    ∃ u, ns.foldl (fun (a : State × Bool) n =>
      let c := a.1.core s.curCore
      if c.count n + localSum l n ≤ 65535 then (a.1.setCore s.curCore (c.addCount n (localSum l n) tok), a.2)
      else (a.1, true)) (t, false) = (u, false) ∧ s.RaisesOnly u := by
  induction ns generalizing t with
  | nil => exact ⟨t, rfl, h⟩
  | cons n ns ih =>
    obtain ⟨hn, hnd⟩ := List.nodup_cons.mp hnd
    obtain ⟨a, b, hadd⟩ := Core.addCount_eq t.me n (localSum l n) tok
    have hnext : s.RaisesOnly (t.setCore s.curCore (t.me.addCount n (localSum l n) tok)) := h.setCore hs hadd
    have hme : (t.setCore s.curCore (t.me.addCount n (localSum l n) tok)).me = t.me.addCount n (localSum l n) tok := by
      obtain ⟨_, _, _, hm⟩ := h.mine
      rw [← hnext.core_curCore]
      exact State.core_setCore_busy t _ (by rw [Core.addCount_st, hm]; exact hs)
    rw [List.foldl_cons]
    simp only [h.core_curCore, if_pos (hfit n (List.mem_cons_self ..))]
    refine ih hnd hnext fun m hm => ?_
    rw [hme, Core.count_addCount_other _ _ _ (by rintro rfl; exact hn hm)]
    exact hfit m (List.mem_cons_of_mem _ hm)

/-- Signals that fit their counters raise no SIGOV (R77). -/
theorem State.applyRaises_fits (hs : s.me.st ≠ .idle) (l : List (Bool × Nat × Nat)) (st : Nat) (tok : Clk)
    (h : s.RaisesOnly t) (hfit : ∀ p ∈ l, p.1 = false → t.me.count p.2.1 + localSum l p.2.1 ≤ 65535) :
    ∃ u, t.applyRaises s.curCore st l tok = (u, false) ∧ s.RaisesOnly u := by
  obtain ⟨u, hfold, hu⟩ := State.foldl_addCount_fits hs l tok
    ((l.filterMap fun p => if p.1 then none else some p.2.1).eraseDups) (nodup_eraseDups _) h fun n hn => by
      obtain ⟨p, hp, hpn⟩ := List.mem_filterMap.mp (List.mem_eraseDups.mp hn)
      split at hpn
      · exact absurd hpn nofun
      next hloc =>
        obtain rfl := Option.some.inj hpn
        exact hfit p hp (Bool.eq_false_of_not_eq_true hloc)
  refine ⟨u.setCore s.curCore { u.me with flight := u.me.flight ++ (l.filterMap fun p =>
    if p.1 && p.2.2 ≠ 0 then some (p.2.1, p.2.2, st, tok) else none) }, ?_, hu.setCore hs rfl⟩
  simp only [State.applyRaises, hfold, hu.core_curCore]

theorem State.learnPopped_apart (s : State) (k : Nat) (st : Stream) : (s.learnPopped k st).apart = s.apart := by
  unfold State.learnPopped
  generalize ((s.core k).stream st).popped = l
  induction l generalizing s with
  | nil => rfl
  | cons p l ih => rw [List.foldl_cons, ih]; rfl

theorem State.RaisesOnly.learnPopped (s : State) (k : Nat) (st : Stream) : s.RaisesOnly (s.learnPopped k st) :=
  ⟨State.learnPopped_apart s k st, fun j _ => State.learnPopped_core s k st j,
    _, _, _, by rw [State.me, State.learnPopped_core, State.learnPopped_curCore]; rfl⟩

/-! ### Retirement -/

/-- What a word's retirement raises, learns and leaves, with G as the statements say it is raised. -/
theorem State.retire_eq (s : State) (i : Instr) (h : Hdr) (f : Fin) :
    s.retire i h f =
      (let r := (s.learnPopped s.curCore s.curStream).applyRaises s.curCore s.curStream.num
        (raises h f (s.raisesG i)) ((s.learnPopped s.curCore s.curStream).token s.agent)
      let u : State := { r.1 with seq := r.1.seq + 1 }
      let v := u.putAfter s.curCore ((u.core s.curCore).leave s.curStream (spanOf i) f.go)
      if r.2 then v.takeFault s.curCore (.ofStream s.curStream fcSIGOV 0 0) false else v) := by
  have hg : s.raisesG i = (match i with
    | .rpt .. => true
    | .ldq .. => false
    | _ => !(s.curStream = .v) || (s.core s.curCore).sV.lastRep) := by
    unfold State.raisesG
    rw [decide_not]
    rfl
  rw [hg]
  rfl

/-- A word whose signals fit puts the core that leaves it. -/
theorem State.retire_eq_putAfter (i : Instr) (h : Hdr) (f : Fin)
    (hraise : (s.learnPopped s.curCore s.curStream).applyRaises s.curCore s.curStream.num (raises h f (s.raisesG i))
      ((s.learnPopped s.curCore s.curStream).token s.agent) = (t, false)) :
    s.retire i h f = ({ t with seq := t.seq + 1 } : State).putAfter s.curCore
      ((t.core s.curCore).leave s.curStream (spanOf i) f.go) := by
  rw [State.retire_eq, hraise]
  exact if_neg Bool.false_ne_true

/-- What a taken transfer leaves of the core: only the sequencing of its stream, and what M's and C's words wait for. -/
theorem Core.apart_leave_jump (c : Core) (st : Stream) (n : Nat) (pc : Word) :
    (c.leave st n (.jump pc)).apart = c.apart := by
  unfold Core.leave
  rw [Core.apart_setStream]
  split_ifs <;> exact Core.apart_setStream ..

/-- The stream's state without what it held of the word it leaves. -/
def StreamSt.leaving (x : StreamSt) : StreamSt :=
  { x with issued := false, taken := none, popped := [], blocked := false, bwaitAt := none, waitOn := 0, code := [] }

theorem Core.stream_leave_jump (c : Core) (st : Stream) (n : Nat) (pc : Word) :
    (c.leave st n (.jump pc)).stream st = (c.stream st).leaving.transfer pc := Core.stream_setStream_self ..

theorem Core.nest_leave_jump (c : Core) (st : Stream) (n : Nat) (pc : Word) :
    (c.leave st n (.jump pc)).nest = c.nest := by
  unfold Core.leave
  rw [Core.setStream_nest]
  split_ifs <;> exact Core.setStream_nest ..

/-- The loop that stays innermost holds the target (R168). -/
theorem holds_head_leaveLoops (x : StreamSt) (pc : Word) (ls : List Level) :
    ∀ l ∈ (leaveLoops x pc ls).head?, l.holds x pc = true := by
  induction ls with
  | nil => exact fun l hl => absurd hl nofun
  | cons m ls ih =>
    unfold leaveLoops
    split
    next hm => intro l hl; obtain rfl := Option.some.inj hl; exact hm
    · exact ih

/-- A nest that goes on hands nothing to markers. -/
theorem State.putAfter_of_nest_eq {k : Nat} {c : Core} (h : c.nest = (s.core k).nest) :
    s.putAfter k c = s.setCore k c := by
  unfold State.putAfter
  rw [h]
  cases (s.core k).nest <;> rfl

/-- The signals of a word that fit its counters, in the statements' form. -/
theorem State.signalsFit_iff (h : Hdr) (l : List (Bool × Nat × Nat)) (g : Bool) :
    s.signalsFit h l g = true ↔ ∀ p ∈ raises h ⟨.fall, l⟩ g, p.1 = false →
      s.me.count p.2.1 + localSum (raises h ⟨.fall, l⟩ g) p.2.1 ≤ 65535 := by
  simp only [State.signalsFit, List.all_eq_true, Bool.or_eq_true, decide_eq_true_eq]
  refine forall₂_congr fun p _ => ?_
  cases p.1 <;> simp

/-- A taken transfer whose signals fit puts the core that leaves its word; of that core nothing but counts has changed
before. -/
theorem State.retire_jump (hs : s.me.st ≠ .idle) (i : Instr) (h : Hdr) (pc : Word)
    (hfit : s.signalsFit h [] (s.raisesG i) = true) : ∃ t, s.RaisesOnly t ∧
      s.retire i h ⟨.jump pc, []⟩ =
        ({ t with seq := t.seq + 1 } : State).setCore s.curCore (t.me.leave s.curStream (spanOf i) (.jump pc)) := by
  have hpop := State.RaisesOnly.learnPopped s s.curCore s.curStream
  have hpopme : (s.learnPopped s.curCore s.curStream).me = s.me := by
    rw [← hpop.core_curCore]
    exact State.learnPopped_core ..
  obtain ⟨t, hraise, ht⟩ := State.applyRaises_fits hs (raises h ⟨.jump pc, []⟩ (s.raisesG i)) s.curStream.num
    ((s.learnPopped s.curCore s.curStream).token s.agent) hpop (by rw [hpopme]; exact (State.signalsFit_iff ..).mp hfit)
  refine ⟨t, ht, ?_⟩
  rw [State.retire_eq_putAfter i h _ hraise, ht.core_curCore]
  refine State.putAfter_of_nest_eq ?_
  rw [Core.nest_leave_jump]
  exact congrArg Core.nest ht.core_curCore.symm

end

theorem takenTransferSetsPc : TakenTransferSetsPc := by
  intro s i h pc hrun hfit
  have hs : s.me.st ≠ .idle := by rw [hrun]; decide
  obtain ⟨t, ⟨hp, ho, a, b, fl, hm⟩, hret⟩ := State.retire_jump hs i h pc hfit
  have ht : t.me.st ≠ .idle := by rw [hm]; exact hs
  have hleft : (t.me.leave s.curStream (spanOf i) (.jump pc)).st ≠ .idle := by rwa [Core.leave_st]
  let u : State :=
    ({ t with seq := t.seq + 1 } : State).setCore s.curCore (t.me.leave s.curStream (spanOf i) (.jump pc))
  have hcur : u.curCore = s.curCore := State.curCore_of_apart_eq hp
  have hst : u.curStream = s.curStream := State.curStream_of_apart_eq hp
  have hme : u.me = t.me.leave s.curStream (spanOf i) (.jump pc) := by
    rw [State.me, hcur]
    exact State.core_setCore_busy _ _ hleft
  have hstrm : u.strm = s.strm.leaving.transfer pc := by
    have hsame : t.me.stream s.curStream = s.strm := by
      rw [hm, State.strm]
      cases s.curStream <;> rfl
    rw [State.strm, hst, hme, Core.stream_leave_jump, hsame]
  rw [hret]
  refine ⟨⟨hp, fun j hj => ?_, ?_⟩, ?_, ?_, ?_⟩
  · exact (State.core_setCore_other _ _ hj).trans (ho j hj)
  · show u.me.apart = s.me.apart
    rw [hme, Core.apart_leave_jump, hm]
    rfl
  · show u.strm.pc = pc
    rw [hstrm]
    rfl
  · show ∀ l ∈ u.strm.seqr.head?, l.holds u.strm pc = true
    rw [hstrm]
    exact holds_head_leaveLoops _ pc s.strm.seqr
  · intro hnone
    show u.strm.seqr = []
    rw [hstrm]
    show leaveLoops _ pc s.strm.seqr = []
    rw [hnone]
    rfl

/-! ### The words -/

theorem sx_eq_sfield (w n : Nat) : sx (w + 1) n = sfield (w + 1) n := (toInt_ofNat_eq_sx w n).symm

theorem brTaken_iff (k : BrCond) (x : Word) : brTaken k x = true ↔ branchHolds k x := by
  have hlow : x.getLsbD 0 = decide (x.toNat % 2 = 1) := by rw [BitVec.getLsbD, Nat.testBit_zero]
  cases k with
  | z => exact beq_iff_eq
  | nz => exact bne_iff_ne
  | lt | ge | gt | le => exact decide_eq_true_iff
  | odd => rw [brTaken, hlow]; exact decide_eq_true_iff
  | even => rw [brTaken, hlow, Bool.not_eq_true', decide_eq_false_iff_not, branchHolds]; omega
  | al => exact iff_of_true rfl trivial

section
variable {s : State} {i : Instr} {h : Hdr}

theorem relTarget_run (w off : Nat) (s : State) :
    (relTarget (w + 1) off).run s = .ok (s.strm.plus s.strm.pc (8 * sfield (w + 1) off), s) := by
  rw [← sx_eq_sfield]
  rfl

theorem jumpTo_run (a off : Nat) (s : State) : (jumpTo a off).run s =
    if (s.sreg a).toNat % 8 = 0 then .ok (⟨.jump (s.strm.plus (s.sreg a) (8 * sfield 20 off)), []⟩, s)
    else .error (.fault (.ofStream s.curStream fcALIGN (s.sreg a) 0)) := by
  rw [jumpTo, Op.run_bind_ok (rdS_run a s), ← sx_eq_sfield]
  split_ifs with hal
  · rw [Op.run_bind_ok ((guardAddr_run ..).trans (if_pos (decide_eq_true hal)))]
    rfl
  · rw [Op.run_bind_error ((guardAddr_run ..).trans (if_neg (by simpa using hal))), BitVec.ofNat_toNat,
      BitVec.setWidth_eq]

theorem runWord_jumpTo_aligned {a off : Nat} (hr : s.ready i h = true) (hal : (s.sreg a).toNat % 8 = 0) :
    runWord i h (jumpTo a off) s = .next ((s.waited i h).retire i h
      ⟨.jump (s.strm.plus (s.sreg a) (8 * sfield 20 off)), []⟩) := by
  have hs := State.ready_busy hr
  refine runWord_ready hr ?_
  rw [jumpTo_run, State.waited_sreg hs, State.waited_plus hs, if_pos hal]

theorem runWord_jumpTo_misaligned {a off : Nat} (hr : s.ready i h = true) (hal : (s.sreg a).toNat % 8 ≠ 0) :
    runWord i h (jumpTo a off) s =
      .next ((s.waited i h).takeFault s.curCore (.ofStream s.curStream 0x05 (s.sreg a) 0) false) := by
  refine runWord_fault_ofStream hr ?_ (deferrable_ofStream (by decide) (by decide) ..)
  rw [jumpTo_run, State.waited_sreg (State.ready_busy hr), if_neg hal, State.waited_curStream]
  rfl

end

theorem branchFollowsItsCondition : BranchFollowsItsCondition := by
  intro s h k c off hr
  have hs := State.ready_busy hr
  have hrun : ∀ f : Fin,
      (if brTaken k (s.sreg c) then ⟨.jump (s.strm.plus s.strm.pc (8 * sfield 28 off)), []⟩ else fall) = f →
      exec (.br h k c off) s = .next ((s.waited (.br h k c off) h).retire (.br h k c off) h f) := by
    intro f hf
    refine runWord_ready hr ?_
    rw [Op.run_bind_ok (rdS_run c _), Op.run_bind_ok (relTarget_run 27 off _), State.waited_sreg hs,
      State.waited_pc hs, State.waited_plus hs, ← hf]
    rfl
  exact ⟨fun ht => hrun _ (if_pos ((brTaken_iff ..).mpr ht)),
    fun hn => hrun _ (if_neg fun ht => hn ((brTaken_iff ..).mp ht))⟩

theorem jumpCallAndReturnTargets : JumpCallAndReturnTargets := by
  refine fun s h => ⟨fun a off hr => ⟨runWord_jumpTo_aligned hr, runWord_jumpTo_misaligned hr⟩,
    fun a hr => ⟨runWord_jumpTo_aligned hr, runWord_jumpTo_misaligned hr⟩, fun c off hr => ?_⟩
  have hs := State.ready_busy hr
  refine runWord_ready hr ?_
  rw [Op.run_bind_ok rfl, Op.run_bind_ok (relTarget_run 27 off _), State.waited_pc hs, State.waited_plus hs]
  refine (Op.run_bind_ok (wrS_run ..)).trans ?_
  rw [← State.waited_pc hs]
  rfl

/-- Settles O4: a taken transfer changes, besides counts, only the sequencing of its stream, and each word's target is
the one given. -/
theorem transfersGoToTheirTargets : Obligations.TransfersGoToTheirTargets :=
  ⟨takenTransferSetsPc, branchFollowsItsCondition, jumpCallAndReturnTargets⟩

end Sys2Proof.Machine
end
section

/-!
Translated accesses that two TLB entries split (O12, O13): each half of a 16-byte access with unit 8 is translated by
itself, and the TLB of the statements may hold entries of any size.
-/

namespace Sys2Proof.Machine

/-! ### What a word's end keeps -/

section
variable {s : State} {i : Instr} {h : Hdr}

theorem State.apart_setCore (s : State) (k : Nat) (c : Core) : (s.setCore k c).apart = s.apart := rfl

theorem State.apart_putAfter (s : State) (k : Nat) (c : Core) : (s.putAfter k c).apart = s.apart := by
  unfold State.putAfter State.nestEnded
  extract_lets
  split
  · exact (State.apart_setCore ..).trans (State.apart_setCore ..)
  · exact State.apart_setCore ..

theorem State.mem_of_apart_eq {t : State} (h : t.apart = s.apart) : t.mem = s.mem :=
  (congrArg State.mem h : t.apart.mem = s.apart.mem)

theorem Core.nestStep_regC (c : Core) : c.nestStep.regC = c.regC := by
  unfold Core.nestStep
  split <;> [rfl; (split <;> rfl)]

/-- Falling through keeps C's registers. -/
theorem Core.regC_leave_fall (c : Core) (n : Nat) : (c.leave .c n fall.go).regC = c.regC := rfl

theorem State.regC_putAfter (s : State) (k : Nat) {c : Core} (hc : c.st ≠ .idle) :
    ((s.putAfter k c).core k).regC = c.regC := by
  have hput : (s.setCore k c).core k = c := State.core_setCore_busy s k hc
  simp only [State.putAfter]
  split
  · rw [State.nestEnded, State.core_setCore_busy _ k (by rw [hput]; exact hc), hput]
  · rw [hput]

/-- A word that raises nothing and falls through puts the core that leaves it. -/
theorem State.retire_fall_eq (hs : s.me.st ≠ .idle) (hg : h.g = 0) : ∃ t, s.RaisesOnly t ∧ s.retire i h fall =
    ({ t with seq := t.seq + 1 } : State).putAfter s.curCore (t.me.leave s.curStream (spanOf i) fall.go) := by
  have hraise : raises h fall (s.raisesG i) = [] := by simp [raises, hg, fall]
  obtain ⟨t, ht, hraised⟩ := State.applyRaises_fits hs [] s.curStream.num
    ((s.learnPopped s.curCore s.curStream).token s.agent) (State.RaisesOnly.learnPopped s s.curCore s.curStream)
    fun p hp => absurd hp nofun
  refine ⟨t, hraised, ?_⟩
  rw [State.retire_eq_putAfter i h fall (by rw [hraise]; exact ht), hraised.core_curCore]

theorem State.mem_retire_fall (hs : s.me.st ≠ .idle) (hg : h.g = 0) : (s.retire i h fall).mem = s.mem := by
  obtain ⟨t, ht, hret⟩ := State.retire_fall_eq (i := i) hs hg
  rw [hret]
  exact (State.mem_of_apart_eq (State.apart_putAfter ..)).trans (State.mem_of_apart_eq ht.package)

theorem State.regC_retire_fall (hs : s.me.st ≠ .idle) (hg : h.g = 0) (hst : s.curStream = .c) :
    ((s.retire i h fall).core s.curCore).regC = s.me.regC := by
  obtain ⟨t, ⟨-, -, a, b, l, hm⟩, hret⟩ := State.retire_fall_eq (i := i) hs hg
  rw [hret, hst, State.regC_putAfter _ _ (by rw [Core.leave_st, hm]; exact hs), Core.regC_leave_fall, hm]

end

/-! ### A page of eight bytes -/

/-- Two eight-byte pages in a row that C's TLB maps to frames apart; S4 holds the first one's address, S3 is 1, and so
is the first byte of the second one's frame. -/
def splitPage : State :=
  { State.reset with
    mem := [(0x10000001000, 1)]
    cores := [(0, { Core.reset with
      st := .running, sup := true, sec := true, cr := [(0x51, 0xFFFF)], regC := [(3, 1), (4, 0x411000)]
      tlb := [(0, [codePage 0x411000 8 0x10000000000, codePage 0x411008 8 0x10000001000])]
      sC := { StreamSt.reset with started := true } })] }

theorem splitPage_opens : splitPage.opens true true 0x10000000000 16 :=
  ⟨.inl (by decide), .inl (by decide), by decide, fun i _ => rfl⟩

theorem splitPage_translates : splitPage.translates (splitPage.eaddr 4 14 0) 16 := by
  unfold State.translates
  decide

theorem splitPage_tlbHit :
    splitPage.tlbHit (splitPage.eaddr 4 14 0) = some (codePage 0x411000 8 0x10000000000) := by decide

/-- `j0? ld.x128.a8 s2, [s4]`. -/
def splitLoad : Instr := .ld ⟨0, 0, .always⟩ .x128 .a8 2 4 0

/-- `j0? st.b128.a8 s2, [s4]`. -/
def splitStore : Instr := .st ⟨0, 0, .always⟩ .b128 .a8 2 4 0

/-- The load gives S3 the first byte of the second page's frame. -/
theorem splitLoad_reads_one : (coreAfter (exec splitLoad splitPage)).regC = [(3, 1), (4, 0x411000)] := by decide +kernel

/-- Memory after a step, or none where there is none. -/
def memoryAfter (o : Res) : List Host.Cell :=
  match o with
  | .next t => t.mem
  | _ => []

/-- The store writes S3 to the second page's frame. -/
theorem splitStore_writes_one : (memoryAfter (exec splitStore splitPage)) = [(0x10000001000, 1)] := by decide +kernel

theorem not_translatedLoadsReadTheFrame : ¬ TranslatedLoadsReadTheFrame := by
  intro hall
  obtain ⟨htlb, -⟩ := (hall splitPage ⟨0, 0, .always⟩ .x128 .a8 2 4 0 (by decide) (.inr (by decide))).1
    splitPage_translates
  obtain ⟨t, ⟨hexec, ⟨hpackage, -, hmine⟩⟩, -, -⟩ := (htlb _ splitPage_tlbHit).1 rfl splitPage_opens
  have hcur : t.curCore = 0 := State.curCore_of_apart_eq hpackage
  have hbusy : t.me.st ≠ .idle := by
    rw [show t.me.st = .running from congrArg Core.st hmine]
    nofun
  have hreg := State.regC_retire_fall (i := splitLoad) (h := ⟨0, 0, .always⟩) hbusy rfl
    (State.curStream_of_apart_eq hpackage)
  rw [hcur] at hreg
  have hclaim : t.me.regC =
      (ldRegs splitPage.me splitPage.curStream .x128 2 (leNat (splitPage.peek 0x10000000000 16))).regC :=
    (congrArg Core.regC hmine : t.me.apart.regC = _)
  have hone := splitLoad_reads_one
  rw [show exec splitLoad splitPage = _ from hexec] at hone
  exact absurd ((hone.symm.trans hreg).trans hclaim) (by decide)

/-- Refutes O12: a 16-byte LD of `.a8` translates each half by itself, so where the TLB's entries are smaller than the
access the second half comes from another frame than the statement's. -/
theorem not_loadsReadMemory : ¬ Obligations.LoadsReadMemory := by
  rintro ⟨-, h, -⟩
  exact not_translatedLoadsReadTheFrame h

theorem not_translatedStoresWriteTheFrame : ¬ TranslatedStoresWriteTheFrame := by
  intro hall
  obtain ⟨htlb, -⟩ := hall splitPage ⟨0, 0, .always⟩ .b128 .a8 2 4 0 (by decide) (.inr (by decide)) splitPage_translates
    (by decide) (by show _ = _; decide)
  obtain ⟨t, ⟨hexec, hpeek, hmine, -⟩, -⟩ := htlb _ splitPage_tlbHit rfl rfl splitPage_opens
  have hbusy : t.me.st ≠ .idle := by
    rw [show t.me.st = .running from congrArg Core.st hmine]
    nofun
  have hmem : (t.retire splitStore ⟨0, 0, .always⟩ fall).mem = t.mem := State.mem_retire_fall hbusy rfl
  have hclaim : t.memByte 0x10000000008 = 1 := congrArg (List.getD · 8 0) hpeek
  have hone := splitStore_writes_one
  rw [show exec splitStore splitPage = _ from hexec] at hone
  rw [State.memByte, hmem.symm.trans hone] at hclaim
  exact absurd hclaim (by decide)

/-- Refutes O13: a 16-byte ST of `.a8` translates each half by itself, so where the TLB's entries are smaller than the
access the second half goes to another frame than the statement's. -/
theorem not_storesWriteOnlyTheirBytes : ¬ Obligations.StoresWriteOnlyTheirBytes := by
  rintro ⟨-, h, -⟩
  exact not_translatedStoresWriteTheFrame h

end Sys2Proof.Machine
end
section

/-!
Misaligned accesses and stores to GO (O14): the checks of LD and ST come before their effects, and a GO whose words are
well formed runs through its own checks to the one queue entry it writes.
-/

namespace Sys2Proof.Machine

/-! ### The checks of an access -/

section
variable {s : State} {h : Hdr} {at_ : At} {d a off : Nat}

/-- The address of LD and ST in the statements' form. -/
theorem toNat_addOff_eq_eaddr (s : State) (a off : Nat) : (addOff (s.sreg a) 14 off).toNat = s.eaddr a 14 off := by
  rw [addOff_eq]
  rfl

/-- An access is aligned for its unit, and where it touches the port window it is one of 8 bytes at a multiple of 8. -/
def accessAligned (at_ : At) (whole : Bool) (va len : Nat) : Prop :=
  (atUnit at_ = 0 ∨ va % atUnit at_ = 0) ∧ (touchesWindow va len = true → whole = true ∧ va % 8 = 0)

/-- The checks that LD and ST make first fault where the access is not aligned, whatever would come after them. -/
theorem guards_run_misaligned {at_ : At} {whole : Bool} {va len : Nat} {x y : Op Unit} (s : State)
    (hmis : ¬ accessAligned at_ whole va len) :
    (do guardAddr (atUnit at_ = 0 || va % atUnit at_ = 0) fcALIGN va
        if touchesWindow va len then
          guardAddr (whole && va % 8 == 0) fcALIGN va
          x
        else y : Op Unit).run s = .error (.fault (.ofStream s.curStream fcALIGN (BitVec.ofNat 64 va) 0)) := by
  by_cases hunit : atUnit at_ = 0 ∨ va % atUnit at_ = 0
  · have hwindow : touchesWindow va len = true ∧ ¬ (whole = true ∧ va % 8 = 0) := by
      by_contra hcon
      exact hmis ⟨hunit, fun ht => by_contra fun hw => hcon ⟨ht, hw⟩⟩
    rw [Op.run_bind_ok ((guardAddr_run ..).trans (if_pos (by simpa using hunit))), if_pos hwindow.1]
    exact Op.run_bind_error ((guardAddr_run ..).trans (if_neg (by simpa using hwindow.2)))
  · exact Op.run_bind_error ((guardAddr_run ..).trans (if_neg (by simpa using hunit)))

theorem not_accessAligned {at_ : At} {whole : Bool} {va len : Nat}
    (hmis : ¬ (atUnit at_ = 0 ∨ va % atUnit at_ = 0) ∨
      (va < 0x410000 ∧ 0x400000 < va + len ∧ ¬ (whole = true ∧ va % 8 = 0))) : ¬ accessAligned at_ whole va len := by
  rintro ⟨hunit, hwindow⟩
  rcases hmis with hmis | ⟨hhi, hlo, hmis⟩
  · exact hmis hunit
  · exact hmis (hwindow (by simp [touchesWindow, hhi, hlo]))

theorem ldOp_run_misaligned {k : LdKind} (s : State)
    (hmis : ¬ accessAligned at_ (k == .x64) (s.eaddr a 14 off) (ldLen k)) : (ldOp k at_ d a off).run s =
      .error (.fault (.ofStream s.curStream fcALIGN (BitVec.ofNat 64 (s.eaddr a 14 off)) 0)) := by
  rw [ldOp, Op.run_bind_ok (rdS_run a s), toNat_addOff_eq_eaddr]
  exact guards_run_misaligned s hmis

theorem stOp_run_misaligned {k : StKind} (s : State)
    (hmis : ¬ accessAligned at_ (k == .b64) (s.eaddr a 14 off) (stLen k)) : (stOp k at_ d a off).run s =
      .error (.fault (.ofStream s.curStream fcALIGN (BitVec.ofNat 64 (s.eaddr a 14 off)) 0)) := by
  rw [stOp, Op.run_bind_ok (rdS_run a s), toNat_addOff_eq_eaddr]
  exact guards_run_misaligned s hmis

theorem State.waited_eaddr {i : Instr} (hs : s.me.st ≠ .idle) (a w off : Nat) :
    (s.waited i h).eaddr a w off = s.eaddr a w off := by
  rw [State.eaddr, State.waited_sreg hs, State.eaddr]

end

theorem misalignedAccessFaults : MisalignedAccessFaults := by
  refine fun s h at_ d a off => ⟨fun k hr hmis => ?_, fun k hr hmis => ?_⟩
  · have haddr := State.waited_eaddr (i := .ld h k at_ d a off) (h := h) (State.ready_busy hr) a 14 off
    refine runOp_fault_ofStream hr ?_ (deferrable_ofStream (by decide) (by decide) ..)
    rw [ldOp_run_misaligned _ (by rw [haddr]; exact not_accessAligned (by simpa using hmis)), haddr,
      State.waited_curStream]
    rfl
  · have haddr := State.waited_eaddr (i := .st h k at_ d a off) (h := h) (State.ready_busy hr) a 14 off
    refine runOp_fault_ofStream hr ?_ (deferrable_ofStream (by decide) (by decide) ..)
    rw [stOp_run_misaligned _ (by rw [haddr]; exact not_accessAligned (by simpa using hmis)), haddr,
      State.waited_curStream]
    rfl

/-! ### Operations that only draw -/

/-- The operation ends in a state that is the one before but for the number of free draws. -/
def Op.OnlyDraws {α : Type} (x : Op α) : Prop := ∀ s : State, ∃ a n, x.run s = .ok (a, { s with draws := n })

section
variable {α β : Type}

theorem Op.OnlyDraws.pure (a : α) : Op.OnlyDraws (pure a : Op α) := fun s => ⟨a, s.draws, rfl⟩

theorem Op.OnlyDraws.get : Op.OnlyDraws (get : Op State) := fun s => ⟨s, s.draws, rfl⟩

theorem Op.OnlyDraws.bind {x : Op α} {f : α → Op β} (hx : x.OnlyDraws) (hf : ∀ a, (f a).OnlyDraws) :
    (x >>= f).OnlyDraws := by
  intro s
  obtain ⟨a, n, hrun⟩ := hx s
  obtain ⟨b, m, hnext⟩ := hf a { s with draws := n }
  exact ⟨b, m, (Op.run_bind_ok hrun).trans hnext⟩

theorem Op.OnlyDraws.mapM {f : α → Op β} (hf : ∀ a, (f a).OnlyDraws) (l : List α) : (l.mapM f).OnlyDraws := by
  induction l with
  | nil => exact .pure _
  | cons a l ih =>
    rw [List.mapM_cons]
    exact (hf a).bind fun b => ih.bind fun bs => .pure _

theorem onlyDraws_draw (n : Nat) : (draw n).OnlyDraws := fun s => ⟨_, _, draw_run n s⟩

theorem onlyDraws_pickSeen (clk : Clk) (agent cur : Nat) (h : RegHist) : (pickSeen clk agent cur h).OnlyDraws := by
  unfold pickSeen
  extract_lets l
  split
  · exact .pure _
  · exact (onlyDraws_draw _).bind fun i => .pure _

theorem onlyDraws_rdWeakAs (k a key cur : Nat) : (rdWeakAs k a key cur).OnlyDraws := by
  refine Op.OnlyDraws.get.bind fun s => ?_
  split
  · exact .pure _
  · exact onlyDraws_pickSeen _ _ _ _

/-- What an access sees of registers that are open to it is free, and nothing else changes. -/
theorem onlyDraws_weak (a : Acc) (k : Nat) : (a.weak k).OnlyDraws := by
  refine Op.OnlyDraws.get.bind fun s => ?_
  extract_lets c
  split
  · exact .pure _
  · exact (Op.OnlyDraws.mapM (fun n => (onlyDraws_rdWeakAs _ _ _ _).bind fun v => .pure _) _).bind fun regs => .pure _

end

/-! ### GO -/

theorem Core.setReplay_keeps (c : Core) (st : Stream) (r : Option Replay) :
    ∃ x y, c.setReplay st r = { c with replayC := x, replayA := y } := by
  cases st <;> exact ⟨_, _, rfl⟩

/-- The note of a GO for a later replay changes nothing else of the core. -/
theorem Core.note_keeps (c before : Core) (st : Stream) (id : Nat) :
    ∃ x y, c.note before st id = { c with replayC := x, replayA := y } := by
  unfold Core.note Core.note.fresh
  split
  · exact ⟨_, _, rfl⟩
  split
  · split
    · exact Core.setReplay_keeps ..
    · split <;> exact Core.setReplay_keeps ..
  · exact Core.setReplay_keeps ..

section
variable {w : State} {e : Nat}

/-- The command that a GO of engine e places. -/
def State.goCommand (w : State) (e : Nat) : Cmd :=
  w.me.goCmd w.curCore w.curStream e (w.cmdId + 1) (w.token w.agent)

/-- Neither a copy nor an index command of a GO declares a buffer (R251). -/
def State.declaresNothing (w : State) (e : Nat) : Prop :=
  (e = 0 → (w.goCommand e).w3.getLsbD 58 = false) ∧ (e = 1 → (w.goCommand e).w3.getLsbD 61 = false)

theorem declared_goCommand_run (hdty : w.declaresNothing e) (a : Acc) (s : State) :
    (declared a (w.goCommand e)).run s = .ok ([], s) := by
  obtain ⟨h0, h1⟩ := hdty
  match e with
  | 0 =>
    have hbit := h0 rfl
    simp only [declared, show (w.goCommand 0).eng = 0 from rfl, hbit]
    rfl
  | 1 =>
    have hbit := h1 rfl
    simp only [declared, show (w.goCommand 1).eng = 1 from rfl, hbit]
    rfl
  | e + 2 => rfl

theorem specGo_run_free (a : Acc) (m : Cmd) {s : State} (hiter : (s.core m.core).inIter = false) :
    (specGo a m).run s = .ok ((), s) := by
  refine (Op.run_bind_ok (Op.run_get s)).trans ?_
  rw [hiter]
  rfl

/-- The first steps of a GO form its command (R240 step 1). -/
theorem goOp_run_eq (w : State) (e : Nat) : (goOp e).run w = (do
    guardFault (w.goCommand e).wordsOk fcENGCMD
    let a ← (goAcc w.me w.curCore w.curStream (w.goCommand e)).weak w.curCore
    specGo a (w.goCommand e)
    let s ← get
    guardBlock (s.cmdFill w.curCore e < cmdDepth)
    let bar ← match (w.goCommand e).barVa with
      | some va => do
        let b ← barrierNow a va
        pure (some b)
      | none => pure none
    let l ← declared a (w.goCommand e)
    markDirty a l
    drainOwn (2 ^ enginePath e)
    modify fun s => s.learn (cmdAgent (w.cmdId + 1)) (w.token w.agent)
    modHere fun c =>
      (c.setEqueue e (c.equeue e ++ [{ w.goCommand e with bar := bar }])).note w.me w.curStream (w.cmdId + 1)
      : Op Unit).run { w with cmdId := w.cmdId + 1 } := rfl

theorem goOp_run_malformed (hwords : (w.goCommand e).wordsOk = false) :
    (goOp e).run w = .error (.fault (.ofStream w.curStream fcENGCMD 0 0)) := by
  rw [goOp_run_eq]
  exact Op.run_bind_error (by rw [guardFault_run, hwords]; rfl)

theorem goOp_run (hs : w.me.st ≠ .idle) (hwords : (w.goCommand e).wordsOk = true) (hiter : w.me.inIter = false)
    (hbar : (w.goCommand e).barVa = none) (hdty : w.declaresNothing e) (hroom : w.cmdFill w.curCore e < 16) :
    ∃ t, (goOp e).run w = .ok ((), t) ∧ t.me.equeue e = w.me.equeue e ++ [w.goCommand e] ∧ t.mem = w.mem ∧
      ∀ r, t.sreg r = w.sreg r := by
  obtain ⟨a, n, hweak⟩ := onlyDraws_weak (goAcc w.me w.curCore w.curStream (w.goCommand e)) w.curCore
    { w with cmdId := w.cmdId + 1 }
  let u : State := (({ w with cmdId := w.cmdId + 1, draws := n } : State).performOwn w.agent (2 ^ enginePath e)).learn
    (cmdAgent (w.cmdId + 1)) (w.token w.agent)
  obtain ⟨x, y, hnote⟩ := Core.note_keeps (w.me.setEqueue e (w.me.equeue e ++ [w.goCommand e])) w.me w.curStream
    (w.cmdId + 1)
  let c : Core := { w.me.setEqueue e (w.me.equeue e ++ [w.goCommand e]) with replayC := x, replayA := y }
  have hfill : ({ w with cmdId := w.cmdId + 1, draws := n } : State).cmdFill w.curCore e < cmdDepth := hroom
  have hme : (u.withMe c).me = c := State.me_withMe u hs
  refine ⟨u.withMe c, ?_, ?_, rfl, fun r => ?_⟩
  · rw [goOp_run_eq, Op.run_bind_ok ((guardFault_run ..).trans (if_pos hwords)), Op.run_bind_ok hweak,
      Op.run_bind_ok (specGo_run_free a (w.goCommand e) (s := { w with cmdId := w.cmdId + 1, draws := n }) hiter),
      Op.run_bind_ok (Op.run_get _), Op.run_bind_ok ((guardBlock_run ..).trans (if_pos (decide_eq_true hfill))), hbar]
    refine (Op.run_bind_ok (Op.run_pure ..)).trans ((Op.run_bind_ok (declared_goCommand_run hdty ..)).trans ?_)
    exact congrArg (fun c => Except.ok ((), u.withMe c)) hnote
  · rw [hme]
    exact SMap.get_set_ne _ _ (by simp)
  · rw [State.sreg, hme]
    rfl

end

theorem mmioAt_go {e : Nat} (he : e < 5) : mmioAt (0x400000 + 64 * e + 32) = .go e := by
  interval_cases e <;> rfl

/-- A 64-bit store to GO. -/
theorem stOp_run_go {s : State} {d a off e : Nat} (hva : s.eaddr a 14 off = 0x400000 + 64 * e + 32) (he : e < 5) :
    (stOp .b64 .dflt d a off).run s = (goOp e).run s := by
  rw [stOp, Op.run_bind_ok (rdS_run a s), toNat_addOff_eq_eaddr, hva]
  refine (Op.run_bind_ok ((guardAddr_run ..).trans (if_pos rfl))).trans ?_
  have hwindow : touchesWindow (0x400000 + 64 * e + 32) (stLen .b64) = true := by
    rw [touchesWindow, Bool.and_eq_true, decide_eq_true_eq, decide_eq_true_eq]
    omega
  have hal : (StKind.b64 == .b64 && (0x400000 + 64 * e + 32) % 8 == 0) = true :=
    Bool.and_eq_true_iff.mpr ⟨rfl, beq_iff_eq.mpr (by omega)⟩
  rw [if_pos hwindow, Op.run_bind_ok ((guardAddr_run ..).trans (if_pos hal)), mmioAt_go he]

section
variable {s : State} {i : Instr} {h : Hdr}

theorem State.waited_cmdId : (s.waited i h).cmdId = s.cmdId :=
  State.waited_pack State.cmdId (fun _ _ => rfl) fun _ _ _ => rfl

variable (hs : s.me.st ≠ .idle)
include hs

theorem State.waited_inIter_false (hiter : s.me.inIter = false) : (s.waited i h).me.inIter = false := by
  rw [State.waited_inIter hs, hiter]

theorem State.waited_staging : (s.waited i h).me.staging = s.me.staging :=
  State.waited_field hs Core.staging fun _ => rfl

/-- The queues that a GO fills take no part in a wait. -/
theorem State.waited_equeue {e : Nat} (he : e < 5) : (s.waited i h).me.equeue e = s.me.equeue e :=
  State.waited_field hs (Core.equeue · e) fun c => SMap.get_set_other _ _ _ (by omega)

theorem State.waited_cmdFill {e : Nat} (he : e < 5) :
    (s.waited i h).cmdFill s.curCore e = s.cmdFill s.curCore e := by
  have hcore : (s.waited i h).core s.curCore = (s.waited i h).me := by rw [State.me, State.waited_curCore]
  have hrun : (s.waited i h).me.runOf e = s.me.runOf e := State.waited_field hs (Core.runOf · e) fun _ => rfl
  have hsel : (s.waited i h).sel = s.sel := State.waited_pack State.sel (fun _ _ => rfl) fun _ _ _ => rfl
  have hred : (s.waited i h).red = s.red := State.waited_pack State.red (fun _ _ => rfl) fun _ _ _ => rfl
  have hme : s.core s.curCore = s.me := rfl
  simp only [State.cmdFill, State.started, State.nearRun, hcore, hme, hrun, hsel, hred, State.waited_equeue hs he]

end

theorem storeToGoPlacesTheCommand : StoreToGoPlacesTheCommand := by
  intro s h d a off e hr hva he hiter w m
  have hs := State.ready_busy hr
  have hw : w.me.st ≠ .idle := by rwa [State.waited_st hs]
  have hcore : w.curCore = s.curCore := State.waited_curCore
  have hstream : w.curStream = s.curStream := State.waited_curStream
  have hrun : (stOp .b64 .dflt d a off).run w = (goOp e).run w := stOp_run_go ((State.waited_eaddr hs ..).trans hva) he
  have hm : w.goCommand e = m := by
    show w.me.goCmd w.curCore w.curStream e (w.cmdId + 1) (w.token w.agent) = _
    rw [hcore, hstream, show w.cmdId = s.cmdId from State.waited_cmdId, show w.agent = s.agent from State.waited_agent]
  refine ⟨fun hwords hbar h0 h1 hroom => ?_, fun hwords => ?_⟩
  · obtain ⟨t, hgo, hqueue, hmem, hreg⟩ := goOp_run hw (by rwa [hm]) (State.waited_inIter_false hs hiter) (by rwa [hm])
      ⟨fun h => by rw [hm]; exact h0 h, fun h => by rw [hm]; exact h1 h⟩
      (by rw [hcore]; rwa [State.waited_cmdFill hs he])
    refine ⟨t, runOp_ready hr (hrun.trans hgo), ?_, hmem.trans State.waited_mem, fun r => ?_, fun n hn => ?_⟩
    · rw [hqueue, hm, State.waited_equeue hs he]
    · rw [hreg, State.waited_sreg hs]
    · rw [← State.waited_staging (i := .st h .b64 .dflt d a off) (h := h) hs]
      interval_cases n <;> rfl
  · refine runOp_fault_ofStream hr (hrun.trans ?_) (deferrable_ofStream (by decide) (by decide) ..)
    rw [goOp_run_malformed (by rwa [hm]), hstream]
    rfl

/-- Settles O14: both accesses check before they act, and a GO that passes its checks ends in one write of its engine's
queue. -/
theorem portStoresAndMisalignedAccesses : Obligations.PortStoresAndMisalignedAccesses :=
  ⟨misalignedAccessFaults, storeToGoPlacesTheCommand⟩

end Sys2Proof.Machine
end
section

/-!
Register writes of a core (O51): an event runs CWR or a store to the port window as C of its core, and changes that
core's field and no more.
-/

namespace Sys2Proof.Machine

/-- t is s with core k as c, the numbers of events and what the agents know apart. -/
structure State.CoreBecomes (s t : State) (k : Nat) (c : Core) : Prop where
  package : t.apart = s.apart
  others : ∀ j, j ≠ k → t.core j = s.core j
  mine : t.core k = c
  rising : SMap.rising 0 t.cores = true

section
variable {s t : State} {k : Nat} {c : Core}

theorem State.CoreBecomes.refl (hr : SMap.rising 0 s.cores = true) : s.CoreBecomes s k (s.core k) :=
  ⟨rfl, fun _ _ => rfl, rfl, hr⟩

theorem State.CoreBecomes.setCore (h : s.CoreBecomes t k c) (c' : Core) : s.CoreBecomes (t.setCore k c') k c' :=
  ⟨h.package, fun j hj => (State.core_setCore_other t c' hj).trans (h.others j hj),
    SMap.get_set_self _ _ _ _ h.rising, SMap.rising_set _ _ _ h.rising⟩

theorem noteOld_becomes (key old new : Nat) (hr : SMap.rising 0 s.cores = true) :
    ∃ t h, (noteOld key old new).run s = .ok ((), t) ∧ s.CoreBecomes t s.curCore { s.me with rhist := h } := by
  unfold noteOld
  split_ifs
  · exact ⟨s, _, rfl, .refl hr⟩
  · have hnumber : s.CoreBecomes { s with seq := s.seq + 1 } s.curCore s.me := ⟨rfl, fun _ _ => rfl, rfl, hr⟩
    exact ⟨_, _, rfl, hnumber.setCore _⟩

/-! ### A register event -/

/-- The state in which a register event of core k runs. -/
def State.asC (s : State) (k : Nat) : State := { s with curCore := k, curStream := .c }

/-- A core with the registers and the streams of another. -/
structure Core.SameRegs (c d : Core) : Prop where
  sreg : ∀ st r, d.sreg st r = c.sreg st r
  st : d.st = c.st
  sC : d.sC = c.sC
  sA : d.sA = c.sA
  sV : d.sV = c.sV
  sM : d.sM = c.sM

theorem State.asCore_keepsRegs {op : Op Unit} (hop : ∃ t, op.run (s.asC k) = .ok ((), t) ∧ (s.asC k).CoreBecomes t k c)
    (hc : (s.core k).SameRegs c) : s.onlyRegsOf (s.asCore k op) k ∧ (s.asCore k op).core k = c := by
  obtain ⟨t, hrun, hbecomes⟩ := hop
  have has : s.asCore k op = { t with curCore := s.curCore, curStream := s.curStream } := by
    have hrun' : op.run { s with curCore := k, curStream := .c } = .ok ((), t) := hrun
    rw [State.asCore, hrun']
  have hcore : (s.asCore k op).core k = c := by rw [has]; exact hbecomes.mine
  refine ⟨⟨?_, ?_, fun j hj => ?_, ?_, ?_⟩, hcore⟩
  · rw [has]
    exact State.mem_of_apart_eq (s := s.asC k) (t := t) hbecomes.package
  · rw [has]
    exact (congrArg State.graphs hbecomes.package : t.apart.graphs = (s.asC k).apart.graphs)
  · rw [has]
    exact hbecomes.others j hj
  · rw [hcore]
    exact hc.sreg
  · rw [hcore]
    exact ⟨hc.st, hc.sC, hc.sA, hc.sV, hc.sM⟩

/-- A change of the running core after a note of its old value. -/
theorem noteOld_modHere_becomes {x : Op Unit} {f : Core → Core}
    (hx : ∃ t h, x.run s = .ok ((), t) ∧ s.CoreBecomes t s.curCore { s.me with rhist := h }) :
    ∃ t h, (x >>= fun _ => modHere f).run s = .ok ((), t) ∧ s.CoreBecomes t s.curCore (f { s.me with rhist := h }) := by
  obtain ⟨t, h, hrun, hbecomes⟩ := hx
  have hcur : t.curCore = s.curCore := State.curCore_of_apart_eq hbecomes.package
  have hme : t.me = { s.me with rhist := h } := by
    rw [State.me, hcur]
    exact hbecomes.mine
  refine ⟨_, h, (Op.run_bind_ok hrun).trans (modHere_run ..), ?_⟩
  rw [State.withMe, hcur, hme]
  exact hbecomes.setCore _

/-! ### Generator words -/

theorem toNat_setHalf_low (x : BitVec 128) (v : Nat) :
    fld (setHalf x false v).toNat 0 64 = v % 2 ^ 64 ∧ fld (setHalf x false v).toNat 64 64 = fld x.toNat 64 64 := by
  have := x.isLt
  simp only [setHalf, fld, BitVec.toNat_ofNat, Bool.false_eq_true, if_false]
  omega

theorem toNat_setHalf_high (x : BitVec 128) (v : Nat) :
    fld (setHalf x true v).toNat 64 64 = v % 2 ^ 64 ∧ fld (setHalf x true v).toNat 0 64 = fld x.toNat 0 64 := by
  have := x.isLt
  simp only [setHalf, fld, BitVec.toNat_ofNat, if_true]
  omega

/-- The increment stays odd: bit 0 of its low word is set, and the high word stays. -/
theorem toNat_setHalf_low_odd (x : BitVec 128) (v : Nat) :
    fld (setHalf x false v ||| 1#128).toNat 0 64 = v % 2 ^ 64 ||| 1 ∧
      fld (setHalf x false v ||| 1#128).toNat 64 64 = fld x.toNat 64 64 := by
  obtain ⟨hlow, hhigh⟩ := toNat_setHalf_low x v
  rw [fld, Nat.pow_zero, Nat.div_one] at hlow ⊢
  have hor : (setHalf x false v ||| 1#128).toNat = (setHalf x false v).toNat ||| 1 := BitVec.toNat_or ..
  rw [hor]
  constructor
  · rw [Nat.or_mod_two_pow, hlow]
  · rw [← hhigh, fld, fld, Nat.or_div_two_pow, Nat.div_eq_of_lt (by decide : 1 < 2 ^ 64), Nat.or_zero]

theorem Gen.word_setWord (g : Gen) {n : Nat} (hn : n < 6) (m : Nat) (v : Word) :
    (g.setWord m v.toNat).word n = if n = m then (if n = 2 then v.toNat ||| 1 else v.toNat) else g.word n := by
  have hv : v.toNat % 2 ^ 64 = v.toNat := Nat.mod_eq_of_lt v.isLt
  have hlow := fun x => toNat_setHalf_low x v.toNat
  have hhigh := fun x => toNat_setHalf_high x v.toNat
  have hodd := toNat_setHalf_low_odd g.c v.toNat
  rw [hv] at hlow hhigh hodd
  match m with
  | 0 | 1 | 2 | 3 | 4 | 5 =>
    interval_cases n <;> simp [-BitVec.toNat_or, Gen.setWord, Gen.word, hlow, hhigh, hodd]
  | m + 6 =>
    rw [if_neg (by omega)]
    rfl

theorem Core.gen_setGen (c : Core) (st : Stream) (g : Gen) (h : st ≠ .m) : (c.setGen st g).gen st = g := by
  cases st <;> rfl

theorem Core.gselStream_ne_m (c : Core) : c.gselStream ≠ .m := by
  unfold Core.gselStream
  split <;> decide

/-- The history of registers and the generators are no registers of a stream. -/
theorem Core.SameRegs.setGen_rhist (c : Core) (h : SMap RegHist) (st : Stream) (g : Gen) :
    c.SameRegs (({ c with rhist := h } : Core).setGen st g) := by
  cases st <;> exact ⟨fun _ _ => rfl, rfl, rfl, rfl, rfl, rfl⟩

/-! ### CWR -/

theorem cwr_gdata_run (v : Word) (hr : SMap.rising 0 s.cores = true) : ∃ t h, (cwr crGDATA v).run s = .ok ((), t) ∧
    s.CoreBecomes t s.curCore (({ s.me with rhist := h } : Core).setGen s.me.gselStream
      ((s.me.gen s.me.gselStream).setWord (wfld (s.me.creg crGSEL) 0 3) v.toNat)) := by
  exact noteOld_modHere_becomes (noteOld_becomes _ _ _ hr)

theorem cwr_plain_run {n : Nat} (hn : n ∉ [0x064, 0x079, 0x07A, 0x092, 0x098]) (v : Word)
    (hr : SMap.rising 0 s.cores = true) : ∃ t h, (cwr n v).run s = .ok ((), t) ∧
    s.CoreBecomes t s.curCore
      (({ s.me with rhist := h } : Core).setCreg n (maskWrite (s.me.creg n) (cregMask n) v)) := by
  simp only [List.mem_cons, List.not_mem_nil, or_false, not_or] at hn
  obtain ⟨h1, h2, h3, h4, h5⟩ := hn
  have hrun : (cwr n v).run s = ((if isWeakReg n then noteOld n (s.me.creg n).toNat
      (maskWrite (s.me.creg n) (cregMask n) v).toNat else pure ()) >>= fun _ =>
      modHere fun c => c.setCreg n (maskWrite (s.me.creg n) (cregMask n) v)).run s := by
    unfold cwr
    rw [Op.run_bind_ok (here_run s), if_neg (show ¬ n = crGDATA from h1),
      if_neg (by simp [crSMPPOS, crSMPST, h2, h3]),
      if_neg h4, if_neg (show ¬ n = crEINJ from h5)]
    cases isWeakReg n <;> rfl
  rw [hrun]
  refine noteOld_modHere_becomes ?_
  split_ifs
  · exact noteOld_becomes _ _ _ hr
  · exact ⟨s, _, rfl, .refl hr⟩

/-- A write of the running core as its last and only change. -/
theorem putHere_becomes {x : Op Unit} {c : Core} (hr : SMap.rising 0 s.cores = true)
    (hx : x.run s = .ok ((), s.withMe c)) :
    ∃ t, x.run s = .ok ((), t) ∧ s.CoreBecomes t s.curCore c :=
  ⟨_, hx, (State.CoreBecomes.refl hr).setCore c⟩

/-- A core with a sampler slot put where SMPSEL shows. -/
def Core.withSlot (c : Core) (x : Slot) : Core := { c with smp := SMap.set .reset c.smp c.slotShown x }

/-- What SMPPOS or SMPST makes of a slot (R405). -/
def Slot.written (x : Slot) (n : Nat) (v : Word) : Slot :=
  if n = crSMPPOS then { x with pos := v.toNat % 2 ^ 32 } else { x with st := v.toNat % 4 }

theorem cwr_sampler_run {n : Nat} (hn : n = crSMPPOS ∨ n = crSMPST) (v : Word) (s : State) : (cwr n v).run s =
    if s.me.smpBusy then .error .block
    else .ok ((), s.withMe (s.me.withSlot ((SMap.get Slot.reset s.me.smp s.me.slotShown).written n v))) := by
  obtain rfl | rfl := hn
  all_goals
    refine (Op.run_bind_ok (here_run s)).trans ?_
    cases hbusy : s.me.smpBusy with
    | true => exact Op.run_bind_error (by rw [guardBlock_run]; rfl)
    | false => exact Op.run_bind_ok (by rw [guardBlock_run]; rfl)

theorem cwr_elogs_run (s : State) : (cwr 0x092 0).run s =
    .ok ((), if wfld (s.me.creg crELSEL) 0 8 < 20 then
      s.withMe { s.me with elog := SMap.set .zero s.me.elog (wfld (s.me.creg crELSEL) 0 8) .zero } else s) := by
  refine (Op.run_bind_ok (here_run s)).trans ?_
  have hzero : wfld (0 : Word) 62 2 = 0 := by decide
  rw [if_neg (by decide), if_neg (by decide), if_pos rfl]
  by_cases ha : wfld (s.me.creg crELSEL) 0 8 < 20
  · rw [if_pos ha, if_pos (Bool.and_eq_true_iff.mpr ⟨decide_eq_true hzero, decide_eq_true ha⟩)]
    rfl
  · rw [if_neg ha, if_neg (by simp [ha])]
    rfl

theorem cwr_einj_run (v : Word) (s : State) : (cwr crEINJ v).run s =
    .ok ((), s.withMe { s.me with einj := maskWrite s.me.einj (0xFFFFFFFF * 2 ^ 32 + 0xFF) v }) := rfl

theorem mmioWrite_staging_run {va p n : Nat} (hva : mmioAt va = .staging p n) (v : Word) (s : State) :
    (mmioWrite va v).run s = .ok ((), s.withMe { s.me with
      staging := SMap.set 0 s.me.staging (stagingKey s.curStream p n) v }) := by
  unfold mmioWrite
  rw [Op.run_bind_ok (here_run s), Op.run_bind_ok (streamOf_run s), hva]
  rfl

theorem mmioWrite_bfmt_run {va b : Nat} (hva : mmioAt va = .bfmt b) (v : Word) (hr : SMap.rising 0 s.cores = true) :
    ∃ t h, (mmioWrite va v).run s = .ok ((), t) ∧ s.CoreBecomes t s.curCore { s.me with
      rhist := h, bfmt := SMap.set 0 s.me.bfmt b (v &&& 0x7F) } := by
  unfold mmioWrite
  rw [Op.run_bind_ok (here_run s), Op.run_bind_ok (streamOf_run s), hva]
  exact noteOld_modHere_becomes (noteOld_becomes _ _ _ hr)

end

/-! ### The events -/

section
variable {s : State} {k : Nat} {v : Word} (hr : SMap.rising 0 s.cores = true)
include hr

theorem asCore_cwr_sampler {n : Nat} (hn : n = crSMPPOS ∨ n = crSMPST) (hbusy : (s.core k).smpBusy = false)
    (hsmp : SMap.rising 0 (s.core k).smp = true) :
    s.onlyRegsOf (s.asCore k (cwr n v)) k ∧
      SMap.get Slot.reset ((s.asCore k (cwr n v)).core k).smp (s.core k).slotShown =
        (SMap.get Slot.reset (s.core k).smp (s.core k).slotShown).written n v := by
  have hfree : ¬ (s.asC k).me.smpBusy = true := by
    rw [show (s.asC k).me = s.core k from rfl, hbusy]
    exact Bool.false_ne_true
  obtain ⟨honly, hcore⟩ := State.asCore_keepsRegs (putHere_becomes (s := s.asC k) hr
    ((cwr_sampler_run hn v _).trans (if_neg hfree))) ⟨fun _ _ => rfl, rfl, rfl, rfl, rfl, rfl⟩
  refine ⟨honly, ?_⟩
  rw [hcore]
  exact SMap.get_set_self _ _ _ _ hsmp

omit hr in
theorem asCore_cwr_sampler_busy {n : Nat} (hn : n = crSMPPOS ∨ n = crSMPST) (hbusy : (s.core k).smpBusy = true) :
    s.asCore k (cwr n v) = s := by
  have hrun : (cwr n v).run { s with curCore := k, curStream := .c } = .error .block :=
    (cwr_sampler_run hn v (s.asC k)).trans (if_pos hbusy)
  rw [State.asCore, hrun]

theorem asCore_cwr_gdata : s.onlyRegsOf (s.asCore k (cwr crGDATA v)) k ∧ ∀ n < 6,
    (((s.asCore k (cwr crGDATA v)).core k).gen (s.core k).gselStream).word n =
      if n = wfld ((s.core k).creg 0x063) 0 3 then (if n = 2 then v.toNat ||| 1 else v.toNat)
      else ((s.core k).gen (s.core k).gselStream).word n := by
  obtain ⟨t, h, hrun, hbecomes⟩ := cwr_gdata_run (s := s.asC k) v hr
  obtain ⟨honly, hcore⟩ := State.asCore_keepsRegs ⟨t, hrun, hbecomes⟩ (Core.SameRegs.setGen_rhist ..)
  refine ⟨honly, fun n hn => ?_⟩
  rw [hcore]
  refine (congrArg (Gen.word · n) (Core.gen_setGen _ _ _ (Core.gselStream_ne_m _))).trans ?_
  exact Gen.word_setWord _ hn _ v

theorem asCore_cwr_elogs (helog : SMap.rising 0 (s.core k).elog = true) : s.onlyRegsOf (s.asCore k (cwr 0x092 0)) k ∧
    ∀ a, SMap.get .zero ((s.asCore k (cwr 0x092 0)).core k).elog a =
      if a = wfld ((s.core k).creg 0x090) 0 8 ∧ a < 20 then ELog.zero else SMap.get .zero (s.core k).elog a := by
  by_cases hlog : wfld ((s.core k).creg 0x090) 0 8 < 20
  · obtain ⟨honly, hcore⟩ := State.asCore_keepsRegs (putHere_becomes (s := s.asC k) hr
      ((cwr_elogs_run (s.asC k)).trans (congrArg (fun t => Except.ok ((), t)) (if_pos hlog))))
      ⟨fun _ _ => rfl, rfl, rfl, rfl, rfl, rfl⟩
    refine ⟨honly, fun a => ?_⟩
    rw [hcore]
    show SMap.get .zero (SMap.set .zero (s.core k).elog (wfld ((s.core k).creg 0x090) 0 8) ELog.zero) a = _
    by_cases ha : a = wfld ((s.core k).creg 0x090) 0 8
    · rw [if_pos ⟨ha, by omega⟩, ha]
      exact SMap.get_set_self _ _ _ _ helog
    · rw [if_neg (fun h => ha h.1)]
      exact SMap.get_set_other _ _ _ ha
  · obtain ⟨honly, hcore⟩ := State.asCore_keepsRegs (op := cwr 0x092 0) (s := s) (k := k)
      ⟨_, (cwr_elogs_run (s.asC k)).trans (congrArg (fun t => Except.ok ((), t)) (if_neg hlog)), .refl hr⟩
      ⟨fun _ _ => rfl, rfl, rfl, rfl, rfl, rfl⟩
    refine ⟨honly, fun a => ?_⟩
    rw [hcore, if_neg (by rintro ⟨rfl, h⟩; exact hlog h)]
    rfl

theorem asCore_cwr_einj : s.onlyRegsOf (s.asCore k (cwr crEINJ v)) k ∧ ((s.asCore k (cwr crEINJ v)).core k).einj =
    ((s.core k).einj &&& ~~~0xFFFFFFFF000000FF) ||| (v &&& 0xFFFFFFFF000000FF) := by
  obtain ⟨honly, hcore⟩ := State.asCore_keepsRegs (putHere_becomes (s := s.asC k) hr (cwr_einj_run v _))
    ⟨fun _ _ => rfl, rfl, rfl, rfl, rfl, rfl⟩
  exact ⟨honly, by rw [hcore]; rfl⟩

theorem asCore_cwr_plain {n : Nat} (hn : n ∉ [0x064, 0x079, 0x07A, 0x092, 0x098])
    (hcr : SMap.rising 0 (s.core k).cr = true) :
    s.onlyRegsOf (s.asCore k (cwr n v)) k ∧
      (∀ m, m ≠ n → ((s.asCore k (cwr n v)).core k).creg m = (s.core k).creg m) ∧
      ((s.asCore k (cwr n v)).core k).creg n = maskWrite ((s.core k).creg n) (cregMask n) v := by
  obtain ⟨t, h, hrun, hbecomes⟩ := cwr_plain_run (s := s.asC k) hn v hr
  obtain ⟨honly, hcore⟩ := State.asCore_keepsRegs ⟨t, hrun, hbecomes⟩ ⟨fun _ _ => rfl, rfl, rfl, rfl, rfl, rfl⟩
  refine ⟨honly, fun m hm => ?_, ?_⟩
  · rw [hcore, Core.creg_setCreg_other _ _ hm]
    rfl
  · rw [hcore]
    exact Core.creg_setCreg_self _ n _ hcr

theorem asCore_mmioWrite_bfmt {va b : Nat} (hva : mmioAt va = .bfmt b) (hbfmt : SMap.rising 0 (s.core k).bfmt = true) :
    s.onlyRegsOf (s.asCore k (mmioWrite va v)) k ∧
      SMap.get 0 ((s.asCore k (mmioWrite va v)).core k).bfmt b = v &&& 0x7F := by
  obtain ⟨t, h, hrun, hbecomes⟩ := mmioWrite_bfmt_run (s := s.asC k) hva v hr
  obtain ⟨honly, hcore⟩ := State.asCore_keepsRegs ⟨t, hrun, hbecomes⟩ ⟨fun _ _ => rfl, rfl, rfl, rfl, rfl, rfl⟩
  refine ⟨honly, ?_⟩
  rw [hcore]
  exact SMap.get_set_self _ _ _ _ hbfmt

theorem asCore_mmioWrite_staging {va p n : Nat} (hva : mmioAt va = .staging p n)
    (hstaging : SMap.rising 0 (s.core k).staging = true) :
    s.onlyRegsOf (s.asCore k (mmioWrite va v)) k ∧
      SMap.get 0 ((s.asCore k (mmioWrite va v)).core k).staging (stagingKey .c p n) = v := by
  obtain ⟨honly, hcore⟩ := State.asCore_keepsRegs (putHere_becomes (s := s.asC k) hr (mmioWrite_staging_run hva v _))
    ⟨fun _ _ => rfl, rfl, rfl, rfl, rfl, rfl⟩
  refine ⟨honly, ?_⟩
  rw [hcore]
  exact SMap.get_set_self _ _ _ _ hstaging

end

theorem exec_registerWrite_cr {n : Nat} (hn : n < 0x400) (s : State) (k : Nat) (v : Word) :
    exec (.registerWrite k n v) s = .next (s.asCore k (cwr n v)) :=
  congrArg Host.Outcome.next (if_pos hn)

theorem exec_registerWrite_window {va : Nat} (hlo : 0x400000 ≤ va) (hhi : va < 0x410000) (s : State) (k : Nat)
    (v : Word) :
    exec (.registerWrite k va v) s = .next (s.asCore k (mmioWrite va v)) :=
  congrArg Host.Outcome.next ((if_neg (by omega)).trans (if_pos (by simp [hlo, hhi])))

/-- Settles O51: each event is one write of its field in the core that it names, after the note of an old value where
another stream may still read it. -/
theorem registerWritesOfACore : Obligations.RegisterWritesOfACore := by
  intro s k v hcores hcr hsmp helog hbfmt hstaging
  refine ⟨fun hbusy => ?_, fun hbusy => ?_, ⟨_, rfl, asCore_cwr_gdata hcores⟩, ⟨_, rfl, asCore_cwr_elogs hcores helog⟩,
    ⟨_, rfl, asCore_cwr_einj hcores⟩,
    fun n hn hplain => ⟨_, exec_registerWrite_cr hn s k v, asCore_cwr_plain hcores hplain hcr⟩,
    fun va b hlo hhi hva => ⟨_, exec_registerWrite_window hlo hhi s k v, asCore_mmioWrite_bfmt hcores hva hbfmt⟩,
    fun va p n hlo hhi hva =>
      ⟨_, exec_registerWrite_window hlo hhi s k v, asCore_mmioWrite_staging hcores hva hstaging⟩⟩
  · obtain ⟨hpos, hposAt⟩ := asCore_cwr_sampler (v := v) hcores (.inl rfl) hbusy hsmp
    obtain ⟨hst, hstAt⟩ := asCore_cwr_sampler (v := v) hcores (.inr rfl) hbusy hsmp
    exact ⟨_, _, rfl, rfl, hpos, hst, hposAt, hstAt⟩
  · exact ⟨congrArg Host.Outcome.next (asCore_cwr_sampler_busy (.inl rfl) hbusy),
      congrArg Host.Outcome.next (asCore_cwr_sampler_busy (.inr rfl) hbusy)⟩

end Sys2Proof.Machine
end

section

/-!
What a store to the own scratchpad leaves: its bytes in memory, and nothing else but their order and the number of the
last write.
-/

namespace Sys2Proof.Machine

/-! ### Cuts of a range -/

/-- The places and sizes make up [pa, pa + n), in order. -/
def Tiles : Nat → Nat → List (Nat × Nat) → Prop
  | _, n, [] => n = 0
  | pa, n, u :: us => u.1 = pa ∧ 0 < u.2 ∧ u.2 ≤ n ∧ Tiles (pa + u.2) (n - u.2) us

theorem tiles_unitsOf (pa n : Nat) : Tiles pa n (unitsOf pa n) := by
  induction pa, n using unitsOf.induct with
  | case1 | case2 | case3 | case4 => simp [unitsOf, Tiles]
  | case5 pa n h ih =>
    rw [unitsOf, if_pos h]
    exact ⟨rfl, by omega, by omega, ih⟩
  | case6 pa n h ih =>
    rw [unitsOf, if_neg h]
    exact ⟨rfl, by omega, by omega, ih⟩

theorem tiles_units (one : Bool) (pa : Nat) {n : Nat} (hn : 0 < n) : Tiles pa n (units one pa n) := by
  cases one with
  | false => exact tiles_unitsOf pa n
  | true => exact ⟨rfl, hn, Nat.le_refl n, Nat.sub_self n⟩

/-- With a piece for every page the pieces of an access to the own window make it up. -/
theorem tiles_pieces : ∀ {fuel va len : Nat}, va + len ≤ 0x400000 → (len = 0 ∨ len + va % 4096 ≤ 4096 * fuel) →
    Tiles va len (pieces va fuel len) := by
  intro fuel
  induction fuel with
  | zero =>
    intro va len _ hf
    obtain rfl : len = 0 := by omega
    rfl
  | succ fuel ih =>
    intro va len hend hf
    rcases Nat.eq_zero_or_pos len with rfl | hpos
    · rw [pieces_len_zero]
      rfl
    rw [pieces_own fuel hend hpos]
    exact ⟨rfl, by omega, by omega, ih (by omega) (by omega)⟩

/-! ### Bytes written -/

section
variable {s t u : State} {pa : Nat} {b b' : List Byte}

/-- Of the package only the bytes b at pa have changed, with the order of their writes and the number of the last. -/
structure State.StoresAt (s t : State) (pa : Nat) (b : List Byte) : Prop where
  rest : t = { s with mem := t.mem, hist := t.hist, seq := t.seq }
  inv : t.Inv
  bytes : t.peek pa b.length = b
  outside : s.sameOutside t pa b.length
  settled : ∀ p, (p < pa ∨ pa + b.length ≤ p) → (t.byteHist p).closed = (s.byteHist p).closed

theorem State.StoresAt.me (h : s.StoresAt t pa b) : t.me = s.me := (congrArg State.me h.rest :)

theorem State.StoresAt.curCore (h : s.StoresAt t pa b) : t.curCore = s.curCore := (congrArg State.curCore h.rest :)

theorem State.StoresAt.curStream (h : s.StoresAt t pa b) : t.curStream = s.curStream :=
  (congrArg State.curStream h.rest :)

theorem State.StoresAt.eccQuiet (h : s.StoresAt t pa b) : t.eccQuiet = s.eccQuiet := (congrArg State.eccQuiet h.rest :)

theorem State.peek_eq_of_memByte_eq {n : Nat} (h : ∀ p, pa ≤ p → p < pa + n → t.memByte p = s.memByte p) :
    t.peek pa n = s.peek pa n := by
  induction n generalizing pa with
  | zero => rfl
  | succ n ih =>
    rw [State.peek, State.peek, h pa (Nat.le_refl _) (by omega), ih fun p hlo hhi => h p (by omega) (by omega)]

theorem State.storesAt_nil (h : s.Inv) (pa n : Nat) : s.StoresAt { s with seq := n } pa [] :=
  ⟨rfl, h, rfl, fun _ _ => rfl, fun _ _ => rfl⟩

theorem State.storesAt_self (h : s.Inv) (pa : Nat) : s.StoresAt s pa [] := State.storesAt_nil h pa s.seq

/-- Bytes stored behind others. -/
theorem State.StoresAt.append (h : s.StoresAt t pa b) (h' : t.StoresAt u (pa + b.length) b') :
    s.StoresAt u pa (b ++ b') where
  rest := by
    have hu := h'.rest
    rw [h.rest] at hu
    exact hu
  inv := h'.inv
  bytes := by
    have hfirst : u.peek pa b.length = t.peek pa b.length :=
      State.peek_eq_of_memByte_eq fun p _ hp => h'.outside p (.inl hp)
    rw [List.length_append, State.peek_add, hfirst, h.bytes, h'.bytes]
  outside p hp := by
    rw [List.length_append] at hp
    rw [h'.outside p (by omega), h.outside p (by omega)]
  settled p hp := by
    rw [List.length_append] at hp
    rw [h'.settled p (by omega), h.settled p (by omega)]

theorem SMap.find?_del_other {α : Type} (m : SMap α) {k j : Nat} (h : j ≠ k) :
    (SMap.del m k).find? (fun p => p.1 == j) = m.find? fun p => p.1 == j := by
  induction m with
  | nil => rfl
  | cons p m ih =>
    rw [SMap.del]
    split
    next hk => rw [List.find?_cons_of_neg (by simp [← hk, h.symm])]
    · rw [List.find?_cons, List.find?_cons, ih]

theorem SMap.find?_ins_other {α : Type} (m : SMap α) {k j : Nat} (v : α) (h : j ≠ k) :
    (SMap.ins m k v).find? (fun p => p.1 == j) = m.find? fun p => p.1 == j := by
  have hskip (m : SMap α) : List.find? (fun p => p.1 == j) ((k, v) :: m) = m.find? fun p => p.1 == j := by
    rw [List.find?_cons_of_neg (by simpa using h.symm)]
  induction m with
  | nil => exact hskip []
  | cons p m ih =>
    rw [SMap.ins]
    split_ifs with hlt heq
    · exact hskip _
    · rw [hskip, List.find?_cons_of_neg (by simpa [← heq] using h.symm)]
    · rw [List.find?_cons, List.find?_cons, ih]

/-- The writes of a byte are found where they were when another byte's change. -/
theorem State.closed_byteHist_setHist {p : Nat} (h : p ≠ pa) (c : Byte) (x : Hist) :
    (((s.setByte pa c).setHist pa x).byteHist p).closed = (s.byteHist p).closed := by
  have hfind (v : Hist) :
      (SMap.set Hist.none s.hist pa v).find? (fun q => q.1 == p) = s.hist.find? fun q => q.1 == p := by
    unfold SMap.set
    split
    · exact SMap.find?_del_other _ h
    · exact SMap.find?_ins_other _ _ h
  simp only [State.byteHist, State.setHist, State.setByte, hfind]
  cases s.hist.find? fun q => q.1 == p <;> rfl

/-- One byte written, whatever becomes of its order. -/
theorem State.storesAt_byte (h : s.Inv) (pa : Nat) (c : Byte) (x : Hist) :
    s.StoresAt ((s.setByte pa c).setHist pa x) pa [c] where
  rest := rfl
  inv := (h.setByte pa c).setHist pa x
  bytes := congrArg (fun y => [y]) (SMap.get_set_self 0 c s.mem pa ((SMap.wf_iff ..).mp h).1)
  outside p hp := SMap.get_set_other 0 c s.mem (by rw [List.length_singleton] at hp; omega)
  settled p hp := State.closed_byteHist_setHist (by rw [List.length_singleton] at hp; omega) c x

/-- Bytes written one after the other. -/
theorem State.storesAt_foldl {f : State → Byte × Nat → State} {pa : Nat}
    (hf : ∀ t : State, t.Inv → ∀ c i, t.StoresAt (f t (c, i)) (pa + i) [c]) (l : List Byte) :
    ∀ (k : Nat) {t : State}, t.Inv → t.StoresAt ((l.zip (List.range' k l.length)).foldl f t) (pa + k) l := by
  induction l with
  | nil => exact fun k t ht => State.storesAt_self ht _
  | cons c l ih =>
    intro k t ht
    have hfirst := hf t ht c k
    exact hfirst.append (ih (k + 1) hfirst.inv)

theorem State.storesAt_putUnit (h : s.Inv) (a : Acc) (obj : Option Nat) (pa : Nat) (b : List Byte) :
    s.StoresAt (s.putUnit a obj pa b) pa b := by
  have hnone (l : List WEnt) : (l.takeWhile fun e => ([] : List Nat).contains e.seq) = [] := by cases l <;> rfl
  have hfold := State.storesAt_foldl (pa := pa) (f := fun t p =>
    (t.setByte (pa + p.2) p.1).setHist (pa + p.2)
      { t.byteHist (pa + p.2) with wr := a.entry obj (s.seq + 1) p.1 :: (t.byteHist (pa + p.2)).wr })
    (fun t ht c i => State.storesAt_byte ht (pa + i) c _) b 0 (t := { s with seq := s.seq + 1 }) h
  simp only [State.putUnit, State.placeUnit, hnone, List.isEmpty_nil, if_true, List.length_nil, List.drop_zero,
    List.nil_append, List.range_eq_range']
  exact (State.storesAt_nil h pa (s.seq + 1)).append hfold

end

/-! ### A store -/

section
variable {s t : State} {a : Acc} {pa va len : Nat} {b : List Byte}

/-- A store by the accessor is made at once in the own scratchpad: free mode, no Virga loop, nothing armed. -/
structure State.StoresPlainly (s : State) (a : Acc) : Prop where
  own : a.own = some s.curCore
  writer : a.writer = none
  core : s.curCore < 512
  role : s.me.spec.role = 0
  quiet : s.arraysQuiet
  inv : s.Inv

/-- Stores leave it so. -/
theorem State.StoresPlainly.after (h : s.StoresPlainly a) (ht : s.StoresAt t pa b) : t.StoresPlainly a where
  own := by rw [ht.curCore]; exact h.own
  writer := h.writer
  core := by rw [ht.curCore]; exact h.core
  role := by rw [ht.me]; exact h.role
  quiet := ⟨ht.eccQuiet.trans h.quiet.1, by rw [ht.me]; exact h.quiet.2⟩
  inv := ht.inv

theorem State.StoresPlainly.inIter (h : s.StoresPlainly a) : s.inIter a = false := inIter_of_role_zero h.own h.role

/-- No write races with one to settled bytes. -/
theorem rivals_settled (agent : Nat) (h : s.settledBytes pa len) : s.rivals agent pa len = [] := by
  have hopen : ((List.range len).map fun i => (s.byteHist (pa + i)).wr) = List.replicate len [] := by
    refine List.eq_replicate_iff.mpr ⟨by simp, fun l hl => ?_⟩
    obtain ⟨i, hi, rfl⟩ := List.mem_map.mp hl
    have hclosed := h i (List.mem_range.mp hi)
    simp only [Hist.closed, Bool.and_eq_true, List.isEmpty_iff] at hclosed
    exact hclosed.1
  have hnone : (List.replicate len []).flatMap (fun r : List Cand => r.map Cand.seq) = [] :=
    List.flatMap_eq_nil_iff.mpr fun r hr => by rw [List.eq_of_mem_replicate hr, List.map_nil]
  have hdown : seqsDown (List.replicate len []) = [] := by
    rw [seqsDown, hnone]
    rfl
  simp only [State.rivals, hopen, List.map_replicate, List.map_nil, hdown, List.takeWhile_nil]

theorem storeUnit_run_settled (obj : Option Nat) (h : s.StoresPlainly a) (hset : s.settledBytes pa b.length) :
    (storeUnit a obj pa b).run s = .ok ((), s.putUnit a obj pa b) := by
  have hiter := h.inIter
  have hwrite : (writeUnit a obj pa b).run s = .ok ((), s.putUnit a obj pa b) := by
    rw [writeUnit, Op.run_bind_ok (Op.run_get s), hiter, h.own, h.writer]
    rfl
  rw [storeUnit, Op.run_bind_ok (Op.run_get s), if_neg (by simp [hiter, h.writer]), rivals_settled _ hset]
  exact hwrite

/-- The units of a piece are stored one after the other, each with its bytes of the piece. -/
theorem forM_storeUnit_run (obj : Option Nat) (base : Nat) (bytes : List Byte) (us : List (Nat × Nat)) :
    ∀ {s : State} {pa n : Nat}, Tiles pa n us → base ≤ pa → bytes.length = pa - base + n → s.StoresPlainly a →
      s.settledBytes pa n →
      ∃ t, (us.forM fun u => storeUnit a obj u.1 ((bytes.drop (u.1 - base)).take u.2)).run s = .ok ((), t) ∧
        s.StoresAt t pa (bytes.drop (pa - base)) := by
  induction us with
  | nil =>
    intro s pa n htiles _ hlen h _
    obtain rfl : n = 0 := htiles
    rw [List.drop_of_length_le (by omega)]
    exact ⟨s, rfl, State.storesAt_self h.inv pa⟩
  | cons u us ih =>
    intro s pa n htiles hbase hlen h hset
    obtain ⟨hplace, hpos, hfit, hrest⟩ := htiles
    have hunit : ((bytes.drop (pa - base)).take u.2).length = u.2 := by
      rw [List.length_take, List.length_drop]
      omega
    have hstore := storeUnit_run_settled (a := a) (pa := pa) (b := (bytes.drop (pa - base)).take u.2) obj h
      (by rw [hunit]; exact hset.mono (Nat.le_refl _) (by omega))
    have hfirst := State.storesAt_putUnit h.inv a obj pa ((bytes.drop (pa - base)).take u.2)
    obtain ⟨t, hrun, ht⟩ := ih (s := s.putUnit a obj pa ((bytes.drop (pa - base)).take u.2)) hrest (by omega) (by omega)
      (h.after hfirst) fun i hi => by
        rw [hfirst.settled _ (by rw [hunit]; omega)]
        have := hset (u.2 + i) (by omega)
        rwa [← Nat.add_assoc] at this
    have hnext : bytes.drop (pa + u.2 - base) = (bytes.drop (pa - base)).drop u.2 := by
      rw [List.drop_drop, show pa + u.2 - base = pa - base + u.2 by omega]
    have hall := hfirst.append (by rw [hunit]; exact ht)
    rw [hnext, List.take_append_drop] at hall
    refine ⟨t, ?_, hall⟩
    rw [List.forM, hplace, Op.run_bind_ok hstore, hrun]

/-- A piece of scratchpad. -/
theorem writeChunk_run_settled (one : Bool) {c : Chunk} (h : s.StoresPlainly a) (htier : tierOf c.pa = some .scratch)
    (hcore : c.pa / 0x400000 = s.curCore) (hpos : 0 < c.len) (hb : b.length = c.len)
    (hset : s.settledBytes c.pa c.len) : ∃ t, (writeChunk a one c b).run s = .ok ((), t) ∧ s.StoresAt t c.pa b := by
  have hidle : s.eccIdle c.pa = true := by
    have harmed : s.armed c.pa = false := by rw [State.armed, hcore]; exact h.quiet.2
    rw [State.eccIdle, h.quiet.1, harmed, Bool.and_false]
    rfl
  have hecc : (eccCheckWrite a c.va c.pa c.len).run s = .ok ((), s) := by
    rw [eccCheckWrite, Op.run_bind_ok (Op.run_get s), State.eccStore, if_pos hidle]
    rfl
  obtain ⟨t, hrun, ht⟩ := forM_storeUnit_run (s.boundTo a c.va) c.pa b (units one c.pa c.len)
    (tiles_units one c.pa hpos) (Nat.le_refl _) (by omega) h hset
  rw [Nat.sub_self, List.drop_zero] at ht
  refine ⟨t, ?_, ht⟩
  rw [writeChunk, Op.run_bind_ok (Op.run_get s), htier, if_neg (by decide)]
  dsimp only
  rw [if_neg (by simp [State.isBuffered, h.writer, h.inIter]), Op.run_bind_ok hecc, hrun]

/-- The pieces of an access to the own window, in turn. -/
theorem writePieces_run_settled (one : Bool) (ps : List (Nat × Nat)) : ∀ {s : State} {va len : Nat} {b : List Byte},
    Tiles va len ps → va + len ≤ 0x400000 → b.length = len → s.StoresPlainly a →
      s.settledBytes (scratchPa s.curCore va) len →
      ∃ t, (writePieces a one (ps.map fun p => ⟨p.1, scratchPa s.curCore p.1, p.2⟩) b).run s = .ok ((), t) ∧
        s.StoresAt t (scratchPa s.curCore va) b := by
  induction ps with
  | nil =>
    intro s va len b htiles _ hb h _
    obtain rfl : len = 0 := htiles
    obtain rfl := List.eq_nil_of_length_eq_zero hb
    exact ⟨s, rfl, State.storesAt_self h.inv _⟩
  | cons p ps ih =>
    intro s va len b htiles hend hb h hset
    obtain ⟨hplace, hpos, hfit, hrest⟩ := htiles
    have hpiece : (b.take p.2).length = p.2 := by rw [List.length_take]; omega
    have hva : va < 0x400000 := by omega
    have hnext : scratchPa s.curCore (va + p.2) = scratchPa s.curCore va + p.2 := (Nat.add_assoc ..).symm
    obtain ⟨t, hrun, ht⟩ := writeChunk_run_settled one (b := b.take p.2) (c := ⟨va, scratchPa s.curCore va, p.2⟩) h
      (tierOf_scratchPa h.core hva) (by simp only [scratchPa]; omega) hpos hpiece
      (hset.mono (Nat.le_refl _) (by dsimp only; omega))
    obtain ⟨u, hruns, hu⟩ := ih (s := t) (b := b.drop p.2) hrest (by omega) (by rw [List.length_drop, hb])
      (h.after ht) fun i hi => by
        rw [ht.curCore, hnext, ht.settled _ (by rw [hpiece]; dsimp only; omega), Nat.add_assoc]
        exact hset _ (by omega)
    rw [ht.curCore] at hruns hu
    rw [hnext] at hu
    have hall := ht.append (by rw [hpiece]; exact hu)
    rw [List.take_append_drop] at hall
    refine ⟨u, ?_, hall⟩
    rw [List.map_cons, writePieces, hplace, Op.run_bind_ok hrun, hruns]

/-- The executing stream's accessor may store, in free mode. -/
theorem State.canWrite.storesPlainly (h : s.canWrite va len) : s.StoresPlainly s.ownAcc := by
  obtain ⟨⟨hcore, -, hrole, -, -⟩, hquiet, -, hframed, hinv⟩ := h
  exact ⟨rfl, by simp [State.ownAcc, Core.acc, hframed], hcore, hrole, hquiet, hinv⟩

/-- What a store to the own scratchpad leaves. -/
theorem writeBytes_ownAcc (one : Bool) (h : s.canWrite va b.length) :
    ∃ t, (writeBytes s.ownAcc one va b).run s = .ok ((), t) ∧ s.StoresAt t (scratchPa s.curCore va) b := by
  have hplain := h.storesPlainly
  obtain ⟨hown, -, hset, -, -⟩ := h
  obtain ⟨t, hrun, ht⟩ := writePieces_run_settled (a := { s.ownAcc with grp := s.seq + 1 }) one
    (pieces va (b.length / 4096 + 2) b.length) (tiles_pieces hown.2.1 (.inr (by omega))) hown.2.1 rfl
    ⟨hplain.own, hplain.writer, hplain.core, hplain.role, hplain.quiet, hplain.inv⟩ hset
  refine ⟨t, ?_, ht⟩
  have hroom (n : Nat) : (bufferRoom s.ownAcc n).run s = .ok ((), s) := by
    have hany : s.hasRoom s.ownAcc n = true := by simp [State.hasRoom, hplain.writer]
    rw [bufferRoom, Op.run_bind_ok (Op.run_get s), if_pos hany, Op.run_pure]
  rw [writeBytes, Op.run_bind_ok (chunks_ownAcc hown .write), Op.run_bind_ok (Op.run_get s), Op.run_bind_ok (hroom _),
    writeChunks, Op.run_bind_ok (Op.run_get s), hrun]

end

end Sys2Proof.Machine
end

section

/-!
The queue words of C and A (O17, O18). A push and a pop each change one queue of the executing core, and what a word
does besides is a register written or its image stored.
-/

namespace Sys2Proof.Machine

/-! ### The executing core changed in the state after a wait -/

section
variable {s t : State} {i : Instr} {h : Hdr} {c c' : Core}

theorem State.movedMe_learn (s : State) (a : Nat) (k : Clk) : s.MovedMe (s.learn a k) s.me := ⟨rfl, fun _ _ => rfl, rfl⟩

theorem State.MovedMe.setS (hm : s.MovedMe t c) (hc : c.st ≠ .idle) (d : Nat) (v : Word) :
    s.MovedMe (t.setS d v) (c.setSreg s.curStream d v) := by
  have hset : t.setS d v = t.withMe (c.setSreg s.curStream d v) := by rw [State.setS, hm.mine, hm.curStream]
  rw [hset]
  exact hm.trans (State.movedMe_withMe (by rwa [Core.setSreg_st]))

theorem State.MovedMe.sreg (hm : s.MovedMe t c) (r : Nat) : t.sreg r = c.sreg s.curStream r := by
  rw [State.sreg, hm.mine, hm.curStream]

theorem State.MovedMe.mem (hm : s.MovedMe t c) : t.mem = s.mem := State.mem_of_apart_eq hm.package

/-- What changes the executing core in the state after a wait changes only that core. -/
theorem State.MovedMe.onlyMe (hm : (s.waited i h).MovedMe t c) (hc : c.apart = c'.apart) : s.OnlyMe t c' where
  package := hm.package.trans State.waited_apart
  others j hj := by rw [hm.others j (by rwa [State.waited_curCore]), State.waited_core_other hj]
  mine := by rw [hm.mine, hc]

theorem Core.apart_setQueue (c : Core) (q : Nat) (l : List QEnt) : (c.setQueue q l).apart = c.apart.setQueue q l := rfl

theorem Core.apart_setQueue_congr (hc : c.apart = c'.apart) (q : Nat) (l : List QEnt) :
    (c.setQueue q l).apart = (c'.setQueue q l).apart := by
  rw [Core.apart_setQueue, hc, Core.apart_setQueue]

theorem Core.apart_setSreg_congr (hc : c.apart = c'.apart) (st : Stream) (r : Nat) (v : Word) :
    (c.setSreg st r v).apart = (c'.setSreg st r v).apart := by
  rw [Core.apart_setSreg, hc, Core.apart_setSreg]

@[simp] theorem Core.setQueue_sreg (c : Core) (q : Nat) (l : List QEnt) (st : Stream) (r : Nat) :
    (c.setQueue q l).sreg st r = c.sreg st r := rfl

theorem Core.queue_setQueue_self (hc : SMap.rising 0 c.q = true) (q : Nat) (l : List QEnt) :
    (c.setQueue q l).queue q = l :=
  SMap.get_set_self _ _ _ q hc

theorem Core.queue_setQueue_append (c : Core) (q : Nat) (l : List QEnt) (e : QEnt) :
    (c.setQueue q (l ++ [e])).queue q = l ++ [e] :=
  SMap.get_set_ne _ _ (by simp)

theorem State.waited_q (hs : s.me.st ≠ .idle) : (s.waited i h).me.q = s.me.q :=
  State.waited_field hs Core.q fun _ => rfl

theorem State.waited_queue (hs : s.me.st ≠ .idle) (q : Nat) : (s.waited i h).me.queue q = s.me.queue q :=
  State.waited_field hs (Core.queue · q) fun _ => rfl

theorem State.waited_qReady (hs : s.me.st ≠ .idle) (q : Nat) : (s.waited i h).me.qReady q = s.me.qReady q :=
  State.waited_field hs (Core.qReady · q) fun _ => rfl

theorem State.waited_qHasSpace (hs : s.me.st ≠ .idle) (q : Nat) : (s.waited i h).me.qHasSpace q = s.me.qHasSpace q :=
  State.waited_field hs (Core.qHasSpace · q) fun _ => rfl

theorem State.waited_replyMask (hs : s.me.st ≠ .idle) :
    (s.waited i h).replyMask (s.waited i h).curCore = s.replyMask s.curCore := by
  have hslot : (s.waited i h).me.slot = s.me.slot := State.waited_field hs Core.slot fun _ => rfl
  have hnode : (s.waited i h).me.node = s.me.node := State.waited_field hs Core.node fun _ => rfl
  show (match (s.waited i h).nodeOf (s.waited i h).me.slot (s.waited i h).me.node with
    | some n => wfld (n.job.getD 11 0) 0 5 | none => 0) = _
  rw [hslot, hnode, State.nodeOf, State.waited_graphs]
  rfl

theorem State.waited_canWrite (hs : s.me.st ≠ .idle) {va len : Nat} (hw : s.canWrite va len) :
    (s.waited i h).canWrite va len := by
  obtain ⟨hown, hquiet, hset, hframed, hinv⟩ := hw
  exact ⟨(State.waited_ownScratch hs va len).mpr hown, State.waited_arraysQuiet hs hquiet,
    by rwa [State.waited_settledBytes, State.waited_curCore], by rwa [State.waited_framed hs],
    hinv.of_mem State.waited_mem⟩

/-- A ready word whose effects wait blocks, and nothing of them stands (R75). -/
theorem runWord_block {body : Op Fin} (hr : s.ready i h = true) (hv : s.curStream ≠ .v)
    (hb : body.run (s.waited i h) = .error .block) : runWord i h body s = .next (s.waited i h).setBlocked := by
  have hs := State.ready_busy hr
  unfold runWord
  rw [State.word_ready body hr, hb]
  exact congrArg _ (State.setBlocked_vBlocks (by rwa [State.waited_st hs]) (.inl (by rwa [State.waited_curStream])))

theorem runOp_block {body : Op Unit} (hr : s.ready i h = true) (hv : s.curStream ≠ .v)
    (hb : body.run (s.waited i h) = .error .block) : runOp i h body s = .next (s.waited i h).setBlocked :=
  runWord_block hr hv (Op.run_bind_error hb)

end

/-! ### Pushes and pops -/

section
variable {s : State} {q : Nat} {e : QEnt} {l : List QEnt}

theorem Core.qReady_of_head {c : Core} (hq : c.queue q = e :: l) (he : e.ready = true) : c.qReady q = true := by
  rw [Core.qReady, hq]
  exact he

/-- A push with space puts an entry at the tail (R141). -/
theorem qPush_run_space (hs : s.me.st ≠ .idle) (hroom : s.me.qHasSpace q = true) (img : Image) :
    ∃ t e, (qPush q img).run s = .ok ((), t) ∧ e.img = img ∧ e.ready = true ∧
      s.MovedMe t (s.me.setQueue q (s.me.queue q ++ [e])) := by
  refine ⟨_, ⟨img, true, s.token s.agent, 0⟩, ?_, rfl, rfl, State.movedMe_withMe hs⟩
  rw [qPush, Op.run_bind_ok (here_run s), Op.run_bind_ok ((guardBlock_run ..).trans (if_pos hroom)),
    Op.run_bind_ok (tokenHere_run s), modHere_run]

theorem qPush_run_full (hfull : s.me.qHasSpace q = false) (img : Image) : (qPush q img).run s = .error .block := by
  rw [qPush, Op.run_bind_ok (here_run s), hfull]
  exact Op.run_bind_error rfl

/-- A pop takes the head entry (R141), and the reader learns what its push came after (R142). -/
theorem qPop_run_head (hs : s.me.st ≠ .idle) (hq : s.me.queue q = e :: l) (he : e.ready = true) :
    ∃ t, (qPop q).run s = .ok (e.img, t) ∧ s.MovedMe t (s.me.setQueue q l) := by
  have hput : s.MovedMe (s.withMe (s.me.setQueue q l)) (s.me.setQueue q l) := State.movedMe_withMe hs
  have hlearn := State.movedMe_learn (s.withMe (s.me.setQueue q l)) s.agent e.clk
  rw [hput.mine] at hlearn
  refine ⟨_, ?_, hput.trans hlearn⟩
  rw [qPop, Op.run_bind_ok (here_run s)]
  simp only [hq, he, if_true]
  rw [Op.run_bind_ok (putHere_run ..), Op.run_bind_ok (learnHere_run ..), Op.run_pure]
  rfl

theorem qPop_run_empty (hn : s.me.qReady q = false) : (qPop q).run s = .error .block := by
  rw [qPop, Op.run_bind_ok (here_run s)]
  rw [Core.qReady] at hn
  cases hq : s.me.queue q with
  | nil => rfl
  | cons e l =>
    rw [hq] at hn
    simp only [show e.ready = false from hn, Bool.false_eq_true, if_false, block_run]

/-! ### Which queues a stream reads and writes -/

theorem readsQueue_iff {st : Stream} {mask q : Nat} : readsQueue st mask q = true ↔ popsQueue st mask q := by
  cases st <;> simp [readsQueue, popsQueue, or_assoc, and_assoc]

theorem writesQueue_iff {st : Stream} {q : Nat} : writesQueue st q = true ↔ pushesQueue st q := by
  cases st <;> simp [writesQueue, pushesQueue]

theorem ne_v_of_popsQueue {st : Stream} {mask q : Nat} (hp : popsQueue st mask q) : st ≠ .v := by
  rintro rfl
  exact hp

theorem ne_v_of_pushesQueue {st : Stream} {q : Nat} (hp : pushesQueue st q) : st ≠ .v := by
  rintro rfl
  exact hp

theorem checkReads_run (hp : popsQueue s.curStream (s.replyMask s.curCore) q) : (checkReads q).run s = .ok ((), s) := by
  rw [checkReads, Op.run_bind_ok (streamOf_run s), Op.run_bind_ok (Op.run_get s), guardFault_run,
    if_pos (readsQueue_iff.mpr hp)]

theorem checkReads_run_fault (hp : ¬ popsQueue s.curStream (s.replyMask s.curCore) q) :
    (checkReads q).run s = .error (.fault (.ofStream s.curStream fcQSTATE 0 0)) := by
  rw [checkReads, Op.run_bind_ok (streamOf_run s), Op.run_bind_ok (Op.run_get s), guardFault_run,
    if_neg fun hr => hp (readsQueue_iff.mp hr)]

theorem checkWrites_run (hp : pushesQueue s.curStream q) : (checkWrites q).run s = .ok ((), s) := by
  rw [checkWrites, Op.run_bind_ok (streamOf_run s), guardFault_run, if_pos (writesQueue_iff.mpr hp)]

theorem checkWrites_run_fault (hp : ¬ pushesQueue s.curStream q) :
    (checkWrites q).run s = .error (.fault (.ofStream s.curStream fcQSTATE 0 0)) := by
  rw [checkWrites, Op.run_bind_ok (streamOf_run s), guardFault_run, if_neg fun hr => hp (writesQueue_iff.mp hr)]

end

section
variable {s : State} {i : Instr} {h : Hdr} {q : Nat}

/-- The check of a word's reading end, in the state after its wait. -/
theorem checkReads_run_waited (hs : s.me.st ≠ .idle) (hp : popsQueue s.curStream (s.replyMask s.curCore) q) :
    (checkReads q).run (s.waited i h) = .ok ((), s.waited i h) :=
  checkReads_run (by rwa [State.waited_curStream, State.waited_replyMask hs])

theorem checkWrites_run_waited (hp : pushesQueue s.curStream q) :
    (checkWrites q).run (s.waited i h) = .ok ((), s.waited i h) :=
  checkWrites_run (by rwa [State.waited_curStream])

/-- A word that raises QSTATE first. -/
theorem runWord_qstate {body : Op Fin} (hr : s.ready i h = true)
    (hb : body.run (s.waited i h) = .error (.fault (.ofStream (s.waited i h).curStream fcQSTATE 0 0))) :
    runWord i h body s = .next ((s.waited i h).takeFault s.curCore (.ofStream s.curStream 0x0C 0 0) false) :=
  runWord_fault_ofStream hr (by rw [hb, State.waited_curStream]; rfl) (deferrable_ofStream (by decide) (by decide) ..)

theorem runOp_qstate {body : Op Unit} (hr : s.ready i h = true)
    (hb : body.run (s.waited i h) = .error (.fault (.ofStream (s.waited i h).curStream fcQSTATE 0 0))) :
    runOp i h body s = .next ((s.waited i h).takeFault s.curCore (.ofStream s.curStream 0x0C 0 0) false) :=
  runWord_qstate hr (Op.run_bind_error hb)

end

/-! ### QPUSH and QPOP -/

theorem qpushAppendsOrWaits : QpushAppendsOrWaits := by
  intro s h q d hr
  have hs := State.ready_busy hr
  have hw : (s.waited (.qpush h q d) h).me.st ≠ .idle := by rwa [State.waited_st hs]
  refine ⟨fun hp hroom => ?_, fun hp hfull => ?_, fun hp => ?_⟩
  · obtain ⟨t, e, hrun, himg, hready, ht⟩ := qPush_run_space (q := q) hw
      (by rw [State.waited_qHasSpace hs]; exact decide_eq_true hroom) (img64 (s.sreg d))
    refine ⟨t, e, runOp_ready hr ?_, ⟨himg, hready⟩, ht.onlyMe ?_⟩
    · rw [Op.run_bind_ok (checkWrites_run_waited hp), Op.run_bind_ok (rdS_run d _), State.waited_sreg hs, hrun]
    · rw [State.waited_queue hs]
      exact Core.apart_setQueue_congr (State.waited_me_apart hs) ..
  · refine runOp_block hr (ne_v_of_pushesQueue hp) ?_
    rw [Op.run_bind_ok (checkWrites_run_waited hp), Op.run_bind_ok (rdS_run d _)]
    refine qPush_run_full ?_ _
    rw [State.waited_qHasSpace hs]
    exact decide_eq_false (Nat.not_lt.mpr hfull)
  · exact runOp_qstate hr (Op.run_bind_error (checkWrites_run_fault (by rwa [State.waited_curStream])))

theorem qpopTakesTheHeadOrWaits : QpopTakesTheHeadOrWaits := by
  intro s h q d hr
  have hs := State.ready_busy hr
  have hw : (s.waited (.qpop h q d) h).me.st ≠ .idle := by rwa [State.waited_st hs]
  refine ⟨fun hp e l hq he => ?_, fun hp hn => ?_, fun hp => ?_⟩
  · obtain ⟨t, hrun, ht⟩ := qPop_run_head hw ((State.waited_queue hs q).trans hq) he
    refine ⟨t.setS d (lo64 e.img), runOp_ready hr ?_, (ht.setS hw d _).onlyMe ?_⟩
    · rw [Op.run_bind_ok (checkReads_run_waited hs hp), Op.run_bind_ok hrun, wrS_run]
    · rw [State.waited_curStream]
      exact Core.apart_setSreg_congr (Core.apart_setQueue_congr (State.waited_me_apart hs) ..) ..
  · refine runOp_block hr (ne_v_of_popsQueue hp) ?_
    rw [Op.run_bind_ok (checkReads_run_waited hs hp)]
    exact Op.run_bind_error (qPop_run_empty ((State.waited_qReady hs q).trans hn))
  · refine runOp_qstate hr (Op.run_bind_error (checkReads_run_fault ?_))
    rwa [State.waited_curStream, State.waited_replyMask hs]

/-! ### QTRY and QLEN -/

section
variable {s : State} {h : Hdr} {q d f : Nat}

theorem exec_qtryPop_of_head {e : QEnt} {l : List QEnt} (hr : s.ready (.qtryPop h q d f) h = true)
    (hp : popsQueue s.curStream (s.replyMask s.curCore) q) (hq : s.me.queue q = e :: l) (he : e.ready = true) :
    ∃ t : State, exec (.qtryPop h q d f) s = .next (t.retire (.qtryPop h q d f) h fall) ∧ s.OnlyMe t
      (((s.me.setQueue q l).setSreg s.curStream d (e.img.setWidth 64)).setSreg s.curStream f 1) := by
  have hs := State.ready_busy hr
  have hw : (s.waited (.qtryPop h q d f) h).me.st ≠ .idle := by rwa [State.waited_st hs]
  have hready := (State.waited_qReady (i := .qtryPop h q d f) (h := h) hs q).trans (Core.qReady_of_head hq he)
  obtain ⟨t, hrun, ht⟩ := qPop_run_head hw ((State.waited_queue hs q).trans hq) he
  refine ⟨(t.setS d (lo64 e.img)).setS f 1, runOp_ready hr ?_,
    ((ht.setS hw d _).setS (by rwa [Core.setSreg_st]) f 1).onlyMe ?_⟩
  · rw [Op.run_bind_ok (checkReads_run_waited hs hp), Op.run_bind_ok (here_run _), if_pos hready, Op.run_bind_ok hrun,
      Op.run_bind_ok (wrS_run ..), wrS_run]
  · rw [State.waited_curStream]
    exact Core.apart_setSreg_congr (Core.apart_setSreg_congr
      (Core.apart_setQueue_congr (State.waited_me_apart hs) ..) ..) ..

theorem exec_qtryPop_of_empty (hr : s.ready (.qtryPop h q d f) h = true)
    (hp : popsQueue s.curStream (s.replyMask s.curCore) q) (hn : s.me.qReady q = false) :
    exec (.qtryPop h q d f) s =
      .next (((s.waited (.qtryPop h q d f) h).setS f 0).retire (.qtryPop h q d f) h fall) := by
  have hs := State.ready_busy hr
  refine runOp_ready hr ?_
  rw [Op.run_bind_ok (checkReads_run_waited hs hp), Op.run_bind_ok (here_run _),
    if_neg (by rw [State.waited_qReady hs, hn]; exact Bool.false_ne_true), wrS_run]

theorem exec_qtryPush_of_space (hr : s.ready (.qtryPush h q d f) h = true) (hp : pushesQueue s.curStream q)
    (hroom : (s.me.queue q).length < qDepth q) :
    ∃ (t : State) (e : QEnt), exec (.qtryPush h q d f) s = .next (t.retire (.qtryPush h q d f) h fall) ∧
      pushed (s.sreg d) e ∧ s.OnlyMe t ((s.me.setQueue q (s.me.queue q ++ [e])).setSreg s.curStream f 1) := by
  have hs := State.ready_busy hr
  have hw : (s.waited (.qtryPush h q d f) h).me.st ≠ .idle := by rwa [State.waited_st hs]
  have hspace := (State.waited_qHasSpace (i := .qtryPush h q d f) (h := h) hs q).trans (decide_eq_true hroom)
  obtain ⟨t, e, hrun, himg, hready, ht⟩ := qPush_run_space hw hspace (img64 (s.sreg d))
  refine ⟨t.setS f 1, e, runOp_ready hr ?_, ⟨himg, hready⟩, (ht.setS hw f 1).onlyMe ?_⟩
  · rw [Op.run_bind_ok (checkWrites_run_waited hp), Op.run_bind_ok (here_run _), if_pos hspace,
      Op.run_bind_ok (rdS_run d _), State.waited_sreg hs, Op.run_bind_ok hrun, wrS_run]
  · rw [State.waited_queue hs, State.waited_curStream]
    exact Core.apart_setSreg_congr (Core.apart_setQueue_congr (State.waited_me_apart hs) ..) ..

theorem exec_qtryPush_of_full (hr : s.ready (.qtryPush h q d f) h = true) (hp : pushesQueue s.curStream q)
    (hfull : qDepth q ≤ (s.me.queue q).length) : exec (.qtryPush h q d f) s =
      .next (((s.waited (.qtryPush h q d f) h).setS f 0).retire (.qtryPush h q d f) h fall) := by
  have hs := State.ready_busy hr
  refine runOp_ready hr ?_
  rw [Op.run_bind_ok (checkWrites_run_waited hp), Op.run_bind_ok (here_run _), if_neg, wrS_run]
  rw [State.waited_qHasSpace hs, Core.qHasSpace, decide_eq_true_eq]
  exact Nat.not_lt.mpr hfull

theorem exec_qlen_of_ready {free : Bool} (hr : s.ready (.qlen h free q d) h = true) :
    exec (.qlen h free q d) s = .next (((s.waited (.qlen h free q d) h).setS d
      (BitVec.ofNat 64 (if free then qDepth q - (s.me.queue q).length else (s.me.queue q).length))).retire
        (.qlen h free q d) h fall) := by
  refine runOp_ready hr ?_
  rw [Op.run_bind_ok (here_run _), State.waited_queue (State.ready_busy hr), wrS_run]

end

/-- Settles O18: QTRY looks at its queue in the state after the wait and then pops or pushes as QPOP and QPUSH do, or
writes one register; no branch of it blocks. -/
theorem qtryAndQlenNeverWait : Obligations.QtryAndQlenNeverWait := by
  intro s h q d f
  exact ⟨fun hr hp => ⟨fun e l hq he => exec_qtryPop_of_head hr hp hq he, exec_qtryPop_of_empty hr hp⟩,
    fun hr hp => ⟨exec_qtryPush_of_space hr hp, exec_qtryPush_of_full hr hp⟩, fun free hr => exec_qlen_of_ready hr⟩

/-! ### LDQ and STQ -/

theorem leNat_lt (b : List Byte) : leNat b < 2 ^ (8 * b.length) := by
  induction b with
  | nil => exact Nat.one_pos
  | cons x b ih =>
    rw [leNat, List.length_cons, Nat.mul_succ, Nat.pow_add]
    have := x.isLt
    omega

theorem length_peek (s : State) (pa n : Nat) : (s.peek pa n).length = n := by
  induction n generalizing pa with
  | zero => rfl
  | succ n ih => rw [State.peek, List.length_cons, ih]

@[simp] theorem length_leBytes (n v : Nat) : (leBytes n v).length = n := by
  induction n generalizing v with
  | zero => rfl
  | succ n ih => rw [leBytes, List.length_cons, ih]

/-- An image holds the number of its 512 bytes. -/
theorem toNat_ofNat_ownNat (s : State) (va : Nat) : (BitVec.ofNat 4096 (s.ownNat va 512)).toNat = s.ownNat va 512 := by
  have hlt := leNat_lt (s.peek (scratchPa s.curCore va) 512)
  rw [length_peek] at hlt
  exact (BitVec.toNat_ofNat ..).trans (Nat.mod_eq_of_lt hlt)

section
variable {s : State} {d off : Nat}

/-- The address of LDQ and STQ in the statements' form (R151). -/
theorem toNat_addOff_eq_eaddr24 (s : State) (d off : Nat) : (addOff (s.sreg d) 24 off).toNat = s.eaddr d 24 off := by
  rw [addOff_eq]
  rfl

/-- LDQ puts an entry at the tail of its queue whose bytes are read and have not arrived. -/
theorem ldqOp_run {q : Nat} (hs : s.me.st ≠ .idle) (g : Nat) (hroom : s.me.qHasSpace q = true)
    (hread : s.canRead (s.eaddr d 24 off) 512) : ∃ t e, (ldqOp g q d off).run s = .ok ((), t) ∧
      s.MovedMe t (s.me.setQueue q (s.me.queue q ++ [e])) ∧
      e.img = BitVec.ofNat 4096 (s.ownNat (s.eaddr d 24 off) 512) ∧ e.ready = false ∧ e.g = g := by
  refine ⟨_, ⟨BitVec.ofNat 4096 (s.ownNat (s.eaddr d 24 off) 512), false, s.token s.agent, g⟩, ?_,
    State.movedMe_withMe hs, rfl, rfl, rfl⟩
  have hacc : accHere.run s = .ok (s.ownAcc, s) := accHere_run s hread.1.2.2.2.1
  rw [ldqOp, Op.run_bind_ok (here_run s), Op.run_bind_ok ((guardBlock_run ..).trans (if_pos hroom)),
    Op.run_bind_ok (rdS_run d s), Op.run_bind_ok hacc, toNat_addOff_eq_eaddr24,
    Op.run_bind_ok (readBytes_ownAcc false hread), Op.run_bind_ok (tokenHere_run s), modHere_run]
  rfl

/-- STQ stores the head entry's image, and then takes the entry. -/
theorem stqOp_run {e : QEnt} {l : List QEnt} (hs : s.me.st ≠ .idle) (hq : s.me.queue 2 = e :: l)
    (hwrite : s.canWrite (s.eaddr d 24 off) 512) : ∃ t u, (stqOp d off).run s = .ok ((), u) ∧
      (s.learn s.agent e.clk).StoresAt t (scratchPa s.curCore (s.eaddr d 24 off)) (leBytes 512 e.img.toNat) ∧
      t.MovedMe u (s.me.setQueue 2 l) := by
  let v := s.learn s.agent e.clk
  have hcan : v.canWrite (s.eaddr d 24 off) (leBytes 512 e.img.toNat).length := by rwa [length_leBytes]
  have hacc : accHere.run s = .ok (v.ownAcc, s) := accHere_run s hwrite.1.2.2.2.1
  obtain ⟨t, hrun, ht⟩ := writeBytes_ownAcc false hcan
  have htail : t.me.setQueue 2 (t.me.queue 2).tail = s.me.setQueue 2 l := by
    rw [ht.me, show v.me = s.me from rfl, hq, List.tail_cons]
  refine ⟨t, t.withMe (s.me.setQueue 2 l), ?_, ht, State.movedMe_withMe hs⟩
  rw [stqOp, Op.run_bind_ok (here_run s), hq]
  dsimp only
  rw [Op.run_bind_ok (rdS_run d s), Op.run_bind_ok hacc, Op.run_bind_ok (learnHere_run ..), toNat_addOff_eq_eaddr24,
    Op.run_bind_ok hrun, modHere_run, htail]

end

theorem queueLoadsAndStores : QueueLoadsAndStores := by
  intro s h d off
  refine ⟨fun q hr hroom hread => ?_, fun e l hr hq hrise hwrite => ?_⟩
  · have hs := State.ready_busy hr
    let w := s.waited (.ldq h q d off) h
    have haddr : w.eaddr d 24 off = s.eaddr d 24 off := State.waited_eaddr hs ..
    obtain ⟨t, e, hrun, ht, himg, hready, hg⟩ := ldqOp_run (s := w) (q := q) (d := d) (off := off)
      (by rwa [State.waited_st hs]) h.g (by rwa [State.waited_qHasSpace hs])
      (by rwa [haddr, State.waited_canRead hs])
    rw [haddr, State.waited_ownNat] at himg
    refine ⟨t, e, runOp_ready hr hrun, ?_, by rw [himg, toNat_ofNat_ownNat], hready, hg, ht.mem.trans State.waited_mem,
      fun r => ?_⟩
    · rw [ht.mine, Core.queue_setQueue_append, State.waited_queue hs]
    · rw [ht.sreg, Core.setQueue_sreg]
      exact State.waited_sreg hs r
  · have hs := State.ready_busy hr
    let w := s.waited (.stq h d off) h
    have haddr : w.eaddr d 24 off = s.eaddr d 24 off := State.waited_eaddr hs ..
    have hw : w.me.st ≠ .idle := by rwa [State.waited_st hs]
    obtain ⟨t, u, hrun, ht, hu⟩ := stqOp_run hw ((State.waited_queue hs 2).trans hq)
      (by rw [haddr]; exact State.waited_canWrite hs hwrite)
    rw [haddr, State.waited_curCore] at ht
    refine ⟨u, runOp_ready hr hrun, ⟨?_, fun p hp => ?_⟩, ?_, fun r => ?_⟩
    · rw [State.peek_congr hu.mem, ht.bytes]
    · have hsame := ht.outside p hp
      rw [State.memByte, ← hu.mem] at hsame
      exact hsame.trans (congrArg (SMap.get 0 · p) State.waited_mem)
    · rw [hu.mine, Core.queue_setQueue_self]
      rwa [State.waited_q hs]
    · rw [hu.sreg, Core.setQueue_sreg, ht.curStream]
      exact State.waited_sreg hs r

/-- Settles O17: each word changes one queue of the core in the state after its wait; the image that STQ stores is the
entry's, and of memory only its bytes change. -/
theorem queueWordsAppendAndTake : Obligations.QueueWordsAppendAndTake :=
  ⟨queueLoadsAndStores, qpushAppendsOrWaits, qpopTakesTheHeadOrWaits⟩

end Sys2Proof.Machine
end

section

/-!
BTOK, the mailboxes and ECUT (O19). BTOK is a pop whose route is looked at first. What ECUT does is one change of the
core's queues (`ecutOp_run`), and whether it waits is one look at them (`Core.cutWaits`).
-/

namespace Sys2Proof.Machine

/-! ### BTOK -/

/-- The route of a token (R152). -/
theorem wfld_route (img : Image) : wfld (lo64 img) 0 16 = img.toNat % 2 ^ 16 := by
  rw [wfld, fld, lo64, BitVec.toNat_setWidth]
  omega

/-- The payload of a token, sign-extended (R152). -/
theorem ofInt_payload (img : Image) :
    BitVec.ofInt 64 (sx 48 (wfld (lo64 img) 16 48)) = (img.extractLsb' 16 48).signExtend 64 := by
  have hfield : BitVec.ofNat 48 (wfld (lo64 img) 16 48) = img.extractLsb' 16 48 := by
    apply BitVec.eq_of_toNat_eq
    rw [BitVec.toNat_ofNat, BitVec.extractLsb'_toNat, Nat.shiftRight_eq_div_pow, wfld, fld, lo64, BitVec.toNat_setWidth]
    omega
  rw [ofInt_sx, hfield]

section
variable {s : State} {q d l off : Nat} {e : QEnt} {es : List QEnt}

theorem Core.stream_setQueue (c : Core) (q : Nat) (l : List QEnt) (st : Stream) :
    (c.setQueue q l).stream st = c.stream st := by cases st <;> rfl

theorem btokOp_run_target (hs : s.me.st ≠ .idle) (hp : popsQueue s.curStream (s.replyMask s.curCore) q)
    (hq : s.me.queue q = e :: es) (he : e.ready = true) (hroute : e.img.toNat % 2 ^ 16 < if l = 0 then 256 else l) :
    ∃ t, (btokOp q d l off).run s =
        .ok (⟨.jump (s.strm.plus s.strm.pc (8 * (sfield 20 off + (e.img.toNat % 2 ^ 16 : Nat)))), []⟩, t) ∧
      s.MovedMe t ((s.me.setQueue q es).setSreg s.curStream d ((e.img.extractLsb' 16 48).signExtend 64)) := by
  obtain ⟨t, hrun, ht⟩ := qPop_run_head hs hq he
  have hset := ht.setS hs d ((e.img.extractLsb' 16 48).signExtend 64)
  refine ⟨_, ?_, hset⟩
  have hstrm : (t.setS d ((e.img.extractLsb' 16 48).signExtend 64)).strm = s.strm := by
    rw [State.strm, hset.mine, hset.curStream, Core.stream_setSreg, Core.stream_setQueue]
    rfl
  rw [btokOp, Op.run_bind_ok (checkReads_run hp), Op.run_bind_ok (here_run s), hq]
  dsimp only
  rw [wfld_route, ofInt_payload, Op.run_bind_ok ((guardFault_run ..).trans (if_pos (decide_eq_true hroute))),
    Op.run_bind_ok hrun, Op.run_bind_ok (wrS_run ..), Op.run_bind_ok (thisStream_run _), Op.run_pure, hstrm,
    sx_eq_sfield]

theorem btokOp_run_past (hp : popsQueue s.curStream (s.replyMask s.curCore) q) (hq : s.me.queue q = e :: es)
    (hroute : (if l = 0 then 256 else l) ≤ e.img.toNat % 2 ^ 16) :
    (btokOp q d l off).run s = .error (.fault (.ofStream s.curStream fcQSTATE 0 0)) := by
  rw [btokOp, Op.run_bind_ok (checkReads_run hp), Op.run_bind_ok (here_run s), hq]
  dsimp only
  rw [wfld_route]
  exact Op.run_bind_error ((guardFault_run ..).trans (if_neg (by simpa using hroute)))

end

theorem btokBranchesByRoute : BtokBranchesByRoute := by
  intro s h q d l off e es hr hp hq he route
  have hs := State.ready_busy hr
  have hpw : popsQueue (s.waited (.btok h q d l off) h).curStream
      ((s.waited (.btok h q d l off) h).replyMask (s.waited (.btok h q d l off) h).curCore) q := by
    rwa [State.waited_curStream, State.waited_replyMask hs]
  have hqw := (State.waited_queue (i := .btok h q d l off) (h := h) hs q).trans hq
  refine ⟨fun hroute => ?_, fun hroute => runWord_qstate hr (btokOp_run_past hpw hqw hroute)⟩
  obtain ⟨t, hrun, ht⟩ := btokOp_run_target (d := d) (l := l) (off := off) (by rwa [State.waited_st hs]) hpw hqw he
    hroute
  rw [State.waited_pc hs, State.waited_plus hs] at hrun
  refine ⟨t, runWord_ready hr hrun, ht.onlyMe ?_⟩
  rw [State.waited_curStream]
  exact Core.apart_setSreg_congr (Core.apart_setQueue_congr (State.waited_me_apart hs) ..) ..

/-! ### Mailboxes -/

section
variable {s : State} {i : Instr} {h : Hdr}

theorem State.waited_coupled (hs : s.me.st ≠ .idle) : (s.waited i h).me.coupled = s.me.coupled :=
  State.waited_field hs Core.coupled fun _ => rfl

theorem checkCoupled_run (hc : s.me.coupled ≠ none) : checkCoupled.run s = .ok ((), s) := by
  rw [checkCoupled, Op.run_bind_ok (here_run s), guardFault_run, if_pos (Option.isSome_iff_ne_none.mpr hc)]

theorem checkCoupled_run_fault (hc : s.me.coupled = none) :
    checkCoupled.run s = .error (.fault (.ofStream s.curStream fcQSTATE 0 0)) := by
  rw [checkCoupled, Op.run_bind_ok (here_run s), guardFault_run, hc]
  rfl

/-- MBSEND puts an entry with its counter at the tail of q14 (R154). -/
theorem mbsendOp_run (hs : s.me.st ≠ .idle) (hc : s.me.coupled ≠ none) (hroom : s.me.qHasSpace 14 = true) (d n : Nat) :
    ∃ t e, (mbsendOp d n).run s = .ok ((), t) ∧ pushed (s.sreg d) e ∧ e.g = n ∧
      s.MovedMe t (s.me.setQueue 14 (s.me.queue 14 ++ [e])) := by
  refine ⟨_, ⟨img64 (s.sreg d), true, s.token s.agent, n⟩, ?_, ⟨rfl, rfl⟩, rfl, State.movedMe_withMe hs⟩
  rw [mbsendOp, Op.run_bind_ok (checkCoupled_run hc), Op.run_bind_ok (here_run s),
    Op.run_bind_ok ((guardBlock_run ..).trans (if_pos hroom)), Op.run_bind_ok (rdS_run d s),
    Op.run_bind_ok (tokenHere_run s), modHere_run]

end

theorem mailboxSendAndReceive : MailboxSendAndReceive := by
  intro s h d
  refine ⟨fun n hr => ⟨fun hc hroom => ?_, fun hc => ?_⟩, fun hr => ⟨fun e l hc hq he => ?_, fun hc => ?_⟩⟩
  · have hs := State.ready_busy hr
    obtain ⟨t, e, hrun, himg, hg, ht⟩ := mbsendOp_run (by rwa [State.waited_st hs]) (by rwa [State.waited_coupled hs])
      ((State.waited_qHasSpace (i := .mbsend h d n) (h := h) hs 14).trans (decide_eq_true hroom)) d n
    rw [State.waited_sreg hs] at himg
    refine ⟨t, e, runOp_ready hr hrun, himg, hg, ht.onlyMe ?_⟩
    rw [State.waited_queue hs]
    exact Core.apart_setQueue_congr (State.waited_me_apart hs) ..
  · exact runOp_qstate hr (Op.run_bind_error
      (checkCoupled_run_fault ((State.waited_coupled (State.ready_busy hr)).trans hc)))
  · have hs := State.ready_busy hr
    have hw : (s.waited (.mbrecv h d) h).me.st ≠ .idle := by rwa [State.waited_st hs]
    obtain ⟨t, hrun, ht⟩ := qPop_run_head hw ((State.waited_queue hs 13).trans hq) he
    refine ⟨t.setS d (lo64 e.img), runOp_ready hr ?_, (ht.setS hw d _).onlyMe ?_⟩
    · rw [Op.run_bind_ok (checkCoupled_run (by rwa [State.waited_coupled hs])), Op.run_bind_ok hrun, wrS_run]
    · rw [State.waited_curStream]
      exact Core.apart_setSreg_congr (Core.apart_setQueue_congr (State.waited_me_apart hs) ..) ..
  · exact runOp_qstate hr (Op.run_bind_error
      (checkCoupled_run_fault ((State.waited_coupled (State.ready_busy hr)).trans hc)))

/-! ### ECUT -/

/-- A queue as a cut leaves it: the entries up to the marker, and of those behind it the ones that are not discarded. -/
def cutRest (j gen : Nat) (l : List Cmd) : List Cmd :=
  (cutQueue j gen l).1 ++ ((cutQueue j gen l).2.filter uncut).map fun m =>
    if m.st = 0 && isMarker m then { m with again := true } else m

/-- The markers of C are marked to be held, and keep their numbers. -/
theorem cutRest_eq (j gen : Nat) (l : List Cmd) : ∃ marks, cutRest j gen l = (cutQueue j gen l).1 ++ marks ∧
    marks.map Cmd.id = ((cutQueue j gen l).2.filter uncut).map Cmd.id := by
  refine ⟨_, rfl, ?_⟩
  rw [List.map_map]
  refine List.map_congr_left fun m _ => ?_
  rw [Function.comp_apply]
  split <;> rfl

/-- The engines that ECUT and the latest MARK both name. -/
def cutEngines (e set_ : Nat) : List Nat := (List.range 5).filter fun n => e.testBit n && set_.testBit n

theorem mem_cutEngines {e set_ n : Nat} :
    n ∈ cutEngines e set_ ↔ n < 5 ∧ e.testBit n = true ∧ set_.testBit n = true := by
  simp [cutEngines]

theorem nodup_cutEngines (e set_ : Nat) : (cutEngines e set_).Nodup := List.nodup_range.filter _

section
variable {c : Core} {j e gen n : Nat}

theorem Core.equeue_setEqueue_self (hc : SMap.rising 0 c.eq = true) (n : Nat) (l : List Cmd) :
    (c.setEqueue n l).equeue n = l := SMap.get_set_self _ _ _ n hc

theorem Core.equeue_setEqueue_other (c : Core) {m n : Nat} (l : List Cmd) (h : m ≠ n) :
    (c.setEqueue n l).equeue m = c.equeue m := SMap.get_set_other _ _ _ h

/-- The core with the queues of engines cut in turn. -/
def Core.cutQueues (c : Core) (j gen : Nat) (ns : List Nat) : Core :=
  ns.foldl (fun c n => c.setEqueue n (cutRest j gen (c.equeue n))) c

theorem Core.cutQueues_cons (c : Core) (j gen n : Nat) (ns : List Nat) :
    c.cutQueues j gen (n :: ns) = (c.setEqueue n (cutRest j gen (c.equeue n))).cutQueues j gen ns := rfl

/-- Only queues change. -/
theorem Core.cutQueues_eq (c : Core) (j gen : Nat) (ns : List Nat) :
    ∃ m, c.cutQueues j gen ns = { c with eq := m } := by
  induction ns generalizing c with
  | nil => exact ⟨c.eq, rfl⟩
  | cons n ns ih =>
    obtain ⟨m, hm⟩ := ih (c.setEqueue n (cutRest j gen (c.equeue n)))
    exact ⟨m, hm⟩

theorem Core.equeue_cutQueues_other {ns : List Nat} (h : n ∉ ns) : (c.cutQueues j gen ns).equeue n = c.equeue n := by
  induction ns generalizing c with
  | nil => rfl
  | cons m ns ih =>
    obtain ⟨hne, hmem⟩ := not_or.mp (mt List.mem_cons.mpr h)
    rw [Core.cutQueues_cons, ih hmem, Core.equeue_setEqueue_other _ _ hne]

theorem Core.equeue_cutQueues {ns : List Nat} (hnd : ns.Nodup) (hc : SMap.rising 0 c.eq = true) (h : n ∈ ns) :
    (c.cutQueues j gen ns).equeue n = cutRest j gen (c.equeue n) := by
  induction ns generalizing c with
  | nil => exact absurd h List.not_mem_nil
  | cons m ns ih =>
    obtain ⟨hm, hnd⟩ := List.nodup_cons.mp hnd
    rw [Core.cutQueues_cons]
    rcases List.mem_cons.mp h with rfl | hmem
    · rw [Core.equeue_cutQueues_other hm, Core.equeue_setEqueue_self hc]
    · rw [ih hnd (SMap.rising_set _ _ _ hc) hmem, Core.equeue_setEqueue_other _ _ (by rintro rfl; exact hm hmem)]

/-- The commands that an ECUT of Jn discards. -/
def Core.cutGone (c : Core) (j e : Nat) : List Cmd :=
  (cutEngines e (SMap.get Rdv.reset c.rdv j).set_).flatMap fun n =>
    (cutQueue j (SMap.get Rdv.reset c.rdv j).gen (c.equeue n)).2.filter fun m => !uncut m

theorem sum_map_filter {α : Type} (p : α → Bool) (f : α → Nat) (l : List α) :
    ((l.filter p).map f).sum = (l.map fun a => if p a then f a else 0).sum := by
  induction l with
  | nil => rfl
  | cons a l ih => cases hp : p a <;> simp [hp, ih]

theorem Core.length_cutGone (c : Core) (j e : Nat) :
    (c.cutGone j e).length = ((List.range 5).map fun n =>
      if e.testBit n && (SMap.get Rdv.reset c.rdv j).set_.testBit n then
        (cutQueue j (SMap.get Rdv.reset c.rdv j).gen (c.equeue n)).2.countP fun m => !uncut m
      else 0).sum := by
  simp only [Core.cutGone, cutEngines, List.length_flatMap, sum_map_filter, List.countP_eq_length_filter]

/-- The core as an ECUT of Jn leaves it, but for the register that takes the number. -/
def Core.afterCut (c : Core) (j e : Nat) : Core :=
  ((c.cutGone j e).foldl (fun c m => c.markStarted m.id)
    (c.cutQueues j (SMap.get Rdv.reset c.rdv j).gen (cutEngines e (SMap.get Rdv.reset c.rdv j).set_))).setReplay .c none

/-- Besides the queues only the replay lists change. -/
theorem Core.afterCut_eq (c : Core) (j e : Nat) : ∃ x y, c.afterCut j e =
    { c.cutQueues j (SMap.get Rdv.reset c.rdv j).gen (cutEngines e (SMap.get Rdv.reset c.rdv j).set_) with
      replayC := x, replayA := y } := by
  have hmark (l : List Cmd) : ∀ c : Core, ∃ x y,
      l.foldl (fun c m => c.markStarted m.id) c = { c with replayC := x, replayA := y } := by
    induction l with
    | nil => exact fun c => ⟨c.replayC, c.replayA, rfl⟩
    | cons m l ih =>
      intro c
      obtain ⟨x, y, hxy⟩ := ih (c.markStarted m.id)
      exact ⟨x, y, hxy⟩
  obtain ⟨x, y, hxy⟩ := hmark (c.cutGone j e)
    (c.cutQueues j (SMap.get Rdv.reset c.rdv j).gen (cutEngines e (SMap.get Rdv.reset c.rdv j).set_))
  refine ⟨none, y, ?_⟩
  rw [Core.afterCut, hxy]
  rfl

/-- An ECUT of Jn waits: an entry of C that it would not discard has not started. -/
def Core.cutWaits (c : Core) (j e : Nat) : Bool :=
  !((List.range 6).all fun n =>
    if (cutEngines e (SMap.get Rdv.reset c.rdv j).set_).contains n then
      !((cutQueue j (SMap.get Rdv.reset c.rdv j).gen (c.equeue n)).1.any (c.waitsFor .c n))
    else !((c.equeue n).any (c.waitsFor .c n)))

theorem Core.waitsFor_c_iff {m : Cmd} :
    c.waitsFor .c n m = true ↔ m.st = 0 ∧ ¬ (n = 5 ∧ c.act = true ∧ c.nest.isSome = true) := by
  rw [Core.waitsFor, Bool.and_eq_true, beq_iff_eq, Bool.not_eq_true', ← Bool.not_eq_true, Bool.and_eq_true,
    Bool.and_eq_true, beq_iff_eq, and_assoc]
  exact Iff.rfl

theorem Core.cutWaits_iff : c.cutWaits j e = true ↔ ∃ n < 6, ∃ m,
    (m.st = 0 ∧ ¬ (n = 5 ∧ c.act = true ∧ c.nest.isSome = true)) ∧
      ((n ∈ cutEngines e (SMap.get Rdv.reset c.rdv j).set_ ∧
          m ∈ (cutQueue j (SMap.get Rdv.reset c.rdv j).gen (c.equeue n)).1) ∨
        (n ∉ cutEngines e (SMap.get Rdv.reset c.rdv j).set_ ∧ m ∈ c.equeue n)) := by
  simp only [Core.cutWaits, Bool.not_eq_true', List.all_eq_false, List.mem_range, ← Core.waitsFor_c_iff]
  refine exists_congr fun n => and_congr_right fun _ => ?_
  by_cases hn : n ∈ cutEngines e (SMap.get Rdv.reset c.rdv j).set_
  · simp [hn, and_comm]
  · simp [hn, and_comm]

end

/-- ECUT waits, or cuts and writes the number of what it has discarded. -/
theorem ecutOp_run (d j e : Nat) (s : State) : (ecutOp d j e).run s =
    if s.me.cutWaits j e then .error .block
    else .ok ((), (s.withMe (s.me.afterCut j e)).setS d (BitVec.ofNat 64 (s.me.cutGone j e).length)) := by
  rw [ecutOp, Op.run_bind_ok (here_run s)]
  dsimp only
  split_ifs with hwait
  · rw [Core.cutWaits, Bool.not_eq_true'] at hwait
    exact Op.run_bind_error ((guardBlock_run ..).trans (if_neg (by rw [← Bool.not_eq_true] at hwait; exact hwait)))
  · rw [Core.cutWaits, Bool.not_eq_true', Bool.not_eq_false] at hwait
    exact (Op.run_bind_ok ((guardBlock_run ..).trans (if_pos hwait))).trans rfl

section
variable {s t : State} {i : Instr} {h : Hdr} {c c' : Core}

theorem Core.sreg_setSreg_c_congr (hc : c.regC = c'.regC) (d r : Nat) (v : Word) :
    (c.setSreg .c d v).sreg .c r = (c'.setSreg .c d v).sreg .c r := by
  unfold Core.setSreg Core.sreg
  split_ifs <;> simp [hc]

theorem Core.equeue_setSreg (c : Core) (st : Stream) (d : Nat) (v : Word) (n : Nat) :
    (c.setSreg st d v).equeue n = c.equeue n := by rw [Core.equeue, Core.setSreg_eq, Core.equeue]

theorem State.waited_eq (hs : s.me.st ≠ .idle) : (s.waited i h).me.eq = s.me.eq :=
  State.waited_keep Core.eq hs (fun c st x => by simp) (fun _ _ => rfl) fun c st r => by cases st <;> rfl

theorem State.waited_rdv (hs : s.me.st ≠ .idle) : (s.waited i h).me.rdv = s.me.rdv :=
  State.waited_field hs Core.rdv fun _ => rfl

theorem State.waited_regC (hs : s.me.st ≠ .idle) : (s.waited i h).me.regC = s.me.regC :=
  State.waited_field hs Core.regC fun _ => rfl

theorem State.waited_cutWaits (hs : s.me.st ≠ .idle) (j e : Nat) :
    (s.waited i h).me.cutWaits j e = s.me.cutWaits j e := by
  have hwaits : (s.waited i h).me.waitsFor = s.me.waitsFor := by
    funext st n m
    simp only [Core.waitsFor, State.waited_act hs, State.waited_nest hs]
  simp only [Core.cutWaits, Core.equeue, hwaits, State.waited_eq hs, State.waited_rdv hs]

theorem State.waited_cutGone (hs : s.me.st ≠ .idle) (j e : Nat) : (s.waited i h).me.cutGone j e = s.me.cutGone j e := by
  simp only [Core.cutGone, Core.equeue, State.waited_eq hs, State.waited_rdv hs]

theorem Core.afterCut_keeps (c : Core) (j e : Nat) : (c.afterCut j e).st = c.st ∧ (c.afterCut j e).regC = c.regC := by
  obtain ⟨x, y, hxy⟩ := c.afterCut_eq j e
  obtain ⟨m, hm⟩ := c.cutQueues_eq j (SMap.get Rdv.reset c.rdv j).gen (cutEngines e (SMap.get Rdv.reset c.rdv j).set_)
  rw [hxy, hm]
  exact ⟨rfl, rfl⟩

/-- The queues after a cut of the state after a wait. -/
theorem State.equeue_afterCut_waited (hs : s.me.st ≠ .idle) (j e n : Nat) :
    ((s.waited i h).me.afterCut j e).equeue n = ((s.waited i h).me.cutQueues j (SMap.get Rdv.reset s.me.rdv j).gen
      (cutEngines e (SMap.get Rdv.reset s.me.rdv j).set_)).equeue n := by
  obtain ⟨x, y, hxy⟩ := (s.waited i h).me.afterCut_eq j e
  rw [hxy, State.waited_rdv hs]
  rfl

end

theorem ecutDiscardsBehindTheMarker : EcutDiscardsBehindTheMarker := by
  intro s h d j e hr r named before behind hrise waits ahead
  have hs := State.ready_busy hr
  let w := s.waited (.ecut h d j e) h
  have hw : w.me.st ≠ .idle := by rwa [State.waited_st hs]
  have hc : s.curStream = .c := List.mem_singleton.mp (State.curStream_mem_of_ready hr)
  have hnamed (n : Nat) : n ∈ cutEngines e (SMap.get Rdv.reset s.me.rdv j).set_ ↔ named n := mem_cutEngines
  have hahead : w.me.cutWaits j e = true ↔ ahead := by
    rw [State.waited_cutWaits hs, Core.cutWaits_iff]
    simp only [hnamed]
    exact Iff.rfl
  have hequeue (n : Nat) : w.me.equeue n = s.me.equeue n := by rw [Core.equeue, State.waited_eq hs, Core.equeue]
  refine ⟨fun hwait => ?_, fun hgo => ?_⟩
  · refine runOp_block hr (by rw [hc]; decide) ?_
    rw [ecutOp_run, if_pos (hahead.mpr hwait)]
  · have hput : w.MovedMe (w.withMe (w.me.afterCut j e)) (w.me.afterCut j e) :=
      State.movedMe_withMe (by rwa [(Core.afterCut_keeps ..).1])
    have ht := hput.setS (by rwa [(Core.afterCut_keeps ..).1]) d (BitVec.ofNat 64 (s.me.cutGone j e).length)
    have hqueue (n : Nat) :
        ((w.withMe (w.me.afterCut j e)).setS d (BitVec.ofNat 64 (s.me.cutGone j e).length)).me.equeue n =
        (w.me.cutQueues j r.gen (cutEngines e r.set_)).equeue n := by
      rw [ht.mine, Core.equeue_setSreg]
      exact State.equeue_afterCut_waited hs j e n
    refine ⟨_, (s.me.cutGone j e).length, runOp_ready hr ?_, fun r => ?_, ht.mem.trans State.waited_mem,
      fun n hn hnot => ?_, fun n hn hyes => ?_, Core.length_cutGone ..⟩
    · rw [ecutOp_run, if_neg (fun hwait => hgo (hahead.mp hwait)), State.waited_cutGone hs]
    · rw [ht.sreg, State.waited_curStream, hc]
      exact Core.sreg_setSreg_c_congr ((Core.afterCut_keeps ..).2.trans (State.waited_regC hs)) ..
    · rw [hqueue, Core.equeue_cutQueues_other (fun hmem => hnot ((hnamed n).mp hmem)), hequeue]
    · rw [hqueue, Core.equeue_cutQueues (nodup_cutEngines ..) (by rwa [State.waited_eq hs]) ((hnamed n).mpr hyes),
        hequeue]
      exact cutRest_eq ..

/-- Settles O19: BTOK pops only after it has looked at the route, the mailbox words check the coupled core first, and
ECUT cuts the queues of the engines named one by one, each as it stood. -/
theorem tokensMailAndCuts : Obligations.TokensMailAndCuts :=
  ⟨btokBranchesByRoute, mailboxSendAndReceive, ecutDiscardsBehindTheMarker⟩

end Sys2Proof.Machine
end
